-- ==== Sys2Proof/Word.lean ====
section
/-! DEFINITION. The word types of the slice: what the manual treats as bits. -/

namespace Sys2Proof

/-- A byte. -/
abbrev Byte := BitVec 8
/-- A 64-bit word: a packet word, a command word, a register (02_boundary.md R11). -/
abbrev W64 := BitVec 64
/-- A 32-bit register or fp32 value. -/
abbrev W32 := BitVec 32
/-- The 128 data bytes of one line; byte i is bits [8i+7:8i], sector i bits [256i+255:256i] (04_cache.md R102). -/
abbrev Line := BitVec 1024
/-- A line's number: local offset [34:7] (01_slice_in_the_processor.md R29). -/
abbrev LineNo := BitVec 28
/-- A 64-byte half of a line (11_host_coherence.md R307). -/
abbrev Half := BitVec 512
/-- The 16 bytes of line metadata, byte 0 in bits [7:0] (02_boundary.md R53). -/
abbrev Meta := BitVec 128
/-- A context slot. -/
abbrev Ctx := BitVec 12
/-- A generation. -/
abbrev Gen := BitVec 8

end Sys2Proof
end

