-- ==== Sys2Proof/Syntax.lean ====
section
/-! DEFINITION. The commands of the slice: one constructor of Instr for each row of spec/opcode_table.json, with the
packet, register write, pin event or internal event that the row names as its operand. The opcode of a packet is
the row's own; every other field is an operand. -/

namespace Sys2Proof

/-- The two mesh stops (01_slice_in_the_processor.md, Mesh). -/
inductive Stop where
  | north
  | south
  deriving DecidableEq, Repr

/-- The virtual channel a request entered by (02_boundary.md Table PORT-7). -/
inductive Vc where
  | vc0
  | vc2
  deriving DecidableEq, Repr

/-- A data-plane request packet less its OPCODE (02_boundary.md R41, Tables PORT-2 to PORT-5). -/
structure Req where
  stop : Stop
  vc : Vc
  /-- Envelope bits [43:0] of a VC2 packet (R48); zero on VC0. -/
  env : BitVec 44
  subop : BitVec 4
  ctx : Ctx
  gen : Gen
  tc : BitVec 4
  deadline : BitVec 12
  scope : BitVec 3
  mv : Bool
  manifest : BitVec 14
  source : BitVec 16
  tag : BitVec 12
  sect : BitVec 4
  maskmode : BitVec 2
  /-- Reserved bits W1 [29:21]. -/
  rsvd : BitVec 9
  plen : BitVec 5
  aux : BitVec 16
  address : W64
  /-- Words W3 (low) and W4 (high), present when MASKMODE = 1. -/
  bmask : BitVec 128
  payload : List W64
  deriving DecidableEq, Repr

/-- The path a command arrives by (03_command_channel.md Table CMD-1, R68). -/
inductive CmdPath where
  | sideband
  | vc2 (stop : Stop) (peer : BitVec 16)
  | ring (fabric : Bool)
  deriving DecidableEq, Repr

/-- A 64-byte command (03_command_channel.md R73): words W0, W1 and P0 to P5 as they arrive, with the reserved bits of
the transport that carried it (envelope bits [43:0], or the reserved bits of the SB_CMD word; 02_boundary.md R483). -/
structure CmdPkt where
  path : CmdPath
  env : BitVec 52
  w0 : W64
  w1 : W64
  p0 : W64
  p1 : W64
  p2 : W64
  p3 : W64
  p4 : W64
  p5 : W64
  deriving DecidableEq, Repr

/-- A host message less CLASS and MSG (11_host_coherence.md R307, Table COH-2). -/
structure HostMsg where
  stop : Stop
  /-- 1 when it came on the channel of Table COH-1. -/
  rightChannel : Bool
  agent : BitVec 4
  mval : BitVec 2
  snp : BitVec 2
  ctag : BitVec 16
  status : BitVec 4
  psn : Bool
  rsvd : BitVec 27
  address : W64
  be : W64
  data : Half
  deriving DecidableEq, Repr

/-- The paths of register accesses (19_control_window.md R467, R469). -/
inductive Path where
  | sideband
  | inband
  | aperture
  deriving DecidableEq, Repr

/-- What the march test finds (17_startup_and_levels.md R443): rows as (quad, bank, row), banks as (quad, bank 0 to 16). -/
structure BistFindings where
  rows : List (BitVec 2 × BitVec 5 × BitVec 11)
  banks : List (BitVec 2 × BitVec 5)
  /-- A tag quadrant, directory segment, accumulator half, sync store or controller data region fails. -/
  unit : Bool
  deriving DecidableEq, Repr

/-- A disturbance of stored state that a scrub step meets (15_integrity_and_sparing.md Table ECC-1). Locations take the
forms of Table ECC-4. -/
inductive Upset where
  /-- Bits flipped in data word `word` of (set, way): data bits and check bits. -/
  | dataWord (set : BitVec 12) (way : BitVec 5) (word : BitVec 4) (dx : W64) (cx : BitVec 8)
  | tagBits (set : BitVec 12) (way : BitVec 5) (x : BitVec 56)
  /-- DANY or a mask of a set fails its parity, or the tree does. -/
  | setState (set : BitVec 12) (tree : Bool)
  | dirEntry (set : BitVec 15) (way : BitVec 4) (dx : BitVec 56) (cx : BitVec 8)
  | accByte (line : BitVec 15) (byte : BitVec 7) (dx : Byte) (cx : BitVec 5)
  | syncByte (index : BitVec 14) (byte : BitVec 4) (dx : Byte) (cx : BitVec 5)
  /-- Bits flipped in a word of the slipway entry with a write index. -/
  | slipWord (index : BitVec 10) (word : BitVec 4) (dx : W64) (cx : BitVec 8)
  /-- A controller record, by the kinds of LOC form O, is found uncorrectable. -/
  | record (kind : BitVec 4) (index : BitVec 14)
  /-- An island's copy of a table, or a tile record, is found in error and rebuilt or corrected. -/
  | copy (kind : BitVec 4) (index : BitVec 14)
  /-- Parity of a key register. -/
  | keyReg (slot : BitVec 9) (gen : Bool)
  /-- Parity of the granule's page-header-cache or format-cache entry. -/
  | lookup (header : Bool) (granule : BitVec 23)
  /-- Parity of a fatal structure, or of a code bank; the unit code is internal. -/
  | fatal (unit : BitVec 14)
  deriving DecidableEq, Repr

/-- One command of the slice. Timed steps carry the control cycle at which they come (log 9). -/
inductive Instr where
  -- power, reset and start-up
  | pwrOkRise
  | coldRstAssert
  | warmRstAssert
  | resetRelease
  | leaveOffForInit
  | isoNChange (level : Bool)
  | vddSwRemoval (vddRetToo : Bool)
  | fwload (request : BitVec 16) (bank : Bool) (offset : BitVec 18) (beats : List W64) (parityOk : Bool)
  | fwdone (request : BitVec 16) (result : Byte) (version : W32) (parityOk : Bool)
  | firmwareLoadTimeout (cyc : Nat)
  | controllerStart
  | arrayBist (f : BistFindings)
  | repairLoad
  | hardwareInvalidate
  | tapFuseRepairShift (bits : BitVec 2048)
  | tapBistCtlWrite (val : W32) (f : BistFindings)
  | tapScanEnWrite (b : Bool)
  | tapScanChainAccess (chain : Nat) (bits : List Bool)
  -- data-plane requests
  | rd (r : Req)
  | rdVol (r : Req)
  | rdStream (r : Req)
  | wr (r : Req)
  | wrThru (r : Req)
  | wrFull (r : Req)
  | atom (r : Req)
  | atomRet (r : Req)
  | lred (r : Req)
  | tcontrib (r : Req)
  | tcontribW (r : Req)
  | tfoldFold (r : Req)
  | tfoldSegment (r : Req)
  | tfoldAbort (r : Req)
  | signal (r : Req)
  | wait (r : Req)
  | brd (r : Req)
  | bwr (r : Req)
  | qenq (r : Req)
  | qdeq (r : Req)
  | scatterRed (r : Req)
  | pfHint (r : Req)
  | dataPlaneUnassignedOpcode (op : BitVec 6) (r : Req)
  -- steps of the reduction island
  | contribAdmit (stop : Stop)
  | tileDrain (tile : BitVec 13)
  | towlineForward (hop : BitVec 10)
  | towlineForwardRetry (hop : BitVec 10) (line : BitVec 6) (cyc : Nat)
  | segmentResponse (stop : Stop) (tag : BitVec 12) (status : BitVec 4)
  | hopTimeout (hop : BitVec 10) (cyc : Nat)
  -- steps of the memory port and the array
  | memReadReturn (ticket : BitVec 10) (data : Line) (md : Meta) (ue : Bool)
  | memWriteAck (index : BitVec 10)
  | slipwayIssue
  | replayRetry (quad : BitVec 2) (pos : Nat)
  -- steps of the sync unit
  | manifestCount (manifest : BitVec 14)
  | queueNotify (queue : BitVec 10)
  | waitTimeout (source : BitVec 16) (tag : BitVec 12) (cyc : Nat)
  -- host messages
  | hostMemrd (h : HostMsg)
  | hostMemrddata (h : HostMsg)
  | hostMeminv (h : HostMsg)
  | hostMemspecrd (h : HostMsg)
  | hostMemclnevct (h : HostMsg)
  | hostBiconflict (h : HostMsg)
  | hostMemwr (h : HostMsg)
  | hostMemwrptl (h : HostMsg)
  | hostMsgRefused (cls : BitVec 4) (msg : BitVec 4) (h : HostMsg)
  | hostBirsp (msg : BitVec 4) (h : HostMsg)
  | snoopTimeout (ctag : BitVec 16) (cyc : Nat)
  -- key bus
  | kload (slot : BitVec 9) (gen : Bool) (request : BitVec 16) (dataKey tweakKey tagKey : BitVec 256) (check : W64) (parityOk checkOk : Bool)
  | knack (request : BitVec 16) (reason : Byte)
  | kerase (slot : BitVec 9) (sel : BitVec 2)
  | keyRetireReadsDrained (slot : BitVec 9)
  -- sideband, window and VC2 transports
  | sbRead (site : Byte) (rsvd : BitVec 4) (offset : BitVec 16) (data : W32)
  | sbWrite (site : Byte) (rsvd : BitVec 4) (offset : BitVec 16) (data : W32)
  | sbCmd (site : Byte) (c : CmdPkt)
  | sbTransferIgnored (site : Byte) (kind : BitVec 4)
  | windowAccess (stop : Stop) (peer : BitVec 16) (env : BitVec 44) (w0 w1 : W64)
  | vc2PacketDiscard (kind : BitVec 4) (peer : BitVec 16) (env : BitVec 44) (body : List W64)
  -- register writes
  | registerWrite (path : Path) (eight : Bool) (offset : BitVec 16) (data : W64)
  | cmdqCtlWrite (path : Path) (fabric : Bool) (data : W32)
  | cmdqTailWrite (path : Path) (fabric : Bool) (data : W32)
  | rplqHeadWrite (path : Path) (fabric : Bool) (data : W32)
  | evqCtlWrite (path : Path) (data : W32)
  | evqHeadWrite (path : Path) (data : W32)
  | recovCtlHwfence (path : Path) (data : W32)
  | dbgPeekAddrWrite (path : Path) (data : W64)
  | pmcRdWrite (path : Path) (data : W32)
  | redCtlWrite (path : Path) (data : W32)
  | krtWrite (path : Path) (n : BitVec 6) (data : W64)
  | bootCtlWrite (path : Path) (data : W32)
  | sliceIdWrite (path : Path) (mask : Option (BitVec 7)) (data : W64)
  | hcAgentWrite (path : Path) (n : BitVec 4) (data : W32)
  -- command channel
  | ringFetch (fabric : Bool)
  | commandUnassigned (opcode : Byte) (c : CmdPkt)
  | nop (c : CmdPkt)
  | identify (c : CmdPkt)
  | pilotClaim (c : CmdPkt)
  | pilotRelease (c : CmdPkt)
  | pilotHandover (c : CmdPkt)
  | leaseRenew (c : CmdPkt)
  | pilotLeaseExpiry (cyc : Nat)
  | stateQuery (c : CmdPkt)
  | levelLock (c : CmdPkt)
  | ctxOpen (c : CmdPkt)
  | ctxSetClass (c : CmdPkt)
  | ctxSuspend (c : CmdPkt)
  | ctxResume (c : CmdPkt)
  | ctxPurge (c : CmdPkt)
  | ctxClose (c : CmdPkt)
  | ctxQuarantine (c : CmdPkt)
  | ctxQuarantineRelease (c : CmdPkt)
  | quarantineTimeout (ctx : Ctx) (cyc : Nat)
  | berthAlloc (c : CmdPkt)
  | arenaObjectAlloc (c : CmdPkt)
  | berthFree (c : CmdPkt)
  | berthFreeAbort (c : CmdPkt)
  | arenaObjectFree (c : CmdPkt)
  | berthGranulesRelease (berth : BitVec 12)
  | berthResize (c : CmdPkt)
  | arenaGrant (c : CmdPkt)
  | arenaRevoke (c : CmdPkt)
  | queueCreate (c : CmdPkt)
  | queueDestroy (c : CmdPkt)
  | pinBudget (c : CmdPkt)
  | copy (c : CmdPkt)
  | copyMeasure (c : CmdPkt)
  | copyEngineStart
  | rangeClean (c : CmdPkt)
  | rangeInval (c : CmdPkt)
  | rangeFlush (c : CmdPkt)
  | rangeZero (c : CmdPkt)
  | maintEngineStart
  | sparsePack (c : CmdPkt)
  | sparseUnpack (c : CmdPkt)
  | acquireSweep (c : CmdPkt)
  | sweepNoticeSend
  | sweepAck (peer : BitVec 16) (env : BitVec 44) (w0 w1 w2 w3 : W64)
  | sweepNoticeTimeout (cluster : BitVec 7) (cyc : Nat)
  | tileOpen (c : CmdPkt)
  | tileClose (c : CmdPkt)
  | tileDiscard (c : CmdPkt)
  | tileQuery (c : CmdPkt)
  | towlineSet (c : CmdPkt)
  | towlineRelease (c : CmdPkt)
  | scatterDescCreate (c : CmdPkt)
  | scatterDescRelease (c : CmdPkt)
  | scatterDescQuery (c : CmdPkt)
  | syncCreate (c : CmdPkt)
  | syncDestroy (c : CmdPkt)
  | syncSet (c : CmdPkt)
  | syncQuery (c : CmdPkt)
  | syncShare (c : CmdPkt)
  | syncShareRemove (c : CmdPkt)
  | jamExport (c : CmdPkt)
  | jamEdgeExport (cyc : Nat)
  | classSet (c : CmdPkt)
  | reserveBw (c : CmdPkt)
  | releaseBw (c : CmdPkt)
  | effWindowEnd (cyc : Nat)
  | latencyTolerance (c : CmdPkt)
  | seasonQuery (c : CmdPkt)
  | thawGrant (c : CmdPkt)
  | autumnEntry (domain : Fin 82)
  | seasonWindowEnd (cyc : Nat)
  | winterEntryComplete (domain : Fin 82)
  | frostEntryComplete (domain : Fin 82)
  | thawStart
  | thawComplete (domain : Fin 82)
  | keyBind (c : CmdPkt)
  | keyBindRevoke (c : CmdPkt)
  | keyRotate (c : CmdPkt)
  | keyRetire (c : CmdPkt)
  | keyErase (c : CmdPkt)
  | confAttach (c : CmdPkt)
  | measureRead (c : CmdPkt)
  | scrubContext (c : CmdPkt)
  | errlogRead (c : CmdPkt)
  | scrubRate (c : CmdPkt)
  | scrubStep (upset : Option Upset)
  | memoryScrubStep
  | rotationSweepStep
  | inject (c : CmdPkt)
  | bankSpare (c : CmdPkt)
  | wayDisable (c : CmdPkt)
  | wayRestore (c : CmdPkt)
  | dirReclaim (c : CmdPkt)
  | poisonClear (c : CmdPkt)
  | engineReset (c : CmdPkt)
  | sliceFenceMode0 (c : CmdPkt)
  | sliceFenceMode1 (c : CmdPkt)
  | quiesceDrained
  | quiesceTimeout (cyc : Nat)
  | pmcConfig (c : CmdPkt)
  | pmcDumpSet (c : CmdPkt)
  | pmcPermit (c : CmdPkt)
  | dumpDue (cyc : Nat)
  | viewRecordWrite (cyc : Nat)
  | confidentialLatch (cyc : Nat)
  | pmTlmWindowEnd (sum count : Nat) (cyc : Nat)
  | debugOpen (c : CmdPkt)
  | debugClose (c : CmdPkt)
  | fwStage (c : CmdPkt)
  | fwStageTimeout (cyc : Nat)
  | fwActivate (c : CmdPkt)
  | fwActivateReady
  | fwActivateTimeout (cyc : Nat)
  | fwQuery (c : CmdPkt)
  | pinPressureWindowEnd (cyc : Nat)
  | teardownHoldExpiry (ctx : Ctx) (cyc : Nat)
  | syncIndexHoldExpiry (index : BitVec 14) (cyc : Nat)
  | manifestCoalescerDrain (manifest : BitVec 14)
  | eventRecordWrite
  | hwFencePowerOff (cyc : Nat)
  | peekResult
  | memoryPortCredit (lines : Nat) (cycles : Nat)
  | reservationTokenRefill (cls : BitVec 4)
  | sliceAliveToggle
  | controllerStops
  deriving DecidableEq, Repr

end Sys2Proof
end

