-- ==== Sys2Proof/Config.lean ====
section
/-! DEFINITION. What an implementation fixes, and the free values: constants without a body, so that nothing can be
proved of a value the manual leaves open. -/

namespace Sys2Proof

/-- The stepping of the part, read by IDENTIFY (03_command_channel.md R83): an implementation value. -/
opaque Config.stepping : BitVec 8
/-- The check bits that the (72,64) SEC-DED code gives a word; the manual names the code and not its matrix (15 R399). -/
opaque Config.checkBits : W64 → BitVec 8
/-- The same for a directory entry's 56 bits (11 Table COH-4). -/
opaque Config.checkBitsDir : BitVec 56 → BitVec 8
/-- The same for a byte with 5 check bits (06 R184, 07 R209). -/
opaque Config.checkBitsByte : Byte → BitVec 5
/-- Bits whose value the manual leaves open, such as those of a poisoned map line (09 R269). -/
opaque Config.freeWord : Nat → W64
/-- A power reading in units of 1/256 of 16 W (02_boundary.md Table PORT-15; 14 R388 gives no figure). -/
opaque Config.freePower : Nat → BitVec 12
/-- The mesh cycles from a request's acceptance to its final response, which timing decides (12 R330). -/
opaque Config.freeLat : Nat → Nat
/-- Sign and fraction bits of the NaN that an E4M3 NaN code becomes (08 R258 says only that it becomes one). -/
opaque Config.nanBits : Byte → W32
/-- FUSE_REPAIR data marks the site failed (17 R442); the manual does not lay the data out. -/
opaque Config.fuseFailed : BitVec 2048 → Bool
/-- The repairs that FUSE_REPAIR data hold, each in the form of Table ECC-7 (17 R444). -/
opaque Config.fuseEntries : BitVec 2048 → List W32
/-- OPCODE, CTX and TAG [7:0] of a trace sample of a host message, by CLASS, MSG and CTAG: the manual lays the sample out for
data-plane requests (18 R463). -/
opaque Config.hostSample : BitVec 4 → BitVec 4 → BitVec 16 → BitVec 26
/-- A bit shifted out of a scan chain (17 R448). -/
opaque Config.freeBit : Nat → Bool

end Sys2Proof
end

