-- ==== Sys2Proof/Machine/Table.lean ====
section
/-! DEFINITION. A sparse table: the entries of a numbered store that differ from its reset value, in one canonical form
(numbers strictly rising, no entry equal to the reset value), so that equal stores are equal data. -/

namespace Sys2Proof.Machine

/-- Entries by number, rising; an unlisted number reads as the store's reset value. -/
abbrev Tbl (α : Type) := List (Nat × α)

/-- The entry of number `k`; `d` where none is listed. -/
def tget {α : Type} (d : α) : Tbl α → Nat → α
  | [], _ => d
  | (j, a) :: t, k => if j = k then a else if k < j then d else tget d t k

/-- Entry `k` written with `a`; writing the reset value removes the entry. -/
def tset {α : Type} [DecidableEq α] (d : α) : Tbl α → Nat → α → Tbl α
  | [], k, a => if a = d then [] else [(k, a)]
  | (j, b) :: t, k, a =>
    if k < j then (if a = d then (j, b) :: t else (k, a) :: (j, b) :: t)
    else if k = j then (if a = d then t else (k, a) :: t)
    else (j, b) :: tset d t k a

/-- Every number listed is at least `lo`, the numbers rise, and no entry is the reset value. -/
def twfFrom {α : Type} [DecidableEq α] (d : α) : Nat → Tbl α → Bool
  | _, [] => true
  | lo, (j, a) :: t => decide (lo ≤ j) && decide (a ≠ d) && twfFrom d (j + 1) t

/-- The canonical form. -/
def twf {α : Type} [DecidableEq α] (d : α) (t : Tbl α) : Bool := twfFrom d 0 t

/-- Entry `k` replaced by its image under `f`. -/
def tmod {α : Type} [DecidableEq α] (d : α) (t : Tbl α) (k : Nat) (f : α → α) : Tbl α :=
  tset d t k (f (tget d t k))

/-- The numbers of a list taken away from a table, by repeated writing of the reset value. -/
def tclear {α : Type} [DecidableEq α] (d : α) (t : Tbl α) : List Nat → Tbl α
  | [] => t
  | k :: ks => tclear d (tset d t k d) ks

/-- Insertion into a list in order, and a list put in order, equal elements staying in their order. -/
def insertBy {α : Type} (le : α → α → Bool) (x : α) : List α → List α
  | [] => [x]
  | y :: t => if le x y then x :: y :: t else y :: insertBy le x t
def sortBy {α : Type} (le : α → α → Bool) : List α → List α
  | [] => []
  | x :: t => insertBy le x (sortBy le t)

end Sys2Proof.Machine
end

