-- ==== Sys2Proof/Machine/State.lean ====
section
/-! DEFINITION. The state of the slice as plain data: every register, table, queue, buffer and pin the manual gives it,
the commands that wait, and the messages that have left. -/

namespace Sys2Proof.Machine

/-- Slice states with their codes (03_command_channel.md Table CMD-7). -/
inductive SliceState where
  | off | init | selftest | ready | service | quiesced | degraded | fenced | debug
  deriving DecidableEq, Repr

/-- What only straps, resets, LEVEL_LOCK and writes of RO/L fields change (02_boundary.md R61, 17 R446). -/
structure Fixed where
  /-- Locked level; none while no level is locked. -/
  level : Option (BitVec 2)
  /-- RO/L fields are locked (00_scope.md R13). -/
  roLocked : Bool
  procId : BitVec 16
  /-- FMAP_CTL, Table SPARSE-2. -/
  fmapBase : BitVec 15
  fmapKeep : Bool
  fmapEn : Bool
  /-- SITE_ID straps and the clamp straps of Table PORT-18. -/
  siteId : BitVec 8
  clampHold : Bool
  clampMemNotReady : Bool
  clampKbEmpty : Bool
  clampSbPresent : Bool
  clampPmTlm : BitVec 12
  clampAlertN : Bool
  deriving DecidableEq, Repr

/-- Power, reset, start-up and test access. -/
structure Life where
  pwrOk : Bool
  /-- The reset pins as driven: true is asserted (low). -/
  coldRst : Bool
  warmRst : Bool
  /-- ISO_N is low. -/
  iso : Bool
  vddSw : Bool
  /-- The reset has been released and the count of 16 control cycles runs (R62). -/
  released : Bool
  st : SliceState
  dbgFrom : SliceState
  /-- The 82 domains have been switched off by a fence. -/
  domainsOff : Bool
  phase : BitVec 4
  fail : BitVec 4
  fwResult : BitVec 8
  banks : BitVec 8
  rows : BitVec 8
  hold : Bool
  rowHealth : BitVec 9
  running : Bool
  alive : Bool
  softRepair : Tbl W32
  fuseRepair : BitVec 2048
  bistCtl : W32
  bistRows : List (BitVec 2 × BitVec 5 × BitVec 11)
  bistBanks : List (BitVec 2 × BitVec 5)
  /-- The last march test found a failing unit (R448). -/
  bistUnit : Bool
  scanEn : Bool
  /-- A scan chain has been shifted since the last cold reset (R448). -/
  scanned : Bool
  pmTlm : BitVec 12
  /-- A hardware fence is waiting to switch the domains off, with the cycle from which it may (R431). -/
  hwFence : Option Nat
  /-- A LEVEL_LOCK accepted within this step fixes this level as the step ends (the model's own; none between steps). -/
  lockTo : Option (BitVec 2)
  deriving DecidableEq, Repr

/-- The pilot (03_command_channel.md R84 to R88). -/
structure Pilot where
  epoch : W32
  /-- Master ID of the pilot; 0 when there is none. -/
  master : BitVec 16
  priority : BitVec 8
  /-- Control cycle from which the lease counts. -/
  leaseFrom : Nat
  deriving DecidableEq, Repr

/-- Registers that software writes and that hold nothing but their value (19_control_window.md Table WIN-1). -/
structure Regs where
  lv : Bool
  logical : BitVec 7
  bucketMask : BitVec 4096
  hintEn : Bool
  hintBucket : Tbl (BitVec 7)
  hintSite : Tbl (BitVec 8)
  pfReserve : BitVec 8
  slipHigh : BitVec 8
  pfDegree : BitVec 2
  pfHintEn : Bool
  pfEn : Bool
  retain : W32
  hopTimeout : BitVec 12
  window : BitVec 7
  pressThresh : BitVec 16
  pressEn : Bool
  frostIdle : BitVec 8
  winterIdle : BitVec 8
  autumnIdle : BitVec 8
  maintTc : BitVec 4
  snoopTimeout : BitVec 12
  hostTc : BitVec 4
  hostEn : Bool
  holdTicks : BitVec 8
  rowThresh : BitVec 8
  bankThresh : BitVec 16
  autoRow : Bool
  reject : Bool
  roff : BitVec 16
  /-- Read and write latches of the three paths (R468): offset of the low half and the half held. -/
  rlatch : Tbl (Option (BitVec 16 × W32))
  wlatch : Tbl (Option (BitVec 16 × W32))
  deriving DecidableEq, Repr

/-- A command ring (03_command_channel.md R69). -/
structure Ring where
  en : Bool
  err : Bool
  base : W64
  rbase : W64
  size : BitVec 4
  ctx : Ctx
  gen : Gen
  tail : BitVec 16
  head : BitVec 16
  rtail : BitVec 16
  rhead : BitVec 16
  /-- Reply entries reserved and not yet written. -/
  reserved : Nat
  /-- The next entry is being fetched. -/
  fetching : Bool
  /-- Replies to be written, oldest first; the oldest is being written. -/
  replies : List (List W64)
  writing : Bool
  deriving DecidableEq, Repr

/-- A posted event: code, sequence number, control cycle, detail (19_control_window.md R476). -/
structure Event where
  code : BitVec 8
  seq : BitVec 16
  cyc : W32
  detail : W64
  deriving DecidableEq, Repr

/-- The event ring (19_control_window.md R474, R475). -/
structure Evq where
  en : Bool
  err : Bool
  sbmir : Bool
  size : BitVec 4
  base : W64
  tail : BitVec 16
  head : BitVec 16
  lost : BitVec 16
  pend : List Event
  seq : BitVec 16
  /-- The oldest record's write is not yet acknowledged. -/
  writing : Bool
  deriving DecidableEq, Repr

/-- A context slot (03_command_channel.md R89; 16 R426, R432, R437; 05 R161). -/
structure CtxEntry where
  gen : Gen
  opened : Bool
  suspended : Bool
  keyslot : BitVec 9
  keyv : Bool
  cls : BitVec 4
  perm : BitVec 8
  conf : Bool
  purged : Bool
  frozen : Bool
  /-- Record lost (15 R400): any GEN purges or closes it. -/
  lost : Bool
  /-- Tick at which the teardown hold ends; 0 when none runs. -/
  holdTick : Nat
  pinCap : BitVec 12
  deriving DecidableEq, Repr

/-- A slot at cold reset. -/
def CtxEntry.closed : CtxEntry := ⟨0, false, false, 0, false, 0, 0, false, false, false, false, 0, 0⟩

/-- A key range register (14 Table CONF-3); LOCK is computed. -/
structure KRange where
  en : Bool
  host : Bool
  keyslot : BitVec 9
  base : BitVec 23
  limit : BitVec 23
  deriving DecidableEq, Repr

/-- A key range at reset. -/
def KRange.reset : KRange := ⟨false, false, 0, 0, 0⟩

/-- Who an array access serves. -/
inductive Src where
  /-- A data-plane request with its opcode. -/
  | dp (opcode : BitVec 6) (r : Req)
  /-- A host request with its CLASS and MSG. -/
  | host (cls msg : BitVec 4) (h : HostMsg)
  /-- The copy engine's running command: read of a source, write of a destination line. -/
  | copyRd
  | copyWr
  /-- A step of the maintenance engine's running command. -/
  | maint
  /-- A bias read or an output write of the drain of a tile. -/
  | bias (tile : BitVec 13)
  | drain (tile : BitVec 13)
  /-- The fetch of a command ring, and the write of a reply. -/
  | ring (fabric : Bool)
  | reply (fabric : Bool)
  /-- The write of an event record, of a dump record, and of a permitted context's view. -/
  | event
  | dump
  | view (ctx : Ctx)
  /-- An internal read of the format map, for nobody in particular. -/
  | fmap
  /-- The read of a word of the format map for the format cache (09 R269). -/
  | mapWord (w : Nat)
  /-- The scrubber's read of a line whose sectors it has lost (15 R407, 04 Table CACHE-11). -/
  | scrub
  /-- A prefetch, with the class of what caused it, and the request if it was one. -/
  | prefetch (cls : BitVec 4) (r : Option Req)
  /-- The reload of a berth line from its source, by way key (15 R398). -/
  | reload (key : Nat)
  /-- A command in progress, by its number. -/
  | cmd (id : Nat)
  deriving DecidableEq, Repr

/-- What an access does to its line. -/
inductive AccOp where
  | read
  | readVol
  | readStream
  | write
  | writeThru
  | atom
  | atomRet
  | lred
  | scatter
  /-- Host reads and writes are Table COH-5's. -/
  | hostRead
  | hostWrite
  /-- Ownership without data (MemInv). -/
  | hostInv
  /-- Berth reads and writes, whose `line` is way × 4096 + set, and queue operations, whose `line` is the queue index. -/
  | brd
  | bwr
  | queue
  deriving DecidableEq, Repr

/-- What a request keeps of its acceptance: CACHE_CTL and CACHE_RETAIN as they stood (04 R143), its control cycle (12 R332) and its age. -/
structure Taken where
  retain : W32
  pfReserve : BitVec 8
  pfDegree : BitVec 2
  pfHintEn : Bool
  pfEn : Bool
  cyc : Nat
  /-- Its place among those accepted. -/
  age : Nat
  deriving DecidableEq, Repr

/-- One access to one memory line (04_cache.md, 10_ordering.md R285). -/
structure Access where
  op : AccOp
  src : Src
  line : LineNo
  /-- Named sectors. -/
  sect : BitVec 4
  /-- Critical sector of a read. -/
  crit : BitVec 2
  /-- Bytes written, by place in the line. -/
  bytes : BitVec 128
  /-- Write data, each byte at its place in the line. -/
  data : Line
  /-- The early part has been sent (R110). -/
  early : Bool
  /-- ATOM has been acknowledged (R181). -/
  acked : Bool
  /-- The access has caused snoops that are answered (R323). -/
  snooped : Bool
  /-- Its hit or miss has been counted. -/
  counted : Bool
  /-- An engine writes data that are poisoned: the line is marked (15 R394). -/
  psn : Bool := false
  /-- Its place among the accesses to its line, which keep the order of these places (04 R118); 0 before it is placed. -/
  ord : Nat := 0
  /-- The line's range as it stood when it was placed (14 R366). -/
  range : Option KRange := none
  /-- What it keeps of its acceptance; none before it is placed, unless it was held at its landing. -/
  ctl : Option Taken := none
  /-- The check of the fill it waited for required a refetch (04 R110). -/
  again : Bool := false
  /-- It is an engine's, and its wait for a thaw has been counted (13 R353). -/
  slept : Bool := false
  /-- Deadline D of an urgent request, in half mesh cycles (12 R332); none when it is not urgent. -/
  due : Option Nat := none
  /-- A writeback of a host that came while a snoop of its half was out to its sender: it waits behind nothing (11 R321). -/
  cross : Bool := false
  deriving DecidableEq, Repr

/-- Tag entry of a way (04_cache.md Table CACHE-1); parity is stored with the tag and is computed here, its errors in ArrErr. -/
structure Tag where
  tag : BitVec 16
  v : BitVec 4
  d : BitVec 4
  z : BitVec 4
  keyslot : BitVec 9
  kgen : Bool
  keyv : Bool
  fmt : BitVec 2
  cls : BitVec 4
  ret : BitVec 2
  pf : Bool
  poison : Bool
  deriving DecidableEq, Repr

/-- A free way: the reset value of a tag entry. -/
def Tag.free : Tag := ⟨0, 0, 0, 0, 0, false, false, 0, 0, 0, false, false⟩

/-- Per-set state (04_cache.md R105); DANY is the vector of the ways' D fields. -/
structure SetSt where
  plru : BitVec 31
  pin : W32
  retired : W32
  deriving DecidableEq, Repr

/-- What a miss ticket reads, and what becomes of the line (04 R114, 09 R270, 14 R373, 15 R410). -/
inductive TKind where
  /-- A line to install in the way the ticket chose. -/
  | fill (way : BitVec 5)
  /-- A read that R126 serves without allocation. -/
  | noAlloc
  /-- A WR_THRU miss being assembled in a MERGE entry (R119, R128). -/
  | merge
  /-- A sparse page's header line, for the page-header cache. -/
  | header
  /-- A packed physical line of a sparse page. -/
  | packed
  /-- Rotation sweep and memory scrub: read without installing, under the FORMAT that its page gives the line. -/
  | sweep (fmt : BitVec 2)
  | memScrub (fmt : BitVec 2)
  /-- The stored form for INJECT, which checks nothing: command number. -/
  | raw (id : Nat)
  deriving DecidableEq, Repr

/-- A miss ticket (04_cache.md R114). -/
structure Ticket where
  num : BitVec 10
  line : LineNo
  kind : TKind
  cls : BitVec 4
  crit : BitVec 2
  prefetch : Bool
  /-- Deadline of the most urgent request it serves (12 R332). -/
  due : Option Nat
  /-- The line's range as the read was accepted under it (14 R366). -/
  range : Option KRange
  issued : Bool
  attempts : Nat
  /-- Order of arrival at the port, and that in which it was allocated: a MERGE entry's write keeps it (04 R130). -/
  seq : Nat
  born : Nat
  /-- What the request that took it keeps of its acceptance (04 R143). -/
  ctl : Taken
  waiters : List Access
  deriving DecidableEq, Repr

/-- What an acknowledged line write completes (02 R51). -/
inductive WAfter where
  | slip
  | thruHit (set : BitVec 12) (way : BitVec 5) (a : Access)
  | thruMiss (a : Access)
  | merge (a : Access)
  /-- A write that the command in progress waits for. -/
  | cmd (id : Nat)
  | none
  deriving DecidableEq, Repr

/-- A line write queued for the port or written and not yet acknowledged (04 R128, R484). -/
structure PWrite where
  line : LineNo
  data : Line
  zero : BitVec 4
  fmt : BitVec 2
  keyv : Bool
  keyslot : BitVec 9
  poison : Bool
  cls : BitVec 4
  /-- It holds one of the 128 slipway entries. -/
  slip : Bool
  issued : Bool
  index : BitVec 10
  seq : Nat
  /-- The line was written again since (R121). -/
  rewritten : Bool
  after : WAfter
  /-- Commands in progress whose step ends at this acknowledgement (Table CACHE-8). -/
  also : List Nat
  /-- The stored form is written as it stands, with no new check (15 R411). -/
  raw : Option (Line × Meta) := none
  /-- Deadline of the request it serves (12 R332). -/
  due : Option Nat := none
  deriving DecidableEq, Repr

/-- A request that waits in its quad's replay queue (04 R118; `reserved`: one of the four entries of 11 R323). -/
structure Parked where
  acc : Access
  reserved : Bool
  /-- It waits for a thaw, and the wait has been counted (13 R353). -/
  thaw : Bool
  /-- It came from a ticket's list and holds its waiter record still: it takes none of the queue's 32 entries (04 R117). -/
  waiter : Bool := false
  deriving DecidableEq, Repr

/-- A stride tracker (04_cache.md Prefetch). -/
structure Tracker where
  source : BitVec 16
  stream : BitVec 8
  granule : BitVec 23
  last : Int
  stride : Int
  conf : Nat
  ahead : Option Int
  hinted : Bool
  deriving DecidableEq, Repr

/-- Corruption of stored words against their code (15 R411): flipped data bits and check bits, by location. -/
structure ArrErr where
  word : Tbl (W64 × BitVec 8)
  tag : Tbl (BitVec 56)
  dirE : Tbl (BitVec 56 × BitVec 8)
  acc : Tbl (Byte × BitVec 5)
  sync : Tbl (Byte × BitVec 5)
  deriving DecidableEq, Repr

/-- A finished access of an engine, or an acknowledged write that an engine waits for, on its way to the engine. -/
inductive Done where
  | read (src : Src) (line : LineNo) (data : Line) (poison : Bool)
  | write (src : Src) (line : LineNo)
  | ack (w : WAfter) (line : LineNo)
  /-- An access answered with a status other than OK. -/
  | fail (src : Src) (line : LineNo) (status : BitVec 4)
  /-- A line as stored, with its metadata, for a command. -/
  | raw (id : Nat) (data : Line) (md : Meta)
  deriving DecidableEq, Repr

/-- A request that stays at the head of its landing, in a quad's issue window, or behind one that does (02 R38, 04 R118, 07 R220, 12
R335), with what it keeps of its acceptance once it stays. -/
inductive Held where
  | dp (op : BitVec 6) (r : Req) (t : Option Taken)
  | host (cls msg : BitVec 4) (h : HostMsg) (t : Option Taken)
  deriving DecidableEq, Repr

/-- The array island's cache. -/
structure Cache where
  /-- By set × 32 + way. -/
  tags : Tbl Tag
  data : Tbl Line
  sets : Tbl SetSt
  tickets : List Ticket
  writes : List PWrite
  /-- Writes that wait for a write index. -/
  owed : List PWrite
  replay : List Parked
  /-- Memory requests held at the landings, in arrival order (R118, R38). -/
  heldN : List Held
  heldS : List Held
  /-- Per stop and quad: grants of its issue window since the last one that went to the oldest (12 R334, R335). -/
  issues : Tbl Nat
  /-- Accesses of the slice's own engines that have been started and must be tried (again), oldest first. -/
  own : List Access
  trackers : List Tracker
  credits : Nat
  nextSeq : Nat
  /-- Corrected-error counts of rows, most recently erring first, per quad; and of banks (R408, R413). -/
  rowErr : Tbl (List (Nat × Nat))
  bankErr : Tbl Nat
  wornBanks : List Nat
  /-- Rows remapped to spare rows: (quad × 17 + bank, row, spare row). -/
  rowMap : List (Nat × Nat × Nat)
  /-- Per quad: physical index that the spare serves, plus one; 0 when unused. -/
  spareFor : Tbl Nat
  spareBad : List Nat
  errs : ArrErr
  done : List Done
  deriving DecidableEq, Repr

/-- Berth-table entry (05 Table BERTH-2); REFS is counted from what refers to the berth (R157). -/
structure Berth where
  valid : Bool
  freeing : Bool
  srcv : Bool
  qheld : Bool
  ctx : Ctx
  size : BitVec 9
  mapbase : BitVec 12
  gen : Gen
  src : W64
  /-- EVENT of the free that waits for REFS (R158). -/
  event : Bool
  /-- A resize or a compaction answers RETRY meanwhile (R160). -/
  moving : Bool
  deriving DecidableEq, Repr

/-- A free berth index at reset. -/
def Berth.free : Berth := ⟨false, false, false, false, 0, 0, 0, 0, 0, false, false⟩

/-- An arena (05 R163). -/
structure Arena where
  valid : Bool
  gen : Gen
  ctx : Ctx
  start : W64
  base : BitVec 35
  length : Nat
  deriving DecidableEq, Repr

/-- A free arena index at reset. -/
def Arena.free : Arena := ⟨false, 0, 0, 0, 0, 0⟩

/-- An arena object (05 R164). -/
structure ArenaObj where
  valid : Bool
  gen : Gen
  ctx : Ctx
  arena : BitVec 6
  offset : Nat
  size : Nat
  deriving DecidableEq, Repr

/-- A free object index at reset. -/
def ArenaObj.free : ArenaObj := ⟨false, 0, 0, 0, 0, 0⟩

/-- A ferry queue (05 R170, R172). -/
structure Ferry where
  valid : Bool
  gen : Gen
  ctx : Ctx
  berth : BitVec 12
  base : BitVec 14
  esize : BitVec 3
  depth : BitVec 5
  notifyV : Bool
  ngen : Gen
  notify : BitVec 14
  head : BitVec 17
  tail : BitVec 17
  /-- Its QUEUE_DESTROY has started and waits for operations that reached the queue unit before (05 R174). -/
  closing : Bool
  deriving DecidableEq, Repr

/-- A free queue index at reset. -/
def Ferry.free : Ferry := ⟨false, 0, 0, 0, 0, 0, 0, false, 0, 0, 0, 0, false⟩

/-- Free indices of one table in the order in which they were freed (05 R149): the indices freed since reset, after
those from `next` up that have never been used; `taken` are indices allocated by request out of that order. -/
structure FreeQ where
  next : Nat
  taken : List Nat
  freed : List Nat
  deriving DecidableEq, Repr

/-- A berth line being read again from its source (15 R398): way key, memory line, berth; `busy` once a ticket reads it. -/
structure Reload where
  key : Nat
  line : LineNo
  berth : BitVec 12
  busy : Bool
  deriving DecidableEq, Repr

/-- Berths, arenas and ferry queues. -/
structure BerthSt where
  berths : Tbl Berth
  berthQ : FreeQ
  /-- Granule map: map entry to group × 32 + way, plus one; 0 when free. -/
  gmap : Tbl Nat
  miss : Tbl (BitVec 16)
  pressured : BitVec 128
  arenas : Tbl Arena
  arenaQ : FreeQ
  objs : Tbl ArenaObj
  objQ : FreeQ
  ferries : Tbl Ferry
  ferryQ : FreeQ
  reloads : List Reload
  deriving DecidableEq, Repr

/-- A command as it was received: its words, master and opcode, and its number in order of arrival. -/
structure Rec where
  id : Nat
  opcode : BitVec 8
  master : BitVec 16
  pkt : CmdPkt
  /-- Order in which it began to wait at the head of its channel; 0 before (03 R79). -/
  wait : Nat
  /-- Control cycle in which it reached the controller (03 R79). -/
  cyc : Nat
  deriving DecidableEq, Repr

/-- A copy in progress (05 R168): lines done, lines in all, poisoned lines written, line held between its read and write. -/
structure CopyProg where
  next : Nat
  lines : Nat
  poisoned : Nat
  held : Option (Line × Bool)
  waiting : Bool
  deriving DecidableEq, Repr

/-- What the maintenance engine walks (04 R137, 09 R276, 11 R326, 15 R415, R416): the lines named, as runs of first line and
count; the place reached; the step within it; the result words; and what the step waits for. -/
structure MaintProg where
  runs : List (Nat × Nat)
  next : Nat
  stepNo : Nat
  res0 : Nat
  res1 : Nat
  res2 : Nat
  /-- A page was left dense because of poison (09 R278). -/
  flag : Bool
  /-- The line whose step has begun and waits: its way is no victim meanwhile (04 R125). -/
  at_ : Option LineNo
  /-- The step's snoops have been sent. -/
  snooped : Bool
  /-- Reads and writes of the command that are not yet ended. -/
  left : Nat
  /-- Admitted requests that the step waits for, by source and tag (09 R276, 08 R261). -/
  before : List (BitVec 16 × BitVec 12)
  /-- Lines read of the page (09 R276). -/
  buf : List (LineNo × Line × Bool)
  deriving DecidableEq, Repr

/-- A mode-0 fence (15 R418, R419): its step; admitted requests it waits for; lines written back and lines poisoned; writes
not yet acknowledged. -/
structure FenceProg where
  discard : Bool
  fatal : Bool
  phase : Nat
  before : List (BitVec 16 × BitVec 12)
  wb : Nat
  pois : Nat
  left : Nat
  deriving DecidableEq, Repr

/-- A tile close in progress (07 R231, R232; 08 R252): the buffer cut off, contributions answered LATE since, whether the
drain has begun, bias lines read, writes still to be made and those not yet performed, bytes
written, and what the drained buffer held. -/
structure CloseProg where
  tile : BitVec 13
  buf : Bool
  late : Nat
  draining : Bool
  bias : List (Nat × Line × Bool)
  /-- The writes have been computed from the buffer. -/
  made : Bool
  todo : List Access
  left : Nat
  bytes : Nat
  poisoned : Bool
  exp : BitVec 8
  ovf : Bool
  deriving DecidableEq, Repr

/-- What a command that has started and not completed waits for. -/
inductive Prog where
  /-- Started: its first step waits for a thaw (13 R353) or for a word of the format map. -/
  | first
  /-- Held by the copy engine, not yet running. -/
  | copyHeld
  | copyRun (p : CopyProg)
  /-- Held by the maintenance engine, not yet running. -/
  | maintHeld
  | maintRun (p : MaintProg)
  | sweepRun (notices : List (BitVec 7)) (sent : List (BitVec 7 × Nat)) (acked : List (BitVec 7)) (lost : List (BitVec 7)) (before : List (BitVec 16 × BitVec 12))
  /-- Waits for the security block: number of the key request. -/
  | key (req : BitVec 16)
  /-- A retirement: reads under the slot issued before it, by ticket number. -/
  | retire (slot : BitVec 9) (reads : List (BitVec 10))
  /-- A tile close after its cut-off, or a hop's close. -/
  | close (c : CloseProg)
  | quiesce (from_ : Nat) (waits : List (BitVec 16 × BitVec 12))
  | quarantine (from_ : Nat)
  /-- LEVEL_LOCK clearing the format map: lines written so far, and lines acknowledged. -/
  | lock (next acked : Nat)
  | fence (p : FenceProg)
  | latency (prev : BitVec 24) (doms : List Nat) (n : Nat)
  /-- FW_STAGE: lines read so far, of `lines`; then the number of its FWIMG. -/
  | stage (bank : Bool) (lines : Nat) (got : List Line) (req : Option (BitVec 16)) (from_ : Nat)
  | activate (bank : Bool) (restarted : Bool) (from_ : Nat)
  /-- ERRLOG_READ writing entries: writes left, number of entries, and the last SEQ to be freed under CONSUME. -/
  | errlog (left : Nat) (n : Nat) (eat : Option (BitVec 16))
  /-- POISON_CLEAR of a memory line: whether it was poisoned before its fill, whether a fill was begun, and whether that fill
  failed (15 R412). -/
  | poison (line : LineNo) (was filled bad : Bool)
  /-- INJECT on a memory line (15 R411): the line, its XORs when it is a FLIP, and whether the read has been begun. -/
  | inject (line : LineNo) (flip : Option (W64 × W64)) (asked : Bool)
  /-- A free with ABORT or a release that waits for requests admitted before. -/
  | drainRefs (n : Nat)
  /-- CTX_PURGE after its cut, waiting for the domains that its release needs: commands cancelled, and objects owned then; and one that has come
  since and completes together with the purge of that number (16 R426). -/
  | purge (cancelled objs : Nat)
  | purgeWith (id : Nat)
  /-- Pins granules for a berth (05 R156): the ways still to be emptied and pinned, as way keys. -/
  | pin (berth : BitVec 12) (todo : List Nat)
  deriving DecidableEq, Repr

/-- A command in progress. -/
structure Run where
  cmd : Rec
  prog : Prog
  deriving DecidableEq, Repr

/-- The command channel (03 R76 to R79). -/
structure Cmds where
  waiting : List Rec
  running : List Run
  nextId : Nat
  nextWait : Nat
  /-- The last CTX_PURGE that completed: context, generation, control cycle, status and result words. One of the same context that starts in
  that cycle completes together with it (16 R426, log 68). -/
  purge : Option (Ctx × Gen × Nat × Nat × List W64)
  /-- Acquire-sweep sequence number (10 R302). -/
  sweepSeq : BitVec 16
  deriving DecidableEq, Repr

/-- Sync object record (06 Table SYNC-3). -/
structure SyncObj where
  value : W64
  valid : Bool
  err : Bool
  shared : Bool
  orphan : Bool
  kind : BitVec 2
  unit : Bool
  sigv : Bool
  sigq : BitVec 16
  errcode : BitVec 8
  owner : Ctx
  ogen : Gen
  gen : Gen
  deriving DecidableEq, Repr

/-- A free object at reset. -/
def SyncObj.free : SyncObj := ⟨0, false, false, false, false, 0, false, false, 0, 0, 0, 0, 0⟩

/-- A parked wait (06 R201; 16 R420 to R423, R432). -/
structure Wait where
  obj : BitVec 14
  cond : BitVec 4
  n : W64
  source : BitVec 16
  tag : BitVec 12
  ctx : Ctx
  gen : Gen
  tc : BitVec 4
  scope : BitVec 3
  stop : Stop
  acq : Bool
  /-- Tick at which it expires; 0 when it has no timeout. -/
  expire : Nat
  /-- Ticks left, while its context is frozen. -/
  left : Nat
  parkCyc : Nat
  parkTick : Nat
  /-- The edge has been marked as quiet (R421). -/
  quiet : Bool
  /-- The edge has been exported with this signaller (R421, R422). -/
  exported : Option (BitVec 16)
  /-- Its timeout has ended, and its answer waits for the sync store's thaw (13 R353). -/
  late : Bool
  deriving DecidableEq, Repr

/-- A coalescer entry or a count under way (06 R196): manifest, its generation, sum, narrowest scope, and the context and
class of each arrival summed. -/
structure Count where
  obj : BitVec 14
  gen : Gen
  sum : Nat
  scope : BitVec 3
  srcs : List (Ctx × BitVec 4)
  /-- It has been counted as one that waits for a thaw (13 R353). -/
  thaw : Bool
  deriving DecidableEq, Repr

/-- A counted request that has taken effect and waits for a coalescer entry before it is counted and answered (06 R196, log 108):
its opcode, the answer it gets, and whether it was acknowledged before. -/
structure CoalWait where
  op : BitVec 6
  r : Req
  said : Bool
  info : BitVec 16
  payload : List W64
  deriving DecidableEq, Repr

/-- A queue notify under way (05 R173). -/
structure Notify where
  queue : BitVec 10
  obj : BitVec 14
  gen : Gen
  scope : BitVec 3
  ctx : Ctx
  tc : BitVec 4
  /-- It has been counted as one that waits for a thaw (13 R353). -/
  thaw : Bool
  deriving DecidableEq, Repr

/-- The sync unit and the jam detector. -/
structure SyncSt where
  objs : Tbl SyncObj
  objQ : FreeQ
  /-- Indices freed and still held, with the tick at which each enters the free queue (16 R438). -/
  heldIdx : List (BitVec 14 × Nat)
  /-- Members of each object. -/
  members : Tbl (List (Ctx × Gen))
  /-- Parked waits in parking order. -/
  waits : List Wait
  /-- Requests whose unit entry waits for the sync store's thaw (13 R353). -/
  thawQ : List (BitVec 6 × Req)
  coal : List Count
  coalWait : List CoalWait
  counts : List Count
  notifies : List Notify
  jamCollector : BitVec 16
  jamQuiet : BitVec 12
  jamEn : Bool
  /-- EN has gone from 0 to 1 since the last tick: every quiet edge is exported at the next (16 R421). -/
  jamFresh : Bool
  jamSeq : BitVec 16
  /-- Retraction records due at the next tick, as W0 and W1. -/
  retract : List (W64 × W64)
  orphanSrc : BitVec 16
  orphanCtx : Ctx
  orphanGen : Gen
  orphanOp : BitVec 6
  orphanCount : BitVec 22
  deriving DecidableEq, Repr

/-- Tile states (07 Table RED-4). -/
inductive TileState where
  | opened | closing | closed
  deriving DecidableEq, Repr

/-- Tile descriptor (07 Table RED-4). -/
structure Tile where
  valid : Bool
  st : TileState
  dbuf : Bool
  epoch : Bool
  dstv : Bool
  ctx : Ctx
  cgen : Gen
  gen : Gen
  shape : BitVec 3
  kind : BitVec 2
  round : Bool
  outfmt : BitVec 4
  act : BitVec 2
  biasmode : BitVec 2
  base : BitVec 15
  exp0 : BitVec 8
  exp1 : BitVec 8
  infl0 : BitVec 12
  infl1 : BitVec 12
  late : BitVec 16
  ovf0 : Bool
  ovf1 : Bool
  dstBerth : Bool
  touch0 : W64
  touch1 : W64
  dst : W64
  auxdst : W64
  scale : W32
  bias : W32
  biasaddr : W64
  /-- The accumulator block is held. -/
  block : Bool
  /-- Its record is lost (15 R400). -/
  lost : Bool
  deriving DecidableEq, Repr

/-- A free tile index at reset. -/
def Tile.free : Tile :=
  ⟨false, .opened, false, false, false, 0, 0, 0, 0, 0, false, 0, 0, 0, 0, 0, 0, 0, 0, 0, false, false, false, 0, 0, 0, 0, 0, 0, 0, false, false⟩

/-- An accumulator line: 128 bytes and its poison bit (07 R209). -/
structure AccLine where
  data : Line
  poison : Bool
  deriving DecidableEq, Repr

/-- An entry of a contribution queue (07 R220): a request, or a segment passed within the slice by a fold. -/
structure QEnt where
  opcode : BitVec 6
  r : Req
  /-- The fold, by number, whose internal segment this is. -/
  fold : Option Nat
  /-- It waits for a thaw, and the wait has been counted (13 R353). -/
  thaw : Bool
  /-- Its place among the entries of both queues, in order of acceptance (07 R230). -/
  ord : Nat
  deriving DecidableEq, Repr

/-- Hop record (08 Table TOW-3). -/
structure Hop where
  valid : Bool
  broken : Bool
  cut : Bool
  cause : BitVec 8
  hop : BitVec 6
  last : BitVec 6
  tile : BitVec 13
  tgen : Gen
  outst : BitVec 7
  next : W64
  prev : W64
  chain : W32
  recvd : W64
  sent : W64
  acked : W64
  /-- Tick of the last progress (R256), and ticks counted when a freeze stopped the count. -/
  tick : Nat
  /-- Forwards that carried four sectors (R252). -/
  full : Nat
  deriving DecidableEq, Repr

/-- A free hop record at reset. -/
def Hop.free : Hop := ⟨false, false, false, 0, 0, 0, 0, 0, 0, 0, 0, 0, 0, 0, 0, 0, 0⟩

/-- What a request of the slice's own on VC0 is: a fold's segment, a hop's forward, each with its line, or an ABORT notice. -/
inductive SegOf where
  | fold (id : Nat) (line : BitVec 6)
  | hop (i : BitVec 10) (line : BitVec 6)
  | notice
  deriving DecidableEq, Repr

/-- A request sent on VC0 and not yet answered, or a forward answered RETRY that is to be sent again (08 R244, R250, R251). -/
structure Seg where
  stop : Stop
  tag : BitVec 12
  what : SegOf
  /-- Cycle from which a forward answered RETRY is sent again; 0 while outstanding. -/
  retryAt : Nat
  deriving DecidableEq, Repr

/-- A FOLD in progress (08 R244, R245). -/
structure Fold where
  id : Nat
  r : Req
  src : BitVec 13
  dst : W64
  init : Bool
  keep : Bool
  /-- Lines still to be sent, in ascending order. -/
  todo : List (BitVec 6)
  outst : Nat
  applied : Nat
  /-- First status other than OK, with its line. -/
  bad : Option (BitVec 6 × BitVec 4)
  deriving DecidableEq, Repr

/-- The reduction island. -/
structure RedSt where
  tiles : Tbl Tile
  tileQ : FreeQ
  acc : Tbl AccLine
  qN : List QEnt
  qS : List QEnt
  seed : BitVec 16
  batchEn : Bool
  /-- Lane generators (07 R223). -/
  lanes : Vector W32 64
  hops : Tbl Hop
  hopQ : FreeQ
  segs : List Seg
  /-- ABORT notices that wait for a slot of a return inbox (02 R40). -/
  notices : List Req
  folds : List Fold
  nextFold : Nat
  /-- The next entry's place in order of acceptance. -/
  nextEnt : Nat
  deriving DecidableEq, Repr

/-- Page header (09 Table SPARSE-1) as the page-header cache holds it. -/
structure Header where
  bitmap : BitVec 128
  count : Nat
  poison : Bool
  deriving DecidableEq, Repr

/-- A logical line of a sparse page being filled: the packed lines it still needs, and who waits (09 R270). -/
structure SFill where
  line : LineNo
  /-- The page's header as it was when the fill began. -/
  hdr : Header
  way : Option (BitVec 5)
  need : List LineNo
  got : Line
  gotMask : BitVec 4
  /-- KGEN of the metadata of the packed lines that came (04 R115). -/
  kgen : Bool
  poison : Bool
  cls : BitVec 4
  /-- The line's range as the fill was accepted under it (14 R366). -/
  range : Option KRange
  /-- The check of a packed line required a refetch (04 R110). -/
  again : Bool
  waiters : List Access
  deriving DecidableEq, Repr

/-- A packed line as it came: its data, KGEN and poison of its metadata, and the ticket that read it. -/
structure PackedIn where
  t : Ticket
  data : Line
  kgen : Bool
  poison : Bool
  deriving DecidableEq, Repr

/-- Scatter descriptor (09 Table SPARSE-8). -/
structure Scatter where
  valid : Bool
  op : BitVec 2
  gen : Gen
  ctx : Ctx
  cgen : Gen
  scale : W32
  table : W64
  rows : W32
  stride : BitVec 16
  rowlines : BitVec 12
  applied : W32
  refused : W32
  deriving DecidableEq, Repr

/-- A free descriptor at reset. -/
def Scatter.free : Scatter := ⟨false, 0, 0, 0, 0, 0, 0, 0, 0, 0, 0, 0⟩

/-- Sparse data. -/
structure SparseSt where
  /-- Format cache: per set, (map word number, word), most recently used first (R269). -/
  fcache : Tbl (List (Nat × W64))
  hcache : Tbl (List (Nat × Header))
  fills : List SFill
  /-- Slots of packed lines, as (sector of the page, slot), whose logical lines wait for a way (09 R271); and packed lines that failed and wait for
  their page's header (15 R397). -/
  slots : List (Header × PackedIn × Nat × Nat)
  failed : List PackedIn
  /-- Page locked by the running pack or unpack step, and the place from which accesses came after the lock. -/
  locked : Option (BitVec 23)
  lockOrd : Nat
  scat : Tbl Scatter
  scatQ : FreeQ
  deriving DecidableEq, Repr

/-- Half states (11 R313). -/
inductive HalfSt where
  | i | s | a
  deriving DecidableEq, Repr

/-- Transient states of a directory entry (11 Table COH-4). -/
inductive Trans where
  | stable | snoop | victim | reclaim
  deriving DecidableEq, Repr

/-- Directory entry (11 Table COH-4). -/
structure DirEnt where
  tag : BitVec 13
  st1 : HalfSt
  st0 : HalfSt
  own1 : BitVec 4
  own0 : BitVec 4
  shr : BitVec 16
  tr : Trans
  deriving DecidableEq, Repr

/-- A free entry at reset. -/
def DirEnt.free : DirEnt := ⟨0, .i, .i, 0, 0, 0, .stable⟩

/-- A snoop outstanding (11 R313, R318, R321). -/
structure Snoop where
  ctag : BitVec 16
  agent : BitVec 4
  line : LineNo
  half : Bool
  /-- 0 BISnpCur, 1 BISnpData, 2 BISnpInv. -/
  kind : BitVec 4
  stop : Stop
  tick : Nat
  /-- A crossing MemClnEvct or MemWr with META Invalid: the BIRsp is taken as BIRspI (R321, R322). -/
  taken : Bool
  /-- A writeback of the half has arrived: reads that wait on the snoop are served (R318). -/
  wb : Bool
  /-- The directory entry, by number, whose recall under 15 R399 sent it. -/
  rcl : Option Nat
  deriving DecidableEq, Repr

/-- A directory entry that no longer shows what it covers: snoops still to be sent (15 R399). -/
structure Recall where
  ent : Nat
  todo : List (LineNo × Bool × BitVec 4)
  deriving DecidableEq, Repr

/-- An entry kept for the host request that will take it, and the request's line (11 R320). -/
structure Claim where
  h : HostMsg
  line : LineNo
  ent : Nat
  deriving DecidableEq, Repr

/-- Host coherence. -/
structure DirSt where
  ents : Tbl DirEnt
  snoops : List Snoop
  recalls : List Recall
  /-- Snoops that wait for a tracker entry or an inbox slot (11 R319): line, half, agent, kind. -/
  owing : List (LineNo × Bool × BitVec 4 × BitVec 4)
  /-- Entries kept for the host request that will take them: free, or being recalled for it (11 R320). -/
  claims : List Claim
  /-- The set that a waiting step of DIR_RECLAIM holds (11 R326). -/
  reclaim : Option Nat
  /-- HC_AGENTn EN and HUNG. -/
  en : BitVec 16
  hung : BitVec 16
  deriving DecidableEq, Repr

/-- A class's state (12 R329 to R343). -/
structure Cls where
  target : BitVec 16
  base : BitVec 3
  avg : BitVec 20
  resv : BitVec 13
  grant : BitVec 13
  tokens : Nat
  rd : BitVec 48
  wr : BitVec 48
  dlm : BitVec 48
  deriving DecidableEq, Repr

/-- A class at reset. -/
def Cls.reset : Cls := ⟨0, 0, 0, 0, 0, 0, 0, 0, 0⟩

/-- Classes and bandwidth. -/
structure QosSt where
  cls : Tbl Cls
  eff : BitVec 13
  measured : Bool
  winC : Nat
  winN : Nat
  /-- Grants of the memory port since the last one that went to the oldest (12 R334). -/
  grants : Nat
  deriving DecidableEq, Repr

/-- Seasons (13 Table SEASON-1). -/
inductive Season where
  | summer | autumn | winter | frost | spring
  deriving DecidableEq, Repr

/-- A switched domain: its season, the season it left when in Spring or is entering, idle windows, use in this window. -/
structure Dom where
  season : Season
  entering : Option Season
  left : Season
  idle : Nat
  used : Bool
  deriving DecidableEq, Repr

/-- A domain after start-up. -/
def Dom.summer : Dom := ⟨.summer, none, .summer, 0, false⟩
/-- A spare bank after start-up (13 R346). -/
def Dom.frost : Dom := ⟨.frost, none, .frost, 0, false⟩

/-- A queued thaw: domain, demand or firmware, season it is to reach. -/
structure Thaw where
  dom : Nat
  demand : Bool
  target : Season
  deriving DecidableEq, Repr

/-- Power states. -/
structure SeasonSt where
  /-- The 82 switched domains (13 R345), by number (log 10). -/
  doms : Vector Dom 82
  queue : List Thaw
  tol : BitVec 24
  tokens : BitVec 8
  /-- Command steps that wait for a thaw, by who waits and for which domain: each is counted once (13 R353). -/
  asleep : List (Nat × Nat)
  deriving DecidableEq, Repr

/-- Key material of one generation with the check word it came with (02 Table PORT-13). -/
structure KeyMat where
  dataKey : BitVec 256
  tweakKey : BitVec 256
  tagKey : BitVec 256
  check : W64
  deriving DecidableEq, Repr

/-- A key slot (14 Table CONF-2); GRANTS and LOADER are counted from the grants. -/
structure KeySlot where
  kind : BitVec 2
  v0 : Bool
  v1 : Bool
  cur : Bool
  sweep : Bool
  conf : Bool
  owner : Ctx
  ogen : Gen
  bindh : BitVec 16
  g0 : KeyMat
  g1 : KeyMat
  deriving DecidableEq, Repr

/-- Registers of zeros. -/
def KeyMat.zero : KeyMat := ⟨0, 0, 0, 0⟩
/-- A free slot. -/
def KeySlot.free : KeySlot := ⟨0, false, false, false, false, false, 0, 0, 0, .zero, .zero⟩

/-- An outstanding key request (02 R57, 14 R365, R372, R375, R401). -/
structure KReq where
  num : BitVec 16
  slot : BitVec 9
  gen : Bool
  bound : Bool
  bindh : BitVec 16
  ctx : Ctx
  cgen : Gen
  fails : Nat
  /-- The command that caused it; none for a reload after a parity error. -/
  cmd : Option Nat
  deriving DecidableEq, Repr

/-- A grant (14 R375). -/
structure Grant where
  slot : BitVec 9
  ctx : Ctx
  gen : Gen
  load : Bool
  deriving DecidableEq, Repr

/-- A rotation sweep (14 R373): slot, lines of the slot's ranges still to pass, as runs of (first, count); the snoops of the
next line have been sent. -/
structure Rot where
  slot : BitVec 9
  rate : BitVec 16
  runs : List (Nat × Nat)
  snooped : Bool
  deriving DecidableEq, Repr

/-- A digest slot (14 Table CONF-7); h is the SHA-384 chaining state, eight 64-bit words, H0 in the high bits. -/
structure Digest where
  st : BitVec 2
  taint : Bool
  owner : Ctx
  ogen : Gen
  bytes : BitVec 41
  h : BitVec 512
  deriving DecidableEq, Repr

/-- An empty digest slot. -/
def Digest.empty : Digest := ⟨0, false, 0, 0, 0, 0⟩

/-- Keys, ranges, measurement. -/
structure KeySt where
  slots : Tbl KeySlot
  reqs : List KReq
  grants : List Grant
  /-- Generations erased since they last held key material, as slot × 2 + generation: 1 (14 R383). -/
  erased : Tbl Nat
  krt : Tbl KRange
  krtReject : Bool
  rots : List Rot
  digests : Tbl Digest
  deriving DecidableEq, Repr

/-- Error log and scrubbers (15 R404, R407, R409, R410). -/
structure ErrSt where
  log : List (W64 × W64)
  next : BitVec 16
  overwritten : BitVec 16
  fatal : Bool
  degraded : Bool
  /-- Lost records by LOC form O kind × 2^14 + index (R400). -/
  lost : List Nat
  rate : BitVec 16
  mrate : BitVec 16
  mrepeat : Bool
  mstart : W64
  mlines : Nat
  mpos : Nat
  scrubPos : Nat
  skipped : Nat
  deriving DecidableEq, Repr

/-- What one control cycle gives the trace port (18 R463). -/
structure TraceCyc where
  cyc : Nat
  /-- Occurrences of EV0 to EV3. -/
  evs : Vector Nat 4
  /-- The first landing acceptance at each stop, as a MODE 1 word. -/
  north : Option W32
  south : Option W32
  deriving DecidableEq, Repr

/-- The values latched at a dump (18 R459, 14 R386). -/
structure Snap where
  fixed : List (BitVec 48)
  prog : List (BitVec 48)
  qos : List (BitVec 48)
  deriving DecidableEq, Repr

/-- A permit (18 R461). -/
structure Permit where
  ctx : Ctx
  gen : Gen
  view : W64
  deriving DecidableEq, Repr

/-- Counters, dumps and permits. -/
structure PmcSt where
  fixed : Tbl (BitVec 48)
  ctl : Tbl W64
  cnt : Tbl (BitVec 48)
  ovf : BitVec 16
  fovf : BitVec 8
  dumpErr : Bool
  base : W64
  size : BitVec 5
  interval : BitVec 24
  seq : W32
  wr : W32
  rd : W32
  missed : Nat
  nextDue : Nat
  /-- Lines of the record being written that are not yet acknowledged. -/
  left : Nat
  snap : Snap
  /-- The control cycles whose words the trace port has still to carry, oldest first (R463). -/
  trace : List TraceCyc
  permits : List Permit
  deriving DecidableEq, Repr

/-- Debug facilities (18 R462 to R464). -/
structure DbgSt where
  trace : Bool
  peek : Bool
  traceCtl : W64
  peekAddr : W64
  data0 : W64
  data1 : W64
  deriving DecidableEq, Repr

/-- Firmware banks (14 R390 to R392, 17 R441). -/
structure FwSt where
  verA : W32
  verB : W32
  okA : Bool
  okB : Bool
  /-- Uzober runs from bank B. -/
  bankB : Bool
  /-- Beats written into the banks: bank × 2^15 + beat. -/
  sram : Tbl W64
  /-- FW_ACTIVATE has paused the control plane (R391). -/
  paused : Bool
  deriving DecidableEq, Repr

/-- What leaves the slice at its boundary (02_boundary.md Table PORT-1). -/
inductive Out where
  /-- A response packet on VC1 (Table PORT-6). -/
  | resp (stop : Stop) (status : BitVec 4) (dest : BitVec 16) (tag : BitVec 12) (opcode : BitVec 6) (sect : BitVec 4) (more : Bool) (info : BitVec 16) (payload : List W64)
  /-- A command reply by VC2 (KIND 2) or the sideband (SB_REPLY). -/
  | reply (path : CmdPath) (w0 w1 w2 w3 : W64)
  /-- A window response (KIND 5). -/
  | win (stop : Stop) (peer : BitVec 16) (w0 w1 : W64)
  | portRead (line : LineNo) (ticket : BitVec 10) (crit : BitVec 2)
  | portWrite (line : LineNo) (index : BitVec 10) (data : Line) (md : Meta)
  | kreq (slot : BitVec 9) (gen : Bool) (ctx : Ctx) (cgen : Gen) (request : BitVec 16)
  | kreqBound (slot : BitVec 9) (gen : Bool) (bindh : BitVec 16) (ctx : Ctx) (request : BitVec 16)
  /-- KACK with a request number and whether it is accepted. -/
  | kackRejected (request : BitVec 16)
  /-- KACK naming a slot: erased or retired. -/
  | kackSlot (slot : BitVec 9) (retired : Bool)
  | kdigest (slot : BitVec 4) (taint : Bool) (owner : Ctx) (ogen : Gen) (bytes : BitVec 41) (digest : BitVec 384)
  | fwimg (request : BitVec 16) (bank : Bool) (length : W32) (lines : List Line)
  | sb (w : W64)
  /-- A VC0 or VC2 request the slice sends (segments, ABORT notices, hints), less its opcode; `peer` is the PEER of a VC2 envelope, zero on VC0. -/
  | request (peer : BitVec 16) (stop : Stop) (opcode : BitVec 6) (r : Req)
  /-- A KIND 3 export (R423). -/
  | jam (peer : BitVec 16) (body : List W64)
  /-- A KIND 2 sweep notice (10 R302). -/
  | notice (stop : Stop) (peer : BitVec 16) (w0 w1 w2 w3 : W64)
  /-- S2M NDR, DRS and BISnp (11 Table COH-2). -/
  | ndr (stop : Stop) (msg : BitVec 4) (agent : BitVec 4) (ctag : BitVec 16) (status : BitVec 4)
  | drs (stop : Stop) (agent : BitVec 4) (ctag : BitVec 16) (status : BitVec 4) (address : W64) (psn : Bool) (data : Half)
  | bisnp (stop : Stop) (msg : BitVec 4) (agent : BitVec 4) (ctag : BitVec 16) (address : W64)
  /-- Bits shifted out of a scan chain (17 R448): they are not given. -/
  | scan (bits : List Bool)
  deriving DecidableEq, Repr

/-- Everything the slice holds but its fixed part and its queue. -/
structure Mach where
  life : Life
  pilot : Pilot
  regs : Regs
  ringH : Ring
  ringF : Ring
  evq : Evq
  ctxs : Tbl CtxEntry
  cache : Cache
  berth : BerthSt
  cmds : Cmds
  sync : SyncSt
  red : RedSt
  sparse : SparseSt
  dir : DirSt
  qos : QosSt
  season : SeasonSt
  keys : KeySt
  err : ErrSt
  pmc : PmcSt
  dbg : DbgSt
  fw : FwSt
  /-- Control cycle (18 PMC_CYCLE), advanced by the timed commands. -/
  cyc : Nat
  out : List Out
  /-- Prefetch hints and jam-edge exports that wait for a slot of their stop's return inbox (02 R40, 16 R423). -/
  unsent : List Out
  /-- Counter dumps that fell due while SCRUB_CONTEXT ran (18 R460). -/
  lateDumps : Nat
  /-- Counter the free values are applied to (log 8). -/
  freeN : Nat
  deriving DecidableEq, Repr

/-- The state of the block. -/
structure State where
  pending : List Instr
  fx : Fixed
  m : Mach
  deriving DecidableEq, Repr

/-- Life at a cold reset: OFF, the pins low but for the switched supply (log 2). -/
def Life.reset : Life :=
  { pwrOk := false, coldRst := true, warmRst := false, iso := true, vddSw := true, released := false, st := .off,
    dbgFrom := .off, domainsOff := false, phase := 0, fail := 0, fwResult := 0, banks := 0, rows := 0, hold := false,
    rowHealth := 0x1FF, running := false, alive := false, softRepair := [], fuseRepair := 0, bistCtl := 0, bistRows := [],
    bistBanks := [], bistUnit := false, scanEn := false, scanned := false, pmTlm := 0, hwFence := none, lockTo := none }

/-- The plain registers at reset (Reset columns of the registers' tables). -/
def Regs.reset : Regs :=
  { lv := false, logical := 0, bucketMask := 0, hintEn := false, hintBucket := [], hintSite := [], pfReserve := 0x10,
    slipHigh := 0x60, pfDegree := 1, pfHintEn := true, pfEn := true, retain := 0x55555555, hopTimeout := 0x010,
    window := 0x10, pressThresh := 0x0400, pressEn := true, frostIdle := 0x10, winterIdle := 0x02, autumnIdle := 0x10,
    maintTc := 0, snoopTimeout := 0x010, hostTc := 0, hostEn := false, holdTicks := 0x10, rowThresh := 0x04,
    bankThresh := 0x0040, autoRow := true, reject := false, roff := 0, rlatch := [], wlatch := [] }

/-- A command ring at reset (19 Table WIN-3). -/
def Ring.reset : Ring :=
  { en := false, err := false, base := 0, rbase := 0, size := 4, ctx := 0, gen := 0, tail := 0, head := 0, rtail := 0,
    rhead := 0, reserved := 0, fetching := false, replies := [], writing := false }

/-- The event ring at reset (19 Table WIN-4). -/
def Evq.reset : Evq :=
  { en := false, err := false, sbmir := false, size := 4, base := 0, tail := 0, head := 0, lost := 0, pend := [], seq := 0,
    writing := false }

/-- No stored word disagrees with its code. -/
def ArrErr.none : ArrErr := ⟨[], [], [], [], []⟩

/-- The cache at reset (04 R141): every way free; what is in the data banks is log 5. -/
def Cache.reset : Cache :=
  { tags := [], data := [], sets := [], tickets := [], writes := [], owed := [], replay := [], heldN := [], heldS := [], issues := [], own := [], trackers := [],
    credits := 0, nextSeq := 0, rowErr := [], bankErr := [], wornBanks := [], rowMap := [], spareFor := [], spareBad := [],
    errs := .none, done := [] }

/-- A free-index queue in ascending order (05 R149). -/
def FreeQ.reset : FreeQ := ⟨0, [], []⟩

/-- Berths, arenas and queues at reset: none. -/
def BerthSt.reset : BerthSt :=
  { berths := [], berthQ := .reset, gmap := [], miss := [], pressured := 0, arenas := [], arenaQ := .reset, objs := [],
    objQ := .reset, ferries := [], ferryQ := .reset, reloads := [] }

/-- The sync unit at reset (06, 16 R420). -/
def SyncSt.reset : SyncSt :=
  { objs := [], objQ := .reset, heldIdx := [], members := [], waits := [], thawQ := [], coal := [], coalWait := [], counts := [],
    notifies := [], jamCollector := 0, jamQuiet := 0x100, jamEn := false, jamFresh := false, jamSeq := 0, retract := [],
    orphanSrc := 0, orphanCtx := 0, orphanGen := 0, orphanOp := 0, orphanCount := 0 }

/-- Lane generator j after a seed is written (07 R223). -/
def laneSeed (seed : BitVec 16) (j : Nat) : W32 := seed.zeroExtend 32 * 0x10000 + 0x8000 + BitVec.ofNat 32 j

/-- The lane generators after a seed. -/
def lanesOf (seed : BitVec 16) : Vector W32 64 := Vector.ofFn fun j => laneSeed seed j.val

/-- The reduction island at reset (07 R209, Table RED-7). -/
def RedSt.reset : RedSt :=
  { tiles := [], tileQ := .reset, acc := [], qN := [], qS := [], seed := 0xACE1, batchEn := true, lanes := lanesOf 0xACE1,
    hops := [], hopQ := .reset, segs := [], notices := [], folds := [], nextFold := 0, nextEnt := 0 }

/-- Sparse data at reset: lookups empty. -/
def SparseSt.reset : SparseSt := ⟨[], [], [], [], [], none, 0, [], .reset⟩

/-- The domains after start-up: Summer, but the spare banks (numbers 16, 33, 50 and 67) Frost (13 R346). -/
def domsReset : Vector Dom 82 := Vector.ofFn fun i => if i.val < 68 ∧ i.val % 17 = 16 then .frost else .summer

/-- The state right after reset: every field at the value the manual states, and where it states none at the value its
log entry names. -/
def Mach.reset : Mach :=
  { life := .reset, pilot := ⟨0, 0, 0, 0⟩, regs := .reset, ringH := .reset, ringF := .reset, evq := .reset, ctxs := [],
    cache := .reset, berth := .reset, cmds := ⟨[], [], 0, 1, none, 0⟩, sync := .reset, red := .reset, sparse := .reset,
    dir := ⟨[], [], [], [], [], none, 0, 0⟩, qos := ⟨[], 4000, false, 0, 0, 0⟩, season := ⟨domsReset, [], 5, 0, []⟩,
    keys := ⟨[], [], [], [], [], false, [], []⟩,
    err := { log := [], next := 0, overwritten := 0, fatal := false, degraded := false, lost := [], rate := 0x0020,
             mrate := 0, mrepeat := false, mstart := 0, mlines := 0, mpos := 0, scrubPos := 0, skipped := 0 },
    pmc := { fixed := [], ctl := [], cnt := [], ovf := 0, fovf := 0, dumpErr := false, base := 0, size := 0, interval := 0,
             seq := 0, wr := 0, rd := 0, missed := 0, nextDue := 0, left := 0,
             snap := ⟨[], [], []⟩, trace := [], permits := [] },
    dbg := ⟨false, false, 0, 0, 0, 0⟩,
    fw := ⟨0, 0, false, false, false, [], false⟩, cyc := 0, out := [], unsent := [], lateDumps := 0, freeN := 0 }

/-- The straps and fixed fields at reset: site 0x00 and the choices Table PORT-18 recommends (log 3). -/
def Fixed.reset : Fixed :=
  { level := none, roLocked := false, procId := 0, fmapBase := 0, fmapKeep := false, fmapEn := false, siteId := 0,
    clampHold := false, clampMemNotReady := false, clampKbEmpty := true, clampSbPresent := false, clampPmTlm := 0,
    clampAlertN := true }

/-- The machine right after reset. -/
def State.reset : State := ⟨[], .reset, .reset⟩

/-- No step of the block ends in a fault: the manual names no command of this part that stops it, and gives every one an effect. -/
inductive Fault where
  deriving DecidableEq, Repr

/-- Why a command has no meaning. -/
inductive Refusal where
  /-- Raised by a dispatch arm whose row is not modelled. Safe: nothing can be proved of it. -/
  | notModelled (mnemonic : String)
  deriving DecidableEq, Repr

end Sys2Proof.Machine
end

