-- ==== Sys2Proof/Machine/Ops.lean ====
section
/-! DEFINITION. The operations every family of commands shares: messages that leave, counters, posted events, the error
log, the clock, free values, and the response to a request. -/

namespace Sys2Proof.Machine

/-- Bits [hi:lo] of a word, as a number. -/
def fld (w : W64) (hi lo : Nat) : Nat := (w.toNat / 2 ^ lo) % 2 ^ (hi + 1 - lo)

/-- Bit i of a word. -/
def bit (w : W64) (i : Nat) : Bool := w.getLsbD i

/-- A Bool as a bit. -/
def b2n (b : Bool) : Nat := if b then 1 else 0

/-- A number saturated at a top value. -/
def sat (top n : Nat) : Nat := if n ≤ top then n else top

/-- The number of bits of a mask that are set below place n. -/
def popBelow {w : Nat} (x : BitVec w) : Nat → Nat
  | 0 => 0
  | n + 1 => popBelow x n + b2n (x.getLsbD n)

/-- The number of bits set. -/
def pop {w : Nat} (x : BitVec w) : Nat := popBelow x w

/-- The site is absent: its fuses mark it failed, or it was marked failed at start-up (02 R64, 17 R442). -/
def siteAbsent (m : Mach) : Bool :=
  (m.life.st = .fenced && m.life.fail = 4) || (m.life.fuseRepair ≠ 0 && Config.fuseFailed m.life.fuseRepair)

/-- The output groups released as the slice leaves OFF hold their straps (02 R64, Table PORT-18). -/
def outDown (m : Mach) : Bool := m.life.iso || m.life.st = .off || siteAbsent m

/-- The memory island's output groups hold their straps. -/
def memDown (m : Mach) : Bool := outDown m || m.life.domainsOff || !m.life.vddSw

/-- The landing-answer group is clamped (02 R64): ISO_N is low, or the slice has not reached READY, from which one fenced by its
start-up stays away for good. -/
def landingClamped (m : Mach) : Bool :=
  m.life.iso || m.life.st = .off || m.life.st = .init || m.life.st = .selftest || (m.life.st = .fenced && decide (m.life.fail ≠ 0))

/-- A clamp cell keeps a message from leaving; mesh answers have a clamp of their own (02 R64). -/
def clampedOut (m : Mach) : Out → Bool
  | .sb _ => outDown m
  | .reply .sideband _ _ _ _ => outDown m
  | .kreq _ _ _ _ _ => memDown m
  | .kreqBound _ _ _ _ _ => memDown m
  | .kackRejected _ => memDown m
  | .kackSlot _ _ => memDown m
  | .kdigest _ _ _ _ _ _ => memDown m
  | .fwimg _ _ _ _ => memDown m
  | .portRead _ _ _ => memDown m
  | .portWrite _ _ _ _ => memDown m
  | .resp _ status _ _ _ _ _ _ _ => landingClamped m && decide (status ≠ 2)
  | .ndr _ _ _ _ status => landingClamped m && decide (status ≠ 2)
  | .drs _ _ _ _ _ _ _ => landingClamped m
  | _ => false

/-- A message leaves the slice, unless a clamp holds it. -/
def emit (o : Out) (m : Mach) : Mach := if clampedOut m o then m else { m with out := m.out ++ [o] }

/-- The next free value's index (log 8). -/
def bumpFree (m : Mach) : Mach := { m with freeN := m.freeN + 1 }

/-- The fixed counter that counts an event (18 Table PMC-1). -/
def fixOf (ev : Nat) : Option Nat :=
  if ev = 0x040 then some 1 else if ev = 0x041 then some 2 else if ev = 0x042 then some 3
  else if ev = 0x04C then some 4 else if ev = 0x04D then some 5 else if ev = 0x047 then some 6 else none

/-- A fixed counter advanced; it wraps modulo 2^48 and then sets its bit of FOVF (18 R451). -/
def addFix (i n : Nat) (p : PmcSt) : PmcSt :=
  let c := (tget 0 p.fixed i).toNat + n
  { p with fixed := tset 0 p.fixed i (BitVec.ofNat 48 c),
           fovf := if c < 2 ^ 48 then p.fovf else p.fovf ||| (1 <<< i) }

/-- A programmable counter advanced (18 R451). -/
def addPmc (i n : Nat) (p : PmcSt) : PmcSt :=
  let c := (tget 0 p.cnt i).toNat + n
  { p with cnt := tset 0 p.cnt i (BitVec.ofNat 48 c),
           ovf := if c < 2 ^ 48 then p.ovf else p.ovf ||| (1 <<< i) }

/-- The events whose Filter column is Yes (18 Table PMC-2). -/
def evFilter (ev : Nat) : Bool :=
  ev ≤ 0x00A || (ev = 0x010) || (0x013 ≤ ev && ev ≤ 0x01D) || (0x040 ≤ ev && ev ≤ 0x047) || (ev = 0x04A) || (ev = 0x052)

/-- The assigned event numbers (18 Table PMC-2). -/
def evAssigned (ev : Nat) : Bool :=
  ev ≤ 0x00A || (0x010 ≤ ev && ev ≤ 0x027) || (0x040 ≤ ev && ev ≤ 0x052) || (0x080 ≤ ev && ev ≤ 0x087)

/-- A programmable counter's control word counts an occurrence of the event with this context and class (18 R455). -/
def pmcMatches (ctl : W64) (ev : Nat) (ctx : Option Ctx) (tc : Option (BitVec 4)) : Bool :=
  bit ctl 63 && (fld ctl 43 34 = ev) &&
  (!bit ctl 62 || ctx = some (BitVec.ofNat 12 (fld ctl 55 44))) &&
  (!(bit ctl 61 && evFilter ev) || tc = some (BitVec.ofNat 4 (fld ctl 59 56)))

/-- The programmable counters from number i down, advanced by n occurrences. -/
def countPmcs (ev : Nat) (ctx : Option Ctx) (tc : Option (BitVec 4)) (n : Nat) : Nat → PmcSt → PmcSt
  | 0, p => p
  | i + 1, p =>
    let p := countPmcs ev ctx tc n i p
    if pmcMatches (tget 0 p.ctl i) ev ctx tc then addPmc i n p else p

/-- The trace port's record of a control cycle changed; only the cycles that it has still to carry stay (18 R463). -/
def noteTrace (cyc : Nat) (u : TraceCyc → TraceCyc) (p : PmcSt) : PmcSt :=
  let old := p.trace.filter fun t => cyc ≤ t.cyc + 4
  { p with trace := match old.getLast? with
      | some t => if t.cyc = cyc then old.dropLast ++ [u t] else old ++ [u ⟨cyc, .replicate 4 0, none, none⟩]
      | none => [u ⟨cyc, .replicate 4 0, none, none⟩] }

/-- Occurrences of an event in a trace record, by the events that TRACE_CTL names in its cycle (18 Table PMC-5). -/
def traceEvent (ctl : W64) (ev n : Nat) (t : TraceCyc) : TraceCyc :=
  { t with evs := Vector.ofFn fun k => t.evs[k] + if fld ctl (31 + 10 * k.val) (22 + 10 * k.val) = ev then n else 0 }

/-- n occurrences of a counter event, with the context and class that caused them (18 R450 to R452). In OFF the counters are
in reset. -/
def countN (ev : Nat) (ctx : Option Ctx) (tc : Option (BitVec 4)) (n : Nat) (m : Mach) : Mach :=
  if n = 0 ∨ m.life.st = .off then m else
  let p := match fixOf ev with
    | some i => addFix i n m.pmc
    | none => m.pmc
  let p := countPmcs ev ctx tc n 16 p
  { m with pmc := if m.dbg.trace then noteTrace m.cyc (traceEvent m.dbg.traceCtl ev n) p else p }

/-- One occurrence of an event that no context or class filters. -/
def count (ev : Nat) (m : Mach) : Mach := countN ev none none 1 m

/-- One occurrence caused by a request. -/
def countR (ev : Nat) (r : Req) (m : Mach) : Mach := countN ev (some r.ctx) (some r.tc) 1 m

/-- An event is posted (19 R475): into the pending buffer, or discarded and counted in LOST when that is full; its
sequence number is used either way, and the mirror goes to the sideband while SBMIR is 1. -/
def post (fx : Fixed) (code : BitVec 8) (detail : W64) (m : Mach) : Mach :=
  let q := m.evq
  let e : Event := { code, seq := q.seq, cyc := BitVec.ofNat 32 m.cyc, detail }
  let q' : Evq := if q.pend.length < 64 then { q with pend := q.pend ++ [e], seq := q.seq + 1 }
    else { q with lost := if q.lost = 0xFFFF then q.lost else q.lost + 1, seq := q.seq + 1 }
  let m := { m with evq := q' }
  if q.sbmir then
    emit (.sb (BitVec.ofNat 64 (11 * 2 ^ 60 + fx.siteId.toNat * 2 ^ 52 + code.toNat * 2 ^ 24 + q.seq.toNat))) m
  else m

/-- Severity of an error class (15 Table ECC-3). -/
def sevOf (cls : Nat) : Nat :=
  if cls ∈ [0x01, 0x06, 0x10, 0x18, 0x1A, 0x28, 0x2D] then 0
  else if cls ∈ [0x02, 0x04, 0x07, 0x11, 0x20, 0x2B, 0x30, 0x33] then 1
  else if cls ∈ [0x29, 0x2A, 0x2C] then 3
  else if cls = 0x3F then 4 else 2

/-- An error is logged (15 R404, R405): it advances REPEAT of the newest entry when class and location are the same, and
else makes an entry, over the oldest one when the ring is full; severity 2 and above posts an event. -/
def logErr (fx : Fixed) (cls attempts loc : Nat) (m : Mach) : Mach :=
  let sev := sevOf cls
  let counted := fun (m : Mach) => { count (0x023 + sev) m with pmc := addFix 7 1 (count (0x023 + sev) m).pmc }
  let fresh := fun (m : Mach) =>
    let e := m.err
    let ent : W64 × W64 :=
      (BitVec.ofNat 64 (cls * 2 ^ 56 + sev * 2 ^ 53 + attempts * 2 ^ 48 + e.next.toNat * 2 ^ 32 + m.cyc % 2 ^ 32),
       BitVec.ofNat 64 (loc % 2 ^ 56))
    let full := e.log.length ≥ 1024
    let e' := { e with log := (if full then e.log.drop 1 else e.log) ++ [ent], next := e.next + 1,
                       overwritten := if full ∧ e.overwritten ≠ 0xFFFF then e.overwritten + 1 else e.overwritten }
    let m := counted { m with err := e' }
    if sev ≥ 2 then post fx 0x06 (BitVec.ofNat 64 (cls * 2 ^ 56 + e.next.toNat * 2 ^ 32)) m else m
  match m.err.log.getLast? with
  | none => fresh m
  | some (w0, w1) =>
    if fld w0 63 56 = cls ∧ fld w1 55 0 = loc % 2 ^ 56 then
      if fld w1 63 56 = 0xFF then m
      else counted { m with err := { m.err with log := m.err.log.dropLast ++ [(w0, w1 + BitVec.ofNat 64 (2 ^ 56))] } }
    else fresh m

/-- Location form M: local offset of a line (15 Table ECC-4). -/
def locM (line : LineNo) : Nat := line.toNat * 128
/-- Location form A. -/
def locA (set way word : Nat) : Nat := set * 2 ^ 16 + way * 2 ^ 11 + word * 2 ^ 7
/-- Location form O. -/
def locO (kind index : Nat) : Nat := kind * 2 ^ 52 + index
/-- Location form B. -/
def locB (quad bank row : Nat) : Nat := quad * 2 ^ 25 + bank * 2 ^ 20 + row * 2 ^ 9

/-- Occupancies that the threshold events sample, events 0x080 to 0x087 (18 Table PMC-2). -/
def occupancy (m : Mach) (ev : Nat) : Nat :=
  if ev = 0x080 then m.cache.heldN.length + m.cache.heldS.length
  else if ev = 0x081 then m.cache.tickets.length
  else if ev = 0x082 then (m.cache.writes.filter (·.slip)).length + (m.cache.tickets.filter (·.kind = .merge)).length
  else if ev = 0x083 then (m.cache.replay.filter (!·.waiter)).length
  else if ev = 0x084 then m.sync.waits.length
  else if ev = 0x085 then m.red.qN.length + m.red.qS.length
  else if ev = 0x086 then m.dir.snoops.length
  else m.cmds.waiting.length + m.cmds.running.length + b2n m.ringH.fetching + b2n m.ringF.fetching

/-- The programmable counters of threshold events, advanced by d control cycles of the present occupancies (18 R453). -/
def countThresh (m : Mach) (d : Nat) : Nat → PmcSt → PmcSt
  | 0, p => p
  | i + 1, p =>
    let p := countThresh m d i p
    let ctl := tget 0 p.ctl i
    let ev := fld ctl 43 34
    if bit ctl 63 && decide (0x080 ≤ ev) && decide (ev ≤ 0x087) && decide (fld ctl 13 0 < occupancy m ev) then addPmc i d p
    else p

/-- The control cycle of a timed command has come: the clock stands at it, or stays where it was if that is later (log 9).
Control cycles are FIX0 (18 Table PMC-1). -/
def advance (cyc : Nat) (m : Mach) : Mach :=
  if cyc ≤ m.cyc then m
  else { m with pmc := countThresh m (cyc - m.cyc) 16 (addFix 0 (cyc - m.cyc) m.pmc), cyc := cyc }

/-- The timer of 06 R202 ticks once in 65,536 control cycles. -/
def tickOf (cyc : Nat) : Nat := cyc / 65536

/-- Response status codes (02 Table PORT-8). -/
abbrev stOk : BitVec 4 := 0
abbrev stPoison : BitVec 4 := 1
abbrev stMishomed : BitVec 4 := 2
abbrev stStale : BitVec 4 := 3
abbrev stDenied : BitVec 4 := 4
abbrev stSparseRo : BitVec 4 := 5
abbrev stLate : BitVec 4 := 6
abbrev stSigErr : BitVec 4 := 7
abbrev stRetry : BitVec 4 := 8
abbrev stQfull : BitVec 4 := 9
abbrev stQempty : BitVec 4 := 10

/-- A response without counting it: an early part (02 R44). -/
def sendResp (r : Req) (op : BitVec 6) (status : BitVec 4) (sect : BitVec 4) (more : Bool) (info : BitVec 16)
    (payload : List W64) (m : Mach) : Mach :=
  emit (.resp r.stop status r.source r.tag op sect more info payload) m

/-- A class's measured latency after a response of l mesh cycles (12 R330). -/
def avgStep (l : Nat) (a : BitVec 20) : BitVec 20 :=
  BitVec.ofInt 20 ((a.toNat : Int) + ((min l (2 ^ 20 - 1) : Nat) - (a.toNat : Int)) / 16)

/-- What a departing final response does to its class: the latency, which the manual leaves to timing, is a free value
(12 R330, R333; log 8). -/
def departed (tc : BitVec 4) (deadline : Nat) (ctx : Option Ctx) (status : BitVec 4) (m : Mach) : Mach :=
  let l := Config.freeLat m.freeN
  let c := tget .reset m.qos.cls tc.toNat
  let c := if status.toNat ≤ 1 then { c with avg := avgStep l c.avg } else c
  let miss := if deadline = 0 then 0 else b2n (decide (16 * deadline < l))
  let c := { c with dlm := c.dlm + BitVec.ofNat 48 miss }
  countN 0x014 ctx (some tc) miss
    { m with freeN := m.freeN + 1, qos := { m.qos with cls := tset .reset m.qos.cls tc.toNat c } }

/-- The final response to a request, from the stop at which it arrived (01 R22, 02 R44), counted by its status. -/
def respond (r : Req) (op : BitVec 6) (status : BitVec 4) (sect : BitVec 4) (info : BitVec 16) (payload : List W64)
    (m : Mach) : Mach :=
  departed r.tc r.deadline.toNat (some r.ctx) status
    (countR status.toNat r (sendResp r op status sect false info payload m))

/-- The final response to a WAIT that parked: it measures nothing (12 R330, R333). -/
def respondParked (r : Req) (op : BitVec 6) (status : BitVec 4) (info : BitVec 16) (m : Mach) : Mach :=
  countR status.toNat r (sendResp r op status 0 false info [] m)

/-- A final response that carries a status alone (02 R45). -/
def answer (r : Req) (op : BitVec 6) (status : BitVec 4) (m : Mach) : Mach := respond r op status 0 0 [] m

/-- The status DENIED, counted as a denied request (02 R43). -/
def deny (r : Req) (op : BitVec 6) (m : Mach) : Mach := countR 0x010 r (answer r op stDenied m)

/-- The status MISHOMED, counted as a mishomed request (01 R31). -/
def bounce (r : Req) (op : BitVec 6) (m : Mach) : Mach := count 0x011 (answer r op stMishomed m)

/-- Slice state codes (03 Table CMD-7). -/
def stateCode : SliceState → Nat
  | .off => 0 | .init => 1 | .selftest => 2 | .ready => 3 | .service => 4 | .quiesced => 5 | .degraded => 6
  | .fenced => 7 | .debug => 8

/-- The locked level as a number, 0 for none. -/
def levelNum (fx : Fixed) : Nat := match fx.level with | some l => l.toNat | none => 0

/-- The state word (03 R84). -/
def stateWord (fx : Fixed) (m : Mach) : W64 :=
  BitVec.ofNat 64 (m.pilot.epoch.toNat * 2 ^ 32 + m.pilot.master.toNat * 2 ^ 16 + levelNum fx * 2 ^ 8 + stateCode m.life.st)

/-- The state that decides legality and the data plane: in DEBUG, the one DEBUG_OPEN was accepted from (03 R97). -/
def effState (m : Mach) : SliceState := if m.life.st = .debug then m.life.dbgFrom else m.life.st

/-- A context's entry. -/
def ctxOf (m : Mach) (c : Ctx) : CtxEntry := tget .closed m.ctxs c.toNat

/-- A context's entry replaced. -/
def setCtx (c : Ctx) (e : CtxEntry) (m : Mach) : Mach := { m with ctxs := tset .closed m.ctxs c.toNat e }

/-- A confidential context is present: an open slot has the flag (14 R377). -/
def confPresent (m : Mach) : Bool := m.ctxs.any fun (_, e) => e.opened && e.conf

/-- An index handed out from a free queue (05 R149): never-used indices come first, ascending, then freed ones in order. -/
def fqSkip (q : FreeQ) : Nat → Nat → Nat
  | 0, n => n
  | f + 1, n => if n ∈ q.taken then fqSkip q f (n + 1) else n

/-- The index a free queue would give next, if any, of `size` in all. -/
def fqPeek (size : Nat) (q : FreeQ) : Option Nat :=
  let n := fqSkip q q.taken.length q.next
  if n < size then some n else q.freed.head?

/-- The free queue after it has given that index. -/
def fqPop (size : Nat) (q : FreeQ) : FreeQ :=
  let n := fqSkip q q.taken.length q.next
  if n < size then { q with next := n + 1, taken := q.taken.filter (n < ·) } else { q with freed := q.freed.drop 1 }

/-- The index is free. -/
def fqFree (q : FreeQ) (i : Nat) : Bool := (decide (q.next ≤ i) && !decide (i ∈ q.taken)) || decide (i ∈ q.freed)

/-- A free index taken out of its order. -/
def fqTake (i : Nat) (q : FreeQ) : FreeQ :=
  if i ∈ q.freed then { q with freed := q.freed.erase i } else { q with taken := q.taken ++ [i] }

/-- An index returned, at the end of the queue. -/
def fqPush (i : Nat) (q : FreeQ) : FreeQ := { q with freed := q.freed ++ [i] }

end Sys2Proof.Machine
end

