-- ==== Sys2Proof/Machine/Float.lean ====
section
/-! DEFINITION. Floating-point numbers as exact dyadic values: every format of the manual is read exactly, computed on
exactly, and rounded once. -/

namespace Sys2Proof.Machine

/-- A binary format: exponent bits, fraction bits, and what its top codes are: 0 IEEE infinities and NaNs, 1 the E4M3 form
with a NaN and no infinity, 2 neither. -/
structure Fmt where
  eb : Nat
  mb : Nat
  kind : Nat
  deriving DecidableEq, Repr

/-- binary32, bfloat16, binary16 and the 8, 6 and 4 bit formats (06 Table SYNC-1, 07). -/
abbrev fF32 : Fmt := ⟨8, 23, 0⟩
abbrev fBF16 : Fmt := ⟨8, 7, 0⟩
abbrev fF16 : Fmt := ⟨5, 10, 0⟩
abbrev fE4M3 : Fmt := ⟨4, 3, 1⟩
abbrev fE5M2 : Fmt := ⟨5, 2, 0⟩
abbrev fE2M3 : Fmt := ⟨2, 3, 2⟩
abbrev fE3M2 : Fmt := ⟨3, 2, 2⟩
abbrev fE2M1 : Fmt := ⟨2, 1, 2⟩

/-- A value: NaN, a signed infinity, or mag × 2^e with its sign (the sign of zero is kept). -/
inductive FV where
  | nan
  | inf (neg : Bool)
  | fin (neg : Bool) (mag : Nat) (e : Int)
  deriving DecidableEq, Repr

/-- Bits of a format. -/
def Fmt.width (f : Fmt) : Nat := 1 + f.eb + f.mb
/-- Its exponent bias. -/
def Fmt.bias (f : Fmt) : Nat := 2 ^ (f.eb - 1) - 1
/-- The first code, less its sign, beyond the finite values. -/
def Fmt.over (f : Fmt) : Nat :=
  if f.kind = 0 then (2 ^ f.eb - 1) * 2 ^ f.mb else if f.kind = 1 then 2 ^ (f.eb + f.mb) - 1 else 2 ^ (f.eb + f.mb)

/-- The value of a code. -/
def fpRead (f : Fmt) (w : Nat) : FV :=
  let neg := decide (w / 2 ^ (f.eb + f.mb) % 2 = 1)
  let c := w % 2 ^ (f.eb + f.mb)
  let ex := c / 2 ^ f.mb
  let fr := c % 2 ^ f.mb
  if c ≥ f.over then (if f.kind = 0 ∧ c = f.over then .inf neg else .nan)
  else if ex = 0 then .fin neg fr (1 - (f.bias : Int) - f.mb)
  else .fin neg (2 ^ f.mb + fr) ((ex : Int) - f.bias - f.mb)

/-- The code is a NaN. -/
def isNan (f : Fmt) (w : Nat) : Bool := fpRead f w = .nan

/-- A quotient rounded to nearest, ties to even. -/
def rne (n d : Nat) : Nat :=
  let q := n / d
  let r := n % d
  if 2 * r < d then q else if 2 * r > d then q + 1 else q + q % 2

/-- The magnitude code of mag × 2^e with the rounding rule `rnd` of a quotient; it may pass the largest finite code. -/
def fpCode (f : Fmt) (rnd : Nat → Nat → Nat) (mag : Nat) (e : Int) : Nat :=
  if mag = 0 then 0 else
  let top : Int := (Nat.log2 mag : Int) + e
  let q : Int := max (top - f.mb) (1 - (f.bias : Int) - f.mb)
  let n : Nat := if q ≤ e then mag * 2 ^ (e - q).toNat else rnd mag (2 ^ (q - e).toNat)
  ((q + f.mb + f.bias : Int).toNat - 1) * 2 ^ f.mb + n

/-- The sign bit of a format placed. -/
def fpSign (f : Fmt) (neg : Bool) : Nat := if neg then 2 ^ (f.eb + f.mb) else 0

/-- The default NaN: quiet, positive. -/
def fpNan (f : Fmt) : Nat :=
  if f.kind = 0 then (2 ^ f.eb - 1) * 2 ^ f.mb + 2 ^ (f.mb - 1) else 2 ^ (f.eb + f.mb) - 1

/-- A value in a format under a rounding rule; magnitudes past the largest finite value give `big`. -/
def fpWriteWith (f : Fmt) (rnd : Nat → Nat → Nat) (big : Nat) (v : FV) : Nat :=
  match v with
  | .nan => fpNan f
  | .inf neg => fpSign f neg + big
  | .fin neg mag e =>
    let c := fpCode f rnd mag e
    fpSign f neg + (if c ≥ f.over then big else c)

/-- To nearest even, overflow to infinity (06 R179). -/
def fpWrite (f : Fmt) (v : FV) : Nat := fpWriteWith f rne f.over v

/-- A value times a power of two, exactly. -/
def fpScale (v : FV) (k : Int) : FV :=
  match v with
  | .fin neg mag e => .fin neg mag (e + k)
  | v => v

/-- Signed magnitude as an integer. -/
def sgn (neg : Bool) (mag : Nat) : Int := if neg then -(mag : Int) else mag

/-- The exact sum; an exact zero is +0 unless both are −0 (06 R179). -/
def fpAdd (a b : FV) : FV :=
  match a, b with
  | .nan, _ => .nan
  | _, .nan => .nan
  | .inf x, .inf y => if x = y then .inf x else .nan
  | .inf x, _ => .inf x
  | _, .inf y => .inf y
  | .fin x m e, .fin y n g =>
    let k := min e g
    let s : Int := sgn x (m * 2 ^ (e - k).toNat) + sgn y (n * 2 ^ (g - k).toNat)
    .fin (if s = 0 then x && y else decide (s < 0)) s.natAbs k

/-- The exact product; 0 × ∞ is a NaN. -/
def fpMul (a b : FV) : FV :=
  match a, b with
  | .nan, _ => .nan
  | _, .nan => .nan
  | .inf x, .inf y => .inf (x != y)
  | .inf x, .fin y n _ => if n = 0 then .nan else .inf (x != y)
  | .fin x m _, .inf y => if m = 0 then .nan else .inf (x != y)
  | .fin x m e, .fin y n g => .fin (x != y) (m * n) (e + g)

/-- a < b as numbers, −0 below +0 (08 R258); neither is a NaN. -/
def fpLt (a b : FV) : Bool :=
  match a, b with
  | .nan, _ => false
  | _, .nan => false
  | .inf x, .inf y => x && !y
  | .inf x, _ => x
  | _, .inf y => !y
  | .fin x m e, .fin y n g =>
    if m = 0 ∧ n = 0 then x && !y
    else
      let k := min e g
      decide (sgn x (m * 2 ^ (e - k).toNat) < sgn y (n * 2 ^ (g - k).toNat))

/-- The code with its quiet bit set. -/
def fpQuiet (f : Fmt) (w : Nat) : Nat := w ||| 2 ^ (f.mb - 1)

/-- FADD on stored S with operand A (06 R179). -/
def fadd (f : Fmt) (s a : Nat) : Nat :=
  if isNan f s then fpQuiet f s
  else if isNan f a then fpQuiet f a
  else fpWrite f (fpAdd (fpRead f s) (fpRead f a))

/-- The NaN result when either operand is one, for FMIN and FMAX (08 R258). -/
def fminmax (f : Fmt) (isMin : Bool) (s a : Nat) : Nat :=
  if isNan f s then fpQuiet f s
  else if isNan f a then fpQuiet f a
  else if (if isMin then fpLt (fpRead f a) (fpRead f s) else fpLt (fpRead f s) (fpRead f a)) then a else s

/-- A code of one format as a binary32 code, exactly when binary32 can hold it. A NaN of an IEEE form keeps its sign and
fraction bits; which NaN an E4M3 NaN code becomes is not stated: its sign and low fraction bits are free (08 R258, log 8). -/
def toF32 (f : Fmt) (w : Nat) : Nat :=
  if isNan f w then
    (if f.kind = 0 then
      fpSign fF32 (decide (w / 2 ^ (f.eb + f.mb) % 2 = 1)) + 0x7F800000 + (w % 2 ^ f.mb) * 2 ^ (23 - f.mb)
     else ((Config.nanBits (BitVec.ofNat 8 w) &&& 0x803FFFFF) ||| 0x7FC00000).toNat)
  else fpWrite fF32 (fpRead f w)

/-- The stored integer as two's complement of w bits. -/
def toSigned (w n : Nat) : Int := if n < 2 ^ (w - 1) then n else (n : Int) - 2 ^ w

/-- An integer modulo 2^w. -/
def ofInt (w : Nat) (i : Int) : Nat := (i % (2 ^ w : Nat)).toNat

/-- Integer operations of 06 Table SYNC-1, by SUBOP 0 to 8, on w-bit values; others leave S. -/
def intOp (sub w s a : Nat) : Nat :=
  match sub with
  | 0 => (s + a) % 2 ^ w
  | 1 => if toSigned w a < toSigned w s then a else s
  | 2 => if toSigned w s < toSigned w a then a else s
  | 3 => if a < s then a else s
  | 4 => if s < a then a else s
  | 5 => s &&& a
  | 6 => s ||| a
  | 7 => s ^^^ a
  | 8 => a
  | _ => s

end Sys2Proof.Machine
end

