-- ==== Sys2Proof/Machine/Crypto.lean ====
section
/-! DEFINITION. The cipher, the integrity tag, the line CRC and the digest: AES-256-XTS, GHASH, CRC-32C and SHA-384, on
bytes and words as their standards give them. -/

namespace Sys2Proof.Machine

/-- Byte i of a number, byte 0 lowest. -/
def byteAt (n i : Nat) : Nat := n / 2 ^ (8 * i) % 256

/-- n bytes of a number from byte i up, lowest first. -/
def bytesFrom (n : Nat) : Nat → Nat → List Nat
  | _, 0 => []
  | i, k + 1 => byteAt n i :: bytesFrom n (i + 1) k

/-- n bytes of a number, lowest first. -/
def bytesOf (n k : Nat) : List Nat := bytesFrom n 0 k

/-- A number from its bytes, lowest first. -/
def ofBytes : List Nat → Nat
  | [] => 0
  | b :: t => b + 256 * ofBytes t

/-- A number from its bytes, highest first. -/
def ofBytesBE (l : List Nat) : Nat := ofBytes l.reverse

/-- The AES substitution box, entry x in byte x. -/
def aesBox : Nat := 0x16BB54B00F2D99416842E6BF0D89A18CDF2855CEE9871E9B948ED9691198F8E19E1DC186B95735610EF6034866B53E708A8BBD4B1F74DDE8C6B4A61C2E2578BA08AE7A65EAF4566CA94ED58D6D37C8E779E4959162ACD3C25C2406490A3A32E0DB0B5EDE14B8EE4688902A22DC4F816073195D643D7EA7C41744975FEC130CCDD2F3FF1021DAB6BCF5389D928F40A351A89F3C507F02F94585334D43FBAAEFD0CF584C4A39BECB6A5BB1FC20ED00D153842FE329B3D63B52A05A6E1B1A2C830975B227EBE28012079A059618C323C7041531D871F1E5A534CCF73F362693FDB7C072A49CAFA2D4ADF04759FA7DC982CA76ABD7FE2B670130C56F6BF27B777C63

/-- Its inverse. -/
def aesInvBox : Nat := 0x7D0C2155631469E126D677BA7E042B17619953833CBBEBC8B0F52AAE4D3BE0A0EF9CC9939F7AE52D0D4AB519A97F51605FEC8027591012B131C7078833A8DD1FF45ACD78FEC0DB9A2079D2C64B3E56FC1BBE18AA0E62B76F89C5291D711AF1476EDF751CE837F9E28535ADE72274AC9673E6B4F0CECFF297EADC674F4111913A6B8A130103BDAFC1020F3FCA8F1E2CD00645B3B80558E4F70AD3BC8C00ABD890849D8DA75746155EDAB9EDFD5048706C92B6655DCC5CA4D41698688664F6F87225D18B6D49A25B76B224D92866A12E084EC3FA420B954CEE3D23C2A632947B54CBE9DEC444438E3487FF2F9B8239E37CFBD7F3819EA340BF38A53630D56A0952

/-- Multiplication by x in the AES field. -/
def xtime (b : Nat) : Nat := if b < 128 then 2 * b else (2 * b - 256) ^^^ 0x1B

/-- Multiplication by a small constant in the AES field. -/
def gm (k b : Nat) : Nat :=
  let b2 := xtime b
  let b4 := xtime b2
  let b8 := xtime b4
  (if k % 2 = 1 then b else 0) ^^^ (if k / 2 % 2 = 1 then b2 else 0) ^^^ (if k / 4 % 2 = 1 then b4 else 0) ^^^
  (if k / 8 % 2 = 1 then b8 else 0)

/-- Bytes XORed one by one. -/
def xorBytes : List Nat → List Nat → List Nat
  | a :: s, b :: t => (a ^^^ b) :: xorBytes s t
  | _, _ => []

/-- Word i of the AES-256 schedule from the words before it, newest first. -/
def aesWord (i rc : Nat) (ws : List (List Nat)) : List Nat :=
  let t := ws.headD []
  let sub := fun (l : List Nat) => l.map (byteAt aesBox)
  let t := if i % 8 = 0 then xorBytes (sub (t.drop 1 ++ t.take 1)) [rc, 0, 0, 0] else if i % 8 = 4 then sub t else t
  xorBytes (ws.getD 7 []) t

/-- The schedule grown by n words, newest first. -/
def aesGrow : Nat → Nat → Nat → List (List Nat) → List (List Nat)
  | 0, _, _, ws => ws
  | n + 1, i, rc, ws => aesGrow n (i + 1) (if i % 8 = 0 then xtime rc else rc) (aesWord i rc ws :: ws)

/-- A list cut into n runs of four. -/
def fours : Nat → List Nat → List (List Nat)
  | 0, _ => []
  | n + 1, l => l.take 4 :: fours n (l.drop 4)

/-- A list cut into n runs of sixteen. -/
def sixteens : Nat → List Nat → List (List Nat)
  | 0, _ => []
  | n + 1, l => l.take 16 :: sixteens n (l.drop 16)

/-- The fifteen round keys of a 256-bit key, whose byte 0 is its lowest. -/
def aesKeys (k : BitVec 256) : List (List Nat) :=
  sixteens 15 ((aesGrow 52 8 1 (fours 8 (bytesOf k.toNat 32)).reverse).reverse.flatten)

/-- Row shift, forward or inverse. -/
def aesShift (inv : Bool) (s : List Nat) : List Nat :=
  (List.range 16).map fun i => s.getD (4 * ((i / 4 + (if inv then 4 - i % 4 else i % 4)) % 4) + i % 4) 0

/-- Column mix with the four constants of its first row. -/
def aesMix (c : List Nat) (s : List Nat) : List Nat :=
  (List.range 16).map fun i =>
    let col := (s.drop (i / 4 * 4)).take 4
    let term := fun (j : Nat) => gm (c.getD ((j + 4 - i % 4) % 4) 0) (col.getD j 0)
    term 0 ^^^ term 1 ^^^ term 2 ^^^ term 3

/-- Encryption rounds over the round keys left. -/
def aesEncRounds : List (List Nat) → List Nat → List Nat
  | [], s => s
  | [k], s => xorBytes (aesShift false (s.map (byteAt aesBox))) k
  | k :: ks, s => aesEncRounds ks (xorBytes (aesMix [2, 3, 1, 1] (aesShift false (s.map (byteAt aesBox)))) k)

/-- AES-256 encryption of one block. -/
def aesEnc (keys : List (List Nat)) (b : List Nat) : List Nat :=
  aesEncRounds (keys.drop 1) (xorBytes b (keys.headD []))

/-- Decryption rounds over the round keys left, last one first. -/
def aesDecRounds : List (List Nat) → List Nat → List Nat
  | [], s => s
  | [k], s => xorBytes ((aesShift true s).map (byteAt aesInvBox)) k
  | k :: ks, s => aesDecRounds ks (aesMix [14, 11, 13, 9] (xorBytes ((aesShift true s).map (byteAt aesInvBox)) k))

/-- AES-256 decryption of one block. -/
def aesDec (keys : List (List Nat)) (b : List Nat) : List Nat :=
  aesDecRounds (keys.reverse.drop 1) (xorBytes b (keys.reverse.headD []))

/-- The next tweak of XTS (IEEE 1619): times alpha, little-endian. -/
def xtsNext (t : Nat) : Nat := if t < 2 ^ 127 then 2 * t else (2 * t - 2 ^ 128) ^^^ 0x87

/-- XTS over n blocks from tweak t. -/
def xtsBlocks (f : List Nat → List Nat) : Nat → Nat → List Nat → List Nat
  | 0, _, _ => []
  | n + 1, t, l =>
    let tb := bytesOf t 16
    xorBytes (f (xorBytes (l.take 16) tb)) tb ++ xtsBlocks f n (xtsNext t) (l.drop 16)

/-- A line encrypted or decrypted under AES-256-XTS with the data unit number `unit` (14 R358). -/
def xtsLine (dec : Bool) (dataKey tweakKey : BitVec 256) (unit : Nat) (d : Line) : Line :=
  let t := ofBytes (aesEnc (aesKeys tweakKey) (bytesOf unit 16))
  let ks := aesKeys dataKey
  BitVec.ofNat 1024 (ofBytes (xtsBlocks (if dec then aesDec ks else aesEnc ks) 8 t (bytesOf d.toNat 128)))

/-- Product in the GHASH field, the first bit of a block its highest (SP 800-38D): over the n bits of x left. -/
def ghMul (x : Nat) : Nat → Nat → Nat → Nat
  | 0, z, _ => z
  | n + 1, z, v =>
    ghMul x n (if x / 2 ^ n % 2 = 1 then z ^^^ v else z) (if v % 2 = 1 then (v / 2) ^^^ (0xE1 * 2 ^ 120) else v / 2)

/-- GHASH of blocks. -/
def ghash (h : Nat) : Nat → List Nat → Nat
  | y, [] => y
  | y, x :: t => ghash h (ghMul (y ^^^ x) 128 0 h) t

/-- The integrity tag of an encrypted line (14 R360): the stored data, its unit number, metadata bytes 8 to 15. -/
def lineTag (tagKey : BitVec 256) (unit : Nat) (meta8 : W64) (d : Line) : W64 :=
  let ks := aesKeys tagKey
  let h := ofBytesBE (aesEnc ks (bytesOf 0 16))
  let x1 := bytesOf unit 8 ++ bytesOf meta8.toNat 8
  let xs := (sixteens 8 (bytesOf d.toNat 128)).map ofBytesBE
  let s := ghash h 0 (ofBytesBE x1 :: xs ++ [0x80 * 2 ^ 64 + 0x400])
  BitVec.ofNat 64 (ofBytes ((aesEnc ks (bytesOf s 16).reverse).take 8))

/-- CRC-32C over the n bits left of one byte. -/
def crcBits : Nat → Nat → Nat
  | 0, c => c
  | n + 1, c => crcBits n (if c % 2 = 1 then (c / 2) ^^^ 0x82F63B78 else c / 2)

/-- CRC-32C over bytes, before the final inversion. -/
def crcBytes : Nat → List Nat → Nat
  | c, [] => c
  | c, b :: t => crcBytes (crcBits 8 (c ^^^ b)) t

/-- CRC-32C of a plain line: 128 data bytes, then the 8-byte local offset (02 R54). -/
def lineCrc (line : LineNo) (d : Line) : Nat :=
  crcBytes 0xFFFFFFFF (bytesOf d.toNat 128 ++ bytesOf (line.toNat * 128) 8) ^^^ 0xFFFFFFFF

/-- The round constants of SHA-384 (FIPS 180-4). -/
def shaK : List Nat :=
  [0x428A2F98D728AE22, 0x7137449123EF65CD, 0xB5C0FBCFEC4D3B2F, 0xE9B5DBA58189DBBC] ++
  [0x3956C25BF348B538, 0x59F111F1B605D019, 0x923F82A4AF194F9B, 0xAB1C5ED5DA6D8118] ++
  [0xD807AA98A3030242, 0x12835B0145706FBE, 0x243185BE4EE4B28C, 0x550C7DC3D5FFB4E2] ++
  [0x72BE5D74F27B896F, 0x80DEB1FE3B1696B1, 0x9BDC06A725C71235, 0xC19BF174CF692694] ++
  [0xE49B69C19EF14AD2, 0xEFBE4786384F25E3, 0x0FC19DC68B8CD5B5, 0x240CA1CC77AC9C65] ++
  [0x2DE92C6F592B0275, 0x4A7484AA6EA6E483, 0x5CB0A9DCBD41FBD4, 0x76F988DA831153B5] ++
  [0x983E5152EE66DFAB, 0xA831C66D2DB43210, 0xB00327C898FB213F, 0xBF597FC7BEEF0EE4] ++
  [0xC6E00BF33DA88FC2, 0xD5A79147930AA725, 0x06CA6351E003826F, 0x142929670A0E6E70] ++
  [0x27B70A8546D22FFC, 0x2E1B21385C26C926, 0x4D2C6DFC5AC42AED, 0x53380D139D95B3DF] ++
  [0x650A73548BAF63DE, 0x766A0ABB3C77B2A8, 0x81C2C92E47EDAEE6, 0x92722C851482353B] ++
  [0xA2BFE8A14CF10364, 0xA81A664BBC423001, 0xC24B8B70D0F89791, 0xC76C51A30654BE30] ++
  [0xD192E819D6EF5218, 0xD69906245565A910, 0xF40E35855771202A, 0x106AA07032BBD1B8] ++
  [0x19A4C116B8D2D0C8, 0x1E376C085141AB53, 0x2748774CDF8EEB99, 0x34B0BCB5E19B48A8] ++
  [0x391C0CB3C5C95A63, 0x4ED8AA4AE3418ACB, 0x5B9CCA4F7763E373, 0x682E6FF3D6B2B8A3] ++
  [0x748F82EE5DEFB2FC, 0x78A5636F43172F60, 0x84C87814A1F0AB72, 0x8CC702081A6439EC] ++
  [0x90BEFFFA23631E28, 0xA4506CEBDE82BDE9, 0xBEF9A3F7B2C67915, 0xC67178F2E372532B] ++
  [0xCA273ECEEA26619C, 0xD186B8C721C0C207, 0xEADA7DD6CDE0EB1E, 0xF57D4F7FEE6ED178] ++
  [0x06F067AA72176FBA, 0x0A637DC5A2C898A6, 0x113F9804BEF90DAE, 0x1B710B35131C471B] ++
  [0x28DB77F523047D84, 0x32CAAB7B40C72493, 0x3C9EBE0A15C9BEBC, 0x431D67C49C100D4C] ++
  [0x4CC5D4BECB3E42B6, 0x597F299CFC657E2A, 0x5FCB6FAB3AD6FAEC, 0x6C44198C4A475817]

/-- The initial chaining state of SHA-384, H0 first. -/
def sha384Init : List Nat :=
  [0xCBBB9D5DC1059ED8, 0x629A292A367CD507, 0x9159015A3070DD17, 0x152FECD8F70E5939] ++
  [0x67332667FFC00B31, 0x8EB44A8768581511, 0xDB0C2E0D64F98FA7, 0x47B5481DBEFA4FA4]

/-- Rotation right of a 64-bit word. -/
def rotr (n x : Nat) : Nat := (x / 2 ^ n) ||| (x % 2 ^ n * 2 ^ (64 - n))

/-- The message schedule, newest word first, grown by n words. -/
def shaGrow : Nat → List Nat → List Nat
  | 0, w => w
  | n + 1, w =>
    let a := w.getD 1 0
    let b := w.getD 14 0
    let s1 := rotr 19 a ^^^ rotr 61 a ^^^ (a / 2 ^ 6)
    let s0 := rotr 1 b ^^^ rotr 8 b ^^^ (b / 2 ^ 7)
    shaGrow n (((s1 + w.getD 6 0 + s0 + w.getD 15 0) % 2 ^ 64) :: w)

/-- The rounds: constants and schedule words against the eight working words. -/
def shaRounds : List Nat → List Nat → List Nat → List Nat
  | k :: ks, w :: ws, [a, b, c, d, e, f, g, h] =>
    let t1 := h + (rotr 14 e ^^^ rotr 18 e ^^^ rotr 41 e) + ((e &&& f) ^^^ ((2 ^ 64 - 1 - e) &&& g)) + k + w
    let t2 := (rotr 28 a ^^^ rotr 34 a ^^^ rotr 39 a) + ((a &&& b) ^^^ (a &&& c) ^^^ (b &&& c))
    shaRounds ks ws [(t1 + t2) % 2 ^ 64, a, b, c, (d + t1) % 2 ^ 64, e, f, g]
  | _, _, v => v

/-- Words added one by one modulo 2^64. -/
def addWords : List Nat → List Nat → List Nat
  | a :: s, b :: t => ((a + b) % 2 ^ 64) :: addWords s t
  | _, _ => []

/-- n big-endian words of eight bytes. -/
def beWords : Nat → List Nat → List Nat
  | 0, _ => []
  | n + 1, l => ofBytesBE (l.take 8) :: beWords n (l.drop 8)

/-- One block of 128 bytes taken into the chaining state. -/
def shaBlock (h : List Nat) (block : List Nat) : List Nat :=
  addWords h (shaRounds shaK (shaGrow 64 (beWords 16 block).reverse).reverse h)

/-- A chaining state as eight words, H0 in the high bits. -/
def shaUnpack (h : BitVec 512) : List Nat := (List.range 8).map fun i => h.toNat / 2 ^ (64 * (7 - i)) % 2 ^ 64

/-- Eight words as a chaining state. -/
def shaPack (l : List Nat) : BitVec 512 := BitVec.ofNat 512 (l.foldl (fun a w => a * 2 ^ 64 + w) 0)

/-- A line measured (14 R379): one block. -/
def shaLine (h : BitVec 512) (d : Line) : BitVec 512 := shaPack (shaBlock (shaUnpack h) (bytesOf d.toNat 128))

/-- The chaining state after the padding of FIPS 180-4, whole blocks of `bytes` bytes having gone before. -/
def shaFinal (h : BitVec 512) (bytes : Nat) : BitVec 512 :=
  shaPack (shaBlock (shaUnpack h) ([0x80] ++ List.replicate 111 0 ++ (bytesOf (8 * bytes) 16).reverse))

/-- The 384-bit digest, digest byte 0 in bits [7:0]. -/
def shaDigest (h : BitVec 512) : BitVec 384 :=
  BitVec.ofNat 384 (ofBytes ((bytesOf h.toNat 64).reverse.take 48))

end Sys2Proof.Machine
end

