-- ==== Sys2Proof/Machine/Operands.lean ====
section
/-! DEFINITION. Operand forms: addresses of the four spaces and their homing, lines and their places in the cache, the
field checks of requests, and the order of a request's checks up to its context. -/

namespace Sys2Proof.Machine

/-- Where a memory-space address lies. -/
inductive Home where
  | at (off : BitVec 35)
  | denied
  | mishomed
  deriving DecidableEq, Repr

/-- Bucket of a hashed address (01 R27). -/
def bucketOf (a : W64) : Nat :=
  (fld a 23 12 ^^^ fld a 35 24) ^^^ fld a 41 36

/-- Rank of a bucket among the slice's own, none when the slice does not own it (01 R29, R31). -/
def rankOf (mask : BitVec 4096) (b : Nat) : Option Nat :=
  if mask.getLsbD b then (if popBelow mask b < 32 then some (popBelow mask b) else none) else none

/-- The slice holds this logical number (01 R31): none while LV is 0. -/
def ownLogical (m : Mach) (l : Nat) : Bool := m.regs.lv && decide (m.regs.logical.toNat = l)

/-- Reserved bits of a memory-space address are zero (01 Table ORG-7). -/
def memRsvOk (a : W64) : Bool := if bit a 47 then decide (fld a 39 35 = 0) else decide (fld a 46 42 = 0)

/-- Homing of the address bits below PROC (01 R31, R29), for an address whose reserved bits are zero. -/
def memHomeLow (m : Mach) (a : W64) : Home :=
  if bit a 47 then
    (if ownLogical m (fld a 46 40) then .at (BitVec.ofNat 35 (fld a 34 0)) else .mishomed)
  else match rankOf m.regs.bucketMask (bucketOf a) with
    | some r => .at (BitVec.ofNat 35 (r * 2 ^ 30 + fld a 41 24 * 2 ^ 12 + fld a 11 0))
    | none => .mishomed

/-- The ownership check of a memory-space address, in its order (01 R31). -/
def memHome (fx : Fixed) (m : Mach) (a : W64) : Home :=
  if fld a 63 48 ≠ fx.procId.toNat then .mishomed
  else if !memRsvOk a then .denied
  else memHomeLow m a

/-- The ownership check of a berth-space address: PROC and SLICE (01 Table ORG-8). -/
def berthHome (fx : Fixed) (m : Mach) (a : W64) : Bool :=
  decide (fld a 63 48 = fx.procId.toNat) && ownLogical m (fld a 47 41)

/-- The ownership check of a sync-space address (01 Table ORG-9). -/
def syncHome (fx : Fixed) (m : Mach) (a : W64) : Bool :=
  decide (fld a 63 48 = fx.procId.toNat) && ownLogical m (fld a 20 14)

/-- The direct form of a local offset of this slice. -/
def directOf (fx : Fixed) (m : Mach) (off : Nat) : W64 :=
  BitVec.ofNat 64 (fx.procId.toNat * 2 ^ 48 + 2 ^ 47 + m.regs.logical.toNat * 2 ^ 40 + off % 2 ^ 35)

/-- Line of a local offset (01 R29, 04 R102). -/
def lineOfOff (off : BitVec 35) : LineNo := BitVec.ofNat 28 (off.toNat / 128)

/-- Set, tag, quad, granule of a line (04 R102). -/
def setOf (l : LineNo) : Nat := l.toNat % 4096
def tagOf (l : LineNo) : BitVec 16 := BitVec.ofNat 16 (l.toNat / 4096)
def quadOf (l : LineNo) : Nat := l.toNat % 4
def granOf (l : LineNo) : Nat := l.toNat / 32
/-- The line that a tag names in a set. -/
def lineOf (set : Nat) (tag : BitVec 16) : LineNo := BitVec.ofNat 28 (tag.toNat * 4096 + set)

/-- Bank index of a way (04 R106). -/
def bankOf (set way : Nat) : Nat := (way % 16) ^^^ (set / 4 % 16)
/-- Row of a way in its bank (04 R106). -/
def rowOf (set way : Nat) : Nat := (set / 4) * 2 + way / 16

/-- The byte places of one sector. -/
def sectBytes (i : Nat) : BitVec 128 := BitVec.ofNat 128 ((2 ^ 32 - 1) * 2 ^ (32 * i))

/-- The bytes of the named sectors. -/
def sectMask (s : BitVec 4) : BitVec 128 :=
  (if s.getLsbD 0 then sectBytes 0 else 0) ||| (if s.getLsbD 1 then sectBytes 1 else 0) |||
  (if s.getLsbD 2 then sectBytes 2 else 0) ||| (if s.getLsbD 3 then sectBytes 3 else 0)

/-- Each mask bit widened to its byte's eight bits. -/
def byteBits (b : BitVec 128) : Nat → Nat
  | 0 => 0
  | n + 1 => byteBits b n + (if b.getLsbD n then 255 * 2 ^ (8 * n) else 0)

/-- The line bits of a set of bytes. -/
def lineMask (b : BitVec 128) : Line := BitVec.ofNat 1024 (byteBits b 128)

/-- The line bits of a set of sectors. -/
def sectLine (s : BitVec 4) : Line :=
  let one := fun (i : Nat) => if s.getLsbD i then (2 ^ 256 - 1) * 2 ^ (256 * i) else 0
  BitVec.ofNat 1024 (one 0 + one 1 + one 2 + one 3)

/-- One sector of a line. -/
def sector (d : Line) (i : Nat) : BitVec 256 := d.extractLsb' (256 * i) 256

/-- A line with the bytes of a mask taken from another. -/
def mergeBytes (old new : Line) (b : BitVec 128) : Line := (old &&& ~~~lineMask b) ||| (new &&& lineMask b)

/-- A line with the sectors of a mask taken from another. -/
def mergeSect (old new : Line) (s : BitVec 4) : Line := (old &&& ~~~sectLine s) ||| (new &&& sectLine s)

/-- The four words of a sector. -/
def sectWords (d : Line) (i : Nat) : List W64 :=
  [d.extractLsb' (256 * i) 64, d.extractLsb' (256 * i + 64) 64, d.extractLsb' (256 * i + 128) 64, d.extractLsb' (256 * i + 192) 64]

/-- Words of the named sectors, ascending (02 R42). -/
def wordsOf (d : Line) (s : BitVec 4) : List W64 :=
  (if s.getLsbD 0 then sectWords d 0 else []) ++ (if s.getLsbD 1 then sectWords d 1 else []) ++
  (if s.getLsbD 2 then sectWords d 2 else []) ++ (if s.getLsbD 3 then sectWords d 3 else [])

/-- A list of words laid end to end, first word lowest. -/
def catWords : List W64 → Nat
  | [] => 0
  | w :: t => w.toNat + 2 ^ 64 * catWords t

/-- A line from its sixteen words. -/
def lineOfWords (ws : List W64) : Line := BitVec.ofNat 1024 (catWords (ws.take 16))

/-- A payload's words placed in the named sectors, ascending (02 R42). -/
def placeSect (ws : List W64) (s : BitVec 4) : Line :=
  let n := fun (i : Nat) => pop (BitVec.ofNat i s.toNat)
  let part := fun (i : Nat) =>
    if s.getLsbD i then catWords ((ws.drop (4 * n i)).take 4) * 2 ^ (256 * i) else 0
  BitVec.ofNat 1024 (part 0 + part 1 + part 2 + part 3)

/-- Opcodes of the data plane (02 Table PORT-7). -/
abbrev opRD : BitVec 6 := 0x00
abbrev opRDVOL : BitVec 6 := 0x01
abbrev opRDSTREAM : BitVec 6 := 0x02
abbrev opWR : BitVec 6 := 0x08
abbrev opWRTHRU : BitVec 6 := 0x09
abbrev opWRFULL : BitVec 6 := 0x0A
abbrev opATOM : BitVec 6 := 0x10
abbrev opATOMRET : BitVec 6 := 0x11
abbrev opLRED : BitVec 6 := 0x18
abbrev opTCONTRIB : BitVec 6 := 0x20
abbrev opTCONTRIBW : BitVec 6 := 0x21
abbrev opTFOLD : BitVec 6 := 0x22
abbrev opSIGNAL : BitVec 6 := 0x28
abbrev opWAIT : BitVec 6 := 0x29
abbrev opBRD : BitVec 6 := 0x30
abbrev opBWR : BitVec 6 := 0x31
abbrev opQENQ : BitVec 6 := 0x32
abbrev opQDEQ : BitVec 6 := 0x33
abbrev opSCATTER : BitVec 6 := 0x38
abbrev opPFHINT : BitVec 6 := 0x3C

/-- The assigned opcodes. -/
def dpOps : List (BitVec 6) :=
  [0x00, 0x01, 0x02, 0x08, 0x09, 0x0A, 0x10, 0x11, 0x18, 0x20, 0x21, 0x22, 0x28, 0x29, 0x30, 0x31, 0x32, 0x33, 0x38, 0x3C]

/-- The opcodes that may carry MV = 1 (06 R193). -/
def mvOps : List (BitVec 6) := [0x08, 0x09, 0x0A, 0x10, 0x11, 0x18, 0x20, 0x21, 0x22, 0x31, 0x32, 0x38]

/-- The opcodes that may carry MASKMODE 1 (02 R43). -/
def maskOps : List (BitVec 6) := [0x08, 0x09, 0x31]

/-- The field checks that are the same for every opcode (02 R43, 00 R12, 02 R483, 06 R193). -/
def commonFields (op : BitVec 6) (r : Req) : Bool :=
  decide (r.env = 0) && decide (r.rsvd = 0) && decide (r.maskmode = 0 ∨ (r.maskmode = 1 ∧ op ∈ maskOps)) &&
  decide (r.scope.toNat ≤ 5) && (r.mv || decide (r.manifest = 0)) && (!r.mv || decide (op ∈ mvOps)) &&
  decide (r.plen.toNat ≤ 16) && decide (r.maskmode = 1 ∨ r.bmask = 0) &&
  decide (r.bmask &&& ~~~(sectMask r.sect) = 0) &&
  decide ((r.vc = .vc2) ↔ (op = opSIGNAL ∨ op = opPFHINT))

/-- The fields of a read of sectors (02 R42, R43, 04 Table CACHE-12): SECT names the critical sector, no payload. -/
def readFields (r : Req) : Bool :=
  decide (r.plen = 0) && r.sect.getLsbD (fld r.address 6 5)

/-- The fields of a write of sectors (02 R42, R43). -/
def writeFields (r : Req) : Bool :=
  decide (r.sect ≠ 0) && decide (r.plen.toNat = 4 * pop r.sect) && decide (r.subop = 0) && decide (r.aux = 0)

/-- Context permission bit of an opcode (03 Table CMD-8). -/
def permBit (op : BitVec 6) : Nat :=
  if op ∈ [opRD, opRDVOL, opRDSTREAM, opPFHINT] then 0 else if op ∈ [opWR, opWRTHRU, opWRFULL] then 1
  else if op ∈ [opATOM, opATOMRET, opLRED] then 2 else if op ∈ [opTCONTRIB, opTCONTRIBW, opTFOLD, opSCATTER] then 3
  else if op ∈ [opSIGNAL, opWAIT] then 4 else 5

/-- An orphan arrival counted and recorded (16 R435). -/
def noteOrphan (op : BitVec 6) (r : Req) (m : Mach) : Mach :=
  let m := count 0x012 m
  { m with sync := { m.sync with
      orphanSrc := r.source, orphanCtx := r.ctx, orphanGen := r.gen, orphanOp := op,
      orphanCount := if m.sync.orphanCount = 0x3FFFFF then m.sync.orphanCount else m.sync.orphanCount + 1 } }

/-- An orphan arrival: STALE, counted and recorded; a PF_HINT is dropped (16 R435). -/
def orphan (op : BitVec 6) (r : Req) (m : Mach) : Mach :=
  noteOrphan op r (if op = opPFHINT then m else answer r op stStale m)

/-- The slice's landings answer as a fenced slice's: clamped with the BOUNCE strap, FENCED, or fatal (01 R33, 02 R64,
03 R481). -/
def fencedLike (m : Mach) : Bool := landingClamped m || m.life.st = .fenced || m.err.fatal

/-- The slice admits a data-plane request to the opcode's own checks (03 R481 up to its sixth step), or answers it. A
PF_HINT is never answered. `home` is the ownership check: none for MISHOMED, false for DENIED. -/
inductive Gate where
  | pass
  | stop (m : Mach)
  deriving DecidableEq, Repr

/-- Denial of any request: a PF_HINT is dropped and counted. -/
def refuse (op : BitVec 6) (r : Req) (m : Mach) : Mach := if op = opPFHINT then countR 0x010 r m else deny r op m
/-- MISHOMED for any request: a PF_HINT is dropped and counted (01 R32). -/
def turnAway (op : BitVec 6) (r : Req) (m : Mach) : Mach := if op = opPFHINT then count 0x011 m else bounce r op m
/-- A bare status for any request: a PF_HINT is dropped. -/
def answerQ (op : BitVec 6) (r : Req) (st : BitVec 4) (m : Mach) : Mach := if op = opPFHINT then m else answer r op st m

/-- What the ownership check of a request gives. -/
inductive Own where
  | ok | denied | mishomed
  deriving DecidableEq, Repr

/-- The checks of 03 R481, steps 1 to 6, in order; `own`, `fields` and `level` are what steps 2, 3 and 5 give. -/
def gate (op : BitVec 6) (r : Req) (own : Own) (fields level : Bool) (m : Mach) : Gate :=
  let e := ctxOf m r.ctx
  if fencedLike m then .stop (if op = opPFHINT then m else bounce r op m)
  else if own = .denied then .stop (if op = opPFHINT then countR 0x010 r m else answer r op stDenied m)
  else if own = .mishomed then .stop (turnAway op r m)
  else if !fields then .stop (refuse op r m)
  else if effState m = .ready then .stop (answerQ op r stDenied m)
  else if effState m = .quiesced then .stop (answerQ op r stRetry m)
  else if !level then .stop (refuse op r m)
  else if !(e.opened && !e.purged && e.gen = r.gen) then .stop (orphan op r m)
  else if e.suspended || e.frozen || e.lost then .stop (if op = opPFHINT then countR 0x010 r m else answer r op stRetry m)
  else if !(e.perm.getLsbD (permBit op)) then .stop (refuse op r m)
  else .pass

/-- The ownership check of a memory request as the gate takes it. -/
def ownMem (h : Home) : Own :=
  match h with | .at _ => .ok | .denied => .denied | .mishomed => .mishomed

/-- With the HOLD strap a clamped landing advertises no VC0 credit: the request stays with its router and reaches nothing
(02 R64, Table PORT-18). -/
def heldByStrap (fx : Fixed) (vc : Vc) (m : Mach) : Bool := fx.clampHold && vc = .vc0 && landingClamped m

end Sys2Proof.Machine
end

