-- ==== Sys2Proof/Machine/Season.lean ====
section
/-! DEFINITION. Domains and their seasons: numbering, what a step that needs a domain finds, demand thaws, the budget of
starting thaws. -/

namespace Sys2Proof.Machine

/-- Domain numbers (log 10): data banks quad × 17 + bank, the spare being bank 16. -/
def dBank (quad bank : Nat) : Nat := quad * 17 + bank
def dTag (quad : Nat) : Nat := 68 + quad
def dDir (seg : Nat) : Nat := 72 + seg
def dAcc (half : Nat) : Nat := 76 + half
def dRed : Nat := 78
def dCipher : Nat := 79
def dEngine : Nat := 80
def dSync : Nat := 81

/-- A domain. -/
def dom (m : Mach) (i : Nat) : Dom := m.season.doms.getD i .summer

/-- A domain replaced. -/
def setDom (i : Nat) (d : Dom) (m : Mach) : Mach :=
  { m with season := { m.season with doms := m.season.doms.setIfInBounds i d } }

/-- The bank that serves a physical index of a quad: the spare after 15 R415. -/
def bankServing (m : Mach) (quad idx : Nat) : Nat :=
  if tget 0 m.cache.spareFor quad = idx + 1 then 16 else idx

/-- The domain that holds a way of a set. -/
def dWay (m : Mach) (set way : Nat) : Nat := dBank (set % 4) (bankServing m (set % 4) (bankOf set way))

/-- A thaw of the domain is queued. -/
def thawQueued (m : Mach) (i : Nat) : Bool := m.season.queue.any (·.dom = i)

/-- A demand thaw queued, unless one is (13 R353). -/
def queueThaw (i : Nat) (m : Mach) : Mach :=
  if thawQueued m i then m
  else { m with season := { m.season with queue := m.season.queue ++ [⟨i, true, .summer⟩] } }

/-- The domain is ready for a step without a thaw: Summer or Autumn, and not on its way to Frost. -/
def domReady (m : Mach) (i : Nat) : Bool :=
  let d := dom m i
  (d.season = .summer || d.season = .autumn) && !(d.entering = some .frost)

/-- The domain that enters Winter together with this one: a tag quadrant and the directory segment of its number (13 R345). -/
def twinOf (i : Nat) : Option Nat :=
  if dTag 0 ≤ i ∧ i < dDir 0 then some (i + 4) else if dDir 0 ≤ i ∧ i < dAcc 0 then some (i - 4) else none

/-- An entry to Winter cancelled, that of the twin with it. -/
def stayUp (i : Nat) (m : Mach) : Mach :=
  let stop := fun (j : Nat) (m : Mach) => if (dom m j).entering = some .winter then setDom j { dom m j with entering := none } m else m
  match twinOf i with
  | some j => stop i (stop j m)
  | none => stop i m

/-- A step needs the domain: it ungates Autumn, cancels an entry to Winter, or finds it not ready and then queues a
demand thaw (13 R347, R349, R353). A data bank on its way to Frost serves its lines until they are invalidated, and the
thaw is queued (R351). The wait is counted where the step comes to wait. With the supply off nothing is ready (01 R34). -/
def needDom (i : Nat) (m : Mach) : Mach × Bool :=
  let d := dom m i
  if m.life.domainsOff || !m.life.vddSw then (m, false)
  else if domReady m i then
    let m := if d.entering = some .winter then stayUp i m else m
    (setDom i { d with season := .summer, entering := none, idle := 0, used := true } m, true)
  else if d.season = .spring then (m, false)
  else (queueThaw i m, decide (i < 68) && decide (d.season ≠ .winter) && decide (d.season ≠ .frost))

/-- A step needs every domain of a list; each that is not ready is queued. -/
def needDoms : List Nat → Mach → Mach × Bool
  | [], m => (m, true)
  | i :: t, m =>
    let (m, a) := needDom i m
    let (m, b) := needDoms t m
    (m, a && b)

/-- A wait of a command step for a thaw, counted the first time the step finds the domain asleep (13 R353): `who` is the command's number, or
names the engine (log 105). -/
def noteWait (who i : Nat) (m : Mach) : Mach :=
  if (who, i) ∈ m.season.asleep then m
  else count 0x01E { m with season := { m.season with asleep := m.season.asleep ++ [(who, i)] } }

/-- A step that is no request's needs a domain. -/
def waitDom (who i : Nat) (m : Mach) : Mach × Bool :=
  let (m, ok) := needDom i m
  (if ok then m else noteWait who i m, ok)

/-- The first domain of a list that is not ready. -/
def firstAsleep (m : Mach) (ds : List Nat) : Option Nat := ds.find? fun i => !domReady m i

/-- The same for a list of domains: the step waits once, for the first that is not ready. -/
def waitDoms (who : Nat) (ds : List Nat) (m : Mach) : Mach × Bool :=
  let asleep := firstAsleep m ds
  let (m, ok) := needDoms ds m
  (if ok then m else match asleep with | some i => noteWait who i m | none => m, ok)

/-- Those that waited for a domain that is ready again wait no longer. -/
def tidyWaits (m : Mach) : Mach := { m with season := { m.season with asleep := m.season.asleep.filter fun x => !domReady m x.2 } }

/-- The engines that wait and are no commands: rotation sweeps by slot, the port's cipher, drains by tile, folds by number, the purge of a
context. -/
def whoRot (slot : Nat) : Nat := 2 ^ 40 + slot
def whoPort : Nat := 2 ^ 41
def whoTile (t : Nat) : Nat := 2 ^ 42 + t
def whoFold (n : Nat) : Nat := 2 ^ 43 + n
def whoPurge (c : Nat) : Nat := 2 ^ 44 + c
/-- A hop whose timer has run out. -/
def whoHop (j : Nat) : Nat := 2 ^ 46 + j
/-- Requests at the sync unit and at the tiles by their queue. -/
def whoSync : Nat := 2 ^ 45

/-- Weight of a season's thaw (13 Table SEASON-1). -/
def seasonWeight : Season → Nat
  | .winter => 1 | .frost => 2 | _ => 0

/-- Weight of the thaws in Spring. -/
def springWeight (m : Mach) : Nat :=
  (m.season.doms.toList.map fun d => if d.season = .spring then seasonWeight d.left else 0).sum

/-- Weight of the queued thaws. -/
def queuedWeight (m : Mach) : Nat := (m.season.queue.map fun t => seasonWeight (dom m t.dom).season).sum

/-- Codes of the seasons. -/
def seasonCode : Season → Nat
  | .summer => 0 | .autumn => 1 | .winter => 2 | .frost => 3 | .spring => 4

/-- Depth order of the seasons a domain rests in. -/
def seasonDepth : Season → Nat
  | .autumn => 1 | .winter => 2 | .frost => 3 | _ => 0

/-- Least TOL that allows a season (13 Table SEASON-1). -/
def seasonTol : Season → Nat
  | .autumn => 5 | .winter => 250 | .frost => 3000 | _ => 0

/-- A data bank's ways may take no new line: Frost, entering or leaving it (13 R350), or replaced under 15 R415. -/
def bankFrozen (m : Mach) (d : Nat) : Bool :=
  let s := dom m d
  s.season = .frost || s.entering = some .frost || (s.season = .spring && s.left = .frost)

/-- Queued weight beyond what the budget leaves free, saturating at 7: what PM_THAW_REQ shows (13 R355; 02 Table PORT-15). -/
def pmThawReq (m : Mach) : Nat := sat 7 (queuedWeight m - (4 + m.season.tokens.toNat - springWeight m))

end Sys2Proof.Machine
end

