-- ==== Sys2Proof/Machine/Port.lean ====
section
/-! DEFINITION. The memory port and its cipher: key ranges, line metadata and checks, tickets, queued writes, and the order
in which transfers are issued against credits. -/

namespace Sys2Proof.Machine

/-- A key range register. -/
def krt (m : Mach) (n : Nat) : KRange := tget .reset m.keys.krt n

/-- The lowest-numbered enabled range from n on, of k, that covers a granule (14 R367). -/
def rangeFrom (m : Mach) (g : Nat) : Nat → Nat → Option KRange
  | _, 0 => none
  | n, k + 1 =>
    let r := krt m n
    if r.en && decide (r.base.toNat ≤ g) && decide (g ≤ r.limit.toNat) then some r else rangeFrom m g (n + 1) k

/-- The range that covers a line; none for a plain line (14 R367). -/
def rangeOf (m : Mach) (l : LineNo) : Option KRange := rangeFrom m (granOf l) 0 64

/-- Sparse pages are enabled: level 3 with FMAP_CTL.EN = 1 (09 R268). -/
def fmapOn (fx : Fixed) : Bool := fx.level = some 3 && fx.fmapEn

/-- The line of the format map that holds a granule's bit (09 R267). -/
def mapLine (fx : Fixed) (g : Nat) : LineNo := BitVec.ofNat 28 (fx.fmapBase.toNat * 8192 + g / 1024)

/-- A line lies in the format map's range. -/
def inMap (fx : Fixed) (l : LineNo) : Bool :=
  fmapOn fx && decide (fx.fmapBase.toNat * 8192 ≤ l.toNat) && decide (l.toNat < fx.fmapBase.toNat * 8192 + 8192)

/-- The range under which the slice itself reads and writes a line: the format map's lines are plain (09 R267). -/
def rangeAt (fx : Fixed) (m : Mach) (l : LineNo) : Option KRange := if inMap fx l then none else rangeOf m l

/-- A key slot. -/
def kslot (m : Mach) (k : BitVec 9) : KeySlot := tget .free m.keys.slots k.toNat

/-- A key slot replaced. -/
def setSlot (k : BitVec 9) (s : KeySlot) (m : Mach) : Mach :=
  { m with keys := { m.keys with slots := tset .free m.keys.slots k.toNat s } }

/-- A generation of a slot holds key material. -/
def genHolds (s : KeySlot) (g : Bool) : Bool := if g then s.v1 else s.v0
/-- The material of a generation. -/
def genKey (s : KeySlot) (g : Bool) : KeyMat := if g then s.g1 else s.g0
/-- A slot holds key material. -/
def slotHolds (s : KeySlot) : Bool := s.v0 || s.v1

/-- A generation was erased and has held no material since: not one that was retired or never loaded (14 R361, R374, R383). -/
def genErased (m : Mach) (k : BitVec 9) (g : Bool) : Bool := decide (tget 0 m.keys.erased (k.toNat * 2 + b2n g) ≠ 0)

/-- A generation's mark of erasure. -/
def markErased (k : BitVec 9) (g v : Bool) (m : Mach) : Mach :=
  { m with keys := { m.keys with erased := tset 0 m.keys.erased (k.toNat * 2 + b2n g) (b2n v) } }

/-- The line-cipher domain is switched off: the key table loses its contents (02 R56), and no request is outstanding. -/
def loseKeys (m : Mach) : Mach :=
  let held := fun (t : Tbl Nat) (x : Nat × KeySlot) =>
    let t := if x.2.v0 then tset 0 t (x.1 * 2) 1 else t
    if x.2.v1 then tset 0 t (x.1 * 2 + 1) 1 else t
  { m with keys := { m.keys with slots := [], grants := [], rots := [], reqs := [], erased := m.keys.slots.foldl held m.keys.erased } }

/-- No key slot holds key material: the pin KB_EMPTY (02 Table PORT-13). -/
def kbEmpty (m : Mach) : Bool := m.keys.slots.all fun (_, s) => !slotHolds s

/-- Data unit number of a line (14 Table CONF-1): PROC is zero for a bound slot. -/
def unitNo (fx : Fixed) (m : Mach) (s : KeySlot) (l : LineNo) : Nat :=
  (if s.kind = 2 then 0 else fx.procId.toNat * 2 ^ 35) + m.regs.logical.toNat * 2 ^ 28 + l.toNat

/-- Metadata bytes 8 to 15 as a word (02 Table PORT-12). -/
def metaWord (zero : BitVec 4) (fmt : BitVec 2) (kgen : Bool) (slot : BitVec 9) (poison : Bool) : W64 :=
  BitVec.ofNat 64 (b2n poison * 2 ^ 16 + zero.toNat * 2 ^ 12 + fmt.toNat * 2 ^ 10 + b2n kgen * 2 ^ 9 + slot.toNat)

/-- The sectors of a line that are not in a mask set to zero bytes. -/
def dropSect (d : Line) (z : BitVec 4) : Line := d &&& ~~~sectLine z

/-- Stored form of a plain line: data and metadata (02 R54, 09 R263). -/
def storePlain (l : LineNo) (d : Line) (zero : BitVec 4) (fmt : BitVec 2) (poison : Bool) : Line × Meta :=
  let d := dropSect d zero
  (d, BitVec.ofNat 128 ((metaWord zero fmt false 0 poison).toNat * 2 ^ 64 + lineCrc l d))

/-- Stored form of an encrypted line under a generation (14 R358 to R360). -/
def storeEnc (fx : Fixed) (m : Mach) (k : BitVec 9) (g : Bool) (l : LineNo) (d : Line) (zero : BitVec 4) (fmt : BitVec 2)
    (poison : Bool) : Line × Meta :=
  let s := kslot m k
  let key := genKey s g
  let u := unitNo fx m s l
  let c := dropSect (xtsLine false key.dataKey key.tweakKey u (dropSect d zero)) zero
  let w := metaWord zero fmt g k poison
  (c, BitVec.ofNat 128 (w.toNat * 2 ^ 64 + (lineTag key.tagKey u w c).toNat))

/-- What a line read from memory turns out to be. -/
inductive Arrived where
  | good (data : Line) (zero : BitVec 4) (fmt : BitVec 2) (kgen : Bool) (poison : Bool)
  | mismatch (data : Line)
  | erased
  deriving DecidableEq, Repr

/-- The checks of a line read from memory (02 R52, R54, R55; 14 R361; 09 R266; 15 R396): `fmt` is the FORMAT its page
gives it, and `range` the range under which the read was accepted (14 R366). -/
def checkLine (fx : Fixed) (m : Mach) (range : Option KRange) (l : LineNo) (d : Line) (md : Meta) (ue : Bool) (fmt : BitVec 2) : Arrived :=
  let w : W64 := md.extractLsb' 64 64
  let chk : W64 := md.extractLsb' 0 64
  let zero : BitVec 4 := w.extractLsb' 12 4
  let f : BitVec 2 := w.extractLsb' 10 2
  let g := bit w 9
  let k : BitVec 9 := w.extractLsb' 0 9
  let p := bit w 16
  let shapeOk := !ue && decide (f = fmt) && decide (fld w 63 17 = 0)
  match range with
  | none =>
    if shapeOk && !g && decide (k = 0) && decide (chk.toNat = lineCrc l d) then .good (dropSect d zero) zero f false p
    else .mismatch d
  | some r =>
    let s := kslot m r.keyslot
    let key := genKey s g
    let u := unitNo fx m s l
    let plain := dropSect (xtsLine true key.dataKey key.tweakKey u d) zero
    let holds := decide (k = r.keyslot) && genHolds s g
    if k = r.keyslot ∧ !genHolds s g ∧ genErased m k g then .erased
    else if holds && shapeOk && decide (chk = lineTag key.tagKey u w d) then .good plain zero f g p
    else .mismatch (if holds then plain else d)

/-- Boost of a class (12 R331). -/
def boostOf (c : Cls) : Nat :=
  if c.target = 0 then 0
  else ((List.range 7).filter fun k => decide (c.avg.toNat * 16 ≥ 2 * c.target.toNat * (9 + k))).length

/-- Effective level of a class (12 R331). -/
def levelOf (m : Mach) (tc : BitVec 4) : Nat :=
  let c := tget .reset m.qos.cls tc.toNat
  max c.base.toNat (boostOf c)

/-- Slipway entries in use: pending, issued, and write-through misses being assembled (04 R128). -/
def slipUsed (m : Mach) : Nat :=
  (m.cache.writes.filter (·.slip)).length + (m.cache.tickets.filter fun t => t.kind = .merge).length

/-- A transfer that waits for the port: a ticket by number, or a write by its index. -/
inductive Xfer where
  | rd (t : Ticket)
  | wr (w : PWrite)
  deriving DecidableEq, Repr

/-- A key register that failed its parity is being loaded again: transfers under the slot wait (15 R401). -/
def keyReloads (m : Mach) (k : BitVec 9) : Bool := m.keys.reqs.any fun q => q.cmd.isNone && q.slot = k

/-- The cipher is needed and not ready, or its key is being loaded again, so the transfer waits. -/
def cipherWaits (m : Mach) (k : Option (BitVec 9)) : Bool :=
  match k with
  | none => false
  | some k => !domReady m dCipher || keyReloads m k

/-- A write that keeps the slipway's order of issue: an entry's, or that of a WR_THRU hit (04 R130, R484). -/
def inSlipway (w : PWrite) : Bool := w.slip || (match w.after with | .thruHit _ _ _ => true | _ => false)

/-- The transfers that may be issued now: never a read and a write, nor two writes, of one line together (02 R51); of the
slipway's writes the first (04 R130). -/
def xferReady (m : Mach) : List Xfer :=
  let ws := m.cache.writes
  let ts := m.cache.tickets
  let free := ws.filter fun w =>
    !(w.issued || ws.any (fun v => v.issued && v.line = w.line) || ts.any (fun t => t.issued && t.line = w.line) ||
      ws.any (fun v => !v.issued && v.line = w.line && decide (v.seq < w.seq)) || cipherWaits m (if w.keyv then some w.keyslot else none))
  (ts.filterMap fun t =>
    if t.issued || ws.any (fun w => w.line = t.line && (w.issued || decide (w.seq < t.seq))) || cipherWaits m (t.range.map (·.keyslot)) then none
    else some (.rd t)) ++
  (free.filter fun w => !inSlipway w || !free.any (fun v => inSlipway v && decide (v.seq < w.seq))).map .wr

/-- A class holds a token: only one with a grant has a bucket (12 R338). -/
def holdsToken (m : Mach) (tc : BitVec 4) : Bool :=
  let c := tget .reset m.qos.cls tc.toNat
  decide (c.grant ≠ 0) && decide (0 < c.tokens)

/-- Keys of the ranking, smaller first: tier, urgency, deadline, level, age (12 R334, R335). -/
def xferKey (m : Mach) (x : Xfer) : List Nat :=
  let key := fun (tier : Nat) (due : Option Nat) (level seq : Nat) => [tier, b2n due.isNone, due.getD 0, 7 - level, seq]
  match x with
  | .rd t =>
    if t.prefetch then key 2 t.due 0 t.seq else key (if holdsToken m t.cls then 1 else 2) t.due (levelOf m t.cls) t.seq
  | .wr w =>
    key (if inSlipway w && decide (m.regs.slipHigh.toNat < slipUsed m) then 0 else if holdsToken m w.cls then 1 else 2) w.due
      (levelOf m w.cls) w.seq

/-- Age of a transfer. -/
def xferSeq : Xfer → Nat
  | .rd t => t.seq
  | .wr w => w.seq

/-- Lexicographic order of the keys. -/
def keyLt : List Nat → List Nat → Bool
  | a :: s, b :: t => decide (a < b) || (decide (a = b) && keyLt s t)
  | _, _ => false

/-- The best of a list of transfers by their keys. -/
def xferBest (key : Xfer → List Nat) : List Xfer → Option Xfer
  | [] => none
  | x :: t =>
    match xferBest key t with
    | none => some x
    | some y => if keyLt (key y) (key x) then some y else some x

/-- The transfer that takes the next grant: the highest ranked, and every sixteenth time the oldest (12 R334). -/
def xferPick (m : Mach) : Option Xfer :=
  if m.qos.grants = 15 then xferBest (fun x => [xferSeq x]) (xferReady m) else xferBest (xferKey m) (xferReady m)

/-- A token of a class spent, if it holds any (12 R338). -/
def spendToken (tc : BitVec 4) (m : Mach) : Mach :=
  if !holdsToken m tc then m else
  let c := tget .reset m.qos.cls tc.toNat
  { m with qos := { m.qos with cls := tset .reset m.qos.cls tc.toNat { c with tokens := c.tokens - 1 } } }

/-- A line counted as read or written on the port for its class (12 R343, 18 Table PMC-2). -/
def countPort (wr : Bool) (tc : BitVec 4) (m : Mach) : Mach :=
  let c := tget .reset m.qos.cls tc.toNat
  let c := if wr then { c with wr := c.wr + 1 } else { c with rd := c.rd + 1 }
  count (if wr then 0x04D else 0x04C) { m with qos := { m.qos with cls := tset .reset m.qos.cls tc.toNat c } }

/-- A write no longer queued or outstanding. -/
def dropWrite (i : BitVec 10) (m : Mach) : Mach :=
  { m with cache := { m.cache with writes := m.cache.writes.filter (·.index ≠ i) } }

/-- A finished engine access or write reported to its engine; a read for nobody in particular is told to nobody. -/
def report (d : Done) (m : Mach) : Mach :=
  match d with
  | .read .fmap _ _ _ => m
  | .read .scrub _ _ _ => m
  | .read (.prefetch _ _) _ _ _ => m
  | d => { m with cache := { m.cache with done := m.cache.done ++ [d] } }

/-- One transfer issued against a credit. A write under a generation without key material is discarded and counted
(14 R383): nothing reaches the port, and what it was for ends as with its acknowledgement. -/
def issueXfer (fx : Fixed) (x : Xfer) (m : Mach) : Mach :=
  let g := if m.qos.grants = 15 then 0 else m.qos.grants + 1
  let m := { m with qos := { m.qos with grants := g } }
  match x with
  | .rd t =>
    let m := if t.prefetch then m else spendToken t.cls m
    let m := countPort false t.cls m
    emit (.portRead t.line t.num t.crit)
      { m with cache := { m.cache with
          credits := m.cache.credits - 1
          tickets := m.cache.tickets.map (fun u => if u.num = t.num then { u with issued := true } else u) } }
  | .wr w =>
    let s := kslot m w.keyslot
    if w.raw.isNone && w.keyv && !genHolds s s.cur then
      report (.ack w.after w.line) (w.also.foldl (fun m id => report (.ack (.cmd id) w.line) m) (count 0x021 (dropWrite w.index m)))
    else
      let p := match w.raw with
        | some x => x
        | none => if w.keyv then storeEnc fx m w.keyslot s.cur w.line w.data w.zero w.fmt w.poison
          else storePlain w.line w.data w.zero w.fmt w.poison
      let m := countPort true w.cls (spendToken w.cls m)
      emit (.portWrite w.line w.index p.1 p.2)
        { m with cache := { m.cache with
            credits := m.cache.credits - 1
            writes := m.cache.writes.map (fun v => if v.index = w.index then { v with issued := true } else v) } }

/-- Transfers issued in rank order while credits last; `n` bounds their number. A hardware fence writes nothing more (16 R431). -/
def pumpPort (fx : Fixed) : Nat → Mach → Mach
  | 0, m => m
  | n + 1, m =>
    if m.cache.credits = 0 || m.life.iso || m.life.hwFence.isSome || m.life.domainsOff then m
    else match xferPick m with
      | none => m
      | some x => pumpPort fx n (issueXfer fx x m)

/-- The port issues what it can. -/
def pump (fx : Fixed) (m : Mach) : Mach :=
  let keyed := m.cache.writes.any (fun w => w.keyv && !w.issued) || m.cache.tickets.any (fun t => !t.issued && t.range.isSome)
  pumpPort fx (m.cache.tickets.length + m.cache.writes.length) (if keyed then (waitDom whoPort dCipher m).1 else m)

/-- The lowest number below `n` that a list does not hold. -/
def lowestFree (used : List Nat) : Nat → Nat → Option Nat
  | _, 0 => none
  | i, n + 1 => if i ∈ used then lowestFree used (i + 1) n else some i

/-- What a request accepted now keeps (04 R143, 12 R332). -/
def taken (m : Mach) : Taken :=
  ⟨m.regs.retain, m.regs.pfReserve, m.regs.pfDegree, m.regs.pfHintEn, m.regs.pfEn, m.cyc, m.cache.nextSeq⟩

/-- A new ticket, if one is free: it carries the lowest free number (log 11); its read is issued when a credit allows. -/
def newTicket (fx : Fixed) (line : LineNo) (kind : TKind) (cls : BitVec 4) (crit : BitVec 2) (prefetch : Bool) (due : Option Nat)
    (range : Option KRange) (waiters : List Access) (m : Mach) : Option Mach :=
  let ctl := ((waiters.head?.bind (·.ctl))).getD (taken m)
  match lowestFree (m.cache.tickets.map (·.num.toNat)) 0 1024 with
  | none => none
  | some n =>
    let t : Ticket := { num := BitVec.ofNat 10 n, line, kind, cls, crit, prefetch, due, range, issued := false, attempts := 1,
                        seq := m.cache.nextSeq, born := m.cache.nextSeq, ctl, waiters }
    some (pump fx { m with cache := { m.cache with tickets := m.cache.tickets ++ [t], nextSeq := m.cache.nextSeq + 1 } })

/-- A MERGE entry's write (04 R128). -/
def isMerge (a : WAfter) : Bool := match a with | .merge _ => true | _ => false

/-- A write index is free, those of the MERGE entries being assembled set aside. -/
def writeRoom (m : Mach) : Bool :=
  decide (m.cache.writes.length + (m.cache.tickets.filter fun t => t.kind = .merge).length < 1024)

/-- A write queued for the port, under the lowest free index (log 11), behind those queued before; the write of a MERGE entry takes the
place in which the entry was allocated (04 R130). -/
def queueWrite (fx : Fixed) (w : PWrite) (m : Mach) : Option Mach :=
  if !writeRoom m && !isMerge w.after then none else
  match lowestFree (m.cache.writes.map (·.index.toNat)) 0 1024 with
  | none => none
  | some n =>
    some (pump fx { m with cache := { m.cache with
      writes := m.cache.writes ++ [{ w with index := BitVec.ofNat 10 n, issued := false,
                                            seq := if isMerge w.after then w.seq else m.cache.nextSeq }],
      nextSeq := m.cache.nextSeq + 1 } })

/-- A write that waits for an index when none is free. -/
def oweWrite (fx : Fixed) (w : PWrite) (m : Mach) : Mach :=
  (queueWrite fx w m).getD { m with cache := { m.cache with owed := m.cache.owed ++ [w] } }

/-- The oldest write that waits for an index takes one that is free. -/
def payOwed (fx : Fixed) (m : Mach) : Mach :=
  match m.cache.owed with
  | [] => m
  | w :: t => (queueWrite fx w { m with cache := { m.cache with owed := t } }).getD m

/-- Waiter records in use (04 R117). -/
def waitersUsed (m : Mach) : Nat :=
  (m.cache.tickets.map (·.waiters.length)).sum + (m.sparse.fills.map (·.waiters.length)).sum + (m.cache.replay.filter (·.waiter)).length

/-- The earlier of two deadlines (12 R332). -/
def sooner (a b : Option Nat) : Option Nat :=
  match a, b with
  | some x, some y => some (min x y)
  | some x, none => some x
  | none, y => y

/-- The ticket that covers a line. -/
def ticketFor (m : Mach) (l : LineNo) : Option Ticket := m.cache.tickets.find? (·.line = l)

/-- A ticket replaced. -/
def setTicket (t : Ticket) (m : Mach) : Mach :=
  { m with cache := { m.cache with tickets := m.cache.tickets.map fun u => if u.num = t.num then t else u } }

/-- A ticket given up. -/
def dropTicket (n : BitVec 10) (m : Mach) : Mach :=
  { m with cache := { m.cache with tickets := m.cache.tickets.filter (·.num ≠ n) } }

end Sys2Proof.Machine
end

