-- ==== Sys2Proof/Machine/Cache.lean ====
section
/-! DEFINITION. The cache's own parts: tag entries and sets, victim choice, the slipway, protection of the arrays, and the
counting of arrivals. -/

namespace Sys2Proof.Machine

/-- Number of a way in the tables. -/
def wayKey (set way : Nat) : Nat := set * 32 + way

/-- A tag entry. -/
def tagAt (m : Mach) (set way : Nat) : Tag := tget .free m.cache.tags (wayKey set way)
/-- A tag entry replaced. -/
def setTag (set way : Nat) (t : Tag) (m : Mach) : Mach :=
  { m with cache := { m.cache with tags := tset .free m.cache.tags (wayKey set way) t } }
/-- The bits the data array holds for a way. -/
def rawData (m : Mach) (set way : Nat) : Line := tget 0 m.cache.data (wayKey set way)
/-- The data array written. -/
def setData (set way : Nat) (d : Line) (m : Mach) : Mach :=
  { m with cache := { m.cache with data := tset 0 m.cache.data (wayKey set way) d } }
/-- The line's bytes: a zero sector reads as zero whatever the array holds (04 R104, 09 R262). -/
def wayData (m : Mach) (set way : Nat) : Line := dropSect (rawData m set way) (tagAt m set way).z
/-- Per-set state. -/
def setStOf (m : Mach) (set : Nat) : SetSt := tget ⟨0, 0, 0⟩ m.cache.sets set
/-- Per-set state replaced. -/
def putSetSt (set : Nat) (x : SetSt) (m : Mach) : Mach :=
  { m with cache := { m.cache with sets := tset ⟨0, 0, 0⟩ m.cache.sets set x } }

/-- The way of a set that holds a memory line; pinned ways hold berth lines (04 R105). -/
def hitWay (m : Mach) (l : LineNo) : Option Nat :=
  (List.range 32).find? fun w =>
    let t := tagAt m (setOf l) w
    decide (t.v ≠ 0) && decide (t.tag = tagOf l) && !((setStOf m (setOf l)).pin.getLsbD w)

/-- Some allowed way lies in a span of ways. -/
def anyAllowed (allowed : Nat → Bool) (lo size : Nat) : Bool := (List.range size).any fun i => allowed (lo + i)

/-- plru_pick over the levels left, at node n whose leaves are the ways from lo (04 R125). -/
def plruPick (tree : BitVec 31) (allowed : Nat → Bool) : Nat → Nat → Nat → Nat
  | 0, _, lo => lo
  | k + 1, n, lo =>
    let half := 2 ^ k
    let left := !tree.getLsbD n
    let left := if left && !anyAllowed allowed lo half then false else left
    let left := if !left && !anyAllowed allowed (lo + half) half then true else left
    if left then plruPick tree allowed k (2 * n + 1) lo else plruPick tree allowed k (2 * n + 2) (lo + half)

/-- The tree with every bit on a way's path pointing away from it (04 R125). -/
def plruTouch (way : Nat) : Nat → Nat → BitVec 31 → BitVec 31
  | 0, _, t => t
  | k + 1, n, t =>
    let right := way / 2 ^ k % 2 = 1
    let bit : BitVec 31 := 1 <<< n
    plruTouch way k (if right then 2 * n + 2 else 2 * n + 1) (if right then t &&& ~~~bit else t ||| bit)

/-- A demand access touches a way: the tree turns away from it and PF is cleared; the first such access counts (04 R125). -/
def touch (set way : Nat) (m : Mach) : Mach :=
  let s := setStOf m set
  let t := tagAt m set way
  let m := putSetSt set { s with plru := plruTouch way 5 0 s.plru } m
  if t.pf then count 0x04F (setTag set way { t with pf := false } m) else m

/-- Retention of a class under CACHE_RETAIN: 3 acts as 2 (04 R124, Table CACHE-13). -/
def retainOf (ret : W32) (c : BitVec 4) : Nat :=
  let v := ret.toNat / 2 ^ (2 * c.toNat) % 4
  if v = 3 then 2 else v

/-- Retention rank of a valid way (04 R124). -/
def rankOfTag (ret : W32) (t : Tag) : Nat := if t.pf || t.ret = 1 then 0 else 1 + retainOf ret t.cls

/-- Ways of a set that fills hold (04 R127). -/
def fillingWays (m : Mach) (set : Nat) : List Nat :=
  (m.cache.tickets.filterMap fun t =>
    match t.kind with
    | .fill w => if setOf t.line = set then some w.toNat else none
    | _ => none) ++
  (m.sparse.fills.filterMap fun f => if setOf f.line = set then f.way.map (·.toNat) else none)

/-- A line whose step the maintenance engine has begun and not ended: the line of a range step that waits, or a line of the
page that is being packed or unpacked (04 R125, 09 R276). -/
def heldLine (m : Mach) (l : LineNo) : Bool :=
  m.sparse.locked = some (BitVec.ofNat 23 (granOf l)) ||
  m.cmds.running.any fun r => match r.prog with | .maintRun p => p.at_ = some l | _ => false

/-- A way holds such a line. -/
def heldWay (m : Mach) (set way : Nat) : Bool := decide ((tagAt m set way).v ≠ 0) && heldLine m (lineOf set (tagAt m set way).tag)

/-- A way may be chosen as a victim (04 R125, 13 R350). -/
def eligible (m : Mach) (set way : Nat) : Bool :=
  let s := setStOf m set
  !s.pin.getLsbD way && !s.retired.getLsbD way && !decide (way ∈ fillingWays m set) && !bankFrozen m (dWay m set way) &&
  !heldWay m set way

/-- The victim of a set under CACHE_RETAIN: the lowest free eligible way, or the tree's pick of the lowest rank (04 R125). -/
def victimOf (ret : W32) (m : Mach) (set : Nat) : Option Nat :=
  let el := (List.range 32).filter (eligible m set)
  match el.find? (fun w => (tagAt m set w).v = 0) with
  | some w => some w
  | none =>
    match (el.map fun w => rankOfTag ret (tagAt m set w)).min? with
    | none => none
    | some r =>
      some (plruPick (setStOf m set).plru (fun w => eligible m set w && decide (rankOfTag ret (tagAt m set w) = r)) 5 0 0)

/-- Every eligible way is valid with rank 3, so a read of a class of low retention is served without allocation (04 R126). -/
def noAllocate (ret : W32) (m : Mach) (set : Nat) (cls : BitVec 4) : Bool :=
  retainOf ret cls = 0 &&
  ((List.range 32).filter (eligible m set)).all fun w => (tagAt m set w).v ≠ 0 && rankOfTag ret (tagAt m set w) = 3

/-- The slipway's entries of a line, oldest first: an issued one may be followed by a later write-back. -/
def slipsOf (m : Mach) (l : LineNo) : List PWrite := m.cache.writes.filter fun w => w.slip && !isMerge w.after && w.line = l

/-- The slipway entry of a line that a later access compares with: the newest (04 R129). -/
def slipOf (m : Mach) (l : LineNo) : Option PWrite := (slipsOf m l).getLast?

/-- A way's line as a write to memory: sectors held are written as held, the others as zero bytes with ZERO clear
(09 R263, 15 R394). -/
def writeOfWay (m : Mach) (set way : Nat) (slip : Bool) (after : WAfter) (also : List Nat) : PWrite :=
  let t := tagAt m set way
  { line := lineOf set t.tag, data := wayData m set way &&& sectLine t.v, zero := t.z, fmt := t.fmt, keyv := t.keyv,
    keyslot := t.keyslot, poison := t.poison, cls := t.cls, slip, issued := false, index := 0, seq := 0, rewritten := false,
    after, also }

/-- Bits of stored words that disagree with their code, dropped for a way. -/
def clearWords (set way : Nat) (s : BitVec 4) (m : Mach) : Mach :=
  if m.cache.errs.word = [] then m
  else
    let ks := ((List.range 16).filter fun i => s.getLsbD (i / 4)).map (wayKey set way * 16 + ·)
    { m with cache := { m.cache with errs := { m.cache.errs with word := tclear (0, 0) m.cache.errs.word ks } } }

/-- A way's line dropped. -/
def dropWay (set way : Nat) (m : Mach) : Mach := clearWords set way 0xF (setTag set way .free m)

/-- A way's data overwritten with zero, and the way invalidated (14 R384). -/
def wipeWay (set way : Nat) (m : Mach) : Mach := dropWay set way (setData set way 0 m)

/-! ### Protection of the arrays (04 R142, 15 R399, R408, R413) -/

/-- A corrected error of a row: its bank's count, BANK_WEAR once, and the row's count; true when the row is to be
repaired. Rows are kept for the 16 most recently erring of a quad. -/
def ceCount (fx : Fixed) (set way : Nat) (m : Mach) : Mach × Bool :=
  let q := set % 4
  let b := bankServing m q (bankOf set way)
  let row := rowOf set way
  let bk := q * 17 + b
  let n : Nat := sat 0xFFFF (tget 0 m.cache.bankErr bk + 1)
  let rows := tget [] m.cache.rowErr q
  let key := bk * 2048 + row
  let c := (rows.find? (·.1 = key)).elim 1 (·.2 + 1)
  let rows := ((key, c) :: rows.filter (·.1 ≠ key)).take 16
  let m : Mach := { m with cache := { m.cache with
    bankErr := tset 0 m.cache.bankErr bk n
    rowErr := tset [] m.cache.rowErr q rows } }
  let m : Mach := if n ≥ m.regs.bankThresh.toNat ∧ bk ∉ m.cache.wornBanks then
      logErr fx 0x32 0 (locB q b 0) { m with cache := { m.cache with wornBanks := m.cache.wornBanks ++ [bk] } }
    else m
  (m, decide (c ≥ m.regs.rowThresh.toNat))

/-- First soft-repair register that holds no entry. -/
def repairSlot (m : Mach) : Option Nat :=
  (List.range 64).find? fun i => !(tget 0 m.life.softRepair i).getLsbD 31

/-- An entry appended to the soft-repair log; when all 64 are valid it is not logged (15 R414). -/
def appendRepair (w : W32) (m : Mach) : Mach :=
  match repairSlot m with
  | some i => { m with life := { m.life with softRepair := tset 0 m.life.softRepair i w } }
  | none => m

/-- What a stored word turns out to be under its code (15 R399). -/
inductive Ecc (n : Nat) where
  /-- The code agrees: the word. -/
  | clean (w : BitVec n)
  /-- One bit is wrong: the word corrected. -/
  | single (w : BitVec n)
  /-- No single bit accounts for it. -/
  | double
  deriving DecidableEq, Repr

/-- A word stored with data bits dx and check bits cx flipped, decoded by a SEC-DED code whose check bits `chk` gives: one flip
is corrected and two are found; three or more are what the code makes of them (log 27). -/
def eccOf {n k : Nat} (chk : BitVec n → BitVec k) (w dx : BitVec n) (cx : BitVec k) : Ecc n :=
  let f := pop dx + pop cx
  if f = 0 then .clean w
  else if f = 1 then .single w
  else if f = 2 then .double
  else
    let d := w ^^^ dx
    let c := chk w ^^^ cx
    if chk d = c then .clean d
    else match (List.range n).find? (fun b => chk (d ^^^ ((1 : BitVec n) <<< b)) = c) with
      | some b => .single (d ^^^ ((1 : BitVec n) <<< b))
      | none => if pop (c ^^^ chk d) = 1 then .single d else .double

/-- The row that holds a way's line copied with corrected words and fresh check bits (15 R413). A word of which two bits are wrong is not
known; it is copied as it stands, to be found when it is looked at (log 126, DEDUCED). -/
def freshRow (set way : Nat) (m : Mach) : Mach :=
  (List.range 16).foldl (fun m i =>
    let key := wayKey set way * 16 + i
    let p := tget (0, 0) m.cache.errs.word key
    let d := rawData m set way
    let w : W64 := d.extractLsb' (64 * i) 64
    match eccOf Config.checkBits w p.1 p.2 with
    | .clean v | .single v =>
      let errs := { m.cache.errs with word := tset (0, 0) m.cache.errs.word key (0, 0) }
      setData set way (d ^^^ BitVec.ofNat 1024 ((w ^^^ v).toNat * 2 ^ (64 * i))) { m with cache := { m.cache with errs := errs } }
    | .double => m) m

/-- A soft row repair: the bank's next free spare row takes the row, whose errors are counted anew (15 R413). -/
def repairRow (fx : Fixed) (set way : Nat) (m : Mach) : Mach :=
  if !m.regs.autoRow then m else
  let q := set % 4
  let b := bankServing m q (bankOf set way)
  let row := rowOf set way
  let used := (m.cache.rowMap.filter (·.1 = q * 17 + b)).map (·.2.2)
  match lowestFree used 0 8 with
  | none => logErr fx 0x31 0 (locB q b row) m
  | some s =>
    let m := freshRow set way m
    let rows := (tget [] m.cache.rowErr q).filter (·.1 ≠ (q * 17 + b) * 2048 + row)
    let m := { m with cache := { m.cache with
      rowMap := m.cache.rowMap ++ [(q * 17 + b, row, s)], rowErr := tset [] m.cache.rowErr q rows } }
    appendRepair (BitVec.ofNat 32 (2 ^ 31 + q * 2 ^ 27 + b * 2 ^ 22 + row * 2 ^ 11 + s * 2 ^ 8)) (logErr fx 0x30 0 (locB q b row) m)

/-- What a look at stored words gives. -/
inductive Scan where
  | clean
  /-- Non-Dirty sectors were lost and must be fetched again. -/
  | refetch
  /-- A Dirty sector was lost: the line is poisoned. -/
  | poisoned
  deriving DecidableEq, Repr

/-- One stored word looked at (04 Table CACHE-11). A pattern of three or more wrong bits that is no code word reads as a
free value (log 8). -/
def scanWord (fx : Fixed) (set way i : Nat) (m : Mach) : Mach × Scan :=
  let key := wayKey set way * 16 + i
  let p := tget (0, 0) m.cache.errs.word key
  if p = (0, 0) then (m, .clean) else
  let t := tagAt m set way
  let d := rawData m set way
  let word : W64 := d.extractLsb' (64 * i) 64
  let put := fun (w : W64) (m : Mach) =>
    setData set way ((d &&& ~~~(BitVec.ofNat 1024 ((2 ^ 64 - 1) * 2 ^ (64 * i)))) ||| BitVec.ofNat 1024 (w.toNat * 2 ^ (64 * i))) m
  let clear := fun (m : Mach) =>
    { m with cache := { m.cache with errs := { m.cache.errs with word := tset (0, 0) m.cache.errs.word key (0, 0) } } }
  match eccOf Config.checkBits word p.1 p.2 with
  | .clean w => (put w (clear m), .clean)
  | .single w =>
    let m := logErr fx 0x01 0 (locA set way i) (put w (clear m))
    let (m, rep) := ceCount fx set way m
    (if rep then repairRow fx set way m else m, .clean)
  | .double =>
    if t.d.getLsbD (i / 4) then
      let m := logErr fx 0x03 0 (locA set way i) (setTag set way { t with poison := true } (put (word ^^^ p.1) (clear m)))
      (repairRow fx set way m, .poisoned)
    else
      let keep := t.d
      let m := logErr fx 0x02 0 (locA set way i) (clearWords set way (~~~keep) (setTag set way { t with v := keep, z := t.z &&& keep } m))
      (repairRow fx set way m, .refetch)

/-- The words of some sectors of a way looked at, from word i on. -/
def scanWords (fx : Fixed) (set way : Nat) (s : BitVec 4) : List Nat → Mach → Mach × Scan
  | [], m => (m, .clean)
  | i :: t, m =>
    let live := (tagAt m set way).v &&& ~~~(tagAt m set way).z &&& s
    let (m, a) := if live.getLsbD (i / 4) then scanWord fx set way i m else (m, .clean)
    let (m, b) := scanWords fx set way s t m
    (m, if a = .poisoned ∨ b = .poisoned then .poisoned else if a = .refetch ∨ b = .refetch then .refetch else .clean)

/-- A look at the sectors of a way that an access reads. -/
def scanWay (fx : Fixed) (set way : Nat) (s : BitVec 4) (m : Mach) : Mach × Scan :=
  if m.cache.errs.word = [] then (m, .clean) else scanWords fx set way s (List.range 16) m

/-- A write-back of the line takes no bank read: all its sectors held are zero sectors (09 R263). -/
def bankless (t : Tag) : Bool := decide (t.v &&& ~~~t.z = 0)

/-- What freeing a way comes to. -/
inductive Freed where
  /-- The way is free. -/
  | now (m : Mach)
  /-- Its dirty line has Absent sectors that must be filled first (04 R123). -/
  | fill
  /-- The slipway is full (04 Table CACHE-7). -/
  | full
  deriving DecidableEq, Repr

/-- The 56 bits of a tag entry (04 Table CACHE-1), parity computed. -/
def tagBits (t : Tag) : BitVec 56 :=
  let low := b2n t.poison * 2 ^ 5 + b2n t.pf * 2 ^ 6 + t.ret.toNat * 2 ^ 7 + t.cls.toNat * 2 ^ 9 + t.fmt.toNat * 2 ^ 13 +
    b2n t.keyv * 2 ^ 15 + b2n t.kgen * 2 ^ 16 + t.keyslot.toNat * 2 ^ 17 + t.z.toNat * 2 ^ 26 + t.d.toNat * 2 ^ 30 + t.v.toNat * 2 ^ 34
  let pa := pop t.tag % 2
  let ps := pop (BitVec.ofNat 38 low) % 2
  BitVec.ofNat 56 (pa * 2 ^ 55 + ps * 2 ^ 54 + t.tag.toNat * 2 ^ 38 + low)

/-- A tag entry from its bits. -/
def tagOfBits (x : BitVec 56) : Tag :=
  { tag := x.extractLsb' 38 16, v := x.extractLsb' 34 4, d := x.extractLsb' 30 4, z := x.extractLsb' 26 4,
    keyslot := x.extractLsb' 17 9, kgen := x.getLsbD 16, keyv := x.getLsbD 15, fmt := x.extractLsb' 13 2,
    cls := x.extractLsb' 9 4, ret := x.extractLsb' 7 2, pf := x.getLsbD 6, poison := x.getLsbD 5 }

/-- A poisoned line written to memory at a candidate address (04 Table CACHE-11), under the key of that address's range. -/
def writePoisoned (fx : Fixed) (l : LineNo) (d : Line) (zero : BitVec 4) (cls : BitVec 4) (after : WAfter) (m : Mach) : Mach :=
  let r := rangeOf m l
  let w : PWrite :=
    { line := l, data := d, zero, fmt := 0, keyv := r.isSome, keyslot := (r.map (·.keyslot)).getD 0, poison := true,
      cls, slip := false, issued := false, index := 0, seq := 0, rewritten := false, after, also := [] }
  oweWrite fx w m

/-- The poisoned lines for the candidates of a tag whose address is not known. -/
def writeCandidates (fx : Fixed) (set way : Nat) (t : Tag) (d : Line) : List Nat → Mach → Mach
  | [], m => m
  | i :: is, m =>
    let tag : BitVec 16 := if i = 16 then t.tag else t.tag ^^^ (1 <<< i)
    let l := lineOf set tag
    let other := (hitWay m l).elim false (· ≠ way)
    writeCandidates fx set way t d is (if other then m else writePoisoned fx l (d &&& sectLine t.v) t.z t.cls .none m)

/-- One tag entry looked at (04 Table CACHE-11). -/
def scanTag (fx : Fixed) (set way : Nat) (m : Mach) : Mach :=
  let x := tget 0 m.cache.errs.tag (wayKey set way)
  if x = 0 then m else
  let t := tagAt m set way
  let raw := tagOfBits (tagBits t ^^^ x)
  let m := { m with cache := { m.cache with errs := { m.cache.errs with tag := tset 0 m.cache.errs.tag (wayKey set way) 0 } } }
  let pa := pop (x.extractLsb' 38 16) % 2 ≠ b2n (x.getLsbD 55)
  let ps := pop (x.extractLsb' 5 33) % 2 ≠ b2n (x.getLsbD 54)
  if !pa && !ps then setTag set way raw m
  else if t.d = 0 then logErr fx 0x04 0 (locA set way 0) (dropWay set way m)
  else if !pa then logErr fx 0x05 0 (locA set way 0) (setTag set way { raw with v := 0xF, d := 0xF, poison := true } m)
  else
    let d := wayData m set way
    logErr fx 0x05 0 (locA set way 0) (dropWay set way (writeCandidates fx set way raw d (List.range 17) m))

/-- A victim leaves the array: a clean line is dropped, a dirty one goes to the slipway (04 R128). -/
def freeWay (fx : Fixed) (set way : Nat) (also : List Nat) (m : Mach) : Freed :=
  let m := scanTag fx set way m
  if (tagAt m set way).d = 0 then .now (dropWay set way m) else
  let m := (scanWay fx set way 0xF m).1
  let t := tagAt m set way
  if t.v ≠ 0xF ∧ !t.poison then .fill
  else if slipUsed m ≥ 128 then .full
  else
    let w := writeOfWay m set way true .slip also
    match queueWrite fx w (dropWay set way m) with
    | some m => .now m
    | none => .full

/-- The tag entries of a set looked at. -/
def scanSet (fx : Fixed) (set : Nat) (m : Mach) : Mach :=
  if m.cache.errs.tag = [] then m else (List.range 32).foldl (fun m w => scanTag fx set w m) m

/-! ### Caches of the format map and of page headers (09 R269) -/

/-- An entry found in a cache of lists, most recently used first, moved to the front. -/
def lruFind {α : Type} (k : Nat) (l : List (Nat × α)) : Option (α × List (Nat × α)) :=
  match l.find? (·.1 = k) with
  | some e => some (e.2, e :: l.filter (·.1 ≠ k))
  | none => none

/-- An entry put at the front of a set of eight ways. -/
def lruPut {α : Type} (k : Nat) (a : α) (l : List (Nat × α)) : List (Nat × α) := ((k, a) :: l.filter (·.1 ≠ k)).take 8

/-- A map word put into the format cache (09 R269). -/
def fcachePut (w : Nat) (v : W64) (m : Mach) : Mach :=
  let t := tset [] m.sparse.fcache (w % 256) (lruPut w v (tget [] m.sparse.fcache (w % 256)))
  { m with sparse := { m.sparse with fcache := t } }

/-- A word of the format map that a read brings goes to the format cache; what a poisoned map line says is left open, and is a free value
(log 8). -/
def takeWord (w : Nat) (d : Line) (poison : Bool) (m : Mach) : Mach :=
  if poison then fcachePut w (Config.freeWord m.freeN) (bumpFree m) else fcachePut w (d.extractLsb' (64 * (w % 16)) 64) m

/-! ### Counted arrivals (06 R193 to R196) -/

/-- Word W1 of a sync record (06 Table SYNC-3). -/
def syncW1 (o : SyncObj) : W64 :=
  BitVec.ofNat 64 (b2n o.valid * 2 ^ 63 + b2n o.err * 2 ^ 62 + b2n o.shared * 2 ^ 61 + b2n o.orphan * 2 ^ 60 + o.kind.toNat * 2 ^ 58 +
    b2n o.unit * 2 ^ 57 + b2n o.sigv * 2 ^ 56 + o.sigq.toNat * 2 ^ 40 + o.errcode.toNat * 2 ^ 32 + o.owner.toNat * 2 ^ 20 +
    o.ogen.toNat * 2 ^ 12 + o.gen.toNat * 2 ^ 4)

/-- A record from its two words. -/
def syncOfBits (x : BitVec 128) : SyncObj :=
  let w : W64 := x.extractLsb' 64 64
  { value := x.extractLsb' 0 64, valid := bit w 63, err := bit w 62, shared := bit w 61, orphan := bit w 60, kind := w.extractLsb' 58 2,
    unit := bit w 57, sigv := bit w 56, sigq := w.extractLsb' 40 16, errcode := w.extractLsb' 32 8, owner := w.extractLsb' 20 12,
    ogen := w.extractLsb' 12 8, gen := w.extractLsb' 4 8 }

/-- A sync object. -/
def syncObj (m : Mach) (i : BitVec 14) : SyncObj := tget .free m.sync.objs i.toNat

/-- A sync object replaced. -/
def setSync (i : BitVec 14) (o : SyncObj) (m : Mach) : Mach :=
  { m with sync := { m.sync with objs := tset .free m.sync.objs i.toNat o } }

/-- A context is a sync object's owner at OGEN, or a member (06 R190). -/
def mayUse (m : Mach) (i : BitVec 14) (c : Ctx) (g : Gen) : Bool :=
  let o := syncObj m i
  (!o.orphan && o.owner = c && o.ogen = g) || decide ((c, g) ∈ tget [] m.sync.members i.toNat)

/-- The context that owns a sync object is frozen (16 R432). -/
def ownerFrozen (m : Mach) (i : BitVec 14) (c : Ctx) : Bool :=
  let o := syncObj m i
  o.valid && !o.orphan && decide (o.owner ≠ c) && (ctxOf m o.owner).frozen && (ctxOf m o.owner).gen = o.ogen

/-- What a request with MV = 1 meets before it is performed: DENIED (06 R194), or RETRY when the manifest's owner is frozen
(16 R432). -/
def manifestStop (m : Mach) (r : Req) : Option (BitVec 4) :=
  if !r.mv then none
  else
    let o := syncObj m r.manifest
    if !o.valid || o.kind ≠ 2 || !mayUse m r.manifest r.ctx r.gen then some stDenied
    else if ownerFrozen m r.manifest r.ctx then some stRetry
    else none

/-- What a counted request adds (06 R195). -/
def arrivalAmount (m : Mach) (r : Req) : Nat :=
  if !(syncObj m r.manifest).unit then 1
  else if r.maskmode = 1 then pop r.bmask
  else 8 * r.plen.toNat

/-- A count taken into the coalescer, one entry a manifest (06 R196). -/
def coalesce (c : Count) (s : SyncSt) : SyncSt :=
  if s.coal.any (·.obj = c.obj) then
    let add := fun (e : Count) =>
      if e.obj = c.obj then
        { e with sum := e.sum + c.sum, scope := if c.scope.toNat < e.scope.toNat then c.scope else e.scope,
                 srcs := e.srcs ++ c.srcs }
      else e
    { s with coal := s.coal.map add }
  else { s with coal := s.coal ++ [c] }

/-- A request answered OK is counted in the manifest it names (06 R195). -/
def arrival (r : Req) (m : Mach) : Mach :=
  if !r.mv then m
  else { m with sync := coalesce ⟨r.manifest, (syncObj m r.manifest).gen, arrivalAmount m r, r.scope, [(r.ctx, r.tc)], false⟩ m.sync }

/-- The coalescer takes the request's count: its manifest has an entry, or one of the sixteen is free (06 R196). -/
def coalRoom (m : Mach) (r : Req) : Bool := !r.mv || m.sync.coal.any (·.obj = r.manifest) || decide (m.sync.coal.length < 16)

/-- A request that has taken effect is counted and answered OK; one for whose count there is no room waits (06 R195, R196). -/
def tally (x : CoalWait) (m : Mach) : Mach :=
  if coalRoom m x.r then
    (let m := arrival x.r m
     if x.said then m else respond x.r x.op stOk 0 x.info x.payload m)
  else { m with sync := { m.sync with coalWait := m.sync.coalWait ++ [x] } }

/-- A request that has taken effect answered OK with PLEN 0, and counted. -/
def answerOk (r : Req) (op : BitVec 6) (m : Mach) : Mach := tally ⟨op, r, false, 0, []⟩ m

end Sys2Proof.Machine
end

