-- ==== Sys2Proof/Machine/Waits.lean ====
section
/-! DEFINITION. Parked waits and how they are answered, an object put in error, and the check of a sync record's bytes
(06_atomics_and_sync.md R184, R191, R198, R207). -/

namespace Sys2Proof.Machine

/-- Parked waits of an object, in parking order. -/
def waitsOn (m : Mach) (i : BitVec 14) : List Wait := m.sync.waits.filter (·.obj = i)

/-- Two parked waits are the same: SOURCE and TAG name a request (02 R41). -/
def sameWait (a b : Wait) : Bool := a.obj = b.obj && a.source = b.source && a.tag = b.tag && a.parkCyc = b.parkCyc

/-- The edge record of a wait (16 Table RECOV-2). -/
def edgeRec (m : Mach) (w : Wait) (sigq : BitVec 16) (retract : Bool) : W64 × W64 :=
  (BitVec.ofNat 64 (w.source.toNat * 2 ^ 48 + sigq.toNat * 2 ^ 32 + w.obj.toNat * 2 ^ 18 + (syncObj m w.obj).gen.toNat * 2 ^ 10 + b2n retract),
   BitVec.ofNat 64 (w.ctx.toNat * 2 ^ 52 + w.gen.toNat * 2 ^ 44 + w.cond.toNat * 2 ^ 40 + w.parkCyc % 2 ^ 32))

/-- A wait leaves the waiter table; an exported edge is to be retracted (16 R420, R422). -/
def leaveTable (w : Wait) (m : Mach) : Mach :=
  let m := match w.exported with
    | some q => { m with sync := { m.sync with retract := m.sync.retract ++ [edgeRec m w q true] } }
    | none => m
  { m with sync := { m.sync with waits := m.sync.waits.filter (!sameWait w ·) } }

/-- The request a parked wait came with, as far as its answer needs it. -/
def waitReq (w : Wait) : Req :=
  { stop := w.stop, vc := .vc0, env := 0, subop := w.cond, ctx := w.ctx, gen := w.gen, tc := w.tc, deadline := 0, scope := w.scope,
    mv := false, manifest := 0, source := w.source, tag := w.tag, sect := 0, maskmode := 0, rsvd := 0, plen := 1, aux := 0,
    address := 0, bmask := 0, payload := [] }

/-- A parked wait is answered and leaves the table (06 R198; 12 R330: it measures nothing). -/
def wake (w : Wait) (status : BitVec 4) (info : BitVec 16) (payload : List W64) (m : Mach) : Mach :=
  let r := waitReq w
  count 0x04B (countR status.toNat r (sendResp r opWAIT status 0 false info payload (leaveTable w m)))

/-- Every wait of a list woken with an error code. -/
def wakeAll (code : BitVec 8) (ws : List Wait) (m : Mach) : Mach :=
  ws.foldl (fun m w => wake w stSigErr (code.zeroExtend 16) [] m) m

/-- An object put in error: the first code is kept; every parked wait is woken in parking order (06 R191, R207). -/
def putError (i : BitVec 14) (code : BitVec 8) (m : Mach) : Mach :=
  let o := syncObj m i
  if o.err then m else wakeAll code (waitsOn m i) (setSync i { o with err := true, errcode := code } m)

/-- One byte of a record looked at (06 R184): a single wrong bit is corrected, two put the object in error. The spec does not say what
the byte holds after two; it keeps what was last written to it (log 110, DESIGN CHOICE). -/
def scanSyncByte (fx : Fixed) (i : BitVec 14) (b : Nat) (m : Mach) : Mach :=
  let key := i.toNat * 16 + b
  let p := tget (0, 0) m.cache.errs.sync key
  if p = (0, 0) then m else
  let m := { m with cache := { m.cache with errs := { m.cache.errs with sync := tset (0, 0) m.cache.errs.sync key (0, 0) } } }
  let loc := b * 2 ^ 16 + i.toNat
  let o := syncObj m i
  let bits : BitVec 128 := BitVec.ofNat 128 ((syncW1 o).toNat * 2 ^ 64 + o.value.toNat)
  let old : Byte := bits.extractLsb' (8 * b) 8
  let put := fun (x : Byte) (m : Mach) => setSync i (syncOfBits (bits ^^^ BitVec.ofNat 128 ((x ^^^ old).toNat * 2 ^ (8 * b)))) m
  match eccOf Config.checkBitsByte old p.1 p.2 with
  | .clean x => put x m
  | .single x => logErr fx 0x1A 0 loc (put x m)
  | .double => putError i 0x82 (logErr fx 0x1B 0 loc m)

/-- A record's sixteen bytes looked at. -/
def scanSync (fx : Fixed) (i : BitVec 14) (m : Mach) : Mach :=
  if m.cache.errs.sync = [] then m else (List.range 16).foldl (fun m b => scanSyncByte fx i b m) m

/-- The record of the manifest that a request names looked at before it is judged (06 R184, R194). -/
def scanManifest (fx : Fixed) (r : Req) (m : Mach) : Mach := if r.mv then scanSync fx r.manifest m else m

end Sys2Proof.Machine
end

