-- ==== Sys2Proof/Machine/Directory.lean ====
section
/-! DEFINITION. The directory of host copies: entries, snoops, and what an access to a half held by a host must send first
(11_host_coherence.md). -/

namespace Sys2Proof.Machine

/-- Directory set and tag of a line (11 R311). -/
def dirSet (l : LineNo) : Nat := l.toNat % 32768
def dirTag (l : LineNo) : BitVec 13 := BitVec.ofNat 13 (l.toNat / 32768)

/-- A directory entry by number, set × 16 + way. -/
def dirEnt (m : Mach) (k : Nat) : DirEnt := tget .free m.dir.ents k
/-- A directory entry replaced; one that is free is cleared. -/
def setDir (k : Nat) (e : DirEnt) (m : Mach) : Mach :=
  let e := if e.st0 = .i ∧ e.st1 = .i ∧ e.tr = .stable then .free else e
  { m with dir := { m.dir with ents := tset .free m.dir.ents k e } }

/-- An entry is free (11 R312). -/
def dirFree (e : DirEnt) : Bool := e.st0 = .i && e.st1 = .i && e.tr = .stable

/-- The number of the entry that covers a line. -/
def dirFind (m : Mach) (l : LineNo) : Option Nat :=
  ((List.range 16).map (dirSet l * 16 + ·)).find? fun k =>
    let e := dirEnt m k
    !dirFree e && decide (e.tag = dirTag l)

/-- State and owner of a half. -/
def halfSt (e : DirEnt) (h : Bool) : HalfSt := if h then e.st1 else e.st0
def halfOwn (e : DirEnt) (h : Bool) : BitVec 4 := if h then e.own1 else e.own0
/-- A half's state and owner set. -/
def setHalf (h : Bool) (x : HalfSt) (o : BitVec 4) (e : DirEnt) : DirEnt :=
  if h then { e with st1 := x, own1 := o } else { e with st0 := x, own0 := o }

/-- SHR means nothing once neither half is in S (11 R313). -/
def tidyShr (e : DirEnt) : DirEnt := if e.st0 = .s ∨ e.st1 = .s then e else { e with shr := 0 }

/-- The agents of SHR. -/
def sharers (e : DirEnt) : List (BitVec 4) :=
  ((List.range 16).filter (e.shr.getLsbD ·)).map (BitVec.ofNat 4)

/-- Agent n is removed from a half (11 Table COH-5): it owns it no longer; of a shared half it leaves SHR, and the half is I
once nobody shares it. -/
def removeAgent (h : Bool) (n : BitVec 4) (e : DirEnt) : DirEnt :=
  match halfSt e h with
  | .i => e
  | .a => if halfOwn e h = n then tidyShr (setHalf h .i 0 e) else e
  | .s =>
    let other := halfSt e !h
    let shr := e.shr &&& ~~~((1 : BitVec 16) <<< n.toNat)
    if other = .s then (if shr = 0 then { setHalf h .i 0 e with shr := e.shr } else e)
    else if shr = 0 then tidyShr (setHalf h .i 0 { e with shr := shr }) else { e with shr := shr }

/-- Agents of SHR once an agent is known to hold neither half. -/
def dropSharer (n : BitVec 4) (e : DirEnt) : DirEnt := { e with shr := e.shr &&& ~~~((1 : BitVec 16) <<< n.toNat) }

/-- Outstanding snoops of a line. -/
def snoopsOf (m : Mach) (l : LineNo) : List Snoop := m.dir.snoops.filter fun s => s.line = l && s.rcl.isNone

/-- The stop of a line's snoops: ADDRESS bit 7 (11 Table COH-1). -/
def stopOf (l : LineNo) : Stop := if l.toNat % 2 = 0 then .north else .south

/-- Return-inbox slots of a stop that requests of the slice's own hold: segments and notices not yet answered, snoops apart
(02 R40). -/
def ownSlots (m : Mach) (st : Stop) : Nat :=
  (m.red.segs.filter fun s => s.stop = st && s.retryAt = 0).length +
    (m.cmds.running.map fun r => match r.prog with
      | .sweepRun _ sent _ _ _ => (sent.filter fun x => (x.1.toNat % 2 = 0) == (st == .north)).length
      | _ => 0).sum

/-- Return-inbox slots in use at a stop (02 R40). -/
def inboxUsed (m : Mach) (st : Stop) : Nat := (m.dir.snoops.filter (·.stop = st)).length + ownSlots m st

/-- A request of the slice's own, no snoop, can be sent at a stop now: it may hold 56 of the inbox's slots (02 R40). -/
def segRoom (m : Mach) (st : Stop) : Bool := decide (ownSlots m st < 56) && decide (inboxUsed m st < 64)

/-- The stop by which a hint or an export leaves: exports leave by the north stop (16 R423). -/
def outStop : Out → Stop
  | .request _ st _ _ => st
  | _ => .north

/-- A request that holds its slot only until it departs: sent, or put behind those of its stop that wait for one (02 R40). -/
def sendSlot (o : Out) (m : Mach) : Mach :=
  if segRoom m (outStop o) && !(m.unsent.any fun x => outStop x = outStop o) then emit o m else { m with unsent := m.unsent ++ [o] }

/-- Those that wait sent in order, each stop's as it has room. -/
def pumpUnsent : List Out → Mach → Mach
  | [], m => { m with unsent := [] }
  | o :: t, m =>
    if segRoom m (outStop o) then pumpUnsent t (emit o m)
    else
      let m := pumpUnsent t m
      { m with unsent := o :: m.unsent }

/-- A snoop can be sent now: a tracker entry and an inbox slot are free (11 R319). -/
def snoopRoom (m : Mach) (l : LineNo) : Bool := decide (m.dir.snoops.length < 128) && decide (inboxUsed m (stopOf l) < 64)

/-- A back-invalidate snoop sent, under the lowest free snoop tag (log 11): kind 0 BISnpCur, 1 BISnpData, 2 BISnpInv. -/
def sendSnoop (fx : Fixed) (l : LineNo) (h : Bool) (agent kind : BitVec 4) (rcl : Option Nat) (m : Mach) : Mach :=
  let tag := (lowestFree (m.dir.snoops.map (·.ctag.toNat)) 0 128).getD 0
  let s : Snoop := { ctag := BitVec.ofNat 16 tag, agent, line := l, half := h, kind, stop := stopOf l, tick := tickOf m.cyc,
                     taken := false, wb := false, rcl }
  count 0x050 (emit (.bisnp (stopOf l) kind agent (BitVec.ofNat 16 tag) (directOf fx m (l.toNat * 128 + 64 * b2n h)))
    { m with dir := { m.dir with snoops := m.dir.snoops ++ [s] } })

/-- The halves that a set of sectors touches. -/
def halvesOf (s : BitVec 4) : List Bool :=
  (if s.getLsbD 0 || s.getLsbD 1 then [false] else []) ++ (if s.getLsbD 2 || s.getLsbD 3 then [true] else [])

/-- Snoops of a device access to some halves (11 Table COH-6): a read-class access snoops only an owner. -/
def devSnoops (e : DirEnt) (wr : Bool) (hs : List Bool) : List (Bool × BitVec 4 × BitVec 4) :=
  hs.flatMap fun h =>
    match halfSt e h with
    | .i => []
    | .s => if wr then (sharers e).map fun a => (h, a, 2) else []
    | .a => [(h, halfOwn e h, if wr then 2 else 0)]

/-- Snoops of a host request from agent x for a half (11 Table COH-5): `kind` 2 to everyone else, 1 or 0 to an owner other
than x. -/
def hostSnoops (e : DirEnt) (h : Bool) (x : BitVec 4) (kind : BitVec 4) : List (Bool × BitVec 4 × BitVec 4) :=
  match halfSt e h with
  | .i => []
  | .s => if kind = 2 then ((sharers e).filter (· ≠ x)).map fun a => (h, a, 2) else []
  | .a => if halfOwn e h = x then [] else [(h, halfOwn e h, kind)]

/-- A snoop sent, or put behind those of its stop that wait for a free tracker entry and inbox slot (11 R319). -/
def askSnoop (fx : Fixed) (l : LineNo) (x : Bool × BitVec 4 × BitVec 4) (m : Mach) : Mach :=
  if !(m.dir.owing.any fun o => stopOf o.1 = stopOf l) && snoopRoom m l then sendSnoop fx l x.1 x.2.1 x.2.2 none m
  else { m with dir := { m.dir with owing := m.dir.owing ++ [(l, x.1, x.2.1, x.2.2)] } }

/-- The snoops of a line asked for. -/
def sendSnoops (fx : Fixed) (l : LineNo) (xs : List (Bool × BitVec 4 × BitVec 4)) (m : Mach) : Mach :=
  xs.foldl (fun m x => askSnoop fx l x m) m

/-- The snoops that wait sent in order, each stop's as it has room for them (11 R319). -/
def pumpOwing (fx : Fixed) : List (LineNo × Bool × BitVec 4 × BitVec 4) → Mach → Mach
  | [], m => { m with dir := { m.dir with owing := [] } }
  | (l, h, a, k) :: t, m =>
    if snoopRoom m l then pumpOwing fx t (sendSnoop fx l h a k none m)
    else
      let m := pumpOwing fx t m
      { m with dir := { m.dir with owing := (l, h, a, k) :: m.dir.owing } }

/-- What an access finds in the directory. -/
inductive DirGate where
  /-- It may be performed. -/
  | go (m : Mach)
  /-- Its snoops have been sent, or it waits for a transient entry: it parks (11 R323). -/
  | sent (m : Mach)
  | wait (m : Mach)
  /-- It would need a new snoop to a hung agent (11 R324). -/
  | hung
  deriving DecidableEq, Repr

/-- The entry's snoops under way: SNOOP. -/
def markSnoop (k : Nat) (m : Mach) : Mach := setDir k { dirEnt m k with tr := .snoop } m

/-- The line's set is being recalled under 15 R399, or held by a step of DIR_RECLAIM (11 R326). -/
def dirSetHeld (m : Mach) (l : LineNo) : Bool :=
  (m.dir.recalls.any fun r => r.ent / 16 = dirSet l) || decide (m.dir.reclaim = some (dirSet l))

/-- A device access meets the directory (11 R317, R318, R323, R324): `snooped` when its own snoops went before. -/
def dirGate (fx : Fixed) (l : LineNo) (wr snooped dp : Bool) (hs : List Bool) (m : Mach) : DirGate :=
  if dirSetHeld m l then .wait m else
  match dirFind m l with
  | none => .go m
  | some k =>
    let e := dirEnt m k
    let served := !wr && snooped && (hs.all fun h => halfSt e h ≠ .a || (snoopsOf m l).any fun s => s.half = h && s.wb)
    if e.tr ≠ .stable then (if served then .go m else .wait m)
    else if snooped && !wr then .go m
    else
      let sn := devSnoops e wr hs
      if sn = [] then .go m
      else if dp && sn.any (fun x => m.dir.hung.getLsbD x.2.1.toNat) then .hung
      else .sent (markSnoop k (sendSnoops fx l sn m))

/-- A line is held by some host agent: a prefetch is dropped, the scrubber skips (11 Table COH-6). -/
def hostHeld (m : Mach) (l : LineNo) : Bool :=
  dirSetHeld m l || (dirFind m l).isSome

/-- Directory entries in which an agent holds anything: HELD (11 Table COH-10). -/
def agentHolds (e : DirEnt) (n : BitVec 4) : Bool :=
  ((e.st0 = .s || e.st1 = .s) && e.shr.getLsbD n.toNat) || (e.st0 = .a && e.own0 = n) || (e.st1 = .a && e.own1 = n)
def heldCount (m : Mach) (n : BitVec 4) : Nat := (m.dir.ents.filter fun x => agentHolds x.2 n).length

/-- Snoops that a stable entry's recall needs: each holder of each half once. -/
def holderSnoops (e : DirEnt) : List (Bool × BitVec 4 × BitVec 4) := devSnoops e true [false, true]

/-- An entry is kept for a host request (11 R320). -/
def claimed (m : Mach) (k : Nat) : Bool := m.dir.claims.any (·.ent = k)

/-- A STABLE entry of the set that is kept for nobody, needing the fewest snoops, lowest way first (11 R320). -/
def dirVictim (m : Mach) (set : Nat) : Option Nat :=
  let ks := ((List.range 16).map (set * 16 + ·)).filter fun k => (dirEnt m k).tr = .stable && !claimed m k
  match (ks.map fun k => (holderSnoops (dirEnt m k)).length).min? with
  | none => none
  | some n => ks.find? fun k => (holderSnoops (dirEnt m k)).length = n

/-- The line an entry of a set covers. -/
def dirLine (k : Nat) (e : DirEnt) : LineNo := BitVec.ofNat 28 (e.tag.toNat * 32768 + k / 16)

/-- The first free entry of a line's set that is kept for nobody. -/
def dirSpare (m : Mach) (l : LineNo) : Option Nat :=
  ((List.range 16).map (dirSet l * 16 + ·)).find? fun k => dirFree (dirEnt m k) && !claimed m k

/-- An entry kept for a host request, and one kept no longer. -/
def claim (h : HostMsg) (l : LineNo) (k : Nat) (m : Mach) : Mach := { m with dir := { m.dir with claims := m.dir.claims ++ [⟨h, l, k⟩] } }
def unclaim (h : HostMsg) (m : Mach) : Mach := { m with dir := { m.dir with claims := m.dir.claims.filter (·.h ≠ h) } }

/-- Another request has an entry kept for the line: a later one needs no new entry (11 R320). -/
def claimedFor (m : Mach) (l : LineNo) (h : HostMsg) : Bool := m.dir.claims.any fun c => c.line = l && c.h ≠ h

/-- The entry that a host request will take: the one kept for it, once it is free; else a free entry of the line's set; else
the recall of a victim is started, and the victim kept for it (11 R320). -/
def dirRoom (fx : Fixed) (l : LineNo) (h : HostMsg) (m : Mach) : Mach × Option Nat :=
  match m.dir.claims.find? (·.h = h) with
  | some c => (m, if dirFree (dirEnt m c.ent) then some c.ent else none)
  | none =>
    match dirSpare m l with
    | some k => (m, some k)
    | none =>
      match dirVictim m (dirSet l) with
      | none => (m, none)
      | some k =>
        let e := dirEnt m k
        (claim h l k (setDir k { e with tr := .victim } (sendSnoops fx (dirLine k e) (holderSnoops e) m)), none)

/-- The entry of a line once its last snoop is answered: STABLE, or freed; a victim is freed (11 R318, R320). -/
def dirSettle (l : LineNo) (m : Mach) : Mach :=
  match dirFind m l with
  | none => m
  | some k =>
    if snoopsOf m l = [] ∧ !(m.dir.owing.any (·.1 = l)) ∧ (dirEnt m k).tr ≠ .reclaim then setDir k { dirEnt m k with tr := .stable } m else m

/-- Entry k's bits [55:0] (11 Table COH-4). -/
def dirBits (e : DirEnt) : BitVec 56 :=
  let hs := fun (x : HalfSt) => match x with | .i => 0 | .s => 1 | .a => 2
  let tr := match e.tr with | .stable => 0 | .snoop => 1 | .victim => 2 | .reclaim => 3
  BitVec.ofNat 56 (e.tag.toNat * 2 ^ 43 + hs e.st1 * 2 ^ 41 + hs e.st0 * 2 ^ 39 + e.own1.toNat * 2 ^ 35 +
    e.own0.toNat * 2 ^ 31 + e.shr.toNat * 2 ^ 15 + tr * 2 ^ 12)

/-- An entry from its bits; reserved codes read as I and STABLE. -/
def dirOfBits (x : BitVec 56) : DirEnt :=
  let hs := fun (n : Nat) => if n = 1 then HalfSt.s else if n = 2 then .a else .i
  let tr := fun (n : Nat) => if n = 1 then Trans.snoop else if n = 2 then .victim else if n = 3 then .reclaim else .stable
  { tag := x.extractLsb' 43 13, st1 := hs (x.extractLsb' 41 2).toNat, st0 := hs (x.extractLsb' 39 2).toNat,
    own1 := x.extractLsb' 35 4, own0 := x.extractLsb' 31 4, shr := x.extractLsb' 15 16, tr := tr (x.extractLsb' 12 3).toNat }

/-- Snoops of a recall sent while there is room (15 R399). -/
def pumpRecall (fx : Fixed) (k : Nat) : List (LineNo × Bool × BitVec 4) → Mach → Mach × List (LineNo × Bool × BitVec 4)
  | [], m => (m, [])
  | (l, h, a) :: t, m => if snoopRoom m l then pumpRecall fx k t (sendSnoop fx l h a 2 (some k) m) else (m, (l, h, a) :: t)

/-- Recalls carried on; one whose snoops are all answered ends and its entry is free. -/
def pumpRecalls (fx : Fixed) (m : Mach) : Mach :=
  m.dir.recalls.foldl (fun m r =>
    let (m, todo) := pumpRecall fx r.ent r.todo m
    if todo = [] ∧ !(m.dir.snoops.any fun s => s.rcl = some r.ent) then
      { m with dir := { m.dir with recalls := m.dir.recalls.filter (fun x => x.ent ≠ r.ent) } }
    else
      { m with dir := { m.dir with recalls := m.dir.recalls.map (fun x => if x.ent = r.ent then { x with todo := todo } else x) } }) m

/-- One directory entry looked at: a single wrong bit is corrected, two recall the set (15 Table ECC-1, R399). -/
def scanDirEnt (fx : Fixed) (k : Nat) (m : Mach) : Mach :=
  let p := tget (0, 0) m.cache.errs.dirE k
  if p = (0, 0) then m else
  let e := dirEnt m k
  let m := { m with cache := { m.cache with errs := { m.cache.errs with dirE := tset (0, 0) m.cache.errs.dirE k (0, 0) } } }
  match eccOf Config.checkBitsDir (dirBits e) p.1 p.2 with
  | .clean w => setDir k (dirOfBits w) m
  | .single w => logErr fx 0x10 0 k (setDir k (dirOfBits w) m)
  | .double =>
    let raw := dirOfBits (dirBits e ^^^ p.1)
    let tags := raw.tag :: (List.range 13).map fun i => raw.tag ^^^ (1 <<< i)
    let agents := ((List.range 16).filter (m.dir.en.getLsbD ·)).map (BitVec.ofNat 4)
    let todo := tags.flatMap fun t => [false, true].flatMap fun h => agents.map fun a =>
      (BitVec.ofNat 28 (t.toNat * 32768 + k / 16), h, a)
    pumpRecalls fx { logErr fx 0x11 0 k m with dir := { (logErr fx 0x11 0 k m).dir with
      ents := tset .free m.dir.ents k .free
      recalls := m.dir.recalls ++ [⟨k, todo⟩] } }

/-- The entries of a line's set looked at. -/
def scanDir (fx : Fixed) (l : LineNo) (m : Mach) : Mach :=
  if m.cache.errs.dirE = [] then m
  else ((List.range 16).map (dirSet l * 16 + ·)).foldl (fun m k => scanDirEnt fx k m) m

end Sys2Proof.Machine
end

