-- ==== Sys2Proof/Machine/Perform.lean ====
section
/-! DEFINITION. Performing an access on a line: reads, writes, atomics, line reductions and scatter-reduces, host requests,
and what their requesters are told. -/

namespace Sys2Proof.Machine

/-- The requester's class: TC of a request, HC_CTL.TC of a host message, the class an engine runs under (12 Table QOS-1). -/
def defaultClass (m : Mach) (c : Ctx) : BitVec 4 := (ctxOf m c).cls

/-- Context of a command in progress. -/
def cmdCtx (c : Rec) : Ctx := c.pkt.w1.extractLsb' 0 12

/-- The running command whose program satisfies a test. -/
def runningCmd (m : Mach) (p : Prog → Bool) : Option Run := m.cmds.running.find? fun r => p r.prog

def isCopyRun : Prog → Bool | .copyRun _ => true | _ => false
def isMaintRun : Prog → Bool | .maintRun _ => true | _ => false

/-- Class that an access is charged to. -/
def classOf (m : Mach) (s : Src) : BitVec 4 :=
  match s with
  | .dp _ r => r.tc
  | .host _ _ _ => m.regs.hostTc
  | .copyRd | .copyWr => ((runningCmd m isCopyRun).map fun r => defaultClass m (cmdCtx r.cmd)).getD 0
  | .maint => ((runningCmd m isMaintRun).map fun r =>
      if r.cmd.opcode = 0x36 ∨ r.cmd.opcode = 0x37 then defaultClass m (cmdCtx r.cmd) else m.regs.maintTc).getD m.regs.maintTc
  | .bias t | .drain t => defaultClass m (tget .free m.red.tiles t.toNat).ctx
  | .ring _ | .reply _ => m.regs.maintTc
  | .view c => defaultClass m c
  | .event | .dump => m.regs.maintTc
  | .fmap | .mapWord _ => 0
  | .scrub => m.regs.maintTc
  | .reload k => defaultClass m ((m.berth.reloads.find? (·.key = k)).elim 0 fun r => (tget .free m.berth.berths r.berth.toNat).ctx)
  | .prefetch c _ => c
  | .cmd id => ((m.cmds.running.find? (·.cmd.id = id)).map fun r =>
      if r.cmd.opcode = 0x36 ∨ r.cmd.opcode = 0x37 then 0 else if bit r.cmd.pkt.w1 20 then defaultClass m (cmdCtx r.cmd) else m.regs.maintTc).getD m.regs.maintTc

/-- A write of whole sectors: MASKMODE 0, a host's whole half, an engine's whole line (04 Table CACHE-6, 07 R236). -/
def wholeWrite (a : Access) : Bool :=
  match a.src with
  | .dp _ r => r.maskmode = 0
  | .host cls msg _ => !(cls = 1 && msg = 1)
  | _ => decide (a.bytes = BitVec.allOnes 128)

/-- Sectors that an access reads or merges into, which must be valid before it is performed (04 Table CACHE-6, 06 R180). -/
def needSect (a : Access) : BitVec 4 :=
  match a.op with
  | .read | .readVol | .readStream | .lred | .scatter | .atom | .atomRet | .hostRead => a.sect
  | .write => if wholeWrite a then 0 else a.sect
  | .writeThru => 0xF
  | .hostWrite => if wholeWrite a then 0 else a.sect
  | .hostInv | .brd | .bwr | .queue => 0

/-- A read of any kind. -/
def isRead (o : AccOp) : Bool := o = .read || o = .readVol || o = .readStream || o = .hostRead

/-- INFO of a read's response: bit 0 for RD_VOL, bit 1 + i for a carried zero sector (04 R112, 09 R264). -/
def readInfo (vol : Bool) (z s : BitVec 4) : BitVec 16 := BitVec.ofNat 16 (b2n vol + 2 * (z &&& s).toNat)

/-- The sector mask of one sector. -/
def oneSect (i : BitVec 2) : BitVec 4 := 1 <<< i.toNat

/-- The early part of a read that names further sectors (04 R110). -/
def sendEarly (a : Access) (d : Line) (z : BitVec 4) (m : Mach) : Mach :=
  match a.src with
  | .dp op r =>
    let c := oneSect a.crit
    if a.sect = c then m
    else sendResp r op stOk c true (readInfo (a.op = .readVol) z c) (wordsOf d c) m
  | _ => m

/-- The final response of a read: the other named sectors, with the critical one when no early part went or when the
line's check required a refetch (04 R110). -/
def finalRead (r : Req) (op : BitVec 6) (a : Access) (d : Line) (z : BitVec 4) (again : Bool) (m : Mach) : Mach :=
  let c := oneSect a.crit
  let s := if a.sect = c || again || a.again then a.sect else a.sect &&& ~~~c
  respond r op stOk s (readInfo (a.op = .readVol) z s) (wordsOf d s) m

/-- Half of a host message's address. -/
def hostHalf (h : HostMsg) : Bool := bit h.address 6

/-- An NDR to the agent (11 Table COH-2): MSG 0 Cmp, 1 Cmp-S, 2 Cmp-E. -/
def ndr (h : HostMsg) (msg : BitVec 4) (status : BitVec 4) (m : Mach) : Mach :=
  departed m.regs.hostTc 0 none status (emit (.ndr h.stop msg h.agent h.ctag status) m)

/-- What a host request is granted (11 Table COH-5, R315): the agent's state for the half afterwards, none for no change,
I for removed. A request of an agent that is not enabled is taken as MetaField No-Op; a MemClnEvct, which has no META, still
removes its sender (11 R310). -/
def grantOf (cls msg : BitVec 4) (h : HostMsg) (sparse enabled : Bool) : Option HalfSt :=
  if !enabled then (if cls = 0 && msg = 7 then some .i else none)
  else
    let strong : HalfSt := if sparse then .s else .a
    if cls = 0 then
      (if msg = 2 then some .s
       else if msg = 7 then some .i
       else match h.mval.toNat with
         | 2 => some strong | 3 => some .s | 0 => some .i | _ => none)
    else match h.mval.toNat with
      | 0 => some .i | 3 => some .s | 2 => some strong | _ => none

/-- The directory after a host request was performed (11 Table COH-5); `k` is the entry's number. -/
def grant (k : Nat) (l : LineNo) (h : Bool) (x : BitVec 4) (g : HalfSt) (m : Mach) : Mach :=
  let e := dirEnt m k
  let e := if dirFree e then { DirEnt.free with tag := dirTag l } else e
  match g with
  | .i => setDir k (removeAgent h x e) m
  | .a => setDir k (tidyShr (setHalf h .a x e)) m
  | .s =>
    let e := if halfSt e h = .s then e else setHalf h .s 0 e
    setDir k { e with shr := e.shr ||| ((1 : BitVec 16) <<< x.toNat) } m

/-- Waiting accesses of a line forget the snoops they sent: the half has been granted again since. -/
def forgetSnoops (l : LineNo) (m : Mach) : Mach :=
  let f := fun (a : Access) => if a.line = l then { a with snooped := false } else a
  { m with cache := { m.cache with
      replay := m.cache.replay.map fun p => { p with acc := f p.acc }
      own := m.cache.own.map f
      tickets := m.cache.tickets.map fun t => { t with waiters := t.waiters.map f } } }

/-- The directory entry updated by a performed host request: the line's, or the one kept for it (11 R320). An access that waits on the snoop a
writeback crosses keeps it, to be served from the written data (R318). -/
def hostGrant (cls msg : BitVec 4) (h : HostMsg) (l : LineNo) (sparse cross : Bool) (m : Mach) : Mach :=
  match grantOf cls msg h sparse (m.dir.en.getLsbD h.agent.toNat) with
  | none => unclaim h m
  | some g =>
    let m := if g = .a && !cross then forgetSnoops l m else m
    match dirFind m l with
    | some k => unclaim h (grant k l (hostHalf h) h.agent g m)
    | none =>
      if g = .i then unclaim h m
      else match ((m.dir.claims.find? (·.h = h)).map (·.ent)).or (dirSpare m l) with
        | some k => unclaim h (grant k l (hostHalf h) h.agent g m)
        | none => m

/-- The completion of a host request (11 Table COH-5, R310): Cmp-S or Cmp-E as granted; a read under Invalid or No-Op has
none. -/
def hostNdr (cls msg : BitVec 4) (h : HostMsg) (sparse : Bool) (m : Mach) : Mach :=
  let g := grantOf cls msg h sparse (m.dir.en.getLsbD h.agent.toNat)
  if cls = 0 then
    match g with
    | some .a => ndr h 2 stOk m
    | some .s => ndr h 1 stOk m
    | _ => if msg = 1 ∨ msg = 2 then departed m.regs.hostTc 0 none stOk m else ndr h 0 stOk m
  else ndr h 0 stOk m

/-- MemData to the agent. -/
def memData (h : HostMsg) (d : Line) (poison : Bool) (m : Mach) : Mach :=
  let half : Half := d.extractLsb' (512 * b2n (hostHalf h)) 512
  emit (.drs h.stop h.agent h.ctag (if poison then stPoison else stOk) h.address poison half) m

/-- A read of a line's version served to its requester: d holds the line's bytes, zero sectors as zero (04 R110, R112;
11 R315). `counted` when the request has not been counted as a miss. -/
def serveRead (a : Access) (d : Line) (z : BitVec 4) (poison sparse again : Bool) (m : Mach) : Mach :=
  match a.src with
  | .dp op r =>
    if poison then answer r op stPoison m
    else if a.early then finalRead r op a d z again m
    else finalRead r op a d z false (sendEarly a d z m)
  | .host cls msg h =>
    count 0x051 (hostNdr cls msg h sparse (hostGrant cls msg h a.line sparse a.cross (memData h d poison m)))
  | .mapWord w => takeWord w d poison m
  | s => report (.read s a.line d poison) m

/-- A write-class access is done: its requester is told and the arrival counted (04 R119, 06 R195). -/
def serveWrite (a : Access) (sparse : Bool) (m : Mach) : Mach :=
  match a.src with
  | .dp op r => answerOk r op (countR 0x044 r m)
  | .host cls msg h => count 0x051 (hostNdr cls msg h sparse (hostGrant cls msg h a.line sparse a.cross m))
  | s => report (.write s a.line) m

/-- An access to a line that is written: outstanding write-through writes no longer clean it (04 R121). -/
def markRewritten (l : LineNo) (m : Mach) : Mach :=
  { m with cache := { m.cache with writes := m.cache.writes.map fun w =>
      if w.line = l then { w with rewritten := true } else w } }

/-- Sectors with some byte of a mask. -/
def touchedSect (b : BitVec 128) : BitVec 4 :=
  BitVec.ofNat 4 (b2n (b &&& sectBytes 0 ≠ 0) + 2 * b2n (b &&& sectBytes 1 ≠ 0) + 4 * b2n (b &&& sectBytes 2 ≠ 0) +
    8 * b2n (b &&& sectBytes 3 ≠ 0))

/-- Sectors of a mask whose data are 32 zero bytes. -/
def zeroSect (d : Line) (s : BitVec 4) : BitVec 4 :=
  BitVec.ofNat 4 (b2n (sector d 0 = 0) + 2 * b2n (sector d 1 = 0) + 4 * b2n (sector d 2 = 0) + 8 * b2n (sector d 3 = 0)) &&& s

/-- Bytes written into a way (04 R119, R122; 09 R262): whole named sectors of zero bytes become zero sectors, the others
are written; sectors touched become Dirty; only a write of all four sectors whole clears POISON; the tag takes the slot's
current generation and the writer's class (14 R368). -/
def writeWay (set way : Nat) (whole : Bool) (bytes : BitVec 128) (d : Line) (cls : BitVec 4) (m : Mach) : Mach :=
  let t := tagAt m set way
  let s := touchedSect bytes
  let z := if whole then zeroSect d s else 0
  let new := mergeBytes (wayData m set way) d bytes
  let full := bytes = BitVec.allOnes 128
  let t' := { t with
    v := t.v ||| s, d := t.d ||| s, z := (t.z &&& ~~~s) ||| z, cls := cls,
    kgen := if t.keyv then (kslot m t.keyslot).cur else t.kgen, poison := t.poison && !full }
  let keep := mergeSect new (rawData m set way) (z ||| (t.z &&& ~~~s))
  markRewritten (lineOf set t.tag) (clearWords set way s (setTag set way t' (setData set way keep m)))

/-- Operand bytes of an atomic type, 0 for a reserved one (06 Table SYNC-1). -/
def atomSize (ty : Nat) : Nat :=
  match ty with | 0 => 4 | 1 => 8 | 2 => 16 | 4 => 4 | 5 => 2 | 6 => 2 | _ => 0

/-- Format of a floating atomic type. -/
def atomFmt (ty : Nat) : Fmt := if ty = 4 then fF32 else if ty = 5 then fBF16 else fF16

/-- The operands of an atomic: the value, and A_new for CAS (06 R176). -/
def atomArgs (r : Req) : Nat × Nat :=
  let ty := r.aux.toNat % 16
  if ty = 2 then (catWords (r.payload.take 2), catWords ((r.payload.drop 2).take 2))
  else (catWords (r.payload.take 1), catWords ((r.payload.drop 1).take 1))

/-- The stored value after an atomic, and whether a CAS swapped (06 R178, R179). -/
def atomResult (r : Req) (old : Nat) : Nat × Bool :=
  let ty := r.aux.toNat % 16
  let w := 8 * atomSize ty
  let (x, y) := atomArgs r
  if r.subop = 10 then (fadd (atomFmt ty) old x, false)
  else if r.subop = 9 then (if old = x then (y, true) else (old, false))
  else (intOp r.subop.toNat w old x, false)

/-- Bytes [off, off+n) of a line as a mask. -/
def spanMask (off n : Nat) : BitVec 128 := BitVec.ofNat 128 ((2 ^ n - 1) * 2 ^ off)

/-- Element width in bytes of an LRED or scatter input code (08 Table TOW-9), 0 for a reserved one. -/
def inBytes (c : Nat) : Nat :=
  match c with | 0 => 4 | 1 => 2 | 2 => 2 | 3 => 1 | 4 => 1 | 8 => 8 | 9 => 4 | 10 => 2 | 11 => 1 | _ => 0

/-- Float format of an input code. -/
def inFmt (c : Nat) : Fmt :=
  match c with | 1 => fBF16 | 2 => fF16 | 3 => fE4M3 | 4 => fE5M2 | _ => fF32

/-- A target element after LRED (08 Table TOW-8, R258): `ib` bits of integer input, `wb` bits of target. -/
def lredElem (sub tgt inc : Nat) (s a : Nat) : Nat :=
  if tgt = 0 then
    let x := if inc = 0 then a else toF32 (inFmt inc) a
    if sub = 0 then fadd fF32 s x else fminmax fF32 (sub = 1) s x
  else
    let wb := if tgt = 1 then 32 else 64
    let ib := 8 * inBytes inc
    let x := if sub ≤ 5 then ofInt wb (toSigned ib a) else a
    intOp (match sub with | 3 => 0 | 4 => 1 | 5 => 2 | 6 => 3 | _ => 4) wb s x

/-- A target element after SCATTER_RED (09 R283): A is SCALE × x rounded once. -/
def scatElem (op : Nat) (scale : W32) (inc : Nat) (s x : Nat) : Nat :=
  let v := fpMul (fpRead fF32 scale.toNat) (fpRead (inFmt inc) x)
  let a := fpWrite fF32 v
  if op = 0 then fadd fF32 s a else fminmax fF32 (op = 1) s a

/-- Elements of the named sectors combined, element by element: `eb` bytes of target, `ib` of input, inputs packed in
order (07 R217). -/
def redElems (f : Nat → Nat → Nat) (eb ib : Nat) (pay : Nat) : Nat → List Nat → Nat → Nat → Nat
  | _, [], _, acc => acc
  | k, i :: is, old, acc =>
    let s := old / 2 ^ (8 * eb * i) % 2 ^ (8 * eb)
    let a := pay / 2 ^ (8 * ib * k) % 2 ^ (8 * ib)
    redElems f eb ib pay (k + 1) is old (acc + f s a * 2 ^ (8 * eb * i))

/-- Element numbers of the named sectors, ascending: `n` a sector. -/
def sectElems (s : BitVec 4) (n : Nat) : List Nat :=
  (List.range (4 * n)).filter fun i => s.getLsbD (i / n)

/-- The line's named sectors after a line reduction. -/
def redLine (f : Nat → Nat → Nat) (eb ib : Nat) (s : BitVec 4) (pay : List W64) (d : Line) : Line :=
  BitVec.ofNat 1024 (redElems f eb ib (catWords pay) 0 (sectElems s (32 / eb)) d.toNat 0)

/-- A scatter descriptor. -/
def scatOf (m : Mach) (i : Nat) : Scatter := tget .free m.sparse.scat i
/-- A scatter descriptor replaced. -/
def setScat (i : Nat) (s : Scatter) (m : Mach) : Mach :=
  { m with sparse := { m.sparse with scat := tset .free m.sparse.scat i s } }
/-- A counter that saturates. -/
def satInc (w : W32) : W32 := if w = 0xFFFFFFFF then w else w + 1

/-- An atomic on a way (06 R178 to R180): the operand written, the old value returned or acknowledged. -/
def atomWay (set way : Nat) (ret acked : Bool) (op : BitVec 6) (r : Req) (m : Mach) : Mach :=
  let off := fld r.address 6 0
  let n := atomSize (r.aux.toNat % 16)
  let d := wayData m set way
  let old := d.toNat / 2 ^ (8 * off) % 2 ^ (8 * n)
  let (new, sw) := atomResult r old
  let m := countR 0x045 r (writeWay set way false (spanMask off n) (BitVec.ofNat 1024 (new * 2 ^ (8 * off))) r.tc m)
  if ret then
    tally ⟨op, r, false, BitVec.ofNat 16 (b2n sw),
      if n = 16 then [BitVec.ofNat 64 old, BitVec.ofNat 64 (old / 2 ^ 64)] else [BitVec.ofNat 64 old]⟩ m
  else tally ⟨op, r, acked, 0, []⟩ m

/-- An access performed on a valid way whose needed sectors are valid. -/
def perform (fx : Fixed) (a : Access) (set way : Nat) (again : Bool) (m : Mach) : Mach :=
  let t := tagAt m set way
  let sparse := t.fmt ≠ 0
  let cls := classOf m a.src
  match a.op with
  | .read | .readVol => serveRead a (wayData m set way) t.z t.poison sparse again (if a.src = .scrub then m else touch set way m)
  | .hostRead => serveRead a (wayData m set way) t.z t.poison sparse again (touch set way m)
  | .readStream =>
    let m := if t.pf then touch set way m else m
    serveRead a (wayData m set way) t.z t.poison sparse again m
  | .write =>
    let m := writeWay set way (wholeWrite a) a.bytes a.data cls (touch set way m)
    let m := if a.psn then setTag set way { tagAt m set way with poison := true } m else m
    serveWrite a sparse (if a.src = .copyWr then setTag set way { tagAt m set way with ret := 1 } m else m)
  | .writeThru =>
    let m := writeWay set way (wholeWrite a) a.bytes a.data cls (touch set way m)
    let w := { writeOfWay m set way false (.thruHit (BitVec.ofNat 12 set) (BitVec.ofNat 5 way) a) [] with due := a.due }
    let m := (queueWrite fx w m).getD m
    (match a.src with | .dp _ r => countR 0x044 r m | _ => m)
  | .atom => (match a.src with | .dp op r => atomWay set way false a.acked op r (touch set way m) | _ => m)
  | .atomRet =>
    (match a.src with
    | .dp op r => if t.poison then answer r op stPoison m else atomWay set way true false op r (touch set way m)
    | _ => m)
  | .lred =>
    (match a.src with
    | .dp op r =>
      if t.poison then answer r op stPoison m
      else
        let tgt := r.aux.toNat / 16 % 16
        let inc := r.aux.toNat % 16
        let d := redLine (lredElem r.subop.toNat tgt inc) (if tgt = 2 then 8 else 4) (inBytes inc) r.sect r.payload (wayData m set way)
        answerOk r op (countR 0x046 r (writeWay set way false (sectMask r.sect) d cls (touch set way m)))
    | _ => m)
  | .scatter =>
    (match a.src with
    | .dp op r =>
      let i := r.aux.toNat % 256
      let sc := scatOf m i
      if t.poison then answer r op stPoison m
      else
        let inc := r.subop.toNat
        let d := redLine (scatElem sc.op.toNat sc.scale inc) 4 (inBytes inc) r.sect r.payload (wayData m set way)
        let m := writeWay set way false (sectMask r.sect) d cls (touch set way m)
        answerOk r op (countR 0x046 r (setScat i { sc with applied := satInc sc.applied } m))
    | _ => m)
  | .hostWrite =>
    (match a.src with
    | .host c g h =>
      let m := writeWay set way (wholeWrite a) a.bytes a.data cls (touch set way m)
      let m := if h.psn then setTag set way { tagAt m set way with poison := true } m else m
      let took := fun (s : Snoop) => if s.line = a.line ∧ s.half = hostHalf h ∧ s.agent = h.agent then { s with wb := true } else s
      let m := if a.cross then { m with dir := { m.dir with snoops := m.dir.snoops.map took } } else m
      serveWrite { a with src := .host c g h } sparse m
    | _ => m)
  | .hostInv => serveWrite a sparse m
  | .brd | .bwr | .queue => m

end Sys2Proof.Machine
end

