-- ==== Sys2Proof/Machine/Access.lean ====
section
/-! DEFINITION. The path of an access through the array island: format map and page headers, slipway, tickets, victims, hit
or miss, and the queues in which it waits (04_cache.md, 09_sparse_data.md, 11_host_coherence.md). -/

namespace Sys2Proof.Machine

/-- A header put into the page-header cache (09 R269). -/
def hcachePut (g : Nat) (h : Header) (m : Mach) : Mach :=
  let t := tset [] m.sparse.hcache (g % 128) (lruPut g h (tget [] m.sparse.hcache (g % 128)))
  { m with sparse := { m.sparse with hcache := t } }

/-- The page header of a granule, if the page-header cache holds it. -/
def hcacheGet (m : Mach) (g : Nat) : Option Header := (lruFind g (tget [] m.sparse.hcache (g % 128))).map (·.1)

/-- What the format map says of a granule. -/
inductive Fmap where
  | dense (m : Mach)
  | sparse (m : Mach)
  /-- The map word, by number, is in neither: it is to be read. -/
  | fetch (word : Nat)
  deriving DecidableEq, Repr

/-- What a look-up of the format map reads when the format cache lacks the word: the map's line, if that is cached. Its bank is needed, and its
tag and the word's sector are looked at (09 R269, 13 R353, 04 Table CACHE-11). -/
def mapReady (fx : Fixed) (g : Nat) (m : Mach) : Mach × Bool :=
  let w := g / 64
  if !fmapOn fx || (lruFind w (tget [] m.sparse.fcache (w % 256))).isSome then (m, true) else
  let l := mapLine fx g
  let (m, ok) := needDoms [dTag (quadOf l)] m
  if !ok then (m, false) else
  let m := scanSet fx (setOf l) m
  match hitWay m l with
  | none => (m, true)
  | some way =>
    if (tagAt m (setOf l) way).z.getLsbD (w % 16 / 4) then (m, true) else
    let (m, ok) := needDom (dWay m (setOf l) way) m
    if ok then ((scanWay fx (setOf l) way ((1 : BitVec 4) <<< (w % 16 / 4)) m).1, true) else (m, false)

/-- The format map looked up (09 R267, R269): in the format cache, else in the map's line when that is cached. -/
def fmapLook (fx : Fixed) (g : Nat) (m : Mach) : Fmap :=
  if !fmapOn fx then .dense m else
  let w := g / 64
  let bitOf := fun (v : W64) => v.getLsbD (g % 64)
  match lruFind w (tget [] m.sparse.fcache (w % 256)) with
  | some (v, l) =>
    let m := { m with sparse := { m.sparse with fcache := tset [] m.sparse.fcache (w % 256) l } }
    if bitOf v then .sparse m else .dense m
  | none =>
    let l := mapLine fx g
    match hitWay m l with
    | some way =>
      let t := tagAt m (setOf l) way
      if t.poison || t.v.getLsbD (w % 16 / 4) then
        let m := takeWord w (wayData m (setOf l) way) t.poison m
        if ((lruFind w (tget [] m.sparse.fcache (w % 256))).any fun x => bitOf x.1) then .sparse m else .dense m
      else .fetch w
    | none => .fetch w

/-- How an access leaves the array for now. -/
inductive Got where
  /-- Performed, answered, or waiting in a ticket's list. -/
  | done
  /-- It must be tried again. -/
  | wait
  /-- It must be tried again once a domain is ready (13 R353). -/
  | waitThaw
  /-- It must be tried again, and the directory is why (11 R323). -/
  | waitDir
  deriving DecidableEq, Repr

/-- Reads that leave nothing in the cache: the copy source, and the page read of a pack or unpack. -/
def passing (s : Src) : Bool := s = .copyRd || s = .maint

/-- A prefetch. -/
def isPrefetch (s : Src) : Bool := match s with | .prefetch _ _ => true | _ => false

/-- A read of a word of the format map. -/
def isMapWord (s : Src) : Bool := match s with | .mapWord _ => true | _ => false

/-- An operation on memory space, and not on a berth or a queue. -/
def onMemory (o : AccOp) : Bool := !(o = .brd || o = .bwr || o = .queue)

/-! ### Order at a line (04 R118) -/

/-- A writeback of a host that crosses a snoop of its half (11 R321). -/
def crossing (m : Mach) (a : Access) : Bool :=
  match a.src with
  | .host cls _ h => cls = 1 && m.dir.snoops.any fun s => s.line = a.line && s.half = hostHalf h && s.agent = h.agent
  | _ => false

/-- Deadline of a request accepted in a control cycle, in half mesh cycles (12 R332; log 56). -/
def dueOf (cyc : Nat) (s : Src) : Option Nat :=
  match s with
  | .dp _ r => if r.deadline = 0 then none else some (5 * cyc + 32 * r.deadline.toNat)
  | _ => none

/-- What an access keeps of its acceptance. -/
def ctlOf (m : Mach) (a : Access) : Taken := a.ctl.getD (taken m)

/-- An access that comes to the island: it takes its place in its line's order and the key range as it stands, and keeps what stood at its
acceptance (04 R118, R143; 12 R332; 14 R366). One that has its place keeps all this. -/
def placed (m : Mach) (a : Access) : Access :=
  { a with
    ord := if a.ord = 0 then m.cache.nextSeq + 1 else a.ord
    range := if a.ord = 0 then rangeOf m a.line else a.range
    ctl := some (ctlOf m a)
    due := if a.ord = 0 then dueOf (ctlOf m a).cyc a.src else a.due
    cross := a.cross || crossing m a }

/-- The next place is behind those given out. -/
def nextPlace (m : Mach) : Mach := { m with cache := { m.cache with nextSeq := m.cache.nextSeq + 1 } }

/-- Accesses that neither wait for others of their line nor make others wait: prefetches, fetches of the format map, the scrubber's, and the
page reads of a pack or unpack, which the page's lock keeps alone. -/
def unordered (s : Src) : Bool := isPrefetch s || s = .fmap || isMapWord s || s = .scrub || s = .maint

/-- One access goes before another to its line: by its place, a writeback that crosses a snoop before all others (04 R118,
11 R321). -/
def goesBefore (q a : Access) : Bool :=
  decide (q.line = a.line) && onMemory q.op && !unordered q.src &&
  (if a.cross then q.cross && decide (q.ord < a.ord) else q.cross || decide (q.ord < a.ord))

/-- An access that goes before this one waits in a replay queue or for an engine. -/
def waitsBefore (m : Mach) (a : Access) : Bool :=
  !unordered a.src && (m.cache.replay.any (fun p => goesBefore p.acc a) || m.cache.own.any (goesBefore · a))

/-- A read of a whole line by one of the slice's engines. -/
def ownRead (s : Src) (o : AccOp) (l : LineNo) : Access :=
  { op := o, src := s, line := l, sect := 0xF, crit := 0, bytes := 0, data := 0, early := false, acked := false, snooped := false,
    counted := true }

/-- A write of some bytes of a line by one of the slice's engines. -/
def ownWrite (s : Src) (o : AccOp) (l : LineNo) (bytes : BitVec 128) (d : Line) : Access :=
  { op := o, src := s, line := l, sect := touchedSect bytes, crit := 0, bytes := bytes, data := d, early := false, acked := false,
    snooped := false, counted := true }

/-- An engine's access that is to be tried as the step ends. -/
def askOwn (a : Access) (m : Mach) : Mach := nextPlace { m with cache := { m.cache with own := m.cache.own ++ [a] } }

/-- An access that goes on for nobody in particular. -/
def orphaned (p : Src → Bool) (a : Access) : Access := if p a.src then { a with src := .fmap } else a

/-- The same, of what an acknowledged write completes. -/
def orphanedAfter (p : Src → Bool) : WAfter → WAfter
  | .thruHit set way a => .thruHit set way (orphaned p a)
  | .thruMiss a => .thruMiss (orphaned p a)
  | .merge a => .merge (orphaned p a)
  | w => w

/-- Whom an access that has come in is for. -/
def doneFor (p : Src → Bool) : Done → Bool
  | .read s _ _ _ => p s
  | .write s _ => p s
  | .fail s _ _ => p s
  | .ack _ _ => false
  | .raw _ _ _ => false

/-- The accesses of an engine called off: those not begun are dropped, and what comes of the others reaches nobody. -/
def dropOwn (p : Src → Bool) (m : Mach) : Mach :=
  { m with
      cache := { m.cache with
        own := m.cache.own.filter fun a => !p a.src
        tickets := m.cache.tickets.map fun t => { t with waiters := t.waiters.map (orphaned p) }
        writes := m.cache.writes.map fun w => { w with after := orphanedAfter p w.after }
        done := m.cache.done.filter fun d => !doneFor p d }
      sparse := { m.sparse with fills := m.sparse.fills.map fun f => { f with waiters := f.waiters.map (orphaned p) } } }

/-- A dirty line with Absent sectors is filled before it leaves its way (04 R123), unless a read of it is under way, or seven ways
of its set are being filled (R127). The read is charged to the class that needs it (12 Table QOS-1). -/
def fillVictim (fx : Fixed) (set way : Nat) (cls : BitVec 4) (m : Mach) : Mach :=
  let l := lineOf set (tagAt m set way).tag
  if (ticketFor m l).isSome || decide ((fillingWays m set).length ≥ 7) then m
  else (newTicket fx l (.fill (BitVec.ofNat 5 way)) cls 0 false none (rangeAt fx m l) [] m).getD m

/-- A way for a new line of a set: an eligible victim, freed; for a fill, at most seven ways of the set being filled (04 R125 to
R127). A dirty victim with Absent sectors is filled first (04 R123). -/
def getWay (fx : Fixed) (ret : W32) (fill : Bool) (set : Nat) (m : Mach) : Mach × Option Nat :=
  if fill && decide ((fillingWays m set).length ≥ 7) then (m, none) else
  match victimOf ret m set with
  | none => (m, none)
  | some w =>
    let (m, ok) := needDom (dWay m set w) m
    if !ok then (m, none) else
    match freeWay fx set w [] m with
    | .now m => (m, some w)
    | .full => (m, none)
    | .fill => (fillVictim fx set w (tagAt m set w).cls m, none)

/-- A line installed whole in a free way. -/
def installWay (set way : Nat) (t : Tag) (d : Line) (m : Mach) : Mach :=
  setTag set way t (setData set way d (clearWords set way 0xF m))

/-- The tag of a line allocated without a fill: its key from its range at the current generation (14 R368). -/
def freshTag (m : Mach) (l : LineNo) (r : Option KRange) (cls : BitVec 4) (ret : BitVec 2) : Tag :=
  let k := (r.map (·.keyslot)).getD 0
  { Tag.free with tag := tagOf l, keyv := r.isSome, keyslot := k, kgen := r.isSome && (kslot m k).cur, cls := cls, ret := ret }

/-- Retention code of an access that installs a line (04 R112, 11 R314). -/
def retOf (o : AccOp) : BitVec 2 := if o = .readStream ∨ o = .hostRead then 1 else 0

/-- A read's hit is counted, once (18 Table PMC-2). -/
def noteHit (a : Access) (m : Mach) : Mach :=
  match a.src with
  | .dp _ r => if isRead a.op && !a.counted then countR 0x041 r m else m
  | _ => m

/-- A demand miss adds to its set group's counter, which saturates (05 R162). -/
def bumpMiss (l : LineNo) (m : Mach) : Mach :=
  let g := setOf l / 32
  let n := tget 0 m.berth.miss g
  { m with berth := { m.berth with miss := tset 0 m.berth.miss g (if n = 0xFFFF then n else n + 1) } }

/-- A miss is counted, once: a read's in its event, a demand request's in its set group (18 Table PMC-2, 05 R162). -/
def noteMiss (a : Access) (m : Mach) : Mach × Access :=
  match a.src with
  | .dp _ r =>
    if a.counted then (m, a)
    else
      let m := if isRead a.op then countR 0x042 r m else m
      (if a.op = .scatter then m else bumpMiss a.line m, { a with counted := true })
  | _ => (m, a)

/-- No way was found for a line: its victim's bank waits for a thaw, or another reason (04 R118, 13 R353). -/
def noWay (ret : W32) (m : Mach) (set : Nat) : Got :=
  match victimOf ret m set with
  | some w => if domReady m (dWay m set w) then .wait else .waitThaw
  | none => .wait

/-- ATOM is acknowledged when its request enters the atomic unit's queue (06 R181). -/
def ackAtom (a : Access) (m : Mach) : Mach × Access :=
  match a.op, a.src with
  | .atom, .dp op r => if a.acked then (m, a) else (answer r op stOk m, { a with acked := true })
  | _, _ => (m, a)

/-- A read that joins a fill under way is counted (18 Table PMC-2). -/
def noteJoin (a : Access) (m : Mach) : Mach :=
  match a.src with | .dp _ r => if isRead a.op then countR 0x043 r m else m | _ => m

/-- A ticket whose read serves accesses to its own line (04 R117): the other kinds are the slice's own reads. -/
def joinable (t : Ticket) : Bool := match t.kind with | .fill _ | .noAlloc => true | _ => false

/-- The memory scrub's read of a line stored with some FORMAT: a miss of the line takes it over (04 R117, log 12). -/
def scrubbing (fmt : BitVec 2) (t : Ticket) : Bool := decide (t.kind = .memScrub fmt)

/-- A ticket that the memory scrub took goes on as another kind, for an access. -/
def takeOver (t : Ticket) (kind : TKind) (cls : BitVec 4) (a : Access) (ws : List Access) (m : Mach) : Mach :=
  nextPlace (setTicket { t with kind, cls, prefetch := isPrefetch a.src, due := a.due, ctl := ctlOf m a, waiters := ws } m)

/-- The access joins a ticket's waiters, if a record is free (04 R117). -/
def joinTicket (a : Access) (t : Ticket) (m : Mach) : Mach × Got :=
  if waitersUsed m ≥ 4096 then (m, .wait)
  else
    let (m, a) := noteMiss a m
    let (m, a) := ackAtom a (noteJoin a m)
    (nextPlace (setTicket { t with waiters := t.waiters ++ [a], due := sooner t.due a.due } m), .done)

/-- A fill of a way would be an eighth in its set (04 R127). -/
def overFilled (m : Mach) (l : LineNo) (kind : TKind) : Bool :=
  match kind with | .fill _ => decide ((fillingWays m (setOf l)).length ≥ 7) | _ => false

/-- A ticket taken for a line with the access as its first waiter: a new one, or the memory scrub's of a dense line. -/
def startTicket (fx : Fixed) (a : Access) (kind : TKind) (m : Mach) : Mach × Got :=
  if decide (waitersUsed m ≥ 4096) || overFilled m a.line kind then (m, .wait) else
  let (m', a') := noteMiss a m
  let (m', a') := ackAtom a' m'
  match (ticketFor m' a.line).filter (scrubbing 0) with
  | some t => (takeOver t kind (classOf m a.src) a' [a'] m', .done)
  | none =>
    match newTicket fx a.line kind (classOf m a.src) a.crit (isPrefetch a.src) a.due a.range [a'] m' with
    | some m => (m, .done)
    | none => (m, .wait)

/-- Free tickets. -/
def ticketsFree (m : Mach) : Nat := 1024 - m.cache.tickets.length

/-! ### Sparse pages (09 R269 to R272) -/

/-- Bits of a bitmap below sector s. -/
def rankBelow (h : Header) (s : Nat) : Nat := popBelow h.bitmap s

/-- The zero sectors of a logical line of a sparse page. -/
def pageZero (h : Header) (l : LineNo) : BitVec 4 :=
  BitVec.ofNat 4 (15 - h.bitmap.toNat / 2 ^ (4 * (l.toNat % 32)) % 16)

/-- The physical line that holds a sector of a logical line, and the sector's slot there (09 R270). -/
def physOf (h : Header) (l : LineNo) (i : Nat) : LineNo × Nat :=
  let r := rankBelow h (4 * (l.toNat % 32) + i)
  (BitVec.ofNat 28 (l.toNat / 32 * 32 + 1 + r / 4), r % 4)

/-- Physical lines that hold the wanted nonzero sectors of a logical line, distinct, the one of the critical sector first
(09 R270). -/
def physLines (h : Header) (l : LineNo) (want : BitVec 4) (crit : Nat) : List LineNo :=
  let of_ := fun (i : Nat) =>
    if want.getLsbD i && h.bitmap.getLsbD (4 * (l.toNat % 32) + i) then [(physOf h l i).1] else []
  (of_ crit ++ of_ 0 ++ of_ 1 ++ of_ 2 ++ of_ 3).dedup

/-- Tickets for the physical lines that have none yet; the critical sector's slot is the critical sector of its line's read. -/
def startPacked (fx : Fixed) (a : Access) (cls : BitVec 4) (c : LineNo × Nat) : List LineNo → Mach → Mach
  | [], m => m
  | p :: ps, m =>
    let m := match ticketFor m p with
      | some t => if scrubbing 1 t then takeOver t .packed cls a [] m else setTicket { t with due := sooner t.due a.due } m
      | none => (newTicket fx p .packed cls (if p = c.1 then BitVec.ofNat 2 c.2 else 0) (isPrefetch a.src) a.due a.range [] m).getD m
    startPacked fx a cls c ps m

/-- The early part of a read whose critical sector is known already (09 Table SPARSE-3, 04 R110). -/
def earlyKnown (a : Access) (known : BitVec 4) (d : Line) (z : BitVec 4) (m : Mach) : Mach × Access :=
  match a.src with
  | .dp _ _ =>
    if isRead a.op && !a.early && known.getLsbD a.crit.toNat && decide (a.sect ≠ oneSect a.crit) then
      (sendEarly a d z m, { a with early := true })
    else (m, a)
  | _ => (m, a)

/-- An access joins the fill of a sparse line that is under way; the reads it waits for become as urgent as it is (12 R332). -/
def joinFill (a : Access) (f : SFill) (m : Mach) : Mach × Got :=
  if waitersUsed m ≥ 4096 then (m, .wait)
  else
    let (m, a) := noteMiss a m
    let (m, a) := earlyKnown a (if f.poison then 0 else f.gotMask) f.got (pageZero f.hdr f.line) (noteJoin a m)
    let fs := m.sparse.fills.map fun x => if x.line = f.line then { x with waiters := x.waiters ++ [a] } else x
    let sooner_ := fun (t : Ticket) => if t.line ∈ f.need then { t with due := sooner t.due a.due } else t
    (nextPlace { m with sparse := { m.sparse with fills := fs }, cache := { m.cache with tickets := m.cache.tickets.map sooner_ } }, .done)

/-- The header of a page is fetched, the access waiting for it (09 R269). -/
def fetchHeader (fx : Fixed) (a : Access) (m : Mach) : Mach × Got :=
  let hl : LineNo := BitVec.ofNat 28 (granOf a.line * 32)
  if waitersUsed m ≥ 4096 then (m, .wait) else
  match ticketFor m hl with
  | some t =>
    if t.kind = .header then
      (nextPlace (setTicket { t with waiters := t.waiters ++ [a], due := sooner t.due a.due } m), .done)
    else if scrubbing 2 t then (takeOver t .header (classOf m a.src) a [a] m, .done)
    else (m, .wait)
  | none =>
    match newTicket fx hl .header (classOf m a.src) 0 (isPrefetch a.src) a.due a.range [a] m with
    | some m => (m, .done)
    | none => (m, .wait)

/-- The fill of a sparse line begins, in a way or in none. -/
def startFill (fx : Fixed) (a : Access) (h : Header) (ps : List LineNo) (way : Option Nat) (m : Mach) : Mach :=
  let z := pageZero h a.line
  let (m, a) := noteMiss a m
  let (m, a) := earlyKnown a z 0 z m
  let f : SFill := { line := a.line, hdr := h, way := way.map (BitVec.ofNat 5), need := ps, got := 0, gotMask := z, kgen := false,
                     poison := false, cls := classOf m a.src, range := a.range, again := false, waiters := [a] }
  startPacked fx a (classOf m a.src) (physOf h a.line a.crit.toNat) ps
    (nextPlace { m with sparse := { m.sparse with fills := m.sparse.fills ++ [f] } })

/-- A read of a line of a sparse page that misses, or whose sectors are Absent (09 R270). A physical line that the slice reads for
a purpose of its own is waited for: a line has one ticket (04 R114). A MemInv or MemClnEvct carries no data and reads nothing (11 Table
COH-5). -/
def sparseMiss (fx : Fixed) (a : Access) (way : Option Nat) (m : Mach) : Mach × Got :=
  let set := setOf a.line
  if a.op = .hostInv then (serveWrite a true m, .done) else
  match m.sparse.fills.find? (·.line = a.line) with
  | some f => joinFill a f m
  | none =>
    match hcacheGet m (granOf a.line) with
    | none => fetchHeader fx a m
    | some h =>
      let m := hcachePut (granOf a.line) h m
      if h.poison then (serveRead a 0 0 true true false m, .done)
      else
        let z := pageZero h a.line
        if z = 0xF then
          let (m, a) := noteMiss a m
          (serveRead a 0 0xF false true false m, .done)
        else
          let have_ := match way with | some w => (tagAt m set w).v | none => 0
          let ps := physLines h a.line (~~~(have_ ||| z)) a.crit.toNat
          if ticketsFree m < ps.length ∨ waitersUsed m ≥ 4096 ∨ ps.any (fun p => m.cache.tickets.any fun t => t.line = p && t.kind ≠ .packed && !scrubbing 1 t) then
            (m, .wait)
          else match way with
            | some w => if (fillingWays m set).length ≥ 7 then (m, .wait) else (startFill fx a h ps (some w) m, .done)
            | none =>
              if passing a.src || noAllocate (ctlOf m a).retain m set (classOf m a.src) then (startFill fx a h ps none m, .done)
              else
                let (m, w) := getWay fx (ctlOf m a).retain true set m
                match w with
                | none => (m, noWay (ctlOf m a).retain m set)
                | some w => (startFill fx a h ps (some w) m, .done)

/-! ### Hit, slipway, miss -/

/-- A way whose tag holds the line with some sector of a mask Absent: the fill of its Absent sectors is started or joined. -/
def fillAbsent (fx : Fixed) (a : Access) (way : Nat) (m : Mach) : Mach × Got :=
  if (tagAt m (setOf a.line) way).fmt ≠ 0 then sparseMiss fx a (some way) m
  else match (ticketFor m a.line).filter (fun t => !scrubbing 0 t) with
    | some t => if joinable t then joinTicket a t m else (m, .wait)
    | none => startTicket fx a (.fill (BitVec.ofNat 5 way)) m

/-- An access that misses a dense line (04 Table CACHE-6, R126, R484). -/
def missPart (fx : Fixed) (a : Access) (m : Mach) : Mach × Got :=
  let set := setOf a.line
  let cls := classOf m a.src
  match (ticketFor m a.line).filter (fun t => !scrubbing 0 t) with
  | some t => if joinable t then joinTicket a t m else (m, .wait)
  | none =>
    if a.op = .writeThru then
      (if a.bytes = BitVec.allOnes 128 then
        let w : PWrite :=
          { line := a.line, data := a.data, zero := 0, fmt := 0, keyv := a.range.isSome, keyslot := (a.range.map (·.keyslot)).getD 0,
            poison := false, cls, slip := false, issued := false, index := 0, seq := 0, rewritten := false,
            after := .thruMiss a, also := [], due := a.due }
        match queueWrite fx w m with
        | some m =>
          let (m, _) := noteMiss a m
          ((match a.src with | .dp _ r => countR 0x044 r m | _ => m), .done)
        | none => (m, .wait)
       else if slipUsed m ≥ 128 ∨ !writeRoom m then (m, .wait)
       else startTicket fx a .merge m)
    else if needSect a = 0 ∧ a.op ≠ .hostInv then
      let (m, way) := getWay fx (ctlOf m a).retain false set m
      match way with
      | none => (m, noWay (ctlOf m a).retain m set)
      | some way =>
        let (m, a) := noteMiss a m
        (perform fx a set way false
          (setTag set way (freshTag m a.line a.range cls (if a.src = .copyWr then 1 else retOf a.op)) (clearWords set way 0xF m)), .done)
    else if a.op = .hostInv then
      (match a.src with
       | .host _ _ _ => (serveWrite a false m, .done)
       | s => (report (.write s a.line) m, .done))
    else if m.cache.tickets.length ≥ 1024 && (ticketFor m a.line).isNone then (m, .wait)
    else if isRead a.op && (passing a.src || noAllocate (ctlOf m a).retain m set cls) then startTicket fx a .noAlloc m
    else
      let (m, way) := getWay fx (ctlOf m a).retain true set m
      match way with
      | none => (m, noWay (ctlOf m a).retain m set)
      | some way => startTicket fx a (.fill (BitVec.ofNat 5 way)) m

/-- A line whose lost sectors must be fetched again: those left of it stay, and one of which nothing is left is gone
(04 Table CACHE-11). -/
def refetch (fx : Fixed) (a : Access) (way : Nat) (fmt : BitVec 2) (m : Mach) : Mach × Got :=
  match hitWay m a.line with
  | some w => fillAbsent fx a w m
  | none =>
    let m := setTag (setOf a.line) way .free m
    if fmt ≠ 0 then sparseMiss fx a none m else missPart fx a m

/-- A read whose named sectors are all in zero states: it takes no bank read (09 R263). -/
def readsZero (a : Access) (t : Tag) : Bool := isRead a.op && decide (a.sect &&& ~~~(t.v &&& t.z) = 0)

/-- An access that is answered POISON on a poisoned line whatever its sectors hold (04 R119, 06 R180). -/
def stopsOnPoison (o : AccOp) : Bool := isRead o || o = .atomRet || o = .lred || o = .scatter

/-- An access that finds its line in a way (04 R119, Table CACHE-11): its bank must be ready, its needed sectors valid and
free of error. -/
def hitPart (fx : Fixed) (a : Access) (way : Nat) (m : Mach) : Mach × Got :=
  let set := setOf a.line
  if readsZero a (tagAt m set way) then (perform fx a set way false (noteHit a m), .done) else
  let (m, ok) := needDom (dWay m set way) m
  if !ok then (m, .waitThaw) else
  let need := needSect a
  let fmt := (tagAt m set way).fmt
  let (m, sc) := scanWay fx set way need m
  if sc = .refetch then refetch fx a way fmt m
  else if need &&& ~~~(tagAt m set way).v ≠ 0 ∧ !((tagAt m set way).poison && stopsOnPoison a.op) then fillAbsent fx a way m
  else if a.op = .writeThru ∧ !writeRoom m then (m, .wait)
  else (perform fx a set way false (noteHit a m), .done)

/-- An access that meets its line in the slipway (04 Table CACHE-8): a pending entry is cancelled and the line reinstalled
Dirty, an issued one is installed Clean; a read that allocates nothing, or finds no victim eligible, is served from the entry,
which stays. An entry that a maintenance step waits for counts as issued (log 25). The way takes the access's retention (04 R112). -/
def slipPart (fx : Fixed) (a : Access) (w : PWrite) (m : Mach) : Mach × Got :=
  let set := setOf a.line
  let cls := classOf m a.src
  let kept := w.issued || w.also ≠ []
  let serve := fun (m : Mach) => (serveRead a w.data w.zero w.poison (w.fmt ≠ 0) false (noteHit a m), Got.done)
  if isRead a.op && (a.src = .copyRd || noAllocate (ctlOf m a).retain m set cls) then serve m
  else
    let (m, way) := getWay fx (ctlOf m a).retain false set m
    match way with
    | none => if isRead a.op && (victimOf (ctlOf m a).retain m set).isNone then serve m else (m, noWay (ctlOf m a).retain m set)
    | some way =>
      let s := kslot m w.keyslot
      let t : Tag :=
        { Tag.free with
          tag := tagOf a.line, v := 0xF, d := if kept then 0 else 0xF, z := w.zero, keyslot := w.keyslot, keyv := w.keyv,
          kgen := w.keyv && s.cur, fmt := w.fmt, cls := w.cls, ret := retOf a.op, poison := w.poison }
      let m := installWay set way t w.data m
      let m := if kept then m else dropWrite w.index m
      hitPart fx a way m

/-- The array's part of an access whose directory check is over: tags, slipway, tickets. `sparse` says what the format map
gives for a line that is not cached. -/
def arrayPart (fx : Fixed) (a : Access) (sparse : Bool) (m : Mach) : Mach × Got :=
  let m := scanSet fx (setOf a.line) m
  match hitWay m a.line with
  | some way =>
    (match (ticketFor m a.line).filter joinable with
     | some t => if t.waiters = [] && (needSect a &&& ~~~(tagAt m (setOf a.line) way).v) = 0 then hitPart fx a way m else joinTicket a t m
     | none =>
       match m.sparse.fills.find? (·.line = a.line) with
       | some _ => sparseMiss fx a (some way) m
       | none => hitPart fx a way m)
  | none =>
    if m.cache.writes.any (fun w => isMerge w.after && w.line = a.line) then (m, .wait) else
    match slipOf m a.line with
    | some w => slipPart fx a w m
    | none => if sparse then sparseMiss fx a none m else missPart fx a m

/-! ### What an access meets first -/

/-- The key rule of 14 R369 for a context: it may read (`wr` false) or write a line under a slot. -/
def mayReach (m : Mach) (c : Ctx) (k : BitVec 9) (wr : Bool) : Bool :=
  let e := ctxOf m c
  let s := kslot m k
  (e.opened && e.keyv && decide (e.keyslot = k) && slotHolds s) ||
  (decide (s.kind = 2) && m.keys.grants.any fun g => g.slot = k && g.ctx = c && g.gen = e.gen && (g.load || !wr))

/-- The slot under which an access meets a line: its tag's on a hit, a range's on a miss (14 R369). -/
def slotUnder (r : Option KRange) (m : Mach) (l : LineNo) : Option (BitVec 9) :=
  match hitWay m l with
  | some w => if (tagAt m (setOf l) w).keyv then some (tagAt m (setOf l) w).keyslot else none
  | none => r.map (·.keyslot)

/-- The slot under which a line is met now. -/
def slotMet (m : Mach) (l : LineNo) : Option (BitVec 9) := slotUnder (rangeOf m l) m l

/-- A context is barred from a line met under a slot. -/
def barred (m : Mach) (c : Ctx) (wr : Bool) (k : Option (BitVec 9)) : Bool :=
  match k with | some k => !mayReach m c k wr | none => false

/-- The line belongs to a sparse page: by its tag on a hit, by the format map on a miss. -/
def sparseMet (fx : Fixed) (l : LineNo) (m : Mach) : Fmap :=
  match hitWay m l with
  | some w => if (tagAt m (setOf l) w).fmt ≠ 0 then .sparse m else .dense m
  | none => fmapLook fx (granOf l) m

/-- A read of a word of the format map through the cache, as a plain line (09 R267, R269). -/
def fetchMap (fx : Fixed) (w : Nat) (m : Mach) : Mach :=
  let l := mapLine fx (w * 64)
  if (ticketFor m l).isSome then m else (arrayPart fx { placed m (ownRead (.mapWord w) .read l) with range := none } false m).1

/-- The page of a line is locked by a pack or an unpack that an access came after (09 R276); a writeback that answers the recall
of a host copy belongs to the step. -/
def lockedOut (m : Mach) (a : Access) : Bool :=
  !unordered a.src && !a.cross && decide (m.sparse.locked = some (BitVec.ofNat 23 (granOf a.line))) && decide (m.sparse.lockOrd < a.ord)

/-- A write-class access. -/
def isWrite (o : AccOp) : Bool :=
  o = .write || o = .writeThru || o = .atom || o = .atomRet || o = .lred || o = .scatter || o = .hostWrite

/-- Accesses that the slice makes for a ring, an event or dump record, or a view: they are answered as requests are (03 R72,
18 R459, R461, 19 R475). -/
def asRequest (s : Src) : Bool :=
  match s with | .ring _ | .reply _ | .event | .dump | .view _ => true | _ => false

/-- An access that a command makes. -/
def isCmd (s : Src) : Bool := match s with | .cmd _ => true | _ => false

/-- The context and key rules such an access meets: a ring's under the ring's context, records under none, a view's under the
context that reads it. -/
def asStop (m : Mach) (a : Access) : Option (BitVec 4) :=
  let k := slotUnder a.range m a.line
  let ring := fun (r : Ring) (p : Nat) =>
    let e := ctxOf m r.ctx
    if !(e.opened && !e.purged && e.gen = r.gen) then some stStale
    else if e.suspended || e.frozen || e.lost then some stRetry
    else if !(e.perm.getLsbD p) || barred m r.ctx (isWrite a.op) k then some stDenied else none
  match a.src with
  | .ring f => ring (if f then m.ringF else m.ringH) (permBit opRD)
  | .reply f => ring (if f then m.ringF else m.ringH) (permBit opWR)
  | .event | .dump => if k.isSome then some stDenied else none
  | .view c => if barred m c (isWrite a.op) k then some stDenied else none
  | _ => none

/-! ### Prefetch (04 R132, 09 R270) -/

/-- A prefetch is dropped, and counted. -/
def dropPrefetch (a : Access) (m : Mach) : Mach :=
  match a.src with | .prefetch _ (some r) => countR 0x019 r m | _ => count 0x019 m

/-- Tickets that a prefetch may take: after the last of n more are free than its CACHE_CTL reserves (04 R114, R143). -/
def pfRoom (m : Mach) (a : Access) (n : Nat) : Bool := decide (8 * (ctlOf m a).pfReserve.toNat + n ≤ ticketsFree m)

/-- Packed lines that the fill of a line of a sparse page would have to read anew, once its header is known. -/
def packedNew (m : Mach) (l : LineNo) : Nat :=
  match hcacheGet m (granOf l) with
  | none => 1
  | some h => ((physLines h l (~~~pageZero h l) 0).filter fun p => (ticketFor m p).isNone).length

/-- A prefetch of one line: dropped when the line is valid, being filled, in the slipway or held by a host, when its requester
may not reach it, or when too few tickets are free; it waits for what a read would wait for (04 R132; 14 R369; log 22). -/
def tryPrefetch (fx : Fixed) (a : Access) (m : Mach) : Mach × Got × Access :=
  let l := a.line
  let set := setOf l
  let (m, ok) := needDoms [dTag (quadOf l), dDir (quadOf l)] m
  if !ok then (m, .waitThaw, a) else
  let m := scanDir fx l (scanSet fx set m)
  let keyed := match a.src with | .prefetch _ (some r) => barred m r.ctx false (slotUnder a.range m l) | _ => false
  if (hitWay m l).isSome || (ticketFor m l).isSome || (m.sparse.fills.any (·.line = l)) ||
      m.cache.writes.any (fun w => w.line = l && (w.slip || isMerge w.after)) || hostHeld m l || keyed ||
      decide (m.sparse.locked = some (BitVec.ofNat 23 (granOf l))) || !pfRoom m a 1 || inMap fx l then (dropPrefetch a m, .done, a)
  else
    let (m, ok) := mapReady fx (granOf l) m
    if !ok then (m, .waitThaw, a) else
    let begun := fun (m : Mach) => if a.counted then m else count 0x04E m
    match fmapLook fx (granOf l) m with
    | .fetch k => (fetchMap fx k m, .wait, a)
    | .sparse m =>
      if !pfRoom m a (packedNew m l) then (dropPrefetch a m, .done, a)
      else
        (match sparseMiss fx { a with counted := true } none m with
         | (m, .done) => (if (m.sparse.fills.any (·.line = l)) then begun m else m, .done, a)
         | (m, g) => (m, g, a))
    | .dense m =>
      (match getWay fx (ctlOf m a).retain true set m with
       | (m, none) => (m, noWay (ctlOf m a).retain m set, a)
       | (m, some w) =>
         match newTicket fx l (.fill (BitVec.ofNat 5 w)) (classOf m a.src) 0 true none a.range [] m with
         | some m => (begun m, .done, a)
         | none => (m, .wait, a))

/-! ### Data-plane requests and engines -/

/-- An access refused: a request is answered, once; an engine's that is no request's waits (03 R481 step 7). -/
def refuseAccess (a : Access) (st : BitVec 4) (ev : Option Nat) (m : Mach) : Mach × Got × Access :=
  match a.src with
  | .dp op r =>
    let m := if a.early then answer r op stPoison m else answer r op st m
    ((match ev with | some e => countR e r m | none => m), .done, a)
  | s => if asRequest s then (report (.fail s a.line st) m, .done, a) else (m, .wait, a)

/-- A request that may still be refused: an acknowledged ATOM may not (06 R181). -/
def refusable (a : Access) : Bool := match a.src with | .dp _ _ => !a.acked | s => asRequest s

/-- The halves of a line that an access names (11 R317). -/
def halvesNamed (a : Access) : List Bool := halvesOf (if a.op = .atom ∨ a.op = .atomRet then touchedSect a.bytes else a.sect)

/-- A write that enables no byte (04 R482). -/
def writesNothing (a : Access) : Bool := (a.op = .write || a.op = .writeThru) && decide (a.bytes = 0)

/-- Such a write is performed at its place in the line's order: behind the accesses of its line that wait for a read of it, and a write of it
that is being assembled (04 R118, R482). -/
def emptyPart (a : Access) (m : Mach) : Mach × Got :=
  match m.cache.tickets.find? fun t => t.waiters.any (·.line = a.line) with
  | some t => if waitersUsed m ≥ 4096 then (m, .wait) else (nextPlace (setTicket { t with waiters := t.waiters ++ [a] } m), .done)
  | none =>
    if m.sparse.fills.any fun f => f.line = a.line && !f.waiters.isEmpty then
      (if waitersUsed m ≥ 4096 then (m, .wait)
       else
        let fs := m.sparse.fills.map fun f => if f.line = a.line then { f with waiters := f.waiters ++ [a] } else f
        (nextPlace { m with sparse := { m.sparse with fills := fs } }, .done))
    else if m.cache.writes.any (fun w => isMerge w.after && w.line = a.line) then (m, .wait)
    else (serveWrite a false m, .done)

/-- The directory, then the array (11 R317, R324). -/
def goArray (fx : Fixed) (a : Access) (sparse : Bool) (m : Mach) : Mach × Got × Access :=
  if writesNothing a then (let (m, g) := emptyPart a m; (m, g, a)) else
  match dirGate fx a.line (isWrite a.op) a.snooped (refusable a) (halvesNamed a) m with
  | .go m => let (m, g) := arrayPart fx a sparse m; (m, g, a)
  | .sent m => (m, .waitDir, { a with snooped := true })
  | .wait m => (m, .waitDir, a)
  | .hung => refuseAccess a stRetry none m

/-- A scatter-reduce that a sparse page refuses is counted in its descriptor (09 R283). -/
def noteRefused (a : Access) (m : Mach) : Mach :=
  match a.op, a.src with
  | .scatter, .dp _ r =>
    let i := r.aux.toNat % 256
    setScat i { scatOf m i with refused := satInc (scatOf m i).refused } m
  | _, _ => m

/-- What a counted request meets when it comes to be performed (06 R194). -/
def manifestBars (m : Mach) (a : Access) : Option (BitVec 4) :=
  match a.src with | .dp _ r => if a.acked then none else manifestStop m r | _ => none

/-- A data-plane request or an engine's access tried once at the array island: key rule, page lock, map range, sparse
writes, directory, then the array (03 R481 step 7; 09 R273; 11 R317; 14 R369). -/
def tryDevice (fx : Fixed) (a : Access) (m : Mach) : Mach × Got × Access :=
  let (m, ok) := needDoms [dTag (quadOf a.line), dDir (quadOf a.line)] m
  if !ok then (m, .waitThaw, a) else
  let m := scanDir fx a.line (scanSet fx (setOf a.line) (match a.src with | .dp _ r => scanManifest fx r m | _ => m))
  let wr := isWrite a.op
  let may := refusable a
  if (asStop m a).isSome then (report (.fail a.src a.line ((asStop m a).getD 0)) m, .done, a)
  else if (manifestBars m a).isSome then refuseAccess a ((manifestBars m a).getD 0) none m
  else if lockedOut m a then refuseAccess a stRetry none m
  else if may && inMap fx a.line then refuseAccess a stDenied none m
  else if may && (match a.src with | .dp _ r => barred m r.ctx wr (slotUnder a.range m a.line) | _ => false) then
    refuseAccess a stDenied (some 0x010) m
  else if writesNothing a then (let (m, g) := emptyPart a m; (m, g, a)) else
  let (m, ok) := if (hitWay m a.line).isSome then (m, true) else mapReady fx (granOf a.line) m
  if !ok then (m, .waitThaw, a)
  else match sparseMet fx a.line m with
    | .fetch l => (fetchMap fx l m, .wait, a)
    | .dense m => goArray fx a false m
    | .sparse m =>
      if isCmd a.src && a.op = .writeThru then (report (.fail a.src a.line stSparseRo) m, .done, a)
      else if may && wr then refuseAccess a stSparseRo (some 0x018) (noteRefused a m)
      else goArray fx a true m

/-! ### Host requests -/

/-- What a host request asks of the half first (11 Table COH-5). The table has no row for MemInv or MemInvNT with META MetaField No-Op, which is
also what a disabled agent's becomes (R310): nothing is asked, and it is answered Cmp with the directory unchanged (log 138, DESIGN CHOICE). -/
def hostNeeds (cls msg : BitVec 4) (h : HostMsg) (enabled sparse : Bool) : Option (BitVec 4) :=
  let mv := if enabled then h.mval.toNat else 1
  if cls = 1 then some 2
  else if msg = 7 then none
  else if msg = 2 then (if enabled then some 1 else some 0)
  else if msg = 1 then (if mv = 2 then (if sparse then some 1 else some 2) else if mv = 3 then some 1 else some 0)
  else (if mv = 2 then (if sparse then some 1 else some 2) else if mv = 3 then some 1 else none)

/-- The agent already holds the half as strongly as it asks (11 R314). -/
def holdsAlready (e : DirEnt) (hf : Bool) (x : BitVec 4) (g : Option HalfSt) : Bool :=
  match g with
  | some .a => halfSt e hf = .a && halfOwn e hf = x
  | some .s => (halfSt e hf = .s && e.shr.getLsbD x.toNat) || (halfSt e hf = .a && halfOwn e hf = x)
  | _ => false

/-- Snoops that a host request must send before it is performed, as the directory stands (11 Table COH-5). A BISnpCur that was
answered is not sent again, since its owner keeps the half; nor are the snoops of a shared half, whose other agents have answered: SHR may name
them for the other half still. -/
def hostAsks (m : Mach) (a : Access) (cls msg : BitVec 4) (h : HostMsg) (sp : Bool) : List (Bool × BitVec 4 × BitVec 4) :=
  let e := match dirFind m a.line with | some k => dirEnt m k | none => .free
  let en := m.dir.en.getLsbD h.agent.toNat
  if holdsAlready e (hostHalf h) h.agent (grantOf cls msg h sp en) then []
  else match hostNeeds cls msg h en sp with
    | some kd => if a.snooped && (decide (kd = 0) || decide (halfSt e (hostHalf h) = .s)) then [] else hostSnoops e (hostHalf h) h.agent kd
    | none => []

/-- A request gets the half in S or A. -/
def grants (g : Option HalfSt) : Bool := g = some .a || g = some .s

/-- The answers of an agent whose writeback under META Invalid has come count as none (11 R321). -/
def noteCross (a : Access) (h : HostMsg) (m : Mach) : Mach :=
  let mark := fun (s : Snoop) =>
    if s.line = a.line ∧ s.half = hostHalf h ∧ s.agent = h.agent then { s with taken := s.taken || decide (h.mval = 0) } else s
  { m with dir := { m.dir with snoops := m.dir.snoops.map mark } }

/-- The directory's part of a host request: `done` when it may be performed. A writeback that crosses a snoop is performed at
once (11 R321); others wait for a transient entry, for their snoops, and for a free entry if they need one (R314, R320, R322). -/
def hostGate (fx : Fixed) (a : Access) (cls msg : BitVec 4) (h : HostMsg) (sp : Bool) (m : Mach) : Mach × Got × Access :=
  if a.cross && decide (cls = 1) then (noteCross a h m, .done, a)
  else if dirSetHeld m a.line then (m, .waitDir, a)
  else
    let sn := hostAsks m a cls msg h sp
    match dirFind m a.line with
    | some k =>
      if (dirEnt m k).tr ≠ .stable then (m, .waitDir, a)
      else if sn ≠ [] then (markSnoop k (sendSnoops fx a.line sn m), .waitDir, { a with snooped := true })
      else (m, .done, a)
    | none =>
      if grants (grantOf cls msg h sp (m.dir.en.getLsbD h.agent.toNat)) && !claimedFor m a.line h then
        (match dirRoom fx a.line h m with
         | (m, some _) => (m, .done, a)
         | (m, none) => (m, .waitDir, a))
      else (m, .done, a)

/-- A request let through that has not been performed yet keeps an entry for its grant (11 R320). -/
def keepEntry (a : Access) (g : Option HalfSt) (h : HostMsg) (m : Mach) : Mach :=
  if grants g && (dirFind m a.line).isNone && !m.dir.claims.any (fun x => x.line = a.line) then
    (match dirSpare m a.line with | some k => claim h a.line k m | none => m)
  else m

/-- A host may not reach the line: its range is closed to hosts (14 R370). -/
def hostBarred (m : Mach) (r : Option KRange) : Bool :=
  match r with
  | some r => !(r.host && decide ((kslot m r.keyslot).kind = 1) && !(kslot m r.keyslot).conf)
  | none => false

/-- A host request of CLASS cls tried once at the array island (11 R310, R314, R315, R320 to R323; 14 R370). -/
def tryHost (fx : Fixed) (a : Access) (cls msg : BitVec 4) (h : HostMsg) (m : Mach) : Mach × Got × Access :=
  let (m, ok) := needDoms [dTag (quadOf a.line), dDir (quadOf a.line)] m
  if !ok then (m, .waitThaw, a) else
  let m := scanDir fx a.line (scanSet fx (setOf a.line) m)
  let a := if inMap fx a.line then { a with range := none } else a
  if hostBarred m a.range then (count 0x010 (ndr h 0 stDenied (unclaim h m)), .done, a)
  else if lockedOut m a then (m, .wait, a) else
  let (m, ok) := if (hitWay m a.line).isSome then (m, true) else mapReady fx (granOf a.line) m
  if !ok then (m, .waitThaw, a)
  else match sparseMet fx a.line m with
    | .fetch l => (fetchMap fx l m, .wait, a)
    | x =>
      let (m, sp) := match x with | .sparse m => (m, true) | .dense m => (m, false) | .fetch _ => (m, false)
      if sp && cls = 1 then (ndr h 0 stDenied (logErr fx 0x23 0 (locM a.line) (unclaim h m)), .done, a)
      else match hostGate fx a cls msg h sp m with
        | (m, .done, a) =>
          let (m, g) := arrayPart fx a sp m
          (keepEntry a (grantOf cls msg h sp (m.dir.en.getLsbD h.agent.toNat)) h m, g, a)
        | r => r

/-! ### Trying and parking -/

/-- An access that has its place, tried once: behind an earlier one of its line it waits (04 R118). -/
def tryPlaced (fx : Fixed) (a : Access) (m : Mach) : Mach × Got × Access :=
  if waitsBefore m a then (m, .wait, a) else
  match a.src with
  | .host cls msg h => tryHost fx a cls msg h m
  | .prefetch _ _ => tryPrefetch fx a m
  | _ => tryDevice fx a m

/-- An access tried once. -/
def tryAccess (fx : Fixed) (a : Access) (m : Mach) : Mach × Got × Access := tryPlaced fx (placed m a) m

/-- An access of the slice's own that waits for a thaw is counted once for that wait (13 R353). -/
def noteSlept (g : Got) (a : Access) (m : Mach) : Mach × Access :=
  match g with
  | .waitThaw => if a.slept then (m, a) else (count 0x01E m, { a with slept := true })
  | _ => (m, { a with slept := false })

/-- Replay entries of a quad in use: all, and the reserved ones (04 R118, 11 R323). A waiter of a ticket that has come in is none
(log 12). -/
def replayUsed (m : Mach) (q : Nat) : Nat := (m.cache.replay.filter fun p => decide (quadOf p.acc.line = q) && !p.waiter).length
def reservedUsed (m : Mach) (q : Nat) : Nat := (m.cache.replay.filter fun p => decide (quadOf p.acc.line = q) && p.reserved && !p.waiter).length

/-- A parked entry's place can be had in its quad's queue: 28 ordinary ones, and 4 kept for waits on the directory. -/
def parkRoom (m : Mach) (q : Nat) (dir : Bool) : Option Bool :=
  if dir && decide (reservedUsed m q < 4) then some true
  else if replayUsed m q - reservedUsed m q < 28 then some false
  else none

/-- An access parks in its quad's replay queue; none when it must stay at its landing. A wait for a thaw is counted. -/
def park (a : Access) (dir thaw : Bool) (m : Mach) : Option Mach :=
  match parkRoom m (quadOf a.line) dir with
  | some r =>
    let m := nextPlace (if thaw then count 0x01E m else m)
    some { m with cache := { m.cache with replay := m.cache.replay ++ [{ acc := a, reserved := r, thaw }] } }
  | none => none

/-- A new access from a landing. -/
def submit (fx : Fixed) (a : Access) (m : Mach) : Option Mach :=
  match tryAccess fx a m with
  | (m, .done, _) => some m
  | (m, .wait, a) => park a false false m
  | (m, .waitThaw, a) => park a false true m
  | (m, .waitDir, a) => park a true false m

end Sys2Proof.Machine
end

