-- ==== Sys2Proof/Machine/Returns.lean ====
section
/-! DEFINITION. What comes back from the memory port: fills and their checks, sparse pages expanded, waiters served, write
acknowledgements; and the prefetcher (04_cache.md, 09_sparse_data.md, 15 R395). -/

namespace Sys2Proof.Machine

/-- A parked entry put before the first of its line that comes after it. -/
def insertPark (p : Parked) : List Parked → List Parked
  | [] => [p]
  | q :: t =>
    if q.acc.line = p.acc.line && onMemory q.acc.op && decide (p.acc.ord < q.acc.ord) then p :: q :: t else q :: insertPark p t

/-- A waiter of a ticket that has come in, and that still cannot be performed, waits in its quad's replay queue in its place among
those of its line. One that meets a transient directory entry takes a reserved entry, or an ordinary one (11 R323); another keeps its waiter
record and takes none of the queue's entries (log 12), as does one for which none is free. -/
def repark (a : Access) (dir thaw : Bool) (m : Mach) : Mach :=
  let at_ := if dir then parkRoom m (quadOf a.line) true else none
  { m with cache := { m.cache with
      replay := insertPark { acc := a, reserved := at_.getD dir, thaw, waiter := at_.isNone } m.cache.replay } }

/-- An access put back as its trial left it; a first wait for a thaw is counted. -/
def parkGot (g : Got) (a : Access) (m : Mach) : Mach :=
  match g with
  | .done => m
  | .wait => repark a false false m
  | .waitThaw => repark a false true (count 0x01E m)
  | .waitDir => repark a true false m

/-- A prefetch tried, and kept to be tried again when it must wait. -/
def goPrefetch (fx : Fixed) (a : Access) (m : Mach) : Mach :=
  match tryPrefetch fx a m with
  | (m, .done, _) => m
  | (m, _, a) => askOwn a m

/-- The record of the manifest that an access names looked at (06 R184). -/
def scanFor (fx : Fixed) (a : Access) (m : Mach) : Mach := match a.src with | .dp _ r => scanManifest fx r m | _ => m

/-- An access that waited for a fill is carried on: a device access meets the directory again, a host request its own
rules; one that still cannot be performed goes to the replay queue. -/
def carryOn (fx : Fixed) (a : Access) (sparse : Bool) (m : Mach) : Mach :=
  let a := placed m a
  if waitsBefore m a then repark a false false m else
  match a.src with
  | .host cls msg h =>
    let (m, g, a) := tryHost fx a cls msg h m
    parkGot g a m
  | .prefetch _ _ => goPrefetch fx a m
  | _ =>
    let m := scanFor fx a m
    match manifestBars m a with
    | some st => (refuseAccess a st none m).1
    | none =>
      let (m, g, a) := goArray fx a sparse m
      parkGot g a m

/-- The waiters of a line that is installed nowhere, in order: a read that the directory lets go is served from the line; from the
first access that is no read on, they are carried on, since the line's bytes may be others by then (06 R181). -/
def serveLoose (fx : Fixed) (d : Line) (z : BitVec 4) (poison sparse again : Bool) : Bool → List Access → Mach → Mach
  | _, [], m => m
  | stale, a :: t, m =>
    let a := placed m a
    let go := fun (m : Mach) => serveLoose fx d z poison sparse again stale t m
    let serve := fun (a : Access) (m : Mach) => go (serveRead a d z poison sparse again m)
    if stale || !isRead a.op then serveLoose fx d z poison sparse again true t (carryOn fx a sparse m)
    else if waitsBefore m a then go (repark a false false m)
    else match a.src with
      | .host cls msg h =>
        (match hostGate fx a cls msg h sparse m with
         | (m, .done, a) => serve a m
         | (m, g, a) => go (parkGot g a m))
      | .prefetch _ _ => go m
      | _ =>
        (match dirGate fx a.line false a.snooped (refusable a) (halvesNamed a) m with
         | .go m => serve a m
         | .sent m => go (repark { a with snooped := true } true false m)
         | .wait m => go (repark a true false m)
         | .hung => go (refuseAccess a stRetry none m).1)

/-- A waiter of an installed line: performed at once when the directory allows it and its line has all it needs. -/
def serveWaiter (fx : Fixed) (sparse again : Bool) (m : Mach) (a : Access) : Mach :=
  let a := placed m a
  let m := scanFor fx a m
  match a.src, hitWay m a.line with
  | .dp _ _, some w =>
    if waitsBefore m a then repark a false false m
    else if writesNothing a ∨ needSect a &&& ~~~(tagAt m (setOf a.line) w).v ≠ 0 ∨ (a.op = .writeThru ∧ !writeRoom m) ∨ (manifestBars m a).isSome then
      carryOn fx a sparse m
    else
      (match dirGate fx a.line (isWrite a.op) a.snooped (refusable a) (halvesNamed a) m with
       | .go m => perform fx a (setOf a.line) w again m
       | .sent m => repark { a with snooped := true } true false m
       | .wait m => repark a true false m
       | .hung => (refuseAccess a stRetry none m).1)
  | _, _ => carryOn fx a sparse m

/-- Early parts of the waiters of a ticket (04 R110, R117), from the line's bytes as they arrive; a read behind a waiting
access that is no read, or behind a host's, which may take the half away, gets its early part at its own turn, so that it shows what was
performed before it (10 R289, R290; DEDUCED, log 38). -/
def sendEarlies (d : Line) (z : BitVec 4) (behind : Bool) : List Access → Mach → Mach × List Access
  | [], m => (m, [])
  | a :: t, m =>
    let go := !behind && isRead a.op && !a.early && (match a.src with | .dp _ _ => decide (a.sect ≠ oneSect a.crit) | _ => false)
    let m := if go then sendEarly a d z m else m
    let (m, t) := sendEarlies d z (behind || !isRead a.op || decide (a.op = .hostRead)) t m
    (m, (if go then { a with early := true } else a) :: t)

/-- A failed read is issued again on its ticket, ahead of every other read of its class: as urgent as the most urgent of them, and
older than all (15 R395). -/
def reissue (fx : Fixed) (t : Ticket) (m : Mach) : Mach :=
  let due := ((m.cache.tickets.filter fun u => u.cls = t.cls && !u.issued).map (·.due)).foldl sooner t.due
  pump fx (setTicket { t with issued := false, attempts := t.attempts + 1, due, seq := 0 } m)

/-- Sectors put into a way from a fill: those whose ZERO bit is set are not written to the data array (09 R262). -/
def putFill (set way : Nat) (d : Line) (fill z : BitVec 4) (m : Mach) : Mach :=
  setData set way (mergeSect (rawData m set way) d (fill &&& ~~~z)) (clearWords set way fill m)

/-- The tag fields that a fill brings: KEYSLOT, KGEN and FMT of the line, CLS of the request that took the ticket (04 R115). -/
def filledTag (base : Tag) (r : Option KRange) (kgen : Bool) (fmt : BitVec 2) (cls : BitVec 4) : Tag :=
  { base with keyv := r.isSome, keyslot := (r.map (·.keyslot)).getD 0, kgen := kgen, fmt := fmt, cls := cls }

/-- A demand fill touches its way (04 R125). -/
def touchFill (set way : Nat) (demand : Bool) (m : Mach) : Mach :=
  if demand then putSetSt set { setStOf m set with plru := plruTouch way 5 0 (setStOf m set).plru } m else m

/-- A line filled into the way its ticket chose (04 R115): Absent sectors take the fill data, Dirty ones keep theirs. -/
def installFill (set way : Nat) (t : Ticket) (d : Line) (z : BitVec 4) (fmt : BitVec 2) (kgen poison bad : Bool)
    (m : Mach) : Mach :=
  let old := tagAt m set way
  let base : Tag := if old.v = 0 then
      { Tag.free with
        tag := tagOf t.line, pf := t.prefetch, ret := (match t.waiters with | a :: _ => retOf a.op | [] => 0) }
    else old
  let fill := ~~~old.v
  let tag := { filledTag base t.range kgen fmt t.cls with
    v := 0xF, d := if bad then 0xF else old.d, z := old.z ||| (z &&& fill), poison := old.poison || poison }
  let m := setTag set way tag (putFill set way d fill z m)
  touchFill set way (!t.prefetch && (t.waiters.any fun a => a.src ≠ .scrub)) (needDoms [dTag (set % 4), dWay m set way] m).1

/-- A POISON_CLEAR awaits a fill of the line, and hears that the fill failed (15 R412). -/
def clearing (m : Mach) (l : LineNo) : Bool :=
  m.cmds.running.any fun r => match r.prog with | .poison k _ true _ => decide (k = l) | _ => false
def markClear (l : LineNo) (m : Mach) : Mach :=
  { m with cmds := { m.cmds with running := m.cmds.running.map fun r => match r.prog with
      | .poison k was true _ => if k = l then { r with prog := .poison k was true true } else r
      | _ => r } }

/-- A finished ticket's line: `bad` when every attempt failed its check (15 R395). A write being assembled meets its manifest's rules again
before it is performed (06 R188, R194). -/
def finishFill (fx : Fixed) (t : Ticket) (d : Line) (z : BitVec 4) (fmt : BitVec 2) (kgen poison bad : Bool) (m : Mach) :
    Mach :=
  let m := dropTicket t.num m
  let m := if bad then logErr fx 0x21 t.attempts (locM t.line) m
    else if t.attempts > 1 then logErr fx 0x20 t.attempts (locM t.line) m else m
  let again := decide (t.attempts > 1)
  let t := if again then { t with waiters := t.waiters.map fun a => { a with again := true } } else t
  match t.kind with
  | .fill w =>
    let m := if bad && clearing m t.line then
        installFill (setOf t.line) w.toNat t 0 0xF fmt kgen false true (markClear t.line m)
      else installFill (setOf t.line) w.toNat t d z fmt kgen poison bad m
    t.waiters.foldl (serveWaiter fx (fmt ≠ 0) again) m
  | .merge =>
    (match t.waiters with
     | a :: rest =>
       let m := scanFor fx a m
       if (manifestBars m a).isSome then rest.foldl (fun m a => carryOn fx a false m) (refuseAccess a ((manifestBars m a).getD 0) none m).1 else
       let r := t.range
       let w : PWrite :=
         { line := t.line, data := mergeBytes d a.data a.bytes, zero := z &&& ~~~touchedSect a.bytes, fmt := 0,
           keyv := r.isSome, keyslot := (r.map (·.keyslot)).getD 0, poison := poison, cls := t.cls, slip := true,
           issued := false, index := 0, seq := t.born, rewritten := false, after := .merge a, also := [], due := a.due }
       let m := (match a.src with | .dp _ q => countR 0x044 q m | _ => m)
       rest.foldl (fun m a => carryOn fx a false m) ((queueWrite fx w m).getD m)
     | [] => m)
  | _ => serveLoose fx d z poison false again false t.waiters m

/-- A read under a generation without key material (14 R383): nothing is installed and the waiters are answered POISON. -/
def finishErased (fx : Fixed) (t : Ticket) (m : Mach) : Mach :=
  let m := logErr fx 0x24 0 (locM t.line) (dropTicket t.num m)
  t.waiters.foldl (fun m a =>
    match a.src with
    | .dp op r => if a.acked then m else answer r op stPoison m
    | .host _ _ h => if isRead a.op then serveRead a 0 0 true false false m else count 0x051 (ndr h 0 stPoison (unclaim h m))
    | s => report (.read s a.line 0 true) m) m

/-- The header held in a line (09 Table SPARSE-1), none when it fails its check (09 R266). -/
def headerOf (d : Line) : Option Header :=
  let bm : BitVec 128 := d.extractLsb' 0 128
  let n := (d.extractLsb' 128 16).toNat
  if n = pop bm ∧ n ≤ 124 ∧ (d.extractLsb' 144 8).toNat = 1 ∧ d.toNat / 2 ^ 152 = 0 then some ⟨bm, n, false⟩ else none

/-- Early parts that the sectors known so far of a sparse line allow (09 Table SPARSE-3, 04 R110). -/
def fillEarly (f : SFill) (m : Mach) : Mach × SFill :=
  let known := fun (a : Access) => f.gotMask.getLsbD a.crit.toNat && !f.poison
  let (m, ws) := f.waiters.foldl (fun (p : Mach × List Access) a =>
    if known a then
      let (m, l) := sendEarlies f.got (pageZero f.hdr f.line) false [a] p.1
      (m, p.2 ++ l)
    else (p.1, p.2 ++ [a])) (m, [])
  (m, { f with waiters := ws })

/-- A sparse line's fill that has all it needs (09 R270): the line is installed Clean in its way, or served without one. -/
def finishSFill (fx : Fixed) (f : SFill) (m : Mach) : Mach :=
  let m := { m with sparse := { m.sparse with fills := m.sparse.fills.filter (·.line ≠ f.line) } }
  let f := if f.again then { f with waiters := f.waiters.map fun a => { a with again := true } } else f
  let z := pageZero f.hdr f.line
  match f.way with
  | none => serveLoose fx f.got z f.poison true f.again false f.waiters m
  | some w =>
    let set := setOf f.line
    let way := w.toNat
    let old := tagAt m set way
    let demand := f.waiters.filter fun a => !isPrefetch a.src
    let base : Tag := if old.v = 0 then
        { Tag.free with
          tag := tagOf f.line, ret := (match f.waiters with | a :: _ => retOf a.op | [] => 0),
          pf := (match f.waiters with | a :: _ => isPrefetch a.src | [] => false) }
      else old
    let fill := ~~~old.v
    let tag := { filledTag base f.range f.kgen 1 f.cls with v := 0xF, z := old.z ||| (z &&& fill), poison := old.poison || f.poison }
    let m := setTag set way tag (putFill set way f.got fill z m)
    demand.foldl (serveWaiter fx true f.again) (touchFill set way (!tag.pf && (demand.any fun a => a.src ≠ .scrub)) (needDoms [dTag (set % 4), dWay m set way] m).1)

/-- The logical sectors that a physical line of a sparse page holds: (sector, slot) (09 R265). -/
def slotsOf (h : Header) (p : LineNo) : List (Nat × Nat) :=
  let first := 4 * (p.toNat % 32 - 1)
  (List.range 128).filterMap fun s =>
    if h.bitmap.getLsbD s && decide (first ≤ rankBelow h s) && decide (rankBelow h s < first + 4) then
      some (s, rankBelow h s - first) else none

/-- A slot that must wait for a bank or a victim (09 R271): R132 does not drop it. -/
def holdSlot (h : Header) (x : PackedIn) (sj : Nat × Nat) (m : Mach) : Mach :=
  { m with sparse := { m.sparse with slots := m.sparse.slots ++ [(h, x, sj)] } }

/-- One slot of a packed line goes to its logical line (09 R271, 15 R397). -/
def placeSlot (fx : Fixed) (h : Header) (x : PackedIn) (sj : Nat × Nat) (m : Mach) : Mach :=
  let p := x.t.line
  let l : LineNo := BitVec.ofNat 28 (p.toNat / 32 * 32 + sj.1 / 4)
  let i := sj.1 % 4
  let one : BitVec 4 := (1 : BitVec 4) <<< i
  let data : Line := BitVec.ofNat 1024 ((sector x.data sj.2).toNat * 2 ^ (256 * i))
  if m.sparse.fills.any (·.line = l) then
    let put := fun (f : SFill) =>
      if f.line = l then
        { f with
          got := mergeSect f.got data one, gotMask := f.gotMask ||| one, kgen := x.kgen
          poison := f.poison || (x.poison && p ∈ f.need) }
      else f
    { m with sparse := { m.sparse with fills := m.sparse.fills.map put } }
  else match hitWay m l with
    | some w =>
      let t := tagAt m (setOf l) w
      if t.v.getLsbD i then (if x.poison then setTag (setOf l) w { t with poison := true } m else m)
      else
        let (m, ok) := needDoms [dTag (quadOf l), dWay m (setOf l) w] m
        if !ok then holdSlot h x sj m
        else setTag (setOf l) w { t with v := t.v ||| one, poison := t.poison || x.poison } (putFill (setOf l) w data one 0 m)
    | none =>
      if x.poison then m
      else if (ticketFor m l).any joinable || m.cache.writes.any (fun w => w.line = l && (w.slip || isMerge w.after)) || hostHeld m l ||
          decide (ticketsFree m ≤ 8 * x.t.ctl.pfReserve.toNat) then count 0x019 m
      else
        match getWay fx x.t.ctl.retain false (setOf l) m with
        | (m, none) => holdSlot h x sj m
        | (m, some w) =>
          let z := pageZero h l
          let t := { filledTag Tag.free x.t.range x.kgen 1 x.t.cls with tag := tagOf l, v := one ||| z, z := z, pf := true, ret := 1 }
          count 0x04E (setTag (setOf l) w t (putFill (setOf l) w data one 0 (clearWords (setOf l) w 0xF m)))

/-- The slots of a packed line go to their logical lines. -/
def expand (fx : Fixed) (h : Header) (x : PackedIn) (m : Mach) : Mach := (slotsOf h x.t.line).foldl (fun m sj => placeSlot fx h x sj m) m

/-- The slots that wait tried again. -/
def pumpSlots (fx : Fixed) (m : Mach) : Mach :=
  m.sparse.slots.foldl (fun m s => placeSlot fx s.1 s.2.1 s.2.2 m) { m with sparse := { m.sparse with slots := [] } }

/-- The header of a line's page read for nobody in particular. -/
def readHeader (fx : Fixed) (l : LineNo) (m : Mach) : Mach :=
  let hl : LineNo := BitVec.ofNat 28 (granOf l * 32)
  if (ticketFor m hl).isSome then m else (newTicket fx hl .header m.regs.maintTc 0 false none (rangeAt fx m hl) [] m).getD m

/-- The packed lines of a page that failed before its header was known make their logical lines poisoned (15 R397). -/
def failPacked (fx : Fixed) (g : Nat) (h : Header) (m : Mach) : Mach :=
  let now := m.sparse.failed.filter fun x => granOf x.t.line = g
  let m := { m with sparse := { m.sparse with failed := m.sparse.failed.filter fun x => granOf x.t.line ≠ g } }
  if h.poison then m else now.foldl (fun m x => expand fx h x m) m

/-- A page's header is known; its waiters go on (09 R270). -/
def finishHeader (fx : Fixed) (t : Ticket) (h : Header) (bad : Bool) (m : Mach) : Mach :=
  let m := dropTicket t.num m
  let m := if bad then logErr fx 0x22 t.attempts (locM t.line) m
    else if t.attempts > 1 then logErr fx 0x20 t.attempts (locM t.line) m else m
  t.waiters.foldl (fun m a => carryOn fx a true m) (failPacked fx (granOf t.line) h (hcachePut (granOf t.line) h m))

/-- A packed line has arrived: it is expanded in full, and the fills that it completes are served (09 R270, R271). -/
def finishPacked (fx : Fixed) (x : PackedIn) (bad : Bool) (m : Mach) : Mach :=
  let t := x.t
  let m := dropTicket t.num m
  let m := if bad then logErr fx 0x22 t.attempts (locM t.line) m
    else if t.attempts > 1 then logErr fx 0x20 t.attempts (locM t.line) m else m
  let hdr := ((m.sparse.fills.find? fun f => t.line ∈ f.need).map (·.hdr)).or (hcacheGet m (granOf t.line))
  match hdr with
  | none => if x.poison then readHeader fx t.line { m with sparse := { m.sparse with failed := m.sparse.failed ++ [x] } } else m
  | some h =>
    let m := expand fx h x m
    let (m, fs) := m.sparse.fills.foldl (fun (p : Mach × List SFill) f =>
      if t.line ∈ f.need then
        let (m, f) := fillEarly { f with need := f.need.filter (· ≠ t.line), again := f.again || decide (t.attempts > 1) } p.1
        (m, p.2 ++ [f])
      else (p.1, p.2 ++ [f])) (m, [])
    let m := { m with sparse := { m.sparse with fills := fs } }
    (fs.filter (·.need = [])).foldl (fun m f => finishSFill fx f m) m

/-- A packed line whose generation holds no key material: the fills that need it end POISON. -/
def erasedPacked (fx : Fixed) (t : Ticket) (m : Mach) : Mach :=
  let m := logErr fx 0x24 0 (locM t.line) (dropTicket t.num m)
  let hit := m.sparse.fills.filter fun f => t.line ∈ f.need
  hit.foldl (fun m f =>
    let m := { m with sparse := { m.sparse with fills := m.sparse.fills.filter (·.line ≠ f.line) } }
    f.waiters.foldl (fun m a => serveRead a 0 0 true true false m) m) m

/-- FORMAT that a line's page gives it, for a ticket of each kind (09 R265, R266). -/
def ticketFmt (k : TKind) : BitVec 2 := match k with | .header => 2 | .packed => 1 | .sweep f => f | .memScrub f => f | _ => 0

/-- The read of a ticket that serves accesses has returned; one under a key that is being loaded again is read again after that
(15 R401). -/
def portReturn (fx : Fixed) (t : Ticket) (d : Line) (md : Meta) (ue : Bool) (m : Mach) : Mach :=
  match checkLine fx m t.range t.line d md ue (ticketFmt t.kind) with
  | .erased =>
    if t.range.any (fun r => keyReloads m r.keyslot) then pump fx (setTicket { t with issued := false } m)
    else if t.kind = .packed then erasedPacked fx t m
    else if clearing m t.line then finishFill fx t 0 0 0 false true true m
    else finishErased fx t m
  | .good d z f g p =>
    (match t.kind with
     | .header =>
       if p then finishHeader fx t ⟨0, 0, true⟩ false m
       else (match headerOf d with
         | some h => finishHeader fx t h false m
         | none =>
           let m := count 0x020 m
           if t.attempts < 3 then reissue fx t m else finishHeader fx t ⟨0, 0, true⟩ true m)
     | .packed => finishPacked fx ⟨t, d, g, p⟩ false m
     | _ =>
       let have_ := match t.kind with | .fill w => tagAt m (setOf t.line) w.toNat | _ => .free
       let shown := match t.kind with
         | .fill w => mergeSect d (wayData m (setOf t.line) w.toNat) have_.v
         | _ => d
       let (m, ws) := sendEarlies shown ((z &&& ~~~have_.v) ||| have_.z) false t.waiters m
       finishFill fx { t with waiters := ws } d z f g p false m)
  | .mismatch d =>
    let m := count 0x020 m
    (match t.kind with
     | .header => if t.attempts < 3 then reissue fx t m else finishHeader fx t ⟨0, 0, true⟩ true m
     | .packed => if t.attempts < 3 then reissue fx t m else finishPacked fx ⟨t, d, false, true⟩ true m
     | _ =>
       let (m, ws) := sendEarlies d 0 false t.waiters m
       let t := { t with waiters := ws }
       if t.attempts < 3 then reissue fx t m else finishFill fx t d 0 0 false true true m)

/-- A write-through write is acknowledged to its requester (04 Table CACHE-6, 06 R195). -/
def finishThru (a : Access) (m : Mach) : Mach :=
  match a.src with
  | .dp op r => answerOk r op m
  | s => report (.write s a.line) m

/-- The memory controller acknowledges a write (02 R51, 04 R121, R128). -/
def portAck (fx : Fixed) (w : PWrite) (m : Mach) : Mach :=
  let m := dropWrite w.index m
  let m := w.also.foldl (fun m id => report (.ack (.cmd id) w.line) m) m
  let m := (match w.after with
    | .thruHit set way a =>
      let t := tagAt m set.toNat way.toNat
      let m := if !w.rewritten && decide (t.v ≠ 0) && decide (lineOf set.toNat t.tag = w.line) then
          setTag set.toNat way.toNat { t with d := 0 } m else m
      finishThru a m
    | .thruMiss a => finishThru a m
    | .merge a => finishThru a m
    | .slip => m
    | .none => m
    | x => report (.ack x w.line) m)
  pump fx (payOwed fx m)

/-! ### Prefetch (04 R131 to R135) -/

/-- A tracker put first in order of use, the least recently used of 64 dropped. -/
def putTracker (t : Tracker) (m : Mach) : Mach :=
  let same := fun (u : Tracker) => decide (u.source = t.source ∧ u.stream = t.stream ∧ u.granule = t.granule)
  { m with cache := { m.cache with trackers := (t :: m.cache.trackers.filter (!same ·)).take 64 } }

/-- Stream label of a read's AUX. -/
def streamOf (r : Req) : BitVec 8 := r.aux.extractLsb' 8 8

/-- The address of a granule's first line moved by whole granules, in the form of the request; none where it leaves the
form's range (04 R133). -/
def stepGranule (a : W64) (fwd : Bool) (line : Nat) : Option W64 :=
  let w := if bit a 47 then 35 else 42
  let low := (a.toNat % 2 ^ w) / 4096
  let high := a.toNat / 2 ^ w * 2 ^ w
  if fwd then (if low + 1 < 2 ^ (w - 12) then some (BitVec.ofNat 64 (high + (low + 1) * 4096 + line * 128)) else none)
  else (if 0 < low then some (BitVec.ofNat 64 (high + (low - 1) * 4096 + line * 128)) else none)

/-- A prefetch of one line begun, under what the request that caused it keeps of its acceptance (04 R132, R143). -/
def prefetchLine (fx : Fixed) (l : LineNo) (cls : BitVec 4) (r : Option Req) (t : Taken) (m : Mach) : Mach :=
  goPrefetch fx (placed m { ownRead (.prefetch cls r) .read l with counted := false, ctl := some t }) m

/-- Lines prefetched from a first line of a granule: `n` of them, a stride apart. -/
def prefetchRun (fx : Fixed) (gran : Nat) (cls : BitVec 4) (r : Option Req) (t : Taken) (stride : Int) : Nat → Int → Mach → Mach
  | 0, _, m => m
  | n + 1, k, m =>
    prefetchRun fx gran cls r t stride n (k + stride)
      (if 0 ≤ k ∧ k ≤ 31 then prefetchLine fx (BitVec.ofNat 28 (gran * 32 + k.toNat)) cls r t m else m)

/-- A hint carried out: its lines prefetched and the tracker seeded (04 R135). -/
def runHint (fx : Fixed) (r : Req) (off : BitVec 35) (t : Taken) (m : Mach) : Mach :=
  let first : Int := ((off.toNat / 128 % 32 : Nat) : Int)
  let gran := off.toNat / 4096
  let n := (r.aux.extractLsb' 6 2).toNat + 1
  let stride := (r.aux.extractLsb' 0 6).toInt
  let m := prefetchRun fx gran r.tc (some r) t stride n first m
  putTracker { source := r.source, stream := streamOf r, granule := BitVec.ofNat 23 gran, last := first - stride, stride,
               conf := 2, ahead := some (first + stride * (n - 1 : Nat)), hinted := false } m

/-- A hint for the neighbouring granule: handled here when this slice homes it, and else sent to its home by the hint map
(04 R133, R134). The checks that R135 makes of an accepted PF_HINT are not made of one handled here, whose read passed its own; its
prefetches meet the key rule like any other (log 116, DESIGN CHOICE). -/
def sendHint (fx : Fixed) (r : Req) (c : Taken) (k stride : Int) (count_ : Nat) (m : Mach) : Mach :=
  if !m.regs.hintEn then m else
  match stepGranule r.address (decide (0 ≤ k)) (k % 32).toNat with
  | none => m
  | some a =>
    let aux : BitVec 16 := BitVec.ofNat 16 ((streamOf r).toNat * 256 + (count_ - 1) % 4 * 64 + (stride % 64).toNat)
    let h : Req :=
      { stop := if bit a 7 then .south else .north, vc := .vc2, env := 0, subop := 0, ctx := r.ctx, gen := r.gen, tc := r.tc,
        deadline := 0, scope := 0, mv := false, manifest := 0, source := r.source, tag := 0, sect := 0xF, maskmode := 0,
        rsvd := 0, plen := 0, aux, address := a, bmask := 0, payload := [] }
    let home := if bit a 47 then BitVec.ofNat 7 (fld a 46 40) else tget 0 m.regs.hintBucket (bucketOf a)
    if ownLogical m home.toNat then
      (match memHomeLow m a with | .at off => runHint fx h off c m | _ => m)
    else sendSlot (.request ((tget 0 m.regs.hintSite home.toNat).zeroExtend 16) h.stop opPFHINT h) m

/-- The prefetch loop of 04 R131, from line k on. With a stride of 0, which a PF_HINT may seed, R131 gives the loop no end: it ends after
n turns (log 115, DESIGN CHOICE). -/
def trainRun (fx : Fixed) (r : Req) (c : Taken) (gran : Nat) (lim : Int) : Nat → Int → Tracker → Mach → Mach × Tracker
  | 0, _, t, m => (m, t)
  | n + 1, k, t, m =>
    if (if 0 < t.stride then decide (k ≤ lim) else decide (lim ≤ k)) then
      if 0 ≤ k ∧ k ≤ 31 then
        trainRun fx r c gran lim n (k + t.stride) { t with ahead := some k }
          (prefetchLine fx (BitVec.ofNat 28 (gran * 32 + k.toNat)) r.tc (some r) c m)
      else if !t.hinted && c.pfHintEn then
        trainRun fx r c gran lim n (k + t.stride) { t with hinted := true, ahead := some k }
          (sendHint fx r c k t.stride (((lim - k).tdiv t.stride).toNat + 1) m)
      else trainRun fx r c gran lim n (k + t.stride) t m
    else (m, t)

/-- A demand read with PFE = 1 trains a tracker, under CACHE_CTL as it stood at the read's acceptance (04 R131, R143). -/
def train (fx : Fixed) (r : Req) (c : Taken) (off : BitVec 35) (m : Mach) : Mach :=
  if !c.pfEn || !r.aux.getLsbD 7 then m else
  let l : Int := ((off.toNat / 128 % 32 : Nat) : Int)
  let gran := off.toNat / 4096
  match m.cache.trackers.find? fun t => t.source = r.source && t.stream = streamOf r && t.granule = BitVec.ofNat 23 gran with
  | none =>
    putTracker { source := r.source, stream := streamOf r, granule := BitVec.ofNat 23 gran, last := l, stride := 0, conf := 0,
                 ahead := none, hinted := false } m
  | some t =>
    let d := l - t.last
    let t := if d = t.stride ∧ d ≠ 0 then { t with conf := min (t.conf + 1) 3 }
      else if d ≠ 0 ∧ -31 ≤ d ∧ d ≤ 31 then { t with stride := d, conf := 0 } else t
    let t := { t with last := l }
    if t.conf ≥ 2 then
      let t := if t.conf = 2 ∧ t.ahead = none then { t with ahead := some l } else t
      match t.ahead with
      | none => putTracker t m
      | some a =>
        let (m, t) := trainRun fx r c gran (l + (c.pfDegree.toNat + 1 : Nat) * t.stride) 256 (a + t.stride) t m
        putTracker t m
    else putTracker t m

end Sys2Proof.Machine
end

