-- ==== Sys2Proof/Machine/Memory.lean ====
section
/-! DEFINITION. The data-plane requests on memory space: their fields, their own checks, and the access each makes
(04_cache.md, 06_atomics_and_sync.md R175 to R182, 08 R257 to R259, 09 R279 to R284). -/

namespace Sys2Proof.Machine

/-- The payload words fit in some bytes: bits beyond them are zero. -/
def fitsBytes (ws : List W64) (n : Nat) : Bool := decide (catWords ws < 2 ^ (8 * n))

/-- Fields of a read (02 R43, 04 R112); RD_VOL takes SUBOP 0 and 1 (10 R295). -/
def rdFields (op : BitVec 6) (r : Req) : Bool :=
  readFields r && decide (r.subop.toNat ≤ b2n (op = opRDVOL)) && decide (r.aux.toNat % 128 = 0)

/-- Fields of WR and WR_THRU. -/
def wrFields (r : Req) : Bool := writeFields r

/-- Fields of WR_FULL (04 R120). -/
def fullFields (r : Req) : Bool := writeFields r && decide (r.sect = 0xF)

/-- An atomic's operation and type match (06 Table SYNC-1). -/
def atomPair (r : Req) : Bool :=
  let ty := r.aux.toNat % 16
  if r.subop.toNat ≤ 9 then decide (ty ≤ 2) else decide (r.subop = 10) && decide (4 ≤ ty ∧ ty ≤ 6)

/-- Fields of ATOM and ATOM_RET (06 R175 to R177). -/
def atomFields (r : Req) : Bool :=
  let n := atomSize (r.aux.toNat % 16)
  let per := if n = 16 then 2 else 1
  decide (r.sect = 0) && decide (r.aux.toNat / 16 = 0) && atomPair r && decide (r.address.toNat % n = 0) &&
  decide (r.plen.toNat = per * (if r.subop = 9 then 2 else 1)) &&
  (if n = 16 then true else r.payload.all fun w => decide (w.toNat < 2 ^ (8 * n)))

/-- Fields of LRED (08 R257). -/
def lredFields (r : Req) : Bool :=
  let tgt := r.aux.toNat / 16 % 16
  let inc := r.aux.toNat % 16
  let pair := (tgt = 0 ∧ inc ≤ 4) ∨ (tgt = 1 ∧ 9 ≤ inc ∧ inc ≤ 11) ∨ (tgt = 2 ∧ 8 ≤ inc ∧ inc ≤ 11)
  let sub := if tgt = 0 then r.subop.toNat ≤ 2 else (3 ≤ r.subop.toNat ∧ r.subop.toNat ≤ 7)
  let bytes := pop r.sect * (if tgt = 2 then 4 else 8) * inBytes inc
  decide (r.sect ≠ 0) && decide (r.address.toNat % 128 = 0) && decide (r.aux.toNat / 256 = 0) && decide pair &&
  decide sub && decide (r.plen.toNat = (bytes + 7) / 8) && fitsBytes r.payload bytes

/-- Fields of SCATTER_RED (09 R281). -/
def scatFields (r : Req) : Bool :=
  let bytes := pop r.sect * 8 * inBytes r.subop.toNat
  decide (r.sect ≠ 0) && decide (r.address.toNat % 128 = 0) && decide (r.subop.toNat ≤ 4) &&
  decide (r.plen.toNat = bytes / 8) && fitsBytes r.payload bytes

/-- Fields of PF_HINT (04 R134): STRIDE is not −32 and the lines stay in the granule. -/
def hintFields (r : Req) : Bool :=
  let stride := (r.aux.extractLsb' 0 6).toInt
  let n : Int := ((r.aux.extractLsb' 6 2).toNat : Int)
  let first : Int := ((fld r.address 11 7 : Nat) : Int)
  decide (r.sect = 0xF) && decide (r.plen = 0) && decide (r.tag = 0) && decide (r.deadline = 0) && decide (r.scope = 0) &&
  decide (r.subop = 0) && decide (r.address.toNat % 128 = 0) && decide (stride ≠ -32) &&
  decide (0 ≤ first + n * stride ∧ first + n * stride ≤ 31)

/-- The fields of a memory request by opcode. -/
def memFields (op : BitVec 6) (r : Req) : Bool :=
  commonFields op r &&
  (if op = opRD ∨ op = opRDVOL ∨ op = opRDSTREAM then rdFields op r
   else if op = opWR ∨ op = opWRTHRU then wrFields r
   else if op = opWRFULL then fullFields r
   else if op = opATOM ∨ op = opATOMRET then atomFields r
   else if op = opLRED then lredFields r
   else if op = opSCATTER then scatFields r
   else hintFields r)

/-- The access a memory request makes to its line. -/
def memAccess (op : BitVec 6) (r : Req) (off : BitVec 35) : Access :=
  let base : Access :=
    { op := .read, src := .dp op r, line := lineOfOff off, sect := r.sect, crit := off.extractLsb' 5 2, bytes := 0, data := 0,
      early := false, acked := false, snooped := false, counted := false }
  if op = opRD then base
  else if op = opRDVOL then { base with op := .readVol }
  else if op = opRDSTREAM then { base with op := .readStream }
  else if op = opWR ∨ op = opWRTHRU ∨ op = opWRFULL then
    let b := if r.maskmode = 1 then r.bmask else sectMask r.sect
    { base with op := if op = opWRTHRU then .writeThru else .write, bytes := b, data := placeSect r.payload r.sect }
  else if op = opATOM ∨ op = opATOMRET then
    let b := spanMask (off.toNat % 128) (atomSize (r.aux.toNat % 16))
    { base with op := if op = opATOM then .atom else .atomRet, bytes := b, sect := touchedSect b }
  else if op = opLRED then { base with op := .lred, bytes := sectMask r.sect }
  else { base with op := .scatter, bytes := sectMask r.sect }

/-- Line index of a scatter-reduce in its table, as an exact difference (09 R282). -/
def scatIndex (t a : W64) : Int :=
  let n := if bit t 47 then 34 else 41
  ((fld a n 0 : Nat) : Int) - ((fld t n 0 : Nat) : Int)

/-- The first three checks of 09 R282: the status of a refusal. -/
def scatCheck (m : Mach) (r : Req) : Option (BitVec 4) :=
  let s := scatOf m (r.aux.toNat % 256)
  let gen : Gen := r.aux.extractLsb' 8 8
  let q := scatIndex s.table r.address / 128
  let span : Int := ((s.rows.toNat * s.stride.toNat : Nat) : Int)
  if !s.valid || s.gen ≠ gen then some stStale
  else if s.ctx ≠ r.ctx || s.cgen ≠ r.gen then some stDenied
  else if fld r.address 63 48 ≠ fld s.table 63 48 || bit r.address 47 ≠ bit s.table 47 ||
      (bit s.table 47 && fld r.address 46 40 ≠ fld s.table 46 40) || decide (scatIndex s.table r.address < 0) ||
      decide (q ≥ span) || decide (q % (s.stride.toNat : Int) ≥ (s.rowlines.toNat : Int)) then some stDenied
  else none

/-- A memory read may train the prefetcher: nothing at the array island refuses it. -/
def mayTrain (fx : Fixed) (m : Mach) (r : Req) (l : LineNo) : Bool :=
  !inMap fx l && decide (m.sparse.locked ≠ some (BitVec.ofNat 23 (granOf l))) && !barred m r.ctx false (slotMet m l)

/-- A memory request at the head of its landing: checked, and given to the array island. None: it stays there. `t` is what it kept of its
acceptance, if it has stayed there before (04 R143, 12 R332). -/
def serveMem (fx : Fixed) (op : BitVec 6) (r : Req) (t : Option Taken) (m : Mach) : Option Mach :=
  let home := memHome fx m r.address
  match gate op r (ownMem home) (memFields op r) true m with
  | .stop m => some m
  | .pass =>
    let m := scanManifest fx r m
    match manifestStop m r, home with
    | some st, _ => some (answer r op st m)
    | none, .at off =>
      if op = opSCATTER ∧ (scatCheck m r).isSome then
        let i := r.aux.toNat % 256
        some (answer r op ((scatCheck m r).getD 0) (setScat i { scatOf m i with refused := satInc (scatOf m i).refused } m))
      else
        let a := { memAccess op r off with ctl := t }
        let trains := isRead a.op && mayTrain fx m r a.line
        (submit fx a m).map fun m => if trains then train fx r (t.getD (taken m)) off m else m
    | none, _ => some m

/-- A PF_HINT: any failure discards it and counts it (04 R135); a prefetch that its context may not make is dropped as such
(14 R369). -/
def serveHint (fx : Fixed) (r : Req) (m : Mach) : Mach :=
  let home := memHome fx m r.address
  match gate opPFHINT r (ownMem home) (memFields opPFHINT r) true m with
  | .stop m => m
  | .pass =>
    match home with
    | .at off => runHint fx r off (taken m) m
    | _ => m

/-- A request with an unassigned opcode: it names no address space, so of the ownership check only PROC applies (log 14);
the field checks answer it DENIED (02 R43, R46). -/
def serveUnassigned (fx : Fixed) (op : BitVec 6) (r : Req) (m : Mach) : Mach :=
  match gate op r (if fld r.address 63 48 = fx.procId.toNat then .ok else .mishomed) false true m with
  | .stop m => m
  | .pass => m

end Sys2Proof.Machine
end

