-- ==== Sys2Proof/Machine/Berth.lean ====
section
/-! DEFINITION. Berths and ferry queues: granules, translation, berth lines, the choice of granules, queue operations, and
the buddy allocator of arenas (05_berths_and_allocator.md). -/

namespace Sys2Proof.Machine

/-- A berth-table entry. -/
def berthOf (m : Mach) (i : Nat) : Berth := tget .free m.berth.berths i
/-- A berth-table entry replaced. -/
def setBerth (i : Nat) (b : Berth) (m : Mach) : Mach :=
  { m with berth := { m.berth with berths := tset .free m.berth.berths i b } }

/-- A record lost under 15 R400, by LOC form O. -/
def lostObj (m : Mach) (kind index : Nat) : Bool := decide (kind * 16384 + index ∈ m.err.lost)

/-- A handle word (05 Table BERTH-1). -/
def handleOf (kind : Nat) (gen : Gen) (i : Nat) : W64 := BitVec.ofNat 64 (kind * 2 ^ 60 + gen.toNat * 2 ^ 14 + i)
/-- A handle's reserved bits are zero (05 Table BERTH-1, 01 R480). -/
def handleRsvOk (h : W64) : Bool := decide (fld h 63 60 ≤ 3) && decide (fld h 59 22 = 0)
/-- KIND, GEN and INDEX of a handle. -/
def hKind (h : W64) : Nat := fld h 63 60
def hGen (h : W64) : Gen := BitVec.ofNat 8 (fld h 21 14)
def hIdx (h : W64) : Nat := fld h 13 0

/-- Berth, generation and offset of a berth-space address (01 Table ORG-8). -/
def bIdx (a : W64) : Nat := fld a 32 21
def bGen (a : W64) : Gen := BitVec.ofNat 8 (fld a 40 33)
def bOff (a : W64) : Nat := fld a 20 0

/-- The berth-space address of an offset. -/
def berthAddr (fx : Fixed) (m : Mach) (i : Nat) (g : Gen) (off : Nat) : W64 :=
  BitVec.ofNat 64 (fx.procId.toNat * 2 ^ 48 + m.regs.logical.toNat * 2 ^ 41 + g.toNat * 2 ^ 33 + i * 2 ^ 21 + off)

/-- The granule at a map entry: group and way. -/
def granuleAt (m : Mach) (e : Nat) : Nat × Nat := let n := tget 0 m.berth.gmap e - 1; (n / 32, n % 32)

/-- Set and way of a byte of a berth (05 R145). -/
def berthPlace (m : Mach) (b : Berth) (off : Nat) : Nat × Nat :=
  let g := granuleAt m (b.mapbase.toNat + off / 4096)
  (g.1 * 32 + off / 128 % 32, g.2)

/-- Translation of a berth request (05 R153): a status, or set and way. -/
def berthLook (m : Mach) (r : Req) : BitVec 4 ⊕ (Nat × Nat) :=
  let i := bIdx r.address
  let b := berthOf m i
  if lostObj m 1 i then .inl stPoison
  else if !b.valid || b.freeing || b.gen ≠ bGen r.address then .inl stStale
  else if b.ctx ≠ r.ctx then .inl stDenied
  else if bOff r.address / 4096 > b.size.toNat then .inl stDenied
  else if b.moving then .inl stRetry
  else .inr (berthPlace m b (bOff r.address))

/-! ### Berth lines -/

/-- The line key of a berth access: way × 4096 + set. -/
def berthKey (set way : Nat) : LineNo := BitVec.ofNat 28 (way * 4096 + set)

/-- Bytes written into a berth line (05 R146, R147, R154): every touched sector loses Z and is written; POISON goes with a
write of all 128 bytes. -/
def writeBerthWay (set way : Nat) (bytes : BitVec 128) (d : Line) (m : Mach) : Mach :=
  if bytes = 0 then m else
  let t := tagAt m set way
  let s := touchedSect bytes
  let new := mergeBytes (wayData m set way) d bytes
  let keep := mergeSect new (rawData m set way) (t.z &&& ~~~s)
  clearWords set way s (setTag set way { t with z := t.z &&& ~~~s, poison := t.poison && decide (bytes ≠ BitVec.allOnes 128) }
    (setData set way keep m))

/-- Reloads of berth lines given up: what they read is for nobody (15 R398). -/
def dropReloads (p : Reload → Bool) (m : Mach) : Mach :=
  if m.berth.reloads.any p then
    (m.berth.reloads.filter p).foldl (fun m r => dropOwn (fun s => s = .reload r.key) m)
      { m with berth := { m.berth with reloads := m.berth.reloads.filter (!p ·) } }
  else m

/-- SRCV is cleared by any write into the berth (05 R152): no line of it can be loaded again. -/
def unmarkSource (i : Nat) (m : Mach) : Mach :=
  let b := berthOf m i
  if b.srcv then dropReloads (·.berth.toNat = i) (setBerth i { b with srcv := false } m) else m

/-- The line from which a berth line was loaded (05 R152, 15 R398). -/
def sourceLine (fx : Fixed) (m : Mach) (i off : Nat) : Option LineNo :=
  let b := berthOf m i
  if !b.srcv then none
  else match memHome fx m (b.src + BitVec.ofNat 64 (off / 128 * 128)) with
    | .at o => some (lineOfOff o)
    | _ => none

/-- The berth and the offset within it of a pinned way's line. -/
def berthAt (m : Mach) (set way : Nat) : Option (Nat × Nat) :=
  m.berth.berths.findSome? fun x =>
    if x.2.valid || x.2.freeing then
      ((List.range (x.2.size.toNat + 1)).find? fun j => granuleAt m (x.2.mapbase.toNat + j) = (set / 32, way)).map fun j =>
        (x.1, (j * 32 + set % 32) * 128)
    else none

/-- One word of a berth line looked at (15 R398). The result says whether the line must be loaded again. -/
def scanBerthWord (fx : Fixed) (set way i berth off : Nat) (m : Mach) : Mach × Bool :=
  let key := wayKey set way * 16 + i
  let p := tget (0, 0) m.cache.errs.word key
  let word : W64 := (rawData m set way).extractLsb' (64 * i) 64
  if eccOf Config.checkBits word p.1 p.2 ≠ .double then ((scanWord fx set way i m).1, false)
  else match sourceLine fx m berth off with
    | some _ => (m, true)
    | none =>
      let t := tagAt m set way
      let d := rawData m set way
      let bad : Line := BitVec.ofNat 1024 (p.1.toNat * 2 ^ (64 * i))
      let m := { m with cache := { m.cache with errs := { m.cache.errs with word := tset (0, 0) m.cache.errs.word key (0, 0) } } }
      let m := logErr fx 0x08 0 (locA set way i) (setTag set way { t with poison := true } (setData set way (d ^^^ bad) m))
      (repairRow fx set way m, false)

/-- The words that a berth access reads looked at. -/
def scanBerth (fx : Fixed) (set way : Nat) (s : BitVec 4) (berth off : Nat) (m : Mach) : Mach × Bool :=
  if m.cache.errs.word = [] then (m, false) else
  (List.range 16).foldl (fun (p : Mach × Bool) i =>
    let t := tagAt p.1 set way
    if (t.v &&& ~~~t.z &&& s).getLsbD (i / 4) then
      let (m, b) := scanBerthWord fx set way i berth off p.1
      (m, p.2 || b)
    else p) (m, false)

/-- A reload of a berth line begun, unless one runs (15 R398). -/
def startReload (fx : Fixed) (set way berth off : Nat) (m : Mach) : Mach :=
  let k := wayKey set way
  if m.berth.reloads.any (·.key = k) then m
  else match sourceLine fx m berth off with
    | none => m
    | some l =>
      { m with berth := { m.berth with reloads := m.berth.reloads ++ [⟨k, l, BitVec.ofNat 12 berth, false⟩] } }

/-- The read of a reload tried (15 R398): as `RD` of the berth's context; one that the context may not make loads nothing. -/
def tryReload (fx : Fixed) (r : Reload) (m : Mach) : Mach :=
  let b := berthOf m r.berth.toNat
  let a := ownRead (.reload r.key) .read r.line
  let allowed := !barred m b.ctx false (slotMet m r.line)
  let mark := fun (m : Mach) =>
    { m with berth := { m.berth with reloads := m.berth.reloads.map fun x => if x.key = r.key then { x with busy := true } else x } }
  if !allowed then report (.read (.reload r.key) r.line 0 true) (mark m)
  else match tryAccess fx a m with
    | (m, .done, _) => mark m
    | (m, _, _) => m

/-- The stored words of a way as they read: a single wrong bit corrected, two left wrong; the code agrees with them afterwards. -/
def settleWords (set way : Nat) (m : Mach) : Mach :=
  let raw := rawData m set way
  let fix := (List.range 16).foldl (fun (d : Line) i =>
    let p := tget (0, 0) m.cache.errs.word (wayKey set way * 16 + i)
    let w : W64 := raw.extractLsb' (64 * i) 64
    let v := match eccOf Config.checkBits w p.1 p.2 with | .clean v | .single v => v | .double => w ^^^ p.1
    d ^^^ BitVec.ofNat 1024 ((w ^^^ v).toNat * 2 ^ (64 * i))) raw
  if m.cache.errs.word = [] then m else clearWords set way 0xF (setData set way fix m)

/-- The read of a reload has come: the line is rewritten Clean, or poisoned; then its row is repaired (15 R398, R413). -/
def finishReload (fx : Fixed) (key : Nat) (d : Line) (bad : Bool) (m : Mach) : Mach :=
  let set := key / 32
  let way := key % 32
  if !m.berth.reloads.any (·.key = key) then m else
  let m := { m with berth := { m.berth with reloads := m.berth.reloads.filter (·.key ≠ key) } }
  let t := tagAt m set way
  repairRow fx set way
    (if bad then logErr fx 0x08 0 (locA set way 0) (setTag set way { t with poison := true } (settleWords set way m))
     else logErr fx 0x07 0 (locA set way 0)
      (setTag set way { t with v := 0xF, d := 0, z := 0, poison := false } (setData set way d (clearWords set way 0xF m))))

/-- The line that a request was admitted to is still the berth's: a shrink may have taken its granule away meanwhile (05 R160,
log 118). -/
def lineStands (m : Mach) (r : Req) (set way : Nat) : Bool :=
  let b := berthOf m (bIdx r.address)
  decide (bOff r.address / 4096 ≤ b.size.toNat) && decide (berthPlace m b (bOff r.address) = (set, way))

/-- A berth access tried at its line (05 R154). -/
def tryBerth (fx : Fixed) (a : Access) (m : Mach) : Mach × Got :=
  let set := a.line.toNat % 4096
  let way := a.line.toNat / 4096 % 32
  match a.src with
  | .dp op r =>
    let m := scanManifest fx r m
    if (manifestStop m r).isSome then (answer r op ((manifestStop m r).getD 0) m, .done) else
    if !lineStands m r set way then (answer r op stDenied m, .done) else
    let zero := decide (a.op = .brd) && decide (a.sect &&& ~~~(tagAt m set way).z = 0)
    let (m, ok) := needDoms (dTag (set % 4) :: (if zero then [] else [dWay m set way])) m
    if !ok then (m, .waitThaw) else
    let need := if a.op = .brd then a.sect else if r.maskmode = 1 then a.sect else 0
    let (m, again) := scanBerth fx set way need (bIdx r.address) (bOff r.address) m
    if again then (startReload fx set way (bIdx r.address) (bOff r.address) m, .wait)
    else
      let t := tagAt m set way
      if a.op = .brd then
        if t.poison then (answer r op stPoison m, .done)
        else
          let d := wayData m set way
          (finalRead r op a d t.z false (sendEarly a d t.z m), .done)
      else
        let m := if a.bytes = 0 then m else unmarkSource (bIdx r.address) m
        (answerOk r op (countR 0x044 r (writeBerthWay set way a.bytes a.data m)), .done)
  | _ => (m, .done)

/-- Fields of BRD and BWR (02 R42, R43). -/
def berthFields (op : BitVec 6) (r : Req) : Bool :=
  commonFields op r && (if op = opBRD then readFields r && decide (r.subop = 0) && decide (r.aux = 0) else writeFields r)

/-- An earlier parked request of the same kind names the line. -/
def waitsSame (m : Mach) (a : Access) : Bool :=
  m.cache.replay.any fun p => p.acc.line = a.line &&
    (if a.op = .queue then p.acc.op = .queue else p.acc.op = .brd || p.acc.op = .bwr)

/-- A berth or queue access given to its unit, or parked behind an earlier one; false when it stays at its landing. -/
def submitBerth (try_ : Access → Mach → Mach × Got) (a : Access) (m : Mach) : Mach × Bool :=
  let put := fun (m : Mach) (thaw : Bool) => match park a false thaw m with | some m => (m, true) | none => (m, false)
  if waitsSame m a then put m false
  else match try_ a m with
    | (m, .done) => (m, true)
    | (m, .waitThaw) => put m true
    | (m, _) => put m false

/-- A berth request at the head of its landing. -/
def serveBerth (fx : Fixed) (op : BitVec 6) (r : Req) (m : Mach) : Mach × Bool :=
  match gate op r (if berthHome fx m r.address then .ok else .mishomed) (berthFields op r) true m with
  | .stop m => (m, true)
  | .pass =>
    let m := scanManifest fx r m
    match manifestStop m r with
    | some st => (answer r op st m, true)
    | none =>
      match berthLook m r with
      | .inl st => (answer r op st m, true)
      | .inr (set, way) =>
        let b := if op = opBWR then (if r.maskmode = 1 then r.bmask else sectMask r.sect) else 0
        let a : Access :=
          { op := if op = opBRD then .brd else .bwr, src := .dp op r, line := berthKey set way,
            sect := r.sect, crit := r.address.extractLsb' 5 2,
            bytes := b, data := placeSect r.payload r.sect, early := false, acked := false, snooped := false, counted := true }
        submitBerth (tryBerth fx) a m

/-! ### Ferry queues -/

/-- A queue record. -/
def ferryOf (m : Mach) (i : Nat) : Ferry := tget .free m.berth.ferries i
/-- A queue record replaced. -/
def setFerry (i : Nat) (f : Ferry) (m : Mach) : Mach :=
  { m with berth := { m.berth with ferries := tset .free m.berth.ferries i f } }

/-- Entry size in bytes (05 R170). -/
def eBytes (f : Ferry) : Nat := 8 * 2 ^ f.esize.toNat
/-- Occupancy (05 R172). -/
def ferryOcc (f : Ferry) : Nat := (f.tail - f.head).toNat
/-- Berth offset of a slot. -/
def slotOff (f : Ferry) (i : Nat) : Nat := f.base.toNat * 128 + i % 2 ^ f.depth.toNat * eBytes f

/-- Entries that a QDEQ pops (05 Table BERTH-8). -/
def popCount (r : Req) (f : Ferry) : Nat :=
  if r.subop = 0 then 1 else min (r.aux.toNat % 16 + 1) (min (ferryOcc f) (128 / eBytes f))

/-- Offsets of the slots that an operation touches. -/
def opSlots (op : BitVec 6) (r : Req) (f : Ferry) : List Nat :=
  if op = opQENQ then [slotOff f f.tail.toNat]
  else (List.range (popCount r f)).map fun k => slotOff f (f.head.toNat + k)

/-- Bytes of a queue's entries as a number, slots in order. -/
def readSlots (m : Mach) (b : Berth) (eb : Nat) : List Nat → Nat
  | [] => 0
  | o :: t =>
    let p := berthPlace m b o
    (wayData m p.1 p.2).toNat / 2 ^ (8 * (o % 128)) % 2 ^ (8 * eb) + 2 ^ (8 * eb) * readSlots m b eb t

/-- A number cut into n words. -/
def wordsFrom (x : Nat) : Nat → List W64
  | 0 => []
  | n + 1 => BitVec.ofNat 64 x :: wordsFrom (x / 2 ^ 64) n

/-- A queue operation at the queue unit (05 R172, R173). A QDEQ that meets a poisoned entry answers POISON and takes no element (log 15,
DESIGN CHOICE). A queue's berth that is being resized keeps serving its queues: R160 answers RETRY to requests to the berth itself
(log 117, DESIGN CHOICE). -/
def tryFerry (fx : Fixed) (a : Access) (m : Mach) : Mach × Got :=
  match a.src with
  | .dp op r =>
    let m := scanManifest fx r m
    if (manifestStop m r).isSome then (answer r op ((manifestStop m r).getD 0) m, .done) else
    let i := fld r.address 9 0
    let f := ferryOf m i
    let bi := f.berth.toNat
    let b := berthOf m bi
    let occ := ferryOcc f
    let cap := if r.subop = 1 then min r.aux.toNat (2 ^ f.depth.toNat) else 2 ^ f.depth.toNat
    if lostObj m 2 i then (answer r op stPoison m, .done)
    else if !f.valid || f.gen ≠ BitVec.ofNat 8 (fld r.address 28 21) + (if f.closing then 1 else 0) then (answer r op stStale m, .done)
    else if f.ctx ≠ r.ctx then (answer r op stDenied m, .done)
    else if op = opQENQ && decide (r.plen.toNat * 8 ≠ eBytes f) then (deny r op m, .done)
    else if op = opQENQ && decide (cap ≤ occ) then (respond r op stQfull 0 (BitVec.ofNat 16 occ) [] m, .done)
    else if op = opQDEQ && decide (occ = 0) then (answer r op stQempty m, .done)
    else
      let slots := opSlots op r f
      let places := (slots.map fun o => (berthPlace m b o, o)).map fun x => (x.1.1, x.1.2, x.2)
      let (m, ok) := needDoms (places.flatMap fun p => [dTag (p.1 % 4), dWay m p.1 p.2.1]).dedup m
      if !ok then (m, .waitThaw)
      else
        let (m, again) := places.foldl (fun (x : Mach × Bool) p =>
          let s := if op = opQENQ && decide (eBytes f = 128) then 0 else touchedSect (spanMask (p.2.2 % 128) (eBytes f))
          let (m, g) := scanBerth fx p.1 p.2.1 s bi p.2.2 x.1
          (if g then startReload fx p.1 p.2.1 bi p.2.2 m else m, x.2 || g)) (m, false)
        if again then (m, .wait)
        else if op = opQENQ then
          let o := slotOff f f.tail.toNat
          let p := berthPlace m b o
          let m := writeBerthWay p.1 p.2 (spanMask (o % 128) (eBytes f)) (BitVec.ofNat 1024 (catWords r.payload * 2 ^ (8 * (o % 128)))) m
          let m := setFerry i { f with tail := f.tail + 1 } (unmarkSource bi m)
          let m := if f.notifyV then
              { m with sync := { m.sync with notifies := m.sync.notifies ++ [⟨BitVec.ofNat 10 i, f.notify, f.ngen, r.scope, f.ctx, r.tc, false⟩] } }
            else m
          (tally ⟨op, r, false, BitVec.ofNat 16 f.tail.toNat, []⟩ (countR 0x052 r m), .done)
        else if places.any (fun p => (tagAt m p.1 p.2.1).poison) then (answer r op stPoison m, .done)
        else
          let n := slots.length
          let x := readSlots m b (eBytes f) slots
          let m := setFerry i { f with head := f.head + BitVec.ofNat 17 n } m
          (respond r op stOk 0 (BitVec.ofNat 16 f.head.toNat) (wordsFrom x (n * eBytes f / 8)) (countR 0x052 r m), .done)
  | _ => (m, .done)

/-- Fields of QENQ and QDEQ (05 R171, R172). -/
def ferryFields (op : BitVec 6) (r : Req) : Bool :=
  commonFields op r && decide (r.sect = 0) && decide (fld r.address 47 29 = 0) && decide (fld r.address 13 10 = 0) &&
  (if op = opQENQ then (decide (r.subop = 0) && decide (r.aux = 0)) || decide (r.subop = 1)
   else decide (r.plen = 0) && ((decide (r.subop = 0) && decide (r.aux = 0)) || (decide (r.subop = 1) && decide (r.aux.toNat < 16))))

/-- A queue request at the head of its landing. -/
def serveFerry (fx : Fixed) (op : BitVec 6) (r : Req) (m : Mach) : Mach × Bool :=
  match gate op r (if syncHome fx m r.address then .ok else .mishomed) (ferryFields op r) true m with
  | .stop m => (m, true)
  | .pass =>
    let m := scanManifest fx r m
    match manifestStop m r with
    | some st => (answer r op st m, true)
    | none =>
      let f := ferryOf m (fld r.address 9 0)
      if f.closing && !lostObj m 2 (fld r.address 9 0) then (answer r op stStale m, true) else
      let a : Access :=
        { op := .queue, src := .dp op r, line := BitVec.ofNat 28 (fld r.address 9 0), sect := 0, crit := 0, bytes := 0,
          data := 0, early := false, acked := false, snooped := false, counted := true }
      submitBerth (tryFerry fx) a m

/-! ### Granules -/

/-- The pinned granules, as group × 32 + way. -/
def pinnedGranules (m : Mach) : List Nat := m.berth.gmap.map fun x => x.2 - 1

/-- Pinned ways of a group. -/
def pinnedIn (gs : List Nat) (g : Nat) : Nat := (gs.filter fun x => x / 32 = g).length

/-- Ways of a set that a WAY_DISABLE accepted and not completed is going to retire: no granule is taken of them (05 R144; DEDUCED,
log 100). -/
def retiringAt (m : Mach) (set : Nat) : W32 :=
  m.cmds.running.foldl (fun a r =>
    let p := r.cmd.pkt
    if r.cmd.opcode = 0x94 && !bit p.w0 12 && decide (fld p.p0 11 0 ≤ set) && decide (set ≤ fld p.p0 23 12) then
      a ||| BitVec.ofNat 32 (fld p.p1 31 0) else a) 0

/-- Ways of a set retired, or going to be. -/
def retiredAt (m : Mach) (set : Nat) : W32 := (setStOf m set).retired ||| retiringAt m set

/-- Sets of a group in which some way is retired, or may be going to be. -/
def retiredSets (m : Mach) (g : Nat) : List Nat :=
  if m.cmds.running.any (fun r => r.cmd.opcode = 0x94) then (List.range 32).map (g * 32 + ·)
  else (m.cache.sets.map (·.1)).filter fun s => decide (s / 32 = g)

/-- Ways retired in some set of a group, and the most retired in one set. -/
def retiredAny (m : Mach) (g : Nat) : W32 := (retiredSets m g).foldl (fun a s => a ||| retiredAt m s) 0
def retiredMax (m : Mach) (g : Nat) : Nat := (retiredSets m g).foldl (fun a s => max a (pop (retiredAt m s))) 0

/-- Ways of a set that are pinned, or that a running allocation has chosen and is going to pin. -/
def pinsOf (m : Mach) (set : Nat) : W32 :=
  m.berth.gmap.foldl (fun a x => if (x.2 - 1) / 32 = set / 32 then a ||| ((1 : W32) <<< ((x.2 - 1) % 32)) else a) (setStOf m set).pin

/-- The highest eligible way of a group, given the granules taken (05 R156). -/
def eligibleWay (m : Mach) (gs : List Nat) (g : Nat) : Option Nat :=
  if m.berth.pressured.getLsbD g || decide (pinnedIn gs g + retiredMax m g + 1 > 24) then none
  else ((List.range 32).reverse).find? fun w => !decide (g * 32 + w ∈ gs) && !(retiredAny m g).getLsbD w

/-- The eligible group with the fewest pinned ways, lowest number first, and its way. -/
def bestGranule (m : Mach) (gs : List Nat) : Option Nat :=
  let cands := (List.range 128).filterMap fun g => (eligibleWay m gs g).map fun w => (pinnedIn gs g, g * 32 + w)
  match (cands.map (·.1)).min? with
  | none => none
  | some k => (cands.find? (·.1 = k)).map (·.2)

/-- n granules chosen one at a time; none when fewer are eligible. -/
def chooseGranules (m : Mach) : Nat → List Nat → Option (List Nat)
  | 0, _ => some []
  | n + 1, gs =>
    match bestGranule m gs with
    | none => none
    | some x => (chooseGranules m n (x :: gs)).map (x :: ·)

/-- A run of n free map entries from entry e on. -/
def freeRun (m : Mach) (e n : Nat) : Bool := decide (e + n ≤ 3072) && (List.range n).all fun j => tget 0 m.berth.gmap (e + j) = 0

/-- Map entries in use. -/
def mapUsed (m : Mach) : Nat := m.berth.gmap.length

/-- The granules of a berth, in order. -/
def berthRun (m : Mach) (b : Berth) : List Nat := (List.range (b.size.toNat + 1)).map fun j => tget 0 m.berth.gmap (b.mapbase.toNat + j)

/-- Map entries written from an entry on. -/
def putRun (e : Nat) : List Nat → Mach → Mach
  | [], m => m
  | g :: t, m => putRun (e + 1) t { m with berth := { m.berth with gmap := tset 0 m.berth.gmap e g } }

/-- Map entries freed. -/
def dropRun (e n : Nat) (m : Mach) : Mach := putRun e (List.replicate n 0) m

/-- The granule map compacted: the runs of live berths follow one another from entry 0, in the order they lay in (05 R156,
log 16). -/
def compact (m : Mach) : Mach :=
  let live := sortBy (fun x y => decide (x.2.mapbase.toNat ≤ y.2.mapbase.toNat)) (m.berth.berths.filter fun x => x.2.valid || x.2.freeing)
  let clear := { m with berth := { m.berth with gmap := [] } }
  (live.foldl (fun (p : Mach × Nat) x =>
    let run := berthRun m x.2
    (setBerth x.1 { berthOf p.1 x.1 with mapbase := BitVec.ofNat 12 p.2 } (putRun p.2 run p.1), p.2 + run.length)) (clear, 0)).1

/-- A place for a run of n entries: the lowest that is free, after compaction when there is none (log 16). -/
def mapPlace (n : Nat) (m : Mach) : Mach × Option Nat :=
  match (List.range 3072).find? (freeRun m · n) with
  | some e => (m, some e)
  | none =>
    if mapUsed m + n > 3072 then (m, none)
    else let m := compact m; (m, some (mapUsed m))

/-- Pinned granules of a context, those of freeing berths included (05 R156, R158). -/
def ctxPinned (m : Mach) (c : Ctx) : Nat :=
  (m.berth.berths.map fun x => if (x.2.valid || x.2.freeing) && decide (x.2.ctx = c) then x.2.size.toNat + 1 else 0).sum

/-- Way keys of a granule's 32 lines. -/
def granuleKeys (g : Nat) : List Nat := (List.range 32).map fun i => wayKey (g / 32 * 32 + i) (g % 32)

/-- One way emptied and pinned (05 R156); none when it must wait: for a fill, a maintenance step, or its bank, which may be on its
way to Frost (13 R351). -/
def pinWay (fx : Fixed) (who key : Nat) (m : Mach) : Mach × Bool :=
  let set := key / 32
  let way := key % 32
  if decide (way ∈ fillingWays m set) || heldWay m set way then (m, false) else
  let (m, ok) := waitDoms who [dTag (set % 4), dWay m set way] m
  if !ok || bankFrozen m (dWay m set way) then (m, false) else
  let pinned := fun (m : Mach) =>
    let s := setStOf m set
    setTag set way { Tag.free with v := 0xF, z := 0xF } (putSetSt set { s with pin := s.pin ||| ((1 : W32) <<< way) } m)
  match freeWay fx set way [] m with
  | .now m => (pinned m, true)
  | .full => (m, false)
  | .fill => (fillVictim fx set way (tagAt m set way).cls m, false)

/-- Ways pinned from a list while they can be. -/
def pinWays (fx : Fixed) (who : Nat) : List Nat → Mach → Mach × List Nat
  | [], m => (m, [])
  | k :: t, m =>
    match pinWay fx who k m with
    | (m, true) => pinWays fx who t m
    | (m, false) => (m, k :: t)

/-- Granules unpinned: all sectors of their ways Absent (05 R158). -/
def unpinGranules (gs : List Nat) (m : Mach) : Mach :=
  (gs.flatMap granuleKeys).foldl (fun m k =>
    let set := k / 32
    let way := k % 32
    let s := setStOf m set
    let m := dropReloads (·.key = k) m
    if s.pin.getLsbD way then dropWay set way (putSetSt set { s with pin := s.pin &&& ~~~((1 : W32) <<< way) } m) else m) m

/-- A berth's granules, map entries and index given back (05 R158). -/
def releaseBerth (i : Nat) (m : Mach) : Mach :=
  let b := berthOf m i
  let m := unpinGranules ((berthRun m b).map (· - 1)) m
  let m := dropRun b.mapbase.toNat (b.size.toNat + 1) m
  let m := { m with berth := { m.berth with berthQ := fqPush i m.berth.berthQ } }
  setBerth i { Berth.free with gen := b.gen } m

/-! ### Arenas -/

/-- An arena, an arena object. -/
def arenaOf (m : Mach) (i : Nat) : Arena := tget .free m.berth.arenas i
def objOf (m : Mach) (i : Nat) : ArenaObj := tget .free m.berth.objs i

/-- Live objects of an arena. -/
def arenaObjs (m : Mach) (a : Nat) : List (Nat × ArenaObj) := m.berth.objs.filter fun x => x.2.valid && decide (x.2.arena.toNat = a)

/-- Two spans share a byte. -/
def overlaps (a la b lb : Nat) : Bool := decide (a < b + lb) && decide (b < a + la)

/-- The free blocks of a buddy space of size `len` at `off`, given the live objects: a block with no object inside is
free and whole; else it is split (05 R164). -/
def freeBlocks (live : List (Nat × Nat)) : Nat → Nat → Nat → List (Nat × Nat)
  | 0, _, _ => []
  | f + 1, off, len =>
    if live.all fun x => !overlaps x.1 x.2 off len then [(off, len)]
    else if live.any fun x => x.1 = off && x.2 = len then []
    else freeBlocks live f off (len / 2) ++ freeBlocks live f (off + len / 2) (len / 2)

/-- The block a buddy allocation takes: the lowest free block of the size, else the lowest part of the lowest-addressed
larger one (05 R164). -/
def buddyPick (m : Mach) (a size : Nat) : Option Nat :=
  let ar := arenaOf m a
  let free := freeBlocks ((arenaObjs m a).map fun x => (x.2.offset, x.2.size)) 40 0 ar.length
  match free.find? (fun x => x.2 = size) with
  | some x => some x.1
  | none => (free.find? fun x => size < x.2).map (·.1)

/-- The least power of two not below n, from 256 up. -/
def pow2Up (n : Nat) : Nat → Nat → Nat
  | 0, p => p
  | k + 1, p => if n ≤ p then p else pow2Up n k (2 * p)

/-- The gap above an arena object's offset freed: its index goes back (05 R165). -/
def freeObj (i : Nat) (m : Mach) : Mach :=
  let o := objOf m i
  { m with berth := { m.berth with
      objs := tset .free m.berth.objs i { ArenaObj.free with gen := o.gen + 1 }
      objQ := fqPush i m.berth.objQ } }

end Sys2Proof.Machine
end

