-- ==== Sys2Proof/Machine/Sync.lean ====
section
/-! DEFINITION. Synchronisation objects: updates, parked waits and wakes, manifests, notifies, errors and the wait-for edges of
the jam detector (06_atomics_and_sync.md, 16_recovery.md). -/

namespace Sys2Proof.Machine

/-- The context of a wait is frozen, so the wait is left out of evaluations (16 R432). -/
def waitFrozen (m : Mach) (w : Wait) : Bool := (ctxOf m w.ctx).frozen && (ctxOf m w.ctx).gen = w.gen

/-- EQ waits that a value satisfies, among those not satisfied before, with the value (06 R200). -/
def eqHits (v : W64) (hit : List (Nat × W64)) (ws : List (Nat × Wait)) : List (Nat × W64) :=
  hit ++ (ws.filterMap fun x => if x.2.cond = 1 && x.2.n = v && !(hit.any (·.1 = x.1)) then some (x.1, v) else none)

/-- One evaluation pass in parking order (06 R199, R200): GE and EQ waits are compared with the value the update left, v0;
MREACH waits with the value after the consumptions before them, which EQ waits are compared with as well. The result is
the value left, the waits satisfied with their payloads, and the consumptions (log 17). -/
def evalPass (v0 : W64) (all : List (Nat × Wait)) : List (Nat × Wait) → W64 → List (Nat × W64) → Nat → W64 × List (Nat × W64) × Nat
  | [], v, hit, n => (v, hit, n)
  | x :: t, v, hit, n =>
    if hit.any (·.1 = x.1) then evalPass v0 all t v hit n
    else if x.2.cond = 2 then
      if x.2.n.toNat ≤ v.toNat then evalPass v0 all t (v - x.2.n) (eqHits (v - x.2.n) (hit ++ [(x.1, v)]) all) (n + 1)
      else evalPass v0 all t v hit n
    else if (x.2.cond = 0 && decide (x.2.n.toNat ≤ v0.toNat)) || (x.2.cond = 1 && x.2.n = v0) then
      evalPass v0 all t v (hit ++ [(x.1, v)]) n
    else evalPass v0 all t v hit n

/-- A list with its places. -/
def withPlace {α : Type} : Nat → List α → List (Nat × α)
  | _, [] => []
  | i, a :: t => (i, a) :: withPlace (i + 1) t

/-- The satisfied waits answered in parking order; an acquiring one whose SCOPE differs from the update's counts a scope
mismatch (10 R298). -/
def wakeHits (scope : BitVec 3) (hit : List (Nat × W64)) (ws : List (Nat × Wait)) (m : Mach) : Mach :=
  ws.foldl (fun m x =>
    match hit.find? (·.1 = x.1) with
    | none => m
    | some h =>
      let m := if x.2.acq && decide (x.2.scope ≠ scope) then countN 0x013 (some x.2.ctx) (some x.2.tc) 1 m else m
      wake x.2 stOk 1 [h.2] m) m

/-- The object's parked waits evaluated against its value after an update of a scope. -/
def evalWaits (i : BitVec 14) (scope : BitVec 3) (only : Wait → Bool) (m : Mach) : Mach :=
  let ws := withPlace 0 ((waitsOn m i).filter fun w => only w && !waitFrozen m w)
  let o := syncObj m i
  let (v, hit, n) := evalPass o.value ws ws o.value [] 0
  wakeHits scope hit ws (countN 0x049 none none n (setSync i { o with value := v } m))

/-- The consumption of a wait satisfied on arrival may satisfy EQ waits (06 R200). Their SCOPE is compared with that of the arriving
WAIT, whose consumption is the update, and they are answered before it (log 111, DESIGN CHOICE). -/
def evalConsumed (i : BitVec 14) (scope : BitVec 3) (m : Mach) : Mach :=
  let ws := withPlace 0 ((waitsOn m i).filter fun w => !waitFrozen m w)
  wakeHits scope (eqHits (syncObj m i).value [] ws) ws m

/-- An object's value changed by an update of a scope. -/
def updateSync (i : BitVec 14) (v : W64) (scope : BitVec 3) (m : Mach) : Mach :=
  evalWaits i scope (fun _ => true) (count 0x049 (setSync i { syncObj m i with value := v } m))

/-- Index and generation of a sync-space address (01 Table ORG-9). -/
def sIdx (a : W64) : BitVec 14 := BitVec.ofNat 14 (fld a 13 0)
def sGen (a : W64) : Gen := BitVec.ofNat 8 (fld a 28 21)

/-- Fields of SIGNAL and WAIT (06 R479, 01 Table ORG-9). -/
def syncFields (op : BitVec 6) (r : Req) : Bool :=
  commonFields op r && decide (fld r.address 47 29 = 0) &&
  (if op = opSIGNAL then
     (if r.subop.toNat ≤ 2 then decide (r.plen = 1) && decide (r.aux = 0)
      else decide (r.subop = 3) && decide (r.plen = 0) && decide (1 ≤ r.aux.toNat ∧ r.aux.toNat ≤ 0x7F))
   else decide (r.subop.toNat ≤ 2) && decide (r.plen = 1) && decide (r.aux.toNat / 4 % 4 = 0))

/-- The KIND permits a SIGNAL's SUBOP or a WAIT's condition (06 Tables SYNC-5, SYNC-6). -/
def kindAllows (op : BitVec 6) (subop : BitVec 4) (kind : BitVec 2) : Bool :=
  if op = opSIGNAL then
    match subop.toNat with
    | 0 => kind = 0 || kind = 2
    | 1 => kind = 0
    | 2 => kind = 1
    | _ => true
  else if subop = 2 then kind = 2 else true

/-- The object checks of 06 R190, and the freeze of 16 R432. -/
def syncCheck (m : Mach) (op : BitVec 6) (r : Req) : Option (BitVec 4) :=
  let i := sIdx r.address
  let o := syncObj m i
  if !o.valid || o.gen ≠ sGen r.address then some stStale
  else if ownerFrozen m i r.ctx then some stRetry
  else if !mayUse m i r.ctx r.gen then some stDenied
  else if !kindAllows op r.subop o.kind then some stDenied
  else none

/-- The operand of a SIGNAL or WAIT. -/
def operand (r : Req) : W64 := r.payload.headD 0

/-- A SIGNAL applied (06 R190, R191). -/
def applySignal (r : Req) (m : Mach) : Mach :=
  let i := sIdx r.address
  let o := syncObj m i
  let ok := fun (info : BitVec 16) (m : Mach) => respond r opSIGNAL stOk 0 info [] m
  match r.subop.toNat with
  | 3 => ok 0 (if o.err then m else putError i (r.aux.extractLsb' 0 8) (count 0x049 m))
  | s =>
    if o.err then respond r opSIGNAL stSigErr 0 (o.errcode.zeroExtend 16) [] m
    else match s with
      | 0 => ok 0 (updateSync i (o.value + operand r) r.scope m)
      | 1 => ok 0 (updateSync i (operand r) r.scope m)
      | _ =>
        if o.value.toNat < (operand r).toNat then ok 0 (updateSync i (operand r) r.scope m)
        else ok 1 (updateSync i o.value r.scope (countR 0x01B r m))

/-- A WAIT evaluated and answered, or parked (06 R197 to R201). One that parks while its context is frozen does not count its ticks (16
R432). -/
def applyWait (r : Req) (m : Mach) : Mach :=
  let i := sIdx r.address
  let o := syncObj m i
  let n := operand r
  let holds := if r.subop = 1 then o.value = n else n.toNat ≤ o.value.toNat
  if o.err then respond r opWAIT stSigErr 0 (o.errcode.zeroExtend 16) [] m
  else if holds then
    let m := if r.subop = 2 then evalConsumed i r.scope (count 0x049 (setSync i { o with value := o.value - n } m)) else m
    respond r opWAIT stOk 0 1 [o.value] m
  else if r.aux.getLsbD 1 then respond r opWAIT stOk 0 0 [o.value] m
  else if m.sync.waits.length ≥ 8192 then respond r opWAIT stRetry 0 0 [o.value] (countR 0x01D r m)
  else
    let t := r.aux.toNat / 16
    let w : Wait :=
      { obj := i, cond := r.subop, n, source := r.source, tag := r.tag, ctx := r.ctx, gen := r.gen, tc := r.tc, scope := r.scope,
        stop := r.stop, acq := r.aux.getLsbD 0, expire := if t = 0 then 0 else tickOf m.cyc + t,
        left := if (ctxOf m r.ctx).frozen && (ctxOf m r.ctx).gen = r.gen then t else 0,
        parkCyc := m.cyc, parkTick := tickOf m.cyc, quiet := false, exported := none, late := false }
    countR 0x04A r { m with sync := { m.sync with waits := m.sync.waits ++ [w] } }

/-- A SIGNAL or WAIT that reaches its unit. -/
def applySync (fx : Fixed) (op : BitVec 6) (r : Req) (m : Mach) : Mach :=
  let m := scanSync fx (sIdx r.address) m
  match syncCheck m op r with
  | some st => answer r op st m
  | none => if op = opSIGNAL then applySignal r m else applyWait r m

/-- A SIGNAL or WAIT checked at its landing; it waits in its unit entry while the sync store thaws (13 R353). -/
def serveSync (fx : Fixed) (op : BitVec 6) (r : Req) (m : Mach) : Mach :=
  match gate op r (if syncHome fx m r.address then .ok else .mishomed) (syncFields op r) true m with
  | .stop m => m
  | .pass =>
    let (m, ok) := needDom dSync m
    if ok && m.sync.thawQ = [] then applySync fx op r m
    else count 0x01E { m with sync := { m.sync with thawQ := m.sync.thawQ ++ [(op, r)] } }

/-- A parked wait whose time is over is answered RETRY with VALUE (06 R202). -/
def expireWait (fx : Fixed) (w : Wait) (m : Mach) : Mach :=
  let m := scanSync fx w.obj m
  if m.sync.waits.any (sameWait w) then wake w stRetry 0 [(syncObj m w.obj).value] m else m

/-- The waits whose time ended, and then the unit entries that waited for a thaw, are served. -/
def drainSync (fx : Fixed) (m : Mach) : Mach :=
  if (m.sync.thawQ = [] && !m.sync.waits.any (·.late)) || !domReady m dSync then m
  else
    let m := (m.sync.waits.filter (·.late)).foldl (fun m w => expireWait fx w m) m
    m.sync.thawQ.foldl (fun m x => applySync fx x.1 x.2 m) { m with sync := { m.sync with thawQ := [] } }

/-- An index freed (06 R185, 16 R438): its generation advances, its memberships go, and it is held for HOLD ticks. -/
def freeSync (i : BitVec 14) (m : Mach) : Mach :=
  let o := syncObj m i
  let hold := max 1 m.regs.holdTicks.toNat
  setSync i { o with valid := false, gen := o.gen + 1, shared := false, orphan := false }
    { m with sync := { m.sync with
        members := tset [] m.sync.members i.toNat []
        heldIdx := m.sync.heldIdx ++ [(i, tickOf m.cyc + hold)] } }

/-- A coalescer entry drains to the sync unit, and the requests that wait for room are counted and answered, the first first, as room
allows (06 R196). -/
def drainCoal (i : BitVec 14) (m : Mach) : Mach :=
  match m.sync.coal.find? (·.obj = i) with
  | none => m
  | some c =>
    let s := { m.sync with coal := m.sync.coal.filter (·.obj ≠ i), counts := m.sync.counts ++ [c] }
    s.coalWait.foldl (fun m x => tally x m) { m with sync := { s with coalWait := [] } }

/-- A count reaches the sync unit (06 R195, R196). One whose manifest was freed on its way counts nothing. -/
def applyCount (fx : Fixed) (c : Count) (m : Mach) : Mach :=
  let m := scanSync fx c.obj m
  let o := syncObj m c.obj
  if !o.valid || o.gen ≠ c.gen then m
  else if o.err then c.srcs.foldl (fun m x => countN 0x01C (some x.1) (some x.2) 1 m) m
  else updateSync c.obj (o.value + BitVec.ofNat 64 c.sum) c.scope m

/-- A queue's notify reaches the sync unit (05 R173), where it is judged as a SIGNAL of the queue's context would be; one that may not
add is skipped and counted (log 109). It adds 1 though the counter's owner, another context, is frozen: 16 R432 answers RETRY to requests, and
a notify is none that could be answered (log 127, DESIGN CHOICE). -/
def applyNotify (fx : Fixed) (n : Notify) (m : Mach) : Mach :=
  let m := scanSync fx n.obj m
  let o := syncObj m n.obj
  if !o.valid || o.gen ≠ n.gen || !mayUse m n.obj n.ctx (ctxOf m n.ctx).gen then countN 0x01A (some n.ctx) (some n.tc) 1 m
  else if o.err then m
  else updateSync n.obj (o.value + 1) n.scope m

/-- Memberships in all (06 R204). -/
def memberships (m : Mach) : Nat := (m.sync.members.map (·.2.length)).sum

/-- A member removed from an object: its parked waits there are woken with code 0x84 (06 R204). -/
def dropMember (fx : Fixed) (i : BitVec 14) (c : Ctx) (m : Mach) : Mach :=
  let m := scanSync fx i m
  let ms := tget [] m.sync.members i.toNat
  let left := ms.filter (·.1 ≠ c)
  let m := { m with sync := { m.sync with members := tset [] m.sync.members i.toNat left } }
  let m := setSync i { syncObj m i with shared := !left.isEmpty } m
  wakeAll 0x84 ((waitsOn m i).filter (·.ctx = c)) m

/-- An ORPHAN object without members is freed (06 R204). -/
def freeOrphan (i : BitVec 14) (m : Mach) : Mach :=
  if (syncObj m i).valid && (syncObj m i).orphan && (tget [] m.sync.members i.toNat).isEmpty then freeSync i m else m

/-- The memberships of a context that is closed or purged removed (06 R206). -/
def dropMemberships (fx : Fixed) (c : Ctx) (m : Mach) : Mach :=
  m.sync.members.foldl (fun m x => if x.2.any (·.1 = c) then dropMember fx (BitVec.ofNat 14 x.1) c m else m) m

/-- The objects a context owns, removed by its purge (06 R205). One that is in error already keeps its code, which those waiting on it hear: the
spec says so of a second ERROR and RAISE only (log 128, DESIGN CHOICE). -/
def purgeObjects (fx : Fixed) (c : Ctx) (g : Gen) (m : Mach) : Mach :=
  m.sync.objs.foldl (fun m x =>
    let i : BitVec 14 := BitVec.ofNat 14 x.1
    let o := syncObj m i
    if o.valid && !o.orphan && decide (o.owner = c) && decide (o.ogen = g) then
      let m := scanSync fx i m
      let o := syncObj m i
      let m := wakeAll (if o.err then o.errcode else 0x80) (waitsOn m i) m
      let m := setSync i { syncObj m i with err := true, errcode := if o.err then o.errcode else 0x80 } m
      if o.shared then setSync i { syncObj m i with orphan := true } m else freeSync i m
    else m) m

/-- Objects that count toward a context (03 R93, 06 R205). -/
def ownedObjs (m : Mach) (c : Ctx) (g : Gen) : Nat :=
  (m.sync.objs.filter fun x => x.2.valid && !x.2.orphan && decide (x.2.owner = c) && decide (x.2.ogen = g)).length

/-! ### Wait-for edges -/

/-- The wait forms an edge (06 R208, 16 R420). -/
def isEdge (m : Mach) (w : Wait) : Bool := (syncObj m w.obj).sigv

/-- Edges that have reached the QUIET-th tick after they parked are marked as quiet, and stay so (16 R421). -/
def markQuiet (m : Mach) : Mach :=
  let reached := fun (w : Wait) => isEdge m w && decide (w.parkTick + m.sync.jamQuiet.toNat ≤ tickOf m.cyc)
  { m with sync := { m.sync with waits := m.sync.waits.map fun w => { w with quiet := w.quiet || reached w } } }

/-- An edge whose object was given another signaller since it was exported (16 R422). -/
def movedEdge (m : Mach) (w : Wait) : Bool :=
  match w.exported with | some q => isEdge m w && decide (q ≠ (syncObj m w.obj).sigq) | none => false

/-- Records put into packets of at most seven; those of one unit go in one packet (16 R422, R423). -/
def packJam : List (List (W64 × W64)) → List (W64 × W64) → List (List (W64 × W64))
  | [], cur => if cur.isEmpty then [] else [cur]
  | u :: t, cur => if cur.length + u.length ≤ 7 then packJam t (cur ++ u) else cur :: packJam t u

/-- Packets sent; each waits for a return-inbox slot of the north stop (16 R423). -/
def sendJam (fx : Fixed) : List (List (W64 × W64)) → Mach → Mach
  | [], m => m
  | now :: t, m =>
    let j0 := BitVec.ofNat 64 (fx.procId.toNat * 2 ^ 48 + fx.siteId.toNat * 2 ^ 40 + now.length * 2 ^ 32 + m.sync.jamSeq.toNat * 2 ^ 16)
    let m := count 0x022 (sendSlot (.jam m.sync.jamCollector (j0 :: now.flatMap fun r => [r.1, r.2])) m)
    sendJam fx t { m with sync := { m.sync with jamSeq := m.sync.jamSeq + 1 } }

/-- The records of the objects that waits are parked on looked at (06 R184). -/
def scanEdges (fx : Fixed) (m : Mach) : Mach :=
  if m.cache.errs.sync = [] then m else (m.sync.waits.map (·.obj)).dedup.foldl (fun m i => scanSync fx i m) m

/-- Edges of some waits exported and marked, after the pending retractions when those are due. One whose object's signaller changed since it was
exported is retracted and exported again in one packet (16 R422). -/
def exportEdges (fx : Fixed) (pick : Mach → Wait → Bool) (withRetract : Bool) (m : Mach) : Mach × Nat :=
  let ws := m.sync.waits.filter fun w => isEdge m w && pick m w
  let new := fun (w : Wait) => edgeRec m w (syncObj m w.obj).sigq false
  let again := (ws.filter (movedEdge m)).filterMap fun w => w.exported.map fun q => [edgeRec m w q true, new w]
  let fresh := (ws.filter fun w => !movedEdge m w).map fun w => [new w]
  let old := if withRetract then m.sync.retract.map fun r => [r] else []
  let mark := fun (w : Wait) => if isEdge m w && pick m w then { w with exported := some (syncObj m w.obj).sigq } else w
  let m' := { m with sync := { m.sync with waits := m.sync.waits.map mark, retract := if withRetract then [] else m.sync.retract } }
  (sendJam fx (packJam (old ++ again ++ fresh) []) m', ws.length)

end Sys2Proof.Machine
end

