-- ==== Sys2Proof/Machine/Command.lean ====
section
/-! DEFINITION. Commands and their replies: the words of a command, status codes, the reply and its path, the completion of a
command, and commands in progress (03_command_channel.md R66 to R80). -/

namespace Sys2Proof.Machine

/-- Command status codes (03 Table CMD-5). -/
abbrev csDone : Nat := 0x0000
abbrev csWarn : Nat := 0x0001
abbrev csBadOpcode : Nat := 0x0100
abbrev csBadParam : Nat := 0x0101
abbrev csBadState : Nat := 0x0102
abbrev csNotPilot : Nat := 0x0103
abbrev csStale : Nat := 0x0104
abbrev csGone : Nat := 0x0105
abbrev csNoSpace : Nat := 0x0106
abbrev csPinLimit : Nat := 0x0107
abbrev csTileBusy : Nat := 0x0108
abbrev csLate : Nat := 0x0109
abbrev csNoBw : Nat := 0x010A
abbrev csDenied : Nat := 0x010B
abbrev csCancelled : Nat := 0x010C
abbrev csMishomed : Nat := 0x010D
abbrev csSparse : Nat := 0x010E
abbrev csPoisoned : Nat := 0x010F
abbrev csBusy : Nat := 0x0110
abbrev csLevel : Nat := 0x0111
abbrev csChain : Nat := 0x0112
abbrev csSyncErr : Nat := 0x0113

/-- Fields of command words W0 and W1 (03 Tables CMD-2, CMD-3). -/
def cLen (c : Rec) : Nat := fld c.pkt.w0 35 32
def cTag (c : Rec) : Nat := fld c.pkt.w0 31 16
def cFlags (c : Rec) : Nat := fld c.pkt.w0 15 12
def cEvent (c : Rec) : Bool := bit c.pkt.w0 9
def cOrdered (c : Rec) : Bool := bit c.pkt.w0 8
def cCtx (c : Rec) : Ctx := BitVec.ofNat 12 (fld c.pkt.w1 11 0)
def cGen (c : Rec) : Gen := BitVec.ofNat 8 (fld c.pkt.w1 19 12)
def cCtxv (c : Rec) : Bool := bit c.pkt.w1 20
/-- The context that a command packet's W1 names, under CTXV (03 Table CMD-1; 18 R452). -/
def wordCtx (w1 : W64) : Option Ctx := if bit w1 20 then some (BitVec.ofNat 12 (fld w1 11 0)) else none
/-- A flag of OPFLAGS. -/
def cFlag (c : Rec) (i : Nat) : Bool := bit c.pkt.w0 (12 + i)

/-- Parameter words P0 to P5. -/
def params (c : Rec) : List W64 := [c.pkt.p0, c.pkt.p1, c.pkt.p2, c.pkt.p3, c.pkt.p4, c.pkt.p5]

/-- The master ID of an arrival path (03 Table CMD-1); none for a reserved PEER (R67). -/
def masterOf (p : CmdPath) : Option (BitVec 16) :=
  match p with
  | .sideband => some 3
  | .ring fabric => some (if fabric then 2 else 1)
  | .vc2 _ peer =>
    if peer = 0xFFFE then some 1 else if peer = 0xFFFD then some 2 else if peer.toNat ≤ 0xFEFF then some 0x00FF else none

/-- A worker's command. -/
def isWorker (c : Rec) : Bool := c.master = 0x00FF

/-- The commands of one channel (03 R79): the two rings, VC2, the sideband; VC2 counts by its senders. -/
def channelOf (p : CmdPath) : Nat :=
  match p with
  | .sideband => 0
  | .ring false => 1
  | .ring true => 2
  | .vc2 _ _ => 3

/-- A ring, and a ring replaced. -/
def ringOf (m : Mach) (fabric : Bool) : Ring := if fabric then m.ringF else m.ringH
def setRing (fabric : Bool) (r : Ring) (m : Mach) : Mach := if fabric then { m with ringF := r } else { m with ringH := r }

/-- Word W0 of a reply (03 Table CMD-4). -/
def replyWord (c : Rec) (status n : Nat) : W64 :=
  BitVec.ofNat 64 (c.master.toNat * 2 ^ 48 + n * 2 ^ 40 + c.opcode.toNat * 2 ^ 32 + cTag c * 2 ^ 16 + status)

/-- The reply of a command, by the path on which it arrived (03 R68, R75): a ring's reply waits to be written. -/
def sendReply (c : Rec) (status : Nat) (res : List W64) (m : Mach) : Mach :=
  let w0 := replyWord c status res.length
  match c.pkt.path with
  | .ring f =>
    let r := ringOf m f
    setRing f { r with replies := r.replies ++ [[w0, res.getD 0 0, res.getD 1 0, res.getD 2 0]] } m
  | p => emit (.reply p w0 (res.getD 0 0) (res.getD 1 0) (res.getD 2 0)) m

/-- A command completes or is refused: its reply, and the CMD_DONE event that its EVENT bit asks for (03 R73). -/
def complete (fx : Fixed) (c : Rec) (status : Nat) (res : List W64) (m : Mach) : Mach :=
  let m := { m with cmds := { m.cmds with running := m.cmds.running.filter (·.cmd.id ≠ c.id) } }
  let m := sendReply c status res m
  if cEvent c then
    post fx 0x01 (BitVec.ofNat 64 (c.master.toNat * 2 ^ 48 + cTag c * 2 ^ 32 + c.opcode.toNat * 2 ^ 16 + status)) m
  else m

/-- A command that runs on after it has started. -/
def runOn (c : Rec) (p : Prog) (m : Mach) : Mach :=
  { m with cmds := { m.cmds with running := m.cmds.running ++ [⟨c, p⟩] } }

/-- A running command's progress. -/
def setProg (id : Nat) (p : Prog) (m : Mach) : Mach :=
  { m with cmds := { m.cmds with running := m.cmds.running.map fun r => if r.cmd.id = id then { r with prog := p } else r } }

/-- Commands in progress: waiting to start, or started, and ring entries being fetched (03 R78). -/
def inProgress (m : Mach) : Nat :=
  m.cmds.waiting.length + m.cmds.running.length + b2n m.ringH.fetching + b2n m.ringF.fetching

/-- A context is open at a generation, and not purged (03 R74, 16 R429). -/
def ctxLive (m : Mach) (c : Ctx) (g : Gen) : Bool := (ctxOf m c).opened && !(ctxOf m c).purged && (ctxOf m c).gen = g

end Sys2Proof.Machine
end

