-- ==== Sys2Proof/Machine/RedMath.lean ====
section
/-! DEFINITION. The arithmetic of the reduction engine: formats, products, the adder tree, the accumulate and its roundings,
and the epilogue of the drain (07_reduction_engine.md R216 to R226, R233 to R236). -/

namespace Sys2Proof.Machine

/-- Bits of an element of a format code, which are its bytes in a sector of 8 values (07 Table RED-6). -/
def rBits (c : Nat) : Nat :=
  match c with
  | 0 => 32 | 1 => 16 | 2 => 16 | 3 => 8 | 4 => 8 | 5 => 8 | 6 => 8 | 7 => 6 | 8 => 6 | 9 => 4 | 10 => 8 | 11 => 32 | _ => 0

/-- A format with a block scale. -/
def rMx (c : Nat) : Bool := decide (5 ≤ c) && decide (c ≤ 10)

/-- Element format of a code. -/
def rFmt (c : Nat) : Fmt :=
  match c with
  | 1 => fBF16 | 2 => fF16 | 3 => fE4M3 | 4 => fE5M2 | 5 => fE4M3 | 6 => fE5M2 | 7 => fE2M3 | 8 => fE3M2 | 9 => fE2M1 | _ => fF32

/-- emax of an element (07 Table RED-6). -/
def rEmax (c : Nat) : Nat := match c with | 5 => 8 | 6 => 15 | 7 => 2 | 8 => 4 | 9 => 2 | _ => 0

/-- Lowest level of a code. -/
def rLevel (c : Nat) : Nat := if 7 ≤ c ∧ c ≤ 9 then 3 else 1

/-- A tile of a kind takes contributions of a format (07 Table RED-6). -/
def rTakes (kind c : Nat) : Bool :=
  match kind with
  | 0 => decide (c ≤ 10)
  | 3 => decide (c = 11)
  | _ => decide (c ≤ 2)

/-- A tile of a kind writes a format. -/
def rGives (kind c : Nat) : Bool :=
  match kind with
  | 0 => decide (c ≤ 10)
  | 3 => decide (c = 11)
  | _ => decide (c ≤ 1)

/-- A kind of pairs. -/
def rPairs (kind : Nat) : Bool := kind = 1 || kind = 2

/-- Elements of a line: 32 values or 16 pairs. -/
def rCount (kind : Nat) : Nat := if rPairs kind then 16 else 32

/-- Element i of a line: a value, or value + 2^32 × index (07 Table RED-1). -/
def lineElem (kind : Nat) (d : Line) (i : Nat) : Nat :=
  let v := d.toNat / 2 ^ (32 * i) % 2 ^ 32
  if rPairs kind then v + 2 ^ 32 * (d.toNat / 2 ^ (512 + 32 * i) % 2 ^ 32) else v

/-- The elements of a line. -/
def lineElems (kind : Nat) (d : Line) : List Nat := (List.range (rCount kind)).map (lineElem kind d)

/-- Numbers of w bits laid end to end, the first lowest. -/
def packBits (w : Nat) : List Nat → Nat
  | [] => 0
  | x :: t => x % 2 ^ w + 2 ^ w * packBits w t

/-- A line of its elements. -/
def elemsLine (kind : Nat) (l : List Nat) : Line :=
  if rPairs kind then BitVec.ofNat 1024 (packBits 32 (l.map (· % 2 ^ 32)) + 2 ^ 512 * packBits 32 (l.map (· / 2 ^ 32)))
  else BitVec.ofNat 1024 (packBits 32 l)

/-- The initial value of an element (07 Table RED-1). -/
def rInit (kind : Nat) : Nat :=
  match kind with
  | 1 => 0xFF800000 + 2 ^ 32 * 0xFFFFFFFF
  | 2 => 0x7F800000 + 2 ^ 32 * 0xFFFFFFFF
  | _ => 0

/-- An untouched line (07 R210). -/
def rInitLine (kind : Nat) : Line := elemsLine kind (List.replicate (rCount kind) (rInit kind))

/-- A result with whether it overflowed: an infinity from finite operands (07 R222). -/
def rounded (c : Nat) (v : FV) : Nat × Bool :=
  (c, match v with | .fin _ _ _ => decide (c % 2 ^ 31 = 0x7F800000) | _ => false)

/-- round_rne_fp32. -/
def rne32 (v : FV) : Nat × Bool := rounded (fpWrite fF32 v) v

/-- A quotient rounded up when its fraction, cut to 16 bits, and r carry (07 R223). -/
def srRnd (r n d : Nat) : Nat := n / d + (if 65536 ≤ n % d * 65536 / d + r then 1 else 0)

/-- Stochastic rounding to binary32. -/
def sr32 (r : Nat) (v : FV) : Nat × Bool := rounded (fpWriteWith fF32 (srRnd r) fF32.over v) v

/-- A lane generator after one shift, and the bit shifted out. -/
def laneShift (g : W32) : W32 × Nat :=
  let o := g.getLsbD 0
  (if o then (g >>> 1) ^^^ 0x80200003 else g >>> 1, b2n o)

/-- k bits drawn from a lane generator, the first lowest (07 R223). -/
def laneDraw : Nat → W32 → W32 × Nat
  | 0, g => (g, 0)
  | k + 1, g =>
    let (g, b) := laneShift g
    let (g, r) := laneDraw k g
    (g, b + 2 * r)

/-- Of two pairs the winner (07 R224): NaN over numbers, then the greater or lesser value, then the smaller index. -/
def winner (isMax : Bool) (a b : Nat) : Nat :=
  let va := a % 2 ^ 32
  let vb := b % 2 ^ 32
  let byIdx := if a / 2 ^ 32 ≤ b / 2 ^ 32 then a else b
  if isNan fF32 va && isNan fF32 vb then byIdx
  else if isNan fF32 va then a
  else if isNan fF32 vb then b
  else if fpLt (fpRead fF32 va) (fpRead fF32 vb) then (if isMax then b else a)
  else if fpLt (fpRead fF32 vb) (fpRead fF32 va) then (if isMax then a else b)
  else byIdx

/-- A tree adder on two elements (07 R221, R224, R225). -/
def rAdd (kind a b : Nat) : Nat × Bool :=
  match kind with
  | 0 => rne32 (fpAdd (fpRead fF32 a) (fpRead fF32 b))
  | 3 => ((a + b) % 2 ^ 32, false)
  | k => (winner (k = 1) a b, false)

/-- An adder whose inputs may be absent. -/
def tAdd (kind : Nat) (a b : Option Nat × Bool) : Option Nat × Bool :=
  match a.1, b.1 with
  | some x, some y => let s := rAdd kind x y; (some s.1, a.2 || b.2 || s.2)
  | some x, none => (some x, a.2 || b.2)
  | none, y => (y, a.2 || b.2)

/-- The tree over eight slots (07 R221). -/
def tree8 (kind : Nat) (p : Nat → Option Nat × Bool) : Option Nat × Bool :=
  let q := fun j => tAdd kind (p (2 * j)) (p (2 * j + 1))
  tAdd kind (tAdd kind (q 0) (q 1)) (tAdd kind (q 2) (q 3))

/-- The accumulate of one element (07 R221): INIT stores the tree's result, or the initial value where it has none. -/
def accum (kind : Nat) (init : Bool) (sr : Option Nat) (stored : Nat) (t : Option Nat) : Nat × Bool :=
  match t with
  | none => (if init then rInit kind else stored, false)
  | some x =>
    if init then (x, false)
    else match kind, sr with
      | 0, some r => sr32 r (fpAdd (fpRead fF32 stored) (fpRead fF32 x))
      | k, _ => rAdd k stored x

/-- One member of a batch: its elements, each with its number and whether its product overflowed. -/
abbrev Member := List (Nat × Nat × Bool)

/-- The slot of a member for an element. -/
def slotOfMember (ms : List Member) (i j : Nat) : Option Nat × Bool :=
  match (ms.getD j []).find? (·.1 = i) with
  | some (_, c, o) => (some c, o)
  | none => (none, false)

/-- A batch's elements accumulated on a line, and whether anything overflowed. -/
def batchElems (kind : Nat) (init : Bool) (ms : List Member) (sr : Option (List Nat)) : Nat → List Nat → List Nat × Bool
  | _, [] => ([], false)
  | i, s :: rest =>
    let t := tree8 kind (slotOfMember ms i)
    let a := accum kind init (sr.map fun l => l.getD i 0) s t.1
    let (l, o) := batchElems kind init ms sr (i + 1) rest
    (a.1 :: l, t.2 || a.2 || o)

/-- Exact value of a contribution's element (07 R219, R222). -/
def elemVal (c raw : Nat) (scale : Nat) : FV :=
  if rMx c && decide (scale = 255) then .nan
  else if c = 10 then
    (let x := toSigned 8 raw
     .fin (decide (x < 0)) x.natAbs (-6))
  else fpRead (rFmt c) raw

/-- Member of a contribution to a sum: product of weight, value and scale, rounded once (07 R219). -/
def sumMember (c : Nat) (w : Option Nat) (pay : Nat) (elems : List Nat) (e : Int) : Member :=
  let mx := rMx c
  let scale := if mx then pay % 256 else 127
  let body := if mx then pay / 2 ^ 64 else pay
  (List.range elems.length).map fun k =>
    let x := elemVal c (body / 2 ^ (rBits c * k) % 2 ^ rBits c) scale
    let y := match w with | some g => fpMul (fpRead fBF16 g) x | none => x
    let p := rne32 (fpScale y ((scale : Int) - 127 + e))
    (elems.getD k 0, p.1, p.2)

/-- Member of integers (07 R225). -/
def intMember (pay : Nat) (elems : List Nat) : Member :=
  (List.range elems.length).map fun k => (elems.getD k 0, pay / 2 ^ (32 * k) % 2 ^ 32, false)

/-- Member of pairs: a sector's four values, then its four indices (07 R217, R224). -/
def pairMember (c : Nat) (pay : Nat) (elems : List Nat) : Member :=
  let w := rBits c
  (List.range elems.length).map fun k =>
    let base := k / 4 * (4 * w + 128)
    let v := fpWrite fF32 (fpRead (rFmt c) (pay / 2 ^ (base + k % 4 * w) % 2 ^ w))
    (elems.getD k 0, v + 2 ^ 32 * (pay / 2 ^ (base + 4 * w + k % 4 * 32) % 2 ^ 32), false)

/-! ### The epilogue -/

/-- sqrt(2/π) × 2^512, cut. -/
def geluK : Nat := 0xCC42299EA1B284687E59E2805D5C717FA7053E60A24E0DB1808E369004C73A5D3BF158AA88FA7B6E47EBA75766E9D11BD6284EF2E17C2A264F1D32688BE119FF

/-- Terms of e^x from the k-th on, in units of 2^-576. -/
def expTerms (x : Nat) : Nat → Nat → Nat → Nat
  | 0, _, t => t
  | n + 1, k, t => t + expTerms x n (k + 1) (t * x / 2 ^ 576 / k)

/-- n squarings. -/
def expSquare : Nat → Nat → Nat
  | 0, y => y
  | n + 1, y => expSquare n (y * y / 2 ^ 576)

/-- e^a in units of 2^-576, for a ≤ 200: the argument is cut by 2^20, summed, and squared back. -/
def expFix (a : Nat) : Nat := expSquare 20 (expTerms (a / 2 ^ 20) 48 1 (2 ^ 576))

/-- The argument a function takes the exponential of, in units of 2^-576: |t| for SiLU, 2 √(2/π) (|t| + 0.044715 |t|³) for
GELU-tanh (07 R233). -/
def actArg (act mag : Nat) (e : Int) : Nat :=
  let t := mag * 2 ^ (e + 576).toNat
  if act = 3 then t
  else 2 * geluK * (t + 44715 * (mag * mag * mag * 2 ^ (3 * e + 576).toNat) / 1000000) / 2 ^ 512

/-- GELU-tanh and SiLU of a finite value: t / (1 + e^∓x), to some 480 bits before the one rounding (log 21). -/
def actFin (act : Nat) (neg : Bool) (mag : Nat) (e : Int) : Nat :=
  let a := actArg act mag e
  if mag = 0 then fpSign fF32 neg
  else if 200 * 2 ^ 576 < a then (if neg then fpSign fF32 true else fpWrite fF32 (.fin neg mag e))
  else
    let x := expFix a
    let n := mag * (if neg then 2 ^ 576 else x) * 2 ^ 600
    let d := 2 ^ 576 + x
    fpWrite fF32 (.fin neg (2 * (n / d) + (if n % d = 0 then 0 else 1)) (e - 601))

/-- Activation of an fp32 value (07 R233). -/
def actOf (act t : Nat) : Nat :=
  match act, fpRead fF32 t with
  | 0, _ => t
  | _, .nan => fpNan fF32
  | 1, .inf neg => if neg then 0 else t
  | 1, .fin neg mag _ => if neg || decide (mag = 0) then 0 else t
  | _, .inf neg => if neg then fpSign fF32 true else t
  | k, .fin neg mag e => actFin k neg mag e

/-- Steps 1 to 4 of the drain of a sum's value (07 R233). -/
def drainVal (exp : Int) (scale act : Nat) (bias : Option Nat) (v : Nat) : Nat :=
  let t := fpWrite fF32 (fpScale (fpRead fF32 v) (-exp))
  let t := fpWrite fF32 (fpMul (fpRead fF32 t) (fpRead fF32 scale))
  let t := match bias with | some b => fpWrite fF32 (fpAdd (fpRead fF32 t) (fpRead fF32 b)) | none => t
  actOf act t

/-- Conversion to a format without block scales (07 R234): E4M3 saturates. DESIGN CHOICE (log 132): a value is rounded first, and is beyond
the format only if what it rounds to is. -/
def convert (c v : Nat) : Nat :=
  if c = 0 then (if isNan fF32 v then fpNan fF32 else v)
  else
    let f := rFmt c
    fpWriteWith f rne (if c = 3 then f.over - 1 else f.over) (fpRead fF32 v)

/-- floor(log2) of a nonzero finite value, and the greatest of a list. -/
def topLog : List FV → Option Int
  | [] => none
  | .fin _ m e :: t =>
    if m = 0 then topLog t
    else
      let x : Int := (Nat.log2 m : Int) + e
      (match topLog t with | some y => some (max x y) | none => some x)
  | _ :: t => topLog t

/-- A signed quotient rounded to nearest even and kept within 8 bits. -/
def toInt8 (v : FV) (k : Int) : Nat :=
  match v with
  | .fin neg m e =>
    let q := e + k
    let n := if 0 ≤ q then m * 2 ^ q.toNat else rne m (2 ^ (-q).toNat)
    if neg then (if n ≥ 128 then 128 else (256 - n) % 256) else (if n ≥ 127 then 127 else n)
  | _ => 0

/-- A block of 32 values in an MX format: the scale byte and the elements (07 R235). -/
def mxBlock (c : Nat) (ts : List Nat) : Nat × List Nat :=
  let vs := ts.map (fpRead fF32)
  if vs.any (fun v => match v with | .fin _ _ _ => false | _ => true) then (0xFF, ts.map fun _ => 0)
  else
    let x : Int := match topLog vs with
      | none => -127
      | some l => max (-127) (min 127 (l - rEmax c))
    ((x + 127).toNat, vs.map fun v =>
      if c = 10 then toInt8 v (6 - x)
      else fpWriteWith (rFmt c) rne ((rFmt c).over - 1) (fpScale v (-x)))

/-- What a line gives to the output: its bytes at DST and those at AUXDST, as numbers (07 R234 to R236). -/
def outLine (kind c : Nat) (ts : List Nat) : Nat × Nat :=
  if rPairs kind then (packBits (rBits c) (ts.map fun t => convert c (t % 2 ^ 32)), packBits 32 (ts.map (· / 2 ^ 32)))
  else if kind = 3 then (packBits 32 ts, 0)
  else if rMx c then (let b := mxBlock c ts; (packBits (rBits c) b.2, b.1))
  else (packBits (rBits c) (ts.map (convert c)), 0)

/-- Output bytes of a line at DST, and at AUXDST. -/
def outBytes (kind c : Nat) : Nat := if rPairs kind then 2 * rBits c else 4 * rBits c
def auxBytes (kind c : Nat) : Nat := if rPairs kind then 64 else if kind = 0 ∧ rMx c then 1 else 0

end Sys2Proof.Machine
end

