-- ==== Sys2Proof/Machine/Red.lean ====
section
/-! DEFINITION. The reduction island: tiles and their accumulator lines, contribution queues and batches, folds, towline hops,
and the drain (07_reduction_engine.md, 08_towlines_and_line_reductions.md). -/

namespace Sys2Proof.Machine

/-- A tile, a hop record; and either replaced. -/
def tileOf (m : Mach) (i : Nat) : Tile := tget .free m.red.tiles i
def setTile (i : Nat) (t : Tile) (m : Mach) : Mach := { m with red := { m.red with tiles := tset .free m.red.tiles i t } }
def hopOf (m : Mach) (i : Nat) : Hop := tget .free m.red.hops i
def setHop (i : Nat) (h : Hop) (m : Mach) : Mach := { m with red := { m.red with hops := tset .free m.red.hops i h } }

/-- Fields of a tile-space address (07 Table RED-3). -/
def tIdx (a : W64) : Nat := fld a 32 20
def tGen (a : W64) : Gen := BitVec.ofNat 8 (fld a 40 33)
def tInit (a : W64) : Bool := bit a 13
def tLine (a : W64) : Nat := fld a 12 7
/-- Reserved bits are zero. -/
def tileRsvOk (a : W64) : Bool := decide (fld a 19 14 = 0) && decide (fld a 6 0 = 0)
/-- INIT and LINE are zero. -/
def tileBare (a : W64) : Bool := !tInit a && decide (tLine a = 0)
/-- The address of a tile of this slice, INIT and LINE zero. -/
def tileAddr (fx : Fixed) (m : Mach) (i : Nat) (g : Gen) : W64 :=
  BitVec.ofNat 64 (fx.procId.toNat * 2 ^ 48 + m.regs.logical.toNat * 2 ^ 41 + g.toNat * 2 ^ 33 + i * 2 ^ 20)

/-- Lines of a buffer, accumulator lines of a block, the first line of a buffer (07 R211). -/
def tileLines (t : Tile) : Nat := 2 ^ t.shape.toNat
def blockSize (t : Tile) : Nat := tileLines t * (if t.dbuf then 2 else 1)
def bufBase (t : Tile) (u : Bool) : Nat := t.base.toNat + (if u then tileLines t else 0)

/-- Per-buffer fields. -/
def bufExp (t : Tile) (u : Bool) : BitVec 8 := if u then t.exp1 else t.exp0
def bufTouch (t : Tile) (u : Bool) : W64 := if u then t.touch1 else t.touch0
def bufOvf (t : Tile) (u : Bool) : Bool := if u then t.ovf1 else t.ovf0
def bufInfl (t : Tile) (u : Bool) : BitVec 12 := if u then t.infl1 else t.infl0
def setExp (u : Bool) (e : BitVec 8) (t : Tile) : Tile := if u then { t with exp1 := e } else { t with exp0 := e }
def setTouch (u : Bool) (x : W64) (t : Tile) : Tile := if u then { t with touch1 := x } else { t with touch0 := x }
def setOvf (u : Bool) (o : Bool) (t : Tile) : Tile := if u then { t with ovf1 := o } else { t with ovf0 := o }
def setInfl (u : Bool) (n : BitVec 12) (t : Tile) : Tile := if u then { t with infl1 := n } else { t with infl0 := n }

/-- A buffer cleared: untouched, exponent and overflow zero. -/
def clearBuf (u : Bool) (t : Tile) : Tile := setOvf u false (setExp u 0 (setTouch u 0 t))

/-- An accumulator line. -/
def accLine (m : Mach) (k : Nat) : AccLine := tget ⟨0, false⟩ m.red.acc k

/-- Errors of an accumulator line's bytes forgotten, as its bytes are written. -/
def clearAcc (k : Nat) (m : Mach) : Mach :=
  if m.cache.errs.acc = [] then m
  else { m with cache := { m.cache with errs := { m.cache.errs with
      acc := tclear (0, 0) m.cache.errs.acc ((List.range 128).map (k * 128 + ·)) } } }

/-- An accumulator line written. -/
def setAcc (k : Nat) (a : AccLine) (m : Mach) : Mach :=
  clearAcc k { m with red := { m.red with acc := tset ⟨0, false⟩ m.red.acc k a } }

/-- The same without touching the code of its other bytes. -/
def putAcc (k : Nat) (a : AccLine) (m : Mach) : Mach := { m with red := { m.red with acc := tset ⟨0, false⟩ m.red.acc k a } }

/-- One byte of an accumulator line looked at (07 R209): a single wrong bit is corrected, two poison the line. -/
def scanAccByte (fx : Fixed) (k b : Nat) (m : Mach) : Mach :=
  let key := k * 128 + b
  let p := tget (0, 0) m.cache.errs.acc key
  if p = (0, 0) then m else
  let m := { m with cache := { m.cache with errs := { m.cache.errs with acc := tset (0, 0) m.cache.errs.acc key (0, 0) } } }
  let loc := b * 2 ^ 16 + k
  let a := accLine m k
  let old : Byte := a.data.extractLsb' (8 * b) 8
  let with_ := fun (x : Byte) => a.data ^^^ BitVec.ofNat 1024 ((x ^^^ old).toNat * 2 ^ (8 * b))
  match eccOf Config.checkBitsByte old p.1 p.2 with
  | .clean x => putAcc k { a with data := with_ x } m
  | .single x => logErr fx 0x18 0 loc (putAcc k { a with data := with_ x } m)
  | .double => logErr fx 0x19 0 loc (putAcc k { data := with_ (old ^^^ p.1), poison := true } m)

/-- An accumulator line looked at. -/
def scanAcc (fx : Fixed) (k : Nat) (m : Mach) : Mach :=
  if m.cache.errs.acc = [] then m else (List.range 128).foldl (fun m b => scanAccByte fx k b m) m

/-- A line of a buffer is touched. -/
def touched (t : Tile) (u : Bool) (l : Nat) : Bool := (bufTouch t u).getLsbD l

/-- A line of a buffer as its reader sees it: an untouched one without a look at the store (07 R210). -/
def bufLine (m : Mach) (t : Tile) (u : Bool) (l : Nat) : Line :=
  if touched t u l then (accLine m (bufBase t u + l)).data else rInitLine t.kind.toNat

/-- The touched lines of a buffer. -/
def touchedLines (t : Tile) (u : Bool) : List Nat := (List.range (tileLines t)).filter (touched t u)

/-- Domains that work on a tile needs (13 R345, Table SEASON-2). -/
def tileDoms (t : Tile) : List Nat := [dRed, dAcc 0, dAcc ((t.base.toNat + blockSize t - 1) / 16384)].dedup

/-! ### Requests on tile space -/

/-- Length of a contribution's payload in words (07 R217). -/
def contribLen (c : Nat) (pairs : Bool) (n : Nat) : Nat :=
  if pairs then n * (4 * rBits c + 128) / 64 else b2n (rMx c) + (n * rBits c + 7) / 8

/-- Fields of TCONTRIB and TCONTRIB_W (07 R217, R218). Which length a 16-bit format takes the tile's kind decides; with no such tile
either length stands (log 18). -/
def contribFields (m : Mach) (op : BitVec 6) (r : Req) : Bool :=
  let c := r.subop.toNat
  let n := pop r.sect
  let plain := decide (r.plen.toNat = contribLen c false n)
  let pairs := decide (c ≤ 2) && decide (r.plen.toNat = contribLen c true n)
  let t := tileOf m (tIdx r.address)
  let named := t.valid && t.gen = tGen r.address
  commonFields op r && decide (r.maskmode = 0) && tileRsvOk r.address && decide (c ≤ 11) &&
  (decide (op = opTCONTRIBW) || decide (r.aux = 0)) &&
  (if named then (if rPairs t.kind.toNat && decide (c ≤ 2) then pairs else plain) else plain || pairs) &&
  (if rMx c then decide ((r.payload.headD 0).toNat < 256) && fitsBytes (r.payload.drop 1) (n * rBits c)
   else if plain then fitsBytes r.payload (n * rBits c) else true)

/-- Forms of TFOLD (08 Table TOW-1). -/
def isFold (op : BitVec 6) (r : Req) : Bool := op = opTFOLD && r.subop = 0
def isSegment (op : BitVec 6) (r : Req) : Bool := op = opTFOLD && r.subop = 1
def isAbort (op : BitVec 6) (r : Req) : Bool := op = opTFOLD && r.subop = 2

/-- Fields of a SEGMENT's AUX (08 Table TOW-2). -/
def segTow (r : Req) : Bool := r.aux.getLsbD 15
def segKind (r : Req) : BitVec 2 := r.aux.extractLsb' 13 2
def segExpq (r : Req) : Nat := r.aux.toNat / 256 % 32
def segHop (r : Req) : Nat := r.aux.toNat % 64

/-- Fields of TFOLD by form (08 R240, R241). -/
def foldFields (r : Req) : Bool :=
  commonFields opTFOLD r && decide (r.maskmode = 0) && tileRsvOk r.address &&
  (if r.subop = 0 then decide (tLine r.address = 0) && decide (r.sect = 0) && decide (r.plen = 1) && decide (r.aux.toNat ≤ 1)
   else if r.subop = 1 then
     decide (r.plen.toNat = 4 * pop r.sect) && decide (r.aux.toNat / 64 % 4 = 0) && (segTow r || decide (segHop r = 0)) &&
     (segTow r || decide (r.sect ≠ 0)) && decide (segExpq r ≤ 16)
   else decide (r.subop = 2) && tileBare r.address && decide (r.sect = 0) && decide (r.plen = 0) && decide (r.aux.toNat < 128))

/-- The hop record bound to a tile. -/
def hopOfTile (m : Mach) (i : Nat) (g : Gen) : Option Nat :=
  (m.red.hops.find? fun x => x.2.valid && decide (x.2.tile.toNat = i) && decide (x.2.tgen = g)).map (·.1)

/-- What a request meets at its tile: admitted, or a status with the counter event that counts it, and LATE's count. -/
inductive TStop where
  | pass
  | busy
  | late
  | other (status : BitVec 4)
  deriving DecidableEq, Repr

/-- A contribution's own checks of a tile (07 R218). -/
def contribStop (t : Tile) (op : BitVec 6) (r : Req) : TStop :=
  let c := r.subop.toNat
  let k := t.kind.toNat
  if tLine r.address ≥ tileLines t || !rTakes k c || (op = opTCONTRIBW && k ≠ 0) ||
      decide (r.plen.toNat ≠ contribLen c (rPairs k) (pop r.sect)) then .other stDenied
  else if t.lost then .other stPoison
  else if t.st ≠ .opened then .late else .pass

/-- A segment's own checks of a tile (08 R241, R249, R254). DESIGN CHOICE (log 133): a towline SEGMENT answered LATE at a broken hop counts
neither in the tile's LATE nor as event 0x015, which 07 R231 gives contributions. -/
def segStop (m : Mach) (i : Nat) (t : Tile) (r : Req) : TStop :=
  if tLine r.address ≥ tileLines t then .other stDenied
  else if t.lost then .other stPoison
  else if !segTow r then (if t.st ≠ .opened then .late else .pass)
  else match hopOfTile m i t.gen with
    | none => .other stDenied
    | some h =>
      let h := hopOf m h
      if h.broken || t.st = .closed then .other stLate
      else if segHop r + 1 ≠ h.hop.toNat || h.recvd.getLsbD (tLine r.address) then .other stDenied
      else .pass

/-- The tile checks of 07 R218, in order, for every form. -/
def tileStop (m : Mach) (op : BitVec 6) (r : Req) : TStop :=
  let i := tIdx r.address
  let t := tileOf m i
  if isSegment op r && ((t.valid && segKind r ≠ t.kind) || (segExpq r ≠ 0 && segKind r ≠ 0)) then .other stDenied
  else if !t.valid || t.gen ≠ tGen r.address then .other stStale
  else if t.ctx ≠ r.ctx || t.cgen ≠ r.gen then .busy
  else if isSegment op r then segStop m i t r
  else if isFold op r then (if t.lost then .other stPoison else if t.st ≠ .opened then .late else if t.dbuf then .other stDenied else .pass)
  else contribStop t op r

/-- Close in progress on a tile. -/
def closeOf (m : Mach) (i : Nat) : Option (Run × CloseProg) :=
  m.cmds.running.findSome? fun r =>
    match r.prog with
    | .close c => if c.tile.toNat = i then some (r, c) else none
    | _ => none

/-- A contribution answered LATE is counted in the tile, and in the close whose cut-off it came after (07 R231, R237). -/
def bumpLate (i : Nat) (m : Mach) : Mach :=
  let t := tileOf m i
  let m := setTile i { t with late := if t.late = 0xFFFF then t.late else t.late + 1 } m
  match closeOf m i with
  | some (r, c) => setProg r.cmd.id (.close { c with late := c.late + 1 }) m
  | none => m

/-- Answer of one line of a fold (08 R245). -/
def foldLine (id : Nat) (line : BitVec 6) (status : BitVec 4) (m : Mach) : Mach :=
  let put := fun (f : Fold) =>
    if f.id ≠ id then f
    else if status = stOk then { f with outst := f.outst - 1, applied := f.applied + 1 }
    else
      let bad := match f.bad with
        | some (l, s) => if line.toNat < l.toNat then some (line, status) else some (l, s)
        | none => some (line, status)
      { f with outst := f.outst - 1, bad := bad }
  { m with red := { m.red with folds := m.red.folds.map put } }

/-- A queue entry answered: a request on the mesh, an internal segment to its fold. -/
def entryAnswer (e : QEnt) (status : BitVec 4) (m : Mach) : Mach :=
  match e.fold with
  | some id => foldLine id (BitVec.ofNat 6 (tLine e.r.address)) status m
  | none => answer e.r e.opcode status m

/-- An entry refused at its tile. -/
def entryStop (e : QEnt) (s : TStop) (m : Mach) : Mach :=
  match s with
  | .pass => m
  | .busy => countR 0x016 e.r (entryAnswer e stDenied m)
  | .late => countR 0x015 e.r (bumpLate (tIdx e.r.address) (entryAnswer e stLate m))
  | .other st => entryAnswer e st m

/-- The contribution queue of a stop. -/
def redQ (m : Mach) (st : Stop) : List QEnt := match st with | .north => m.red.qN | .south => m.red.qS
def setRedQ (st : Stop) (q : List QEnt) (m : Mach) : Mach :=
  match st with
  | .north => { m with red := { m.red with qN := q } }
  | .south => { m with red := { m.red with qS := q } }

def otherStop (st : Stop) : Stop := if st = .north then .south else .north

/-- An entry accepted at the end of a stop's contribution queue (07 R212, R230). -/
def pushEnt (st : Stop) (op : BitVec 6) (r : Req) (fold : Option Nat) (m : Mach) : Mach :=
  let m := setRedQ st (redQ m st ++ [⟨op, r, fold, false, m.red.nextEnt⟩]) m
  { m with red := { m.red with nextEnt := m.red.nextEnt + 1 } }

/-- The stop of a tile (07 R212). -/
def tileStopOf (i : Nat) : Stop := if i % 2 = 0 then .north else .south

/-! ### Segments the slice sends (02 R40, 08 R244, R250, R254) -/

/-- The lowest tag no request of the slice's holds (log 11). -/
def segTag (m : Mach) : BitVec 12 := BitVec.ofNat 12 ((lowestFree (m.red.segs.map (·.tag.toNat)) 0 4096).getD 0)

/-- Payload words of a line of four sectors (07 R217). -/
def segWords (kind : Nat) (d : Line) : List W64 :=
  if rPairs kind then
    wordsFrom ((List.range 4).foldr (fun k x =>
      d.toNat / 2 ^ (128 * k) % 2 ^ 128 + 2 ^ 128 * (d.toNat / 2 ^ (512 + 128 * k) % 2 ^ 128) + 2 ^ 256 * x) 0) 16
  else wordsFrom d.toNat 16

/-- A TFOLD request of the slice's own, to a tile. -/
def ownFold (fx : Fixed) (subop : BitVec 4) (ctx : Ctx) (gen : Gen) (tc : BitVec 4) (dst : W64) (sect : BitVec 4) (aux : BitVec 16)
    (payload : List W64) : Req :=
  { stop := tileStopOf (tIdx dst), vc := .vc0, env := 0, subop, ctx, gen, tc, deadline := 0,
    scope := if fld dst 63 48 = fx.procId.toNat then 4 else 5, mv := false, manifest := 0,
    source := 0xF000 + fx.siteId.zeroExtend 16, tag := 0, sect, maskmode := 0, rsvd := 0,
    plen := BitVec.ofNat 5 payload.length, aux, address := dst, bmask := 0, payload }

/-- AUX of a segment. -/
def segAux (tow : Bool) (kind : BitVec 2) (exp : BitVec 8) (hop : Nat) : BitVec 16 :=
  BitVec.ofNat 16 (b2n tow * 2 ^ 15 + kind.toNat * 2 ^ 13 + (-exp.toInt).toNat / 8 * 2 ^ 8 + hop)

/-- The address of a line of a tile. -/
def lineAddr (dst : W64) (init : Bool) (l : Nat) : W64 := dst + BitVec.ofNat 64 (b2n init * 2 ^ 13 + l * 2 ^ 7)

/-- A request sent on the mesh under a tag, if there is room for its answer. -/
def sendOwn (r : Req) (what : SegOf) (m : Mach) : Option Mach :=
  if !segRoom m r.stop || decide (4096 ≤ m.red.segs.length) then none
  else
    let tag := segTag m
    some (emit (.request 0 r.stop opTFOLD { r with tag := tag })
      { m with red := { m.red with segs := m.red.segs ++ [⟨r.stop, tag, what, 0⟩] } })

/-- ABORT notices that wait are sent while there is room. -/
def pumpNotices : List Req → Mach → Mach × List Req
  | [], m => (m, [])
  | r :: t, m =>
    match sendOwn r .notice m with
    | some m => pumpNotices t m
    | none =>
      let (m, t) := pumpNotices t m
      (m, r :: t)

/-- WINDOW, 0 acting as 1 and more than 64 as 64 (08 Table TOW-7). -/
def towWindow (m : Mach) : Nat := if m.regs.window = 0 then 1 else min 64 m.regs.window.toNat

/-! ### Folds -/

/-- A fold's destination lies in this slice. -/
def foldLocal (fx : Fixed) (m : Mach) (dst : W64) : Bool := berthHome fx m dst

/-- A fold in progress names the tile, as source or destination (07 R230). -/
def foldHolds (fx : Fixed) (m : Mach) (i : Nat) : Bool :=
  m.red.folds.any fun f => f.src.toNat = i || (foldLocal fx m f.dst && tIdx f.dst = i)

/-- The next segments of a fold: into the destination's queue when it is here, on the mesh within the window when not. A
poisoned line is not sent: the fold ends as a line answered POISON (log 19). DESIGN CHOICE (log 130): a full queue that holds no other segment
of a fold takes one as a 33rd entry, since the fold itself may hold those before it. -/
def pumpFold (fx : Fixed) (id : Nat) : Nat → Mach → Mach
  | 0, m => m
  | n + 1, m =>
    match m.red.folds.find? (·.id = id) with
    | none => m
    | some f =>
      match f.todo with
      | [] => m
      | l :: rest =>
        if f.bad.isSome then m
        else
          let t := tileOf m f.src.toNat
          let m := if touched t false l.toNat then scanAcc fx (bufBase t false + l.toNat) m else m
          let pois := touched t false l.toNat && (accLine m (bufBase t false + l.toNat)).poison
          let put := fun (g : Fold) (m : Mach) =>
            { m with red := { m.red with folds := m.red.folds.map fun x => if x.id = id then g else x } }
          let f' := { f with todo := rest, outst := f.outst + 1 }
          let r := ownFold fx 1 f.r.ctx f.r.gen f.r.tc (lineAddr f.dst f.init l.toNat) 0xF (segAux false t.kind t.exp0 0)
            (segWords t.kind.toNat (bufLine m t false l.toNat))
          if pois then foldLine id l stPoison (put f' m)
          else if foldLocal fx m f.dst then
            let st := tileStopOf (tIdx f.dst)
            let q := redQ m st
            if q.length < 32 ∨ !(q.any (·.fold.isSome)) then
              pumpFold fx id n (pushEnt st opTFOLD r (some id) (put f' m))
            else m
          else if f.outst < towWindow m then
            (match sendOwn r (.fold id l) m with
             | some m => pumpFold fx id n (put f' m)
             | none => m)
          else m

/-- A fold whose segments are all answered is answered itself and retires (08 R245). -/
def retireFold (f : Fold) (m : Mach) : Mach :=
  let m := { m with red := { m.red with folds := m.red.folds.filter (·.id ≠ f.id) } }
  let t := tileOf m f.src.toNat
  match f.bad with
  | some (_, st) => respond f.r opTFOLD st 0 (BitVec.ofNat 16 (f.applied * 256)) [] m
  | none =>
    let info := BitVec.ofNat 16 (f.applied * 256 + b2n t.ovf0)
    let m := if f.keep then m else setTile f.src.toNat (clearBuf false t) m
    tally ⟨opTFOLD, f.r, false, info, []⟩ m

/-- Folds carried on, and retired when done. -/
def stepFolds (fx : Fixed) (m : Mach) : Mach :=
  let m := m.red.folds.foldl (fun m f => pumpFold fx f.id 64 m) m
  m.red.folds.foldl (fun m f =>
    match m.red.folds.find? (·.id = f.id) with
    | some f => if f.outst = 0 ∧ (f.todo = [] ∨ f.bad.isSome) then retireFold f m else m
    | none => m) m

/-- A waiting entry names a tile: by its address or, for a FOLD, as a destination here (07 R220, R230). -/
def entryNames (fx : Fixed) (m : Mach) (i : Nat) (x : QEnt) : Bool :=
  tIdx x.r.address = i ||
  (isFold x.opcode x.r && foldLocal fx m (x.r.payload.headD 0) && tIdx (x.r.payload.headD 0) = i)

/-- An entry accepted earlier waits in the other stop's queue and names a tile of this one's: a FOLD does, as source or destination, and
what comes to it directly (07 R230, 08 R244). -/
def namedThere (fx : Fixed) (m : Mach) (e : QEnt) (i : Nat) : Bool :=
  (redQ m (otherStop (tileStopOf (tIdx e.r.address)))).any fun x => decide (x.ord < e.ord) && entryNames fx m i x

/-- A FOLD entry may start (07 R230, 08 R244): nothing accepted earlier in the queues of its source and of a destination here names that
tile, and no fold in progress does. -/
def foldReady (fx : Fixed) (m : Mach) (before : List QEnt) (e : QEnt) : Bool :=
  let free := fun (i : Nat) => !(before.any (entryNames fx m i)) && !namedThere fx m e i && !foldHolds fx m i
  let dst := e.r.payload.headD 0
  free (tIdx e.r.address) && (!foldLocal fx m dst || free (tIdx dst))

/-- A fold started: its manifest and its tile are checked again. -/
def startFold (fx : Fixed) (e : QEnt) (m : Mach) : Mach :=
  let m := scanManifest fx e.r m
  if (manifestStop m e.r).isSome then answer e.r e.opcode ((manifestStop m e.r).getD 0) m else
  match tileStop m e.opcode e.r with
  | .pass =>
    let i := tIdx e.r.address
    let t := tileOf m i
    let init := tInit e.r.address
    let lines := (List.range (tileLines t)).filter fun l => init || touched t false l
    let f : Fold :=
      { id := m.red.nextFold, r := e.r, src := BitVec.ofNat 13 i, dst := e.r.payload.headD 0, init, keep := e.r.aux.getLsbD 0,
        todo := lines.map (BitVec.ofNat 6), outst := 0, applied := 0, bad := none }
    { m with red := { m.red with folds := m.red.folds ++ [f], nextFold := m.red.nextFold + 1 } }
  | s => entryStop e s m

/-- FOLD entries of a queue that can start are started. -/
def startFolds (fx : Fixed) (st : Stop) : List QEnt → List QEnt → Mach → Mach
  | _, [], m => m
  | before, e :: rest, m =>
    if isFold e.opcode e.r then
      (if foldReady fx m before e then
        (let (m, ok) := waitDoms (whoFold e.ord) (tileDoms (tileOf m (tIdx e.r.address))) m
         if ok then startFolds fx st before rest (startFold fx e (setRedQ st (before ++ rest) m))
         else startFolds fx st (before ++ [e]) rest m)
       else startFolds fx st (before ++ [e]) rest m)
    else startFolds fx st (before ++ [e]) rest m

/-! ### Batches -/

/-- An entry names a tile. -/
def sameTile (a b : QEnt) : Bool := tIdx a.r.address = tIdx b.r.address && tGen a.r.address = tGen b.r.address

/-- A contribution. -/
def isContrib (e : QEnt) : Bool := e.opcode = opTCONTRIB || e.opcode = opTCONTRIBW

/-- A FOLD accepted earlier waits in the other stop's queue for a tile of this one's as its destination: it holds the entry (08 R244). -/
def foldWaits (fx : Fixed) (m : Mach) (e : QEnt) : Bool :=
  (redQ m (otherStop (tileStopOf (tIdx e.r.address)))).any fun x =>
    decide (x.ord < e.ord) && isFold x.opcode x.r && entryNames fx m (tIdx e.r.address) x

/-- Entries behind a batch's head that join it, n at most, and those left (07 R220): none past an INIT to the tile or a FOLD that
names it. -/
def gather (fx : Fixed) (m : Mach) (h : QEnt) : Nat → List QEnt → List QEnt × List QEnt
  | _, [] => ([], [])
  | 0, l => ([], l)
  | n + 1, e :: t =>
    if entryNames fx m (tIdx h.r.address) e && (isFold e.opcode e.r || (e.fold.isNone && foldWaits fx m e)) then ([], e :: t)
    else if !sameTile h e then let (a, b) := gather fx m h (n + 1) t; (a, e :: b)
    else if !isContrib e || tInit e.r.address then ([], e :: t)
    else if tLine e.r.address = tLine h.r.address then let (a, b) := gather fx m h n t; (e :: a, b)
    else let (a, b) := gather fx m h (n + 1) t; (a, e :: b)

/-- An entry waits: for a fold in progress, or behind a FOLD of either queue that names its tile (07 R230, 08 R244). -/
def entryHeld (fx : Fixed) (m : Mach) (before : List QEnt) (e : QEnt) : Bool :=
  e.fold.isNone && (foldHolds fx m (tIdx e.r.address) || foldWaits fx m e ||
    before.any fun x => isFold x.opcode x.r && entryNames fx m (tIdx e.r.address) x)

/-- The batch that a queue gives next, with the queue left; entries whose domains thaw stay, and their waits are counted. -/
def nextBatch (fx : Fixed) : List QEnt → List QEnt → Mach → Mach × List QEnt × List QEnt
  | before, [], m => (m, [], before)
  | before, e :: rest, m =>
    if isFold e.opcode e.r || entryHeld fx m before e || before.any (fun x => x.thaw && sameTile x e) then
      nextBatch fx (before ++ [e]) rest m
    else
      let (m, ok) := needDoms (tileDoms (tileOf m (tIdx e.r.address))) m
      if !ok then
        nextBatch fx (before ++ [{ e with thaw := true }]) rest (if e.thaw then m else count 0x01E m)
      else if isContrib e && !tInit e.r.address && m.red.batchEn then
        let (a, b) := gather fx m e 7 rest
        (m, e :: a, before ++ b)
      else (m, [e], before ++ rest)

/-- The member of a batch that an entry makes, at the exponent of its buffer (07 R219, 08 R242). -/
def memberOf (kind : Nat) (e : Int) (x : QEnt) : Member :=
  let els := sectElems x.r.sect (rCount kind / 4)
  let pay := catWords x.r.payload
  let c := if isContrib x then x.r.subop.toNat else if kind = 3 then 11 else 0
  if kind = 3 then intMember pay els
  else if rPairs kind then pairMember c pay els
  else if isContrib x then sumMember c (if x.opcode = opTCONTRIBW then some x.r.aux.toNat else none) pay els e
  else sumMember 0 none pay els (e + 8 * (segExpq x.r : Int))

/-- 32 draws of the lanes of a slot (07 R223). -/
def drawLanes (slot : Bool) (m : Mach) : Mach × List Nat :=
  let at_ := fun (i : Nat) => 32 * b2n slot + i
  let ds := (List.range 32).map fun i => laneDraw 16 (m.red.lanes.getD (at_ i) 0)
  let lanes := (List.range 32).foldl (fun v i => v.setIfInBounds (at_ i) (ds.getD i (0, 0)).1) m.red.lanes
  ({ m with red := { m.red with lanes := lanes } }, ds.map (·.2))

/-- Every touched value of a buffer times 2^-8, and the exponent (07 R226). -/
def rescaleBuf (fx : Fixed) (i : Nat) (u : Bool) (m : Mach) : Mach :=
  let t := tileOf m i
  let m := (touchedLines t u).foldl (fun m l =>
    let k := bufBase t u + l
    let m := scanAcc fx k m
    let a := accLine m k
    let vals := (lineElems t.kind.toNat a.data).map fun v => fpWrite fF32 (fpScale (fpRead fF32 v) (-8))
    putAcc k { a with data := elemsLine t.kind.toNat vals } m) m
  setTile i (setExp u (bufExp t u - 8) t) m

/-- A batch accumulated on a line of a buffer, with the retries of 07 R226 (`n` left); which of the two line slots serves it
is left to timing (log 8). -/
def accumulate (fx : Fixed) (i : Nat) (u : Bool) (l : Nat) (batch : List QEnt) (init full : Bool) : Nat → Mach → Mach
  | n, m =>
    let t := tileOf m i
    let kind := t.kind.toNat
    let k := bufBase t u + l
    let old := lineElems kind (bufLine m t u l)
    let (m, sr) := if t.round && kind = 0 then (let (m, r) := drawLanes (Config.freeBit m.freeN) m; (m, some r)) else (m, none)
    let e := (bufExp t u).toInt
    let (new, ov) := batchElems kind init (batch.map (memberOf kind e)) sr 0 old
    let store := fun (m : Mach) =>
      let pois := touched t u l && (accLine m k).poison && !(init && full)
      setTile i (setTouch u (bufTouch t u ||| ((1 : W64) <<< l)) (tileOf m i)) (setAcc k { data := elemsLine kind new, poison := pois } m)
    if !ov then store m
    else
      match n with
      | 0 => countR 0x017 ((batch.map (·.r)).headD default_) (store (setTile i (setOvf u true t) m))
      | n + 1 =>
        if bufOvf t u || decide (e - 8 < -128) then
          countR 0x017 ((batch.map (·.r)).headD default_) (store (setTile i (setOvf u true t) m))
        else accumulate fx i u l batch init full n (rescaleBuf fx i u m)
where
  /-- Never used: a batch has a head. -/
  default_ : Req :=
    { stop := .north, vc := .vc0, env := 0, subop := 0, ctx := 0, gen := 0, tc := 0, deadline := 0, scope := 0, mv := false,
      manifest := 0, source := 0, tag := 0, sect := 0, maskmode := 0, rsvd := 0, plen := 0, aux := 0, address := 0, bmask := 0,
      payload := [] }

/-- An entry retires: OK counts its arrival (07 R228). -/
def retireEntry (e : QEnt) (status : BitVec 4) (m : Mach) : Mach :=
  if status = stOk ∧ e.fold.isNone then answerOk e.r e.opcode m else entryAnswer e status m

/-- An ABORT at its hop (08 R255): the hop it breaks with the cause, or none when it is not valid; a broken hop stays. -/
def abortAt (m : Mach) (r : Req) : Option (Nat × BitVec 8) :=
  let i := tIdx r.address
  let t := tileOf m i
  if !t.valid || t.gen ≠ tGen r.address || t.ctx ≠ r.ctx || t.cgen ≠ r.gen then none
  else match hopOfTile m i t.gen with
    | none => none
    | some j =>
      let h := hopOf m j
      let n := r.aux.toNat % 64
      if r.aux.getLsbD 6 then (if n = h.hop.toNat + 1 then some (j, 3) else none)
      else if n + 1 = h.hop.toNat then some (j, 4) else none

/-! ### Breaking a chain -/

/-- A notice to a neighbour (08 R254). DESIGN CHOICE (log 134): its CTX, GEN, SCOPE and SOURCE are those that 08 R244 names for segments. -/
def noticeTo (fx : Fixed) (m : Mach) (h : Hop) (dir : Bool) : List Req :=
  let peer := if dir then h.prev else h.next
  let t := tileOf m h.tile.toNat
  if peer = 0 then []
  else [ownFold fx 2 t.ctx t.cgen (defaultClass m t.ctx) peer 0 (BitVec.ofNat 16 (b2n dir * 64 + h.hop.toNat)) []]

/-- A hop breaks (08 R254): forwards that were to be sent again are given up, notices go out, an event is posted. -/
def breakHop (fx : Fixed) (j : Nat) (cause : BitVec 8) (m : Mach) : Mach :=
  let h := hopOf m j
  if !h.valid || h.broken then m else
  let t := tileOf m h.tile.toNat
  let m := if h.cut ∨ t.st ≠ .opened ∨ t.gen ≠ h.tgen then m else setTile h.tile.toNat { t with st := .closing } m
  let m := setHop j { h with broken := true, cause := cause, cut := true } m
  let again := fun (s : Seg) => match s.what with | .hop i _ => decide (i.toNat = j) && decide (s.retryAt ≠ 0) | _ => false
  let ns := (if cause = 3 then [] else noticeTo fx m h false) ++ (if cause = 4 then [] else noticeTo fx m h true)
  let m := { m with red := { m.red with segs := m.red.segs.filter (!again ·), notices := m.red.notices ++ ns } }
  post fx 0x07 (BitVec.ofNat 64 (h.chain.toNat * 2 ^ 32 + h.hop.toNat * 2 ^ 8 + cause.toNat)) m

/-- An ABORT notice answered (08 R255). -/
def serveAbort (fx : Fixed) (op : BitVec 6) (r : Req) (m : Mach) : Mach :=
  match abortAt m r with
  | some (j, cause) => answerOk r op (breakHop fx j cause m)
  | none => answer r op stDenied m

/-- The tick a hop's timer starts from now; while its context is frozen the hop keeps the ticks gone by, none (16 R432). -/
def hopNow (m : Mach) (h : Hop) : Nat :=
  let t := tileOf m h.tile.toNat
  if (ctxOf m t.ctx).frozen && (ctxOf m t.ctx).gen = t.cgen then 0 else tickOf m.cyc

/-- The checks of a batch's members as they are admitted: the manifest's again (06 R194), then the tile's (07 R229). -/
def admitMember (fx : Fixed) (p : Mach × List QEnt) (e : QEnt) : Mach × List QEnt :=
  let m := scanManifest fx e.r p.1
  if (manifestStop m e.r).isSome then (entryAnswer e ((manifestStop m e.r).getD 0) m, p.2) else
  if isAbort e.opcode e.r then (serveAbort fx e.opcode e.r m, p.2) else
  match tileStop m e.opcode e.r with
  | .pass => (m, p.2 ++ [e])
  | s => (entryStop e s m, p.2)

/-- A batch admitted to its tile and accumulated (07 R229, R221, R228): its members' checks come first. A towline SEGMENT of no sector
retires without touching its line (08 R249). -/
def runBatch (fx : Fixed) (batch : List QEnt) (m : Mach) : Mach :=
  let (m, ok) := batch.foldl (admitMember fx) (m, [])
  match ok with
  | [] => m
  | h :: _ =>
    let i := tIdx h.r.address
    let t := tileOf m i
    let u := t.epoch
    let l := tLine h.r.address
    let n : BitVec 12 := BitVec.ofNat 12 ok.length
    let m := ok.foldl (fun m e => countR 0x047 e.r m) (setTile i (setInfl u (bufInfl t u + n) t) m)
    let init := tInit h.r.address
    let empty := ok.all fun e => e.r.sect = 0
    let bare := empty && (!init || (isSegment h.opcode h.r && segTow h.r))
    let k := bufBase t u + l
    let reads := !init && touched t u l && !empty
    let m := if reads then scanAcc fx k m else m
    let pois := reads && (accLine m k).poison
    let slotN := fun (m : Mach) => if t.round && t.kind = 0 then bumpFree m else m
    let m := if pois ∨ bare then m
      else count 0x048 (slotN (accumulate fx i u l ok init (ok.any fun e => e.r.sect = 0xF) 4 m))
    let t := tileOf m i
    let m := setTile i (setInfl u (bufInfl t u - n) t) m
    let m := ok.foldl (fun m e => retireEntry e (if pois then stPoison else stOk) m) m
    if isSegment h.opcode h.r && segTow h.r then
      match hopOfTile m i t.gen with
      | some j =>
        let x := hopOf m j
        setHop j { x with recvd := x.recvd ||| ((1 : W64) <<< l), tick := hopNow m x } m
      | none => m
    else m

/-- CONTRIB_ADMIT: the next batch of a stop's queue. -/
def admitBatch (fx : Fixed) (st : Stop) (m : Mach) : Mach :=
  let m := startFolds fx st [] (redQ m st) m
  let (m, batch, left) := nextBatch fx [] (redQ m st) m
  runBatch fx batch (setRedQ st left m)

end Sys2Proof.Machine
end

