-- ==== Sys2Proof/Machine/Ranges.lean ====
section
/-! DEFINITION. Ranges that commands name: homing of a whole range, its lines, the key rule over it, sparse pages in it, and
ranges of berths (01 R32, R480; 09 R273; 14 R369, R377). -/

namespace Sys2Proof.Machine

/-- The line of a memory-space address, if this slice homes it. -/
def lineAt (fx : Fixed) (m : Mach) (a : W64) : Option LineNo :=
  match memHome fx m a with | .at o => some (lineOfOff o) | _ => none

/-- Granules that n bytes from an address touch, and the address of the i-th. -/
def pageCount (a : W64) (n : Nat) : Nat := if n = 0 then 0 else (a.toNat % 4096 + n - 1) / 4096 + 1
def pageAddr (a : W64) (i : Nat) : W64 := BitVec.ofNat 64 (a.toNat / 4096 * 4096 + i * 4096)

/-- A range is wholly homed here (01 R32): all addresses of a granule have one home (01 R27). -/
def rangeHomed (fx : Fixed) (m : Mach) (a : W64) (n : Nat) : Bool :=
  decide (n ≤ 2 ^ 35) && decide (a.toNat + n ≤ 2 ^ 64) && (List.range (pageCount a n)).all fun i => (lineAt fx m (pageAddr a i)).isSome

/-- The lines of a range that this slice homes, as runs of first line and count, a granule at a time. -/
def rangeRuns (fx : Fixed) (m : Mach) (a : W64) (n : Nat) : List (Nat × Nat) :=
  (List.range (pageCount a n)).filterMap fun i =>
    let p := a.toNat / 4096 * 4096 + i * 4096
    let lo := max a.toNat p
    let hi := min (a.toNat + n) (p + 4096)
    (lineAt fx m (pageAddr a i)).map fun l => (l.toNat + (lo - p) / 128, (hi - 1) / 128 - lo / 128 + 1)

/-- Two lists of runs share a line. -/
def runsMeet (a b : List (Nat × Nat)) : Bool := a.any fun x => b.any fun y => overlaps x.1 x.2 y.1 y.2

/-- Some runs share a line with the format map (09 R267). -/
def mapMeets (fx : Fixed) (rs : List (Nat × Nat)) : Bool := fmapOn fx && runsMeet rs [(fx.fmapBase.toNat * 8192, 8192)]

/-- Every line of some runs satisfies a test. -/
def runsAll (t : LineNo → Bool) (rs : List (Nat × Nat)) : Bool :=
  rs.all fun x => (List.range x.2).all fun i => t (BitVec.ofNat 28 (x.1 + i))

/-- A context may reach every line of some runs (14 R369). -/
def ctxReach (m : Mach) (c : Ctx) (wr : Bool) (rs : List (Nat × Nat)) : Bool :=
  runsAll (fun l => match slotMet m l with | some k => mayReach m c k wr | none => true) rs

/-- The lines lie in ranges under the context's own slot, or under a bound slot on which it holds a LOAD grant where `load`
allows that (14 R377). -/
def confDest (m : Mach) (c : Ctx) (load : Bool) (rs : List (Nat × Nat)) : Bool :=
  let e := ctxOf m c
  !e.conf || runsAll (fun l =>
    match rangeOf m l with
    | some r => (e.keyv && decide (r.keyslot = e.keyslot)) ||
        (load && decide ((kslot m r.keyslot).kind = 2) && m.keys.grants.any fun g => g.slot = r.keyslot && g.ctx = c && g.gen = e.gen && g.load)
    | none => false) rs

/-- Some line of some runs lies in a sparse page (09 R273): none while a word of the format map has still to be fetched. -/
def runsSparse (fx : Fixed) : List (Nat × Nat) → Mach → Mach × Option Bool
  | [], m => (m, some false)
  | x :: t, m =>
    if !fmapOn fx then (m, some false) else
    let (m, ok) := mapReady fx (x.1 / 32) m
    if !ok then (m, none) else
    match fmapLook fx (x.1 / 32) m with
    | .dense m => runsSparse fx t m
    | .sparse m => (m, some true)
    | .fetch w => (fetchMap fx w m, none)

/-- A range of a berth of a context (05 R150, R151): a status when it is refused. -/
def berthRange (m : Mach) (c : Ctx) (a : W64) (n : Nat) : Option Nat :=
  let b := berthOf m (bIdx a)
  if lostObj m 1 (bIdx a) then some csDenied
  else if !b.valid || b.freeing || b.gen ≠ bGen a || b.ctx ≠ c then some csStale
  else if (b.size.toNat + 1) * 4096 < bOff a + n then some csBadParam
  else none

/-- Statuses in order: the first that applies. -/
def firstStop : List (Option Nat) → Option Nat
  | [] => none
  | some s :: _ => some s
  | none :: t => firstStop t

/-- A check as a status. -/
def stopIf (b : Bool) (s : Nat) : Option Nat := if b then some s else none

end Sys2Proof.Machine
end

