-- ==== Sys2Proof/Machine/Hops.lean ====
section
/-! DEFINITION. Tile requests at their landings, the drain and the close of a tile, towline hops and their breaking, and the
commands on tiles (07_reduction_engine.md R229 to R239, 08_towlines_and_line_reductions.md R240 to R256). -/

namespace Sys2Proof.Machine

/-! ### Requests -/

/-- The level check of a tile request (00 R4, 07 Table RED-6): a SEGMENT between processors, which SCOPE 5 tells, is of level 3
(08 R244, 17 R447). -/
def tileLevel (fx : Fixed) (op : BitVec 6) (r : Req) : Bool :=
  if op = opTFOLD then !(r.subop = 1 && r.scope = 5) || decide (3 ≤ levelNum fx)
  else decide (rLevel r.subop.toNat ≤ levelNum fx) || decide (11 < r.subop.toNat)

/-- What a FOLD meets before its tile (08 R243): reserved fields of W3, another processor below level 3, its own source. -/
def foldStop (fx : Fixed) (r : Req) : Option Bool :=
  let w := r.payload.headD 0
  if !tileRsvOk w || !tileBare w then some true
  else if w = r.address &&& ~~~((1 : W64) <<< 13) then some false
  else if fld w 63 48 ≠ fx.procId.toNat && levelNum fx < 3 then some true
  else none

/-- A tile request at the head of its landing: checked, and put in the contribution queue of its stop; an ABORT is served
at once (07 R218, R220; 08 R240 to R243, R255). -/
def serveTile (fx : Fixed) (op : BitVec 6) (r : Req) (m : Mach) : Mach × Bool :=
  let fields := if op = opTFOLD then foldFields r else contribFields m op r
  match gate op r (if berthHome fx m r.address then .ok else .mishomed) fields (tileLevel fx op r) m with
  | .stop m => (m, true)
  | .pass =>
    let m := scanManifest fx r m
    match manifestStop m r with
    | some st => (answer r op st m, true)
    | none =>
      match (if isFold op r then foldStop fx r else none) with
      | some counted => (if counted then deny r op m else answer r op stDenied m, true)
      | none =>
        let st := tileStopOf (tIdx r.address)
        let (m, up) := needDom (dAcc 0) m
        if isAbort op r && up then (serveAbort fx op r m, true)
        else if (redQ m st).length ≥ 32 then (m, false)
        else match (if up then tileStop m op r else .pass) with
          | .pass => (pushEnt st op r none m, true)
          | s => (entryStop ⟨op, r, none, false, 0⟩ s m, true)

/-! ### The drain -/

/-- Berths to which a tile's drain writes. -/
def tileBerths (t : Tile) : List Nat :=
  if !t.dstBerth || !t.dstv then [] else
  bIdx t.dst :: (if auxBytes t.kind.toNat t.outfmt.toNat = 0 then [] else [bIdx t.auxdst])

/-- Bytes of a tile's output at DST and at AUXDST (07 R236). -/
def dstBytes (t : Tile) : Nat := tileLines t * outBytes t.kind.toNat t.outfmt.toNat
def auxTotal (t : Tile) : Nat := tileLines t * auxBytes t.kind.toNat t.outfmt.toNat

/-- The tile is CLOSED and its accumulator lines are freed (07 R231); the rest of its descriptor stands. -/
def closeTile (i : Nat) (m : Mach) : Mach :=
  setTile i (setTouch false 0 { tileOf m i with st := .closed, block := false }) m

/-- A hop record freed. -/
def freeHop (j : Nat) (m : Mach) : Mach :=
  setHop j .free { m with red := { m.red with hopQ := fqPush j m.red.hopQ } }

/-- The hop record bound to a tile freed, if there is one. -/
def unbind (i : Nat) (m : Mach) : Mach :=
  match hopOfTile m i (tileOf m i).gen with | some j => freeHop j m | none => m

/-- RES2 of a close. -/
def closeRes2 (c : CloseProg) (cause : BitVec 8) : W64 :=
  BitVec.ofNat 64 (c.exp.toNat * 2 ^ 56 + cause.toNat * 2 ^ 8 + b2n c.ovf)

/-- A close completes (07 R231, R232, R237): the first status that applies. -/
def finishClose (fx : Fixed) (run : Run) (c : CloseProg) (m : Mach) : Mach :=
  let i := c.tile.toNat
  let t := tileOf m i
  let status := if !t.dstv then csCancelled else if c.poisoned then csPoisoned else if c.ovf then csWarn
    else if c.late > 0 then csLate else csDone
  let m := unbind i m
  let m := if t.dbuf then setTile i (clearBuf c.buf t) m else closeTile i m
  complete fx run.cmd status [BitVec.ofNat 64 c.bytes, BitVec.ofNat 64 c.late, closeRes2 c 0] m

/-- Pieces of a byte string written from an address on, a memory line at a time: address, bytes, data, poison. -/
def pieces (a : W64) (total x : Nat) (pois : Nat → Nat → Bool) : Nat → Nat → List (W64 × BitVec 128 × Line × Bool)
  | 0, _ => []
  | n + 1, k =>
    let len := min 128 (total - 128 * k)
    let at_ := a + BitVec.ofNat 64 (128 * k)
    let off := fld at_ 6 0
    (at_, spanMask off len, BitVec.ofNat 1024 (x / 2 ^ (1024 * k) % 2 ^ (8 * len) * 2 ^ (8 * off)), pois (128 * k) len) ::
      pieces a total x pois n (k + 1)

/-- Byte strings laid end to end, each of n bytes. -/
def catBytes (n : Nat) : List Nat → Nat
  | [] => 0
  | x :: t => x + 2 ^ (8 * n) * catBytes n t

/-- One write of a drain: to a line of memory as WR, or to a berth as BWR, whose `line` is the berth offset in lines and
whose `early` says that it is the auxiliary output. One to a line that is not homed here any more is dropped. -/
def drainWrite (fx : Fixed) (m : Mach) (t : Tile) (i : Nat) (aux : Bool) (p : W64 × BitVec 128 × Line × Bool) : Option Access :=
  let a := fun (o : AccOp) (l : LineNo) =>
    ({ op := o, src := .drain (BitVec.ofNat 13 i), line := l, sect := touchedSect p.2.1, crit := 0, bytes := p.2.1, data := p.2.2.1,
       early := aux, acked := false, snooped := false, counted := true, psn := p.2.2.2 } : Access)
  if t.dstBerth then some (a .bwr (BitVec.ofNat 28 (bOff p.1 / 128)))
  else (lineAt fx m p.1).map (a .write)

/-- The bias of a line's elements: none, the scalar, or the line read (07 R233). -/
def biasOf (t : Tile) (c : CloseProg) (l j : Nat) : Option Nat :=
  match t.biasmode.toNat with
  | 1 => some t.bias.toNat
  | 2 => some (match c.bias.find? (·.1 = l) with | some (_, d, _) => d.toNat / 2 ^ (32 * j) % 2 ^ 32 | none => 0)
  | _ => none

/-- The output of one line: its bytes at DST and at AUXDST, and whether it is poisoned (07 R233 to R236). -/
def drainLine (m : Mach) (t : Tile) (c : CloseProg) (l : Nat) : Nat × Nat × Bool :=
  let k := t.kind.toNat
  let vals := lineElems k (bufLine m t c.buf l)
  let vals := if k = 0 then
      (List.range 32).map fun j => drainVal c.exp.toInt t.scale.toNat t.act.toNat (biasOf t c l j) (vals.getD j 0)
    else vals
  let o := outLine k t.outfmt.toNat vals
  let pois := (touched t c.buf l && (accLine m (bufBase t c.buf + l)).poison) ||
    (match c.bias.find? (·.1 = l) with | some (_, _, p) => p | none => false)
  (o.1, o.2, pois)

/-- The writes of a drain computed from its buffer. -/
def makeWrites (fx : Fixed) (c : CloseProg) (m : Mach) : Mach × CloseProg :=
  let i := c.tile.toNat
  let m := (touchedLines (tileOf m i) c.buf).foldl (fun m l => scanAcc fx (bufBase (tileOf m i) c.buf + l) m) m
  let t := tileOf m i
  let outs := (List.range (tileLines t)).map (drainLine m t c)
  let ob := outBytes t.kind.toNat t.outfmt.toNat
  let ab := auxBytes t.kind.toNat t.outfmt.toNat
  let pois := fun (per : Nat) (lo len : Nat) =>
    (List.range (tileLines t)).any fun l => (outs.getD l (0, 0, false)).2.2 && overlaps (l * per) per lo len
  let one := pieces t.dst (dstBytes t) (catBytes ob (outs.map (·.1))) (pois ob) ((dstBytes t + 127) / 128) 0
  let two := pieces t.auxdst (auxTotal t) (catBytes ab (outs.map (·.2.1))) (pois ab) ((auxTotal t + 127) / 128) 0
  let ws := one.filterMap (drainWrite fx m t i false) ++ two.filterMap (drainWrite fx m t i true)
  (m, { c with made := true, todo := ws, left := c.left + ws.length, poisoned := outs.any (·.2.2) })

/-- One write of a drain tried. DESIGN CHOICE (log 125): past the end of a berth that a shrink has made smaller meanwhile it writes where the
map entry that it names leads. -/
def tryDrainWrite (fx : Fixed) (t : Tile) (a : Access) (m : Mach) : Mach × Got × Access :=
  if a.op = .bwr then
    let bi := bIdx (if a.early then t.auxdst else t.dst)
    let p := berthPlace m (berthOf m bi) (a.line.toNat * 128)
    let (m, ok) := needDoms [dTag (p.1 % 4), dWay m p.1 p.2] m
    if !ok then (m, .waitThaw, a) else
    let m := unmarkSource bi (writeBerthWay p.1 p.2 a.bytes a.data m)
    let m := if a.psn then setTag p.1 p.2 { tagAt m p.1 p.2 with poison := true } m else m
    (report (.write a.src a.line) m, .done, a)
  else tryAccess fx a m

/-- Writes of a drain tried in order; those that must wait stay. -/
def drainWrites (fx : Fixed) (t : Tile) : List Access → Mach → Mach × List Access × Nat
  | [], m => (m, [], 0)
  | a :: rest, m =>
    let (m, g, a) := tryDrainWrite fx t a m
    let (m, a) := noteSlept g a m
    let (m, more, n) := drainWrites fx t rest m
    if g = .done then (m, more, n + pop a.bytes) else (m, a :: more, n)

/-- Bias lines of a drain, asked for in order; one that cannot be read counts as poisoned. -/
def askBias (fx : Fixed) (tile : BitVec 13) : List Nat → Mach → Mach × List (Nat × Line × Bool)
  | [], m => (m, [])
  | l :: rest, m =>
    let t := tileOf m tile.toNat
    match lineAt fx m (t.biasaddr + BitVec.ofNat 64 (128 * l)) with
    | none => let (m, got) := askBias fx tile rest m; (m, (l, 0, true) :: got)
    | some n =>
      if !(match slotMet m n with | some k => mayReach m t.ctx k false | none => true) then
        let (m, got) := askBias fx tile rest m; (m, (l, 0, true) :: got)
      else askBias fx tile rest (askOwn (ownRead (.bias tile) .read n) m)

/-- A drain begins (07 R231 to R233); DESIGN CHOICE (log 131): a fold in progress that reads the tile keeps it waiting too. The buffer's exponent and overflow are those the close reports. -/
def startDrain (fx : Fixed) (run : Run) (c : CloseProg) (m : Mach) : Mach :=
  let t := tileOf m c.tile.toNat
  if c.draining || bufInfl t c.buf ≠ 0 || m.red.folds.any (fun f => f.src = c.tile) then m else
  let (m, ok) := waitDoms run.cmd.id (tileDoms t) m
  if !ok then m else
  let c := { c with draining := true, exp := bufExp t c.buf, ovf := bufOvf t c.buf }
  let (m, got) := if t.dstv ∧ t.biasmode = 2 then askBias fx c.tile (List.range (tileLines t)) m else (m, [])
  setProg run.cmd.id (.close { c with bias := got }) m

/-- A drain carried on as far as it can be. -/
def pumpClose (fx : Fixed) (run : Run) (c : CloseProg) (m : Mach) : Mach :=
  let t := tileOf m c.tile.toNat
  let broken := match hopOfTile m c.tile.toNat t.gen with | some j => (hopOf m j).broken | none => false
  if !c.draining || broken then m
  else if !t.dstv then finishClose fx run { c with bytes := 0, poisoned := false } m
  else if c.made then
    let (m, todo, n) := drainWrites fx t c.todo m
    setProg run.cmd.id (.close { c with todo := todo, bytes := c.bytes + n }) m
  else
    if t.biasmode = 2 ∧ c.bias.length < tileLines t then m
    else
      let (m, c) := makeWrites fx c m
      let (m, todo, n) := drainWrites fx t c.todo m
      setProg run.cmd.id (.close { c with todo := todo, bytes := c.bytes + n }) m

/-- A bias line that was read, or a write that was made, reaches its drain. -/
def drainDone (fx : Fixed) (i : Nat) (d : Done) (m : Mach) : Mach :=
  match closeOf m i with
  | none => m
  | some (run, c) =>
    match d with
    | .read _ line data pois =>
      let t := tileOf m i
      let here := fun (l : Nat) => lineAt fx m (t.biasaddr + BitVec.ofNat 64 (128 * l)) = some line && !(c.bias.any (·.1 = l))
      (match (List.range (tileLines t)).find? here with
       | some l => setProg run.cmd.id (.close { c with bias := c.bias ++ [(l, data, pois)] }) m
       | none => m)
    | _ => setProg run.cmd.id (.close { c with left := c.left - 1 }) m

/-- A drain all of whose writes are made completes its close. -/
def endClose (fx : Fixed) (run : Run) (c : CloseProg) (m : Mach) : Mach :=
  let broken := match hopOfTile m c.tile.toNat (tileOf m c.tile.toNat).gen with | some j => (hopOf m j).broken | none => false
  if c.draining && c.made && decide (c.left = 0) && !broken then finishClose fx run c m else m

/-! ### Hops -/

/-- All the lines of a tile as a mask. -/
def fullMask (t : Tile) : W64 := BitVec.ofNat 64 (2 ^ tileLines t - 1)

/-- Every incoming line of a hop has retired; hop 0 has none. -/
def hopFed (m : Mach) (h : Hop) : Bool := h.hop = 0 || h.recvd = fullMask (tileOf m h.tile.toNat)

/-- The hop's tile is still the one it was bound to. -/
def hopTileLives (m : Mach) (h : Hop) : Bool := (tileOf m h.tile.toNat).valid && (tileOf m h.tile.toNat).gen = h.tgen

/-- The tile of a purged confidential context, which is left CLOSING with its accumulator lines until its scrub (16 Table RECOV-5). -/
def keptTile (m : Mach) (t : Tile) : Bool := !(ctxOf m t.ctx).opened || (ctxOf m t.ctx).gen ≠ t.cgen

/-- A hop carried on (08 R252, R254): a broken one whose forwards are answered gives up its tile and its close, the last one
whose lines are in drains, another one whose forwards are all acknowledged closes. -/
def stepHop (fx : Fixed) (j : Nat) (m : Mach) : Mach :=
  let h := hopOf m j
  let i := h.tile.toNat
  if !h.valid then m
  else if h.broken then
    (if h.outst ≠ 0 then m
     else if !hopTileLives m h then freeHop j m
     else if keptTile m (tileOf m i) then freeHop j m
     else
       let t := tileOf m i
       let left := { t with st := .closed, block := false, dstv := false }
       match closeOf m i with
       | some (run, c) =>
         let e := if c.draining then c.exp else t.exp0
         let o := if c.draining then c.ovf else t.ovf0
         complete fx run.cmd csChain
           [BitVec.ofNat 64 (if h.hop ≠ h.last then 128 * h.full else if c.draining then c.bytes else 0), t.late.zeroExtend 64, closeRes2 { c with exp := e, ovf := o } h.cause]
           (freeHop j (setTile i left (dropOwn (fun s => s = .bias h.tile || s = .drain h.tile) m)))
       | none => if t.st = .closed && !t.dstv then m else setTile i (setTouch false 0 left) m)
  else if !h.cut then m
  else match closeOf m i with
    | none => m
    | some (run, c) =>
      if h.hop = h.last then (if hopFed m h then startDrain fx run c m else m)
      else
        let t := tileOf m i
        if h.acked = fullMask t then
          finishClose fx run { c with bytes := 128 * h.full, exp := t.exp0, ovf := t.ovf0, poisoned := false } m
        else m

/-- All hops carried on. -/
def stepHops (fx : Fixed) (m : Mach) : Mach := (m.red.hops.map (·.1)).foldl (fun m j => stepHop fx j m) m

/-- The hop waits for a line or an answer (08 R256). -/
def hopWaits (m : Mach) (h : Hop) : Bool := !hopFed m h || h.outst ≠ 0

/-- Lines of a hop that may be forwarded (08 R250), lowest first (log 22). -/
def readyLine (m : Mach) (h : Hop) : Option Nat :=
  let t := tileOf m h.tile.toNat
  if !h.valid || h.broken || !h.cut || h.hop = h.last || t.infl0 ≠ 0 then none
  else (List.range (tileLines t)).find? fun l => !h.sent.getLsbD l && (h.hop = 0 || h.recvd.getLsbD l)

/-- TOWLINE_FORWARD (08 R250): the hop's next ready line is sent to the next hop, if the window and the inbox allow. -/
def forwardLine (fx : Fixed) (j : Nat) (m : Mach) : Mach :=
  let h := hopOf m j
  match readyLine m h with
  | none => m
  | some l =>
    let t := tileOf m h.tile.toNat
    if h.outst.toNat ≥ towWindow m then m else
    let (m, ok) := waitDoms (whoHop j) (tileDoms t) m
    if !ok then m else
    let has := touched t false l
    let k := bufBase t false + l
    let m := if has then scanAcc fx k m else m
    if has && (accLine m k).poison then breakHop fx j 5 m
    else
      let r := ownFold fx 1 t.ctx t.cgen (defaultClass m t.ctx) (lineAddr h.next false l) (if has then 0xF else 0)
        (segAux true t.kind t.exp0 h.hop.toNat) (if has then segWords t.kind.toNat (bufLine m t false l) else [])
      match sendOwn r (.hop (BitVec.ofNat 10 j) (BitVec.ofNat 6 l)) m with
      | none => m
      | some m' =>
        setHop j { h with
          sent := h.sent ||| ((1 : W64) <<< l), outst := h.outst + 1, full := h.full + b2n has
          tick := if hopWaits m h then h.tick else hopNow m h } m'

/-- TOWLINE_FORWARD_RETRY (08 R251): a forward that was answered RETRY 1,024 control cycles ago is sent again. -/
def forwardAgain (fx : Fixed) (j : Nat) (line : BitVec 6) (m : Mach) : Mach :=
  let h := hopOf m j
  match m.red.segs.find? fun s => s.what = .hop (BitVec.ofNat 10 j) line && decide (s.retryAt ≠ 0) && decide (s.retryAt ≤ m.cyc) with
  | none => m
  | some s =>
    let t := tileOf m h.tile.toNat
    let l := line.toNat
    if !segRoom m s.stop || h.outst.toNat ≥ towWindow m then m else
    let has := touched t false l
    let r := ownFold fx 1 t.ctx t.cgen (defaultClass m t.ctx) (lineAddr h.next false l) (if has then 0xF else 0)
      (segAux true t.kind t.exp0 h.hop.toNat) (if has then segWords t.kind.toNat (bufLine m t false l) else [])
    let h' := { h with outst := h.outst + 1, tick := if hopWaits m h then h.tick else hopNow m h }
    setHop j h' (emit (.request 0 s.stop opTFOLD { r with tag := s.tag })
      { m with red := { m.red with segs := m.red.segs.map fun x => if x = s then { x with retryAt := 0 } else x } })

/-- SEGMENT_RESPONSE (08 R245, R251): the answer to a request of the slice's own. -/
def segAnswer (fx : Fixed) (stop : Stop) (tag : BitVec 12) (status : BitVec 4) (m : Mach) : Mach :=
  match m.red.segs.find? fun s => s.stop = stop && s.tag = tag && decide (s.retryAt = 0) with
  | none => m
  | some s =>
    let drop := { m with red := { m.red with segs := m.red.segs.filter (· ≠ s) } }
    match s.what with
    | .notice => drop
    | .fold id line => foldLine id line status drop
    | .hop i line =>
      let j := i.toNat
      let h := hopOf m j
      let h := { h with outst := h.outst - 1, tick := hopNow m h }
      if h.broken then setHop j h drop
      else if status = stOk then setHop j { h with acked := h.acked ||| ((1 : W64) <<< line.toNat) } drop
      else if status = stRetry then
        setHop j h { m with red := { m.red with
          segs := m.red.segs.map fun x => if x = s then { x with retryAt := m.cyc + 1024 } else x } }
      else breakHop fx j 1 (setHop j h drop)

/-- HOP_TIMEOUT (08 R256). -/
def hopExpire (fx : Fixed) (j : Nat) (m : Mach) : Mach :=
  let h := hopOf m j
  let t := tileOf m h.tile.toNat
  let frozen := (ctxOf m t.ctx).frozen && (ctxOf m t.ctx).gen = t.cgen
  if h.valid && h.cut && !h.broken && hopWaits m h && !frozen && m.regs.hopTimeout ≠ 0 &&
      decide (h.tick + m.regs.hopTimeout.toNat ≤ tickOf m.cyc) then
    (let (m, ok) := waitDom (whoHop j) (dAcc 0) m
     if ok then breakHop fx j 2 m else m)
  else m

/-- Hops whose timer ran out while half 0 slept (13 R353). -/
def pumpExpired (fx : Fixed) (m : Mach) : Mach :=
  m.season.asleep.foldl (fun m x =>
    if x.2 = dAcc 0 ∧ domReady m x.2 ∧ 2 ^ 46 ≤ x.1 ∧ x.1 < 2 ^ 46 + 1024 then hopExpire fx (x.1 - 2 ^ 46) m else m) m

/-! ### Commands on tiles -/

/-- A command's tile address checked under 01 R480 and for its tile (07 R238, R239). -/
def tileCmdStop (fx : Fixed) (m : Mach) (a : W64) : Option Nat :=
  let t := tileOf m (tIdx a)
  firstStop [stopIf (!berthHome fx m a) csMishomed, stopIf (!t.valid || t.gen ≠ tGen a) csStale]

/-- The tile belongs to another context (07 R230). -/
def tileForeign (m : Mach) (c : Rec) (a : W64) : Bool :=
  let t := tileOf m (tIdx a)
  t.ctx ≠ cCtx c || t.cgen ≠ cGen c

/-- Accumulator blocks held: first line and size. -/
def accHeld (m : Mach) : List (Nat × Nat) :=
  m.red.tiles.filterMap fun x => if x.2.valid && x.2.block then some (x.2.base.toNat, blockSize x.2) else none

/-- The lowest-addressed free block of a size, aligned to it (07 R211, log 23). -/
def accPick (m : Mach) (size : Nat) : Option Nat :=
  let held := accHeld m
  ((List.range (32768 / size)).map (· * size)).find? fun b => held.all fun x => !overlaps x.1 x.2 b size

/-- The tile that TILE_OPEN asks for. -/
def tileAsked (c : Rec) : Tile :=
  let p := c.pkt
  { Tile.free with
    valid := true, dbuf := cFlag c 0, dstBerth := cFlag c 1, dstv := true, ctx := cCtx c, cgen := cGen c
    shape := BitVec.ofNat 3 (fld p.p0 49 47), kind := BitVec.ofNat 2 (fld p.p0 46 45), round := bit p.p0 44
    outfmt := BitVec.ofNat 4 (fld p.p0 43 40), act := BitVec.ofNat 2 (fld p.p0 39 38), biasmode := BitVec.ofNat 2 (fld p.p0 37 36)
    dst := p.p1, auxdst := p.p2, scale := BitVec.ofNat 32 (fld p.p3 63 32), bias := BitVec.ofNat 32 (fld p.p3 31 0), biasaddr := p.p4
    block := true }

/-- Parameters that TILE_OPEN refuses (07 R215 step 2, Table RED-5). -/
def openBad (t : Tile) : Bool :=
  let k := t.kind.toNat
  let f := t.outfmt.toNat
  let ab := auxTotal t
  t.shape = 7 || t.biasmode = 3 || !rGives k f || (t.round && decide (k ≠ 0)) ||
  (decide (k ≠ 0) && (t.scale ≠ 0x3F800000 || t.biasmode ≠ 0 || t.act ≠ 0)) ||
  decide (fld t.dst 6 0 ≠ 0) || (t.bias ≠ 0 && t.biasmode ≠ 1) || (t.biasaddr ≠ 0 && t.biasmode ≠ 2) || decide (fld t.biasaddr 6 0 ≠ 0) ||
  (decide (auxBytes k f = 0) != decide (t.auxdst = 0)) || (decide (ab ≠ 0) && decide (t.auxdst.toNat % min 128 ab ≠ 0))

/-- The destination ranges of a tile, with the bias vector: address, bytes, whether in a berth. -/
def tileRanges (t : Tile) : List (W64 × Nat × Bool) :=
  ([(t.dst, dstBytes t, t.dstBerth), (t.auxdst, auxTotal t, t.dstBerth),
    (t.biasaddr, if t.biasmode = 2 then 128 * tileLines t else 0, false)]).filter (·.2.1 ≠ 0)

/-- A destination range checked (07 R215 step 5). -/
def tileRangeStop (fx : Fixed) (m : Mach) (c : Ctx) (x : W64 × Nat × Bool) : Option Nat :=
  if x.2.2 then berthRange m c x.1 x.2.1 else stopIf (!rangeHomed fx m x.1 x.2.1) csMishomed

/-- Memory lines to which a tile's drain writes. -/
def tileWrites (fx : Fixed) (m : Mach) (t : Tile) : List (Nat × Nat) :=
  if t.dstBerth then [] else
  rangeRuns fx m t.dst (dstBytes t) ++ (if auxTotal t = 0 then [] else rangeRuns fx m t.auxdst (auxTotal t))

/-- Memory lines that the drain reads. -/
def tileReads (fx : Fixed) (m : Mach) (t : Tile) : List (Nat × Nat) :=
  if t.biasmode = 2 then rangeRuns fx m t.biasaddr (128 * tileLines t) else []

/-- The requested index is taken and not to be reused (07 R215 step 3). -/
def openIndexStop (m : Mach) (c : Rec) : Option Nat :=
  let i := fld c.pkt.p0 62 50
  let o := tileOf m i
  if !bit c.pkt.p0 63 || !o.valid then none
  else
    let own := o.ctx = cCtx c && o.cgen = cGen c
    if own && o.st ≠ .closed then some csBadParam else if own then none else some csTileBusy

/-- TILE_OPEN (07 R214, R215). -/
def cmdTileOpen (fx : Fixed) (c : Rec) (m : Mach) : Mach :=
  let t := tileAsked c
  let reqv := bit c.pkt.p0 63
  let ri := fld c.pkt.p0 62 50
  let reuse := reqv && (tileOf m ri).valid
  let place := accPick m (blockSize t)
  let stop := firstStop (
    [stopIf (!m.regs.lv) csMishomed,
     stopIf (t.dstBerth && (!berthHome fx m t.dst || (t.auxdst ≠ 0 && !berthHome fx m t.auxdst))) csMishomed,
     stopIf (openBad t) csBadParam, openIndexStop m c,
     stopIf (place.isNone || (!reuse && !reqv && (fqPeek 8192 m.red.tileQ).isNone)) csNoSpace] ++
    (tileRanges t).map (tileRangeStop fx m (cCtx c)) ++
    [stopIf (mapMeets fx (tileWrites fx m t ++ tileReads fx m t)) csBadParam,
     stopIf (!confDest m (cCtx c) false (tileWrites fx m t)) csDenied])
  match stop with
  | some s => complete fx c s [] m
  | none =>
    let i := if reqv then ri else (fqPeek 8192 m.red.tileQ).getD 0
    let q := if reuse then m.red.tileQ else if reqv then fqTake i m.red.tileQ else fqPop 8192 m.red.tileQ
    let g := if reuse then (tileOf m i).gen + 1 else (tileOf m i).gen
    let b := place.getD 0
    let m := if reuse then unbind i m else m
    let m := setTile i { t with gen := g, base := BitVec.ofNat 15 b } { m with red := { m.red with tileQ := q } }
    complete fx c csDone [tileAddr fx m i g, BitVec.ofNat 64 b] m

/-- What TILE_CLOSE meets (07, The drain; 08 R254; 09 R273; 14 R369; 15 R400). INIT and LINE nonzero are BAD_PARAM after STALE_HANDLE
(log 137, DESIGN CHOICE). -/
def closeStop (fx : Fixed) (m : Mach) (c : Rec) (sparse : Bool) : Option Nat :=
  let a := c.pkt.p0
  let i := tIdx a
  let t := tileOf m i
  let broken := (hopOfTile m i t.gen).any fun j => (hopOf m j).broken
  firstStop [tileCmdStop fx m a, stopIf (!tileBare a) csBadParam, stopIf (tileForeign m c a) csTileBusy,
    stopIf (t.st = .closed && !broken && !t.lost) csBadParam,
    stopIf (!t.lost && t.dstv && t.st = .opened && !(ctxReach m (cCtx c) true (tileWrites fx m t) && ctxReach m (cCtx c) false (tileReads fx m t))) csDenied,
    stopIf (!t.lost && t.dstv && t.st = .opened && sparse) csSparse]

/-- TILE_CLOSE takes its cut-off (07 R231, R232; 08 R250, R254); `sparse` says that a destination lies in a sparse page. -/
def cmdTileClose (fx : Fixed) (c : Rec) (sparse : Bool) (m : Mach) : Mach :=
  match closeStop fx m c sparse with
  | some s => complete fx c s [] m
  | none =>
    let i := tIdx c.pkt.p0
    let t := tileOf m i
    let cp : CloseProg :=
      { tile := BitVec.ofNat 13 i, buf := t.epoch, late := 0, draining := false, bias := [], made := false,
        todo := [], left := 0, bytes := 0, poisoned := false, exp := bufExp t t.epoch, ovf := bufOvf t t.epoch }
    if t.lost then complete fx c csPoisoned [0, 0, closeRes2 cp 0] (unbind i m)
    else
      let m := if t.dbuf then setTile i { t with epoch := !t.epoch } m
        else if t.st = .opened then setTile i { t with st := .closing } m else m
      let m := match hopOfTile m i t.gen with
        | some j => if (hopOf m j).cut then m else setHop j { hopOf m j with cut := true, tick := hopNow m (hopOf m j) } m
        | none => m
      runOn c (.close cp) m

/-- A tile given up (07 R238): its lines and its index are freed. -/
def freeTile (i : Nat) (m : Mach) : Mach :=
  let t := tileOf m i
  setTile i { Tile.free with gen := t.gen + 1 } { m with red := { m.red with tileQ := fqPush i m.red.tileQ } }

/-- The entries of the queues that name a tile; and the folds. -/
def dropFolds (i : Nat) (m : Mach) : Mach :=
  (m.red.folds.filter (·.src.toNat = i)).foldl (fun m f =>
    let m := { m with red := { m.red with folds := m.red.folds.filter (·.id ≠ f.id) } }
    respond f.r opTFOLD stStale 0 (BitVec.ofNat 16 (f.applied * 256)) [] m) m

/-- A tile discarded: a bound hop breaks with cause 5 (08 R254), and its record goes once its forwards are answered. -/
def discardTile (fx : Fixed) (i : Nat) (m : Mach) : Mach :=
  let m := match hopOfTile m i (tileOf m i).gen with
    | some j => if (hopOf m j).broken then m else breakHop fx j 5 m
    | none => m
  stepHops fx (freeTile i (dropFolds i m))

/-- A tile's cut-off under TILE_DISCARD while a fold still names it (07 R231, R238): later contributions are LATE. -/
def cutTile (fx : Fixed) (i : Nat) (m : Mach) : Mach :=
  let m := match hopOfTile m i (tileOf m i).gen with | some j => breakHop fx j 5 m | none => m
  let t := tileOf m i
  if t.st = .opened then setTile i { t with st := .closing } m else m

/-- A TILE_DISCARD that waits for folds carried on (07 R238). -/
def pumpDiscard (fx : Fixed) (c : Rec) (m : Mach) : Mach :=
  let i := tIdx c.pkt.p0
  if foldHolds fx m i then m else complete fx c csDone [(tileOf m i).late.zeroExtend 64] (discardTile fx i m)

/-- TILE_DISCARD (07 R238); INIT and LINE nonzero are BAD_PARAM after STALE_HANDLE (log 137, DESIGN CHOICE). -/
def cmdTileDiscard (fx : Fixed) (c : Rec) (m : Mach) : Mach :=
  let a := c.pkt.p0
  match firstStop [tileCmdStop fx m a, stopIf (!tileBare a) csBadParam, stopIf (tileForeign m c a) csTileBusy] with
  | some s => complete fx c s [] m
  | none =>
    let late := (tileOf m (tIdx a)).late
    if foldHolds fx m (tIdx a) then runOn c (.drainRefs 0) (cutTile fx (tIdx a) m)
    else complete fx c csDone [late.zeroExtend 64] (discardTile fx (tIdx a) m)

/-- Words W0 and W1 of a descriptor (07 Table RED-4). -/
def tileW0 (t : Tile) : W64 :=
  let st := match t.st with | .opened => 0 | .closing => 1 | .closed => 2
  BitVec.ofNat 64 (b2n t.valid * 2 ^ 63 + st * 2 ^ 61 + b2n t.dbuf * 2 ^ 60 + b2n t.epoch * 2 ^ 59 + b2n t.dstv * 2 ^ 57 +
    t.ctx.toNat * 2 ^ 45 + t.cgen.toNat * 2 ^ 37 + t.gen.toNat * 2 ^ 29 + t.shape.toNat * 2 ^ 26 + t.kind.toNat * 2 ^ 24 +
    b2n t.round * 2 ^ 23 + t.outfmt.toNat * 2 ^ 19 + t.act.toNat * 2 ^ 17 + t.biasmode.toNat * 2 ^ 15 + t.base.toNat)
def tileW1 (t : Tile) : W64 :=
  BitVec.ofNat 64 (t.exp0.toNat * 2 ^ 56 + t.exp1.toNat * 2 ^ 48 + t.infl0.toNat * 2 ^ 36 + t.infl1.toNat * 2 ^ 24 +
    t.late.toNat * 2 ^ 8 + b2n t.ovf0 * 2 ^ 7 + b2n t.ovf1 * 2 ^ 6 + b2n t.dstBerth * 2 ^ 3)

/-- TILE_QUERY (07 R239). R239 places no check of INIT and LINE in P0: nonzero, they are answered BAD_PARAM after STALE_HANDLE, as in
TILE_CLOSE and TILE_DISCARD (log 137, DESIGN CHOICE). -/
def cmdTileQuery (fx : Fixed) (c : Rec) (m : Mach) : Mach :=
  let a := c.pkt.p0
  match firstStop [tileCmdStop fx m a, stopIf (!tileBare a) csBadParam] with
  | some s => complete fx c s [] m
  | none =>
    let t := tileOf m (tIdx a)
    complete fx c csDone [tileW0 t, tileW1 t, bufTouch t t.epoch] m

/-- NEXT or PREV names another processor. -/
def towAbroad (fx : Fixed) (c : Rec) : Bool :=
  let far := fun (a : W64) => a ≠ 0 && decide (fld a 63 48 ≠ fx.procId.toNat)
  far c.pkt.p1 || far c.pkt.p2

/-- TILE, NEXT and PREV have INIT and LINE zero. -/
def towBare (c : Rec) : Bool := tileBare c.pkt.p0 && tileBare c.pkt.p1 && tileBare c.pkt.p2

/-- TOWLINE_SET with RELEASE (08 R247). -/
def cmdTowRelease (fx : Fixed) (c : Rec) (m : Mach) : Mach :=
  let a := c.pkt.p0
  let i := tIdx a
  match firstStop [tileCmdStop fx m a, stopIf (tileForeign m c a) csTileBusy] with
  | some s => complete fx c s [] m
  | none =>
    match hopOfTile m i (tileOf m i).gen with
    | none => complete fx c csBadParam [] m
    | some j => if (hopOf m j).cut then complete fx c csBusy [] m else complete fx c csDone [] (freeHop j m)

/-- TOWLINE_SET (08 R247). -/
def cmdTowSet (fx : Fixed) (c : Rec) (m : Mach) : Mach :=
  let p := c.pkt
  let i := tIdx p.p0
  let t := tileOf m i
  let hop := fld p.p3 13 8
  let last := fld p.p3 5 0
  match firstStop [tileCmdStop fx m p.p0, stopIf (tileForeign m c p.p0) csTileBusy,
      stopIf (t.st ≠ .opened || t.dbuf || (hopOfTile m i t.gen).isSome || decide (last < hop) ||
        (decide (p.p2 = 0) != decide (hop = 0)) || (decide (p.p1 = 0) != decide (hop = last)) || !towBare c) csBadParam,
      stopIf (fqPeek 1024 m.red.hopQ).isNone csNoSpace] with
  | some s => complete fx c s [] m
  | none =>
    let j := (fqPeek 1024 m.red.hopQ).getD 0
    let h : Hop :=
      { Hop.free with
        valid := true, hop := BitVec.ofNat 6 hop, last := BitVec.ofNat 6 last, tile := BitVec.ofNat 13 i, tgen := t.gen
        next := p.p1, prev := p.p2, chain := BitVec.ofNat 32 (fld p.p3 63 32) }
    complete fx c csDone [BitVec.ofNat 64 j] (setHop j h { m with red := { m.red with hopQ := fqPop 1024 m.red.hopQ } })

end Sys2Proof.Machine
end

