-- ==== Sys2Proof/Machine/HostMsgs.lean ====
section
/-! DEFINITION. Host messages: their checks, the access each makes, responses to snoops, hung agents, and the reclaim of an
agent (11_host_coherence.md). -/

namespace Sys2Proof.Machine

/-- Location of a host error: agent and line (15 Table ECC-4). -/
def hostLoc (h : HostMsg) : Nat := h.agent.toNat * 2 ^ 52 + fld h.address 34 7 * 128

/-- A host message on a channel that is not its own (11 R306): discarded, logged, counted. -/
def hostStray (fx : Fixed) (h : HostMsg) (m : Mach) : Mach := count 0x010 (logErr fx 0x39 0 (hostLoc h) m)

/-- A message of CLASS and MSG that the slice handles, with every reserved bit zero (11 R307, R308). -/
def hostFields (h : HostMsg) : Bool := decide (h.rsvd = 0) && decide (h.status = 0) && decide (fld h.address 5 0 = 0)

/-- A mode-0 fence is walking the directory: its step 4 (15 R418). -/
def fenceWalks (m : Mach) : Bool := m.cmds.running.any fun r => match r.prog with | .fence p => decide (p.phase = 4) | _ => false

/-- A snoop to the agent for the half is outstanding. -/
def crosses (m : Mach) (l : LineNo) (h : HostMsg) : Bool :=
  m.dir.snoops.any fun s => s.line = l && s.half = hostHalf h && s.agent = h.agent

/-- The access of a host request to its line. -/
def hostAccess (cls msg : BitVec 4) (h : HostMsg) (l : LineNo) : Access :=
  let hf := b2n (hostHalf h)
  let sect : BitVec 4 := if hostHalf h then 0xC else 0x3
  let bytes : BitVec 128 := BitVec.ofNat 128 ((if msg = 1 then h.be.toNat else 2 ^ 64 - 1) * 2 ^ (64 * hf))
  let a : Access :=
    { op := .hostInv, src := .host cls msg h, line := l, sect, crit := if hostHalf h then 2 else 0, bytes := 0, data := 0, early := false,
      acked := false, snooped := false, counted := true }
  if cls = 1 then { a with op := .hostWrite, bytes := bytes, data := BitVec.ofNat 1024 (h.data.toNat * 2 ^ (512 * hf)) }
  else if msg = 1 ∨ msg = 2 then { a with op := .hostRead }
  else a

/-- A MemClnEvct that crosses a snoop to its sender (11 Table COH-7): the agent is removed, and its answer counts as none. -/
def crossEvict (h : HostMsg) (l : LineNo) (m : Mach) : Mach :=
  let mark := fun (s : Snoop) => if s.line = l ∧ s.half = hostHalf h ∧ s.agent = h.agent then { s with taken := true } else s
  let m := { m with dir := { m.dir with snoops := m.dir.snoops.map mark } }
  let m := match dirFind m l with | some k => setDir k (removeAgent (hostHalf h) h.agent (dirEnt m k)) m | none => m
  count 0x051 (ndr h 0 stOk m)

/-- A Req or RwD at the head of its landing, checked in the order of 11 R310 (01 R33, R31; 11 R308); none when it stays. -/
def serveHost (fx : Fixed) (cls msg : BitVec 4) (h : HostMsg) (t : Option Taken) (m : Mach) : Option Mach :=
  let home := memHome fx m h.address
  let evict := cls = 0 && msg = 7
  let passes := fenceWalks m && (cls = 1 || evict) && (match home with | .at o => crosses m (lineOfOff o) h | _ => false)
  if fencedLike m && !passes then some (count 0x011 (ndr h 0 stMishomed m))
  else match home with
    | .mishomed => some (count 0x011 (ndr h 0 stMishomed m))
    | .denied => some (count 0x010 (ndr h 0 stDenied m))
    | .at off =>
      let l := lineOfOff off
      if !hostFields h then some (count 0x010 (ndr h 0 stDenied m))
      else if !m.regs.hostEn then some (ndr h 0 stDenied m)
      else if cls = 1 && !m.dir.en.getLsbD h.agent.toNat then some (ndr h 0 stDenied (logErr fx 0x39 0 (hostLoc h) m))
      else if evict && crosses m l h then some (crossEvict h l m)
      else submit fx { hostAccess cls msg h l with ctl := t } m

/-- BIConflict (11 Table COH-7): answered at once, from the stop of the snoop it meets. -/
def serveConflict (fx : Fixed) (h : HostMsg) (m : Mach) : Mach :=
  let ack := fun (st : Stop) (m : Mach) => departed m.regs.hostTc 0 none stOk (emit (.ndr st 4 h.agent h.ctag stOk) m)
  if fencedLike m then count 0x011 (ndr h 0 stMishomed m)
  else match memHome fx m h.address with
    | .mishomed => count 0x011 (ndr h 0 stMishomed m)
    | .denied => count 0x010 (ndr h 0 stDenied m)
    | .at off =>
      if !hostFields h then count 0x010 (ndr h 0 stDenied m)
      else if !m.regs.hostEn then ndr h 0 stDenied m
      else
        let hit := m.dir.snoops.find? fun s => s.line = lineOfOff off && s.half = hostHalf h && s.agent = h.agent
        count 0x051 (ack ((hit.map (·.stop)).getD h.stop) m)

/-- A Req or RwD that the slice does not handle (11 R308). -/
def serveRefused (fx : Fixed) (h : HostMsg) (m : Mach) : Mach :=
  if fencedLike m then count 0x011 (ndr h 0 stMishomed m)
  else match memHome fx m h.address with
    | .mishomed => count 0x011 (ndr h 0 stMishomed m)
    | _ => count 0x010 (ndr h 0 stDenied m)

/-! ### Responses to snoops -/

/-- The agent's state for a half set by a BIRsp (11 R318): 0 I, 1 S, 2 A. -/
def setAgent (k : Nat) (h : Bool) (x : BitVec 4) (st : Nat) (m : Mach) : Mach :=
  let e := dirEnt m k
  if st = 2 then setDir k (tidyShr (setHalf h .a x e)) m
  else if st = 1 then
    let e := if halfSt e h = .s then e else setHalf h .s 0 e
    setDir k { e with shr := e.shr ||| ((1 : BitVec 16) <<< x.toNat) } m
  else setDir k (removeAgent h x e) m

/-- The agents that a host request now waiting on a line's half asks for. -/
def askers (m : Mach) (l : LineNo) (h : Bool) : List (BitVec 4) :=
  m.cache.replay.filterMap fun p =>
    match p.acc.src with
    | .host _ _ x => if p.acc.line = l && p.acc.snooped && hostHalf x = h then some x.agent else none
    | _ => none

/-- The last invalidating snoop of a half is answered (11 R313): nobody holds the half, unless the request that snooped came
from an agent that shares it. -/
def clearHalf (l : LineNo) (h : Bool) (m : Mach) : Mach :=
  if m.dir.snoops.any fun s => s.line = l && s.half = h && s.kind = 2 then m
  else match dirFind m l with
    | none => m
    | some k =>
      let e := dirEnt m k
      if halfSt e h = .s && !((askers m l h).any fun x => e.shr.getLsbD x.toNat) then setDir k (tidyShr (setHalf h .i 0 e)) m else m

/-- A snoop is answered with a state for its agent: 0 I, 1 S, 2 A. -/
def endSnoop (fx : Fixed) (s : Snoop) (st : Nat) (m : Mach) : Mach :=
  let m := { m with dir := { m.dir with snoops := m.dir.snoops.filter (·.ctag ≠ s.ctag) } }
  match s.rcl with
  | some _ => pumpRecalls fx m
  | none =>
    let m := match dirFind m s.line with | some k => setAgent k s.half s.agent st m | none => m
    dirSettle s.line (if s.kind = 2 then clearHalf s.line s.half m else m)

/-- A BIRsp (11 R308, R310, R318, R321). -/
def serveBirsp (fx : Fixed) (msg : BitVec 4) (h : HostMsg) (m : Mach) : Mach :=
  if m.life.st = .off then m else
  match m.dir.snoops.find? fun s => s.agent = h.agent && s.ctag = h.ctag with
  | none => hostStray fx h m
  | some s =>
    if !h.rightChannel || decide (2 < msg.toNat) then hostStray fx h m
    else if !m.dir.en.getLsbD h.agent.toNat then logErr fx 0x39 0 (hostLoc h) m
    else
      let loc := h.agent.toNat * 2 ^ 52 + locM s.line
      let m := (needDom (dDir (quadOf s.line)) m).1
      if s.taken then endSnoop fx s 0 m
      else if s.kind = 2 then
        let m := if msg = 0 then m
          else post fx 0x09 (BitVec.ofNat 64 (msg.toNat * 2 ^ 12 + h.agent.toNat)) (logErr fx 0x39 0 loc m)
        endSnoop fx s 0 m
      else if s.kind = 1 then endSnoop fx s (min 1 msg.toNat) (if msg = 2 then logErr fx 0x39 0 loc m else m)
      else endSnoop fx s msg.toNat m

/-- SNOOP_TIMEOUT (11 R324): the agent is marked hung. -/
def snoopExpire (fx : Fixed) (ctag : BitVec 16) (m : Mach) : Mach :=
  match m.dir.snoops.find? (·.ctag = ctag) with
  | none => m
  | some s =>
    let n := s.agent.toNat
    if m.regs.snoopTimeout = 0 || decide (tickOf m.cyc < s.tick + m.regs.snoopTimeout.toNat) || m.dir.hung.getLsbD n then m
    else post fx 0x08 (s.agent.zeroExtend 64) { m with dir := { m.dir with hung := m.dir.hung ||| ((1 : BitVec 16) <<< n) } }

/-! ### DIR_RECLAIM -/

/-- A line poisoned (11 R326): in the cache, in the slipway, or in memory; none when a port write has no room. -/
def poisonLine (fx : Fixed) (l : LineNo) (m : Mach) : Option Mach :=
  match hitWay m l with
  | some w =>
    let t := tagAt m (setOf l) w
    let z := t.z &&& t.v
    let m := setData (setOf l) w (mergeSect (rawData m (setOf l) w) 0 (~~~t.v)) m
    some (markRewritten l (setTag (setOf l) w { t with v := 0xF, d := 0xF, z := z, poison := true } m))
  | none =>
    match slipOf m l with
    | some s =>
      if s.issued then (if writeRoom m then some (writePoisoned fx l s.data s.zero s.cls .none m) else none)
      else some { m with cache := { m.cache with writes := m.cache.writes.map fun w => if w.index = s.index then { w with poison := true } else w } }
    | none => if writeRoom m then some (writePoisoned fx l 0 0 m.regs.maintTc .none m) else none

/-- Lines of which an agent owns a half, in an entry. -/
def ownsHalf (e : DirEnt) (n : BitVec 4) (h : Bool) : Bool := halfSt e h = .a && halfOwn e h = n

/-- A set at which a reclaim's step waits is held RECLAIM. -/
def holdEnt (k : Nat) (m : Mach) : Mach :=
  let e := dirEnt m k
  let m := { m with dir := { m.dir with reclaim := some (k / 16) } }
  if e.tr = .stable && !dirFree e then setDir k { e with tr := .reclaim } m else m

/-- Snoops to an agent that no slot has taken yet ask nothing more of it (11 R326): they were never outstanding. -/
def dropOwing (n : BitVec 4) (l : LineNo) (m : Mach) : Mach :=
  let gone := m.dir.owing.filter fun o => decide (o.1 = l) && decide (o.2.2.1 = n)
  let m := { m with dir := { m.dir with owing := m.dir.owing.filter fun o => !(decide (o.1 = l) && decide (o.2.2.1 = n)) } }
  gone.foldl (fun m o => dirSettle l (clearHalf l o.2.1 m)) m

/-- A line can be poisoned now: its domains are ready and no fill of it is under way. -/
def poisonReady (who : Nat) (l : LineNo) (m : Mach) : Mach × Bool :=
  let ds := dTag (quadOf l) :: (match hitWay m l with | some w => [dWay m (setOf l) w] | none => [])
  let (m, ok) := waitDoms who ds m
  (m, ok && !((ticketFor m l).any joinable || m.sparse.fills.any (·.line = l)))

/-- An agent's state in an entry taken away (11 R326). -/
def reclaimed (n : BitVec 4) (e : DirEnt) : DirEnt :=
  let e := if ownsHalf e n false then setHalf false .i 0 e else e
  let e := if ownsHalf e n true then setHalf true .i 0 e else e
  let e := dropSharer n e
  let e := if e.shr = 0 then (let e := if e.st0 = .s then setHalf false .i 0 e else e; if e.st1 = .s then setHalf true .i 0 e else e) else e
  tidyShr { e with tr := if e.tr = .reclaim then .stable else e.tr }

/-- One entry of a reclaim (11 R326): lines poisoned and snoops completed; none, with the entry held, when its step must wait. -/
def reclaimEnt (fx : Fixed) (id k : Nat) (n : BitVec 4) (m : Mach) : Mach × Option (Nat × Nat) :=
  let e := dirEnt m k
  let l := dirLine k e
  let lost := ownsHalf e n false || ownsHalf e n true
  let (m, ok) := if lost then poisonReady id l m else (m, true)
  if !ok then (holdEnt k m, none) else
  match (if lost then poisonLine fx l m else some m) with
  | none => (holdEnt k m, none)
  | some m =>
    let m := dropOwing n l (setDir k (reclaimed n (dirEnt m k)) { m with dir := { m.dir with reclaim := none } })
    let ss := m.dir.snoops.filter fun s => s.line = l && s.agent = n && s.rcl.isNone
    (ss.foldl (fun m s => endSnoop fx s 0 m) m, some (b2n lost, ss.length))

end Sys2Proof.Machine
end

