-- ==== Sys2Proof/Machine/Keys.lean ====
section
/-! DEFINITION. Key slots: requests for key material and their answers, grants, rotation, retirement, erasure, attachment and
measurement (14_confidential_operation.md, 02_boundary.md R56 to R58, 15 R401). -/

namespace Sys2Proof.Machine

/-! ### Objects of a context -/

/-- Objects that a context owns here (03 R93). -/
def ownedCount (m : Mach) (c : Ctx) (g : Gen) : Nat :=
  (m.berth.berths.filter fun x => (x.2.valid || x.2.freeing) && decide (x.2.ctx = c)).length +
  (m.berth.arenas.filter fun x => x.2.valid && decide (x.2.ctx = c)).length +
  (m.berth.ferries.filter fun x => x.2.valid && decide (x.2.ctx = c)).length +
  (m.red.tiles.filter fun x => x.2.valid && decide (x.2.ctx = c)).length +
  (m.sparse.scat.filter fun x => x.2.valid && decide (x.2.ctx = c)).length + ownedObjs m c g

/-! ### Requests -/

/-- The request as it leaves on the key bus (02 Table PORT-13). -/
def sendKreq (q : KReq) (m : Mach) : Mach :=
  if q.bound then emit (.kreqBound q.slot q.gen q.bindh q.ctx q.num) m else emit (.kreq q.slot q.gen q.ctx q.cgen q.num) m

/-- Request numbers in use on the key bus: key requests, and the image of a stage in progress. -/
def reqNums (m : Mach) : List Nat :=
  (m.keys.reqs.map (·.num.toNat)) ++
  (m.cmds.running.filterMap fun r => match r.prog with | .stage _ _ _ (some n) _ => some n.toNat | _ => none)

/-- A request for key material under the lowest free number (log 11). -/
def newKreq (slot : BitVec 9) (gen bound : Bool) (bindh : BitVec 16) (ctx : Ctx) (cgen : Gen) (cmd : Option Nat) (m : Mach) :
    Mach × BitVec 16 :=
  let n : BitVec 16 := BitVec.ofNat 16 ((lowestFree (reqNums m) 0 65536).getD 0)
  let q : KReq := { num := n, slot, gen, bound, bindh, ctx, cgen, fails := 0, cmd }
  (sendKreq q { m with keys := { m.keys with reqs := m.keys.reqs ++ [q] } }, n)

/-- A request answered. -/
def dropKreq (n : BitVec 16) (m : Mach) : Mach := { m with keys := { m.keys with reqs := m.keys.reqs.filter (·.num ≠ n) } }

/-- The command that waits for a request. -/
def kreqRun (m : Mach) (q : KReq) : Option Run := q.cmd.bind fun id => m.cmds.running.find? (·.cmd.id = id)

/-! ### Erasure -/

/-- Writes of lines under a slot whose current generation holds no key material: discarded, and done as if acknowledged
(14 R383). -/
def discardWrites (fx : Fixed) (k : BitVec 9) (m : Mach) : Mach :=
  if genHolds (kslot m k) (kslot m k).cur then m
  else (m.cache.writes.filter fun w => w.keyv && w.keyslot = k && !w.issued).foldl (fun m w => portAck fx w (count 0x021 m)) m

/-- A rotation sweep of a slot stopped. -/
def stopRot (k : BitVec 9) (m : Mach) : Mach :=
  setSlot k { kslot m k with sweep := false } { m with keys := { m.keys with rots := m.keys.rots.filter (·.slot ≠ k) } }

/-- The generations marked as an erasure empties them (14 R361). -/
def erasedNow (m : Mach) (k : BitVec 9) (g0 g1 : Bool) : Tbl Nat :=
  let t := if g0 && (kslot m k).v0 then tset 0 m.keys.erased (k.toNat * 2) 1 else m.keys.erased
  if g1 && (kslot m k).v1 then tset 0 t (k.toNat * 2 + 1) 1 else t

/-- Generations of a slot erased (14 R382, R383): its sweep stops; with none left, its grants end and it is free unless an
open context owns it. -/
def eraseSlot (fx : Fixed) (k : BitVec 9) (g0 g1 : Bool) (m : Mach) : Mach :=
  let m := stopRot k m
  let s := kslot m k
  let m := { m with keys := { m.keys with erased := erasedNow m k g0 g1 } }
  let s := if g0 then { s with v0 := false, g0 := .zero } else s
  let s := if g1 then { s with v1 := false, g1 := .zero } else s
  let owner := ctxOf m s.owner
  let owned := s.kind = 1 && owner.opened && owner.gen = s.ogen && owner.keyv && owner.keyslot = k
  let gone := !slotHolds s
  let m := { m with keys := { m.keys with reqs := m.keys.reqs.filter fun q =>
    !(q.cmd.isNone && q.slot = k && (if q.gen then g1 else g0)) } }
  let m := if gone then { m with keys := { m.keys with grants := m.keys.grants.filter (·.slot ≠ k) } } else m
  let m := setSlot k (if gone && !owned then .free else s) m
  discardWrites fx k (emit (.kackSlot k false) m)

/-- Generations of a slot that hold key material. -/
def genCount (s : KeySlot) : Nat := b2n s.v0 + b2n s.v1

/-- KERASE from the security block (02 R58, 14 R382), in every season of the cipher. Selector 0b00, which Table PORT-13 does not list,
erases nothing and is answered with KACK (log 113, DESIGN CHOICE). -/
def kerase (fx : Fixed) (k : BitVec 9) (sel : BitVec 2) (m : Mach) : Mach :=
  if m.life.st = .off then m
  else if sel = 0 then emit (.kackSlot k false) m
  else eraseSlot fx k (sel.getLsbD 0) (sel.getLsbD 1) m

/-- Every cache line whose tag names a slot discarded without write-back (14 R365). -/
def dropSlotLines (k : BitVec 9) (m : Mach) : Mach :=
  (m.cache.tags.filter fun x => x.2.keyv && x.2.keyslot = k && decide (x.2.v ≠ 0) &&
    !(setStOf m (x.1 / 32)).pin.getLsbD (x.1 % 32)).foldl (fun m x => dropWay (x.1 / 32) (x.1 % 32) m) m

/-! ### Key material arrives -/

/-- Material of one generation written into a slot. -/
def putGen (g : Bool) (k : KeyMat) (s : KeySlot) : KeySlot := if g then { s with v1 := true, g1 := k } else { s with v0 := true, g0 := k }

/-- The lines of a slot's ranges as runs, ascending (14 R373). -/
def slotRuns (m : Mach) (k : BitVec 9) : List (Nat × Nat) :=
  let en := (m.keys.krt.filter (·.2.en)).map (·.2)
  let cuts := sortBy (fun (a b : Nat) => decide (a ≤ b)) (en.flatMap fun r => [r.base.toNat, r.limit.toNat + 1]).dedup
  (cuts.zip (cuts.drop 1)).filterMap fun x =>
    match rangeFrom m x.1 0 64 with
    | some r => if r.keyslot = k then some (x.1 * 32, (x.2 - x.1) * 32) else none
    | none => none

/-- A grant given, in place of one the context held (14 R375). -/
def putGrant (k : BitVec 9) (c : Ctx) (load : Bool) (m : Mach) : Mach :=
  let g : Grant := ⟨k, c, (ctxOf m c).gen, load⟩
  { m with keys := { m.keys with grants := m.keys.grants.filter (fun x => !(x.slot = k && x.ctx = c)) ++ [g] } }

/-- There is room for a grant of the slot to the context (14 R375). -/
def grantRoom (m : Mach) (k : BitVec 9) (c : Ctx) : Bool :=
  decide (m.keys.grants.length < 1024) || m.keys.grants.any fun g => g.slot = k && g.ctx = c

/-- The context of a CTX_OPEN command opened (03 R90). -/
def openCtx (c : Rec) (m : Mach) : Mach :=
  let p := c.pkt.p0
  setCtx (cCtx c) { CtxEntry.closed with
    gen := cGen c, opened := true, keyv := bit p 21, keyslot := if bit p 21 then BitVec.ofNat 9 (fld p 20 12) else 0
    perm := BitVec.ofNat 8 (fld p 11 4), cls := BitVec.ofNat 4 (fld p 3 0) } m

/-- A command's request is granted its key (14 R365, R372, R375); the room for its grant is looked at again. -/
def keyGranted (fx : Fixed) (run : Run) (q : KReq) (key : KeyMat) (m : Mach) : Mach :=
  let c := run.cmd
  let s := kslot m q.slot
  if c.opcode = 0x10 then
    let m := if slotHolds s then dropSlotLines q.slot m else m
    let m := markErased q.slot false false (setSlot q.slot { KeySlot.free with kind := 1, v0 := true, owner := q.ctx, ogen := q.cgen, g0 := key } m)
    complete fx c csDone [] (pump fx (openCtx c m))
  else if c.opcode = 0x81 then
    let rate : BitVec 16 := BitVec.ofNat 16 (fld c.pkt.p0 31 16)
    let m := markErased q.slot q.gen false (setSlot q.slot { putGen q.gen key s with cur := q.gen, sweep := true } m)
    complete fx c csDone [] (pump fx { m with keys := { m.keys with rots := m.keys.rots ++ [⟨q.slot, rate, slotRuns m q.slot, false⟩] } })
  else if !grantRoom m q.slot q.ctx then complete fx c csNoSpace [] m
  else
    if s.kind = 2 && s.v0 then
      (if key.check = s.g0.check then complete fx c csDone [] (putGrant q.slot q.ctx (cFlag c 1) m) else complete fx c csDenied [] m)
    else
      let m := markErased q.slot false false (setSlot q.slot { KeySlot.free with kind := 2, v0 := true, bindh := q.bindh, g0 := key } m)
      complete fx c csDone [] (pump fx (putGrant q.slot q.ctx (cFlag c 1) m))

/-- A reload after a parity error fails for good (15 R401): the generation is erased. -/
def keyLost (fx : Fixed) (q : KReq) (m : Mach) : Mach :=
  pump fx (discardWrites fx q.slot (stopRot q.slot (logErr fx 0x2C 0 (locO 7 q.slot.toNat) m)))

/-- A request failed (02 R57): sent again twice; the third failure is logged and ends it. -/
def kreqFails (fx : Fixed) (q : KReq) (m : Mach) : Mach :=
  if q.fails < 2 then
    let q' := { q with fails := q.fails + 1 }
    sendKreq q' { m with keys := { m.keys with reqs := m.keys.reqs.map fun x => if x.num = q.num then q' else x } }
  else
    let m := logErr fx 0x38 0 (locO 7 q.slot.toNat) (dropKreq q.num m)
    match kreqRun m q with
    | some run => complete fx run.cmd csBusy [] m
    | none => if q.cmd.isNone then keyLost fx q m else m

/-- KLOAD (02 R57): accepted when its parity and check word are right and its request is outstanding; else rejected, and the request it
names fails. R57 does not say what becomes of one whose header names another slot or generation than its request's: it is rejected
too (log 112, DESIGN CHOICE). -/
def kloadArrive (fx : Fixed) (slot : BitVec 9) (gen : Bool) (request : BitVec 16) (key : KeyMat) (ok : Bool) (m : Mach) : Mach :=
  if m.life.st = .off then m else
  match m.keys.reqs.find? (·.num = request) with
  | none => emit (.kackRejected request) m
  | some q =>
    if !ok || q.slot ≠ slot || q.gen ≠ gen then kreqFails fx q (emit (.kackRejected request) m)
    else
      let m := dropKreq request (needDom dCipher m).1
      match kreqRun m q with
      | some run => keyGranted fx run q key m
      | none =>
        if q.cmd.isNone then
          pump fx (logErr fx 0x2B 0 (locO 7 slot.toNat) (markErased slot gen false (setSlot slot (putGen gen key (kslot m slot)) m)))
        else m

/-- KNACK (14 R365): the command is refused; a reload ends as lost (log 24). -/
def knackArrive (fx : Fixed) (request : BitVec 16) (reason : Byte) (m : Mach) : Mach :=
  match m.keys.reqs.find? (·.num = request) with
  | none => m
  | some q =>
    let m := dropKreq request m
    match kreqRun m q with
    | some run => complete fx run.cmd csDenied [reason.zeroExtend 64] m
    | none => if q.cmd.isNone then keyLost fx q m else m

/-- A parity error in a key register (15 R401): the generation is asked for again, unless a request for it is out. -/
def keyParity (_fx : Fixed) (k : BitVec 9) (g : Bool) (m : Mach) : Mach :=
  let s := kslot m k
  if !genHolds s g || m.keys.reqs.any (fun q => q.cmd.isNone && q.slot = k && q.gen = g) then m else
  let m := markErased k g true (setSlot k (if g then { s with v1 := false, g1 := .zero } else { s with v0 := false, g0 := .zero }) m)
  if s.kind = 2 then
    match m.keys.grants.find? (·.slot = k) with
    | some gr => (newKreq k g true s.bindh gr.ctx gr.gen none m).1
    | none => (newKreq k g true s.bindh 0 0 none m).1
  else (newKreq k g false 0 s.owner s.ogen none m).1

/-! ### Commands -/

/-- Lines that the rotation sweep of a slot has not yet passed. -/
def rotLeft (m : Mach) (k : BitVec 9) : Nat := (m.keys.rots.filter (·.slot = k)).foldl (fun n r => n + (r.runs.map (·.2)).sum) 0

/-- CTX_OPEN (03 R90; 16 R437; 14 R365). -/
def cmdCtxOpen (fx : Fixed) (c : Rec) (m : Mach) : Mach :=
  let e := ctxOf m (cCtx c)
  let k : BitVec 9 := BitVec.ofNat 9 (fld c.pkt.p0 20 12)
  let s := kslot m k
  let o := ctxOf m s.owner
  if e.opened || e.gen = cGen c then complete fx c csBadParam [e.gen.zeroExtend 64] m
  else if tickOf m.cyc < e.holdTick then complete fx c csBusy [BitVec.ofNat 64 (e.holdTick - tickOf m.cyc)] m
  else if !bit c.pkt.p0 21 then complete fx c csDone [] (openCtx c m)
  else if s.kind = 2 || s.kind = 3 || s.sweep || (s.kind = 1 && s.owner ≠ cCtx c && o.opened && o.gen = s.ogen) then
    complete fx c csBadParam [] m
  else
    let (m, n) := newKreq k false false 0 (cCtx c) (cGen c) (some c.id) m
    runOn c (.key n) m

/-- KEY_BIND (14 R375). -/
def cmdKeyBind (fx : Fixed) (c : Rec) (m : Mach) : Mach :=
  let k : BitVec 9 := BitVec.ofNat 9 (fld c.pkt.p0 8 0)
  let h : BitVec 16 := BitVec.ofNat 16 (fld c.pkt.p0 31 16)
  let s := kslot m k
  let load := cFlag c 1
  if (s.kind ≠ 0 && s.kind ≠ 2) || (s.kind = 2 && s.bindh ≠ h) then complete fx c csBadParam [] m
  else if load && m.keys.grants.any (fun g => g.slot = k && g.load && g.ctx ≠ cCtx c) then complete fx c csBusy [] m
  else if !grantRoom m k (cCtx c) then complete fx c csNoSpace [] m
  else
    let (m, n) := newKreq k false true h (cCtx c) (cGen c) (some c.id) m
    runOn c (.key n) m

/-- KEY_BIND with REVOKE (14 R375): LOAD must be zero. -/
def cmdKeyUnbind (fx : Fixed) (c : Rec) (m : Mach) : Mach :=
  let k : BitVec 9 := BitVec.ofNat 9 (fld c.pkt.p0 8 0)
  if cFlag c 1 then complete fx c csBadParam [] m
  else complete fx c csDone [] { m with keys := { m.keys with grants := m.keys.grants.filter fun g => !(g.slot = k && g.ctx = cCtx c) } }

/-- KEY_ROTATE (14 R371, R372). -/
def cmdKeyRotate (fx : Fixed) (c : Rec) (m : Mach) : Mach :=
  let k : BitVec 9 := BitVec.ofNat 9 (fld c.pkt.p0 8 0)
  let s := kslot m k
  if fld c.pkt.p0 31 16 = 0 || s.kind ≠ 1 then complete fx c csBadParam [] m
  else if s.v0 && s.v1 then complete fx c csBusy [1] m
  else
    let (m, n) := newKreq k (!s.cur) false 0 s.owner s.ogen (some c.id) m
    runOn c (.key n) m

/-- A retirement whose reads have all returned (14 R374). -/
def finishRetire (fx : Fixed) (c : Rec) (k : BitVec 9) (m : Mach) : Mach :=
  let s := kslot m k
  let s := if s.cur then { s with v0 := false, g0 := .zero } else { s with v1 := false, g1 := .zero }
  complete fx c csDone [] (emit (.kackSlot k true) (setSlot k s m))

/-- KEY_RETIRE (14 R374): it waits for the reads under the slot that are on the port. -/
def cmdKeyRetire (fx : Fixed) (c : Rec) (m : Mach) : Mach :=
  let k : BitVec 9 := BitVec.ofNat 9 (fld c.pkt.p0 8 0)
  let s := kslot m k
  if !(s.v0 && s.v1) then complete fx c csBadParam [] m
  else if s.sweep then complete fx c csBusy [BitVec.ofNat 64 (rotLeft m k)] m
  else
    let reads := (m.cache.tickets.filter fun t => t.issued && t.range.any fun r => r.keyslot = k).map (·.num)
    if reads = [] then finishRetire fx c k m else runOn c (.retire k reads) m

/-- KEY_RETIRE_READS_DRAINED: the retirements of a slot whose reads have returned complete. -/
def retireDrained (fx : Fixed) (k : BitVec 9) (m : Mach) : Mach :=
  m.cmds.running.foldl (fun m r =>
    match r.prog with
    | .retire s [] => if s = k then finishRetire fx r.cmd k m else m
    | _ => m) m

/-- A port read has returned: no retirement waits for it. -/
def readBack (n : BitVec 10) (m : Mach) : Mach :=
  { m with cmds := { m.cmds with running := m.cmds.running.map fun r =>
      match r.prog with
      | .retire k l => { r with prog := .retire k (l.filter (· ≠ n)) }
      | _ => r } }

/-- KEY_ERASE (14 R382). -/
def cmdKeyErase (fx : Fixed) (c : Rec) (m : Mach) : Mach :=
  let k : BitVec 9 := BitVec.ofNat 9 (fld c.pkt.p0 8 0)
  let n := genCount (kslot m k)
  complete fx c csDone [BitVec.ofNat 64 n] (eraseSlot fx k true true m)

/-- A power reading rounded to the nearest multiple of 8 units, halves up (14 R388); one that rounds past the pins' twelve
bits has no stated value. -/
def round8 (n : Nat) : BitVec 12 :=
  let p := (Config.freePower n).toNat
  if (p + 4) / 8 * 8 < 4096 then BitVec.ofNat 12 ((p + 4) / 8 * 8) else Config.freePower (n + 1)

/-- CONF_ATTACH (14 R376, R386, R388): from the first attachment on, counters show what the latest dump latched, and the
power reading is coarse. -/
def cmdConfAttach (fx : Fixed) (c : Rec) (m : Mach) : Mach :=
  let k : BitVec 9 := BitVec.ofNat 9 (fld c.pkt.p0 8 0)
  let e := ctxOf m (cCtx c)
  if !e.keyv || e.keyslot ≠ k then complete fx c csBadParam [] m
  else if e.conf then complete fx c csDone [] m
  else
    let n := ownedCount m (cCtx c) (cGen c)
    if n ≠ 0 then complete fx c csBusy [BitVec.ofNat 64 n] m
    else
      let first := !confPresent m
      let m := setCtx (cCtx c) { e with conf := true } (setSlot k { kslot m k with conf := true } m)
      let m := if first then
          { m with
            life := { m.life with pmTlm := round8 m.freeN }
            freeN := m.freeN + 2
            pmc := { m.pmc with nextDue := if m.pmc.interval = 0 then m.cyc + 67108864 else m.pmc.nextDue } }
        else m
      complete fx c csDone [] m

/-- A digest slot. -/
def digestOf (m : Mach) (i : Nat) : Digest := tget .empty m.keys.digests i
def setDigest (i : Nat) (d : Digest) (m : Mach) : Mach := { m with keys := { m.keys with digests := tset .empty m.keys.digests i d } }

/-- MEASURE_READ (14 R380). -/
def cmdMeasureRead (fx : Fixed) (c : Rec) (m : Mach) : Mach :=
  let i := fld c.pkt.p0 3 0
  let d := digestOf m i
  if d.st = 0 then complete fx c csBadParam [] m
  else
    let d := if d.st = 1 then { d with st := 2, h := shaFinal d.h d.bytes.toNat } else d
    let x := shaDigest d.h
    let m := emit (.kdigest (BitVec.ofNat 4 i) d.taint d.owner d.ogen d.bytes x) (setDigest i d m)
    complete fx c (if d.taint then csPoisoned else csDone)
      [d.bytes.zeroExtend 64, x.extractLsb' 0 64, x.extractLsb' 64 64] m

end Sys2Proof.Machine
end

