-- ==== Sys2Proof/Machine/Pilot.lean ====
section
/-! DEFINITION. The pilot, contexts and the level (03_command_channel.md R83 to R99; 16 R437; 17 R445, R446; 09 R268). -/

namespace Sys2Proof.Machine

/-- Version of a firmware bank: A for false. -/
def fwVersion (m : Mach) (b : Bool) : W32 := if b then m.fw.verB else m.fw.verA

/-- NOP. -/
def cmdNop (fx : Fixed) (c : Rec) (m : Mach) : Mach := complete fx c csDone [] m

/-- IDENTIFY (03 R83). -/
def cmdIdentify (fx : Fixed) (c : Rec) (m : Mach) : Mach :=
  complete fx c csDone
    [BitVec.ofNat 64 (0x1C3E * 2 ^ 48 + 0x0001 * 2 ^ 32 + Config.stepping.toNat * 2 ^ 24 + 7 * 2 ^ 16),
     BitVec.ofNat 64 (fx.procId.toNat * 2 ^ 48 + fx.siteId.toNat * 2 ^ 40 + b2n m.regs.lv * 2 ^ 39 + m.regs.logical.toNat * 2 ^ 32 +
       levelNum fx * 2 ^ 24),
     BitVec.ofNat 64 ((fwVersion m m.fw.bankB).toNat * 2 ^ 32)] m

/-- STATE_QUERY. -/
def cmdStateQuery (fx : Fixed) (c : Rec) (m : Mach) : Mach := complete fx c csDone [stateWord fx m] m

/-- The pilot changed (03 R89): an event unless the pilot's master is what it was. -/
def pilotChange (fx : Fixed) (old : BitVec 16) (kind : Nat) (m : Mach) : Mach :=
  if m.pilot.master = old then m
  else post fx 0x02 (BitVec.ofNat 64 (m.pilot.epoch.toNat * 2 ^ 32 + m.pilot.master.toNat * 2 ^ 16 + kind)) m

/-- PILOT_CLAIM (03 R85). -/
def cmdPilotClaim (fx : Fixed) (c : Rec) (m : Mach) : Mach :=
  let ep : W32 := BitVec.ofNat 32 (fld c.pkt.p0 63 32)
  let pr : BitVec 8 := BitVec.ofNat 8 (fld c.pkt.p0 7 0)
  let p := m.pilot
  let ok := (p.master = 0 && decide (p.epoch.toNat ≤ ep.toNat)) || decide (p.epoch.toNat < ep.toNat) ||
    (ep = p.epoch && decide (p.priority.toNat < pr.toNat))
  if ok then
    let m := pilotChange fx p.master 0 { m with pilot := { epoch := ep, master := c.master, priority := pr, leaseFrom := m.cyc } }
    complete fx c csDone [stateWord fx m] m
  else complete fx c csDenied [stateWord fx m] m

/-- PILOT_RELEASE (03 R87). -/
def cmdPilotRelease (fx : Fixed) (c : Rec) (m : Mach) : Mach :=
  let old := m.pilot.master
  complete fx c csDone [] (pilotChange fx old 2 { m with pilot := { m.pilot with master := 0, priority := 0 } })

/-- PILOT_HANDOVER (03 R86). -/
def cmdPilotHandover (fx : Fixed) (c : Rec) (m : Mach) : Mach :=
  let t : BitVec 16 := BitVec.ofNat 16 (fld c.pkt.p0 15 0)
  if !(t = 1 || t = 2 || t = 3) || t = c.master then complete fx c csBadParam [] m
  else
    let old := m.pilot.master
    complete fx c csDone [] (pilotChange fx old 1
      { m with pilot := { m.pilot with master := t, priority := BitVec.ofNat 8 (fld c.pkt.p0 23 16), leaseFrom := m.cyc } })

/-- LEASE_RENEW (03 R88). -/
def cmdLeaseRenew (fx : Fixed) (c : Rec) (m : Mach) : Mach :=
  complete fx c csDone [] { m with pilot := { m.pilot with leaseFrom := m.cyc } }

/-- The lease runs out (03 R88). -/
def leaseExpire (fx : Fixed) (m : Mach) : Mach :=
  if m.pilot.master ≠ 0 ∧ m.pilot.leaseFrom + 268435456 ≤ m.cyc then
    pilotChange fx m.pilot.master 3 { m with pilot := { m.pilot with master := 0, priority := 0 } }
  else m

/-! ### Contexts -/

/-- CTX_SET_CLASS (03 R91). -/
def cmdCtxSetClass (fx : Fixed) (c : Rec) (m : Mach) : Mach :=
  complete fx c csDone [] (setCtx (cCtx c) { ctxOf m (cCtx c) with cls := BitVec.ofNat 4 (fld c.pkt.p0 3 0) } m)

/-- CTX_SUSPEND and CTX_RESUME (03 R92). -/
def cmdCtxSuspend (fx : Fixed) (c : Rec) (m : Mach) : Mach :=
  complete fx c csDone [] (setCtx (cCtx c) { ctxOf m (cCtx c) with suspended := true } m)
def cmdCtxResume (fx : Fixed) (c : Rec) (m : Mach) : Mach :=
  complete fx c csDone [] (setCtx (cCtx c) { ctxOf m (cCtx c) with suspended := false } m)

/-- A slot closed (03 R93; 06 R206; 14 R375; 16 R437): its memberships and grants end, and its teardown hold begins. -/
def closeCtx (fx : Fixed) (c : Ctx) (g : Gen) (m : Mach) : Mach :=
  let m := dropMemberships fx c m
  let m := { m with keys := { m.keys with grants := m.keys.grants.filter (·.ctx ≠ c) }
                    pmc := { m.pmc with permits := m.pmc.permits.filter (·.ctx ≠ c) } }
  setCtx c { CtxEntry.closed with gen := g, holdTick := tickOf m.cyc + max 1 m.regs.holdTicks.toNat } m

/-- CTX_CLOSE (03 R93; 16 R429; 15 R400). -/
def cmdCtxClose (fx : Fixed) (c : Rec) (m : Mach) : Mach :=
  let e := ctxOf m (cCtx c)
  let n := ownedCount m (cCtx c) e.gen
  if n ≠ 0 || e.conf then complete fx c csBusy [BitVec.ofNat 64 n] m
  else complete fx c csDone [] (closeCtx fx (cCtx c) (if e.lost && !e.purged then cGen c else e.gen) m)

/-! ### The level -/

/-- The service state: DEGRADED when a degradation is recorded (17 R445). -/
def serviceState (m : Mach) : SliceState := if m.err.degraded then .degraded else .service

/-- The fixed part after a step: an accepted lock fixes the level, unless one is fixed, and locks the RO/L fields. -/
def lockFixed (fx : Fixed) (m : Mach) : Fixed :=
  match m.life.lockTo with
  | none => fx
  | some l => { fx with level := some (fx.level.getD l), roLocked := true }

/-- A LEVEL_LOCK whose map is cleared, or that clears none, enters service and completes, with the
state word that then stands (03 R99 and its worked example). -/
def finishLock (fx : Fixed) (c : Rec) (m : Mach) : Mach :=
  let up := fun (st : SliceState) => if st = .ready ∨ st = .quiesced then serviceState m else st
  let m := { m with life := { m.life with st := up m.life.st, dbgFrom := if m.life.st = .debug then up m.life.dbgFrom else m.life.dbgFrom } }
  complete fx c csDone [stateWord (lockFixed fx m) m] m

/-- Map lines written as plain zero lines (09 R267) while the port has room (09 R268): `n` at most. -/
def pumpLock (fx : Fixed) (c : Rec) : Nat → Nat → Nat → Mach → Mach
  | 0, next, acked, m => setProg c.id (.lock next acked) m
  | n + 1, next, acked, m =>
    if next ≥ 8192 then setProg c.id (.lock next acked) m
    else
      let l : LineNo := BitVec.ofNat 28 (fx.fmapBase.toNat * 8192 + next)
      let w : PWrite :=
        { line := l, data := 0, zero := 0xF, fmt := 0, keyv := false, keyslot := 0, poison := false,
          cls := 0, slip := false, issued := false, index := 0, seq := 0, rewritten := false, after := .cmd c.id, also := [] }
      let m' := match hitWay m l with | some way => dropWay (setOf l) way m | none => m
      match queueWrite fx w m' with
      | some m => pumpLock fx c n (next + 1) acked m
      | none => setProg c.id (.lock next acked) m

/-- LEVEL_LOCK (03 R99; 17 R445, R446; 09 R268). -/
def cmdLevelLock (fx : Fixed) (c : Rec) (m : Mach) : Mach :=
  let n := fld c.pkt.p0 7 0
  let l : BitVec 2 := BitVec.ofNat 2 n
  if n = 0 then complete fx c csBadParam [] m
  else if m.life.st = .quiesced then
    (if fx.level = some l then finishLock fx c m else complete fx c csBadParam [] m)
  else if fx.level.isSome && fx.level ≠ some l then complete fx c csBadParam [] m
  else
    let m := { m with life := { m.life with lockTo := some l } }
    if l = 3 && fx.fmapEn && !fx.fmapKeep then pumpLock fx c 8192 0 0 (runOn c (.lock 0 0) m)
    else finishLock fx c m

end Sys2Proof.Machine
end

