-- ==== Sys2Proof/Machine/Alloc.lean ====
section
/-! DEFINITION. The device allocator's commands: berths, arenas and arena objects, ferry queues and pin budgets
(05_berths_and_allocator.md R155 to R166, R170, R174). -/

namespace Sys2Proof.Machine

/-- A lost record given back with its index (15 R400). -/
def unlose (kind index : Nat) (m : Mach) : Mach := { m with err := { m.err with lost := m.err.lost.filter (· ≠ kind * 16384 + index) } }

/-- The berth that a handle of a context names (05 R148, R150). -/
def heldBerth (m : Mach) (ctx : Ctx) (h : W64) : Option Nat :=
  let i := hIdx h
  let b := berthOf m i
  if hKind h = 0 && decide (fld h 59 22 = 0) && decide (i < 4096) && b.valid && b.gen = hGen h && b.ctx = ctx then some i else none

/-- The arena, arena object and ferry queue that a handle of a context names. -/
def heldArena (m : Mach) (ctx : Ctx) (h : W64) : Option Nat :=
  let i := hIdx h
  let b := arenaOf m i
  if hKind h = 1 && decide (fld h 59 22 = 0) && decide (i < 64) && b.valid && b.gen = hGen h && b.ctx = ctx then some i else none
def heldObj (m : Mach) (ctx : Ctx) (h : W64) : Option Nat :=
  let i := hIdx h
  let b := objOf m i
  if hKind h = 2 && decide (fld h 59 22 = 0) && b.valid && b.gen = hGen h && b.ctx = ctx then some i else none
def heldQueue (m : Mach) (ctx : Ctx) (h : W64) : Option Nat :=
  let i := hIdx h
  let b := ferryOf m i
  if hKind h = 3 && decide (fld h 59 22 = 0) && decide (i < 1024) && b.valid && !b.closing && b.gen = hGen h && b.ctx = ctx then some i else none

/-- Berths that a command names, with the generation it gives each. -/
def cmdBerths (c : Rec) : List (Nat × Gen) :=
  let h := c.pkt.p0
  let at_ : W64 → List (Nat × Gen) := fun a => [(bIdx a, bGen a)]
  if c.opcode = 0x21 ∨ c.opcode = 0x22 ∨ c.opcode = 0x25 then (if hKind h = 0 then [(hIdx h, hGen h)] else [])
  else if c.opcode = 0x30 ∨ c.opcode = 0x31 then
    (if cFlag c 0 then at_ c.pkt.p0 else []) ++ (if cFlag c 1 then at_ c.pkt.p1 else [])
  else if c.opcode = 0x96 then (if cFlag c 0 then at_ c.pkt.p0 else [])
  else if c.opcode = 0x40 then
    (if cFlag c 1 then (if c.pkt.p1 = 0 then [] else at_ c.pkt.p1) ++ (if c.pkt.p2 = 0 then [] else at_ c.pkt.p2) else [])
  else []

/-- A command names the berth: one that a free under way still holds is named by the generation before (05 R158). -/
def namesBerth (m : Mach) (i : Nat) (c : Rec) : Bool :=
  let b := berthOf m i
  (cmdBerths c).any fun x => x.1 = i && decide (x.2 = if b.freeing then b.gen - 1 else b.gen)

/-- A parked access names a berth (05 R157). -/
def accBerth (m : Mach) (a : Access) (i : Nat) : Bool :=
  match a.src, a.op with
  | .dp _ r, .brd => bIdx r.address = i
  | .dp _ r, .bwr => bIdx r.address = i
  | .dp _ r, .queue => (ferryOf m (fld r.address 9 0)).berth.toNat = i
  | _, _ => false

/-- A request that has taken effect, and whose answer waits for the coalescer, names a berth (06 R196). -/
def heldBack (m : Mach) (x : CoalWait) (i : Nat) : Bool :=
  !x.said && ((x.op = opBWR && decide (bIdx x.r.address = i)) ||
    (x.op = opQENQ && decide ((ferryOf m (fld x.r.address 9 0)).berth.toNat = i)))

/-- REFS of a berth (05 R157): requests admitted, commands started, open tiles that drain to it, hops that write it. -/
def berthRefs (m : Mach) (i : Nat) : Nat :=
  (m.cache.replay.filter fun p => accBerth m p.acc i).length + (m.sync.coalWait.filter fun x => heldBack m x i).length +
  (m.cmds.running.filter fun r => namesBerth m i r.cmd && (match r.prog with | .drainRefs _ => false | _ => true)).length +
  (m.red.tiles.filter fun x => x.2.valid && decide (x.2.st ≠ .closed) && x.2.dstv && x.2.dstBerth && decide (i ∈ tileBerths x.2)).length +
  (m.red.hops.filter fun x => x.2.valid && decide (x.2.hop = x.2.last) &&
    (let t := tileOf m x.2.tile.toNat; t.dstv && t.dstBerth && decide (i ∈ tileBerths t))).length

/-- A berth being freed whose REFS are zero is released, with the event its free asked for (05 R158). -/
def releaseIfDone (fx : Fixed) (i : Nat) (m : Mach) : Mach :=
  let b := berthOf m i
  if b.freeing && berthRefs m i = 0 then
    let m := releaseBerth i (unlose 1 i m)
    if b.event then post fx 0x04 (handleOf 0 (b.gen - 1) i) m else m
  else m

/-! ### Berths -/

/-- A pinning command that has pinned its ways completes (05 R155, R160). -/
def pumpPin (fx : Fixed) (c : Rec) (b : BitVec 12) (todo : List Nat) (m : Mach) : Mach :=
  match pinWays fx c.id todo m with
  | (m, []) =>
    let i := b.toNat
    let e := berthOf m i
    let m := setBerth i { e with moving := false } m
    if c.opcode = 0x20 then
      complete fx c csDone [handleOf 0 e.gen i, berthAddr fx m i e.gen 0, BitVec.ofNat 64 ((e.size.toNat + 1) * 4096)] m
    else complete fx c csDone [] m
  | (m, todo) => setProg c.id (.pin b todo) m

/-- A berth of n granules allocated (05 R156). -/
def allocBerth (fx : Fixed) (c : Rec) (n : Nat) (m : Mach) : Mach :=
  match fqPeek 4096 m.berth.berthQ with
  | none => complete fx c csNoSpace [] m
  | some i =>
    if mapUsed m + n > 3072 then complete fx c csNoSpace [] m
    else if ctxPinned m (cCtx c) + n > (ctxOf m (cCtx c)).pinCap.toNat then complete fx c csPinLimit [] m
    else match chooseGranules m n (pinnedGranules m) with
      | none => complete fx c csPinLimit [] m
      | some gs =>
        match mapPlace n m with
        | (m, none) => complete fx c csNoSpace [] m
        | (m, some e) =>
          let m := { m with berth := { m.berth with berthQ := fqPop 4096 m.berth.berthQ } }
          let m := setBerth i { Berth.free with
            valid := true, ctx := cCtx c, size := BitVec.ofNat 9 (n - 1), mapbase := BitVec.ofNat 12 e, gen := (berthOf m i).gen, moving := true } m
          let todo := gs.flatMap granuleKeys
          pumpPin fx c (BitVec.ofNat 12 i) todo (runOn c (.pin (BitVec.ofNat 12 i) todo) (putRun e (gs.map (· + 1)) m))

/-- BERTH_ALLOC with ARENA zero. -/
def cmdBerthAlloc (fx : Fixed) (c : Rec) (m : Mach) : Mach :=
  let size := fld c.pkt.p0 31 0
  if !m.regs.lv then complete fx c csMishomed [] m
  else if size = 0 ∨ size > 2097152 then complete fx c csBadParam [] m
  else allocBerth fx c ((size + 4095) / 4096) m

/-- BERTH_ALLOC of an arena object (05 R164). -/
def cmdObjAlloc (fx : Fixed) (c : Rec) (m : Mach) : Mach :=
  if !m.regs.lv then complete fx c csMishomed [] m else
  match heldArena m (cCtx c) c.pkt.p1 with
  | none => complete fx c csStale [] m
  | some a =>
    let ar := arenaOf m a
    let size := pow2Up (fld c.pkt.p0 31 0) 24 256
    if lostObj m 8 a then complete fx c csDenied [] m
    else if size > 64 * 1048576 ∨ size > ar.length then complete fx c csBadParam [] m
    else match buddyPick m a size, fqPeek 16384 m.berth.objQ with
      | some off, some i =>
        let o : ArenaObj := { valid := true, gen := (objOf m i).gen, ctx := cCtx c, arena := BitVec.ofNat 6 a, offset := off, size := size }
        let m := { m with berth := { m.berth with objQ := fqPop 16384 m.berth.objQ, objs := tset .free m.berth.objs i o } }
        complete fx c csDone [handleOf 2 o.gen i, ar.start + BitVec.ofNat 64 off, BitVec.ofNat 64 size] m
      | _, _ => complete fx c csNoSpace [] m

/-- A berth freed (05 R158): the handle is refused from now on. -/
def markFreeing (i : Nat) (event : Bool) (m : Mach) : Mach :=
  let b := berthOf m i
  setBerth i { b with valid := false, freeing := true, gen := b.gen + 1, event := event, moving := false } m

/-- BERTH_FREE of a berth, without ABORT. -/
def cmdBerthFree (fx : Fixed) (c : Rec) (m : Mach) : Mach :=
  match heldBerth m (cCtx c) c.pkt.p0 with
  | none => complete fx c csStale [] m
  | some i =>
    if (berthOf m i).qheld then complete fx c csBusy [1] m
    else
      let m := markFreeing i (cEvent c) m
      complete fx c csDone [BitVec.ofNat 64 (berthRefs m i)] m

/-- BERTH_FREE of an arena object (05 R165). -/
def cmdObjFree (fx : Fixed) (c : Rec) (m : Mach) : Mach :=
  match heldObj m (cCtx c) c.pkt.p0 with
  | none => complete fx c csStale [] m
  | some i => if cFlag c 0 then complete fx c csBadParam [] m else complete fx c csDone [] (freeObj i (unlose 9 i m))

/-- A command stopped (05 R159, 16 R427): it completes with CANCELLED; a copy reports the bytes it has written. -/
def cancelCmd (fx : Fixed) (c : Rec) (p : Option Prog) (m : Mach) : Mach :=
  let m := dropOwn (fun s => s = .cmd c.id) { m with cmds := { m.cmds with waiting := m.cmds.waiting.filter (·.id ≠ c.id) } }
  match p with
  | some (.copyRun q) =>
    complete fx c csCancelled [BitVec.ofNat 64 (q.next * 128), BitVec.ofNat 64 q.poisoned] (dropOwn (fun s => s = .copyRd || s = .copyWr) m)
  | some (.key n) => complete fx c csCancelled [] { m with keys := { m.keys with reqs := m.keys.reqs.filter (·.num ≠ n) } }
  | some (.close q) => complete fx c csCancelled [] (dropOwn (fun s => s = .bias q.tile || s = .drain q.tile) m)
  | some (.maintRun _) =>
    complete fx c csCancelled [] (dropOwn (fun s => s = .maint) { m with sparse := { m.sparse with locked := none } })
  | some (.pin b _) => complete fx c csCancelled [] (setBerth b.toNat { berthOf m b.toNat with moving := false } m)
  | _ => complete fx c csCancelled [] m

/-- Commands that a test picks, started or waiting, all stopped. -/
def cancelAll (fx : Fixed) (pick : Rec → Bool) (m : Mach) : Mach × Nat :=
  let rs := m.cmds.running.filter fun r => pick r.cmd
  let ws := m.cmds.waiting.filter pick
  (ws.foldl (fun m c => cancelCmd fx c none m) (rs.foldl (fun m r => cancelCmd fx r.cmd (some r.prog) m) m), rs.length + ws.length)

/-- Open tiles that drain to a berth lose that destination (05 R159). -/
def dropDest (i : Nat) (m : Mach) : Mach :=
  (m.red.tiles.map (·.1)).foldl (fun m k =>
    let t := tileOf m k
    if t.valid && t.dstv && t.dstBerth && decide (i ∈ tileBerths t) then setTile k { t with dstv := false } m else m) m

/-- BERTH_FREE with ABORT carried on: once the requests admitted before are answered, its granules are released (05 R159). -/
def pumpAbort (fx : Fixed) (c : Rec) (n : Nat) (m : Mach) : Mach :=
  let i := hIdx c.pkt.p0
  if (berthOf m i).freeing && berthRefs m i ≠ 0 then m
  else complete fx c csDone [BitVec.ofNat 64 n] (releaseIfDone fx i m)

/-- BERTH_FREE with ABORT of a berth (05 R159). RES0 counts the commands that complete with CANCELLED: those stopped, and the closes of
tiles that lose their destination; a close whose hop breaks ends with CHAIN_BROKEN and is none of them. -/
def cmdBerthAbort (fx : Fixed) (c : Rec) (m : Mach) : Mach :=
  match heldBerth m (cCtx c) c.pkt.p0 with
  | none => complete fx c csStale [] m
  | some i =>
    if (berthOf m i).qheld then complete fx c csBusy [1] m
    else
      let (m, n) := cancelAll fx (fun x => decide (x.id ≠ c.id) && namesBerth m i x) m
      let hops := m.red.hops.filter fun x => x.2.valid && decide (x.2.hop = x.2.last) &&
        (let t := tileOf m x.2.tile.toNat; t.dstv && t.dstBerth && decide (i ∈ tileBerths t))
      let closing := (m.cmds.running.filter fun r => decide (r.cmd.opcode = 0x41) &&
        decide (i ∈ tileBerths (tileOf m (tIdx r.cmd.pkt.p0))) && !(hops.any fun x => x.2.tile.toNat = tIdx r.cmd.pkt.p0)).length
      let m := dropDest i (hops.foldl (fun m x => breakHop fx x.1 6 m) m)
      let m := markFreeing i (cEvent c) m
      pumpAbort fx c (n + closing) (runOn c (.drainRefs (n + closing)) m)

/-- Ferry queues of a berth, and the bytes one takes from its base. -/
def berthQueues (m : Mach) (i : Nat) : List (Nat × Ferry) := m.berth.ferries.filter fun x => x.2.valid && decide (x.2.berth.toNat = i)
def ferryBytes (f : Ferry) : Nat := eBytes f * 2 ^ f.depth.toNat

/-- A place for a longer run of a berth's map entries: where it lies when the entries behind it are free, else elsewhere. -/
def growPlace (i n k : Nat) (m : Mach) : Mach × Option Nat :=
  let b := berthOf m i
  if freeRun m (b.mapbase.toNat + n) k then (m, some b.mapbase.toNat)
  else
    let run := berthRun m b
    let (m, e) := mapPlace (n + k) (setBerth i { b with valid := false, freeing := false } (dropRun b.mapbase.toNat n m))
    match e with
    | some e => (setBerth i { b with mapbase := BitVec.ofNat 12 e } (putRun e run m), some e)
    | none => (m, none)

/-- BERTH_RESIZE (05 R160). A shrink unpins its granules at once; a request admitted before it and still parked on a line of one is
answered DENIED (log 118, DESIGN CHOICE). A new size of 0 bytes is refused BAD_PARAM (log 124, DESIGN CHOICE). -/
def cmdBerthResize (fx : Fixed) (c : Rec) (m : Mach) : Mach :=
  let size := fld c.pkt.p1 31 0
  match heldBerth m (cCtx c) c.pkt.p0 with
  | none => complete fx c csStale [] m
  | some i =>
    let b := berthOf m i
    let old := b.size.toNat + 1
    let new := (size + 4095) / 4096
    if lostObj m 1 i then complete fx c csDenied [] m
    else if size = 0 ∨ new > 512 then complete fx c csBadParam [] m
    else if new ≤ old then
      if (berthQueues m i).any fun x => x.2.base.toNat * 128 + ferryBytes x.2 > new * 4096 then complete fx c csBusy [] m
      else
        let gone := (berthRun m b).drop new
        let m := dropRun (b.mapbase.toNat + new) (old - new) (unpinGranules (gone.map (· - 1)) m)
        complete fx c csDone [] (setBerth i { b with size := BitVec.ofNat 9 (new - 1), srcv := false } m)
    else
      let k := new - old
      if mapUsed m + k > 3072 then complete fx c csNoSpace [] m
      else if ctxPinned m (cCtx c) + k > (ctxOf m (cCtx c)).pinCap.toNat then complete fx c csPinLimit [] m
      else match chooseGranules m k (pinnedGranules m) with
        | none => complete fx c csPinLimit [] m
        | some gs =>
          match growPlace i old k m with
          | (m, none) => complete fx c csNoSpace [] m
          | (m, some e) =>
            let m := putRun (e + old) (gs.map (· + 1)) m
            let m := setBerth i { berthOf m i with size := BitVec.ofNat 9 (new - 1), srcv := false, moving := true } m
            let todo := gs.flatMap granuleKeys
            pumpPin fx c (BitVec.ofNat 12 i) todo (runOn c (.pin (BitVec.ofNat 12 i) todo) m)

/-- PIN_BUDGET (05 R161). -/
def cmdPinBudget (fx : Fixed) (c : Rec) (m : Mach) : Mach :=
  let n := fld c.pkt.p0 11 0
  if n > 3072 then complete fx c csBadParam [] m
  else
    let x := cCtx c
    complete fx c csDone [BitVec.ofNat 64 (ctxPinned m x)] (setCtx x { ctxOf m x with pinCap := BitVec.ofNat 12 n } m)

/-! ### Arenas -/

/-- Live arenas. -/
def liveArenas (m : Mach) : List Arena := (m.berth.arenas.map (·.2)).filter (·.valid)

/-- ARENA_GRANT (05 R163). -/
def cmdArenaGrant (fx : Fixed) (c : Rec) (m : Mach) : Mach :=
  let start := c.pkt.p0
  let n := c.pkt.p1.toNat
  if !m.regs.lv then complete fx c csMishomed [] m
  else if !((List.range 9).any fun k => n = 1048576 * 2 ^ k) || start.toNat % n ≠ 0 then complete fx c csBadParam [] m
  else if !rangeHomed fx m start n then complete fx c csMishomed [] m
  else if mapMeets fx (rangeRuns fx m start n) then complete fx c csBadParam [] m
  else if (liveArenas m).any (fun a => runsMeet (rangeRuns fx m a.start a.length) (rangeRuns fx m start n)) then complete fx c csBadParam [] m
  else if (liveArenas m).length ≥ 64 ∨ ((liveArenas m).map (·.length)).sum + n > 268435456 then complete fx c csNoSpace [] m
  else match fqPeek 64 m.berth.arenaQ with
    | none => complete fx c csNoSpace [] m
    | some i =>
      let a : Arena :=
        { valid := true, gen := (arenaOf m i).gen, ctx := cCtx c, start := start,
          base := BitVec.ofNat 35 (((lineAt fx m start).elim 0 (·.toNat)) * 128), length := n }
      complete fx c csDone [handleOf 1 a.gen i]
        { m with berth := { m.berth with arenaQ := fqPop 64 m.berth.arenaQ, arenas := tset .free m.berth.arenas i a } }

/-- An arena removed with its objects: their indices are freed, then its own (05 R166). -/
def dropArena (i : Nat) (m : Mach) : Mach :=
  let m := unlose 8 i ((arenaObjs m i).foldl (fun m x => freeObj x.1 (unlose 9 x.1 m)) m)
  let a := arenaOf m i
  { m with berth := { m.berth with
      arenas := tset .free m.berth.arenas i { Arena.free with gen := a.gen + 1 }
      arenaQ := fqPush i m.berth.arenaQ } }

/-- ARENA_REVOKE (05 R166); OPFLAGS bit 0 is FORCE. -/
def cmdArenaRevoke (fx : Fixed) (c : Rec) (m : Mach) : Mach :=
  match heldArena m (cCtx c) c.pkt.p0 with
  | none => complete fx c csStale [] m
  | some i =>
    let n := (arenaObjs m i).length
    if lostObj m 8 i && !cFlag c 0 then complete fx c csDenied [] m
    else if n ≠ 0 && !cFlag c 0 then complete fx c csBusy [BitVec.ofNat 64 n] m
    else complete fx c csDone [] (dropArena i m)

/-! ### Ferry queues -/

/-- Fields of QUEUE_CREATE that it refuses (05 R170), given its berth. -/
def queueBad (m : Mach) (c : Rec) (i : Nat) : Bool :=
  let p := c.pkt.p1
  let es := fld p 49 47
  let d := fld p 46 42
  let base := fld p 63 50 * 128
  let len := 8 * 2 ^ es * 2 ^ d
  let nv := bit p 41
  let o := syncObj m (BitVec.ofNat 14 (fld p 32 19))
  let x := cCtx c
  decide (es > 4) || decide (d < 4) || decide (d > 16) || decide (base + len > ((berthOf m i).size.toNat + 1) * 4096) ||
  ((berthQueues m i).any fun f => overlaps (f.2.base.toNat * 128) (ferryBytes f.2) base len) ||
  (if nv then
     !(o.valid && o.kind = 0 && decide (o.gen.toNat = fld p 40 33) && mayUse m (BitVec.ofNat 14 (fld p 32 19)) x (ctxOf m x).gen &&
       (ctxOf m x).perm.getLsbD (permBit opSIGNAL))
   else decide (fld p 40 19 ≠ 0))

/-- QUEUE_CREATE (05 R170). -/
def cmdQueueCreate (fx : Fixed) (c : Rec) (m : Mach) : Mach :=
  if !m.regs.lv then complete fx c csMishomed [] m else
  match heldBerth m (cCtx c) c.pkt.p0 with
  | none => complete fx c csStale [] m
  | some i =>
    if lostObj m 1 i then complete fx c csDenied [] m
    else if queueBad m c i then complete fx c csBadParam [] m
    else match fqPeek 1024 m.berth.ferryQ with
      | none => complete fx c csNoSpace [] m
      | some q =>
        let p := c.pkt.p1
        let f : Ferry :=
          { valid := true, gen := (ferryOf m q).gen, ctx := cCtx c, berth := BitVec.ofNat 12 i, base := BitVec.ofNat 14 (fld p 63 50),
            esize := BitVec.ofNat 3 (fld p 49 47), depth := BitVec.ofNat 5 (fld p 46 42), notifyV := bit p 41,
            ngen := BitVec.ofNat 8 (fld p 40 33), notify := BitVec.ofNat 14 (fld p 32 19), head := 0, tail := 0, closing := false }
        let m := { m with berth := { m.berth with ferryQ := fqPop 1024 m.berth.ferryQ } }
        complete fx c csDone [handleOf 3 f.gen q] (setBerth i { berthOf m i with qheld := true } (setFerry q f m))

/-- A queue's index is freed, and its berth no longer holds it (05 R174). -/
def dropQueue (q : Nat) (m : Mach) : Mach :=
  let f := ferryOf m q
  let m := setFerry q { Ferry.free with gen := if f.closing then f.gen else f.gen + 1 } (unlose 2 q m)
  let m := { m with berth := { m.berth with ferryQ := fqPush q m.berth.ferryQ } }
  let i := f.berth.toNat
  if berthQueues m i = [] then setBerth i { berthOf m i with qheld := false } m else m

/-- Operations that have reached the queue unit and wait (05 R174). -/
def queueParked (m : Mach) (q : Nat) : Bool :=
  m.cache.replay.any fun p => p.acc.op = .queue && decide (p.acc.line.toNat = q)

/-- QUEUE_DESTROY carried on: it completes when the operations that reached the queue unit before it are answered. -/
def pumpQueue (fx : Fixed) (c : Rec) (m : Mach) : Mach :=
  let q := hIdx c.pkt.p0
  if queueParked m q then m else complete fx c csDone [BitVec.ofNat 64 (ferryOcc (ferryOf m q))] (dropQueue q m)

/-- QUEUE_DESTROY (05 R174): the generation advances at once. -/
def cmdQueueDestroy (fx : Fixed) (c : Rec) (m : Mach) : Mach :=
  match heldQueue m (cCtx c) c.pkt.p0 with
  | none => complete fx c csStale [] m
  | some q =>
    let f := ferryOf m q
    pumpQueue fx c (runOn c (.drainRefs 0) (setFerry q { f with gen := f.gen + 1, closing := true } m))

end Sys2Proof.Machine
end

