-- ==== Sys2Proof/Machine/Copy.lean ====
section
/-! DEFINITION. COPY and COPY_MEASURE, and the copy engine (05_berths_and_allocator.md R152, R167 to R169; 14 R377, R379). -/

namespace Sys2Proof.Machine

/-- A finished access of an engine taken from those that have come in. -/
def takeDone (p : Src → Bool) (m : Mach) : Mach × Option Done :=
  let is := fun (d : Done) => match d with | .read s _ _ _ => p s | .write s _ => p s | .fail s _ _ => p s | .ack _ _ => false | .raw _ _ _ => false
  match m.cache.done.find? is with
  | none => (m, none)
  | some d => ({ m with cache := { m.cache with done := m.cache.done.eraseP is } }, some d)

/-- An engine's access tried, and kept to be tried again when it must wait. -/
def doOwn (fx : Fixed) (a : Access) (m : Mach) : Mach :=
  match tryAccess fx a m with
  | (m, .done, _) => m
  | (m, g, a) => let (m, a) := noteSlept g a m; askOwn a m

/-- The engines' accesses that wait, tried in order. -/
def retryOwn (fx : Fixed) : List Access → Mach → Mach
  | [], m => m
  | a :: t, m => retryOwn fx t (doOwn fx a m)
def pumpOwn (fx : Fixed) (m : Mach) : Mach := retryOwn fx m.cache.own { m with cache := { m.cache with own := [] } }

/-- Length of a copy, in bytes; its source and destination ranges in memory. -/
def copyLen (c : Rec) : Nat := c.pkt.p2.toNat
def copySrc (fx : Fixed) (m : Mach) (c : Rec) : List (Nat × Nat) := if cFlag c 0 then [] else rangeRuns fx m c.pkt.p0 (copyLen c)
def copyDst (fx : Fixed) (m : Mach) (c : Rec) : List (Nat × Nat) := if cFlag c 1 then [] else rangeRuns fx m c.pkt.p1 (copyLen c)
/-- The digest slot that a COPY_MEASURE names. -/
def copySlot (c : Rec) : Nat := fld c.pkt.p3 3 0

/-- Fields of a copy that are out of range (05 R167; 14 R379). -/
def copyBad (m : Mach) (c : Rec) : Bool :=
  let n := copyLen c
  decide (fld c.pkt.p0 6 0 ≠ 0) || decide (fld c.pkt.p1 6 0 ≠ 0) || decide (n % 128 ≠ 0) || decide (n < 128) || decide (n > 2 ^ 35) ||
  (c.opcode = 0x31 &&
    (let d := digestOf m (copySlot c)
     if cFlag c 3 then d.st = 1 else !(d.st = 1 && d.owner = cCtx c && d.ogen = cGen c)))

/-- What a copy meets before it is held; `sparse` says whether its destination touches a sparse page. -/
def copyStop (fx : Fixed) (m : Mach) (c : Rec) (sparse : Bool) : Option Nat :=
  let n := copyLen c
  let sb := cFlag c 0
  let db := cFlag c 1
  let src := copySrc fx m c
  let dst := copyDst fx m c
  firstStop
    [stopIf ((sb && !berthHome fx m c.pkt.p0) || (db && !berthHome fx m c.pkt.p1)) csMishomed,
     stopIf (copyBad m c) csBadParam,
     stopIf ((!sb && !rangeHomed fx m c.pkt.p0 n) || (!db && !rangeHomed fx m c.pkt.p1 n)) csMishomed,
     if sb then berthRange m (cCtx c) c.pkt.p0 n else none,
     if db then berthRange m (cCtx c) c.pkt.p1 n else none,
     stopIf (runsMeet src dst || (sb && db && bIdx c.pkt.p0 = bIdx c.pkt.p1 && overlaps (bOff c.pkt.p0) n (bOff c.pkt.p1) n)) csBadParam,
     stopIf (mapMeets fx (src ++ dst)) csBadParam,
     stopIf (!ctxReach m (cCtx c) false src || !ctxReach m (cCtx c) true dst || !confDest m (cCtx c) true dst) csDenied,
     stopIf sparse csSparse]

/-- A copy held by the engine or run by it. -/
def isCopy (p : Prog) : Bool := match p with | .copyHeld => true | .copyRun _ => true | _ => false

/-- A digest that measures one line, 128 zero bytes for a poisoned one (14 R379); one that MEASURE_READ has made final stays so (R380). -/
def measureLine (c : Rec) (d : Line) (poison : Bool) (m : Mach) : Mach :=
  if c.opcode = 0x31 then
    let s := digestOf m (copySlot c)
    if s.st ≠ 1 then m else
    setDigest (copySlot c) { s with h := shaLine s.h (if poison then 0 else d), bytes := s.bytes + 128, taint := s.taint || poison } m
  else m

/-- MARK_SOURCE (05 R152). -/
def markSource (c : Rec) (p : CopyProg) (m : Mach) : Mach :=
  let i := bIdx c.pkt.p1
  let b := berthOf m i
  if cFlag c 2 && cFlag c 1 && !cFlag c 0 && decide (p.poisoned = 0) && decide (bOff c.pkt.p1 = 0) && decide (copyLen c = (b.size.toNat + 1) * 4096) then
    setBerth i { b with srcv := true, src := c.pkt.p0 } m
  else m

/-- The next line read: held at once from a berth, asked for from memory. -/
def copyRead (fx : Fixed) (c : Rec) (p : CopyProg) (m : Mach) : Mach × CopyProg × Bool :=
  if cFlag c 0 then
    let i := bIdx c.pkt.p0
    let off := bOff c.pkt.p0 + p.next * 128
    let w := berthPlace m (berthOf m i) off
    let (m, ok) := waitDoms c.id [dTag (w.1 % 4), dWay m w.1 w.2] m
    if !ok then (m, p, false) else
    let (m, again) := scanBerth fx w.1 w.2 0xF i off m
    if again then (startReload fx w.1 w.2 i off m, p, false)
    else (m, { p with held := some (wayData m w.1 w.2, (tagAt m w.1 w.2).poison) }, true)
  else match lineAt fx m (c.pkt.p0 + BitVec.ofNat 64 (p.next * 128)) with
    | none => (m, { p with held := some (0, true) }, true)
    | some l => (doOwn fx (ownRead .copyRd .readStream l) m, { p with waiting := true }, true)

/-- The line held written. -/
def copyWrite (fx : Fixed) (c : Rec) (p : CopyProg) (d : Line) (poison : Bool) (m : Mach) : Mach × CopyProg × Bool :=
  let past := { p with next := p.next + 1, held := none, waiting := false, poisoned := p.poisoned + b2n poison }
  if cFlag c 1 then
    let i := bIdx c.pkt.p1
    let w := berthPlace m (berthOf m i) (bOff c.pkt.p1 + p.next * 128)
    let (m, ok) := waitDoms c.id [dTag (w.1 % 4), dWay m w.1 w.2] m
    if !ok then (m, p, false) else
    let m := unmarkSource i (writeBerthWay w.1 w.2 (BitVec.allOnes 128) d m)
    let m := setTag w.1 w.2 { tagAt m w.1 w.2 with poison := poison } m
    (measureLine c d poison m, past, true)
  else match lineAt fx m (c.pkt.p1 + BitVec.ofNat 64 (p.next * 128)) with
    | none => (measureLine c d poison m, past, true)
    | some l => (doOwn fx { ownWrite .copyWr .write l (BitVec.allOnes 128) d with psn := poison } m, { p with waiting := true }, true)

/-- The running copy carried on, line after line, while nothing makes it wait; `n` bounds the steps. -/
def runCopy (fx : Fixed) (c : Rec) : Nat → CopyProg → Mach → Mach × CopyProg
  | 0, p, m => (m, p)
  | n + 1, p, m =>
    if p.waiting then
      match takeDone (fun s => s = .copyRd || s = .copyWr) m with
      | (m, some (.read _ _ d x)) => runCopy fx c n { p with waiting := false, held := some (d, x) } m
      | (m, some _) =>
        let h := p.held.getD (0, false)
        runCopy fx c n { p with next := p.next + 1, held := none, waiting := false, poisoned := p.poisoned + b2n h.2 } (measureLine c h.1 h.2 m)
      | (m, none) => (m, p)
    else if p.next ≥ p.lines then (m, p)
    else
      let (m, p, go) := match p.held with
        | none => copyRead fx c p m
        | some (d, x) => copyWrite fx c p d x m
      if go then runCopy fx c n p m else (m, p)

/-- The running copy carried on as far as it can be, and completed at its end. -/
def pumpCopy (fx : Fixed) (m : Mach) : Mach :=
  match runningCmd m isCopyRun with
  | some ⟨c, .copyRun p⟩ =>
    let (m, ok) := waitDom c.id dEngine m
    if !ok then m else
    let (m, p) := runCopy fx c (4 * (p.lines - p.next) + 4) p m
    if p.next ≥ p.lines then
      complete fx c (if p.poisoned = 0 then csDone else csPoisoned)
        [BitVec.ofNat 64 (p.lines * 128), BitVec.ofNat 64 p.poisoned] (markSource c p m)
    else setProg c.id (.copyRun p) m
  | _ => m

/-- The engine takes the oldest copy it holds (05 R169). -/
def startCopy (fx : Fixed) (m : Mach) : Mach :=
  if (runningCmd m isCopyRun).isSome then m else
  match m.cmds.running.find? (fun r => r.prog = .copyHeld) with
  | none => m
  | some r =>
    pumpCopy fx (setProg r.cmd.id (.copyRun { next := 0, lines := copyLen r.cmd / 128, poisoned := 0, held := none, waiting := false }) m)

/-- A copy accepted: it runs at once when the engine is idle, and is held otherwise. -/
def acceptCopy (fx : Fixed) (c : Rec) (sparse : Bool) (m : Mach) : Mach :=
  let held := (m.cmds.running.filter fun r => isCopy r.prog).length
  match copyStop fx m c sparse with
  | some s => complete fx c s [] m
  | none =>
    if held ≥ 8 then complete fx c csBusy [] m
    else
      let m := if c.opcode = 0x31 ∧ cFlag c 3 then
          setDigest (copySlot c) { st := 1, taint := false, owner := cCtx c, ogen := cGen c, bytes := 0, h := shaPack sha384Init } m
        else m
      let m := runOn c .copyHeld m
      if held = 0 then startCopy fx m else m

/-- COPY (05 R167). -/
def cmdCopy (fx : Fixed) (c : Rec) (sparse : Bool) (m : Mach) : Mach := acceptCopy fx c sparse m

/-- COPY_MEASURE (14 R379). -/
def cmdCopyMeasure (fx : Fixed) (c : Rec) (sparse : Bool) (m : Mach) : Mach := acceptCopy fx c sparse m

end Sys2Proof.Machine
end

