-- ==== Sys2Proof/Machine/Maint.lean ====
section
/-! DEFINITION. The maintenance engine: range commands, packing and unpacking of pages, acquire sweeps, reclaim of a host
agent, bank sparing and way retirement (04_cache.md R136 to R140; 09 R275 to R278; 10 R300 to R304; 11 R325, R326; 15 R415 to R417). -/

namespace Sys2Proof.Machine

/-! ### Requests admitted and not yet answered -/

/-- The data-plane request an access serves. -/
def accReq (a : Access) : List (BitVec 6 × Req) := match a.src with | .dp op r => [(op, r)] | _ => []

/-- The request that waits for a write's acknowledgement, by what an access gives. -/
def writeReqs (of : Access → List (BitVec 6 × Req)) (w : WAfter) : List (BitVec 6 × Req) :=
  match w with | .thruHit _ _ a => of a | .thruMiss a => of a | .merge a => of a | _ => []

/-- Requests on their way through the slice, parked waits apart, by what an access gives of them. -/
def underWay (of : Access → List (BitVec 6 × Req)) (m : Mach) : List (BitVec 6 × Req) :=
  (m.cache.replay.flatMap fun p => of p.acc) ++ (m.cache.tickets.flatMap fun t => t.waiters.flatMap of) ++
  (m.sparse.fills.flatMap fun f => f.waiters.flatMap of) ++ (m.cache.writes.flatMap fun w => writeReqs of w.after) ++
  ((m.red.qN ++ m.red.qS).filterMap fun e => if e.fold.isNone then some (e.opcode, e.r) else none) ++
  (m.red.folds.map fun f => (opTFOLD, f.r)) ++ m.sync.thawQ ++
  (m.sync.coalWait.flatMap fun x => if x.said then [] else [(x.op, x.r)])

/-- The request that waits for a write's acknowledgement. -/
def writeReq (w : WAfter) : List (BitVec 6 × Req) := writeReqs accReq w

/-- Data-plane requests admitted and not yet answered, parked waits apart (05 R157, 10 R301, 15 R418). -/
def admitted (m : Mach) : List (BitVec 6 × Req) := underWay accReq m

/-- A request by its requester and tag. -/
def reqKey (r : Req) : BitVec 16 × BitVec 12 := (r.source, r.tag)
def admittedKeys (m : Mach) : List (BitVec 16 × BitVec 12) := (admitted m).map fun x => reqKey x.2

/-- Write-class opcodes (10 R301). -/
def writeClass : List (BitVec 6) := [opWR, opWRTHRU, opWRFULL, opATOM, opATOMRET, opLRED, opSCATTER, opBWR]

/-- Some request of a list is still unanswered. -/
def stillOut (m : Mach) (ks : List (BitVec 16 × BitVec 12)) : Bool := (admittedKeys m).any fun k => decide (k ∈ ks)

/-- The request of an access that has not been performed: an ATOM acknowledged is, though its result has still to be written (06 R181,
10 R286). -/
def openReq (a : Access) : List (BitVec 6 × Req) := if a.acked then [] else accReq a

/-- Write-class requests admitted and not yet performed (10 R286, R301). -/
def unperformed (m : Mach) : List (BitVec 16 × BitVec 12) :=
  ((underWay openReq m).filter fun x => decide (x.1 ∈ writeClass)).map fun x => reqKey x.2

/-- Acknowledgements that have come in for a command taken. -/
def takeAcks (id : Nat) (m : Mach) : Mach × Nat :=
  let mine := fun (d : Done) => match d with | .ack (.cmd i) _ => i = id | _ => false
  ({ m with cache := { m.cache with done := m.cache.done.filter fun d => !mine d } }, (m.cache.done.filter mine).length)

/-! ### Range commands -/

/-- Lines of some runs, in all, and the i-th of them. -/
def runsLen (rs : List (Nat × Nat)) : Nat := (rs.map (·.2)).sum
def runsAt : List (Nat × Nat) → Nat → Option LineNo
  | [], _ => none
  | x :: t, i => if i < x.2 then some (BitVec.ofNat 28 (x.1 + i)) else runsAt t (i - x.2)
def inRuns (rs : List (Nat × Nat)) (l : LineNo) : Bool := rs.any fun x => decide (x.1 ≤ l.toNat) && decide (l.toNat < x.1 + x.2)

/-- Order of the set walk: by set, then by line. -/
def walkKey (l : LineNo) : Nat := setOf l * 2 ^ 28 + l.toNat

/-- Lines of the cache, of the slipway and of the directory: what a set walk meets. -/
def walkLines (m : Mach) : List LineNo :=
  (m.cache.tags.filterMap fun x =>
    if x.2.v ≠ 0 && !((setStOf m (x.1 / 32)).pin.getLsbD (x.1 % 32)) then some (lineOf (x.1 / 32) x.2.tag) else none) ++
  (m.cache.writes.map (·.line)) ++ (m.dir.ents.map fun x => dirLine x.1 x.2)

/-- The next line a walk acts on, and the place after it (04 R139): by address for RANGE_ZERO and up to 4,096 lines, by sets
for a longer range; with HOMED_ONLY the range is its homed part (R136). -/
def rangeNext (m : Mach) (c : Rec) (p : MaintProg) : Option (LineNo × Nat) :=
  if c.opcode = 0x35 ∨ runsLen p.runs ≤ 4096 then (runsAt p.runs p.next).map fun l => (l, p.next + 1)
  else
    let ls := (walkLines m).filter fun l => inRuns p.runs l && decide (p.next ≤ walkKey l)
    match (ls.map walkKey).min? with
    | none => none
    | some k => (ls.find? (walkKey · = k)).map fun l => (l, k + 1)

/-- What a step of the engine comes to. -/
inductive MStep where
  /-- It is done. -/
  | ok (m : Mach) (p : MaintProg)
  /-- It must wait. -/
  | wait (m : Mach) (p : MaintProg)

/-- A line written back, and its valid sectors left Clean (04 Table CACHE-10). -/
def cleanWay (fx : Fixed) (set way id : Nat) (m : Mach) : Freed :=
  let m := (scanWay fx set way 0xF m).1
  let t := tagAt m set way
  if t.v ≠ 0xF ∧ !t.poison then .fill
  else if slipUsed m ≥ 128 then .full
  else
    let kg := t.keyv && (kslot m t.keyslot).cur
    match queueWrite fx (writeOfWay m set way true .slip [id]) (setTag set way { t with d := 0, kgen := kg } m) with
    | some m => .now m
    | none => .full

/-- The slipway entry of a line raised to the head of the port's queue, its acknowledgement awaited by a command. -/
def raiseSlip (w : PWrite) (id : Nat) (m : Mach) : Mach :=
  { m with cache := { m.cache with
      writes := m.cache.writes.map fun v => if v.index = w.index then { v with seq := 0, also := v.also ++ [id] } else v } }

/-- A pending entry discarded: whoever waits for its acknowledgement is told. -/
def discardSlip (w : PWrite) (m : Mach) : Mach := w.also.foldl (fun m id => report (.ack (.cmd id) w.line) m) (dropWrite w.index m)

/-- A zero line written to memory under its range's key (04 Table CACHE-10). -/
def zeroWrite (fx : Fixed) (l : LineNo) (id : Nat) (m : Mach) : Option Mach :=
  let r := rangeAt fx m l
  queueWrite fx
    { line := l, data := 0, zero := 0xF, fmt := 0, keyv := r.isSome, keyslot := (r.map (·.keyslot)).getD 0, poison := false,
      cls := m.regs.maintTc, slip := false, issued := false, index := 0, seq := 0, rewritten := false, after := .cmd id, also := [] } m

/-- A line's entries that are on their way to memory are waited for (04 Table CACHE-8, R138). -/
def awaitSlips (l : LineNo) (id : Nat) (p : MaintProg) (m : Mach) : Mach × MaintProg :=
  ((slipsOf m l).foldl (fun m w => raiseSlip w id m) m, { p with left := p.left + (slipsOf m l).length })

/-- A range command's step on a valid line. -/
def rangeHit (fx : Fixed) (c : Rec) (l : LineNo) (way : Nat) (p : MaintProg) (m : Mach) : MStep :=
  let set := setOf l
  if way ∈ fillingWays m set || (ticketFor m l).any joinable || m.sparse.fills.any (·.line = l) then .wait m p
  else
    let t := tagAt m set way
    let (m, ok) := if c.opcode = 0x35 ∨ c.opcode = 0x33 ∨ t.d = 0 ∨ bankless t = true then (m, true) else waitDom c.id (dWay m set way) m
    if !ok then .wait m p
    else if c.opcode = 0x35 then
      let m := markRewritten l (clearWords set way 0xF m)
      .ok (setTag set way { tagAt m set way with v := 0xF, d := 0xF, z := 0xF, poison := false, cls := m.regs.maintTc } m)
        { p with res1 := p.res1 + 1 }
    else
      let clean := (tagAt m set way).d = 0
      let q := { p with res1 := p.res1 + b2n (c.opcode ≠ 0x32) }
      if clean || c.opcode = 0x33 then
        let (m, q) := awaitSlips l c.id q m
        .ok (if c.opcode = 0x32 then m else dropWay set way m) q
      else
        let m := (scanWay fx set way 0xF m).1
        let ps := b2n (tagAt m set way).poison
        let gone := if c.opcode = 0x32 then cleanWay fx set way c.id m else freeWay fx set way [c.id] m
        match gone with
        | .now m => .ok m { q with res0 := q.res0 + 1, res2 := q.res2 + ps, left := q.left + 1 }
        | .fill => .wait (fillVictim fx set way (classOf m .maint) m) p
        | .full => .wait m p

/-- A range command's step on a line that is not valid (04 Tables CACHE-8, CACHE-10). A slipway entry is no line of the cache: it
counts in no result word (DESIGN CHOICE, log 101). -/
def rangeMiss (fx : Fixed) (c : Rec) (l : LineNo) (p : MaintProg) (m : Mach) : MStep :=
  if m.cache.tickets.any (fun t => t.line = l && t.kind = .merge) || m.cache.writes.any (fun w => isMerge w.after && w.line = l) then .wait m p
  else
    let zero := fun (m : Mach) =>
      if (ticketFor m l).any joinable then MStep.wait m p
      else match zeroWrite fx l c.id m with
        | some m => .ok m { p with res1 := p.res1 + 1, left := p.left + 1 }
        | none => .wait m p
    let drop := fun (m : Mach) => ((slipsOf m l).filter (!·.issued)).foldl (fun m w => discardSlip w m) m
    if c.opcode = 0x35 then (if (slipsOf m l).any (·.issued) then .wait m p else zero (drop m))
    else
      let (m, p) := awaitSlips l c.id p (if c.opcode = 0x33 then drop m else m)
      .ok m p

/-- One line of a range command, at its place in the line's order (04 R118, 10 R285): an earlier request that waits goes first. -/
def rangeLine (fx : Fixed) (c : Rec) (l : LineNo) (p : MaintProg) (m : Mach) : MStep :=
  let (m, ok) := waitDoms c.id [dTag (quadOf l), dDir (quadOf l)] m
  if !ok || waitsBefore m (placed m (ownWrite (.cmd c.id) .write l 0 0)) then .wait m p else
  match dirGate fx l (c.opcode ≠ 0x32) p.snooped false [false, true] (scanDir fx l m) with
  | .sent m => .wait m { p with snooped := true }
  | .wait m => .wait m p
  | .hung => .wait m p
  | .go m =>
    let m := scanSet fx (setOf l) m
    let p := { p with snooped := false }
    match hitWay m l with
    | some way => rangeHit fx c l way p m
    | none => rangeMiss fx c l p m

/-- A range command carried on; `n` bounds its steps. -/
def runRange (fx : Fixed) (c : Rec) : Nat → MaintProg → Mach → Mach × MaintProg × Bool
  | 0, p, m => (m, p, false)
  | n + 1, p, m =>
    match rangeNext m c p with
    | none => (m, p, true)
    | some (l, k) =>
      match rangeLine fx c l p m with
      | .wait m p => (m, { p with at_ := some l }, false)
      | .ok m p => runRange fx c n { p with next := k, at_ := none } m

/-! ### Packing and unpacking (09 R276) -/

/-- Lines of a page. -/
def pageLines (g : Nat) : List LineNo := (List.range 32).map fun i => BitVec.ofNat 28 (g * 32 + i)

/-- A page is still named by an access admitted before its lock, by a fill, or by a request's own write (09 R276). -/
def pageBusy (m : Mach) (g : Nat) : Bool :=
  let old := fun (a : Access) =>
    onMemory a.op && !unordered a.src && decide (granOf a.line = g) && (a.cross || decide (a.ord ≤ m.sparse.lockOrd))
  m.cache.replay.any (fun p => old p.acc) || m.cache.own.any old || m.cache.tickets.any (fun t => granOf t.line = g) ||
  m.sparse.fills.any (fun f => granOf f.line = g) || m.sparse.slots.any (fun s => granOf s.2.1.t.line = g) ||
  m.sparse.failed.any (fun x => granOf x.t.line = g) || m.cache.writes.any (fun w => granOf w.line = g && !w.slip)

/-- A host holds a line of a page, or answers a snoop of one. -/
def pageHeld (m : Mach) (g : Nat) : Bool := (pageLines g).any fun l => (dirFind m l).isSome

/-- The sectors of a page as read: (sector number, its 256 bits), the nonzero ones. -/
def pageSectors (buf : List (LineNo × Line × Bool)) (g : Nat) : List (Nat × BitVec 256) :=
  (List.range 128).filterMap fun s =>
    let d := match buf.find? (fun (x : LineNo × Line × Bool) => x.1.toNat = g * 32 + s / 4) with | some x => x.2.1 | none => 0
    if sector d (s % 4) = 0 then none else some (s, sector d (s % 4))

/-- The header line of a page with some nonzero sectors (09 Table SPARSE-1). -/
def headerLine (ss : List (Nat × BitVec 256)) : Line :=
  BitVec.ofNat 1024 ((ss.map fun x => 2 ^ x.1).sum + ss.length * 2 ^ 128 + 2 ^ 144)

/-- The packed lines of a page, slot by slot: data and ZERO bits. -/
def packedLine (ss : List (Nat × BitVec 256)) (j : Nat) : Line × BitVec 4 :=
  let here := (ss.drop (4 * j)).take 4
  (BitVec.ofNat 1024 (((List.range 4).map fun i => ((here[i]?).map (·.2.toNat)).getD 0 * 2 ^ (256 * i)).sum),
   BitVec.ofNat 4 (16 - 2 ^ here.length))

/-- ZERO bits of a dense line. -/
def zeroBits (d : Line) : BitVec 4 := zeroSect d 0xF

/-- A line of a page's new form as it is written to memory. -/
structure PageWrite where
  line : LineNo
  data : Line
  zero : BitVec 4
  fmt : BitVec 2
  poison : Bool

/-- The writes of a page's new form in order. -/
def pageWrites (pack : Bool) (g : Nat) (buf : List (LineNo × Line × Bool)) : List PageWrite :=
  if pack then
    let ss := pageSectors buf g
    ((List.range ((ss.length + 3) / 4)).map fun j =>
      let x := packedLine ss j
      ⟨BitVec.ofNat 28 (g * 32 + 1 + j), x.1, x.2, 1, false⟩) ++ [⟨BitVec.ofNat 28 (g * 32), headerLine ss, 0, 2, false⟩]
  else
    ((List.range 31).map (· + 1) ++ [0]).map fun i =>
      let x := (buf.find? (fun (x : LineNo × Line × Bool) => x.1.toNat = g * 32 + i)).elim (0, false) (·.2)
      ⟨BitVec.ofNat 28 (g * 32 + i), x.1, if x.2 then 0 else zeroBits x.1, 0, x.2⟩

/-- A page write queued under the page's key and the context's class. -/
def pageWrite (fx : Fixed) (c : Rec) (x : PageWrite) (m : Mach) : Option Mach :=
  let r := rangeOf m x.line
  queueWrite fx
    { line := x.line, data := x.data, zero := x.zero, fmt := x.fmt, keyv := r.isSome, keyslot := (r.map (·.keyslot)).getD 0,
      poison := x.poison, cls := defaultClass m (cCtx c), slip := false, issued := false, index := 0, seq := 0, rewritten := false,
      after := .cmd c.id, also := [] } m

/-- A page's valid logical lines retagged Clean in its new form (09 R276 step 6). -/
def retagPage (pack : Bool) (g : Nat) (buf : List (LineNo × Line × Bool)) (m : Mach) : Mach :=
  (pageLines g).foldl (fun m l =>
    match hitWay m l with
    | none => m
    | some w =>
      let t := tagAt m (setOf l) w
      let d := match buf.find? (·.1 = l) with | some x => x.2.1 | none => 0
      setTag (setOf l) w { t with d := 0, fmt := if pack then 1 else 0, z := zeroBits d &&& t.v, kgen := t.keyv && (kslot m t.keyslot).cur } m) m

/-- The map word of a page with its bit set or cleared, if the format cache holds the word. -/
def mapWordOf (g : Nat) (v : Bool) (m : Mach) : Option W64 :=
  (lruFind (g / 64) (tget [] m.sparse.fcache (g / 64 % 256))).map fun x =>
    if v then x.1 ||| ((1 : W64) <<< (g % 64)) else x.1 &&& ~~~((1 : W64) <<< (g % 64))

/-- The write of a map word, through to memory and plain (09 R267). -/
def mapWrite (fx : Fixed) (m : Mach) (id g : Nat) (w : W64) : Access :=
  let i := g / 64 % 16
  { placed m (ownWrite (.cmd id) .writeThru (mapLine fx g) (spanMask (8 * i) 8) (BitVec.ofNat 1024 (w.toNat * 2 ^ (64 * i)))) with range := none }

/-- A page's entry in the page-header cache after a pack or an unpack. -/
def putHeader (pack : Bool) (g : Nat) (ss : List (Nat × BitVec 256)) (m : Mach) : Mach :=
  if pack then hcachePut g { bitmap := BitVec.ofNat 128 (ss.map fun x => 2 ^ x.1).sum, count := ss.length, poison := false } m
  else { m with sparse := { m.sparse with hcache := tset [] m.sparse.hcache (g % 128) ((tget [] m.sparse.hcache (g % 128)).filter (·.1 ≠ g)) } }

/-- The page is left, and the next one begun: unlocked, nothing held of it. -/
def pageEnd (p : MaintProg) (m : Mach) : MStep :=
  .ok { m with sparse := { m.sparse with locked := none } } { p with next := p.next + 1, stepNo := 0, snooped := false, left := 0, buf := [] }

/-- k allowed by LIMIT. -/
def packLimit (c : Rec) : Nat := let n := fld c.pkt.p1 6 0; if n = 0 ∨ n > 124 then 124 else n

/-- The page is locked: accesses placed from here on come after the lock. -/
def lockPage (g : Nat) (m : Mach) : Mach :=
  if m.sparse.locked = some (BitVec.ofNat 23 g) then m
  else nextPlace { m with sparse := { m.sparse with locked := some (BitVec.ofNat 23 g), lockOrd := m.cache.nextSeq + 1 } }

/-- One step on a page. Steps 0 to 31 recall its lines, 32 locks it, 33 waits for what came before the lock (a host copy taken
meanwhile is recalled as well) and asks for the lines, 34 gathers them, 35 judges the page, 36 + j queues write j of its new form,
100 waits for the acknowledgements and for what the slipway still holds of the page, 101 writes the map bit, 102 ends. DESIGN CHOICE
(log 8): where the map line is poisoned, the page is judged, and its word written, by a free value. -/
def pageStep (fx : Fixed) (c : Rec) (g : Nat) (p : MaintProg) (m : Mach) : MStep :=
  let pack := c.opcode = 0x36
  if p.stepNo < 32 then
    let l : LineNo := BitVec.ofNat 28 (g * 32 + p.stepNo)
    let (m, ok) := waitDoms c.id [dTag (quadOf l), dDir (quadOf l)] m
    if !ok then .wait m p else
    match dirGate fx l true p.snooped false [false, true] (scanDir fx l m) with
    | .go m => .ok m { p with stepNo := p.stepNo + 1, snooped := false }
    | .sent m => .wait m { p with snooped := true }
    | .wait m => .wait m p
    | .hung => .wait m p
  else if p.stepNo = 32 then .ok (lockPage g m) { p with stepNo := 33 }
  else if p.stepNo = 33 then
    if pageBusy m g then .wait m p
    else if pageHeld m g then .ok m { p with stepNo := 0 }
    else .ok ((pageLines g).foldl (fun m l => doOwn fx (ownRead .maint .read l) m) m) { p with stepNo := 34, left := 32, buf := [] }
  else if p.stepNo = 34 then
    match takeDone (· = .maint) m with
    | (m, some (.read _ l d x)) =>
      .ok m { p with left := p.left - 1, buf := p.buf ++ [(l, d, x)], stepNo := if p.left = 1 then 35 else 34 }
    | (m, some _) => .ok m p
    | (m, none) => .wait m p
  else if p.stepNo = 35 then
    let (m, ok) := mapReady fx g m
    if !ok then .wait m p else
    match fmapLook fx g m with
    | .fetch w => .wait (fetchMap fx w m) p
    | .sparse m =>
      if pack then pageEnd { p with res1 := p.res1 + 1 } m
      else .ok m { p with stepNo := 36, left := 0 }
    | .dense m =>
      let bad := p.buf.any (·.2.2)
      if !pack then pageEnd { p with res1 := p.res1 + 1 } m
      else if bad || decide ((pageSectors p.buf g).length > packLimit c) then pageEnd { p with res1 := p.res1 + 1, flag := p.flag || bad } m
      else .ok m { p with stepNo := 36, left := 0 }
  else if p.stepNo < 100 then
    match (pageWrites pack g p.buf)[p.stepNo - 36]? with
    | some x => (match pageWrite fx c x m with | some m => .ok m { p with stepNo := p.stepNo + 1, left := p.left + 1 } | none => .wait m p)
    | none => .ok m { p with stepNo := 100 }
  else if p.stepNo = 100 then
    let (m, ok) := mapReady fx g m
    if p.left ≠ 0 || !ok || m.cache.writes.any (fun w => granOf w.line = g && w.slip) then .wait m p
    else match fmapLook fx g m with
      | .fetch w => .wait (fetchMap fx w m) p
      | .dense m | .sparse m =>
        (match mapWordOf g pack m with
         | none => .wait m p
         | some w => .ok (doOwn fx (mapWrite fx m c.id g w) m) { p with stepNo := 101 })
  else
    match takeDone (· = .cmd c.id) m with
    | (m, some _) =>
      let m := match mapWordOf g pack m with | some w => fcachePut (g / 64) w m | none => m
      let ss := pageSectors p.buf g
      pageEnd { p with res0 := p.res0 + 1, res2 := p.res2 + (if pack then ss.length else 0) } (retagPage pack g p.buf (putHeader pack g ss m))
    | (m, none) => .wait m p

/-- Pages handled one after another; `n` bounds the steps. -/
def runPages (fx : Fixed) (c : Rec) : Nat → MaintProg → Mach → Mach × MaintProg × Bool
  | 0, p, m => (m, p, false)
  | n + 1, p, m =>
    match p.runs[p.next]? with
    | none => (m, p, true)
    | some x =>
      match pageStep fx c (x.1 / 32) p m with
      | .wait m p => (m, p, false)
      | .ok m p => runPages fx c n p m

/-! ### DIR_RECLAIM (11 R326) -/

/-- Entries walked from a number on. -/
def runReclaim (fx : Fixed) (id : Nat) (a : BitVec 4) : Nat → MaintProg → Mach → Mach × MaintProg × Bool
  | 0, p, m => (m, p, false)
  | n + 1, p, m =>
    match (m.dir.ents.map (·.1)).find? (fun k => decide (p.next ≤ k)) with
    | none => (m, p, true)
    | some k =>
      let (m, ok) := waitDom id (dDir (k / 16 % 4)) m
      if !ok then (m, p, false)
      else if !agentHolds (dirEnt m k) a && !m.dir.snoops.any (fun s => s.line = dirLine k (dirEnt m k) && s.agent = a) then
        runReclaim fx id a n { p with next := k + 1 } m
      else
        let held := agentHolds (dirEnt m k) a
        match reclaimEnt fx id k a m with
        | (m, none) => (m, p, false)
        | (m, some (lost, sn)) =>
          runReclaim fx id a n { p with next := k + 1, res0 := p.res0 + b2n held, res1 := p.res1 + lost, res2 := p.res2 + sn } m

/-- Snoops to the agent that no entry shows any more, completed as BIRspI. -/
def endSnoopsOf (fx : Fixed) (a : BitVec 4) (m : Mach) : Mach × Nat :=
  let ss := m.dir.snoops.filter (·.agent = a)
  let m := (m.dir.owing.filter fun o => o.2.2.1 = a).foldl (fun m o => dropOwing a o.1 m) m
  (ss.foldl (fun m s => endSnoop fx s 0 m) m, ss.length)

/-! ### Spare bank and way retirement (15 R415, R416) -/

/-- A line's lost sectors refetched as by a miss, for the scrubber (04 Table CACHE-11, 12 Table QOS-1). -/
def refetchLine (l : LineNo) (m : Mach) : Mach :=
  if m.cache.own.any fun a => a.src = .scrub && a.line = l then m else askOwn (placed m (ownRead .scrub .read l)) m

/-- A way of a bank that is copied looked at: a line of a berth by the rule of berth lines (15 R398), another by Table CACHE-11. -/
def scanCopied (fx : Fixed) (set way : Nat) (m : Mach) : Mach :=
  if (setStOf m set).pin.getLsbD way then
    match berthAt m set way with
    | some (i, off) =>
      let (m, again) := scanBerth fx set way 0xF i off m
      if again then startReload fx set way i off m else m
    | none => m
  else
    let l := lineOf set (tagAt m set way).tag
    match scanWay fx set way 0xF m with
    | (m, .refetch) => refetchLine l m
    | (m, _) => m

/-- Lines of a bank looked at, and how many came out poisoned. -/
def scanBank (fx : Fixed) (q b : Nat) (m : Mach) : Mach × Nat :=
  let ks := (m.cache.tags.map (·.1)).filter fun k => decide (k / 32 % 4 = q) && decide (bankOf (k / 32) (k % 32) = b)
  ks.foldl (fun (x : Mach × Nat) k =>
    let before := (tagAt x.1 (k / 32) (k % 32)).poison
    let m := scanCopied fx (k / 32) (k % 32) x.1
    (m, x.2 + b2n (!before && (tagAt m (k / 32) (k % 32)).poison))) (m, 0)

/-- The spare takes a bank's index; the old bank is frozen for good; its row repairs lapse and a KIND 1 entry is kept. -/
def spareBank (q b : Nat) (m : Mach) : Mach :=
  let old := fun (w : W32) => w.getLsbD 31 && decide (fld (w.zeroExtend 64) 30 29 = 0) && decide (fld (w.zeroExtend 64) 28 27 = q) &&
    decide (fld (w.zeroExtend 64) 26 22 = b)
  let m := { m with
    life := { m.life with softRepair := m.life.softRepair.filter fun x => !old x.2 }
    cache := { m.cache with
      rowMap := m.cache.rowMap.filter (·.1 ≠ q * 17 + b)
      spareFor := tset 0 m.cache.spareFor q (b + 1) } }
  appendRepair (BitVec.ofNat 32 (2 ^ 31 + 2 ^ 29 + q * 2 ^ 27 + b * 2 ^ 22)) (setDom (dBank q b) .frost m)

/-- BANK_SPARE carried on. -/
def runSpare (fx : Fixed) (c : Rec) (p : MaintProg) (m : Mach) : Mach × MaintProg × Bool :=
  let q := fld c.pkt.p0 1 0
  let b := fld c.pkt.p0 5 2
  let (m, ok) := waitDom c.id (dBank q 16) m
  if !ok then (m, p, false)
  else if bankFrozen m (dBank q b) then (spareBank q b m, p, true)
  else
    let (m, ok) := waitDom c.id (dBank q b) m
    if !ok then (m, p, false) else
    let (m, n) := scanBank fx q b m
    (spareBank q b m, { p with res0 := 2048, res1 := n }, true)

/-- FIRST, LAST and the ways of WAY_DISABLE. -/
def wayFirst (c : Rec) : Nat := fld c.pkt.p0 11 0
def wayLast (c : Rec) : Nat := fld c.pkt.p0 23 12
def wayMask (c : Rec) : W32 := BitVec.ofNat 32 (fld c.pkt.p1 31 0)
def waySets (c : Rec) : List Nat := (List.range (wayLast c + 1 - wayFirst c)).map (· + wayFirst c)
def waysOf (w : W32) : List Nat := (List.range 32).filter (w.getLsbD ·)

/-- Ways of a set not pinned, retired, named, or in a frozen bank (13 R350). -/
def waysLeft (m : Mach) (set : Nat) (mask : W32) : Nat :=
  let s := setStOf m set
  ((List.range 32).filter fun w => !(s.pin ||| s.retired ||| mask).getLsbD w && !bankFrozen m (dWay m set w)).length

/-- Frozen banks of the quads whose floor the retirement would break. -/
def floorBanks (m : Mach) (c : Rec) : List Nat :=
  (List.range 4).flatMap fun q =>
    if (waySets c).any fun s => s % 4 = q && decide (waysLeft m s (wayMask c) < 8) then
      ((List.range 16).map fun b => dBank q (bankServing m q b)).filter (bankFrozen m)
    else []

/-- The named ways of a set emptied, in order. -/
def emptyWays (fx : Fixed) (set id : Nat) : List Nat → MaintProg → Mach → MStep
  | [], p, m => .ok m p
  | w :: t, p, m =>
    if w ∈ fillingWays m set then .wait m p else
    let m := scanTag fx set w m
    let g := tagAt m set w
    let d := b2n (g.d ≠ 0)
    let (m, ok) := if g.d = 0 ∨ bankless g = true then (m, true) else waitDom id (dWay m set w) m
    if !ok then .wait m p else
    match freeWay fx set w [id] m with
    | .now m => emptyWays fx set id t { p with res0 := p.res0 + d, left := p.left + d } m
    | .fill => .wait (fillVictim fx set w m.regs.maintTc m) p
    | .full => .wait m p

/-- SERVICE or DEGRADED by ERR_STATUS.DEGRADED, in DEBUG for the state it goes back to (15 R417). -/
def stateAgain (m : Mach) : Mach :=
  let live := fun (s : SliceState) => s = .service || s = .degraded
  { m with life := { m.life with
      st := if live m.life.st then serviceState m else m.life.st
      dbgFrom := if m.life.st = .debug && live m.life.dbgFrom then serviceState m else m.life.dbgFrom } }

/-- A way is retired: the slice is degraded from here on (15 R417). -/
def degrade (m : Mach) : Mach := stateAgain { m with err := { m.err with degraded := true } }

/-- Sets walked; `n` bounds them. -/
def runWays (fx : Fixed) (c : Rec) : Nat → MaintProg → Mach → Mach × MaintProg × Bool
  | 0, p, m => (m, p, decide (wayLast c < p.next))
  | n + 1, p, m =>
    if wayLast c < p.next then (m, p, true) else
    let set := p.next
    let s := setStOf m set
    if cFlag c 0 then
      let r := s.retired &&& ~~~wayMask c
      runWays fx c n { p with next := set + 1, res1 := p.res1 + b2n (r ≠ s.retired) } (putSetSt set { s with retired := r } m)
    else
      match emptyWays fx set c.id ((waysOf (wayMask c &&& ~~~s.retired)).filter fun w => !s.pin.getLsbD w) p m with
      | .wait m p => (m, p, false)
      | .ok m p =>
        let s := setStOf m set
        let r := s.retired ||| wayMask c
        runWays fx c n { p with next := set + 1, res1 := p.res1 + b2n (r ≠ s.retired) }
          (degrade (putSetSt set { s with retired := r } m))

/-- The repair-log entry of a retired way. -/
def wayEntry (c : Rec) (w : Nat) : W32 := BitVec.ofNat 32 (2 ^ 31 + 2 * 2 ^ 29 + w * 2 ^ 24 + wayFirst c * 2 ^ 12 + wayLast c)

/-- The log and the state after a retirement or a restoration (15 R416, R417). -/
def endWays (c : Rec) (m : Mach) : Mach :=
  if cFlag c 0 then
    let es := (waysOf (wayMask c)).map (wayEntry c)
    let m := { m with life := { m.life with softRepair := m.life.softRepair.filter fun x => !decide (x.2 ∈ es) } }
    let none_ := m.cache.sets.all fun x => x.2.retired = 0
    stateAgain (if none_ && !m.err.fatal then { m with err := { m.err with degraded := false } } else m)
  else degrade ((waysOf (wayMask c)).foldl (fun m w => appendRepair (wayEntry c w) m) m)

/-! ### The engine -/

/-- A command that the engine holds or runs. -/
def isMaint (p : Prog) : Bool := match p with | .maintHeld => true | .maintRun _ => true | .sweepRun _ _ _ _ _ => true | _ => false
def isSweepRun : Prog → Bool | .sweepRun _ _ _ _ _ => true | _ => false

/-- The lines a command of the engine names. -/
def maintRuns (fx : Fixed) (m : Mach) (c : Rec) : List (Nat × Nat) :=
  if 0x32 ≤ c.opcode.toNat ∧ c.opcode.toNat ≤ 0x35 then rangeRuns fx m c.pkt.p0 c.pkt.p1.toNat
  else if c.opcode = 0x36 ∨ c.opcode = 0x37 then rangeRuns fx m c.pkt.p0 ((fld c.pkt.p1 47 32 + 1) * 4096)
  else []

/-- Progress at a command's start. -/
def maintStart (fx : Fixed) (m : Mach) (c : Rec) : MaintProg :=
  { runs := maintRuns fx m c, next := if c.opcode = 0x94 then wayFirst c else 0, stepNo := 0, res0 := 0, res1 := 0, res2 := 0, flag := false,
    at_ := none, snooped := false, left := 0, before := [], buf := [] }

/-- The running command's steps: whether it has passed everything. -/
def maintSteps (fx : Fixed) (c : Rec) (p : MaintProg) (m : Mach) : Mach × MaintProg × Bool :=
  if 0x32 ≤ c.opcode.toNat ∧ c.opcode.toNat ≤ 0x35 then
    runRange fx c ((if c.opcode = 0x35 ∨ runsLen p.runs ≤ 4096 then runsLen p.runs else (walkLines m).length) + 1) p m
  else if c.opcode = 0x36 ∨ c.opcode = 0x37 then runPages fx c (p.runs.length * 220 + 1) p m
  else if c.opcode = 0x95 then runReclaim fx c.id (BitVec.ofNat 4 (fld c.pkt.p0 3 0)) (m.dir.ents.length + 1) p m
  else if c.opcode = 0x93 then runSpare fx c p m
  else
    let bs := if cFlag c 0 || p.next ≠ wayFirst c then [] else floorBanks m c
    let (m, ok) := waitDoms c.id bs m
    if !ok then (m, p, false) else runWays fx c (wayLast c + 1) p m

/-- The reply of a command that has passed everything and whose writes are acknowledged. -/
def endMaint (fx : Fixed) (c : Rec) (p : MaintProg) (m : Mach) : Mach :=
  let r := fun (n : Nat) => BitVec.ofNat 64 n
  if c.opcode = 0x36 ∨ c.opcode = 0x37 then
    complete fx c (if p.flag then csPoisoned else if p.res1 ≠ 0 then csWarn else csDone) [r p.res0, r p.res1, r p.res2] m
  else if c.opcode = 0x95 then
    let (m, n) := endSnoopsOf fx (BitVec.ofNat 4 (fld c.pkt.p0 3 0)) m
    complete fx c (if p.res1 ≠ 0 then csWarn else csDone) [r p.res0, r p.res1, r (p.res2 + n)] m
  else if c.opcode = 0x93 then
    complete fx c (if p.res1 ≠ 0 then csPoisoned else csDone) [r p.res0, r p.res1] (logErr fx 0x33 0 (locB (fld c.pkt.p0 1 0) (fld c.pkt.p0 5 2) 0) m)
  else if c.opcode = 0x94 then complete fx c csDone [r p.res0, r p.res1] (endWays c m)
  else complete fx c (if p.res2 ≠ 0 then csPoisoned else csDone) [r p.res0, r p.res1, r p.res2] m

/-- The running command of the maintenance engine carried on as far as it can be. -/
def pumpMaint (fx : Fixed) (m : Mach) : Mach :=
  match runningCmd m isMaintRun with
  | some ⟨c, .maintRun p⟩ =>
    let (m, n) := takeAcks c.id m
    let p := { p with left := if 0x36 ≤ c.opcode.toNat ∧ c.opcode.toNat ≤ 0x37 ∧ p.stepNo < 36 then p.left else p.left - n }
    let (m, ok) := waitDom c.id dEngine m
    if !ok then setProg c.id (.maintRun p) m else
    let (m, p, fin) := maintSteps fx c p m
    let (m, n) := takeAcks c.id m
    let p := { p with left := p.left - n }
    if fin && decide (p.left = 0) then endMaint fx c p m else setProg c.id (.maintRun p) m
  | _ => m

/-- An acquire sweep's progress (10 R301): notices leave once the writes admitted before it have been performed. -/
def sweepReady (m : Mach) : Option (Rec × List (BitVec 7) × List (BitVec 7 × Nat) × List (BitVec 7) × List (BitVec 7)) :=
  match runningCmd m isSweepRun with
  | some ⟨c, .sweepRun todo sent acked lost before⟩ =>
    if (unperformed m).any (fun k => decide (k ∈ before)) then none else some (c, todo, sent, acked, lost)
  | _ => none

/-- Clusters of a list as the two mask words. -/
def maskWords (l : List (BitVec 7)) : W64 × W64 :=
  (BitVec.ofNat 64 ((l.filter (·.toNat < 64)).map fun c => 2 ^ c.toNat).sum, BitVec.ofNat 64 ((l.filter (64 ≤ ·.toNat)).map fun c => 2 ^ (c.toNat - 64)).sum)

/-- Requests performed since are no longer waited for: a later one may come under the same tag. -/
def pruneSweep (m : Mach) : Mach :=
  match runningCmd m isSweepRun with
  | some ⟨c, .sweepRun todo sent acked lost before⟩ =>
    if before.all fun k => decide (k ∈ unperformed m) then m
    else setProg c.id (.sweepRun todo sent acked lost (before.filter fun k => decide (k ∈ unperformed m))) m
  | _ => m

/-- A sweep with no notice left to send or outstanding completes (10 R304). -/
def endSweep (fx : Fixed) (m : Mach) : Mach :=
  let m := pruneSweep m
  match sweepReady m with
  | some (c, [], [], acked, lost) =>
    let w := maskWords lost
    complete fx c (if lost = [] then csDone else csWarn) [BitVec.ofNat 64 acked.length, w.1, w.2] m
  | _ => m

/-- SWEEP_NOTICE_SEND: the next notice leaves, if its stop has a free inbox slot (10 R301, R302). -/
def sendNotice (fx : Fixed) (m : Mach) : Mach :=
  match sweepReady m, runningCmd m isSweepRun with
  | some (c, k :: todo, sent, acked, lost), some ⟨_, .sweepRun _ _ _ _ before⟩ =>
    let st : Stop := if k.toNat % 2 = 0 then .north else .south
    if !segRoom m st then m
    else
      let seq := (m.cmds.sweepSeq - 1).toNat
      let w0 : W64 := BitVec.ofNat 64 (c.master.toNat * 2 ^ 48 + 2 ^ 40 + 0x38 * 2 ^ 32 + seq * 2 ^ 16)
      let w1 : W64 := BitVec.ofNat 64 (fx.procId.toNat * 2 ^ 48 + m.regs.logical.toNat * 2 ^ 40 + fld c.pkt.p2 2 0)
      emit (.notice st (BitVec.ofNat 16 (0xFF00 + k.toNat)) w0 w1 0 0)
        (setProg c.id (.sweepRun todo (sent ++ [(k, m.cyc)]) acked lost before) m)
  | _, _ => m

/-- A KIND 2 packet (10 R302): the acknowledgement of an outstanding notice, or discarded and counted. -/
def ackNotice (fx : Fixed) (peer : BitVec 16) (w0 : W64) (m : Mach) : Mach :=
  match runningCmd m isSweepRun with
  | some ⟨c, .sweepRun todo sent acked lost before⟩ =>
    let k : BitVec 7 := BitVec.ofNat 7 peer.toNat
    if 0xFF00 ≤ peer.toNat && decide (peer.toNat < 0xFF80) && sent.any (·.1 = k) && decide (fld w0 31 16 = (m.cmds.sweepSeq - 1).toNat) then
      endSweep fx (setProg c.id (.sweepRun todo (sent.filter (·.1 ≠ k)) (acked ++ [k]) lost before) m)
    else count 0x010 m
  | _ => count 0x010 m

/-- A notice that has waited 1,048,576 control cycles is given up (10 R301). -/
def expireNotice (fx : Fixed) (k : BitVec 7) (m : Mach) : Mach :=
  match runningCmd m isSweepRun with
  | some ⟨c, .sweepRun todo sent acked lost before⟩ =>
    if sent.any (fun x => x.1 = k && decide (x.2 + 1048576 ≤ m.cyc)) then
      endSweep fx (setProg c.id (.sweepRun todo (sent.filter (·.1 ≠ k)) acked (lost ++ [k]) before) m)
    else m
  | _ => m

/-- Clusters that an ACQUIRE_SWEEP names, ascending. -/
def sweepClusters (c : Rec) : List (BitVec 7) :=
  ((List.range 128).filter fun i => if i < 64 then c.pkt.p0.getLsbD i else c.pkt.p1.getLsbD (i - 64)).map (BitVec.ofNat 7)

/-- The spare of the quad that BANK_SPARE names is in use or unusable, or the repair log is full (15 R414, R415). -/
def spareTaken (m : Mach) (c : Rec) : Bool :=
  let q := fld c.pkt.p0 1 0
  tget 0 m.cache.spareFor q ≠ 0 || decide (q ∈ m.cache.spareBad) || (repairSlot m).isNone

/-- The engine takes the oldest command it holds (04 R140). -/
def startMaint (fx : Fixed) (m : Mach) : Mach :=
  if m.cmds.running.any (fun r => isMaintRun r.prog || isSweepRun r.prog) then m else
  match m.cmds.running.find? (fun r => r.prog = .maintHeld) with
  | none => m
  | some r =>
    let c := r.cmd
    if c.opcode = 0x38 then
      let before := unperformed m
      let m := { m with cmds := { m.cmds with sweepSeq := m.cmds.sweepSeq + 1 } }
      setProg c.id (.sweepRun (sweepClusters c) [] [] [] before) m
    else if c.opcode = 0x93 && spareTaken m c then complete fx c csNoSpace [] m
    else pumpMaint fx (setProg c.id (.maintRun (maintStart fx m c)) m)

/-- A command given to the engine: it runs at once when the engine is idle, and is held otherwise; a fifth is refused. -/
def holdMaint (fx : Fixed) (c : Rec) (stop : Option Nat) (m : Mach) : Mach :=
  let held := (m.cmds.running.filter fun r => isMaint r.prog).length
  match stop with
  | some s => complete fx c s [] m
  | none =>
    if held ≥ 4 then complete fx c csBusy [] m
    else
      let m := if c.opcode = 0x95 then { m with dir := { m.dir with en := m.dir.en &&& ~~~((1 : BitVec 16) <<< fld c.pkt.p0 3 0) } } else m
      let m := runOn c .maintHeld m
      if held = 0 then startMaint fx m else m

/-- What a range command meets (04 R136; 01 R32; 09 R267, R273; 14 R369). -/
def rangeStop (fx : Fixed) (m : Mach) (c : Rec) (sparse : Bool) : Option Nat :=
  let n := c.pkt.p1.toNat
  let rs := rangeRuns fx m c.pkt.p0 (min n (2 ^ 35))
  firstStop
    [stopIf (decide (fld c.pkt.p0 6 0 ≠ 0) || decide (n % 128 ≠ 0) || decide (n < 128) || decide (n > 2 ^ 35)) csBadParam,
     stopIf (if cFlag c 0 then decide (rs = []) else !rangeHomed fx m c.pkt.p0 n) csMishomed,
     stopIf (mapMeets fx rs) csBadParam,
     stopIf (c.opcode = 0x35 && !ctxReach m (cCtx c) true rs) csDenied,
     stopIf (c.opcode = 0x35 && sparse) csSparse]

/-- The range commands. -/
def cmdRangeClean (fx : Fixed) (c : Rec) (m : Mach) : Mach := holdMaint fx c (rangeStop fx m c false) m
def cmdRangeInval (fx : Fixed) (c : Rec) (m : Mach) : Mach := holdMaint fx c (rangeStop fx m c false) m
def cmdRangeFlush (fx : Fixed) (c : Rec) (m : Mach) : Mach := holdMaint fx c (rangeStop fx m c false) m
def cmdRangeZero (fx : Fixed) (c : Rec) (sparse : Bool) (m : Mach) : Mach := holdMaint fx c (rangeStop fx m c sparse) m

/-- What SPARSE_PACK and SPARSE_UNPACK meet (09 R268, R275). -/
def sparseStop (fx : Fixed) (m : Mach) (c : Rec) : Option Nat :=
  let n := (fld c.pkt.p1 47 32 + 1) * 4096
  let rs := rangeRuns fx m c.pkt.p0 n
  firstStop
    [stopIf (decide (fld c.pkt.p0 11 0 ≠ 0) || (c.opcode = 0x37 && decide (fld c.pkt.p1 6 0 ≠ 0))) csBadParam,
     stopIf (if cFlag c 0 then decide (rs = []) else !rangeHomed fx m c.pkt.p0 n) csMishomed,
     stopIf (mapMeets fx rs) csBadParam,
     stopIf (!fx.fmapEn) csNoSpace,
     stopIf (!ctxReach m (cCtx c) true rs) csDenied]

/-- SPARSE_PACK and SPARSE_UNPACK. -/
def cmdSparsePack (fx : Fixed) (c : Rec) (m : Mach) : Mach := holdMaint fx c (sparseStop fx m c) m
def cmdSparseUnpack (fx : Fixed) (c : Rec) (m : Mach) : Mach := holdMaint fx c (sparseStop fx m c) m

/-- ACQUIRE_SWEEP (10 R300). -/
def cmdSweep (fx : Fixed) (c : Rec) (m : Mach) : Mach :=
  let s := fld c.pkt.p2 2 0
  holdMaint fx c (stopIf (decide (s < 2) || decide (5 < s) || (c.pkt.p0 = 0 && c.pkt.p1 = 0)) csBadParam) m

/-- DIR_RECLAIM (11 R325). -/
def cmdReclaim (fx : Fixed) (c : Rec) (m : Mach) : Mach := holdMaint fx c none m

/-- BANK_SPARE (15 R414, R415); one that the engine held is looked at again as it begins. -/
def cmdBankSpare (fx : Fixed) (c : Rec) (m : Mach) : Mach :=
  holdMaint fx c (stopIf (spareTaken m c) csNoSpace) m

/-- What WAY_DISABLE meets (15 R414, R416). -/
def wayStop (m : Mach) (c : Rec) : Option Nat :=
  let k := wayMask c
  firstStop
    [stopIf (decide (wayLast c < wayFirst c) || k = 0) csBadParam,
     stopIf ((waySets c).any fun s => pinsOf m s &&& k ≠ 0) csPinLimit,
     stopIf ((waySets c).any fun s => decide (24 < pop (pinsOf m s ||| retiredAt m s ||| k))) csPinLimit,
     stopIf ((repairSlot m).isNone) csNoSpace]

/-- WAY_DISABLE, and with RESTORE. The engine holds them among its four commands, as R415 says of BANK_SPARE; R416 does not say it
(DESIGN CHOICE, log 102). -/
def cmdWayDisable (fx : Fixed) (c : Rec) (m : Mach) : Mach := holdMaint fx c (wayStop m c) m
def cmdWayRestore (fx : Fixed) (c : Rec) (m : Mach) : Mach :=
  holdMaint fx c (firstStop [stopIf (decide (wayLast c < wayFirst c) || wayMask c = 0) csBadParam,
    stopIf ((waySets c).any fun s => pinsOf m s &&& wayMask c ≠ 0) csPinLimit]) m

end Sys2Proof.Machine
end

