-- ==== Sys2Proof/Machine/Objects.lean ====
section
/-! DEFINITION. Commands on scatter descriptors and on sync objects, and the jam detector (09_sparse_data.md R279, R280, R284;
06_atomics_and_sync.md R186 to R189, R204; 16_recovery.md R420 to R424). -/

namespace Sys2Proof.Machine

/-! ### Scatter descriptors -/

/-- The hashed form's low bits for a local offset, given the bucket of each rank (01 R27, R29). -/
def hashedOf (b off : Nat) : Nat :=
  let row := off / 4096 % 2 ^ 18
  row * 2 ^ 24 + (b ^^^ (row % 4096) ^^^ (row / 4096)) % 4096 * 4096 + off % 4096

/-- The bucket of a rank. -/
def bucketAt (mask : BitVec 4096) (r : Nat) : Option Nat := (List.range 4096).find? fun b => rankOf mask b = some r

/-- A table shares a byte with the format map, in the address form that it is given in (09 R279). -/
def tableMeetsMap (fx : Fixed) (m : Mach) (table : W64) (bytes : Nat) : Bool :=
  let base := fx.fmapBase.toNat * 2 ^ 20
  if !fmapOn fx || fld table 63 48 ≠ fx.procId.toNat then false
  else if bit table 47 then ownLogical m (fld table 46 40) && overlaps (fld table 34 0) bytes base (2 ^ 20)
  else match bucketAt m.regs.bucketMask (base / 2 ^ 30) with
    | none => false
    | some b => (List.range 256).any fun i => overlaps (fld table 41 0) bytes (hashedOf b (base + i * 4096)) 4096

/-- A finite scale that is not zero. -/
def scaleOk (s : W32) : Bool := decide (s.toNat / 2 ^ 23 % 256 ≠ 255) && decide (s.toNat % 2 ^ 31 ≠ 0)

/-- A SCATTER_DESC creation that is refused with BAD_PARAM (09 R279). -/
def scatBad (fx : Fixed) (m : Mach) (c : Rec) : Bool :=
  let t := c.pkt.p0
  let rows := fld c.pkt.p1 63 32
  let stride := fld c.pkt.p1 31 16
  let rl := fld c.pkt.p1 15 4
  let bytes := rows * stride * 128
  decide (fld c.pkt.p1 3 2 = 3) || decide (rows = 0) || decide (stride = 0) || decide (rl = 0) || decide (stride < rl) ||
  !scaleOk (BitVec.ofNat 32 (fld c.pkt.p2 63 32)) || decide (fld t 6 0 ≠ 0) ||
  (if bit t 47 then decide (2 ^ 35 < fld t 34 0 + bytes) else decide (2 ^ 42 < fld t 41 0 + bytes)) || tableMeetsMap fx m t bytes

/-- SCATTER_DESC creating a descriptor. -/
def cmdScatCreate (fx : Fixed) (c : Rec) (m : Mach) : Mach :=
  let reqv := cFlag c 2
  let ri := fld c.pkt.p2 7 0
  let pick := if reqv then (if fqFree m.sparse.scatQ ri then some ri else none) else fqPeek 256 m.sparse.scatQ
  if !m.regs.lv then complete fx c csMishomed [] m
  else if scatBad fx m c then complete fx c csBadParam [] m
  else match pick with
    | none => complete fx c csNoSpace [] m
    | some i =>
      let g := (scatOf m i).gen
      let s : Scatter :=
        { valid := true, op := BitVec.ofNat 2 (fld c.pkt.p1 3 2), gen := g, ctx := cCtx c, cgen := cGen c,
          scale := BitVec.ofNat 32 (fld c.pkt.p2 63 32), table := c.pkt.p0, rows := BitVec.ofNat 32 (fld c.pkt.p1 63 32),
          stride := BitVec.ofNat 16 (fld c.pkt.p1 31 16), rowlines := BitVec.ofNat 12 (fld c.pkt.p1 15 4), applied := 0, refused := 0 }
      let q := if reqv then fqTake i m.sparse.scatQ else fqPop 256 m.sparse.scatQ
      complete fx c csDone [BitVec.ofNat 64 (g.toNat * 256 + i)] (setScat i s { m with sparse := { m.sparse with scatQ := q } })

/-- The descriptor that a HANDLE of a context names. -/
def heldScat (m : Mach) (c : Rec) : Option Nat :=
  let i := fld c.pkt.p0 7 0
  let s := scatOf m i
  if s.valid && decide (s.gen.toNat = fld c.pkt.p0 15 8) && s.ctx = cCtx c && s.cgen = cGen c then some i else none

/-- Requests past the descriptor's checks that are not yet performed (09 R284). -/
def scatOut (m : Mach) (i : Nat) : Bool := (admitted m).any fun x => x.1 = opSCATTER && decide (x.2.aux.toNat % 256 = i)

/-- A descriptor's index freed. -/
def dropScat (i : Nat) (g : Gen) (m : Mach) : Mach :=
  let m := setScat i { Scatter.free with gen := g } (unlose 3 i m)
  { m with sparse := { m.sparse with scatQ := fqPush i m.sparse.scatQ } }

/-- A RELEASE whose requests have been answered completes (09 R284). -/
def pumpScat (fx : Fixed) (c : Rec) (m : Mach) : Mach :=
  let i := fld c.pkt.p0 7 0
  if scatOut m i then m
  else
    let s := scatOf m i
    complete fx c csDone [s.applied.zeroExtend 64] (dropScat i s.gen m)

/-- SCATTER_DESC with RELEASE. -/
def cmdScatRelease (fx : Fixed) (c : Rec) (m : Mach) : Mach :=
  match heldScat m c with
  | none => complete fx c csStale [] m
  | some i =>
    let s := scatOf m i
    pumpScat fx c (runOn c (.drainRefs 0) (setScat i { s with valid := false, gen := s.gen + 1 } m))

/-- Words W0, W2 and W3 of a descriptor (09 Table SPARSE-8). -/
def scatWords (s : Scatter) : List W64 :=
  [BitVec.ofNat 64 (b2n s.valid * 2 ^ 63 + s.op.toNat * 2 ^ 61 + s.gen.toNat * 2 ^ 53 + s.ctx.toNat * 2 ^ 41 + s.cgen.toNat * 2 ^ 33 + s.scale.toNat),
   BitVec.ofNat 64 (s.rows.toNat * 2 ^ 32 + s.stride.toNat * 2 ^ 16 + s.rowlines.toNat * 2 ^ 4),
   BitVec.ofNat 64 (s.applied.toNat * 2 ^ 32 + s.refused.toNat)]

/-- SCATTER_DESC with QUERY. -/
def cmdScatQuery (fx : Fixed) (c : Rec) (m : Mach) : Mach :=
  match heldScat m c with
  | none => complete fx c csStale [] m
  | some i => if lostObj m 3 i then complete fx c csDenied [] m else complete fx c csDone (scatWords (scatOf m i)) m

/-! ### Sync objects -/

/-- The sync-space address of an object (01 Table ORG-9). -/
def syncAddr (fx : Fixed) (m : Mach) (i : Nat) (g : Gen) : W64 :=
  BitVec.ofNat 64 (fx.procId.toNat * 2 ^ 48 + g.toNat * 2 ^ 21 + m.regs.logical.toNat * 2 ^ 14 + i)

/-- A record written whole: its bytes carry fresh codes (06 R184). -/
def freshSync (i : BitVec 14) (m : Mach) : Mach :=
  { m with cache := { m.cache with errs := { m.cache.errs with sync := m.cache.errs.sync.filter fun x => x.1 / 16 ≠ i.toNat } } }

/-- SYNC_CREATE (06 R186, R187). -/
def cmdSyncCreate (fx : Fixed) (c : Rec) (m : Mach) : Mach :=
  let p := c.pkt.p1
  let kind := fld p 63 62
  let reqv := bit p 43
  let ri := fld p 42 29
  let bad := decide (kind = 3) || (bit p 61 && decide (kind ≠ 2)) || (decide (kind = 1) && !bit p 60) || (!bit p 60 && decide (fld p 59 44 ≠ 0))
  let pick := if reqv then (if fqFree m.sync.objQ ri then some ri else none) else fqPeek 16384 m.sync.objQ
  if !m.regs.lv then complete fx c csMishomed [] m
  else if bad then complete fx c csBadParam [] m
  else match pick with
    | none => complete fx c csNoSpace [] m
    | some i =>
      let j : BitVec 14 := BitVec.ofNat 14 i
      let g := (syncObj m j).gen
      let o : SyncObj :=
        { value := c.pkt.p0, valid := true, err := false, shared := false, orphan := false, kind := BitVec.ofNat 2 kind, unit := bit p 61,
          sigv := bit p 60, sigq := BitVec.ofNat 16 (fld p 59 44), errcode := 0, owner := cCtx c, ogen := cGen c, gen := g }
      let q := if reqv then fqTake i m.sync.objQ else fqPop 16384 m.sync.objQ
      complete fx c csDone [syncAddr fx m i g] (setSync j o (freshSync j { m with sync := { m.sync with objQ := q } }))

/-- The object that a sync command names: a status when it is refused (01 R480, 06 R186). -/
def syncCmdStop (fx : Fixed) (m : Mach) (a : W64) : Option Nat :=
  let o := syncObj m (sIdx a)
  if !syncHome fx m a then some csMishomed else if !o.valid || o.gen ≠ sGen a then some csStale else none

/-- SYNC_DESTROY (06 R188). -/
def cmdSyncDestroy (fx : Fixed) (c : Rec) (m : Mach) : Mach :=
  let i := sIdx c.pkt.p0
  match syncCmdStop fx m c.pkt.p0 with
  | some s => complete fx c s [] m
  | none =>
    let m := scanSync fx i m
    let ws := waitsOn m i
    complete fx c csDone [BitVec.ofNat 64 ws.length] (freeSync i (wakeAll 0x81 ws m))

/-- The flags of SYNC_SET applied in their order (06 R189). -/
def syncSet (i : BitVec 14) (c : Rec) (m : Mach) : Mach :=
  let code : BitVec 8 := BitVec.ofNat 8 (fld c.pkt.p2 23 16)
  let m := if cFlag c 3 then setSync i { syncObj m i with sigv := true, sigq := BitVec.ofNat 16 (fld c.pkt.p2 15 0) } m else m
  let m := if cFlag c 0 then updateSync i c.pkt.p1 5 m else m
  let m := if cFlag c 1 then (if (syncObj m i).err then m else putError i code (count 0x049 m)) else m
  if cFlag c 2 then setSync i { syncObj m i with err := false, errcode := 0 } m else m

/-- SYNC_SET. -/
def cmdSyncSet (fx : Fixed) (c : Rec) (m : Mach) : Mach :=
  let i := sIdx c.pkt.p0
  let code := fld c.pkt.p2 23 16
  match syncCmdStop fx m c.pkt.p0 with
  | some s => complete fx c s [] m
  | none =>
    if (cFlag c 1 && cFlag c 2) || (cFlag c 1 && !(decide (1 ≤ code) && decide (code ≤ 0x7F))) then complete fx c csBadParam [] m
    else
      let m := scanSync fx i m
      complete fx c csDone [(syncObj m i).value] (syncSet i c m)

/-- SYNC_QUERY (06 R189). -/
def cmdSyncQuery (fx : Fixed) (c : Rec) (m : Mach) : Mach :=
  let i := sIdx c.pkt.p0
  match syncCmdStop fx m c.pkt.p0 with
  | some s => complete fx c s [] m
  | none =>
    let m := scanSync fx i m
    let o := syncObj m i
    complete fx c csDone
      [o.value, syncW1 o, BitVec.ofNat 64 ((waitsOn m i).length + (tget [] m.sync.members i.toNat).length * 2 ^ 16)] m

/-- SYNC_SHARE adding a member (06 R204). -/
def cmdSyncShare (fx : Fixed) (c : Rec) (m : Mach) : Mach :=
  let i := sIdx c.pkt.p0
  match syncCmdStop fx m c.pkt.p0 with
  | some s => complete fx c s [] m
  | none =>
    let m := scanSync fx i m
    let o := syncObj m i
    let ms := tget [] m.sync.members i.toNat
    if !o.orphan && o.owner = cCtx c && o.ogen = cGen c then complete fx c csBadParam [] m
    else if (cCtx c, cGen c) ∈ ms then complete fx c csDone [] m
    else if ms.length ≥ 16 ∨ memberships m ≥ 4096 then complete fx c csNoSpace [] m
    else
      let m := setSync i { o with shared := true } { m with sync := { m.sync with members := tset [] m.sync.members i.toNat (ms ++ [(cCtx c, cGen c)]) } }
      complete fx c csDone [] m

/-- SYNC_SHARE with REMOVE. -/
def cmdSyncUnshare (fx : Fixed) (c : Rec) (m : Mach) : Mach :=
  let i := sIdx c.pkt.p0
  match syncCmdStop fx m c.pkt.p0 with
  | some s => complete fx c s [] m
  | none =>
    let m := scanSync fx i m
    let ms := tget [] m.sync.members i.toNat
    if (cCtx c, cGen c) ∈ ms then
      complete fx c csDone [BitVec.ofNat 64 (ms.length - 1)] (freeOrphan i (dropMember fx i (cCtx c) m))
    else complete fx c csDone [BitVec.ofNat 64 ms.length] m

/-- Orphans left without members are freed, but for one that a command in progress names, or one that has started and waits for the
store's thaw (06 R206). -/
def freeOrphans (m : Mach) : Mach :=
  let on := fun (i : Nat) (c : Rec) =>
    decide (0x51 ≤ c.opcode.toNat) && decide (c.opcode.toNat ≤ 0x54) && decide ((sIdx c.pkt.p0).toNat = i)
  let named := fun (i : Nat) => m.cmds.running.any (on i ·.cmd)
  m.sync.objs.foldl (fun m x =>
    if x.2.valid && x.2.orphan && (tget [] m.sync.members x.1).isEmpty && !named x.1 then freeOrphan (BitVec.ofNat 14 x.1) m else m) m

/-- A freed index enters the free queue at the end of its hold (16 R438). -/
def releaseIndex (i : BitVec 14) (m : Mach) : Mach :=
  if m.sync.heldIdx.any (fun x => x.1 = i && decide (x.2 ≤ tickOf m.cyc)) then
    { m with sync := { m.sync with heldIdx := m.sync.heldIdx.filter (·.1 ≠ i), objQ := fqPush i.toNat m.sync.objQ } }
  else m

/-! ### The jam detector -/

/-- JAM_CTL (16 R424; 19 Table WIN-2). -/
def jamCtl (m : Mach) : W32 := BitVec.ofNat 32 (m.sync.jamCollector.toNat * 2 ^ 16 + m.sync.jamQuiet.toNat * 2 ^ 4 + b2n m.sync.jamEn)

/-- JAM_EXPORT; OPFLAGS bit 0 is NOW (16 R424). -/
def cmdJamExport (fx : Fixed) (c : Rec) (m : Mach) : Mach :=
  let p := c.pkt.p0
  if fld p 31 16 > 0xFEFF ∨ fld p 15 4 = 0 then complete fx c csBadParam [] m
  else
    let old := jamCtl m
    let m := scanEdges fx m
    let m := { m with sync := { m.sync with
      jamFresh := bit p 0 && (m.sync.jamFresh || !m.sync.jamEn), jamCollector := BitVec.ofNat 16 (fld p 31 16), jamQuiet := BitVec.ofNat 12 (fld p 15 4), jamEn := bit p 0 } }
    let (m, n) := if cFlag c 0 then exportEdges fx (fun _ _ => true) false m else (m, 0)
    complete fx c csDone [old.zeroExtend 64, BitVec.ofNat 64 n] m

/-- The edges that a tick exports (16 R421, R422): those that moved, and the quiet ones not yet exported, or all of them when EN has become 1. -/
def tickEdge (m : Mach) (w : Wait) : Bool := ((w.exported.isNone || m.sync.jamFresh) && w.quiet) || movedEdge m w

/-- A tick of the detector (16 R421, R422): edges are marked; while EN is 1, retractions are sent first, then edges. Nothing at all leaves while
EN is 0, retractions included (log 119, DEDUCED). -/
def jamTick (fx : Fixed) (m : Mach) : Mach :=
  let m := markQuiet (scanEdges fx m)
  if !m.sync.jamEn then m
  else
    let m := (exportEdges fx tickEdge true m).1
    { m with sync := { m.sync with jamFresh := false } }

end Sys2Proof.Machine
end

