-- ==== Sys2Proof/Machine/Power.lean ====
section
/-! DEFINITION. Traffic classes, reservations and the port's measured bandwidth; seasons (12_bandwidth_and_latency.md R329 to R343;
13_seasons.md). -/

namespace Sys2Proof.Machine

/-! ### Classes and reservations -/

/-- A class, and a class replaced. -/
def clsOf (m : Mach) (i : Nat) : Cls := tget .reset m.qos.cls i
def setCls (i : Nat) (c : Cls) (m : Mach) : Mach := { m with qos := { m.qos with cls := tset .reset m.qos.cls i c } }

/-- The admission limit (12 R337). -/
def limitOf (eff : BitVec 13) : Nat := 9 * eff.toNat / 10

/-- SHED of every class as a mask (12 R342). -/
def shedMask (m : Mach) : Nat := ((List.range 16).map fun i => if (clsOf m i).grant.toNat < (clsOf m i).resv.toNat then 2 ^ i else 0).sum

/-- Grants of one base level and what room they leave (12 R341). -/
def grantLevel (b : Nat) (room : Nat) (m : Mach) : Mach × Nat :=
  let cs := (List.range 16).filter fun i => (clsOf m i).base.toNat = b
  let want := (cs.map fun i => (clsOf m i).resv.toNat).sum
  if want ≤ room then (cs.foldl (fun m i => setCls i { clsOf m i with grant := (clsOf m i).resv } m) m, room - want)
  else (cs.foldl (fun m i => setCls i { clsOf m i with grant := BitVec.ofNat 13 (room * (clsOf m i).resv.toNat / want) } m) m, 0)

/-- Grants from a base level down. -/
def grantLevels : Nat → Nat → Mach → Mach
  | 0, room, m => (grantLevel 0 room m).1
  | b + 1, room, m =>
    let (m, room) := grantLevel (b + 1) room m
    grantLevels b room m

/-- A class whose GRANT is zero has no token bucket (12 R338). -/
def dropBucket (i : Nat) (m : Mach) : Mach := if (clsOf m i).grant = 0 then setCls i { clsOf m i with tokens := 0 } m else m

/-- GRANT recomputed for every class (12 R341); a change of the shed set from the one before the command is posted and counted
(R342). -/
def regrant (fx : Fixed) (before : Nat) (m : Mach) : Mach :=
  let m := (List.range 16).foldl (fun m i => dropBucket i m) (grantLevels 7 (limitOf m.qos.eff) m)
  if shedMask m = before then m
  else count 0x01F (post fx 0x0A (BitVec.ofNat 64 (m.qos.eff.toNat * 2 ^ 32 + shedMask m)) m)

/-- QOS_CLASSn (12 Table QOS-4). -/
def clsWord (m : Mach) (i : Nat) : W32 :=
  BitVec.ofNat 32 ((clsOf m i).target.toNat * 2 ^ 16 + (clsOf m i).base.toNat * 2 ^ 8 + levelOf m (BitVec.ofNat 4 i))

/-- CLASS_SET (12 R329). -/
def cmdClassSet (fx : Fixed) (c : Rec) (m : Mach) : Mach :=
  let t := fld c.pkt.p0 31 16
  let i := fld c.pkt.p0 3 0
  if (1 ≤ t && decide (t ≤ 49)) || decide (t > 65000) then complete fx c csBadParam [] m
  else
    let old := (clsWord m i).zeroExtend 64
    let m := setCls i { clsOf m i with target := BitVec.ofNat 16 t, base := BitVec.ofNat 3 (fld c.pkt.p0 10 8) } m
    complete fx c csDone [old] (regrant fx (shedMask m) m)

/-- RESERVE_BW (12 R339). -/
def cmdReserve (fx : Fixed) (c : Rec) (m : Mach) : Mach :=
  let bw := fld c.pkt.p0 28 16
  let i := fld c.pkt.p0 3 0
  let others := (((List.range 16).filter (· ≠ i)).map fun j => (clsOf m j).resv.toNat).sum
  let lim := limitOf m.qos.eff
  if bw = 0 ∨ bw > 4000 then complete fx c csBadParam [] m
  else if others + bw > lim then complete fx c csNoBw [BitVec.ofNat 64 (lim - others)] m
  else
    let m := regrant fx (shedMask m) (setCls i { clsOf m i with resv := BitVec.ofNat 13 bw } m)
    complete fx c csDone [(clsOf m i).grant.zeroExtend 64, BitVec.ofNat 64 (lim - (others + bw))] m

/-- RELEASE_BW (12 R340). -/
def cmdUnreserve (fx : Fixed) (c : Rec) (m : Mach) : Mach :=
  let i := fld c.pkt.p0 3 0
  let old := (clsOf m i).resv
  complete fx c csDone [old.zeroExtend 64] (regrant fx (shedMask m) (setCls i { clsOf m i with resv := 0, grant := 0 } m))

/-- The end of a bandwidth window (12 R337). -/
def effWindow (fx : Fixed) (m : Mach) : Mach :=
  let q := m.qos
  let q := if q.winC = 0 then q
    else { q with eff := BitVec.ofNat 13 (min 4096 (1024 * q.winN / q.winC)), measured := true }
  regrant fx (shedMask m) { m with qos := { q with winC := 0, winN := 0 } }

/-- Line credits granted in some memory cycles: they are counted, and waiting transfers are issued (12 R337). -/
def portCredit (fx : Fixed) (lines cycles : Nat) (m : Mach) : Mach :=
  pump fx { m with cache := { m.cache with credits := m.cache.credits + lines }
                   qos := { m.qos with winC := m.qos.winC + cycles, winN := m.qos.winN + lines } }

/-- One of the tokens a class's bucket gains in 1,024 memory cycles (12 R338): at most 64 are held. -/
def tokenRefill (fx : Fixed) (i : Nat) (m : Mach) : Mach :=
  let c := clsOf m i
  if c.grant = 0 then m else pump fx (setCls i { c with tokens := min 64 (c.tokens + 1) } m)

/-! ### Seasons -/

/-- Seasons are taken in this state, the states that DEBUG was entered from included (13 R346). -/
def seasonsRun (m : Mach) : Bool :=
  let st := if m.life.st = .debug then m.life.dbgFrom else m.life.st
  !m.life.domainsOff && (st = .service || st = .degraded || st = .quiesced)

/-- A domain that stays frozen: an unused spare bank, or a bank whose spare serves its index (13 R346, 15 R415). -/
def stuckFrost (m : Mach) (d : Nat) : Bool :=
  if d < 68 then
    let q := d / 17
    let b := d % 17
    if b = 16 then tget 0 m.cache.spareFor q = 0 else bankServing m q b ≠ b
  else false

/-- The index that a bank serves. -/
def bankIndex (m : Mach) (d : Nat) : Nat := if d % 17 = 16 then tget 0 m.cache.spareFor (d / 17) - 1 else d % 17

/-- Sets of a quad in which something narrows the choice of ways. -/
def quadSets (m : Mach) (q : Nat) : List Nat := q :: ((m.cache.sets.map (·.1)).filter (· % 4 = q))

/-- No pinned line lies in a bank, and without it every set of its quad keeps 8 ways (13 R345, R350). -/
def bankMayFreeze (m : Mach) (d : Nat) : Bool :=
  let q := d / 17
  let m' := setDom d .frost m
  (m.cache.sets.all fun x => x.1 % 4 ≠ q || (List.range 32).all fun w => !(x.2.pin.getLsbD w && dWay m x.1 w = d)) &&
  (quadSets m q).all fun s => decide (8 ≤ waysLeft m' s 0)

/-- The condition on which a domain may enter Frost (13 Table SEASON-2). -/
def mayFrost (m : Mach) (d : Nat) : Bool :=
  let closes := m.cmds.running.any fun r => match r.prog with | .close _ => true | _ => false
  if d < 68 then bankMayFreeze m d
  else if d = dAcc 0 then !(m.red.tiles.any fun x => x.2.valid || x.2.block) && !(m.red.hops.any fun x => x.2.valid)
  else if d = dAcc 1 then !(m.red.tiles.any fun x => x.2.block && decide (16384 ≤ x.2.base.toNat + blockSize x.2 - 1))
  else if d = dRed then m.red.qN = [] && m.red.qS = [] && m.red.folds = [] && m.red.segs = [] && !closes
  else if d = dCipher then kbEmpty m
  else if d = dEngine then !(m.cmds.running.any fun r => isCopy r.prog || isMaint r.prog)
  else false

/-- A tag quadrant and its directory segment may enter Winter: every active bank of the quad rests there or deeper. -/
def quadAsleep (m : Mach) (q : Nat) : Bool :=
  (List.range 16).all fun b => let s := (dom m (dBank q (bankServing m q b))).season; s = .winter || s = .frost

/-- A domain has work under way, or something waits on it, though no step uses it at present (13 R347, R348; log 106): a line is
to come back into the bank, the quadrant or its directory, a host is to answer a snoop, or key material or keyed lines are on
their way. -/
def busyDom (m : Mach) (d : Nat) : Bool :=
  let fills := m.cache.tickets.map (·.line) ++ m.sparse.fills.map (·.line)
  if d < 68 then
    (m.cache.tickets.any fun t => match t.kind with | .fill w => dWay m (setOf t.line) w.toNat = d | _ => false) ||
    m.sparse.fills.any fun f => f.way.any fun w => dWay m (setOf f.line) w.toNat = d
  else if dTag 0 ≤ d ∧ d < dAcc 0 then
    fills.any (fun l => quadOf l = (d - dTag 0) % 4) || m.dir.snoops.any (fun s => quadOf s.line = (d - dTag 0) % 4) ||
    m.dir.owing.any fun x => quadOf x.1 = (d - dTag 0) % 4
  else if d = dCipher then
    m.keys.reqs ≠ [] || m.cache.writes.any (·.keyv) || m.cache.tickets.any (·.range.isSome)
  else if dAcc 0 ≤ d ∧ d ≤ dRed then m.red.qN ≠ [] || m.red.qS ≠ [] || m.red.folds ≠ [] || m.red.segs ≠ []
  else false

/-- Idle long enough for a season (13 R348). -/
def idleFor (m : Mach) (d : Nat) (s : Season) : Bool :=
  let need := if s = .frost then max 1 m.regs.frostIdle.toNat else max 1 m.regs.winterIdle.toNat
  decide (need ≤ (dom m d).idle)

/-- The condition of Table SEASON-2 for a season other than Autumn holds: for a tag quadrant and its directory segment, that every
active bank of the quad sleeps. -/
def mayRest (m : Mach) (d : Nat) (s : Season) : Bool :=
  if s = .frost then mayFrost m d else (twinOf d).isNone || quadAsleep m ((d - dTag 0) % 4)

/-- A domain is idle and wanted by nothing, long enough for a season. -/
def unwanted (m : Mach) (s : Season) (d : Nat) : Bool := idleFor m d s && !thawQueued m d && !busyDom m d

/-- A domain, with its twin, may begin to enter a season at a window end (13 R345, R348). -/
def mayEnter (m : Mach) (d : Nat) (s : Season) : Bool :=
  decide (seasonTol s ≤ m.season.tol.toNat) && unwanted m s d && (twinOf d).all (unwanted m s) && !stuckFrost m d && mayRest m d s

/-- Lines of a bank that is entering Frost sent away, in way order, while they can be (13 R351): true when none is left. -/
def evacuate (fx : Fixed) : List Nat → Mach → Mach × Bool
  | [], m => (m, true)
  | k :: t, m =>
    let set := k / 32
    let way := k % 32
    if (tagAt m set way).v = 0 then evacuate fx t m
    else if way ∈ fillingWays m set then (m, false)
    else match freeWay fx set way [0] m with
      | .now m => evacuate fx t m
      | .fill => (fillVictim fx set way (tagAt m set way).cls m, false)
      | .full => (m, false)

/-- The ways that lie in a bank, with anything in them. -/
def bankKeys (m : Mach) (d : Nat) : List Nat := (m.cache.tags.map (·.1)).filter fun k => dWay m (k / 32) (k % 32) = d

/-- A resting domain begins its entry to Winter. -/
def enterWinter (d : Nat) (m : Mach) : Mach :=
  let x := dom m d
  if (x.season = .summer || x.season = .autumn) && x.entering.isNone then setDom d { x with entering := some .winter } m else m

/-- A domain sent toward a season at a window end (13 R348, R349, R351). -/
def sendDomain (fx : Fixed) (d : Nat) (m : Mach) : Mach :=
  let x := dom m d
  let resting := (x.season = .summer || x.season = .autumn) && x.entering.isNone
  if resting && mayEnter m d .frost then
    let m := setDom d { x with entering := some .frost } m
    if d < 68 then (evacuate fx (bankKeys m d) m).1 else m
  else if resting && mayEnter m d .winter then enterWinter d ((twinOf d).toList.foldl (fun m j => enterWinter j m) m)
  else if x.season = .winter && x.entering.isNone && mayEnter m d .frost then setDom d { x with entering := some .frost } m
  else m

/-- A season window ends: idle windows are counted, and domains are sent deeper. -/
def seasonWindow (fx : Fixed) (m : Mach) : Mach :=
  let step := fun (d : Nat) (x : Dom) => { x with idle := if x.used || busyDom m d then 0 else x.idle + 1, used := false }
  let m := { m with season := { m.season with doms := m.season.doms.mapIdx step } }
  if seasonsRun m then (List.range 82).foldl (fun m d => sendDomain fx d m) m else m

/-- A domain idle for its cycles is clock-gated, firmware or none, once start-up is over (13 R346, R347). -/
def autumnEnter (d : Nat) (m : Mach) : Mach :=
  let x := dom m d
  let up := m.life.st ≠ .off && m.life.st ≠ .init && m.life.st ≠ .selftest && !m.life.domainsOff
  if 5 ≤ m.season.tol.toNat ∧ x.season = .summer ∧ x.entering.isNone ∧ up then setDom d { x with season := .autumn } m else m

/-- An entry given up: the slice's state or the domain's condition no longer allows the season (13 R345, R346). -/
def giveUp (d : Nat) (m : Mach) : Mach := setDom d { dom m d with entering := none } m

/-- A Winter entry not cancelled is complete, for the twin as well (13 R345, R346, R349). -/
def winterEnter (d : Nat) (m : Mach) : Mach :=
  let one := fun (m : Mach) (d : Nat) =>
    let x := dom m d
    if x.entering = some .winter ∧ x.season ≠ .spring then setDom d { x with season := .winter, entering := none } m else m
  let x := dom m d
  if x.entering = some .winter ∧ x.season ≠ .spring then
    (if seasonsRun m && mayRest m d .winter then (d :: (twinOf d).toList).foldl one m else (d :: (twinOf d).toList).foldl (fun m d => giveUp d m) m)
  else m

/-- What a domain holds is lost as it switches off (13 Table SEASON-1; 02 R56): the words of a bank, the lines of an accumulator
half, the key table. They read afterwards as what nothing has written (log 107). -/
def loseContents (d : Nat) (m : Mach) : Mach :=
  let half := fun (k : Nat) => decide (dAcc (k / 16384) = d)
  if d < 68 then
    let here := fun (k : Nat) => decide (dWay m (k / 32) (k % 32) = d)
    { m with cache := { m.cache with data := m.cache.data.filter fun x => !here x.1, errs := { m.cache.errs with word := m.cache.errs.word.filter fun x => !here (x.1 / 16) } } }
  else if d = dAcc 0 ∨ d = dAcc 1 then
    { m with red := { m.red with acc := m.red.acc.filter fun x => !half x.1 }
             cache := { m.cache with errs := { m.cache.errs with acc := m.cache.errs.acc.filter fun x => !half (x.1 / 128) } } }
  else if d = dCipher then loseKeys m
  else m

/-- A Frost walk ends, its write-backs acknowledged, and the domain switches off (13 R351); it does not while the state or the
domain's condition no longer allows it (R345, R346). -/
def frostEnter (fx : Fixed) (d : Nat) (m : Mach) : Mach :=
  let x := dom m d
  if x.entering = some .frost ∧ x.season ≠ .spring then
    if !seasonsRun m || !mayFrost m d then giveUp d m else
    let (m, empty) := if d < 68 then evacuate fx (bankKeys m d) m else (m, true)
    let left := decide (d < 68) && m.cache.writes.any fun w => decide (0 ∈ w.also)
    if empty && !left then loseContents d (setDom d { dom m d with season := .frost, entering := none } m) else m
  else m

/-- The queued thaw that starts next (13 R354): demand thaws in order, then firmware thaws, those from Winter first, and none
from Frost while a demand thaw is queued. A domain still on its way to Frost cannot start. -/
def nextThaw (m : Mach) : Option Thaw :=
  let asleep := fun (t : Thaw) => (dom m t.dom).season = .winter || (dom m t.dom).season = .frost
  let q := m.season.queue.filter asleep
  match q.find? (·.demand) with
  | some t => some t
  | none =>
    match q.find? (fun t => (dom m t.dom).season = .winter) with
    | some t => some t
    | none => if m.season.queue.any (·.demand) then none else q.head?

/-- Thaws of domains that need none any more leave the queue. -/
def tidyThaws (m : Mach) : Mach :=
  let idle := fun (t : Thaw) =>
    let d := dom m t.dom
    (d.season = .summer || d.season = .autumn) && d.entering.isNone
  { m with season := { m.season with queue := m.season.queue.filter fun t => !idle t } }

/-- THAW_START: the next thaw starts if the weights in Spring allow it (13 R354). -/
def thawBegin (m : Mach) : Mach :=
  match nextThaw m with
  | none => m
  | some t =>
    let d := dom m t.dom
    if springWeight m + seasonWeight d.season > 4 + m.season.tokens.toNat then m
    else
      let m := { m with season := { m.season with queue := m.season.queue.filter (·.dom ≠ t.dom) } }
      setDom t.dom { d with season := .spring, left := d.season, entering := if t.target = .winter then some .winter else none } m

/-- THAW_COMPLETE (13 R345, R353): the domain is ready; the reduction engine back from Frost reloads its lane generators. -/
def thawEnd (d : Nat) (m : Mach) : Mach :=
  let x := dom m d
  if x.season = .spring then
    let m := if d = dRed && x.left = .frost then { m with red := { m.red with lanes := lanesOf m.red.seed } } else m
    setDom d { season := if x.entering = some .winter then .winter else .summer, entering := none, left := .summer, idle := 0, used := true } m
  else m

/-- A domain that holds its contents in Winter and is on its way from there to Frost: where the new TOL still allows Winter, only that entry ends
(13 R352). -/
def staysWinter (m : Mach) (tol d : Nat) : Bool :=
  let x := dom m d
  decide (68 ≤ d) && x.season = .winter && x.entering = some .frost && decide (250 ≤ tol)

/-- A domain's season, or the one it is on its way to, needs more than a tolerance (13 R352). -/
def tooDeepFor (m : Mach) (tol d : Nat) : Bool :=
  let x := dom m d
  !stuckFrost m d && !staysWinter m tol d &&
  ((x.season = .winter && decide (tol < 250)) || (x.season = .frost && decide (tol < 3000)) || (x.entering = some .frost && decide (tol < 3000)) ||
    (x.season = .spring && x.entering = some .winter && decide (tol < 250)))

/-- Domains whose season a tolerance does not allow. -/
def tooDeep (m : Mach) (tol : Nat) : List Nat := (List.range 82).filter (tooDeepFor m tol)

/-- Domains in Autumn that a tolerance keeps in Summer. -/
def tooLight (m : Mach) (tol : Nat) : Nat := ((List.range 82).filter fun d => (dom m d).season = .autumn && decide (tol < 5)).length

/-- A firmware thaw queued: down to the deepest season still allowed, a data bank in Frost to Summer. One that is queued or under
way already goes no deeper than that. -/
def queueFw (tol d : Nat) (m : Mach) : Mach :=
  let x := dom m d
  let t : Season := if d ≥ 68 ∧ tol ≥ 250 ∧ x.season = .frost then .winter else .summer
  if x.season = .spring then (if t = .summer && x.entering = some .winter then giveUp d m else m)
  else if thawQueued m d then
    { m with season := { m.season with queue := m.season.queue.map fun q => if q.dom = d && t = .summer then { q with target := t } else q } }
  else { m with season := { m.season with queue := m.season.queue ++ [⟨d, false, t⟩] } }

/-- Entries and gating that a tolerance does not allow any more are undone at once. -/
def wakeLight (tol d : Nat) (m : Mach) : Mach :=
  let x := dom m d
  let x := if x.entering = some .winter && decide (tol < 250) && decide (x.season ≠ .spring) then { x with entering := none } else x
  let x := if staysWinter m tol d && decide (tol < 3000) then { x with entering := none } else x
  setDom d (if x.season = .autumn && decide (tol < 5) then { x with season := .summer } else x) m

/-- A lowered tolerance is complete once none of its domains is queued or in Spring. -/
def pumpLatency (fx : Fixed) (c : Rec) (prev : BitVec 24) (ds : List Nat) (n : Nat) (m : Mach) : Mach :=
  if ds.any fun d => thawQueued m d || (dom m d).season = .spring then m
  else complete fx c csDone [prev.zeroExtend 64, BitVec.ofNat 64 n] m

/-- LATENCY_TOLERANCE (13 R352): RES1 counts the domains thawed, those in Autumn among them. -/
def cmdTolerance (fx : Fixed) (c : Rec) (m : Mach) : Mach :=
  let tol := fld c.pkt.p0 23 0
  let prev := m.season.tol
  let m := { m with season := { m.season with tol := BitVec.ofNat 24 tol } }
  if prev.toNat ≤ tol then complete fx c csDone [prev.zeroExtend 64, 0] m
  else
    let ds := tooDeep m tol
    let n := ds.length + tooLight m tol
    let m := (List.range 82).foldl (fun m d => wakeLight tol d m) m
    let m := ds.foldl (fun m d => queueFw tol d m) m
    pumpLatency fx c prev ds n (runOn c (.latency prev ds n) m)

/-- Data banks in a season. -/
def banksIn (m : Mach) (s : Season) : Nat := ((List.range 68).filter fun d => (dom m d).season = s).length

/-- SEASON_QUERY (13 R356). -/
def cmdSeasonQuery (fx : Fixed) (c : Rec) (m : Mach) : Mach :=
  let r0 := banksIn m .summer + banksIn m .autumn * 2 ^ 8 + banksIn m .winter * 2 ^ 16 + banksIn m .frost * 2 ^ 24 + banksIn m .spring * 2 ^ 32
  let r1 := ((List.range 14).map fun i => seasonCode (dom m (68 + i)).season * 2 ^ (3 * i)).sum
  let r2 := m.season.tokens.toNat + queuedWeight m % 2 ^ 16 * 2 ^ 8 + m.season.tol.toNat * 2 ^ 24
  complete fx c csDone [BitVec.ofNat 64 r0, BitVec.ofNat 64 r1, BitVec.ofNat 64 r2] m

/-- THAW_GRANT (13 R355). -/
def cmdThawGrant (fx : Fixed) (c : Rec) (m : Mach) : Mach :=
  complete fx c csDone [m.season.tokens.zeroExtend 64]
    { m with season := { m.season with tokens := BitVec.ofNat 8 (fld c.pkt.p0 7 0) } }

end Sys2Proof.Machine
end

