-- ==== Sys2Proof/Machine/Names.lean ====
section
/-! DEFINITION. What a command names (03_command_channel.md R79): contexts, objects and memory ranges; and when two
commands may not be in progress together. -/

namespace Sys2Proof.Machine

/-- Commands that act on the context they name. -/
def actsOn (op : BitVec 8) : Bool :=
  decide (op ∈ ([0x10, 0x11, 0x12, 0x13, 0x14, 0x15, 0x16, 0x27, 0x84, 0x86] : List (BitVec 8)))

/-- An address that names this slice. -/
def ownAddr (fx : Fixed) (m : Mach) (a : W64) : Bool := decide (a ≠ 0) && berthHome fx m a

/-- Objects a command names by the handles, addresses and slot numbers among its parameters, as (kind, index): the kinds of
LOC form O, and 10 for a sync object. TILE_CLOSE carries a tile address alone, so it names no berth (log 37). -/
def objNames (fx : Fixed) (m : Mach) (c : Rec) : List (Nat × Nat) :=
  let p0 := c.pkt.p0
  let p1 := c.pkt.p1
  let handle : W64 → List (Nat × Nat) := fun h => match hKind h with
    | 0 => [(1, hIdx h)] | 1 => [(8, hIdx h)] | 3 => [(2, hIdx h)] | _ => []
  let tile : W64 → List (Nat × Nat) := fun a => [(4, tIdx a)]
  let berth : W64 → List (Nat × Nat) := fun a => [(1, bIdx a)]
  match c.opcode.toNat with
  | 0x10 => if bit p0 21 then [(7, fld p0 20 12)] else []
  | 0x20 => if p1 = 0 then [] else handle p1
  | 0x21 | 0x22 | 0x24 | 0x25 | 0x26 => handle p0
  | 0x30 | 0x31 => (if cFlag c 0 then berth p0 else []) ++ (if cFlag c 1 then berth p1 else [])
  | 0x40 => (if bit p0 63 then [(4, fld p0 62 50)] else []) ++
      (if cFlag c 1 then (if p1 = 0 then [] else berth p1) ++ (if c.pkt.p2 = 0 then [] else berth c.pkt.p2) else [])
  | 0x41 | 0x42 | 0x45 => tile p0
  | 0x43 => tile p0 ++ (if ownAddr fx m p1 then tile p1 else []) ++ (if ownAddr fx m c.pkt.p2 then tile c.pkt.p2 else [])
  | 0x50 => if bit p1 43 then [(10, fld p1 42 29)] else []
  | 0x51 | 0x52 | 0x53 | 0x54 => [(10, (sIdx p0).toNat)]
  | 0x80 | 0x81 | 0x82 | 0x83 | 0x84 => [(7, fld p0 8 0)]
  | 0x96 => if cFlag c 0 then berth p0 else []
  | _ => []

/-- Memory lines a command reads or writes while it runs, as runs of (first, count). -/
def lineNames (fx : Fixed) (m : Mach) (c : Rec) : List (Nat × Nat) :=
  let p0 := c.pkt.p0
  match c.opcode.toNat with
  | 0x32 | 0x33 | 0x34 | 0x35 | 0x36 | 0x37 => maintRuns fx m c
  | 0x30 | 0x31 => copySrc fx m c ++ copyDst fx m c
  | 0x41 => (let t := tileOf m (tIdx p0); if t.valid then tileWrites fx m t ++ tileReads fx m t else [])
  | 0x96 => if cFlag c 0 then [] else (match lineAt fx m p0 with | some l => [(l.toNat, 1)] | none => [])
  | 0x90 => if fld p0 26 16 > 1 then rangeRuns fx m c.pkt.p1 (fld p0 26 16 * 16) else []
  | 0xF0 => rangeRuns fx m p0 (fld c.pkt.p1 31 0)
  | _ => []

/-- An earlier command and a later one that name the same context (R79). -/
def ctxMeets (a b : Rec) : Bool :=
  cCtxv a && cCtxv b && decide (cCtx a = cCtx b) && (actsOn a.opcode || actsOn b.opcode)

/-- A later command must wait for an earlier one. -/
def meets (fx : Fixed) (m : Mach) (a b : Rec) : Bool :=
  ctxMeets a b || (objNames fx m a).any (fun x => decide (x ∈ objNames fx m b)) || runsMeet (lineNames fx m a) (lineNames fx m b)

/-- A context owns the object (03 R93, 06 R205). -/
def ownsObj (m : Mach) (c : Ctx) (g : Gen) (x : Nat × Nat) : Bool :=
  match x.1 with
  | 1 => (let b := berthOf m x.2; (b.valid || b.freeing) && decide (b.ctx = c))
  | 2 => (let f := ferryOf m x.2; f.valid && decide (f.ctx = c))
  | 4 => (let t := tileOf m x.2; t.valid && decide (t.ctx = c))
  | 8 => (let a := arenaOf m x.2; a.valid && decide (a.ctx = c))
  | 10 => (let o := syncObj m (BitVec.ofNat 14 x.2); o.valid && !o.orphan && decide (o.owner = c) && decide (o.ogen = g))
  | _ => false

/-- A command names a context, or an object the context owns (16 R426). -/
def namesCtx (fx : Fixed) (m : Mach) (c : Ctx) (g : Gen) (x : Rec) : Bool :=
  (cCtxv x && decide (cCtx x = c)) || (objNames fx m x).any (ownsObj m c g)

end Sys2Proof.Machine
end

