-- ==== Sys2Proof/Machine/Teardown.lean ====
section
/-! DEFINITION. Recovery: purging, quarantining and scrubbing a context, resetting an engine, fences and the hardware fence
(14_confidential_operation.md R384 to R389; 15_integrity_and_sparing.md R418, R419; 16_recovery.md R425 to R433). -/

namespace Sys2Proof.Machine

/-! ### Requests that are not yet performed -/

/-- A data-plane access that waits, with its opcode and request, unless it has been answered. -/
def waitingReq (a : Access) : List (Access × BitVec 6 × Req) :=
  match a.src with | .dp op r => if a.acked then [] else [(a, op, r)] | _ => []

/-- Accesses that wait in the replay queues, on tickets and on fills. -/
def waitingAccs (m : Mach) : List Access :=
  (m.cache.replay.map (·.acc)) ++ (m.cache.tickets.flatMap (·.waiters)) ++ (m.sparse.fills.flatMap (·.waiters))

/-- The waiting accesses that a test keeps. -/
def keepAccs (keep : Access → Bool) (m : Mach) : Mach :=
  { m with
      cache := { m.cache with
        replay := m.cache.replay.filter fun p => keep p.acc
        tickets := m.cache.tickets.map fun t => { t with waiters := t.waiters.filter keep } }
      sparse := { m.sparse with fills := m.sparse.fills.map fun f => { f with waiters := f.waiters.filter keep } } }

/-- Waiting requests that a test picks, taken out; each is handed to an answer, and they are counted. -/
def pullAccs (pick : BitVec 6 → Req → Bool) (ans : Access → BitVec 6 → Req → Mach → Mach) (m : Mach) : Mach × Nat :=
  let sel := fun (a : Access) => (waitingReq a).filter fun x => pick x.2.1 x.2.2
  let got := (waitingAccs m).flatMap sel
  (got.foldl (fun m x => ans x.1 x.2.1 x.2.2 m) (keepAccs (fun a => (sel a).isEmpty) m), got.length)

/-- Waiting requests of hosts taken out, each handed to an answer. -/
def pullHosts (ans : HostMsg → Mach → Mach) (m : Mach) : Mach :=
  let of_ := fun (a : Access) => match a.src with | .host _ _ h => [h] | _ => []
  let got := (waitingAccs m).flatMap of_
  got.foldl (fun m h => ans h m) (keepAccs (fun a => (of_ a).isEmpty) m)

/-- A request whose early part has left is answered POISON and the others with a status (16 R426, R431). -/
def closeOff (status : BitVec 4) (a : Access) (op : BitVec 6) (r : Req) (m : Mach) : Mach :=
  answer r op (if a.early then stPoison else status) m

/-- Entries of the contribution queues that a test picks, taken out and answered; requests among them are counted. -/
def pullQueues (pick : QEnt → Bool) (ans : QEnt → Mach → Mach) (m : Mach) : Mach × Nat :=
  let got := (m.red.qN ++ m.red.qS).filter pick
  let m := { m with red := { m.red with qN := m.red.qN.filter (!pick ·), qS := m.red.qS.filter (!pick ·) } }
  (got.foldl (fun m e => ans e m) m, (got.filter (·.fold.isNone)).length)

/-- A sync request that waits for the store's thaw, taken out. -/
def pullThaws (pick : Req → Bool) (ans : BitVec 6 → Req → Mach → Mach) (m : Mach) : Mach × Nat :=
  let got := m.sync.thawQ.filter fun x => pick x.2
  let m := { m with sync := { m.sync with thawQ := m.sync.thawQ.filter fun x => !pick x.2 } }
  (got.foldl (fun m x => ans x.1 x.2 m) m, got.length)

/-- A request of a context. -/
def ofCtx (c : Ctx) (g : Gen) (r : Req) : Bool := decide (r.ctx = c) && decide (r.gen = g)

/-- The unperformed requests of a context withdrawn (16 R426, Drain). -/
def withdraw (c : Ctx) (g : Gen) (m : Mach) : Mach × Nat :=
  let (m, a) := pullAccs (fun _ r => ofCtx c g r) (fun a op r m => noteOrphan op r (closeOff stStale a op r m)) m
  let (m, b) := pullQueues (fun e => ofCtx c g e.r) (fun e m => if e.fold.isSome then entryAnswer e stStale m else orphan e.opcode e.r m) m
  let (m, d) := pullThaws (ofCtx c g) orphan m
  (m, a + b + d)

/-! ### CTX_PURGE -/

/-- Indices of a table that a test picks. -/
def keysOf {α : Type} (t : Tbl α) (p : α → Bool) : List Nat := (t.filter fun x => p x.2).map (·.1)

/-- A tile of a confidential context held for its scrub (16 R427). -/
def keepTile (fx : Fixed) (i : Nat) (m : Mach) : Mach :=
  let m := match hopOfTile m i (tileOf m i).gen with | some j => breakHop fx j 5 m | none => m
  let m := dropFolds i m
  setTile i { tileOf m i with st := .closing, dstv := false } m

/-- A berth of a context freed as BERTH_FREE with ABORT frees it (16 R427). -/
def purgeBerth (fx : Fixed) (i : Nat) (m : Mach) : Mach :=
  releaseIfDone fx i (if (berthOf m i).valid then markFreeing i false m else m)

/-- Queues, berths, descriptors and arenas of a context released (16 R427). -/
def releaseObjs (fx : Fixed) (c : Ctx) (m : Mach) : Mach :=
  let m := (keysOf m.berth.ferries fun f => f.valid && decide (f.ctx = c)).foldl (fun m q => dropQueue q m) m
  let m := (keysOf m.berth.berths fun b => (b.valid || b.freeing) && decide (b.ctx = c)).foldl (fun m i => purgeBerth fx i m) m
  let m := (keysOf m.sparse.scat fun s => s.valid && decide (s.ctx = c)).foldl (fun m i => dropScat i ((scatOf m i).gen + 1) m) m
  (keysOf m.berth.arenas fun a => a.valid && decide (a.ctx = c)).foldl (fun m i => dropArena i m) m

/-- The cut of a purge, and the commands cancelled (16 R426): a freeze of the context ends with it, and its hops and waits count time again. -/
def cutCtx (fx : Fixed) (c : Ctx) (g : Gen) (self : Nat) (m : Mach) : Mach × Nat :=
  let e := ctxOf m c
  cancelAll fx (fun x => decide (x.id ≠ self) && namesCtx fx m c g x) (setCtx c { e with purged := true, frozen := false, gen := g } m)

/-- The domains that the drain and release of a purge need: the sync store, and the half that holds tile descriptors and hop records. -/
def purgeDoms (m : Mach) (c : Ctx) : List Nat :=
  (if (m.sync.objs.any fun x => x.2.valid && x.2.owner = c) || (m.sync.members.any fun x => x.2.any (·.1 = c)) then [dSync] else []) ++
  (if (m.red.tiles.any fun x => x.2.valid && x.2.ctx = c) || ((m.red.qN ++ m.red.qS).any fun e => e.r.ctx = c) then [dAcc 0] else [])

/-- The drain and release of a purge (16 R426, R427): requests withdrawn and waits woken; objects are freed or held. -/
def releaseCtx (fx : Fixed) (c : Ctx) (g : Gen) (m : Mach) : Mach × Nat × Nat :=
  let e := ctxOf m c
  let (m, nw) := withdraw c g m
  let parked := m.sync.waits.length
  let m := dropMemberships fx c (purgeObjects fx c g m)
  let woken := parked - m.sync.waits.length
  let tiles := keysOf m.red.tiles fun t => t.valid && decide (t.ctx = c)
  let m := tiles.foldl (fun m i => if e.conf then keepTile fx i m else discardTile fx i m) m
  let m := if e.conf then m else releaseObjs fx c m
  let m := { m with keys := { m.keys with grants := m.keys.grants.filter fun k => !(k.ctx = c && k.gen = g) }
                    pmc := { m.pmc with permits := m.pmc.permits.filter (·.ctx ≠ c) } }
  let m := dropOwn (· = .view c) m
  (post fx 0x0C (BitVec.ofNat 64 (g.toNat * 4096 + c.toNat)) m, nw, woken)

/-- Objects of a context and generation left without an owner until their members leave (06 R206). -/
def orphansOf (m : Mach) (c : Ctx) (g : Gen) : Nat :=
  (m.sync.objs.filter fun x => x.2.valid && x.2.orphan && decide (x.2.owner = c) && decide (x.2.ogen = g) &&
    !(tget [] m.sync.members x.1).isEmpty).length

/-- A purge and those that have joined it complete with the same words (16 R426, R428). -/
def endPurge (fx : Fixed) (c : Rec) (status : Nat) (words : List W64) (m : Mach) : Mach :=
  let with_ := m.cmds.running.filter fun r => match r.prog with | .purgeWith i => decide (i = c.id) | _ => false
  let m := { m with cmds := { m.cmds with purge := some (cCtx c, cGen c, m.cyc, status, words) } }
  with_.foldl (fun m r => complete fx r.cmd status words m) (complete fx c status words m)

/-- A purge carried on once its domains are ready: its drain and release, in one step (log 68). -/
def pumpPurge (fx : Fixed) (c : Rec) (nc objs : Nat) (m : Mach) : Mach :=
  let (m, ok) := waitDoms c.id (purgeDoms m (cCtx c)) m
  if !ok then m else
  let (m, nw, woken) := releaseCtx fx (cCtx c) (cGen c) m
  endPurge fx c (if nw = 0 then csDone else csWarn)
    [BitVec.ofNat 64 nc, BitVec.ofNat 64 (nw * 2 ^ 32 + woken), BitVec.ofNat 64 (objs - orphansOf m (cCtx c) (cGen c))] m

/-- CTX_PURGE (16 R426, R428). One that starts while another of the same context runs completes together with it; as a purge takes no time unless
it waits for a thaw, one that starts in the control cycle in which another has completed has that one's words (log 68). -/
def cmdCtxPurge (fx : Fixed) (c : Rec) (m : Mach) : Mach :=
  let same := fun (r : Run) => match r.prog with | .purge _ _ => decide (cCtx r.cmd = cCtx c) | _ => false
  match m.cmds.running.find? same, m.cmds.purge with
  | some r, _ => runOn c (.purgeWith r.cmd.id) m
  | none, last =>
    match last.filter fun p => p.1 = cCtx c && p.2.1 = cGen c && decide (p.2.2.1 = m.cyc) && (ctxOf m (cCtx c)).purged with
    | some p => complete fx c p.2.2.2.1 p.2.2.2.2 m
    | none =>
      let objs := ownedCount m (cCtx c) (cGen c) + orphansOf m (cCtx c) (cGen c)
      let (m, nc) := cutCtx fx (cCtx c) (cGen c) c.id m
      pumpPurge fx c nc objs (runOn c (.purge nc objs) m)

/-! ### CTX_QUARANTINE -/

/-- Hops bound to a context's tiles. -/
def ctxHops (m : Mach) (c : Ctx) (g : Gen) : List Nat :=
  keysOf m.red.hops fun h => h.valid && (let t := tileOf m h.tile.toNat; decide (t.ctx = c) && decide (t.cgen = g))

/-- Time counts of a context's waits and hops stopped or resumed (16 R432, R433): each keeps the ticks it has run or has left. -/
def holdTimes (c : Ctx) (g : Gen) (m : Mach) : Mach :=
  let now := tickOf m.cyc
  let m := (ctxHops m c g).foldl (fun m j => setHop j { hopOf m j with tick := now - (hopOf m j).tick } m) m
  { m with sync := { m.sync with waits := m.sync.waits.map fun w =>
      if w.ctx = c ∧ w.gen = g ∧ w.expire ≠ 0 then { w with left := w.expire - now } else w } }
def resumeTimes (c : Ctx) (g : Gen) (m : Mach) : Mach :=
  let now := tickOf m.cyc
  let m := (ctxHops m c g).foldl (fun m j => setHop j { hopOf m j with tick := now - (hopOf m j).tick } m) m
  { m with sync := { m.sync with waits := m.sync.waits.map fun w =>
      if w.ctx = c ∧ w.gen = g ∧ w.expire ≠ 0 then { w with expire := now + w.left, left := 0 } else w } }

/-- The context's requests admitted and not answered (16 R432). -/
def ctxOut (m : Mach) (c : Ctx) (g : Gen) : Nat := ((admitted m).filter fun x => ofCtx c g x.2).length

/-- A freeze completes once the context's admitted requests are answered. -/
def pumpQuarantine (fx : Fixed) (c : Rec) (m : Mach) : Mach :=
  if ctxOut m (cCtx c) (cGen c) = 0 then complete fx c csDone [] m else m

/-- The event of a freeze or a release (19 Table WIN-9). -/
def frozenEvent (fx : Fixed) (c : Rec) (rel : Bool) (m : Mach) : Mach :=
  post fx 0x0D (BitVec.ofNat 64 (b2n rel * 2 ^ 32 + (cGen c).toNat * 4096 + (cCtx c).toNat)) m

/-- CTX_QUARANTINE without RELEASE. -/
def cmdQuarantine (fx : Fixed) (c : Rec) (m : Mach) : Mach :=
  let e := ctxOf m (cCtx c)
  if e.frozen then complete fx c csDone [] m
  else pumpQuarantine fx c (runOn c (.quarantine m.cyc) (frozenEvent fx c false (setCtx (cCtx c) { e with frozen := true } (holdTimes (cCtx c) e.gen m))))

/-- The parked waits of a context evaluated in one pass (16 R433): the satisfied ones with their payloads, by place in
parking order, and the values the consumptions leave. A consumption is an update, which other contexts' EQ waits see (06 R199,
R200). -/
def releasePass (fx : Fixed) (m : Mach) (c : Ctx) (g : Gen) : List Nat → Mach × List (Nat × W64) × Nat → Mach × List (Nat × W64) × Nat
  | [], r => r
  | i :: t, (m', hit, n) =>
    let j : BitVec 14 := BitVec.ofNat 14 i
    let all := (withPlace 0 m.sync.waits).filter fun x => x.2.obj = j && !waitFrozen m x.2
    let ws := all.filter fun x => x.2.ctx = c && x.2.gen = g
    let m' := scanSync fx j m'
    let o := syncObj m' j
    if o.err then releasePass fx m c g t (m', hit, n) else
    let (v, h, k) := evalPass o.value all ws o.value [] 0
    releasePass fx m c g t (setSync j { o with value := v } m', hit ++ h, n + k)

/-- CTX_QUARANTINE with RELEASE (16 R433). -/
def cmdQuarantineRelease (fx : Fixed) (c : Rec) (m : Mach) : Mach :=
  let e := ctxOf m (cCtx c)
  if !e.frozen then complete fx c csDone [0] m
  else
    let m := resumeTimes (cCtx c) e.gen (setCtx (cCtx c) { e with frozen := false } m)
    let objs := ((m.sync.waits.filter fun w => w.ctx = cCtx c && w.gen = e.gen).map (·.obj.toNat)).dedup
    let all := withPlace 0 m.sync.waits
    let own := fun (x : Nat × W64) => all.any fun y => y.1 = x.1 && y.2.ctx = cCtx c && y.2.gen = e.gen
    let (m, hit, n) := releasePass fx m (cCtx c) e.gen objs (m, [], 0)
    let m := all.foldl (fun m x => match hit.find? (·.1 = x.1) with | some h => wake x.2 stOk 1 [h.2] m | none => m) (countN 0x049 none none n m)
    complete fx c csDone [BitVec.ofNat 64 (hit.filter own).length] (frozenEvent fx c true m)

/-- The freeze's time runs out (16 R432). -/
def quarantineExpire (fx : Fixed) (c : Ctx) (m : Mach) : Mach :=
  match m.cmds.running.find? (fun r => match r.prog with | .quarantine _ => decide (cCtx r.cmd = c) | _ => false) with
  | some r =>
    (match r.prog with
     | .quarantine from_ =>
       if m.cyc < from_ + 262144 then m
       else complete fx r.cmd csWarn [0, BitVec.ofNat 64 (ctxOut m c (cGen r.cmd))] m
     | _ => m)
  | none => m

/-! ### SCRUB_CONTEXT -/

/-- A command without its EVENT bit. -/
def quiet (c : Rec) : Rec := { c with pkt := { c.pkt with w0 := c.pkt.w0 &&& ~~~(0x200 : W64) } }

/-- Cache lines and slipway entries under a slot discarded (14 R384 step 2). -/
def scrubSlot (k : BitVec 9) (m : Mach) : Mach × Nat :=
  let ways := keysOf m.cache.tags fun t => t.keyv && decide (t.keyslot = k) && decide (t.v ≠ 0)
  let ways := ways.filter fun x => !(setStOf m (x / 32)).pin.getLsbD (x % 32)
  let slips := m.cache.writes.filter fun w => w.slip && w.keyv && decide (w.keyslot = k) && !w.issued
  (slips.foldl (fun m w => discardSlip w m) (ways.foldl (fun m x => wipeWay (x / 32) (x % 32) m) m), ways.length + slips.length)

/-- A berth of the context overwritten and released, its queues destroyed, commands that name it cancelled (R384 step 2). -/
def scrubBerth (fx : Fixed) (self i : Nat) (m : Mach) : Mach × Nat :=
  let b := berthOf m i
  let m := (berthQueues m i).foldl (fun m q => dropQueue q.1 m) m
  let pick := fun (x : Rec) => decide (x.id ≠ self) && namesBerth m i x
  let rs := m.cmds.running.filter fun r => pick r.cmd
  let ws := m.cmds.waiting.filter pick
  let m := ws.foldl (fun m x => cancelCmd fx (quiet x) none m) (rs.foldl (fun m r => cancelCmd fx (quiet r.cmd) (some r.prog) m) m)
  let m := if b.valid then markFreeing i false m else m
  let m := ((berthRun m b).flatMap fun g => granuleKeys (g - 1)).foldl (fun m k => setData (k / 32) (k % 32) 0 m) m
  (releaseBerth i (unlose 1 i m), b.size.toNat + 1)

/-- A tile of the context overwritten and freed, with its hop record (R384 step 3). -/
def scrubTile (i : Nat) (m : Mach) : Mach :=
  let t := tileOf m i
  let m := (List.range (blockSize t)).foldl (fun m l => setAcc (t.base.toNat + l) ⟨0, false⟩ m) m
  freeTile i (unbind i (dropFolds i m))

/-- Sync records of freed indices the context owned overwritten with zero (R384 step 4). -/
def scrubSync (c : Ctx) (g : Gen) (m : Mach) : Mach × Nat :=
  let zero := fun (o : SyncObj) => { SyncObj.free with gen := o.gen }
  let is := keysOf m.sync.objs fun o => !o.valid && decide (o.owner = c) && decide (o.ogen = g) && decide (o ≠ zero o)
  (is.foldl (fun m i => setSync (BitVec.ofNat 14 i) (zero (syncObj m (BitVec.ofNat 14 i))) m) m, is.length)

/-- A 48-bit count rounded down to a multiple of 4,096 (14 R387). -/
def coarse (n : BitVec 48) : BitVec 48 := BitVec.ofNat 48 (n.toNat / 4096 * 4096)

/-- Every count rounded down as the last confidential context leaves (14 R387). -/
def roundCounts (m : Mach) : Mach :=
  let t := fun (x : Tbl (BitVec 48)) => x.foldl (fun a y => tset 0 a y.1 (coarse y.2)) x
  { m with
      pmc := { m.pmc with fixed := t m.pmc.fixed, cnt := t m.pmc.cnt }
      qos := { m.qos with cls := m.qos.cls.foldl (fun a y =>
        tset Cls.reset a y.1 { y.2 with avg := BitVec.ofNat 20 (y.2.avg.toNat / 4096 * 4096), rd := coarse y.2.rd, wr := coarse y.2.wr,
                                         dlm := coarse y.2.dlm }) m.qos.cls } }

/-- The effects of SCRUB_CONTEXT (14 R384): lines discarded, tiles and granules freed, sync records overwritten. -/
def scrubCtx (fx : Fixed) (c : Ctx) (self : Nat) (m : Mach) : Mach × Nat × Nat × Nat × Nat :=
  let pmc := m.pmc
  let e := ctxOf m c
  let (m, lines) := if e.keyv then scrubSlot e.keyslot m else (m, 0)
  let (m, grans) := (keysOf m.berth.berths fun b => (b.valid || b.freeing) && decide (b.ctx = c)).foldl
    (fun x i => let y := scrubBerth fx self i x.1; (y.1, x.2 + y.2)) (m, 0)
  let tiles := keysOf m.red.tiles fun t => t.valid && decide (t.ctx = c)
  let m := tiles.foldl (fun m i => scrubTile i m) m
  let (m, recs) := scrubSync c e.gen m
  let m := { m with sync := { m.sync with waits := m.sync.waits.filter fun w => !(w.ctx = c && w.gen = e.gen) } }
  let m := (keysOf m.sparse.scat fun s => s.valid && decide (s.ctx = c)).foldl (fun m i => dropScat i ((scatOf m i).gen + 1) m) m
  let m := (keysOf m.berth.arenas fun a => a.valid && decide (a.ctx = c)).foldl (fun m i => dropArena i m) m
  let m := { m with
      keys := { m.keys with
        grants := m.keys.grants.filter (·.ctx ≠ c)
        krt := if e.keyv then m.keys.krt.foldl (fun a x => if x.2.keyslot = e.keyslot then tset .reset a x.1 { x.2 with en := false } else a) m.keys.krt
               else m.keys.krt }
      pmc := pmc }
  let m := setCtx c { e with keyv := false, keyslot := 0, conf := false } (if e.keyv then setSlot e.keyslot .free m else m)
  (if confPresent m then m else roundCounts m, lines, tiles.length, grans, recs)

/-- Started commands that name a context, but for one. -/
def ctxStarted (m : Mach) (c : Ctx) (self : Nat) : Bool :=
  m.cmds.running.any fun r => decide (r.cmd.id ≠ self) && cCtxv r.cmd && decide (cCtx r.cmd = c)

/-- SCRUB_CONTEXT (14 R384); its EVENT bit is ignored (Table CONF-9). -/
def cmdScrubContext (fx : Fixed) (c : Rec) (m : Mach) : Mach :=
  let x := cCtx c
  let e := ctxOf m x
  if !e.conf then complete fx (quiet c) csBadParam [] m
  else if e.keyv && slotHolds (kslot m e.keyslot) then complete fx (quiet c) csBusy [1] m
  else if ctxOut m x e.gen ≠ 0 || ctxStarted m x c.id then complete fx (quiet c) csBusy [2] m
  else
    let (m, lines, tiles, grans, recs) := scrubCtx fx x c.id m
    complete fx (quiet c) csDone [BitVec.ofNat 64 lines, BitVec.ofNat 64 (tiles * 2 ^ 32 + grans), BitVec.ofNat 64 recs] m

/-- What DEBUG_OPEN erases first (14 R389). -/
def eraseTenants (fx : Fixed) (self : Nat) (m : Mach) : Mach :=
  let m := (keysOf m.ctxs fun e => e.opened && e.conf).foldl (fun m i =>
    let x : Ctx := BitVec.ofNat 12 i
    let e := ctxOf m x
    let m := (releaseCtx fx x e.gen (cutCtx fx x e.gen self m).1).1
    let s := kslot m e.keyslot
    let m := if e.keyv then eraseSlot fx e.keyslot s.v0 s.v1 (setSlot e.keyslot { s with kind := 3 } m) else m
    let m := (scrubCtx fx x self m).1
    closeCtx fx x e.gen m) m
  (keysOf m.keys.slots fun s => decide (s.kind = 2) && slotHolds s).foldl (fun m i =>
    let k : BitVec 9 := BitVec.ofNat 9 i
    eraseSlot fx k true true (scrubSlot k m).1) m

/-! ### ENGINE_RESET -/

/-- The reduction engine (16 Table RECOV-6): requests answered RETRY. A drain in progress starts again from its first line, its bias read anew; the
drain of a hop that breaks does not (08 R254). -/
def resetReduction (fx : Fixed) (m : Mach) : Mach × Nat :=
  let m := m.red.folds.foldl (fun m f =>
    respond f.r opTFOLD stPoison 0 (BitVec.ofNat 16 (f.applied * 256)) [] { m with red := { m.red with folds := m.red.folds.filter (·.id ≠ f.id) } }) m
  let (m, n) := pullQueues (fun _ => true) (fun e m => if e.fold.isSome then m else answer e.r e.opcode stRetry m) m
  let bound := fun (t : Nat) => (hopOfTile m t (tileOf m t).gen).isSome
  let again := fun (r : Run) => match r.prog with
    | .close c => if c.draining && !bound c.tile.toNat then
        { r with prog := .close { c with draining := false, made := false, todo := [], left := c.left - c.todo.length, bytes := 0, bias := [] } } else r
    | _ => r
  let running := m.cmds.running.map again
  let m := { m with cmds := { m.cmds with running } }
  let m := (keysOf m.red.hops fun h => h.valid).foldl (fun m j => breakHop fx j 7 m) m
  let m := { m with red := { m.red with lanes := lanesOf m.red.seed } }
  (m, n)

/-- The open digest slot of a cancelled measurement becomes empty. -/
def dropDigest (c : Rec) (m : Mach) : Mach :=
  if c.opcode = 0x31 ∧ (digestOf m (copySlot c)).st = 1 then setDigest (copySlot c) .empty m else m

/-- Running commands whose step a test picks, cancelled. -/
def cancelProgs (fx : Fixed) (pick : Prog → Bool) (after : Rec → Mach → Mach) (m : Mach) : Mach × Nat :=
  let rs := m.cmds.running.filter fun r => pick r.prog
  (rs.foldl (fun m r => after r.cmd (cancelCmd fx r.cmd (some r.prog) m)) m, rs.length)

/-- Banks on their way into Frost return to Summer. -/
def stopFrosts (m : Mach) : Mach :=
  (List.range 68).foldl (fun m d => if (dom m d).entering = some .frost then setDom d { Dom.summer with used := (dom m d).used } m else m) m

/-- Atomic opcodes. -/
def atomicOps : List (BitVec 6) := [opATOM, opATOMRET, opLRED, opSCATTER]

/-- ENGINE_RESET (16 R430). -/
def cmdEngineReset (fx : Fixed) (c : Rec) (m : Mach) : Mach :=
  let e := fld c.pkt.p0 2 0
  let frost := fun (d : Nat) => decide ((dom m d).season = .frost)
  let done := fun (n k : Nat) (m : Mach) => complete fx c csDone [BitVec.ofNat 64 n, BitVec.ofNat 64 k] m
  if 5 ≤ e then complete fx c csBadParam [] m
  else if (e = 0 && frost dRed) || ((e = 1 || e = 2) && frost dEngine) || (e = 4 && frost dCipher) then complete fx c csDone [] m
  else if e = 0 then (let r := resetReduction fx m; done r.2 0 r.1)
  else if e = 1 then (let r := cancelProgs fx isCopy dropDigest m; done 0 r.2 r.1)
  else if e = 2 then (let r := cancelProgs fx isMaint (fun _ m => m) m; done 0 r.2 (stopFrosts r.1))
  else if e = 3 then
    (let r := pullAccs (fun op _ => decide (op ∈ atomicOps)) (closeOff stRetry) m; done r.2 0 r.1)
  else done 0 0 m

/-! ### Fences -/

/-- Every parked wait woken with code 0x83, in parking order (01 R34, 15 R402). -/
def wakeParked (m : Mach) : Mach := wakeAll 0x83 m.sync.waits m

/-- A fatal internal error (15 R402); in DEBUG it is the state that DEBUG_CLOSE returns to that becomes DEGRADED. -/
def goFatal (m : Mach) : Mach :=
  let down := fun (st : SliceState) => if st = .ready || st = .service || st = .quiesced then .degraded else st
  wakeParked { m with life := { m.life with st := down m.life.st, dbgFrom := down m.life.dbgFrom }, err := { m.err with fatal := true, degraded := true } }

/-- Accesses of hosts that wait. -/
def hostWaits (m : Mach) : Bool := (waitingAccs m).any fun a => match a.src with | .host _ _ _ => true | _ => false

/-- Snoops sent for one directory entry by the fence's walk (15 R418 step 4). -/
def fenceEnt (fx : Fixed) (id k : Nat) (m : Mach) : Mach :=
  let e := dirEnt m k
  let l := dirLine k e
  if (e.st0 = .i && e.st1 = .i) || !(snoopsOf m l).isEmpty || m.dir.owing.any (·.1 = l) then m
  else
    let (m, ok) := waitDom id (dDir (l.toNat % 4)) m
    if !ok then m else sendSnoops fx l (holderSnoops (dirEnt m k)) (markSnoop k m)

/-- No half is held by a host, and no snoop is outstanding. -/
def dirQuiet (m : Mach) : Bool := m.dir.recalls.isEmpty && m.dir.snoops.isEmpty && m.dir.owing.isEmpty && m.dir.ents.all fun x => x.2.st0 = .i && x.2.st1 = .i

/-- Dirty ways that are not pinned. -/
def dirtyWays (m : Mach) : List Nat :=
  (keysOf m.cache.tags fun t => decide (t.d ≠ 0) && decide (t.v ≠ 0)).filter fun x => !(setStOf m (x / 32)).pin.getLsbD (x % 32)

/-- Every directory entry and every tag with a wrong bit looked at, before the fence's walks go by what they say (15 R399, 04 Table CACHE-11). -/
def scanAllDir (fx : Fixed) (m : Mach) : Mach := (m.cache.errs.dirE.map (·.1)).foldl (fun m k => scanDirEnt fx k m) m
def scanAllTags (fx : Fixed) (m : Mach) : Mach := (m.cache.errs.tag.map (·.1)).foldl (fun m x => scanTag fx (x / 32) (x % 32) m) m

/-- Dirty lines written back, poisoned first under DISCARD (15 R418 step 5). RES1 counts the lines that DISCARD poisons and those found to have lost
a sector. -/
def fenceWrites (fx : Fixed) (id : Nat) : List Nat → FenceProg → Mach → Mach × FenceProg
  | [], p, m => (m, p)
  | x :: t, p, m =>
    let set := x / 32
    let way := x % 32
    let (m, ok) := if bankless (tagAt m set way) then (m, true) else waitDom id (dWay m set way) m
    if !ok || decide (way ∈ fillingWays m set) then fenceWrites fx id t p m
    else
      let was := (tagAt m set way).poison
      let m := if p.discard then setTag set way { tagAt m set way with poison := true } m else m
      match cleanWay fx set way id m with
      | .now m => fenceWrites fx id t { p with wb := p.wb + 1, pois := p.pois + b2n (!was && (tagAt m set way).poison), left := p.left + 1 } m
      | .fill => fenceWrites fx id t p (fillVictim fx set way m.regs.maintTc m)
      | .full => (m, p)

/-- Every domain is switched off by a fence, and the key table with them (01 R34, 02 R56). -/
def switchOff (m : Mach) : Mach :=
  let m := loseKeys m
  { m with life := { m.life with domainsOff := true, hwFence := none } }

/-- A fence carried on as far as it can go (15 R418, R419). The domains are switched off once the notices of the hops it broke are sent (08 R254). -/
def pumpFence (fx : Fixed) (c : Rec) (p : FenceProg) (m : Mach) : Mach :=
  let (m, acks) := takeAcks c.id m
  let p := { p with left := p.left - acks }
  let (m, p) :=
    if p.phase = 2 && !stillOut m p.before && !hostWaits m then
      ((m.red.hops.map (·.1)).foldl (fun m j => breakHop fx j 8 m) (wakeParked m), { p with phase := if p.fatal then 6 else 4 })
    else (m, p)
  let m := if p.phase = 4 then (m.dir.ents.map (·.1)).foldl (fun m k => fenceEnt fx c.id k m) (scanAllDir fx m) else m
  let p := if p.phase = 4 && dirQuiet m then { p with phase := 5 } else p
  let m := if p.phase = 5 then scanAllTags fx m else m
  let (m, p) := if p.phase = 5 then fenceWrites fx c.id (dirtyWays m) p m else (m, p)
  let p := if p.phase = 5 && (dirtyWays m).isEmpty && m.cache.writes.isEmpty && m.cache.owed.isEmpty then { p with phase := 6 } else p
  if p.phase = 6 && m.red.notices.isEmpty then
    complete fx c (if p.fatal then csWarn else csDone)
      [BitVec.ofNat 64 p.wb, BitVec.ofNat 64 p.pois, if p.fatal then 0xFFFFFFFFFFFFFFFF else 0]
      (switchOff m)
  else setProg c.id (.fence p) m

/-- SLICE_FENCE mode 0. -/
def cmdFence0 (fx : Fixed) (c : Rec) (m : Mach) : Mach :=
  let p : FenceProg :=
    { discard := cFlag c 0, fatal := m.err.fatal, phase := 2, before := admittedKeys m, wb := 0, pois := 0, left := 0 }
  pumpFence fx c p (runOn c (.fence p) { m with life := { m.life with st := .fenced } })

/-- The fence's walk gives up a snoop: it is completed as BIRspI, and the line of a half it leaves unknown is poisoned. -/
def fenceSnoop (fx : Fixed) (s : Snoop) (m : Mach) : Mach :=
  if m.regs.snoopTimeout = 0 || decide (tickOf m.cyc < s.tick + m.regs.snoopTimeout.toNat) then m
  else
    let lost := match dirFind m s.line with | some k => ownsHalf (dirEnt m k) s.agent s.half | none => false
    match (if lost then poisonLine fx s.line m else some m) with
    | none => m
    | some m =>
      let m := endSnoop fx s 0 m
      { m with cmds := { m.cmds with running := m.cmds.running.map fun r =>
          match r.prog with | .fence p => { r with prog := .fence { p with pois := p.pois + b2n lost } } | _ => r } }

/-- SNOOP_TIMEOUT: what 11 R325 gives, and during a fence's walk what 15 R418 gives. -/
def snoopLate (fx : Fixed) (ctag : BitVec 16) (m : Mach) : Mach :=
  let walks := m.cmds.running.any fun r => match r.prog with | .fence p => decide (p.phase = 4) | _ => false
  match m.dir.snoops.find? (·.ctag = ctag), walks with
  | some s, true => fenceSnoop fx s (snoopExpire fx ctag m)
  | _, _ => snoopExpire fx ctag m

/-- The requests a quiesce waits for: every admitted request, the parked waits among them (03 R100 makes no exception for
them, as 16 R432 does; DEDUCED, log 36). -/
def quiesceKeys (m : Mach) : List (BitVec 16 × BitVec 12) := admittedKeys m ++ m.sync.waits.map fun w => (w.source, w.tag)

/-- Some request a quiesce waits for is unanswered. -/
def quiesceOut (m : Mach) (ks : List (BitVec 16 × BitVec 12)) : Bool := (quiesceKeys m).any fun k => decide (k ∈ ks)

/-- A quiesce completes once the requests admitted before it are answered (03 R100). -/
def quiesceEnd (fx : Fixed) (m : Mach) : Mach :=
  match m.cmds.running.find? (fun r => match r.prog with | .quiesce _ ks => !quiesceOut m ks | _ => false) with
  | some r => complete fx r.cmd csDone [] m
  | none => m

/-- SLICE_FENCE mode 1 (03 R100, R101). -/
def cmdFence1 (fx : Fixed) (c : Rec) (m : Mach) : Mach :=
  if cFlag c 0 then complete fx c csBadParam [] m
  else
  let m := { m with life := { m.life with st := .quiesced } }
  if (quiesceKeys m).isEmpty then complete fx c csDone [] m else runOn c (.quiesce m.cyc (quiesceKeys m)) m

/-- A quiesce's time runs out (03 R100). -/
def quiesceExpire (fx : Fixed) (m : Mach) : Mach :=
  let late := fun (r : Run) => match r.prog with | .quiesce f _ => decide (f + 1048576 ≤ m.cyc) | _ => false
  match m.cmds.running.find? late with
  | some r =>
    let n := match r.prog with | .quiesce _ ks => ((quiesceKeys m).filter fun k => decide (k ∈ ks)).length | _ => 0
    if n = 0 then complete fx r.cmd csDone [] m else complete fx r.cmd csWarn [0, BitVec.ofNat 64 n] m
  | none => m

/-- RECOV_CTL.HWFENCE written by the tray controller (16 R431): every admitted request is answered MISHOMED and every wait
woken; the cycle from which the domains are switched off is kept. -/
def hwFence (m : Mach) : Mach :=
  let m := { m with life := { m.life with st := .fenced }, err := { m.err with fatal := true } }
  let m := (pullAccs (fun _ _ => true) (closeOff stMishomed) m).1
  let m := pullHosts (fun h m => ndr h 0 stMishomed (unclaim h m)) m
  let m := (pullQueues (fun _ => true) (fun e m => if e.fold.isSome then m else answer e.r e.opcode stMishomed m) m).1
  let m := (pullThaws (fun _ => true) (fun op r m => answer r op stMishomed m) m).1
  let m : Mach := m.red.folds.foldl (fun m f => answer f.r opTFOLD stMishomed m) m
  let m : Mach := m.sync.coalWait.foldl (fun m x => if x.said then m else answer x.r x.op stMishomed m) m
  let m : Mach := { m with sync := { m.sync with coalWait := [] } }
  let m : Mach := (m.cache.writes.flatMap fun w => writeReq w.after).foldl (fun m x => answer x.2 x.1 stMishomed m) m
  let m : Mach := { m with
      red := { m.red with folds := [] }
      cache := { m.cache with writes := m.cache.writes.map fun w => if (writeReq w.after).isEmpty then w else { w with after := .none } } }
  let parkedAt := fun (s : Stop) => (m.sync.waits.filter fun w => w.stop = s).length
  let t := m.cyc + max (parkedAt .north) (parkedAt .south) + 64
  wakeParked { m with life := { m.life with hwFence := some t } }

/-- The hardware fence switches the domains off. -/
def hwFenceOff (m : Mach) : Mach :=
  match m.life.hwFence with
  | some t => if t ≤ m.cyc then switchOff m else m
  | none => m

end Sys2Proof.Machine
end

