-- ==== Sys2Proof/Machine/Firmware.lean ====
section
/-! DEFINITION. Controller firmware: the load at start-up, staging, activation and query
(14_confidential_operation.md R381, R390 to R392; 17_startup_and_levels.md R441). -/

namespace Sys2Proof.Machine

/-- A bank's verified flag and its version. -/
def setBank (b ok : Bool) (ver : W32) (f : FwSt) : FwSt :=
  if b then { f with okB := ok, verB := ver } else { f with okA := ok, verA := ver }
def bankOk (m : Mach) (b : Bool) : Bool := if b then m.fw.okB else m.fw.okA

/-- Beats of a transfer written into a bank from a byte offset (14 Table CONF-8). -/
def putBeats (b : Bool) : Nat → List W64 → Mach → Mach
  | _, [], m => m
  | i, w :: t, m => putBeats b (i + 1) t { m with fw := { m.fw with sram := tset 0 m.fw.sram (b2n b * 2 ^ 15 + i) w } }

/-- The stage that awaits a request number. -/
def stageOf (m : Mach) (n : BitVec 16) : Option (Run × Bool) :=
  (m.cmds.running.find? fun r => match r.prog with | .stage _ _ _ q _ => decide (q = some n) | _ => false).map fun r =>
    (r, match r.prog with | .stage b _ _ _ _ => b | _ => false)

/-- INIT waits for its image (17 R441). -/
def initLoads (m : Mach) : Bool := m.life.st = .init && m.life.phase = 0

/-- FWLOAD: in INIT into bank A under request 0x0000 and within 192 KiB; else into the bank of the stage whose request it
names; refused with KACK otherwise (log 26). -/
def fwLoad (request : BitVec 16) (bank : Bool) (offset : BitVec 18) (beats : List W64) (ok : Bool) (m : Mach) : Mach :=
  let first := offset.toNat / 8
  let last := first + beats.length
  if m.life.st = .off then m
  else
    let good :=
      if m.life.st = .init then initLoads m && decide (request = 0) && !bank && decide (last ≤ 24576)
      else decide ((stageOf m request).map (·.2) = some bank) && decide (last ≤ 24576)
    if ok && good then putBeats bank first beats m else emit (.kackRejected request) m

/-- FWDONE (17 R441; 14 R390); with a bad beat it is discarded and answered rejected (14 R381, 02 R57). One that nothing awaits has no effect and no answer: the rules answer a refused FWLOAD only
(DEDUCED, log 26). -/
def fwDone (fx : Fixed) (request : BitVec 16) (result : Byte) (version : W32) (ok : Bool) (m : Mach) : Mach :=
  if m.life.st = .off then m
  else if !ok then emit (.kackRejected request) m
  else if m.life.st = .init then
    if !initLoads m || request ≠ 0 then m
    else if result = 0 then
      { m with fw := { setBank false true version m.fw with okB := false, verB := 0, bankB := false }
               life := { m.life with phase := 1, fwResult := 0 } }
    else { m with life := { m.life with phase := 7, fail := 1, fwResult := result } }
  else match stageOf m request with
    | none => m
    | some (r, b) =>
      let m := { m with fw := setBank b (decide (result = 0)) version m.fw }
      if result = 0 then complete fx r.cmd csDone [version.zeroExtend 64] m
      else complete fx r.cmd csWarn [result.zeroExtend 64, 0] m

/-- No FWDONE has arrived in INIT (17 R441): 268,435,456 control cycles after phase 0 began, at cycle 16. -/
def fwLoadExpire (m : Mach) : Mach :=
  if initLoads m && decide (268435472 ≤ m.cyc) then { m with life := { m.life with phase := 7, fail := 2 } } else m

/-- The next line of an image asked for. -/
def askImage (fx : Fixed) (c : Rec) (i : Nat) (m : Mach) : Mach :=
  match runsAt (rangeRuns fx m c.pkt.p0 (fld c.pkt.p1 31 0)) i with
  | some l => doOwn fx (ownRead (.cmd c.id) .read l) m
  | none => m

/-- A stage takes the lines that have come, and sends the image when it has them all. -/
def pumpStage (fx : Fixed) (c : Rec) (b : Bool) (lines : Nat) (got : List Line) (from_ : Nat) (m : Mach) : Mach :=
  match takeDone (fun s => s = .cmd c.id) m with
  | (m, some (.read _ _ d _)) =>
    let got := got ++ [d]
    if got.length < lines then askImage fx c got.length (setProg c.id (.stage b lines got none from_) m)
    else
      let n : BitVec 16 := BitVec.ofNat 16 ((lowestFree (reqNums m) 0 65536).getD 0)
      emit (.fwimg n b (BitVec.ofNat 32 (lines * 128)) got) (setProg c.id (.stage b lines [] (some n) m.cyc) m)
  | (m, _) => m

/-- A stage is in progress. -/
def staging (m : Mach) : Bool := m.cmds.running.any fun r => match r.prog with | .stage _ _ _ _ _ => true | _ => false

/-- FW_STAGE (14 R390). -/
def cmdFwStage (fx : Fixed) (c : Rec) (m : Mach) : Mach :=
  let n := fld c.pkt.p1 31 0
  let bad := decide (fld c.pkt.p0 6 0 ≠ 0) || decide (n % 128 ≠ 0) || decide (n < 1024) || decide (262144 < n)
  match firstStop [stopIf bad csBadParam, stopIf (!rangeHomed fx m c.pkt.p0 n) csMishomed,
      stopIf (mapMeets fx (rangeRuns fx m c.pkt.p0 n)) csBadParam, stopIf (staging m) csBusy] with
  | some s => complete fx c s [] m
  | none =>
    let b := !m.fw.bankB
    let m := { m with fw := setBank b false (fwVersion m b) m.fw }
    askImage fx c 0 (runOn c (.stage b (n / 128) [] none m.cyc) m)

/-- No FWDONE has come for a stage (14 R390). -/
def stageExpire (fx : Fixed) (m : Mach) : Mach :=
  let late := fun (r : Run) => match r.prog with | .stage _ _ _ (some _) f => decide (f + 268435456 ≤ m.cyc) | _ => false
  match m.cmds.running.find? late with
  | some r => complete fx r.cmd csWarn [0, 1] m
  | none => m

/-- Every command but the activation has completed: the controller restarts from the new bank (14 R391). -/
def pumpActivate (c : Rec) (b from_ : Bool) (m : Mach) : Mach :=
  if !from_ && m.cmds.running.all (fun r => r.cmd.id = c.id) then
    setProg c.id (.activate b true m.cyc) { m with fw := { m.fw with bankB := b } }
  else m

/-- FW_ACTIVATE. -/
def cmdFwActivate (fx : Fixed) (c : Rec) (m : Mach) : Mach :=
  let b := bit c.pkt.p0 0
  if b = m.fw.bankB || !bankOk m b then complete fx c csBadParam [] m
  else pumpActivate c b false (runOn c (.activate b false 0) { m with fw := { m.fw with paused := true } })

/-- The activation whose new image runs, and the cycle of the restart. -/
def activating (m : Mach) : Option (Rec × Bool × Nat) :=
  m.cmds.running.findSome? fun r => match r.prog with | .activate b true f => some (r.cmd, b, f) | _ => none

/-- The new image signals ready. -/
def activateReady (fx : Fixed) (m : Mach) : Mach :=
  match activating m with
  | some (c, b, _) =>
    complete fx c csDone [(fwVersion m b).zeroExtend 64, (fwVersion m (!b)).zeroExtend 64] { m with fw := { m.fw with paused := false } }
  | none => m

/-- The new image has not signalled ready in time. -/
def activateExpire (fx : Fixed) (m : Mach) : Mach :=
  match activating m with
  | some (c, b, f) =>
    if m.cyc < f + 65536 then m
    else
      let m := { m with fw := { setBank b false (fwVersion m b) m.fw with bankB := !b, paused := false } }
      complete fx c csWarn [(fwVersion m (!b)).zeroExtend 64, (fwVersion m b).zeroExtend 64] m
  | none => m

/-- FW_QUERY (14 R392). -/
def cmdFwQuery (fx : Fixed) (c : Rec) (m : Mach) : Mach :=
  complete fx c csDone
    [BitVec.ofNat 64 (m.fw.verA.toNat * 2 ^ 32 + m.fw.verB.toNat),
     BitVec.ofNat 64 (b2n m.fw.bankB + b2n m.fw.okA * 2 + b2n m.fw.okB * 4 + b2n (staging m) * 8), 0] m

end Sys2Proof.Machine
end

