-- ==== Sys2Proof/Machine/Errors.lean ====
section
/-! DEFINITION. Errors: raw access to the arrays, lost records, the scrubbers and the rotation sweep, ERRLOG_READ, SCRUB_RATE,
INJECT and POISON_CLEAR (14_confidential_operation.md R373; 15_integrity_and_sparing.md R399 to R412). -/

namespace Sys2Proof.Machine

/-! ### Words as stored -/

/-- Set, way and word of a location of form A, none when it is out of range (15 Table ECC-4). -/
def locWay (loc : Nat) : Option (Nat × Nat × Nat) :=
  if loc < 2 ^ 28 ∧ loc % 128 = 0 then some (loc / 2 ^ 16, loc / 2 ^ 11 % 32, loc / 2 ^ 7 % 16) else none

/-- Line or index and byte of a location of form R. -/
def locByte (loc lines bytes : Nat) : Option (Nat × Nat) :=
  let k := loc % 2 ^ 16
  let b := loc / 2 ^ 16
  if k < lines ∧ b < bytes then some (k, b) else none

/-- The record of a sync object as bits. -/
def syncRecBits (o : SyncObj) : BitVec 128 := BitVec.ofNat 128 ((syncW1 o).toNat * 2 ^ 64 + o.value.toNat)

/-- Data bits and check bits stored at a location of array 0 to 4 (15 Table ECC-6); none when there is no such location. -/
def rawGet (m : Mach) (arr loc : Nat) : Option (W64 × BitVec 8) :=
  let e := m.cache.errs
  match arr with
  | 0 => (locWay loc).map fun x =>
      let w : W64 := (rawData m x.1 x.2.1).extractLsb' (64 * x.2.2) 64
      let p := tget (0, 0) e.word (wayKey x.1 x.2.1 * 16 + x.2.2)
      (w ^^^ p.1, Config.checkBits w ^^^ p.2)
  | 1 => (locWay loc).bind fun x =>
      if x.2.2 = 0 then some (((tagBits (tagAt m x.1 x.2.1)) ^^^ tget 0 e.tag (wayKey x.1 x.2.1)).zeroExtend 64, 0) else none
  | 2 => if loc < 2 ^ 19 then
      (let w := dirBits (dirEnt m loc)
       let p := tget (0, 0) e.dirE loc
       some ((w ^^^ p.1).zeroExtend 64, Config.checkBitsDir w ^^^ p.2)) else none
  | 3 => (locByte loc 32768 128).map fun x =>
      let w : Byte := (accLine m x.1).data.extractLsb' (8 * x.2) 8
      let p := tget (0, 0) e.acc (x.1 * 128 + x.2)
      ((w ^^^ p.1).zeroExtend 64, (Config.checkBitsByte w ^^^ p.2).zeroExtend 8)
  | 4 => (locByte loc 16384 16).map fun x =>
      let w : Byte := (syncRecBits (syncObj m (BitVec.ofNat 14 x.1))).extractLsb' (8 * x.2) 8
      let p := tget (0, 0) e.sync (x.1 * 16 + x.2)
      ((w ^^^ p.1).zeroExtend 64, (Config.checkBitsByte w ^^^ p.2).zeroExtend 8)
  | _ => none

/-- Stored data bits and check bits flipped at a location of array 0 to 4. -/
def rawFlip (arr loc : Nat) (dx : W64) (cx : BitVec 8) (m : Mach) : Mach :=
  let e := m.cache.errs
  let put := fun (e : ArrErr) => { m with cache := { m.cache with errs := e } }
  match arr with
  | 0 => (match locWay loc with
      | some x =>
        let k := wayKey x.1 x.2.1 * 16 + x.2.2
        let p := tget (0, 0) e.word k
        put { e with word := tset (0, 0) e.word k (p.1 ^^^ dx, p.2 ^^^ cx) }
      | none => m)
  | 1 => (match locWay loc with
      | some x =>
        let k := wayKey x.1 x.2.1
        put { e with tag := tset 0 e.tag k (tget 0 e.tag k ^^^ dx.extractLsb' 0 56) }
      | none => m)
  | 2 => (let p := tget (0, 0) e.dirE loc
          put { e with dirE := tset (0, 0) e.dirE loc (p.1 ^^^ dx.extractLsb' 0 56, p.2 ^^^ cx) })
  | 3 => (match locByte loc 32768 128 with
      | some x =>
        let k := x.1 * 128 + x.2
        let p := tget (0, 0) e.acc k
        put { e with acc := tset (0, 0) e.acc k (p.1 ^^^ dx.extractLsb' 0 8, p.2 ^^^ cx.extractLsb' 0 5) }
      | none => m)
  | 4 => (match locByte loc 16384 16 with
      | some x =>
        let k := x.1 * 16 + x.2
        let p := tget (0, 0) e.sync k
        put { e with sync := tset (0, 0) e.sync k (p.1 ^^^ dx.extractLsb' 0 8, p.2 ^^^ cx.extractLsb' 0 5) }
      | none => m)
  | _ => m

/-! ### Lost records (15 R400) -/

/-- An index marked lost, with its entry in the log. -/
def markLost (fx : Fixed) (kind i : Nat) (m : Mach) : Mach :=
  logErr fx 0x29 0 (locO kind i) { m with err := { m.err with lost := m.err.lost ++ [kind * 16384 + i] } }

/-- A tile taken out of service: closed with its lines poisoned; its hop breaks, and its close writes nothing more. -/
def loseTile (fx : Fixed) (kind i tile : Nat) (m : Mach) : Mach :=
  let t := tileOf m tile
  if !t.valid || t.lost then m else
  let m := logErr fx 0x29 0 (locO kind i) m
  let m := (List.range (blockSize t)).foldl (fun m l =>
    putAcc (t.base.toNat + l) { accLine m (t.base.toNat + l) with poison := true } m) m
  let m := match hopOfTile m tile t.gen with | some j => breakHop fx j 5 m | none => m
  let m := setTile tile { tileOf m tile with st := .closed, lost := true } m
  match closeOf m tile with
  | some (run, c) =>
    complete fx run.cmd csPoisoned [BitVec.ofNat 64 c.bytes, BitVec.ofNat 64 c.late, closeRes2 c 0]
      (unbind tile (dropOwn (fun s => s = .bias c.tile || s = .drain c.tile) m))
  | none => m

/-- A controller record found uncorrectable, by the kinds of LOC form O; an index that names nothing has no record to lose. DESIGN CHOICE
(log 135): kinds 10, 11 and 12 stand for an entry of the granule map, whose berth is lost; a membership, which ends; and a digest slot, which
becomes empty. -/
def loseRecord (fx : Fixed) (kind i : Nat) (m : Mach) : Mach :=
  if lostObj m kind i then m else
  match kind with
  | 0 =>
    let c : Ctx := BitVec.ofNat 12 i
    if i < 4096 ∧ (ctxOf m c).opened ∧ !(ctxOf m c).lost then
      logErr fx 0x29 0 (locO 0 i) (setCtx c { ctxOf m c with suspended := true, lost := true } m)
    else m
  | 1 => if (berthOf m i).valid then markLost fx 1 i m else m
  | 2 => if (ferryOf m i).valid then markLost fx 2 i m else m
  | 3 => if (scatOf m i).valid then markLost fx 3 i m else m
  | 4 => loseTile fx 4 i i m
  | 5 => if (hopOf m i).valid then loseTile fx 5 i (hopOf m i).tile.toNat m else m
  | 6 =>
    (match m.sync.waits[i]? with
     | some w => logErr fx 0x2A 0 (locO 6 i) (leaveTable w m)
     | none => m)
  | 10 =>
    (match m.berth.berths.find? fun x => x.2.valid && decide (i ∈ (List.range (x.2.size.toNat + 1)).map (x.2.mapbase.toNat + ·)) with
     | some x => if lostObj m 1 x.1 then m else markLost fx 1 x.1 m
     | none => m)
  | 11 =>
    (match (m.sync.members.flatMap fun x => x.2.map fun y => (x.1, y.1))[i]? with
     | some x => logErr fx 0x29 0 (locO 15 i) (dropMember fx (BitVec.ofNat 14 x.1) x.2 m)
     | none => m)
  | 12 => if (digestOf m i).st = 0 then m else logErr fx 0x29 0 (locO 15 i) (setDigest i .empty m)
  | 8 => if (arenaOf m i).valid then markLost fx 8 i m else m
  | 9 => if (objOf m i).valid then markLost fx 9 i m else m
  | _ => m

/-! ### The scrubber -/

/-- Bits flipped in a word of a slipway entry (15 Table ECC-1): one is corrected in flight, and two poison the entry, from which a
line on its way to memory is still served. The location is
given as the line's set and the word, way zero (DEDUCED, log 103). -/
def slipUpset (fx : Fixed) (i : BitVec 10) (w : BitVec 4) (dx : W64) (cx : BitVec 8) (m : Mach) : Mach :=
  match m.cache.writes.find? fun x => x.index = i && x.slip with
  | none => m
  | some x =>
    let put := fun (d : Line) (p : Bool) (m : Mach) =>
      { m with cache := { m.cache with writes := m.cache.writes.map fun y => if y.index = i then { y with data := d, poison := p } else y } }
    let word : W64 := x.data.extractLsb' (64 * w.toNat) 64
    match eccOf Config.checkBits word dx cx with
    | .clean v | .single v => put (x.data ^^^ BitVec.ofNat 1024 ((word ^^^ v).toNat * 2 ^ (64 * w.toNat))) x.poison m
    | .double =>
      logErr fx 0x03 0 (locA (setOf x.line) 0 w.toNat) (put (x.data ^^^ BitVec.ofNat 1024 (dx.toNat * 2 ^ (64 * w.toNat))) true m)

/-- A disturbance takes place, or is found where the structure is only checked (15 Table ECC-1). -/
def disturb (fx : Fixed) (u : Upset) (m : Mach) : Mach :=
  match u with
  | .dataWord s w i dx cx => rawFlip 0 (locA s.toNat w.toNat i.toNat) dx cx m
  | .tagBits s w x => rawFlip 1 (locA s.toNat w.toNat 0) (x.zeroExtend 64) 0 m
  | .setState s tree =>
    let m := if tree then putSetSt s.toNat { setStOf m s.toNat with plru := 0 } m else m
    logErr fx 0x06 0 (locA s.toNat 0 0) m
  | .dirEntry s w dx cx => rawFlip 2 (s.toNat * 16 + w.toNat) (dx.zeroExtend 64) cx m
  | .accByte l b dx cx => rawFlip 3 (b.toNat * 2 ^ 16 + l.toNat) (dx.zeroExtend 64) (cx.zeroExtend 8) m
  | .syncByte i b dx cx => rawFlip 4 (b.toNat * 2 ^ 16 + i.toNat) (dx.zeroExtend 64) (cx.zeroExtend 8) m
  | .slipWord i w dx cx => slipUpset fx i w dx cx m
  | .record k i => loseRecord fx k.toNat i.toNat m
  | .copy k i => logErr fx 0x28 0 (locO k.toNat i.toNat) m
  | .keyReg k g => keyParity fx k g m
  | .lookup header g =>
    let w := g.toNat / 64
    let h := (tget [] m.sparse.hcache (g.toNat % 128)).filter (·.1 ≠ g.toNat)
    let f := (tget [] m.sparse.fcache (w % 256)).filter (·.1 ≠ w)
    let s := if header then { m.sparse with hcache := tset [] m.sparse.hcache (g.toNat % 128) h }
      else { m.sparse with fcache := tset [] m.sparse.fcache (w % 256) f }
    let m := { m with sparse := s }
    logErr fx 0x2D 0 (g.toNat * 4096) m
  | .fatal u => goFatal (logErr fx 0x3F 0 (locO 15 u.toNat) m)

/-- The scrubber's look at one line (15 R407, 11 Table COH-6). -/
def scrubLine (fx : Fixed) (set way : Nat) (m : Mach) : Mach :=
  let t := tagAt m set way
  if t.v = 0 then m
  else if (setStOf m set).pin.getLsbD way then
    (match berthAt m set way with
     | some (i, off) =>
       let (m, re) := scanBerth fx set way 0xF i off m
       if re then startReload fx set way i off m else m
     | none => m)
  else if hostHeld m (lineOf set t.tag) then m
  else
    let (m, r) := scanWay fx set way 0xF m
    if r = .refetch then refetchLine (lineOf set t.tag) m else m

/-- The scrubbers run: the slice has started, its domains are powered, and no fence has put it away. -/
def scrubsRun (m : Mach) : Bool :=
  m.life.running && !m.life.domainsOff && !(m.life.st = .off || m.life.st = .init || m.life.st = .selftest || m.life.st = .fenced)

/-- One step of the array scrub (15 R407) and the disturbance that comes with it, which takes place whatever the rate; at rate 0 nothing
is scrubbed (log 73). -/
def scrubStep (fx : Fixed) (u : Option Upset) (m : Mach) : Mach :=
  if !scrubsRun m then m else
  let m := match u with | some u => disturb fx u m | none => m
  if m.err.rate = 0 then m else
  let pos := m.err.scrubPos
  let set := pos / 32
  let way := pos % 32
  let m := if domReady m (dTag (set % 4)) then scanTag fx set way m else m
  let m := if domReady m (dTag (set % 4)) && domReady m (dWay m set way) then scrubLine fx set way m else m
  let m := (List.range 4).foldl (fun m j =>
    let k := pos * 4 + j
    if domReady m (dDir (k / 16 % 4)) then scanDirEnt fx k m else m) m
  let m := if pos % 4 = 0 && domReady m (dAcc (pos / 4 / 16384)) then scanAcc fx (pos / 4) m else m
  let i : BitVec 14 := BitVec.ofNat 14 (pos / 8)
  let m := if pos % 8 = 0 && domReady m dSync && (syncObj m i).valid then scanSync fx i m else m
  { m with err := { m.err with scrubPos := (pos + 1) % 131072 } }

/-! ### Memory scrub and rotation sweep -/

/-- Runs of the memory scrub's range. -/
def scrubRuns (fx : Fixed) (m : Mach) : List (Nat × Nat) := rangeRuns fx m m.err.mstart (m.err.mlines * 128)

/-- How a line of memory is stored (09 R265). -/
inductive Stored where
  /-- A line of a dense page. -/
  | dense (m : Mach)
  /-- A header or a packed line in use, with its FORMAT. -/
  | packed (fmt : BitVec 2) (m : Mach)
  /-- A line of a sparse page past its packed lines: nobody reads it. -/
  | unused (m : Mach)
  /-- What tells it has to be read first. -/
  | wait (m : Mach)

/-- The form of a line by the format map and its page's header. Of a page whose header is poisoned no packed line is in use. -/
def storedForm (fx : Fixed) (l : LineNo) (m : Mach) : Stored :=
  let (m, ok) := mapReady fx (granOf l) m
  if !ok then .wait m else
  match fmapLook fx (granOf l) m with
  | .fetch w => .wait (fetchMap fx w m)
  | .dense m => .dense m
  | .sparse m =>
    if l.toNat % 32 = 0 then .packed 2 m
    else match hcacheGet m (granOf l) with
      | some h => if !h.poison && decide (l.toNat % 32 ≤ (h.count + 3) / 4) then .packed 1 m else .unused m
      | none => .wait (readHeader fx l m)

/-- The page of a line is being packed or unpacked. -/
def pageLocked (m : Mach) (l : LineNo) : Bool := m.sparse.locked = some (BitVec.ofNat 23 (granOf l))

/-- The map word of a line can be had without a thaw, which a scrub step never asks for (15 R407). -/
def mapAwake (fx : Fixed) (l : LineNo) (m : Mach) : Bool :=
  let k := mapLine fx (granOf l)
  let w := granOf l / 64
  !fmapOn fx || (lruFind w (tget [] m.sparse.fcache (w % 256))).isSome ||
    (domReady m (dTag (quadOf k)) && (match hitWay m k with | some way => domReady m (dWay m (setOf k) way) | none => true))

/-- One line of the memory scrub (15 R410). -/
def memScrubStep (fx : Fixed) (m : Mach) : Mach :=
  if !scrubsRun m || m.err.mrate = 0 || decide (m.err.mlines ≤ m.err.mpos) then m else
  let pass := fun (m : Mach) =>
    let m := { m with err := { m.err with mpos := m.err.mpos + 1 } }
    if m.err.mpos < m.err.mlines then m
    else post fx 0x0E m.err.mstart (if m.err.mrepeat then { m with err := { m.err with mpos := 0 } } else m)
  match runsAt (scrubRuns fx m) m.err.mpos with
  | none => pass m
  | some l =>
    let ask := fun (f : BitVec 2) (m : Mach) =>
      if (ticketFor m l).isSome || m.cache.writes.any (·.line = l) || decide (ticketsFree m ≤ 8 * m.regs.pfReserve.toNat) then m
      else match newTicket fx l (.memScrub f) m.regs.maintTc 0 false none (rangeAt fx m l) [] m with
        | some m => pass m
        | none => m
    if pageLocked m l || !mapAwake fx l m then m else
    match storedForm fx l (if domReady m (dTag (quadOf l)) then scanSet fx (setOf l) m else m) with
    | .wait m => m
    | .unused m => pass m
    | .packed f m => ask f m
    | .dense m => if (hitWay m l).isSome then pass m else ask 0 m

/-- A line written to memory under the generation CUR holds, in its stored format (14 Table CONF-6). -/
def rewriteLine (fx : Fixed) (t : Ticket) (d : Line) (z : BitVec 4) (fmt : BitVec 2) (poison : Bool) (m : Mach) : Mach :=
  let w : PWrite :=
    { line := t.line, data := d, zero := z, fmt, keyv := t.range.isSome, keyslot := (t.range.map (·.keyslot)).getD 0, poison, cls := t.cls,
      slip := false, issued := false, index := 0, seq := 0, rewritten := false, after := .none, also := [] }
  (queueWrite fx w m).getD m

/-- A line of a sparse page fails all its reads under the memory scrub (15 R397). -/
def scrubSparse (fx : Fixed) (t : Ticket) (d : Line) (m : Mach) : Mach :=
  if t.line.toNat % 32 = 0 then finishHeader fx { t with kind := .header } ⟨0, 0, true⟩ true m
  else finishPacked fx ⟨{ t with kind := .packed }, d, false, true⟩ true m

/-- A read of a rotation sweep. -/
def isRotRead (k : TKind) : Bool := match k with | .sweep _ => true | _ => false

/-- A read of the memory scrub or of a rotation sweep fails its check (15 R395, R397; 14 Table CONF-6). -/
def sweepFails (fx : Fixed) (t : Ticket) (x : Line) (m : Mach) : Mach :=
  let fmt := ticketFmt t.kind
  let m := count 0x020 m
  if t.attempts < 3 then reissue fx t m
  else if fmt ≠ 0 && !isRotRead t.kind then scrubSparse fx t x m
  else rewriteLine fx t x 0 fmt true (logErr fx (if fmt ≠ 0 then 0x22 else 0x21) t.attempts (locM t.line) (dropTicket t.num m))

/-- A read of the memory scrub or of a rotation sweep comes back (14 Table CONF-6; 15 R410; 09 R266): to a sweep, a line whose metadata
name the new generation is nothing. -/
def sweepReturn (fx : Fixed) (t : Ticket) (d : Line) (md : Meta) (ue : Bool) (m : Mach) : Mach :=
  let fmt := ticketFmt t.kind
  let rot := isRotRead t.kind
  let cur := match t.range with | some r => (kslot m r.keyslot).cur | none => false
  if rot && bit (md.extractLsb' 64 64) 9 == cur then dropTicket t.num m
  else if !writeRoom m then pump fx (setTicket { t with issued := false } m)
  else match checkLine fx m t.range t.line d md ue fmt with
    | .erased =>
      if t.range.any (fun r => keyReloads m r.keyslot) then pump fx (setTicket { t with issued := false } m)
      else
        let m := if rot then m else { m with err := { m.err with skipped := m.err.skipped + 1 } }
        dropTicket t.num m
    | .good x z f _ p =>
      if fmt = 2 && !p && (headerOf x).isNone then sweepFails fx t x m
      else
        let m := dropTicket t.num m
        let m := if t.attempts > 1 then logErr fx 0x20 t.attempts (locM t.line) m else m
        if rot then rewriteLine fx t x z f p m else m
    | .mismatch x => sweepFails fx t x m

/-- A read of the port comes back, of whatever kind. -/
def memReturn (fx : Fixed) (t : Ticket) (d : Line) (md : Meta) (ue : Bool) (m : Mach) : Mach :=
  match t.kind with
  | .sweep _ => sweepReturn fx t d md ue m
  | .memScrub _ => sweepReturn fx t d md ue m
  | .raw id => report (.raw id d md) (dropTicket t.num m)
  | _ => portReturn fx t d md ue m

/-- The next line of some runs taken off. -/
def nextRun : List (Nat × Nat) → Option (LineNo × List (Nat × Nat))
  | [] => none
  | (a, n) :: t => if n = 0 then nextRun t else some (BitVec.ofNat 28 a, if n = 1 then t else (a + 1, n - 1) :: t)

/-- A valid line of a sweep: written under the new generation when it is Dirty or its generation is old. -/
def sweepHit (fx : Fixed) (who set way : Nat) (m : Mach) : Mach × Bool :=
  let t := tagAt m set way
  let cur := (kslot m t.keyslot).cur
  if t.d = 0 && t.kgen == cur then (m, true)
  else if way ∈ fillingWays m set then (m, false)
  else
    let (m, ok) := if bankless t then (m, true) else waitDom who (dWay m set way) m
    if !ok then (m, false)
    else
      let m := (scanWay fx set way 0xF m).1
      let t := tagAt m set way
      if t.v ≠ 0xF ∧ !t.poison then (fillVictim fx set way m.regs.maintTc m, false)
      else if slipUsed m ≥ 128 then (m, false)
      else match queueWrite fx (writeOfWay m set way true .slip []) (setTag set way { t with d := 0, kgen := cur } m) with
        | some m => (m, true)
        | none => (m, false)

/-- One line of a sweep: passed, as a line of the format map is, which lies under no key (09 R267), or to be tried again (14 Table CONF-6). -/
def sweepLine (fx : Fixed) (who : Nat) (l : LineNo) (snooped : Bool) (m : Mach) : Mach × Bool × Bool :=
  if inMap fx l then (m, true, false) else
  let (m, ok) := waitDoms who [dTag (quadOf l), dDir (quadOf l)] m
  if !ok then (m, false, snooped) else
  match dirGate fx l false snooped false [false, true] (scanDir fx l m) with
  | .sent m => (m, false, true)
  | .wait m => (m, false, snooped)
  | .hung => (m, false, snooped)
  | .go m =>
    let ask := fun (f : BitVec 2) (m : Mach) =>
      if (ticketFor m l).isSome || m.cache.writes.any (·.line = l) || m.sparse.fills.any (·.line = l) then (m, false, snooped)
      else match newTicket fx l (.sweep f) m.regs.maintTc 0 false none (rangeOf m l) [] m with
        | some m => (m, true, false)
        | none => (m, false, snooped)
    if pageLocked m l then (m, false, snooped) else
    match storedForm fx l (scanSet fx (setOf l) m) with
    | .wait m => (m, false, snooped)
    | .unused m => (m, true, false)
    | .packed f m => ask f m
    | .dense m =>
      match hitWay m l with
      | some way =>
        let (m, ok) := sweepHit fx who (setOf l) way m
        (m, ok, !ok && snooped)
      | none => ask 0 m

/-- One step of the rotation sweeps: the next line of the sweep that has waited longest (log 28). -/
def rotStep (fx : Fixed) (m : Mach) : Mach :=
  match m.keys.rots with
  | [] => m
  | r :: rest =>
    if !scrubsRun m then m else
    match nextRun r.runs with
    | none => { m with keys := { m.keys with rots := rest ++ [r] } }
    | some (l, runs) =>
      let (m, ok, sn) := sweepLine fx (whoRot r.slot.toNat) l r.snooped { m with keys := { m.keys with rots := rest } }
      { m with keys := { m.keys with rots := m.keys.rots ++ [if ok then { r with runs, snooped := false } else { r with snooped := sn }] } }

/-- A sweep all of whose lines are passed ends (14 R373). -/
def endRots (fx : Fixed) (m : Mach) : Mach :=
  (m.keys.rots.filter fun r => (nextRun r.runs).isNone).foldl (fun m r =>
    let out := m.cache.tickets.any fun t => isRotRead t.kind && t.range.any fun k => k.keyslot = r.slot
    if out then m
    else post fx 0x0B (r.slot.zeroExtend 64) (stopRot r.slot m)) m

/-! ### ERRLOG_READ and SCRUB_RATE -/

/-- SEQ of the oldest entry held. -/
def oldSeq (m : Mach) : Nat := (m.err.next.toNat + 65536 - m.err.log.length) % 65536

/-- The place in the log at which reading from a SEQ begins (15 R406). -/
def logStart (m : Mach) (start : Nat) : Option Nat :=
  let h := m.err.log.length
  let off := (start + 65536 - oldSeq m) % 65536
  let back := (oldSeq m + 65536 - start) % 65536
  if off < h then some off else if h ≠ 0 ∧ 1 ≤ back ∧ back ≤ 32768 then some 0 else none

/-- Entries up to a SEQ freed (CONSUME). -/
def eatLog (last : BitVec 16) (m : Mach) : Mach :=
  let n := (last.toNat + 65536 - oldSeq m) % 65536 + 1
  let log := if n ≤ m.err.log.length then m.err.log.drop n else m.err.log
  { m with err := { m.err with log := log, overwritten := if log.isEmpty then 0 else m.err.overwritten } }

/-- RES2 of ERRLOG_READ. -/
def seqWord (m : Mach) : W64 := BitVec.ofNat 64 (oldSeq m * 2 ^ 16 + m.err.next.toNat)

/-- The 16-byte writes of entries from an address. -/
def logWrites (fx : Fixed) (m : Mach) (id : Nat) (dest : W64) : Nat → List (W64 × W64) → List Access
  | _, [] => []
  | i, e :: t =>
    let a := dest + BitVec.ofNat 64 (16 * i)
    let off := fld a 6 0
    (match lineAt fx m a with
     | some l =>
       [{ ownWrite (.cmd id) .writeThru l (spanMask off 16) (BitVec.ofNat 1024 ((e.2.toNat * 2 ^ 64 + e.1.toNat) * 2 ^ (8 * off))) with
          sect := oneSect (BitVec.ofNat 2 (off / 32)) }]
     | none => []) ++ logWrites fx m id dest (i + 1) t

/-- ERRLOG_READ completes. -/
def endErrlog (fx : Fixed) (c : Rec) (res0 res1 : W64) (eat : Option (BitVec 16)) (m : Mach) : Mach :=
  let m := match eat with | some s => eatLog s m | none => m
  complete fx c csDone [res0, res1, seqWord m] m

/-- ERRLOG_READ takes the acknowledgements of its writes. -/
def pumpErrlog (fx : Fixed) (c : Rec) (left n : Nat) (eat : Option (BitVec 16)) (m : Mach) : Mach :=
  let is := fun (d : Done) => match d with | .write (.cmd i) _ => decide (i = c.id) | .fail (.cmd i) _ _ => decide (i = c.id) | _ => false
  let got := (m.cache.done.filter is).length
  let m := { m with cache := { m.cache with done := m.cache.done.filter (!is ·) } }
  if left ≤ got then endErrlog fx c (BitVec.ofNat 64 n) 0 eat m else setProg c.id (.errlog (left - got) n eat) m

/-- ERRLOG_READ (15 R406). -/
def cmdErrlogRead (fx : Fixed) (c : Rec) (sparse : Bool) (m : Mach) : Mach :=
  let cnt := fld c.pkt.p0 26 16
  let dest := c.pkt.p1
  let bytes := cnt * 16
  let homed := rangeHomed fx m dest bytes
  let rs := rangeRuns fx m dest bytes
  let ents := match logStart m (fld c.pkt.p0 15 0) with | some i => (m.err.log.drop i).take cnt | none => []
  let eat : Option (BitVec 16) := if cFlag c 0 then ents.getLast?.map fun e => BitVec.ofNat 16 (fld e.1 47 32) else none
  if cnt = 0 ∨ cnt > 1024 then complete fx c csBadParam [] m
  else if cnt = 1 then
    (match ents with
     | e :: _ => endErrlog fx c e.1 e.2 eat m
     | [] => endErrlog fx c 0 0 none m)
  else if fld dest 3 0 ≠ 0 ∨ (homed ∧ !runsAll (fun l => (rangeOf m l).isNone) rs) ∨ mapMeets fx rs then complete fx c csBadParam [] m
  else if !homed then complete fx c csMishomed [] m
  else if sparse then complete fx c csSparse [] m
  else
    let as_ := logWrites fx m c.id dest 0 ents
    let m := as_.foldl (fun m a => doOwn fx a m) (runOn c (.errlog as_.length ents.length eat) m)
    pumpErrlog fx c as_.length ents.length eat m

/-- SCRUB_RATE (15 R409). -/
def cmdScrubRate (fx : Fixed) (c : Rec) (m : Mach) : Mach :=
  let e := m.err
  let n := c.pkt.p3.toNat
  let four := decide (cLen c = 4)
  let res := [BitVec.ofNat 64 (e.mrate.toNat * 2 ^ 16 + e.rate.toNat), BitVec.ofNat 64 (e.mlines - e.mpos)]
  let bad := four && (decide (fld c.pkt.p2 6 0 ≠ 0) || decide (n % 128 ≠ 0) || decide (n < 128) || decide (n > 2 ^ 35))
  if bad then complete fx c csBadParam [] m
  else if four && !rangeHomed fx m c.pkt.p2 n then complete fx c csMishomed [] m
  else if four && mapMeets fx (rangeRuns fx m c.pkt.p2 n) then complete fx c csBadParam [] m
  else
    let e := { e with rate := BitVec.ofNat 16 (fld c.pkt.p0 15 0) }
    let e := if four then { e with mrate := BitVec.ofNat 16 (fld c.pkt.p1 15 0), mrepeat := bit c.pkt.p1 16, mstart := c.pkt.p2,
                                   mlines := n / 128, mpos := 0 } else e
    complete fx c csDone res { m with err := e }

/-! ### INJECT and POISON_CLEAR -/

/-- INJECT on a memory line carried on (15 R411). -/
def pumpInject (fx : Fixed) (c : Rec) (l : LineNo) (flip : Option (W64 × W64)) (asked : Bool) (m : Mach) : Mach :=
  if asked then
    match m.cache.done.findSome? (fun d => match d with | .raw i x md => if i = c.id then some (x, md) else none | _ => none) with
    | none => m
    | some (x, md) =>
      if flip.isSome && !writeRoom m then m
      else
        let m := { m with cache := { m.cache with done := m.cache.done.filter fun d => match d with | .raw i _ _ => i ≠ c.id | _ => true } }
        let chk : W64 := md.extractLsb' 0 64
        let w : W64 := md.extractLsb' 64 64
        let m := match flip with
          | none => m
          | some (dx, cx) =>
            let md' : Meta := BitVec.ofNat 128 ((w ^^^ cx).toNat * 2 ^ 64 + (chk ^^^ dx).toNat)
            let p : PWrite :=
              { line := l, data := x, zero := 0, fmt := 0, keyv := false, keyslot := 0, poison := false, cls := m.regs.maintTc,
                slip := false, issued := false, index := 0, seq := 0, rewritten := false, after := .none, also := [], raw := some (x, md') }
            (queueWrite fx p m).getD m
        complete fx c csDone [chk, w] m
  else if (ticketFor m l).isSome || m.cache.writes.any (·.line = l) || m.sparse.fills.any (·.line = l) then m
  else
    let (m, ok) := waitDoms c.id [dTag (quadOf l)] m
    if !ok then m else
    let m := scanSet fx (setOf l) m
    let ask := fun (m : Mach) => match newTicket fx l (.raw c.id) m.regs.maintTc 0 false none (rangeAt fx m l) [] m with
      | some m => setProg c.id (.inject l flip true) m
      | none => m
    match hitWay m l, flip with
    | some way, some _ =>
      let set := setOf l
      let (m, ok) := if bankless (tagAt m set way) then (m, true) else waitDom c.id (dWay m set way) m
      if !ok || way ∈ fillingWays m set then m
      else if (tagAt m set way).d = 0 then ask (dropWay set way m)
      else (match freeWay fx set way [] m with
        | .now m => m
        | .fill => fillVictim fx set way m.regs.maintTc m
        | .full => m)
    | _, _ => ask m

/-- INJECT (15 R411). -/
def cmdInject (fx : Fixed) (c : Rec) (m : Mach) : Mach :=
  let mode := b2n (cFlag c 0) + 2 * b2n (cFlag c 1)
  let arr := fld c.pkt.p0 7 0
  let loc := fld c.pkt.p0 63 8
  if confPresent m then complete fx c csDenied [] m
  else if mode = 3 ∨ arr > 5 then complete fx c csBadParam [] m
  else if arr = 5 then
    (if mode = 1 ∨ loc ≥ 2 ^ 35 ∨ loc % 128 ≠ 0 ∨ !m.regs.lv then complete fx c csBadParam [] m
     else
       let l : LineNo := BitVec.ofNat 28 (loc / 128)
       let f := if mode = 2 then some (c.pkt.p1, c.pkt.p2) else none
       pumpInject fx c l f false (runOn c (.inject l f false) m))
  else match rawGet m arr loc with
    | none => complete fx c csBadParam [] m
    | some (d, k) =>
      let x := match mode with
        | 0 => ((0 : W64), (0 : BitVec 8))
        | 1 => (d ^^^ c.pkt.p1, k ^^^ c.pkt.p2.extractLsb' 0 8)
        | _ => (c.pkt.p1, c.pkt.p2.extractLsb' 0 8)
      complete fx c csDone [d, k.zeroExtend 64] (rawFlip arr loc x.1 x.2 m)

/-- POISON_CLEAR of a memory line carried on (15 R412). -/
def pumpClear (fx : Fixed) (c : Rec) (l : LineNo) (was filled bad : Bool) (m : Mach) : Mach :=
  let set := setOf l
  if (ticketFor m l).isSome || m.sparse.fills.any (·.line = l) then m
  else
    let (m, ok) := waitDoms c.id [dTag (quadOf l)] m
    if !ok then m else
    let m := scanSet fx set m
    match hitWay m l with
    | some way =>
      let t := tagAt m set way
      if !filled && !t.poison then complete fx c csDone [0] m
      else
        let (m, ok) := waitDom c.id (dWay m set way) m
        if !ok || way ∈ fillingWays m set then m
        else if t.v ≠ 0xF then fillVictim fx set way m.regs.maintTc (setProg c.id (.poison l (was || t.poison) true bad) m)
        else
          let res := if bad then 2 else b2n (was || t.poison)
          complete fx c csDone [BitVec.ofNat 64 res] (markRewritten l (setTag set way { t with poison := false, d := 0xF } m))
    | none =>
      if m.cache.writes.any (·.line = l) then m
      else
        let (m, way) := getWay fx m.regs.retain true set m
        match way with
        | none => m
        | some w => match newTicket fx l (.fill (BitVec.ofNat 5 w)) m.regs.maintTc 0 false none (rangeAt fx m l) [] m with
          | some m => setProg c.id (.poison l was true bad) m
          | none => m

/-- POISON_CLEAR of a berth line. -/
def clearBerth (fx : Fixed) (c : Rec) (m : Mach) : Mach :=
  let a := c.pkt.p0
  let b := berthOf m (bIdx a)
  if !berthHome fx m a then complete fx c csMishomed [] m
  else if fld a 6 0 ≠ 0 then complete fx c csBadParam [] m
  else if lostObj m 1 (bIdx a) then complete fx c csDenied [] m
  else if !b.valid || b.gen ≠ bGen a then complete fx c csStale [] m
  else if (b.size.toNat + 1) * 4096 ≤ bOff a then complete fx c csBadParam [] m
  else
    let p := berthPlace m b (bOff a)
    let t := tagAt m p.1 p.2
    if t.poison then complete fx c csDone [1] (setTag p.1 p.2 { t with poison := false } m) else complete fx c csDone [0] m

/-- POISON_CLEAR (15 R412). -/
def cmdPoisonClear (fx : Fixed) (c : Rec) (sparse : Bool) (m : Mach) : Mach :=
  if cFlag c 0 then clearBerth fx c m
  else if fld c.pkt.p0 6 0 ≠ 0 then complete fx c csBadParam [] m
  else match lineAt fx m c.pkt.p0 with
    | none => complete fx c csMishomed [] m
    | some l =>
      if sparse then complete fx c csSparse [] m
      else if (rangeOf m l).any (fun r => (kslot m r.keyslot).conf) then complete fx c csDenied [] m
      else pumpClear fx c l false false false (runOn c (.poison l false false false) m)

end Sys2Proof.Machine
end

