-- ==== Sys2Proof/Machine/Counters.lean ====
section
/-! DEFINITION. Performance counters, dumps, permits and debug access (18_counters_and_debug.md; 14 R386 to R389; 05 R162). -/

namespace Sys2Proof.Machine

/-! ### Values that leave the slice -/

/-- The counts as they stand: FIX0 to 7, PMC0 to 15, and of each class QOS_LAT, QOS_RD, QOS_WR and QOS_DLM. -/
def liveSnap (m : Mach) : Snap :=
  { fixed := (List.range 8).map (tget 0 m.pmc.fixed ·), prog := (List.range 16).map (tget 0 m.pmc.cnt ·),
    qos := (List.range 16).flatMap fun i => let c := clsOf m i; [c.avg.zeroExtend 48, c.rd, c.wr, c.dlm] }

/-- The counts at the latest latch; where none has been made the manual gives no value (log 29). -/
def latched (m : Mach) : Snap :=
  if m.pmc.snap.fixed = [] then
    let v := fun (i : Nat) => (Config.freeWord (2 ^ 64 + i)).extractLsb' 0 48
    { fixed := (List.range 8).map v, prog := (List.range 16).map fun i => v (8 + i), qos := (List.range 64).map fun i => v (24 + i) }
  else m.pmc.snap

/-- Counts rounded down to multiples of 4,096. -/
def coarseSnap (s : Snap) : Snap := { fixed := s.fixed.map coarse, prog := s.prog.map coarse, qos := s.qos.map coarse }

/-- The counts that a register read shows (14 R386, 19 R471). -/
def shown (m : Mach) : Snap := if confPresent m then coarseSnap (latched m) else liveSnap m

/-- PMC_CONFIG's setting is not allowed (18 R454). -/
def pmcBad (w : W64) : Bool :=
  let ev := fld w 43 34
  !evAssigned ev || (bit w 62 && !evFilter ev) || bit w 60 || decide (fld w 33 14 ≠ 0)

/-- PMC_CONFIG (18 R454). -/
def cmdPmcConfig (fx : Fixed) (c : Rec) (m : Mach) : Mach :=
  let n := fld c.pkt.p1 3 0
  if pmcBad c.pkt.p0 then complete fx c csBadParam [] m
  else
    let old := tget 0 m.pmc.ctl n
    let was := (shown m).prog.getD n 0
    let p := m.pmc
    let p := { p with ctl := tset 0 p.ctl n c.pkt.p0 }
    let p := if cFlag c 0 then { p with cnt := tset 0 p.cnt n 0 } else p
    let p := if cFlag c 1 then { p with fixed := [] } else p
    complete fx c csDone [old, was.zeroExtend 64] { m with pmc := p }

/-! ### Dump records -/

/-- Words of a record (18 Table PMC-4); `late` says that its snapshot was deferred (R460). -/
def recordWords (fx : Fixed) (m : Mach) (missed : Nat) (isCoarse late : Bool) (s : Snap) : List W64 :=
  [BitVec.ofNat 64 (fx.procId.toNat * 2 ^ 48 + fx.siteId.toNat * 2 ^ 40 + m.pmc.seq.toNat),
   BitVec.ofNat 64 (m.cyc % 2 ^ 48 * 2 ^ 16 + sat 255 missed * 2 ^ 8 + b2n isCoarse * 4 + b2n late * 2)] ++
  s.fixed.map (·.zeroExtend 64) ++ s.prog.map (·.zeroExtend 64) ++ List.replicate 6 0

/-- A record's two lines written through to memory; a line that is no longer homed here is refused (19 R475). -/
def sendRecord (fx : Fixed) (s : Src) (a : W64) (ws : List W64) (m : Mach) : Mach :=
  [0, 1].foldl (fun m j =>
    match lineAt fx m (a + BitVec.ofNat 64 (128 * j)) with
    | some l => doOwn fx (ownWrite s .writeThru l (BitVec.allOnes 128) (lineOfWords (ws.drop (16 * j)))) m
    | none => report (.fail s 0 stMishomed) m) m

/-- The context is the only confidential one (14 R386). -/
def onlyConf (m : Mach) (c : Ctx) : Bool :=
  m.ctxs.all fun x => !(x.2.opened && x.2.conf) || decide (x.1 = c.toNat)

/-- The record that a permitted context sees: exact while no confidential context is present, or it alone is one. -/
def viewRecord (fx : Fixed) (m : Mach) (missed : Nat) (late : Bool) (c : Ctx) : List W64 :=
  if !confPresent m || onlyConf m c then recordWords fx m missed false late (liveSnap m)
  else recordWords fx m missed true late (coarseSnap (latched m))

/-- Records for every permit (18 R461). -/
def sendViews (fx : Fixed) (missed : Nat) (late : Bool) (m : Mach) : Mach :=
  m.pmc.permits.foldl (fun m p => sendRecord fx (.view p.ctx) p.view (viewRecord fx m missed late p.ctx) m) m

/-- The counts latched (14 R386, 18 R459). -/
def latch (m : Mach) : Mach := { m with pmc := { m.pmc with snap := liveSnap m } }

/-- A dump's snapshot (18 R459): the counts are latched, and the record is written, or missed when the ring is full or a write of the
record before it is unacknowledged. -/
def takeDump (fx : Fixed) (late : Bool) (m : Mach) : Mach :=
  let m := latch m
  let full := decide ((m.pmc.wr - m.pmc.rd).toNat = 2 ^ m.pmc.size.toNat) || decide (m.pmc.left ≠ 0)
  let missed := m.pmc.missed
  let conf := confPresent m
  let ws := recordWords fx m missed conf late (if conf then coarseSnap (latched m) else liveSnap m)
  let at_ := m.pmc.base + BitVec.ofNat 64 (256 * (m.pmc.wr.toNat % 2 ^ m.pmc.size.toNat))
  let m := sendViews fx missed late m
  if full then { m with pmc := { m.pmc with seq := m.pmc.seq + 1, missed := missed + 1 } }
  else sendRecord fx .dump at_ ws { m with pmc := { m.pmc with seq := m.pmc.seq + 1, missed := 0, left := 2 } }

/-- SCRUB_CONTEXT runs: it has started, and waits for a domain (18 R460). -/
def scrubRunning (m : Mach) : Bool := m.cmds.running.any fun r => r.cmd.opcode = 0x86

/-- DUMP_DUE (18 R459, R460): a dump that falls due while SCRUB_CONTEXT runs is deferred. -/
def dumpDue (fx : Fixed) (m : Mach) : Mach :=
  if m.pmc.interval = 0 ∨ m.cyc < m.pmc.nextDue then m
  else
    let m := { m with pmc := { m.pmc with nextDue := m.pmc.nextDue + m.pmc.interval.toNat * 1024 } }
    if scrubRunning m then { m with lateDumps := m.lateDumps + 1 } else takeDump fx false m

/-- SCRUB_CONTEXT has completed: one snapshot of those deferred is taken, and the others are missed (18 R460). -/
def pumpDeferred (fx : Fixed) (m : Mach) : Mach :=
  if m.lateDumps = 0 || scrubRunning m then m
  else
    let n := m.lateDumps - 1
    takeDump fx true { m with lateDumps := 0, pmc := { m.pmc with missed := m.pmc.missed + n, seq := m.pmc.seq + BitVec.ofNat 32 n } }

/-- Dumps stop after a write answered with a status other than OK (18 R459); the SEQ named is that of the refused record. -/
def stopDumps (fx : Fixed) (m : Mach) : Mach :=
  let m := dropOwn (· = .dump) m
  let sq := m.pmc.seq - 1 - BitVec.ofNat 32 m.pmc.missed
  post fx 0x0F (sq.zeroExtend 64)
    { m with pmc := { m.pmc with interval := 0, dumpErr := true, left := 0, nextDue := m.cyc + 67108864 } }

/-- A line of a record has been answered: after both, PMC_WR advances (18 R459). -/
def dumpDone (fx : Fixed) (d : Done) (m : Mach) : Mach :=
  match d with
  | .fail _ _ _ => if m.pmc.left = 0 then m else stopDumps fx m
  | _ =>
    if m.pmc.left = 0 then m
    else if m.pmc.left = 1 then { m with pmc := { m.pmc with left := 0, wr := m.pmc.wr + 1 } }
    else { m with pmc := { m.pmc with left := m.pmc.left - 1 } }

/-- A context's permit ends (18 R461). -/
def endPermit (c : Ctx) (m : Mach) : Mach :=
  dropOwn (· = .view c) { m with pmc := { m.pmc with permits := m.pmc.permits.filter (·.ctx ≠ c) } }

/-- A write to VIEW has been answered. -/
def viewDone (d : Done) (m : Mach) : Mach :=
  match d with | .fail (.view c) _ _ => endPermit c m | _ => m

/-- Answers to dump and view writes taken in. -/
def pumpRecords (fx : Fixed) : Nat → Mach → Mach
  | 0, m => m
  | n + 1, m =>
    match takeDone (fun s => match s with | .dump => true | .view _ => true | _ => false) m with
    | (m, some d) =>
      (match d with
       | .read s _ _ _ | .write s _ | .fail s _ _ =>
         pumpRecords fx n (if s = .dump then dumpDone fx d m else viewDone d m)
       | _ => pumpRecords fx n m)
    | (m, none) => m

/-- VIEW_RECORD_WRITE (18 R461): while INTERVAL is 0, at a tick. -/
def viewTick (fx : Fixed) (m : Mach) : Mach :=
  if m.pmc.interval = 0 then sendViews fx m.pmc.missed false m else m

/-- CONFIDENTIAL_LATCH (14 R386): with no dump interval set, each 67,108,864 control cycles. -/
def confLatch (m : Mach) : Mach :=
  if confPresent m ∧ m.pmc.interval = 0 ∧ m.pmc.nextDue ≤ m.cyc then
    latch { m with pmc := { m.pmc with nextDue := m.pmc.nextDue + 67108864 } }
  else m

/-- PMC_DUMP_SET (18 R457); `sparse` says that the ring touches a sparse page. -/
def cmdPmcDumpSet (fx : Fixed) (c : Rec) (sparse : Bool) (m : Mach) : Mach :=
  let base := c.pkt.p0
  let size := fld c.pkt.p1 4 0
  let n := 256 * 2 ^ size
  let rs := rangeRuns fx m base n
  let homed := rangeHomed fx m base n
  if size < 4 ∨ size > 16 ∨ base.toNat % n ≠ 0 then complete fx c csBadParam [] m
  else if !runsAll (fun l => (rangeOf m l).isNone) rs || mapMeets fx rs then complete fx c csBadParam [] m
  else if !homed then complete fx c csMishomed [] m
  else if sparse then complete fx c csSparse [] m
  else
    let iv := fld c.pkt.p1 63 40
    let old := m.pmc.base
    complete fx c csDone [old, m.pmc.seq.zeroExtend 64]
      { m with pmc := { m.pmc with
          base := base, size := BitVec.ofNat 5 size, interval := BitVec.ofNat 24 iv, wr := 0, rd := 0,
          nextDue := if iv = 0 then m.cyc + 67108864 else m.cyc + iv * 1024 } }

/-- PMC_PERMIT (18 R461); `sparse` says that VIEW lies in a sparse page. -/
def cmdPmcPermit (fx : Fixed) (c : Rec) (sparse : Bool) (m : Mach) : Mach :=
  let view := c.pkt.p0
  let ctx := cCtx c
  let held := fun (m : Mach) => BitVec.ofNat 64 m.pmc.permits.length
  if view.toNat % 256 ≠ 0 then complete fx c csBadParam [] m
  else if cFlag c 0 then
    let m := endPermit ctx m
    complete fx c csDone [held m] m
  else
    let rs := rangeRuns fx m view 256
    let has := m.pmc.permits.any fun p => p.ctx = ctx
    if mapMeets fx rs then complete fx c csBadParam [] m
    else if !has && decide (16 ≤ m.pmc.permits.length) then complete fx c csNoSpace [] m
    else if !rangeHomed fx m view 256 then complete fx c csMishomed [] m
    else if !ctxReach m ctx true rs || !confDest m ctx false rs then complete fx c csDenied [] m
    else if sparse then complete fx c csSparse [] m
    else
      let p : Permit := ⟨ctx, cGen c, view⟩
      let m := { m with pmc := { m.pmc with permits := m.pmc.permits.filter (·.ctx ≠ ctx) ++ [p] } }
      complete fx c csDone [held m] m

/-! ### Telemetry windows -/

/-- PM_TLM_WINDOW_END (14 R388): the mean of a window's readings rounded to the nearest multiple of 8, halves up; a mean that
rounds past the pins' twelve bits has no stated value. -/
def pmTlmWindow (sum n : Nat) (m : Mach) : Mach :=
  if !confPresent m || n = 0 then m
  else
    let v := (sum + 4 * n) / (8 * n) * 8
    if v < 4096 then { m with life := { m.life with pmTlm := BitVec.ofNat 12 v } }
    else bumpFree { m with life := { m.life with pmTlm := Config.freePower m.freeN } }

/-- What a window's end makes of one set group (05 R162). -/
def pressGroup (fx : Fixed) (g : Nat) (m : Mach) : Mach :=
  let n := (tget 0 m.berth.miss g).toNat
  let on := m.berth.pressured.getLsbD g
  let set := fun (m : Mach) => { m with berth := { m.berth with pressured := m.berth.pressured ||| ((1 : BitVec 128) <<< g) } }
  let clr := fun (m : Mach) => { m with berth := { m.berth with pressured := m.berth.pressured &&& ~~~((1 : BitVec 128) <<< g) } }
  if !m.regs.pressEn then clr m
  else if n > m.regs.pressThresh.toNat then (if on then m else post fx 0x05 (BitVec.ofNat 64 g) (set m))
  else if n ≤ m.regs.pressThresh.toNat / 2 then clr m else m

/-- PIN_PRESSURE_WINDOW_END (05 R162). -/
def pressureWindow (fx : Fixed) (m : Mach) : Mach :=
  let m := (List.range 128).foldl (fun m g => pressGroup fx g m) m
  { m with berth := { m.berth with miss := [] } }

/-! ### Debug access -/

/-- DEBUG_OPEN (18 R462, 14 R389). -/
def cmdDebugOpen (fx : Fixed) (c : Rec) (m : Mach) : Mach :=
  let fac := fld c.pkt.p0 1 0
  if fac = 0 then complete fx c csBadParam [] m
  else
    let n := (keysOf m.ctxs fun e => e.opened && e.conf).length
    let m := eraseTenants fx c.id m
    let m := { m with life := { m.life with dbgFrom := m.life.st, st := .debug }
                      dbg := { m.dbg with trace := fac % 2 = 1, peek := fac / 2 = 1 } }
    complete fx c csDone [BitVec.ofNat 64 n] m

/-- DEBUG_CLOSE (18 R465). -/
def cmdDebugClose (fx : Fixed) (c : Rec) (m : Mach) : Mach :=
  complete fx c csDone []
    { m with life := { m.life with st := m.life.dbgFrom }
             dbg := { m.dbg with trace := false, peek := false, peekAddr := 0, data0 := 0, data1 := 0 } }

/-- Words of a hop record (08 Table TOW-3). -/
def hopWord (h : Hop) (k : Nat) : W64 :=
  match k with
  | 0 => BitVec.ofNat 64 (b2n h.valid * 2 ^ 63 + b2n h.broken * 2 ^ 62 + b2n h.cut * 2 ^ 61 + h.cause.toNat * 2 ^ 53 +
      h.hop.toNat * 2 ^ 47 + h.last.toNat * 2 ^ 41 + h.tile.toNat * 2 ^ 28 + h.tgen.toNat * 2 ^ 20 + h.outst.toNat * 2 ^ 13)
  | 1 => h.next
  | 2 => h.prev
  | 3 => BitVec.ofNat 64 (h.chain.toNat * 2 ^ 32)
  | 4 => h.recvd
  | 5 => h.sent
  | _ => h.acked

/-- Words of a tile descriptor (07 Table RED-4). -/
def tileWord (t : Tile) (k : Nat) : W64 :=
  match k with
  | 0 => tileW0 t
  | 1 => tileW1 t
  | 2 => t.touch0
  | 3 => t.touch1
  | 4 => t.dst
  | 5 => t.auxdst
  | 6 => BitVec.ofNat 64 (t.scale.toNat * 2 ^ 32 + t.bias.toNat)
  | _ => t.biasaddr

/-- Words of a sync record, as stored. -/
def syncWord (m : Mach) (i k : Nat) : W64 :=
  let bits := syncRecBits (syncObj m (BitVec.ofNat 14 i))
  let flips := (List.range 16).foldl (fun n b => n + (tget (0, 0) m.cache.errs.sync (i * 16 + b)).1.toNat * 2 ^ (8 * b)) 0
  (bits ^^^ BitVec.ofNat 128 flips).extractLsb' (64 * k) 64

/-- Words of a berth-table entry (05 Table BERTH-2). -/
def berthWord (m : Mach) (i k : Nat) : W64 :=
  let b := berthOf m i
  if k = 0 then
    BitVec.ofNat 64 (b2n b.valid * 2 ^ 63 + b2n b.freeing * 2 ^ 62 + b2n b.srcv * 2 ^ 61 + b2n b.qheld * 2 ^ 60 +
      b.ctx.toNat * 2 ^ 48 + b.size.toNat * 2 ^ 39 + b.mapbase.toNat * 2 ^ 27 + b.gen.toNat * 2 ^ 19 + berthRefs m i % 2 ^ 16 * 2 ^ 3)
  else b.src

/-- What a raw read of STRUCT and LOC gives (18 R464): the word and its check bits. The records' own check bits are not given
by the manual. -/
def peekAt (m : Mach) (a : W64) : Option (W64 × BitVec 8) :=
  let st := fld a 63 56
  let loc := fld a 55 0
  let i := fld a 22 8
  let k := fld a 2 0
  let rec_ := fun (size words : Nat) (w : W64) =>
    if loc < 2 ^ 23 ∧ fld a 7 3 = 0 ∧ i < size ∧ k < words then some (w, (Config.freeWord m.freeN).extractLsb' 0 8) else none
  if st ≤ 4 then rawGet m st loc
  else if st = 6 then rec_ 8192 8 (tileWord (tileOf m i) k)
  else if st = 7 then rec_ 1024 7 (hopWord (hopOf m i) k)
  else if st = 8 then rec_ 16384 2 (syncWord m i k)
  else if st = 9 then rec_ 4096 2 (berthWord m i k)
  else none

/-- PEND of DBG_PEEK_DATA1 (19 Table WIN-8). -/
def peekPend (m : Mach) : Bool := bit m.dbg.data1 62

/-- PEEK_RESULT (18 R464): the raw read that DBG_PEEK_ADDR started ends. -/
def peekResult (m : Mach) : Mach :=
  if !peekPend m then m
  else match peekAt m m.dbg.peekAddr with
    | some (w, ck) => bumpFree { m with dbg := { m.dbg with data0 := w, data1 := BitVec.ofNat 64 (2 ^ 63 + ck.toNat) } }
    | none => { m with dbg := { m.dbg with data1 := 0 } }

end Sys2Proof.Machine
end

