-- ==== Sys2Proof/Machine/Window.lean ====
section
/-! DEFINITION. The control window: its registers, who may write them, and how accesses behave (19_control_window.md). -/

namespace Sys2Proof.Machine

/-- The paths that Table WIN-1 lets write a register. -/
inductive Writer where
  | none | pilot | aperture | inband | sideband
  /-- RECOV_CTL: HOLD by the pilot, HWFENCE by the sideband. -/
  | recov
  deriving DecidableEq, Repr

/-- A row of Table WIN-1: first offset, number of registers, whether they are 64 bits wide, who writes them. -/
structure RegRow where
  lo : Nat
  n : Nat
  wide : Bool
  by_ : Writer
  deriving DecidableEq, Repr

/-- Table WIN-1, with the ring registers of Tables WIN-3 and WIN-4. -/
def regTable : List RegRow :=
  [⟨0x0000, 2, false, .none⟩, ⟨0x0008, 1, true, .none⟩, ⟨0x0010, 1, true, .pilot⟩, ⟨0x0018, 1, true, .none⟩, ⟨0x0020, 1, false, .pilot⟩,
   ⟨0x0100, 1, false, .aperture⟩, ⟨0x0108, 2, true, .aperture⟩, ⟨0x0118, 6, false, .aperture⟩,
   ⟨0x0140, 1, false, .inband⟩, ⟨0x0148, 2, true, .inband⟩, ⟨0x0158, 6, false, .inband⟩,
   ⟨0x0180, 1, false, .pilot⟩, ⟨0x0188, 1, true, .pilot⟩, ⟨0x0190, 3, false, .pilot⟩] ++
  [⟨0x0200, 10, false, .pilot⟩, ⟨0x0228, 2, false, .none⟩, ⟨0x0230, 1, false, .recov⟩, ⟨0x0238, 1, true, .none⟩, ⟨0x0240, 1, false, .pilot⟩,
   ⟨0x0244, 1, false, .none⟩, ⟨0x0248, 1, false, .pilot⟩, ⟨0x024C, 1, false, .none⟩, ⟨0x0250, 1, false, .sideband⟩,
   ⟨0x0260, 2, false, .none⟩, ⟨0x0270, 4, false, .none⟩, ⟨0x0280, 16, false, .pilot⟩, ⟨0x0300, 4, true, .none⟩, ⟨0x0400, 128, false, .pilot⟩] ++
  [⟨0x0800, 1, false, .none⟩, ⟨0x0840, 32, false, .none⟩, ⟨0x0900, 64, true, .none⟩, ⟨0x1000, 512, true, .none⟩, ⟨0x2000, 64, true, .pilot⟩,
   ⟨0x2200, 2, true, .none⟩, ⟨0x2300, 64, false, .sideband⟩, ⟨0x2400, 41, true, .none⟩, ⟨0x2548, 1, false, .pilot⟩, ⟨0x2550, 1, false, .none⟩,
   ⟨0x2554, 1, false, .pilot⟩, ⟨0x3000, 2, true, .pilot⟩, ⟨0x3010, 2, true, .none⟩, ⟨0x4000, 1024, false, .pilot⟩, ⟨0x5000, 32, false, .pilot⟩]

/-- The register that holds an offset: its own offset, whether it is 64 bits wide, and who writes it. -/
def regIn (off : Nat) : List RegRow → Option (Nat × Bool × Writer)
  | [] => none
  | r :: t =>
    let w := if r.wide then 8 else 4
    if r.lo ≤ off ∧ off < r.lo + r.n * w then some (r.lo + (off - r.lo) / w * w, r.wide, r.by_) else regIn off t
def regAt (off : Nat) : Option (Nat × Bool × Writer) := regIn off regTable

/-- The path of the master that is pilot (19 R469). -/
def pilotPath (m : Mach) (p : Path) : Bool :=
  match p with
  | .aperture => m.pilot.master = 1
  | .inband => m.pilot.master = 2
  | .sideband => m.pilot.master = 3

/-! ### Values of registers -/

/-- The commands of an engine held or running, and the opcode of the one that runs (19 Table WIN-7). -/
def engineWord (m : Mach) (mine runs : Prog → Bool) (sh : Nat) : Nat :=
  let held := m.cmds.running.filter fun r => mine r.prog
  let op := match held.find? fun r => runs r.prog with | some r => r.cmd.opcode.toNat | none => 0
  b2n (!held.isEmpty) * 2 ^ 31 + held.length * 2 ^ sh + op * 2 ^ 8

/-- BANK_SEASONq (19 Table WIN-7): the banks that serve the quad's indices, then its other bank. -/
def bankSeason (m : Mach) (q : Nat) : Nat :=
  let code := fun (b : Nat) => seasonCode (dom m (dBank q b)).season
  let other := if tget 0 m.cache.spareFor q = 0 then 16 else tget 0 m.cache.spareFor q - 1
  ((List.range 16).map fun b => code (bankServing m q b) * 2 ^ (3 * b)).sum + code other * 2 ^ 48

/-- KEY_STATUSk (14 Table CONF-2). -/
def keyStatus (m : Mach) (k : Nat) : Nat :=
  let s := kslot m (BitVec.ofNat 9 k)
  let gs := m.keys.grants.filter fun g => g.slot.toNat = k
  let own := if s.kind = 1 then s.owner.toNat * 2 ^ 44 + s.ogen.toNat * 2 ^ 36 else 0
  let bound := if s.kind = 2 then b2n (gs.any (·.load)) * 2 ^ 56 + s.bindh.toNat * 2 ^ 20 + gs.length * 2 ^ 9 else 0
  s.kind.toNat * 2 ^ 62 + b2n s.v0 * 2 ^ 61 + b2n s.v1 * 2 ^ 60 + b2n s.cur * 2 ^ 59 + b2n s.sweep * 2 ^ 58 + b2n s.conf * 2 ^ 57 + own + bound

/-- LOCK of a key range entry (14 R367). -/
def krtLock (m : Mach) (r : KRange) : Bool := (kslot m r.keyslot).conf || (kslot m r.keyslot).sweep

/-- A key range entry as a word, and a word as an entry. -/
def krtWord (m : Mach) (r : KRange) : Nat :=
  b2n r.en * 2 ^ 63 + b2n r.host * 2 ^ 62 + b2n (krtLock m r) * 2 ^ 61 + r.keyslot.toNat * 2 ^ 52 + r.base.toNat * 2 ^ 29 + r.limit.toNat * 2 ^ 6
def krtOf (w : W64) : KRange :=
  ⟨bit w 63, bit w 62, BitVec.ofNat 9 (fld w 60 52), BitVec.ofNat 23 (fld w 51 29), BitVec.ofNat 23 (fld w 28 6)⟩

/-- A command ring's register at a place of Table WIN-3. -/
def ringWord (r : Ring) (at_ : Nat) : Nat :=
  if at_ = 0x00 then b2n r.en * 2 ^ 31 + b2n r.err * 2 ^ 30
  else if at_ = 0x08 then r.base.toNat
  else if at_ = 0x10 then r.rbase.toNat
  else if at_ = 0x18 then r.size.toNat
  else if at_ = 0x1C then r.gen.toNat * 2 ^ 12 + r.ctx.toNat
  else if at_ = 0x20 then r.tail.toNat
  else if at_ = 0x24 then r.head.toNat
  else if at_ = 0x28 then r.rtail.toNat
  else r.rhead.toNat

/-- Registers 0x0000 to 0x01FF. -/
def regLow (fx : Fixed) (m : Mach) (o : Nat) : Nat :=
  if o = 0x0000 then 0x1C3E0001
  else if o = 0x0004 then Config.stepping.toNat * 2 ^ 24 + 7 * 2 ^ 16
  else if o = 0x0008 then 0x1040200020180810
  else if o = 0x0010 then
    fx.procId.toNat * 2 ^ 48 + fx.siteId.toNat * 2 ^ 40 + b2n m.regs.lv * 2 ^ 39 + m.regs.logical.toNat * 2 ^ 32
  else if o = 0x0018 then (stateWord fx m).toNat
  else if o = 0x0020 then b2n m.regs.reject * 2 ^ 31 + m.regs.roff.toNat
  else if o < 0x0140 then ringWord m.ringH (o - 0x0100)
  else if o < 0x0180 then ringWord m.ringF (o - 0x0140)
  else if o = 0x0180 then b2n m.evq.en * 2 ^ 31 + b2n m.evq.err * 2 ^ 30 + b2n m.evq.sbmir * 2 ^ 29 + m.evq.size.toNat
  else if o = 0x0188 then m.evq.base.toNat
  else if o = 0x0190 then m.evq.tail.toNat
  else if o = 0x0194 then m.evq.head.toNat
  else m.evq.lost.toNat * 2 ^ 16 + m.evq.pend.length

/-- Registers 0x0200 to 0x024F. -/
def regCtl (fx : Fixed) (m : Mach) (o : Nat) : Nat :=
  let r := m.regs
  if o = 0x0200 then r.pfReserve.toNat * 2 ^ 24 + r.slipHigh.toNat * 2 ^ 16 + r.pfDegree.toNat * 2 ^ 6 + b2n r.pfHintEn * 2 ^ 5 + b2n r.pfEn * 2 ^ 4
  else if o = 0x0204 then r.retain.toNat
  else if o = 0x0208 then m.red.seed.toNat * 2 ^ 16 + b2n m.red.batchEn
  else if o = 0x020C then r.hopTimeout.toNat * 2 ^ 20 + r.window.toNat
  else if o = 0x0210 then fx.fmapBase.toNat * 2 ^ 17 + b2n fx.fmapKeep * 2 + b2n fx.fmapEn
  else if o = 0x0214 then r.pressThresh.toNat * 2 ^ 16 + b2n r.pressEn * 2 ^ 15 + sat 255 (pop m.berth.pressured)
  else if o = 0x0218 then r.frostIdle.toNat * 2 ^ 24 + r.winterIdle.toNat * 2 ^ 16 + r.autumnIdle.toNat
  else if o = 0x021C then r.maintTc.toNat * 2 ^ 28
  else if o = 0x0220 then r.snoopTimeout.toNat * 2 ^ 20 + r.hostTc.toNat * 2 ^ 16 + b2n r.hostEn
  else if o = 0x0224 then b2n r.hintEn
  else if o = 0x0228 then (jamCtl m).toNat
  else if o = 0x022C then m.sync.jamSeq.toNat * 2 ^ 16 + ((m.sync.waits.filter (·.exported.isSome)).length + m.sync.retract.length) % 2 ^ 16
  else if o = 0x0230 then r.holdTicks.toNat * 2 ^ 24
  else if o = 0x0238 then
    m.sync.orphanSrc.toNat * 2 ^ 48 + m.sync.orphanCtx.toNat * 2 ^ 36 + m.sync.orphanGen.toNat * 2 ^ 28 + m.sync.orphanOp.toNat * 2 ^ 22 +
      m.sync.orphanCount.toNat
  else if o = 0x0240 then r.rowThresh.toNat * 2 ^ 24 + r.bankThresh.toNat * 2 ^ 8 + b2n r.autoRow
  else if o = 0x0244 then b2n m.err.fatal * 2 ^ 31 + b2n m.err.degraded * 2 ^ 30 + m.err.overwritten.toNat
  else if o = 0x0248 then b2n m.keys.krtReject
  else
    m.life.phase.toNat * 2 ^ 28 + m.life.fail.toNat * 2 ^ 24 + m.life.fwResult.toNat * 2 ^ 16 + m.life.banks.toNat * 2 ^ 8 + m.life.rows.toNat

/-- Registers 0x0250 to 0x0AFF. -/
def regMid (m : Mach) (o : Nat) : Nat :=
  if o = 0x0250 then b2n m.life.hold * 2 ^ 31 + m.life.rowHealth.toNat
  else if o = 0x0260 then engineWord m isMaint (fun p => isMaintRun p || isSweepRun p) 28
  else if o = 0x0264 then engineWord m isCopy isCopyRun 27
  else if o < 0x0280 then (m.berth.pressured.extractLsb' (32 * ((o - 0x0270) / 4)) 32).toNat
  else if o < 0x0300 then
    let n := (o - 0x0280) / 4
    b2n (m.dir.en.getLsbD n) * 2 ^ 31 + b2n (m.dir.hung.getLsbD n) * 2 ^ 30 + heldCount m (BitVec.ofNat 4 n)
  else if o < 0x0400 then bankSeason m ((o - 0x0300) / 8)
  else if o < 0x0800 then (m.regs.bucketMask.extractLsb' (32 * ((o - 0x0400) / 4)) 32).toNat
  else if o = 0x0800 then b2n m.qos.measured * 2 ^ 31 + limitOf m.qos.eff * 2 ^ 16 + m.qos.eff.toNat
  else if o < 0x0880 then (clsWord m ((o - 0x0840) / 4)).toNat
  else if o < 0x0900 then
    let c := clsOf m ((o - 0x0880) / 4)
    b2n (decide (c.grant.toNat < c.resv.toNat)) * 2 ^ 31 + c.grant.toNat * 2 ^ 16 + c.resv.toNat
  else
    let j := (o - 0x0900) / 8
    ((shown m).qos.getD (j % 16 * 4 + j / 16) 0).toNat

/-- Registers from 0x1000 up. -/
def regHigh (m : Mach) (o : Nat) : Nat :=
  if o < 0x2000 then keyStatus m ((o - 0x1000) / 8)
  else if o < 0x2200 then krtWord m (krt m ((o - 0x2000) / 8))
  else if o < 0x2300 then (match m.err.log.getLast? with | some e => (if o = 0x2200 then e.1 else e.2).toNat | none => 0)
  else if o < 0x2400 then (tget 0 m.life.softRepair ((o - 0x2300) / 4)).toNat
  else if o < 0x2480 then (tget 0 m.pmc.ctl ((o - 0x2400) / 8)).toNat
  else if o < 0x2500 then ((shown m).prog.getD ((o - 0x2480) / 8) 0).toNat
  else if o < 0x2540 then ((shown m).fixed.getD ((o - 0x2500) / 8) 0).toNat
  else if o = 0x2540 then m.cyc % 2 ^ 48
  else if o = 0x2548 then
    m.pmc.ovf.toNat * 2 ^ 16 + m.pmc.fovf.toNat * 2 ^ 8 + b2n m.pmc.dumpErr * 2 + b2n (decide (m.pmc.interval ≠ 0))
  else if o = 0x2550 then m.pmc.wr.toNat
  else if o = 0x2554 then m.pmc.rd.toNat
  else if o = 0x3000 then m.dbg.traceCtl.toNat
  else if o = 0x3008 then m.dbg.peekAddr.toNat
  else if o = 0x3010 then m.dbg.data0.toNat
  else if o = 0x3018 then m.dbg.data1.toNat
  else if o < 0x5000 then
    let n := (o - 0x4000) / 4
    ((List.range 4).map fun j => (tget 0 m.regs.hintBucket (4 * n + j)).toNat * 2 ^ (8 * j)).sum
  else
    let n := (o - 0x5000) / 4
    ((List.range 4).map fun j => (tget 0 m.regs.hintSite (4 * n + j)).toNat * 2 ^ (8 * j)).sum

/-- The value of the register at an offset that Table WIN-1 lists. -/
def regVal (fx : Fixed) (m : Mach) (o : Nat) : W64 :=
  BitVec.ofNat 64
    (if o < 0x0200 then regLow fx m o else if o < 0x0250 then regCtl fx m o else if o < 0x1000 then regMid m o else regHigh m o)

/-! ### Writes -/

/-- A write is ignored, with REJECT and ROFF (19 R469, R470). -/
def rejectAt (off : Nat) (m : Mach) : Mach := { m with regs := { m.regs with reject := true, roff := BitVec.ofNat 16 off } }
/-- REJECT alone (19 R467, 02 R483). -/
def rejectOnly (m : Mach) : Mach := { m with regs := { m.regs with reject := true } }

/-- A ring's fetch under way is called off, and its reply entry is free again. -/
def dropFetch (f : Bool) (m : Mach) : Mach :=
  let r := ringOf m f
  let m := dropOwn (· = .ring f) m
  if r.fetching then setRing f { r with fetching := false, reserved := r.reserved - 1 } m else m

/-- A ring error (03 R72): 1 tail overrun, 2 fetch refused, 3 reply write refused. -/
def ringError (fx : Fixed) (f : Bool) (why : Nat) (m : Mach) : Mach :=
  let m := setRing f { ringOf m f with err := true } m
  post fx 0x03 (BitVec.ofNat 64 (why * 256 + b2n f)) m

/-- A write of CMDQ_CTL (19 R473, 03 R70). -/
def writeRingCtl (fx : Fixed) (f : Bool) (v : W64) (m : Mach) : Mach :=
  let r := ringOf m f
  if r.en then (if bit v 31 then m else let m := dropFetch f m; setRing f { ringOf m f with en := false } m)
  else if !bit v 31 then m
  else
    let n := 2 ^ r.size.toNat
    let ok := decide (4 ≤ r.size.toNat) && decide (r.size.toNat ≤ 12) && decide (r.base.toNat % (64 * n) = 0) &&
      decide (r.rbase.toNat % (32 * n) = 0) && rangeHomed fx m r.base (64 * n) && rangeHomed fx m r.rbase (32 * n)
    if ok then setRing f { r with en := true, err := false, tail := 0, head := 0, rtail := 0, rhead := 0 } m
    else setRing f { r with err := true } m

/-- A write of CMDQ_TAIL (03 R69, R72). -/
def writeRingTail (fx : Fixed) (f : Bool) (v : W64) (m : Mach) : Mach :=
  let r := ringOf m f
  if !r.en then m
  else
    let t : BitVec 16 := v.extractLsb' 0 16
    let m := setRing f { r with tail := t } m
    if (t - r.head).toNat > 2 ^ r.size.toNat then ringError fx f 1 m else m

/-- A write of RPLQ_HEAD (19 R470). -/
def writeReplyHead (f : Bool) (off : Nat) (v : W64) (m : Mach) : Mach × Bool :=
  let r := ringOf m f
  let h : BitVec 16 := v.extractLsb' 0 16
  if (r.rtail - h).toNat > 2 ^ r.size.toNat then (rejectAt off m, false) else (setRing f { r with rhead := h } m, true)

/-- A write of a register of a command ring. -/
def writeRing (fx : Fixed) (f : Bool) (off at_ : Nat) (v : W64) (m : Mach) : Mach × Bool :=
  let r := ringOf m f
  let idle := fun (r' : Ring) => if r.en then (m, true) else (setRing f r' m, true)
  if at_ = 0x00 then (writeRingCtl fx f v m, true)
  else if at_ = 0x08 then idle { r with base := v }
  else if at_ = 0x10 then idle { r with rbase := v }
  else if at_ = 0x18 then idle { r with size := v.extractLsb' 0 4 }
  else if at_ = 0x1C then idle { r with ctx := v.extractLsb' 0 12, gen := v.extractLsb' 12 8 }
  else if at_ = 0x20 then (writeRingTail fx f v m, true)
  else if at_ = 0x2C then writeReplyHead f off v m
  else (m, true)

/-- A write of EVQ_CTL (19 R474). -/
def writeEvqCtl (fx : Fixed) (v : W64) (m : Mach) : Mach :=
  let q := m.evq
  let q := { q with sbmir := bit v 29, size := if q.en then q.size else v.extractLsb' 0 4 }
  if q.en || !bit v 31 then { m with evq := { q with en := bit v 31 } }
  else
    let n := 16 * 2 ^ q.size.toNat
    let ok := decide (4 ≤ q.size.toNat) && decide (q.size.toNat ≤ 12) && decide (q.base.toNat % n = 0) && rangeHomed fx m q.base n &&
      runsAll (fun l => (rangeOf m l).isNone) (rangeRuns fx m q.base n)
    { m with evq := if ok then { q with en := true, err := false, tail := 0, head := 0 } else { q with err := true } }

/-- A write of EVQ_HEAD (19 R470). -/
def writeEvqHead (off : Nat) (v : W64) (m : Mach) : Mach × Bool :=
  let h : BitVec 16 := v.extractLsb' 0 16
  if (m.evq.tail - h).toNat > 2 ^ m.evq.size.toNat then (rejectAt off m, false) else ({ m with evq := { m.evq with head := h } }, true)

/-- A write of PMC_RD (19 R470). -/
def writePmcRd (off : Nat) (v : W64) (m : Mach) : Mach × Bool :=
  let r : W32 := v.extractLsb' 0 32
  if (m.pmc.wr - r).toNat > 2 ^ m.pmc.size.toNat then (rejectAt off m, false) else ({ m with pmc := { m.pmc with rd := r } }, true)

/-- A write of RED_CTL (07 R223): every lane generator is set. -/
def writeRedCtl (v : W64) (m : Mach) : Mach :=
  let s : BitVec 16 := v.extractLsb' 16 16
  { m with red := { m.red with seed := s, batchEn := bit v 0, lanes := lanesOf s } }

/-- A write of KRTn (14 R367). -/
def writeKrt (n : Nat) (v : W64) (m : Mach) : Mach :=
  let r := krtOf v
  let rej := fun (m : Mach) => { m with keys := { m.keys with krtReject := true } }
  let meets_ := fun (o : KRange) => o.en && krtLock m o && decide (r.base.toNat ≤ r.limit.toNat) && decide (o.base.toNat ≤ o.limit.toNat) &&
    decide (r.base.toNat ≤ o.limit.toNat) && decide (o.base.toNat ≤ r.limit.toNat)
  if krtLock m (krt m n) then rej m
  else if r.en && (List.range 64).any fun j => j != n && meets_ (krt m j) then rej m
  else { m with keys := { m.keys with krt := tset .reset m.keys.krt n r } }

/-- A write of SLICE_ID (01 R30): PROC while RO/L fields are not locked, the rest in READY or QUIESCED. -/
def writeSliceId (fx : Fixed) (v : W64) (m : Mach) : Fixed × Mach :=
  let fx := if fx.roLocked then fx else { fx with procId := v.extractLsb' 48 16 }
  (fx, if m.life.st = .ready ∨ m.life.st = .quiesced then
      { m with regs := { m.regs with lv := bit v 39, logical := v.extractLsb' 32 7 } } else m)

/-- A write of BUCKET_MASKn (01 R30). -/
def writeBucket (n : Nat) (v : W64) (m : Mach) : Mach :=
  if m.life.st = .ready ∨ m.life.st = .quiesced then
    let low : BitVec 4096 := BitVec.ofNat 4096 ((2 ^ 32 - 1) * 2 ^ (32 * n))
    let new : BitVec 4096 := BitVec.ofNat 4096 (v.toNat % 2 ^ 32 * 2 ^ (32 * n))
    { m with regs := { m.regs with bucketMask := (m.regs.bucketMask &&& ~~~low) ||| new } }
  else m

/-- A DIR_RECLAIM of an agent is held or running. -/
def reclaiming (m : Mach) (n : Nat) : Bool :=
  m.cmds.running.any fun r => isMaint r.prog && r.cmd.opcode = 0x95 && decide (fld r.cmd.pkt.p0 3 0 = n)

/-- A write of HC_AGENTn (11 Table COH-10; 19 R470). -/
def writeAgent (n off : Nat) (v : W64) (m : Mach) : Mach × Bool :=
  let one : BitVec 16 := (1 : BitVec 16) <<< n
  let m := if bit v 30 then { m with dir := { m.dir with hung := m.dir.hung &&& ~~~one } } else m
  if !bit v 31 then ({ m with dir := { m.dir with en := m.dir.en &&& ~~~one } }, true)
  else if reclaiming m n then (rejectAt off m, false)
  else ({ m with dir := { m.dir with en := m.dir.en ||| one } }, true)

/-- A write of DBG_PEEK_ADDR (18 R464; 19 R470). -/
def writePeekAddr (off : Nat) (v : W64) (m : Mach) : Mach × Bool :=
  if peekPend m then (rejectAt off m, false)
  else ({ m with dbg := { m.dbg with peekAddr := v, data1 := BitVec.ofNat 64 (2 ^ 62) } }, true)

/-- A write of RECOV_CTL (16 R431, R439). -/
def writeRecov (p : Path) (v : W64) (m : Mach) : Mach :=
  let m := if pilotPath m p then { m with regs := { m.regs with holdTicks := v.extractLsb' 24 8 } } else m
  if p = .sideband && bit v 0 then hwFence m else m

/-- Phase 3 lasts while HOLD is 1; phase 4 starts when it has ended (17 R440, Table START-1). -/
def endHold (m : Mach) : Mach :=
  if m.life.st = .selftest ∧ m.life.phase = 3 ∧ !m.life.hold then { m with life := { m.life with phase := 4 } } else m

/-- A write of BOOT_CTL (17 R444). -/
def writeBootCtl (v : W64) (m : Mach) : Mach :=
  endHold { m with life := { m.life with hold := bit v 31, rowHealth := v.extractLsb' 0 9 } }

/-- A write of PMC_STATUS. -/
def writePmcStatus (v : W64) (m : Mach) : Mach :=
  { m with pmc := { m.pmc with ovf := m.pmc.ovf &&& ~~~(v.extractLsb' 16 16), fovf := m.pmc.fovf &&& ~~~(v.extractLsb' 8 8),
                               dumpErr := m.pmc.dumpErr && !bit v 1 } }

/-- Writes of the plain control registers 0x0200 to 0x0240. -/
def writeCtl (o : Nat) (v : W64) (r : Regs) : Regs :=
  if o = 0x0200 then { r with pfReserve := v.extractLsb' 24 8, slipHigh := v.extractLsb' 16 8, pfDegree := v.extractLsb' 6 2,
                              pfHintEn := bit v 5, pfEn := bit v 4 }
  else if o = 0x0204 then { r with retain := v.extractLsb' 0 32 }
  else if o = 0x020C then { r with hopTimeout := v.extractLsb' 20 12, window := v.extractLsb' 0 7 }
  else if o = 0x0214 then { r with pressThresh := v.extractLsb' 16 16, pressEn := bit v 15 }
  else if o = 0x0218 then { r with frostIdle := v.extractLsb' 24 8, winterIdle := v.extractLsb' 16 8, autumnIdle := v.extractLsb' 0 8 }
  else if o = 0x021C then { r with maintTc := v.extractLsb' 28 4 }
  else if o = 0x0220 then { r with snoopTimeout := v.extractLsb' 20 12, hostTc := v.extractLsb' 16 4, hostEn := bit v 0 }
  else if o = 0x0224 then { r with hintEn := bit v 0 }
  else if o = 0x0240 then { r with rowThresh := v.extractLsb' 24 8, bankThresh := v.extractLsb' 8 16, autoRow := bit v 0 }
  else r

/-- A write of FMAP_CTL (09 Table SPARSE-2). -/
def writeFmap (fx : Fixed) (v : W64) : Fixed :=
  if fx.roLocked then fx else { fx with fmapBase := v.extractLsb' 17 15, fmapKeep := bit v 1, fmapEn := bit v 0 }

/-- Four fields of a hint register put into a table. -/
def putFour {n : Nat} (t : Tbl (BitVec n)) (k : Nat) (v : W64) : Tbl (BitVec n) :=
  [0, 1, 2, 3].foldl (fun t j => tset 0 t (4 * k + j) (v.extractLsb' (8 * j) n)) t

/-- A write that may take effect, of value v to the register at o: what it changes, and whether it was not ignored under R470. -/
def regWrite (fx : Fixed) (p : Path) (off o : Nat) (v : W64) (m : Mach) : Fixed × Mach × Bool :=
  let done := fun (m : Mach) => (fx, m, true)
  let tried := fun (x : Mach × Bool) => (fx, x.1, x.2)
  if o = 0x0010 then (let (fx, m) := writeSliceId fx v m; (fx, m, true))
  else if o = 0x0020 then done { m with regs := { m.regs with reject := m.regs.reject && !bit v 31 } }
  else if 0x0100 ≤ o ∧ o < 0x0140 then tried (writeRing fx false off (o - 0x0100) v m)
  else if 0x0140 ≤ o ∧ o < 0x0180 then tried (writeRing fx true off (o - 0x0140) v m)
  else if o = 0x0180 then done (writeEvqCtl fx v m)
  else if o = 0x0188 then done (if m.evq.en then m else { m with evq := { m.evq with base := v } })
  else if o = 0x0194 then tried (writeEvqHead off v m)
  else if o = 0x0208 then done (writeRedCtl v m)
  else if o = 0x0210 then (writeFmap fx v, m, true)
  else if o = 0x0230 then done (writeRecov p v m)
  else if 0x0200 ≤ o ∧ o ≤ 0x0240 then done { m with regs := writeCtl o v m.regs }
  else if o = 0x0248 then done { m with keys := { m.keys with krtReject := m.keys.krtReject && !bit v 0 } }
  else if o = 0x0250 then done (writeBootCtl v m)
  else if 0x0280 ≤ o ∧ o < 0x02C0 then tried (writeAgent ((o - 0x0280) / 4) off v m)
  else if 0x0400 ≤ o ∧ o < 0x0600 then done (writeBucket ((o - 0x0400) / 4) v m)
  else if 0x2000 ≤ o ∧ o < 0x2200 then done (writeKrt ((o - 0x2000) / 8) v m)
  else if 0x2300 ≤ o ∧ o < 0x2400 then
    done { m with life := { m.life with softRepair := tset 0 m.life.softRepair ((o - 0x2300) / 4) (v.extractLsb' 0 32) } }
  else if o = 0x2548 then done (writePmcStatus v m)
  else if o = 0x2554 then tried (writePmcRd off v m)
  else if o = 0x3000 then done { m with dbg := { m.dbg with traceCtl := v &&& 0xFFFFFFFFFFC00000 } }
  else if o = 0x3008 then tried (writePeekAddr off v m)
  else if 0x4000 ≤ o ∧ o < 0x5000 then done { m with regs := { m.regs with hintBucket := putFour m.regs.hintBucket ((o - 0x4000) / 4) v } }
  else if 0x5000 ≤ o ∧ o < 0x5080 then done { m with regs := { m.regs with hintSite := putFour m.regs.hintSite ((o - 0x5000) / 4) v } }
  else done m

/-- What stands before a write's effect: nothing; a silent refusal (01 R30, 17 R444, 18 R463, 19 R471); one that sets REJECT. -/
inductive WGate where
  | go | quiet_ | reject
  deriving DecidableEq, Repr

/-- Whether a path's write of a register may take effect (19 R469, R471). -/
def writeGate (m : Mach) (p : Path) (o : Nat) (w : Writer) : WGate :=
  if m.life.st = .init && !(p = .sideband && w = .sideband) then .quiet_
  else
    let may := match w with
      | .none => false
      | .pilot => pilotPath m p
      | .aperture => p = .aperture
      | .inband => p = .inband
      | .sideband => p = .sideband
      | .recov => pilotPath m p || p = .sideband
    if !may then .reject
    else if w = .sideband && decide (3 < m.life.phase.toNat) then .quiet_
    else if (o = 0x3000 && !m.dbg.trace) || (o = 0x3008 && !m.dbg.peek) then .quiet_
    else .go

/-- A write applied to the bits of a mask of a register; whether it was not ignored with REJECT. -/
def writeMasked (fx : Fixed) (p : Path) (off o : Nat) (w : Writer) (mask v : W64) (m : Mach) : Fixed × Mach × Bool :=
  match writeGate m p o w with
  | .quiet_ => (fx, m, true)
  | .reject => (fx, rejectAt off m, false)
  | .go => regWrite fx p off o ((regVal fx m o &&& ~~~mask) ||| (v &&& mask)) m

/-- Numbers of the paths. -/
def pathNo : Path → Nat
  | .sideband => 0 | .inband => 1 | .aperture => 2

/-- The latches of a path, and the path's latches cleared (19 R468). -/
def clearLatches (p : Path) (m : Mach) : Mach :=
  { m with regs := { m.regs with rlatch := tset none m.regs.rlatch (pathNo p) none, wlatch := tset none m.regs.wlatch (pathNo p) none } }
def setReadLatch (p : Path) (o : Nat) (d : W32) (m : Mach) : Mach :=
  { m with regs := { m.regs with rlatch := tset none m.regs.rlatch (pathNo p) (some (BitVec.ofNat 16 o, d)) } }
def setWriteLatch (p : Path) (o : Nat) (d : W32) (m : Mach) : Mach :=
  { m with regs := { m.regs with wlatch := tset none m.regs.wlatch (pathNo p) (some (BitVec.ofNat 16 o, d)) } }

/-- A latch holds the other half of the register at o. -/
def latchAt (l : Option (BitVec 16 × W32)) (o : Nat) : Option W32 :=
  match l with | some (x, d) => if x.toNat = o then some d else none | none => none

/-- A 4-byte read (19 R468); `rl` is the path's read latch as the access found it. -/
def read4 (fx : Fixed) (p : Path) (off : Nat) (rl : Option (BitVec 16 × W32)) (m : Mach) : Mach × W32 :=
  match regAt off with
  | none => (m, 0)
  | some (o, wide, _) =>
    let v := regVal fx m o
    if !wide then (m, v.extractLsb' 0 32)
    else if off = o then (setReadLatch p o (v.extractLsb' 32 32) m, v.extractLsb' 0 32)
    else (m, (latchAt rl o).getD (v.extractLsb' 32 32))

/-- A 4-byte write (19 R468); `wl` is the path's write latch as the access found it. -/
def write4 (fx : Fixed) (p : Path) (off : Nat) (d : W32) (wl : Option (BitVec 16 × W32)) (m : Mach) : Fixed × Mach × Bool :=
  match regAt off with
  | none => (fx, m, true)
  | some (o, wide, w) =>
    let lo : W64 := d.zeroExtend 64
    if !wide then writeMasked fx p off o w (0xFFFFFFFF) lo m
    else if off = o then
      (match writeGate m p o w with
       | .quiet_ => (fx, m, true)
       | .reject => (fx, rejectAt off m, false)
       | .go => (fx, setWriteLatch p o d m, true))
    else
      (match latchAt wl o with
       | some x => writeMasked fx p off o w (BitVec.allOnes 64) ((lo <<< 32) ||| x.zeroExtend 64) m
       | none => writeMasked fx p off o w (0xFFFFFFFF00000000) (lo <<< 32) m)

/-- An access to the window: its data, and whether a write was not ignored under R467, R469 or R470 (19 R466 to R471). In OFF
it has no effect. -/
def winAccess (fx : Fixed) (p : Path) (wr eight : Bool) (off : Nat) (data : W64) (m : Mach) : Fixed × Mach × W64 × Bool :=
  if m.life.st = .off then (fx, m, 0, true)
  else
    let rl := tget none m.regs.rlatch (pathNo p)
    let wl := tget none m.regs.wlatch (pathNo p)
    let m := clearLatches p m
    if off % (if eight then 8 else 4) ≠ 0 ∨ (eight = true ∧ p = .sideband) then
      (if wr && m.life.st = .init then (fx, m, 0, true) else (fx, rejectOnly m, 0, !wr))
    else if !eight then
      (if wr then (let (fx, m, ok) := write4 fx p off (data.extractLsb' 0 32) wl m; (fx, m, 0, ok))
       else (let (m, v) := read4 fx p off rl m; (fx, m, v.zeroExtend 64, true)))
    else match regAt off with
      | some (o, true, w) =>
        if wr then (let (fx, m, ok) := writeMasked fx p off o w (BitVec.allOnes 64) data m; (fx, m, 0, ok))
        else (fx, m, regVal fx m o, true)
      | _ =>
        if wr then
          let (fx, m, a) := write4 fx p off (data.extractLsb' 0 32) none m
          let (fx, m, b) := write4 fx p (off + 4) (data.extractLsb' 32 32) none m
          (fx, m, 0, a && b)
        else
          let (m, a) := read4 fx p off none m
          let (m, b) := read4 fx p (off + 4) none m
          (fx, m, BitVec.ofNat 64 (b.toNat * 2 ^ 32 + a.toNat), true)

/-! ### Transports -/

/-- SB_READ (02 R59, R60, R483). -/
def sbRead (fx : Fixed) (site : Byte) (rsvd : BitVec 4) (off : BitVec 16) (data : W32) (m : Mach) : Fixed × Mach :=
  if site ≠ fx.siteId ∨ m.life.st = .off then (fx, m)
  else
    let word := fun (v : W32) => BitVec.ofNat 64 (8 * 2 ^ 60 + fx.siteId.toNat * 2 ^ 52 + off.toNat * 2 ^ 32 + v.toNat)
    if rsvd ≠ 0 ∨ off.toNat % 4 ≠ 0 ∨ data ≠ 0 then (fx, emit (.sb (word 0)) (rejectOnly m))
    else
      let (fx, m, v, _) := winAccess fx .sideband false false off.toNat 0 m
      (fx, emit (.sb (word (v.extractLsb' 0 32))) m)

/-- SB_WRITE. -/
def sbWrite (fx : Fixed) (site : Byte) (rsvd : BitVec 4) (off : BitVec 16) (data : W32) (m : Mach) : Fixed × Mach :=
  if site ≠ fx.siteId ∨ m.life.st = .off then (fx, m)
  else
    let ack := emit (.sb (BitVec.ofNat 64 (9 * 2 ^ 60 + fx.siteId.toNat * 2 ^ 52 + off.toNat * 2 ^ 32)))
    if rsvd ≠ 0 ∨ off.toNat % 4 ≠ 0 then (fx, ack (rejectOnly m))
    else
      let (fx, m, _, _) := winAccess fx .sideband true false off.toNat (data.zeroExtend 64) m
      (fx, ack m)

/-- The path of a KIND 4 packet's PEER (02 R49). -/
def peerPath (peer : BitVec 16) : Option Path :=
  if peer = 0xFFFE then some .aperture else if peer = 0xFFFD then some .inband else none

/-- A KIND 4 window access and its KIND 5 answer (02 R49, R483). -/
def windowPacket (fx : Fixed) (stop : Stop) (peer : BitVec 16) (env : BitVec 44) (w0 w1 : W64) (m : Mach) : Fixed × Mach :=
  let m := count 0x040 m
  let stray := count 0x010 m
  match peerPath peer with
  | none => (fx, stray)
  | some p =>
    if fld w0 61 54 ≠ fx.siteId.toNat then (fx, stray)
    else
      let wr := bit w0 63
      let eight := bit w0 62
      let reply := fun (st : Nat) (d : W64) =>
        emit (.win stop peer (BitVec.ofNat 64 (fld w0 63 54 * 2 ^ 54 + fld w0 47 16 * 2 ^ 16 + st)) d)
      let bad := decide (env ≠ 0) || decide (fld w0 53 48 ≠ 0) || decide (fld w0 15 0 ≠ 0) || (!wr && decide (w1 ≠ 0)) ||
        (wr && !eight && decide (fld w1 63 32 ≠ 0))
      if m.life.st = .off then (fx, reply 0 0 m)
      else if bad then (fx, reply 4 0 (rejectOnly m))
      else
        let (fx, m, v, ok) := winAccess fx p wr eight (fld w0 47 32) w1 m
        (fx, reply (if ok then 0 else 4) v m)

/-- One write access that a path brings to an offset (19 R467 to R471). -/
def winWrite (fx : Fixed) (p : Path) (eight : Bool) (off : Nat) (data : W64) (m : Mach) : Fixed × Mach :=
  let (fx, m, _, _) := winAccess fx p true eight off data m
  (fx, m)

/-- A row that writes one named register. The sideband accepts four bytes at a time (19 R467), so its row of an eight-byte register
is the two writes that carry it, low half first (log 44). -/
def pathWrite (fx : Fixed) (p : Path) (eight : Bool) (off : Nat) (data : W64) (m : Mach) : Fixed × Mach :=
  if eight && p = .sideband then
    let (fx, m) := winWrite fx p false off (data &&& 0xFFFFFFFF) m
    winWrite fx p false (off + 4) (data >>> 32) m
  else winWrite fx p eight off data m

end Sys2Proof.Machine
end

