-- ==== Sys2Proof/Machine/Rings.lean ====
section
/-! DEFINITION. Command rings and the event ring at work: fetches, reply writes and event records
(03_command_channel.md R69 to R72; 19_control_window.md R475). -/

namespace Sys2Proof.Machine

/-- Address of entry i of a ring's command buffer, and of its reply buffer. -/
def entryAddr (r : Ring) (i : BitVec 16) : W64 := r.base + BitVec.ofNat 64 (64 * (i.toNat % 2 ^ r.size.toNat))
def replyAddr (r : Ring) (i : BitVec 16) : W64 := r.rbase + BitVec.ofNat 64 (32 * (i.toNat % 2 ^ r.size.toNat))

/-- A free reply entry can be reserved (03 R71). -/
def replyRoom (r : Ring) : Bool := decide ((r.rtail - r.rhead).toNat + r.reserved < 2 ^ r.size.toNat)

/-- The controller takes commands: it runs, is not paused, and start-up has reached READY (03 R95, 14 R391). -/
def controls (m : Mach) : Bool :=
  m.life.running && !m.fw.paused && !(m.life.st = .off) && !(m.life.st = .init)

/-- The ring's next entry may be fetched now (03 R71, R72, R78). -/
def mayFetch (m : Mach) (r : Ring) : Bool :=
  r.en && !r.err && !r.fetching && decide (r.head ≠ r.tail) && replyRoom r && decide (inProgress m < 64) && controls m &&
  !(m.life.st = .selftest)

/-- RING_FETCH: the entry at HEAD is read, a reply entry being reserved for it. -/
def ringFetch (fx : Fixed) (f : Bool) (m : Mach) : Mach :=
  let r := ringOf m f
  if !mayFetch m r then m
  else
    let m := setRing f { r with fetching := true, reserved := r.reserved + 1 } m
    match lineAt fx m (entryAddr r r.head) with
    | some l => doOwn fx (ownRead (.ring f) .readVol l) m
    | none => report (.fail (.ring f) 0 stMishomed) m

/-- The words of a fetched entry. -/
def entryPkt (f : Bool) (a : W64) (d : Line) : CmdPkt :=
  let w := fun (i : Nat) => d.extractLsb' ((if bit a 6 then 512 else 0) + 64 * i) 64
  ⟨.ring f, 0, w 0, w 1, w 2, w 3, w 4, w 5, w 6, w 7⟩

/-- A fetch has been answered: a command when it was answered OK, a ring error when it was not (03 R72). -/
def fetched (fx : Fixed) (f : Bool) (d : Done) (m : Mach) : Mach × Option CmdPkt :=
  let r := ringOf m f
  if !r.fetching then (m, none)
  else
    match d with
    | .read _ _ x false =>
      (setRing f { r with fetching := false, head := r.head + 1 } m, some (entryPkt f (entryAddr r r.head) x))
    | _ => (ringError fx f 2 (setRing f { r with fetching := false, reserved := r.reserved - 1 } m), none)

/-- The oldest waiting reply of a ring is written, one at a time (03 R71). -/
def pumpReply (fx : Fixed) (f : Bool) (m : Mach) : Mach :=
  let r := ringOf m f
  match r.replies with
  | [] => m
  | ws :: _ =>
    if r.writing then m
    else
      let m := setRing f { r with writing := true } m
      let a := replyAddr r r.rtail
      let off := a.toNat % 128
      match lineAt fx m a with
      | some l =>
        doOwn fx (ownWrite (.reply f) .writeThru l (BitVec.ofNat 128 ((2 ^ 32 - 1) * 2 ^ off)) (BitVec.ofNat 1024 (catWords ws * 2 ^ (8 * off)))) m
      | none => report (.fail (.reply f) 0 stMishomed) m

/-- A reply write has been answered. -/
def replied (fx : Fixed) (f : Bool) (d : Done) (m : Mach) : Mach :=
  let r := ringOf m f
  if !r.writing then m
  else
    let r := { r with writing := false, replies := r.replies.drop 1, reserved := r.reserved - 1 }
    match d with
    | .fail _ _ _ => ringError fx f 3 (setRing f r m)
    | _ => setRing f { r with rtail := r.rtail + 1 } m

/-- EVENT_RECORD_WRITE (19 R475, R476): the oldest pending record is written when the ring has room. -/
def eventWrite (fx : Fixed) (m : Mach) : Mach :=
  let q := m.evq
  match q.pend with
  | [] => m
  | e :: _ =>
    if !q.en || q.writing || decide (2 ^ q.size.toNat ≤ (q.tail - q.head).toNat) then m
    else
      let m := { m with evq := { q with writing := true } }
      let a := q.base + BitVec.ofNat 64 (16 * (q.tail.toNat % 2 ^ q.size.toNat))
      let off := a.toNat % 128
      let ws : List W64 := [BitVec.ofNat 64 (e.code.toNat * 2 ^ 56 + e.seq.toNat * 2 ^ 32 + e.cyc.toNat), e.detail]
      match lineAt fx m a with
      | some l =>
        doOwn fx (ownWrite .event .writeThru l (BitVec.ofNat 128 ((2 ^ 16 - 1) * 2 ^ off)) (BitVec.ofNat 1024 (catWords ws * 2 ^ (8 * off)))) m
      | none => report (.fail .event 0 stMishomed) m

/-- A record's write has been answered. -/
def recorded (d : Done) (m : Mach) : Mach :=
  let q := m.evq
  if !q.writing then m
  else
    match d with
    | .fail _ _ _ => { m with evq := { q with writing := false, en := false, err := true } }
    | _ => { m with evq := { q with writing := false, pend := q.pend.drop 1, tail := q.tail + 1 } }

/-- Answers to reply and record writes taken in, and the rings' next replies begun. -/
def pumpRingWrites (fx : Fixed) : Nat → Mach → Mach
  | 0, m => pumpReply fx false (pumpReply fx true m)
  | n + 1, m =>
    match takeDone (fun s => match s with | .reply _ => true | .event => true | _ => false) m with
    | (m, some d) =>
      (match d with
       | .read s _ _ _ | .write s _ | .fail s _ _ =>
         pumpRingWrites fx n (match s with | .reply f => replied fx f d m | _ => recorded d m)
       | _ => pumpRingWrites fx n m)
    | (m, none) => pumpReply fx false (pumpReply fx true m)

end Sys2Proof.Machine
end

