-- ==== Sys2Proof/Machine/Startup.lean ====
section
/-! DEFINITION. Pins, resets, the start-up phases, start-up repair and the test data registers (02_boundary.md R61 to R64;
17_startup_and_levels.md). -/

namespace Sys2Proof.Machine

/-! ### Pins and resets -/

/-- What a reset makes of everything but the fixed part (02 R61): reset values, with the pins as they are driven, what no
reset writes (the data banks, 04 R141), and the soft-repair log after a warm reset. -/
def resetMach (cold : Bool) (m : Mach) : Mach :=
  let l := m.life
  { Mach.reset with
      life := { Life.reset with
        pwrOk := l.pwrOk, coldRst := l.coldRst || cold, warmRst := l.warmRst || !cold, iso := l.iso, vddSw := l.vddSw,
        softRepair := if cold then [] else l.softRepair, fuseRepair := if cold then 0 else l.fuseRepair,
        scanEn := !cold && l.scanEn, scanned := !cold && l.scanned }
      cache := { Cache.reset with data := m.cache.data, errs := { ArrErr.none with word := m.cache.errs.word } }
      out := m.out
      freeN := m.freeN }

/-- COLD_RST_N asserted: the level and every RO/L field are cleared with the rest; the straps stay. -/
def coldReset (fx : Fixed) (m : Mach) : Fixed × Mach :=
  ({ fx with level := none, roLocked := false, procId := 0, fmapBase := 0, fmapKeep := false, fmapEn := false }, resetMach true m)

/-- WARM_RST_N asserted: while COLD_RST_N is asserted the cold reset governs and only the pin changes. -/
def warmReset (m : Mach) : Mach :=
  if m.life.coldRst then { m with life := { m.life with warmRst := true } } else resetMach false m

/-- The reset-release count runs while the supply is good and no reset is asserted (02 R62). -/
def countRelease (m : Mach) : Mach :=
  { m with life := { m.life with released := m.life.st = .off && m.life.pwrOk && !m.life.coldRst && !m.life.warmRst } }

/-- PWR_OK rises. -/
def powerGood (m : Mach) : Mach := countRelease { m with life := { m.life with pwrOk := true } }

/-- The resets are released; the switched supply is on by then (log 30). -/
def releaseReset (m : Mach) : Mach := countRelease { m with life := { m.life with coldRst := false, warmRst := false, vddSw := true } }

/-- Sixteen control cycles after the release the slice leaves OFF for INIT (02 R62); while the scan chains replace the functional paths, and
after a scan, only a cold reset lets it (17 R448). -/
def leaveOff (m : Mach) : Mach :=
  if m.life.released && !m.life.scanned && !m.life.scanEn then
    { m with life := { m.life with st := .init, phase := 0, released := false }, cyc := 16 }
  else m

/-- ISO_N is driven. -/
def driveIso (level : Bool) (m : Mach) : Mach := { m with life := { m.life with iso := !level } }

/-- The switched supply is removed (02 R56): what the switched domains hold is lost, and the key table with them when
VDD_RET is removed too. -/
def dropSupply (retToo : Bool) (m : Mach) : Mach :=
  let m := if retToo then loseKeys m else m
  { m with life := { m.life with vddSw := false }
           cache := { m.cache with tags := [], data := [], sets := m.cache.sets.map (fun x => (x.1, { x.2 with plru := 0, pin := 0 })) |>.filter (fun x => x.2 ≠ ⟨0, 0, 0⟩), errs := .none }
           dir := { m.dir with ents := [] }
           red := { m.red with acc := [] } }

/-! ### Start-up phases -/

/-- Phase 1 (17 R440): Uzober starts from bank A, and the slice enters SELFTEST. -/
def startController (m : Mach) : Mach :=
  if m.life.st = .init ∧ m.life.phase = 1 then
    { m with life := { m.life with running := true, alive := true, st := .selftest, phase := 2 } }
  else m

/-- Failing banks of a quad: those named, and those with more failing rows than spare rows. -/
def badBanks (f : BistFindings) (q : Nat) : List Nat :=
  (List.range 17).filter fun b =>
    f.banks.any (fun x => x.1.toNat = q ∧ x.2.toNat = b) || decide (8 < ((f.rows.filter fun x => x.1.toNat = q ∧ x.2.1.toNat = b).dedup).length)

/-- The active banks of a quad whose ways the march test retires (17 R443): all that fail but the first, which the spare
replaces, or all when the spare fails too. -/
def retiredBanks (f : BistFindings) (q : Nat) : List Nat :=
  let bs := badBanks f q
  let act := bs.filter (· < 16)
  if 16 ∈ bs then act else act.drop 1

/-- The march test finds nothing that cannot be repaired: retirement leaves each set at least 8 usable ways. -/
def bistRepairable (f : BistFindings) : Bool :=
  !f.unit && (List.range 4).all fun q => decide (2 * (retiredBanks f q).length ≤ 24)

/-- Phase 2 (17 R443). -/
def runBist (f : BistFindings) (m : Mach) : Mach :=
  if m.life.st = .selftest ∧ m.life.phase = 2 then
    let m := { m with life := { m.life with bistRows := f.rows, bistBanks := f.banks, bistUnit := f.unit } }
    if bistRepairable f then
      endHold { m with life := { m.life with phase := 3 }
                       cache := { m.cache with spareBad := (List.range 4).filter fun q => 16 ∈ badBanks f q } }
    else { m with life := { m.life with st := .fenced, phase := 7, fail := 3 } }
  else m

/-- A repair that the march test found counted in BOOT_STATUS (DEDUCED, log 136). -/
def countBank (m : Mach) : Mach := { m with life := { m.life with banks := if m.life.banks = 0xFF then 0xFF else m.life.banks + 1 } }
def countRow (m : Mach) : Mach := { m with life := { m.life with rows := if m.life.rows = 0xFF then 0xFF else m.life.rows + 1 } }

/-- A way retired in a set. -/
def retireWay (set way : Nat) (m : Mach) : Mach :=
  let x := setStOf m set
  putSetSt set { x with retired := x.retired ||| ((1 : W32) <<< way) } m

/-- A row remapped to a spare row: the one named while it is free, else the lowest free one (log 31). -/
def bootRow (fx : Fixed) (q b row want : Nat) (m : Mach) : Mach :=
  let used := (m.cache.rowMap.filter (·.1 = q * 17 + b)).map (·.2.2)
  let has := m.cache.rowMap.any fun e => e.1 = q * 17 + b ∧ e.2.1 = row
  let pick := if want ∈ used then lowestFree used 0 8 else some want
  if b > 16 || tget 0 m.cache.spareFor q = b + 1 then logErr fx 0x31 0 (locB q b row) m
  else if has then m
  else match pick with
    | some s => { m with cache := { m.cache with rowMap := m.cache.rowMap ++ [(q * 17 + b, row, s)] } }
    | none => logErr fx 0x31 0 (locB q b row) m

/-- A bank's index taken by the spare. -/
def bootBank (fx : Fixed) (q b : Nat) (m : Mach) : Mach :=
  if b > 15 ∨ tget 0 m.cache.spareFor q ≠ 0 ∨ q ∈ m.cache.spareBad then logErr fx 0x31 0 (locB q b 0) m
  else
    let m := { m with cache := { m.cache with
      rowMap := m.cache.rowMap.filter (·.1 ≠ q * 17 + b)
      spareFor := tset 0 m.cache.spareFor q (b + 1) } }
    setDom (dBank q b) .frost (setDom (dBank q 16) .summer m)

/-- One repair in the form of Table ECC-7 applied (17 R444). -/
def bootRepair (fx : Fixed) (w : W32) (m : Mach) : Mach :=
  let v := w.zeroExtend 64
  let q := fld v 28 27
  let b := fld v 26 22
  if !w.getLsbD 31 then m
  else match fld v 30 29 with
    | 0 => bootRow fx q b (fld v 21 11) (fld v 10 8) m
    | 1 => bootBank fx q b m
    | 2 => (List.range (fld v 11 0 + 1 - fld v 23 12)).foldl (fun m i => retireWay (fld v 23 12 + i) (fld v 28 24) m) m
    | _ => m

/-- A bank's ways retired across its quad's sets (15 R417), with a KIND 2 entry for each set and way while the log has room (log 31). -/
def retireBank (q b : Nat) (m : Mach) : Mach :=
  (List.range 1024).foldl (fun m i =>
    let set := 4 * i + q
    let w := b ^^^ (i % 16)
    let one := fun (w : Nat) (m : Mach) =>
      retireWay set w (appendRepair (BitVec.ofNat 32 (2 ^ 31 + 2 * 2 ^ 29 + w * 2 ^ 24 + set * 2 ^ 12 + set)) m)
    one (w + 16) (one w m)) m

/-- The failing banks of a quad (17 R443): the spare takes the first, if it is healthy and no earlier repair has taken it; the others are
retired. -/
def bistQuad (fx : Fixed) (f : BistFindings) (q : Nat) (m : Mach) : Mach :=
  let has := tget 0 m.cache.spareFor q
  let act := (badBanks f q).filter fun b => decide (b < 16) && decide (has ≠ b + 1)
  let free := decide (has = 0) && decide (16 ∉ badBanks f q)
  let m := match act.head? with
    | some b => if free then
        countBank (bootBank fx q b (appendRepair (BitVec.ofNat 32 (2 ^ 31 + 2 ^ 29 + q * 2 ^ 27 + b * 2 ^ 22)) m)) else m
    | none => m
  (if free then act.drop 1 else act).foldl (fun m b => countBank (retireBank q b m)) m

/-- A failing row of a bank that stays in use (17 R443): its repair is appended to the log, where none is made of it yet, and applied; one
for which no spare row is left has no effect and is logged (R444). -/
def bistRow (fx : Fixed) (f : BistFindings) (m : Mach) (x : BitVec 2 × BitVec 5 × BitVec 11) : Mach :=
  let q := x.1.toNat
  let b := x.2.1.toNat
  let row := x.2.2.toNat
  let here := m.cache.rowMap.filter (·.1 = q * 17 + b)
  if b ∈ badBanks f q ∨ here.any (·.2.1 = row) then m
  else
    let s := lowestFree (here.map (·.2.2)) 0 8
    let m := appendRepair (BitVec.ofNat 32 (2 ^ 31 + q * 2 ^ 27 + b * 2 ^ 22 + row * 2 ^ 11 + s.getD 0 * 2 ^ 8)) m
    bootRow fx q b row (s.getD 0) (if s.isSome && decide (tget 0 m.cache.spareFor q ≠ b + 1) then countRow m else m)

/-- The repairs of the march test (17 R443, R444). -/
def bistRepairs (fx : Fixed) (m : Mach) : Mach :=
  let f : BistFindings := ⟨m.life.bistRows, m.life.bistBanks, m.life.bistUnit⟩
  f.rows.dedup.foldl (bistRow fx f) ((List.range 4).foldl (fun m q => bistQuad fx f q m) m)

/-- The slice's own column is failed (17 R442): a FUSE_REPAIR of zeros holds no data (log 32). -/
def columnFailed (fx : Fixed) (m : Mach) : Bool :=
  let col := fx.siteId.toNat % 16
  !m.life.rowHealth.getLsbD col || (m.life.fuseRepair ≠ 0 && Config.fuseFailed m.life.fuseRepair) ||
  m.life.softRepair.any fun x => x.2.getLsbD 31 && decide (fld (x.2.zeroExtend 64) 30 29 = 3)

/-- The logical number assigned from ROW_HEALTH (01 R16, R17): none to the row's spare. -/
def assignLogical (fx : Fixed) (m : Mach) : Mach :=
  let s := fx.siteId.toNat
  let g := popBelow m.life.rowHealth (s % 16)
  if g < 8 then
    { m with regs := { m.regs with lv := true, logical := BitVec.ofNat 7 (s / 128 * 64 + s / 16 % 8 * 8 + g) } }
  else m

/-- Phase 4 (17 R442, R444), which starts once HOLD is clear: the site is fenced as failed, or numbered and repaired. -/
def loadRepairs (fx : Fixed) (m : Mach) : Mach :=
  if m.life.st = .selftest ∧ m.life.phase = 4 then
    if columnFailed fx m then { m with life := { m.life with st := .fenced, phase := 7, fail := 4 } }
    else
      let m := assignLogical fx m
      let m := if m.life.fuseRepair = 0 then m else (Config.fuseEntries m.life.fuseRepair).foldl (fun m w => bootRepair fx w m) m
      let m := (m.life.softRepair.map (·.2)).foldl (fun m w => bootRepair fx w m) m
      let m := bistRepairs fx m
      let m := if m.cache.sets.any fun x => x.2.retired ≠ 0 then { m with err := { m.err with degraded := true } } else m
      { m with life := { m.life with phase := 5 } }
  else m

/-- Phase 5 (04 R141, 05 R149, 17 R440): tags, per-set state, directory and stores are cleared, RETIRED and the data banks
kept, and the slice enters READY. -/
def invalidate (m : Mach) : Mach :=
  if m.life.st = .selftest ∧ m.life.phase = 5 then
    let c := m.cache
    { m with
        cache := { Cache.reset with
          data := c.data, sets := (c.sets.filter fun x => x.2.retired ≠ 0).map fun x => (x.1, ⟨0, 0, x.2.retired⟩), rowErr := c.rowErr,
          bankErr := c.bankErr, wornBanks := c.wornBanks, rowMap := c.rowMap, spareFor := c.spareFor, spareBad := c.spareBad,
          credits := c.credits, nextSeq := c.nextSeq, errs := { ArrErr.none with word := c.errs.word } }
        dir := { m.dir with ents := [], snoops := [], recalls := [], owing := [], claims := [], reclaim := none }
        red := { m.red with acc := [] }
        life := { m.life with st := .ready, phase := 6 } }
  else m

/-- SLICE_ALIVE toggles while Uzober runs (17 R440, 14 R391). -/
def toggleAlive (m : Mach) : Mach :=
  if m.life.running && !m.fw.paused then { m with life := { m.life with alive := !m.life.alive } } else m

/-- Uzober stops (16 R431). -/
def stopController (m : Mach) : Mach := { m with life := { m.life with running := false } }

/-! ### Test data registers (17 R448; 14 R377) -/

/-- FUSE_REPAIR is shifted in while COLD_RST_N is asserted. -/
def shiftFuses (bits : BitVec 2048) (m : Mach) : Mach :=
  if m.life.coldRst && !confPresent m then { m with life := { m.life with fuseRepair := bits } } else m

/-- BIST_CTL is written in OFF or FENCED: a march test runs, and changes no state. -/
def testBist (val : W32) (f : BistFindings) (m : Mach) : Mach :=
  if (m.life.st = .off || m.life.st = .fenced) && !confPresent m then
    { m with life := { m.life with bistCtl := val, bistRows := f.rows, bistBanks := f.banks, bistUnit := f.unit } }
  else m

/-- SCAN_EN is written while a reset is asserted; setting it zeroes the key table first. -/
def setScan (b : Bool) (m : Mach) : Mach :=
  if (m.life.coldRst || m.life.warmRst) && !confPresent m then
    (let m := if b then loseKeys m else m
     { m with life := { m.life with scanEn := b } })
  else m

/-- A scan chain is shifted: what comes out is not given, and every state is undefined until a cold reset; of it only BIST_CTL can be read
until then, and holds a free value (log 8). -/
def shiftChain (bits : List Bool) (m : Mach) : Mach :=
  if m.life.scanEn && !confPresent m then
    let m := emit (.scan ((List.range bits.length).map fun i => Config.freeBit (m.freeN + i))) m
    if bits.isEmpty then m
    else { m with life := { m.life with scanned := true, bistCtl := (Config.freeWord (m.freeN + bits.length)).extractLsb' 0 32 }
                  freeN := m.freeN + bits.length + 1 }
  else m

end Sys2Proof.Machine
end

