-- ==== Sys2Proof/Machine/Start.lean ====
section
/-! DEFINITION. A command's way to its start (03_command_channel.md R66 to R79, R96 to R98, R478): arrival, the checks in
their order, the wait for its turn, and the meaning its opcode selects. -/

namespace Sys2Proof.Machine

/-! ### The opcode table -/

/-- Who may send an opcode (03 Table CMD-6): any master, the pilot, the pilot or a worker with ALLOC, anybody at all. -/
inductive Issuer where
  | any | pilot | worker | all
  deriving DecidableEq, Repr

/-- An opcode's rows of Tables CMD-6, CMD-9 and CMD-10, with the bits its layout uses: OPFLAGS, then P0, P1 and on. `legal`
has bit 0 for SELFTEST, then READY, SERVICE, QUIESCED, FENCED. -/
structure OpRow where
  issuer : Issuer
  legal : BitVec 5
  names : Bool
  len : Nat
  flags : BitVec 4
  used : List W64
  deriving DecidableEq, Repr

/-- The whole of a parameter word. -/
abbrev allW : W64 := 0xFFFFFFFFFFFFFFFF
/-- A handle's bits (05 Table BERTH-1). -/
abbrev handleW : W64 := 0xF0000000003FFFFF

/-- Columns of Table CMD-9: every state; but SELFTEST; READY, SERVICE and QUIESCED; SERVICE; SERVICE and QUIESCED; READY and
QUIESCED. -/
abbrev inAll : BitVec 5 := 0b11111
abbrev inPilot : BitVec 5 := 0b11110
abbrev inThree : BitVec 5 := 0b01110
abbrev inService : BitVec 5 := 0b00100
abbrev inRun : BitVec 5 := 0b01100
abbrev inStill : BitVec 5 := 0b01010

/-- The assigned opcodes (03 Table CMD-6). A length or a layout that depends on the command is `opRow`'s. -/
def opTable : List (Nat × OpRow) :=
  [(0x00, ⟨.all, inAll, false, 0, 0, []⟩),
   (0x01, ⟨.any, inAll, false, 0, 0, []⟩),
   (0x02, ⟨.any, inPilot, false, 1, 0, [0xFFFFFFFF000000FF]⟩),
   (0x03, ⟨.pilot, inPilot, false, 0, 0, []⟩),
   (0x04, ⟨.pilot, inPilot, false, 1, 0, [0xFFFFFF]⟩),
   (0x05, ⟨.pilot, inPilot, false, 0, 0, []⟩),
   (0x06, ⟨.any, inAll, false, 0, 0, []⟩),
   (0x07, ⟨.pilot, inStill, false, 1, 0, [0xFF]⟩),
   (0x10, ⟨.pilot, inService, true, 1, 0, [0x3FF7FF]⟩),
   (0x11, ⟨.pilot, inService, true, 1, 0, [0xF]⟩),
   (0x12, ⟨.pilot, inService, true, 0, 0, []⟩),
   (0x13, ⟨.pilot, inService, true, 0, 0, []⟩),
   (0x14, ⟨.pilot, inRun, true, 0, 0, []⟩),
   (0x15, ⟨.pilot, inRun, true, 0, 0, []⟩),
   (0x16, ⟨.pilot, inRun, true, 0, 1, []⟩),
   (0x20, ⟨.worker, inService, true, 2, 0, [0xFFFFFFFF, handleW]⟩),
   (0x21, ⟨.worker, inRun, true, 1, 1, [handleW]⟩),
   (0x22, ⟨.pilot, inService, true, 2, 0, [handleW, 0xFFFFFFFF]⟩),
   (0x23, ⟨.pilot, inService, true, 2, 0, [allW, allW]⟩),
   (0x24, ⟨.pilot, inRun, true, 1, 1, [handleW]⟩),
   (0x25, ⟨.pilot, inService, true, 2, 0, [handleW, 0xFFFFFFFFFFF80000]⟩),
   (0x26, ⟨.pilot, inRun, true, 1, 0, [handleW]⟩),
   (0x27, ⟨.pilot, inService, true, 1, 0, [0xFFF]⟩)] ++
  [(0x30, ⟨.pilot, inService, true, 3, 7, [allW, allW, allW]⟩),
   (0x31, ⟨.pilot, inService, true, 4, 15, [allW, allW, allW, 0xF]⟩),
   (0x32, ⟨.pilot, inRun, false, 2, 1, [allW, allW]⟩),
   (0x33, ⟨.pilot, inRun, false, 2, 1, [allW, allW]⟩),
   (0x34, ⟨.pilot, inRun, false, 2, 1, [allW, allW]⟩),
   (0x35, ⟨.pilot, inRun, true, 2, 1, [allW, allW]⟩),
   (0x36, ⟨.pilot, inService, true, 2, 1, [allW, 0xFFFF0000007F]⟩),
   (0x37, ⟨.pilot, inService, true, 2, 1, [allW, 0xFFFF0000007F]⟩),
   (0x38, ⟨.pilot, inRun, false, 3, 0, [allW, allW, 7]⟩),
   (0x40, ⟨.pilot, inService, true, 5, 3, [0xFFFFFFF000000000, allW, allW, allW, allW]⟩),
   (0x41, ⟨.pilot, inRun, true, 1, 0, [allW]⟩),
   (0x42, ⟨.pilot, inRun, true, 1, 0, [allW]⟩),
   (0x43, ⟨.pilot, inService, true, 4, 1, [allW, allW, allW, 0xFFFFFFFF00003F3F]⟩),
   (0x44, ⟨.pilot, inService, true, 3, 7, [allW, 0xFFFFFFFFFFFFFFFC, 0xFFFFFFFF000000FF]⟩),
   (0x45, ⟨.any, inRun, false, 1, 0, [allW]⟩),
   (0x50, ⟨.pilot, inService, true, 2, 0, [allW, 0xFFFFFFFFE0000000]⟩),
   (0x51, ⟨.pilot, inRun, false, 1, 0, [allW]⟩),
   (0x52, ⟨.pilot, inRun, false, 3, 15, [allW, allW, 0xFFFFFF]⟩),
   (0x53, ⟨.any, inRun, false, 1, 0, [allW]⟩),
   (0x54, ⟨.pilot, inService, true, 1, 1, [allW]⟩),
   (0x55, ⟨.pilot, inRun, false, 1, 1, [0xFFFFFFF1]⟩)] ++
  [(0x60, ⟨.pilot, inThree, false, 1, 0, [0xFFFF070F]⟩),
   (0x61, ⟨.pilot, inService, false, 1, 0, [0x1FFF000F]⟩),
   (0x62, ⟨.pilot, inRun, false, 1, 0, [0xF]⟩),
   (0x70, ⟨.pilot, inThree, false, 1, 0, [0xFFFFFF]⟩),
   (0x71, ⟨.any, inThree, false, 0, 0, []⟩),
   (0x72, ⟨.pilot, inThree, false, 1, 0, [0xFF]⟩),
   (0x80, ⟨.pilot, inService, true, 1, 3, [0xFFFF01FF]⟩),
   (0x81, ⟨.pilot, inService, false, 1, 0, [0xFFFF01FF]⟩),
   (0x82, ⟨.pilot, inRun, false, 1, 0, [0x1FF]⟩),
   (0x83, ⟨.pilot, inRun, false, 1, 0, [0x1FF]⟩),
   (0x84, ⟨.pilot, inService, true, 1, 0, [0x1FF]⟩),
   (0x85, ⟨.pilot, inRun, false, 1, 0, [0xF]⟩),
   (0x86, ⟨.pilot, inRun, true, 0, 0, []⟩)] ++
  [(0x90, ⟨.any, inAll, false, 1, 1, [0x7FFFFFF, allW]⟩),
   (0x91, ⟨.pilot, inThree, false, 1, 0, [0xFFFF, 0x1FFFF, allW, allW]⟩),
   (0x92, ⟨.pilot, inStill, false, 3, 3, [allW, allW, allW]⟩),
   (0x93, ⟨.pilot, inRun, false, 1, 0, [0x3F]⟩),
   (0x94, ⟨.pilot, inRun, false, 2, 1, [0xFFFFFF, 0xFFFFFFFF]⟩),
   (0x95, ⟨.pilot, inRun, false, 1, 0, [0xF]⟩),
   (0x96, ⟨.pilot, inRun, false, 1, 1, [allW]⟩),
   (0x97, ⟨.pilot, inRun, false, 1, 0, [7]⟩),
   (0x98, ⟨.pilot, inThree, false, 1, 1, [1]⟩),
   (0xA0, ⟨.pilot, inThree, false, 2, 3, [0xEFFFFFFC00003FFF, 0xF]⟩),
   (0xA1, ⟨.pilot, inThree, false, 2, 0, [allW, 0xFFFFFF000000001F]⟩),
   (0xA2, ⟨.pilot, inService, true, 1, 1, [allW]⟩),
   (0xA8, ⟨.pilot, inThree, false, 1, 0, [3]⟩),
   (0xA9, ⟨.pilot, 0, false, 0, 0, []⟩),
   (0xF0, ⟨.pilot, inThree, false, 2, 0, [allW, 0xFFFFFFFF]⟩),
   (0xF1, ⟨.pilot, inThree, false, 1, 0, [1]⟩),
   (0xF2, ⟨.any, inAll, false, 0, 0, []⟩)]

/-- A row of the opcode table. -/
def rowOf? (op : Nat) : List (Nat × OpRow) → Option OpRow
  | [] => none
  | x :: t => if x.1 = op then some x.2 else rowOf? op t

/-- A command's row, with the length and the layout that the command itself selects (R478; 09 R279; 15 R406, R409). -/
def opRow (c : Rec) : Option OpRow :=
  (rowOf? c.opcode.toNat opTable).map fun r =>
    if c.opcode = 0x90 then { r with len := if 1 < fld c.pkt.p0 26 16 then 2 else 1 }
    else if c.opcode = 0x91 then { r with len := if cLen c = 4 then 4 else 1 }
    else if c.opcode = 0x44 ∧ (cFlag c 0 ∨ cFlag c 1) then { r with len := 1, used := [0xFFFF] }
    else if c.opcode = 0x98 ∧ bit c.pkt.p0 0 then { r with legal := inService }
    else r

/-! ### Checks -/

/-- Reserved bits of the address operands (01 R480): memory, tile and sync addresses. -/
def addrsOk (c : Rec) : Bool :=
  let p := c.pkt
  let sync := fun (a : W64) => decide (fld a 47 29 = 0)
  match c.opcode.toNat with
  | 0x23 | 0x32 | 0x33 | 0x34 | 0x35 | 0x36 | 0x37 | 0xA1 | 0xA2 | 0xF0 => memRsvOk p.p0
  | 0x30 | 0x31 => (cFlag c 0 || memRsvOk p.p0) && (cFlag c 1 || memRsvOk p.p1)
  | 0x40 => (cFlag c 1 || (memRsvOk p.p1 && memRsvOk p.p2)) && memRsvOk p.p4
  | 0x41 | 0x42 | 0x45 => tileRsvOk p.p0
  | 0x43 => tileRsvOk p.p0 && tileRsvOk p.p1 && tileRsvOk p.p2
  | 0x44 => cFlag c 0 || cFlag c 1 || memRsvOk p.p0
  | 0x51 | 0x52 | 0x53 | 0x54 => sync p.p0
  | 0x90 => decide (cLen c < 2) || memRsvOk p.p1
  | 0x91 => decide (cLen c < 4) || memRsvOk p.p2
  | 0x96 => cFlag c 0 || memRsvOk p.p0
  | _ => true

/-- Every parameter word keeps to its layout: the words of a list of masks first, and zero after them (R73). -/
def paramsOk : List W64 → List W64 → Bool
  | _, [] => true
  | [], p :: t => decide (p = 0) && paramsOk [] t
  | u :: us, p :: t => decide (p &&& ~~~u = 0) && paramsOk us t

/-- Step 2 of R76: bits only. -/
def bitsOk (c : Rec) (r : OpRow) : Bool :=
  decide (c.pkt.env = 0) && decide (fld c.pkt.w0 63 36 = 0) && decide (fld c.pkt.w0 11 10 = 0) &&
  decide (fld c.pkt.w1 47 21 = 0) && decide (cFlags c &&& (15 - r.flags.toNat) = 0) && decide (cLen c = r.len) &&
  paramsOk (r.used.take r.len) (params c) && addrsOk c

/-- Step 3 of R76: authority. -/
def authority (m : Mach) (c : Rec) (r : OpRow) : Option Nat :=
  let e := ctxOf m (cCtx c)
  if isWorker c then
    (match r.issuer with
     | .all => none
     | .worker => if cCtxv c && e.opened && e.gen = cGen c && !e.perm.getLsbD 6 then some csDenied else none
     | _ => some csDenied)
  else if m.pilot.master = c.master then none
  else match r.issuer with
    | .all => none
    | .any => if c.opcode = 0x90 && cFlag c 0 then some csNotPilot else none
    | _ => some csNotPilot

/-- Column of Table CMD-9 that judges legality (R96, R97). -/
def stateCol (m : Mach) : Option Nat :=
  match effState m with
  | .selftest => some 0
  | .ready => some 1
  | .service => some 2
  | .degraded => some 2
  | .quiesced => some 3
  | .fenced => some 4
  | _ => none

/-- Commands that DEBUG refuses in addition (R97). -/
def debugBars (c : Rec) : Bool :=
  decide (c.opcode ∈ ([0x07, 0xA8, 0xF1, 0x80, 0x81, 0x84] : List (BitVec 8))) || (c.opcode = 0x98 && bit c.pkt.p0 0) ||
  (c.opcode = 0x10 && bit c.pkt.p0 21)

/-- Step 4 of R76: legal in the present state. DEGRADED with FATAL set is left by SLICE_FENCE mode 0 alone (R95). -/
def legalNow (m : Mach) (c : Rec) (r : OpRow) : Bool :=
  if m.life.st = .degraded && m.err.fatal && ((c.opcode = 0x98 && bit c.pkt.p0 0) || c.opcode = 0xA8) then false
  else if m.life.st = .debug then c.opcode = 0xA9 || (!debugBars c && (stateCol m).any fun k => r.legal.getLsbD k)
  else (stateCol m).any fun k => r.legal.getLsbD k

/-- Step 5 of R76: the level has the opcode and what it names (00 R4; 03 R99; 07 Table RED-6; 08 R247). -/
def levelHas (fx : Fixed) (c : Rec) : Bool :=
  match c.opcode.toNat with
  | 0x07 => decide (fld c.pkt.p0 7 0 ≤ 3)
  | 0x36 | 0x37 => decide (3 ≤ levelNum fx)
  | 0x40 => decide (rLevel (fld c.pkt.p0 43 40) ≤ levelNum fx)
  | 0x43 => decide (3 ≤ levelNum fx) || !towAbroad fx c
  | _ => true

/-- The first of an opcode's own checks: the context it names (R74; 15 R400; 16 R429, R432). -/
def ctxStop (m : Mach) (c : Rec) (r : OpRow) : Option Nat :=
  let e := ctxOf m (cCtx c)
  let op := c.opcode
  if !r.names then (if cCtxv c || cCtx c ≠ 0 || cGen c ≠ 0 then some csBadParam else none)
  else if !cCtxv c then some csBadParam
  else if op = 0x10 then none
  else if !e.opened || (e.gen ≠ cGen c && !(e.lost && (op = 0x14 || op = 0x15))) then some csGone
  else if e.purged && !(op = 0x14 || op = 0x15 || op = 0x86 || (op = 0x16 && cFlag c 0)) then some csGone
  else if e.frozen && !(op = 0x14 || op = 0x16) then some csBusy
  else none

/-- What stops a command before its opcode's own checks, with its result words (R76, R98); its row when nothing does. -/
def startStop (fx : Fixed) (m : Mach) (c : Rec) : Option (Nat × List W64) :=
  match opRow c with
  | none => some (csBadOpcode, [])
  | some r =>
    if !bitsOk c r then some (csBadParam, [])
    else match authority m c r with
      | some s => some (s, [])
      | none =>
        if !legalNow m c r then some (csBadState, [stateWord fx m])
        else if !levelHas fx c then some (csLevel, [])
        else (ctxStop m c r).map fun s => (s, [])

/-! ### What a command waits for as it starts -/

/-- A command that the first of its opcode's own checks refuses with MISHOMED: nothing is asked for on its account (01 R480). -/
def foreign (fx : Fixed) (m : Mach) (c : Rec) : Bool :=
  let p := c.pkt
  match c.opcode.toNat with
  | 0x40 => !m.regs.lv || (cFlag c 1 && (!berthHome fx m p.p1 || (p.p2 ≠ 0 && !berthHome fx m p.p2)))
  | 0x41 | 0x42 | 0x43 | 0x45 => !berthHome fx m p.p0
  | 0x50 => !m.regs.lv
  | 0x51 | 0x52 | 0x53 | 0x54 => !syncHome fx m p.p0
  | 0x96 => cFlag c 0 && !berthHome fx m p.p0
  | _ => false

/-- Domains that a scrub of a context's storage works on: those of the lines under its slot, of its berths' granules, of its tiles, and the
sync store (14 R384; 13 R347). -/
def scrubDoms (m : Mach) (c : Ctx) : List Nat :=
  let e := ctxOf m c
  let ways := if e.keyv then keysOf m.cache.tags fun t => t.keyv && decide (t.keyslot = e.keyslot) && decide (t.v ≠ 0) else []
  let bs := keysOf m.berth.berths fun b => (b.valid || b.freeing) && decide (b.ctx = c)
  let grans := bs.flatMap fun i => (berthRun m (berthOf m i)).flatMap fun g => granuleKeys (g - 1)
  let tiles := (keysOf m.red.tiles fun t => t.valid && decide (t.ctx = c)).map (tileOf m)
  (dSync :: ((ways ++ grans).flatMap fun k => [dTag (k / 32 % 4), dWay m (k / 32) (k % 32)]) ++
    tiles.flatMap fun t => [dAcc 0, dAcc ((t.base.toNat + blockSize t - 1) / 16384)]).dedup

/-- Domains that a command's first step needs (13 R345, R351, R353): the cipher to load or change a key, the sync store, half 0 of
the accumulator store with the tile descriptors and hop records in it and the half in which a new block is to lie, the tag
quadrant and bank of a berth line, what INJECT looks at. A command that names what is not here needs none. -/
def stepDoms (fx : Fixed) (m : Mach) (c : Rec) : List Nat :=
  let p := c.pkt
  let loc := fld p.p0 63 8
  if foreign fx m c then [] else
  match c.opcode.toNat with
  | 0x10 => if bit p.p0 21 then [dCipher] else []
  | 0x80 | 0x81 | 0x82 | 0x83 => [dCipher]
  | 0x50 | 0x51 | 0x52 | 0x53 | 0x54 => [dSync]
  | 0x40 =>
    let n := blockSize (tileAsked c)
    dAcc 0 :: (match accPick m n with | some b => [dAcc ((b + n - 1) / 16384)] | none => [])
  | 0x41 | 0x42 | 0x43 | 0x45 => [dAcc 0]
  | 0x97 => if fld p.p0 2 0 = 0 && decide ((dom m dRed).season ≠ .frost) then [dAcc 0] else []
  | 0x86 => scrubDoms m (cCtx c)
  | 0xA8 => ((keysOf m.ctxs fun e => e.opened && e.conf).flatMap fun i =>
      purgeDoms m (BitVec.ofNat 12 i) ++ scrubDoms m (BitVec.ofNat 12 i)).dedup
  | 0x92 =>
    (match fld p.p0 7 0 with
     | 0 => (match locWay loc with | some x => [dWay m x.1 x.2.1] | none => [])
     | 1 => (match locWay loc with | some x => [dTag (x.1 % 4)] | none => [])
     | 2 => [dDir (loc / 16 % 4)]
     | 3 => (match locByte loc 32768 128 with | some x => [dAcc (x.1 / 16384)] | none => [])
     | 4 => [dSync]
     | _ => [])
  | 0x96 =>
    if cFlag c 0 && (berthOf m (bIdx p.p0)).valid then
      (let x := berthPlace m (berthOf m (bIdx p.p0)) (bOff p.p0); [dTag (x.1 % 4), dWay m x.1 x.2])
    else []
  | _ => []

/-- What the format map says of memory that a command writes, looked up once its own checks would let it go on (01 R32). -/
def mapLooks (fx : Fixed) (stop : Bool) (rs : List (Nat × Nat)) (m : Mach) : Mach × Option Bool :=
  if stop then (m, some false) else runsSparse fx rs m

/-- Whether memory that a command writes lies in a sparse page, as its first step needs to know (09 R273): none while a word of the
format map is read for it. -/
def readyNow (fx : Fixed) (c : Rec) (m : Mach) : Mach × Option Bool :=
  let p := c.pkt
  let range := fun (skip : Bool) (a : W64) (n : Nat) => mapLooks fx (skip || !rangeHomed fx m a n) (rangeRuns fx m a n) m
  match c.opcode.toNat with
  | 0x30 | 0x31 => mapLooks fx (copyStop fx m c false).isSome (copyDst fx m c) m
  | 0x35 => mapLooks fx (rangeStop fx m c false).isSome (rangeRuns fx m p.p0 (min p.p1.toNat (2 ^ 35))) m
  | 0x41 => mapLooks fx (closeStop fx m c false).isSome (tileWrites fx m (tileOf m (tIdx p.p0))) m
  | 0x90 => range (decide (fld p.p0 26 16 ≤ 1)) p.p1 (fld p.p0 26 16 * 16)
  | 0x96 => range (cFlag c 0) p.p0 128
  | 0xA1 => range false p.p0 (256 * 2 ^ fld p.p1 4 0)
  | 0xA2 => range (cFlag c 0) p.p0 256
  | _ => (m, some false)

/-! ### The meanings by opcode -/

/-- Commands 0x00 to 0x1F. -/
def startLow (fx : Fixed) (c : Rec) (m : Mach) : Mach :=
  match c.opcode.toNat with
  | 0x00 => cmdNop fx c m
  | 0x01 => cmdIdentify fx c m
  | 0x02 => cmdPilotClaim fx c m
  | 0x03 => cmdPilotRelease fx c m
  | 0x04 => cmdPilotHandover fx c m
  | 0x05 => cmdLeaseRenew fx c m
  | 0x06 => cmdStateQuery fx c m
  | 0x07 => cmdLevelLock fx c m
  | 0x10 => cmdCtxOpen fx c m
  | 0x11 => cmdCtxSetClass fx c m
  | 0x12 => cmdCtxSuspend fx c m
  | 0x13 => cmdCtxResume fx c m
  | 0x14 => cmdCtxPurge fx c m
  | 0x15 => cmdCtxClose fx c m
  | _ => if cFlag c 0 then cmdQuarantineRelease fx c m else cmdQuarantine fx c m

/-- Commands 0x20 to 0x3F. -/
def startAlloc (fx : Fixed) (c : Rec) (sparse : Bool) (m : Mach) : Mach :=
  match c.opcode.toNat with
  | 0x20 => if c.pkt.p1 = 0 then cmdBerthAlloc fx c m else cmdObjAlloc fx c m
  | 0x21 =>
    if hKind c.pkt.p0 = 2 then cmdObjFree fx c m
    else if cFlag c 0 then cmdBerthAbort fx c m
    else cmdBerthFree fx c m
  | 0x22 => cmdBerthResize fx c m
  | 0x23 => cmdArenaGrant fx c m
  | 0x24 => cmdArenaRevoke fx c m
  | 0x25 => cmdQueueCreate fx c m
  | 0x26 => cmdQueueDestroy fx c m
  | 0x27 => cmdPinBudget fx c m
  | 0x30 => cmdCopy fx c sparse m
  | 0x31 => cmdCopyMeasure fx c sparse m
  | 0x32 => cmdRangeClean fx c m
  | 0x33 => cmdRangeInval fx c m
  | 0x34 => cmdRangeFlush fx c m
  | 0x35 => cmdRangeZero fx c sparse m
  | 0x36 => cmdSparsePack fx c m
  | 0x37 => cmdSparseUnpack fx c m
  | _ => cmdSweep fx c m

/-- Commands 0x40 to 0x7F. -/
def startObjects (fx : Fixed) (c : Rec) (sparse : Bool) (m : Mach) : Mach :=
  match c.opcode.toNat with
  | 0x40 => cmdTileOpen fx c m
  | 0x41 => cmdTileClose fx c sparse m
  | 0x42 => cmdTileDiscard fx c m
  | 0x43 => if cFlag c 0 then cmdTowRelease fx c m else cmdTowSet fx c m
  | 0x44 => if cFlag c 0 then cmdScatRelease fx c m else if cFlag c 1 then cmdScatQuery fx c m else cmdScatCreate fx c m
  | 0x45 => cmdTileQuery fx c m
  | 0x50 => cmdSyncCreate fx c m
  | 0x51 => cmdSyncDestroy fx c m
  | 0x52 => cmdSyncSet fx c m
  | 0x53 => cmdSyncQuery fx c m
  | 0x54 => if cFlag c 0 then cmdSyncUnshare fx c m else cmdSyncShare fx c m
  | 0x55 => cmdJamExport fx c m
  | 0x60 => cmdClassSet fx c m
  | 0x61 => cmdReserve fx c m
  | 0x62 => cmdUnreserve fx c m
  | 0x70 => cmdTolerance fx c m
  | 0x71 => cmdSeasonQuery fx c m
  | _ => cmdThawGrant fx c m

/-- Commands 0x80 and up. -/
def startHigh (fx : Fixed) (c : Rec) (sparse : Bool) (m : Mach) : Mach :=
  match c.opcode.toNat with
  | 0x80 => if cFlag c 0 then cmdKeyUnbind fx c m else cmdKeyBind fx c m
  | 0x81 => cmdKeyRotate fx c m
  | 0x82 => cmdKeyRetire fx c m
  | 0x83 => cmdKeyErase fx c m
  | 0x84 => cmdConfAttach fx c m
  | 0x85 => cmdMeasureRead fx c m
  | 0x86 => cmdScrubContext fx c m
  | 0x90 => cmdErrlogRead fx c sparse m
  | 0x91 => cmdScrubRate fx c m
  | 0x92 => cmdInject fx c m
  | 0x93 => cmdBankSpare fx c m
  | 0x94 => if cFlag c 0 then cmdWayRestore fx c m else cmdWayDisable fx c m
  | 0x95 => cmdReclaim fx c m
  | 0x96 => cmdPoisonClear fx c sparse m
  | 0x97 => cmdEngineReset fx c m
  | 0x98 => if bit c.pkt.p0 0 then cmdFence1 fx c m else cmdFence0 fx c m
  | 0xA0 => cmdPmcConfig fx c m
  | 0xA1 => cmdPmcDumpSet fx c sparse m
  | 0xA2 => cmdPmcPermit fx c sparse m
  | 0xA8 => cmdDebugOpen fx c m
  | 0xA9 => cmdDebugClose fx c m
  | 0xF0 => cmdFwStage fx c m
  | 0xF1 => cmdFwActivate fx c m
  | _ => cmdFwQuery fx c m

/-- What an assigned opcode does once its command may start. -/
def startCmd (fx : Fixed) (c : Rec) (sparse : Bool) (m : Mach) : Mach :=
  if c.opcode.toNat < 0x20 then startLow fx c m
  else if c.opcode.toNat < 0x40 then startAlloc fx c sparse m
  else if c.opcode.toNat < 0x80 then startObjects fx c sparse m
  else startHigh fx c sparse m

/-! ### Turns (R79) -/

/-- The order of commands that reached the controller in one cycle (R79): sideband, VC2 from the fabric manager, fabric ring, VC2
from the host driver, host ring, workers. -/
def pathRank (p : CmdPath) : Nat :=
  match p with
  | .sideband => 0
  | .vc2 _ peer => if peer = 0xFFFD then 1 else if peer = 0xFFFE then 3 else 5
  | .ring fabric => if fabric then 2 else 4

/-- A command reached the controller before another one (R79, log 95). -/
def cameFirst (a b : Rec) : Bool :=
  let ka := pathRank a.pkt.path
  let kb := pathRank b.pkt.path
  decide (a.cyc < b.cyc) || (decide (a.cyc = b.cyc) && (decide (ka < kb) || (decide (ka = kb) && decide (a.id ≤ b.id))))

/-- The heads of the four channels, those that began to wait first before the others. -/
def cmdHeads (m : Mach) : List Rec :=
  let hs := (List.range 4).filterMap fun k => m.cmds.waiting.find? fun c => channelOf c.pkt.path = k
  sortBy (fun a b => decide (a.wait ≤ b.wait)) (hs.filter (·.wait ≠ 0)) ++ sortBy cameFirst (hs.filter (·.wait = 0))

/-- The commands that do not wait for earlier ones, but cancel them. -/
def cancels (c : Rec) : Bool := c.opcode = 0x14 || (c.opcode = 0x21 && cFlag c 0)

/-- A head must wait: for every earlier command of its channel when ORDERED, for earlier commands on what it names. -/
def mustWait (fx : Fixed) (m : Mach) (c : Rec) : Bool :=
  (cOrdered c && m.cmds.running.any fun r => channelOf r.cmd.pkt.path = channelOf c.pkt.path) ||
  (!cancels c && ((m.cmds.running.any fun r => meets fx m r.cmd c) ||
    (m.cmds.waiting.any fun w => w.wait ≠ 0 && w.id ≠ c.id && (c.wait = 0 || decide (w.wait < c.wait)) && meets fx m w c)))

/-- A head that could not start has begun to wait. -/
def beginWait (c : Rec) (m : Mach) : Mach :=
  if c.wait ≠ 0 then m
  else { m with cmds := { m.cmds with
    waiting := m.cmds.waiting.map (fun w => if w.id = c.id then { w with wait := m.cmds.nextWait } else w)
    nextWait := m.cmds.nextWait + 1 } }

/-- A command leaves those that wait. -/
def unwait (c : Rec) (m : Mach) : Mach := { m with cmds := { m.cmds with waiting := m.cmds.waiting.filter (·.id ≠ c.id) } }

/-- A head starts if it may: it is refused, or its first step is made; else it waits for its turn. One whose first step finds a domain
asleep or needs a word of the format map has started all the same; a wait for a thaw is counted (13 R353). -/
def tryStart (fx : Fixed) (c : Rec) (m : Mach) : Mach × Bool :=
  if mustWait fx m c then (beginWait c m, false)
  else match startStop fx m c with
    | some (s, res) => (complete fx c s res (unwait c m), true)
    | none =>
      let (m, ok) := needDoms (stepDoms fx m c) m
      if !ok then (runOn c .first (count 0x01E (unwait c m)), true) else
      match readyNow fx c m with
      | (m, none) => (runOn c .first (unwait c m), true)
      | (m, some sparse) => (startCmd fx c sparse (unwait c m), true)

/-- A command that runs no longer by what it had begun. -/
def unrun (c : Rec) (m : Mach) : Mach := { m with cmds := { m.cmds with running := m.cmds.running.filter (·.cmd.id ≠ c.id) } }

/-- The first step of a command that has started is made, once what it waited for is there. -/
def pumpFirst (fx : Fixed) (c : Rec) (m : Mach) : Mach :=
  let (m, ok) := needDoms (stepDoms fx m c) m
  if !ok then m else
  match readyNow fx c m with
  | (m, none) => m
  | (m, some sparse) => startCmd fx c sparse (unrun c m)

/-- The first of some heads that may start does. -/
def startFirst (fx : Fixed) : List Rec → Mach → Mach × Bool
  | [], m => (m, false)
  | c :: t, m =>
    match tryStart fx c m with
    | (m, true) => (m, true)
    | (m, false) => startFirst fx t m

/-- Commands start while any may; `n` bounds their number. None starts between a LEVEL_LOCK's completion and the lock, which the same
step brings (17 R445). -/
def startReady (fx : Fixed) : Nat → Mach → Mach
  | 0, m => m
  | n + 1, m =>
    if m.cmds.waiting = [] || !controls m || m.life.lockTo.isSome then m
    else match startFirst fx (cmdHeads m) m with
      | (m, true) => startReady fx n m
      | (m, false) => m

/-! ### Arrival -/

/-- The command record of a packet: MASTER is the master ID of the path (R66). -/
def recOf (m : Mach) (master : BitVec 16) (p : CmdPkt) : Rec :=
  { id := m.cmds.nextId + 1, opcode := p.w0.extractLsb' 0 8, master := master, wait := 0, cyc := m.cyc
    pkt := { p with w1 := BitVec.ofNat 64 (master.toNat * 2 ^ 48 + fld p.w1 47 0) } }

/-- A packet that came by a ring. -/
def byRing (p : CmdPkt) : Bool := match p.path with | .ring _ => true | _ => false

/-- A packet taken as a command (R66, R67, R78, R95; 14 R391): hardware answers it in INIT and, but for a ring's, while the
controller is paused; a controller that has stopped takes none (log 33). -/
def takeCmd (fx : Fixed) (p : CmdPkt) (m : Mach) : Mach :=
  match masterOf p.path with
  | none => countN 0x010 (wordCtx p.w1) none 1 m
  | some master =>
    let c := recOf m master p
    let m := { m with cmds := { m.cmds with nextId := m.cmds.nextId + 1 } }
    if m.life.st = .init then sendReply c csBadState [stateWord fx m] m
    else if m.fw.paused && !byRing p then sendReply c csBusy [] m
    else if !m.life.running then m
    else if 64 ≤ inProgress m then complete fx c csBusy [] m
    else { m with cmds := { m.cmds with waiting := m.cmds.waiting ++ [c] } }

/-- A packet on a ring's path is the entry at the ring's HEAD, taken when the slice may fetch it (R71, R72; log 34). -/
def takeEntry (f : Bool) (m : Mach) : Option Mach :=
  let r := ringOf m f
  if mayFetch m r then some (setRing f { r with head := r.head + 1, reserved := r.reserved + 1 } m) else none

/-- A command arrives by its path; on VC2 its landing accepts it (02 R37). In OFF nothing is taken. -/
def arriveCmd (fx : Fixed) (p : CmdPkt) (m : Mach) : Mach :=
  if m.life.st = .off then m
  else match p.path with
    | .ring f => (match takeEntry f m with | some m => takeCmd fx p m | none => m)
    | .vc2 _ _ =>
      let ctx : Ctx := BitVec.ofNat 12 (fld p.w1 11 0)
      takeCmd fx p (countN 0x040 (if bit p.w1 20 then some ctx else none) none 1 m)
    | .sideband => takeCmd fx p m

end Sys2Proof.Machine
end

