-- ==== Sys2Proof/Machine/Landing.lean ====
section
/-! DEFINITION. The landings (02_boundary.md R38, R40; 04_cache.md R118; 11_host_coherence.md R306, R308): a request that
arrives is served at the head of its landing, or stays there with what follows it in its channel. -/

namespace Sys2Proof.Machine

/-- A data-plane request at the head of its landing: served, or it stays. -/
def serveDp (fx : Fixed) (op : BitVec 6) (r : Req) (t : Option Taken) (m : Mach) : Mach × Bool :=
  if op = opPFHINT then (serveHint fx r m, true)
  else if op = opSIGNAL ∨ op = opWAIT then (serveSync fx op r m, true)
  else if op = opTCONTRIB ∨ op = opTCONTRIBW ∨ op = opTFOLD then serveTile fx op r m
  else if op = opBRD ∨ op = opBWR then serveBerth fx op r m
  else if op = opQENQ ∨ op = opQDEQ then serveFerry fx op r m
  else if op ∈ dpOps then (match serveMem fx op r t m with | some m => (m, true) | none => (m, false))
  else (serveUnassigned fx op r m, true)

/-- A host request that the slice handles (11 Tables COH-1, COH-2). -/
def hostHandled (cls msg : BitVec 4) : Bool :=
  (cls = 0 && decide (msg ∈ ([0, 1, 2, 6, 7] : List (BitVec 4)))) || (cls = 1 && decide (msg ∈ ([0, 1] : List (BitVec 4))))

/-- A host message at the head of its landing: served, or it stays. MemSpecRd is not answered (11 R308) but by a fenced slice
(01 R33); a BIConflict that matched no snoop as it came is answered in the order of its channel (11 Table COH-7). -/
def serveMsg (fx : Fixed) (cls msg : BitVec 4) (h : HostMsg) (t : Option Taken) (m : Mach) : Mach × Bool :=
  if cls = 0 ∧ msg = 5 then (if hostFields h && !fencedLike m then m else serveRefused fx h m, true)
  else if cls = 0 ∧ msg = 8 then (serveConflict fx h m, true)
  else if hostHandled cls msg then (match serveHost fx cls msg h t m with | some m => (m, true) | none => (m, false))
  else (serveRefused fx h m, true)

/-- A request at the head of its landing. -/
def serveHeld (fx : Fixed) (h : Held) (m : Mach) : Mach × Bool :=
  match h with
  | .dp op r t => serveDp fx op r t m
  | .host cls msg h t => serveMsg fx cls msg h t m

/-- The channel of a request at its stop: VC0, a host's among them (11 Table COH-1), or VC2. -/
def heldKey : Held → Nat
  | .dp _ r _ => if r.vc = .vc0 then 0 else 1
  | .host _ _ _ _ => 0

/-- Entries that a landing gives a channel (02 R37). -/
def heldCap (k : Nat) : Nat := if k = 0 then 224 else 32

/-- Requests held at a stop's landings. -/
def heldAt (m : Mach) (st : Stop) : List Held := if st = .north then m.cache.heldN else m.cache.heldS
def setHeld (st : Stop) (hs : List Held) (m : Mach) : Mach :=
  { m with cache := if st = .north then { m.cache with heldN := hs } else { m.cache with heldS := hs } }

/-- Credits of a channel that a landing has granted and holds no packet for: one comes back as an entry is released (02 R37). -/
def landingCredits (m : Mach) (st : Stop) (k : Nat) : Nat := heldCap k - ((heldAt m st).filter fun h => heldKey h = k).length

/-- What the trace port shows of a landing acceptance in MODE 1 (18 R463; log 129). -/
def acceptWord (tc : BitVec 4) : Held → W32
  | .dp op r _ =>
    BitVec.ofNat 32 (2 ^ 31 + b2n (decide (r.stop = .south)) * 2 ^ 30 + op.toNat * 2 ^ 24 + r.ctx.toNat * 2 ^ 12 + r.tc.toNat * 2 ^ 8 +
      r.tag.toNat % 256)
  | .host cls msg h _ =>
    let f := Config.hostSample cls msg h.ctag
    BitVec.ofNat 32 (2 ^ 31 + b2n (decide (h.stop = .south)) * 2 ^ 30 + (f.extractLsb' 8 18).toNat * 2 ^ 12 + tc.toNat * 2 ^ 8 +
      (f.extractLsb' 0 8).toNat)

def heldStop : Held → Stop
  | .dp _ r _ => r.stop
  | .host _ _ h _ => h.stop

/-- The acceptance in the trace port's record of its cycle: the first of its stop. -/
def traceAccept (st : Stop) (w : W32) (t : TraceCyc) : TraceCyc :=
  if st = .north then { t with north := some (t.north.getD w) } else { t with south := some (t.south.getD w) }

/-- The landing's acceptance counted (18 Table PMC-2, ACCEPT). -/
def countAccept (h : Held) (m : Mach) : Mach :=
  let m := match h with
    | .dp _ r _ => countR 0x040 r m
    | .host _ _ _ _ => countN 0x040 none (some m.regs.hostTc) 1 m
  if m.dbg.trace then { m with pmc := noteTrace m.cyc (traceAccept (heldStop h) (acceptWord m.regs.hostTc h)) m.pmc } else m

/-- What a request kept of its acceptance, where it was held. -/
def heldTaken : Held → Option Taken
  | .dp _ _ t => t
  | .host _ _ _ t => t
def heldAge (h : Held) : Nat := ((heldTaken h).map (·.age)).getD 0

/-- A request that stays: it keeps what 04 R143 has it keep, and its age. -/
def keepHeld (st : Stop) (h : Held) (m : Mach) : Mach :=
  let t := some (taken m)
  let h := match h with | .dp op r _ => Held.dp op r t | .host cls msg x _ => Held.host cls msg x t
  nextPlace (setHeld st (heldAt m st ++ [h]) m)

/-- The line that a held request is bound for: a line of memory, or one of a berth (true). The others take no place in an issue
window: they are for no quad, or are refused. -/
def boundFor (fx : Fixed) (m : Mach) : Held → Option (Bool × LineNo)
  | .dp op r _ =>
    if op = opBRD ∨ op = opBWR then (match berthLook m r with | .inr (set, way) => some (true, berthKey set way) | .inl _ => none)
    else if op ∈ dpOps ∧ op ∉ [opPFHINT, opSIGNAL, opWAIT, opTCONTRIB, opTCONTRIBW, opTFOLD, opQENQ, opQDEQ] then
      (match memHome fx m r.address with | .at off => some (false, lineOfOff off) | _ => none)
    else none
  | .host cls msg h _ =>
    if hostHandled cls msg then (match memHome fx m h.address with | .at off => some (false, lineOfOff off) | _ => none) else none

/-- The requests in a stop's issue windows, 16 of each quad, oldest first (12 R335); `stuck` are the channels with a request that
has found no place, `qs` the quads of those before. What stands behind such a request has not entered the pipelines (02 R39). -/
def windowed (fx : Fixed) (m : Mach) : List Held → List Nat → List Nat → List Held
  | [], _, _ => []
  | h :: t, stuck, qs =>
    if heldKey h ∈ stuck then windowed fx m t stuck qs
    else match boundFor fx m h with
      | none => windowed fx m t (heldKey h :: stuck) qs
      | some (_, l) =>
        if 16 ≤ qs.count (quadOf l) then windowed fx m t (heldKey h :: stuck) qs
        else h :: windowed fx m t stuck (quadOf l :: qs)

/-- The requests in the issue windows of both stops. -/
def inWindows (fx : Fixed) (m : Mach) : List Held :=
  windowed fx m (heldAt m .north) [] [] ++ windowed fx m (heldAt m .south) [] []

/-- Rank of a held request (12 R334): urgent, earlier deadline, level, age. -/
def heldRank (m : Mach) (h : Held) : List Nat :=
  let rank := fun (due : Option Nat) (tc : BitVec 4) => [b2n due.isNone, due.getD 0, 7 - levelOf m tc, heldAge h]
  match h with
  | .dp op r t => rank (dueOf ((t.map (·.cyc)).getD m.cyc) (.dp op r)) r.tc
  | .host _ _ _ _ => rank none m.regs.hostTc

/-- The first held request by a key. -/
def heldBest (key : Held → List Nat) : List Held → Option Held
  | [] => none
  | h :: t =>
    match heldBest key t with
    | none => some h
    | some g => if keyLt (key g) (key h) then some g else some h

/-- The requests of a stop's window for a quad that may be issued: none while an older one in any window names the same line
(12 R335), nor one that this pass has tried. -/
def eligibleHeld (fx : Fixed) (m : Mach) (st : Stop) (q : Nat) (tried : List Nat) : List Held :=
  let all := inWindows fx m
  (windowed fx m (heldAt m st) [] []).filter fun h =>
    ((boundFor fx m h).map fun x => quadOf x.2) = some q && decide (heldAge h ∉ tried) &&
    !all.any fun g => decide (heldAge g < heldAge h) && decide (boundFor fx m g = boundFor fx m h)

/-- Requests of a stop's window for a quad issued, by rank, one grant in 16 to the oldest (12 R334, R335). -/
def issueQuad (fx : Fixed) (st : Stop) (q : Nat) : Nat → List Nat → Mach → Mach
  | 0, _, m => m
  | n + 1, tried, m =>
    let key := (if st = .north then 0 else 4) + q
    let g := tget 0 m.cache.issues key
    match heldBest (if g = 15 then fun h => [heldAge h] else heldRank m) (eligibleHeld fx m st q tried) with
    | none => m
    | some h =>
      match serveHeld fx h m with
      | (m, true) =>
        let m := setHeld st ((heldAt m st).filter fun x => heldAge x ≠ heldAge h) m
        issueQuad fx st q n tried { m with cache := { m.cache with issues := tset 0 m.cache.issues key ((g + 1) % 16) } }
      | (m, false) => issueQuad fx st q n (heldAge h :: tried) m

/-- The held requests that are bound for no quad tried in the order of their channels; `stuck` are the channels that one blocks,
`qs` the quads of the requests in issue windows (02 R39). -/
def retryHeld (fx : Fixed) : List Held → List Nat → List Nat → Mach → Mach × List Held
  | [], _, _, m => (m, [])
  | h :: t, stuck, qs, m =>
    if heldKey h ∈ stuck then (let (m, rest) := retryHeld fx t stuck qs m; (m, h :: rest))
    else match boundFor fx m h with
      | some (_, l) =>
        let stuck := if 16 ≤ qs.count (quadOf l) then heldKey h :: stuck else stuck
        let (m, rest) := retryHeld fx t stuck (quadOf l :: qs) m
        (m, h :: rest)
      | none =>
        match serveHeld fx h m with
        | (m, true) => retryHeld fx t stuck qs m
        | (m, false) => let (m, rest) := retryHeld fx t (heldKey h :: stuck) qs m; (m, h :: rest)

/-- The requests held at a stop tried. -/
def pumpStop (fx : Fixed) (st : Stop) (m : Mach) : Mach :=
  let (m, rest) := retryHeld fx (heldAt m st) [] [] (setHeld st [] m)
  let m := setHeld st (rest ++ heldAt m st) m
  (List.range 4).foldl (fun m q => issueQuad fx st q 32 [] m) m

/-- The requests held at both stops tried. -/
def pumpHeld (fx : Fixed) (m : Mach) : Mach := pumpStop fx .south (pumpStop fx .north m)

/-- A request cannot be served as it comes: one of its channel is held at its stop, or one in an issue window names its line. -/
def comesBehind (fx : Fixed) (st : Stop) (h : Held) (m : Mach) : Bool :=
  ((heldAt m st).any fun x => heldKey x = heldKey h) ||
  ((boundFor fx m h).isSome && (inWindows fx m).any fun g => decide (boundFor fx m g = boundFor fx m h))

/-- A request arrives at a stop's landing: behind one of its channel or its line it waits (02 R39, 12 R335). While its channel has
no credit its router holds it: it has not arrived yet, and nothing changes (02 R38; log 104). -/
def arrive (fx : Fixed) (st : Stop) (h : Held) (m : Mach) : Mach :=
  if landingCredits m st (heldKey h) = 0 then m else
  let m := countAccept h m
  if comesBehind fx st h m then keepHeld st h m
  else match serveHeld fx h m with
    | (m, true) => m
    | (m, false) => keepHeld st h m

/-- A data-plane request comes to the slice; with the HOLD strap a clamped landing leaves it at its router (02 R64). -/
def arriveDp (fx : Fixed) (op : BitVec 6) (r : Req) (m : Mach) : Mach :=
  if heldByStrap fx r.vc m then m else arrive fx r.stop (.dp op r none) m

/-- A BIConflict has its snoop outstanding, and is answered at once (11 Table COH-7). -/
def conflictHit (fx : Fixed) (h : HostMsg) (m : Mach) : Bool :=
  match memHome fx m h.address with
  | .at off => m.dir.snoops.any fun s => s.line = lineOfOff off && s.half = hostHalf h && s.agent = h.agent
  | _ => false

/-- A host message that asks something comes to the slice (11 R306 to R310); a BIConflict takes a landing credit, and passes what
is held when its snoop is outstanding. -/
def arriveHost (fx : Fixed) (cls msg : BitVec 4) (h : HostMsg) (m : Mach) : Mach :=
  if heldByStrap fx .vc0 m then m
  else if !h.rightChannel then (if landingClamped m then m else hostStray fx h m)
  else if cls = 0 ∧ msg = 8 ∧ conflictHit fx h m = true ∧ landingCredits m h.stop 0 ≠ 0 then
    serveConflict fx h (countAccept (.host cls msg h none) m)
  else arrive fx h.stop (.host cls msg h none) m

end Sys2Proof.Machine
end

