-- ==== Sys2Proof/Machine/Settle.lean ====
section
/-! DEFINITION. What follows a command at once (spec/95_what_each_step_holds.md): the accesses, walks, commands and
held requests that it lets go on, until nothing more can be done or a bound is reached (log 1). -/

namespace Sys2Proof.Machine

/-- Writes through to memory whose acknowledgement no longer has to come: their requests are answered. -/
def finishAcks : List Done → Mach → Mach
  | [], m => m
  | .ack (.thruHit _ _ a) _ :: t, m => finishAcks t (finishThru a m)
  | .ack (.thruMiss a) _ :: t, m => finishAcks t (finishThru a m)
  | .ack (.merge a) _ :: t, m => finishAcks t (finishThru a m)
  | _ :: t, m => finishAcks t m

/-- An acknowledgement of a request's own write. -/
def isThruAck (d : Done) : Bool :=
  match d with
  | .ack (.thruHit _ _ _) _ | .ack (.thruMiss _) _ | .ack (.merge _) _ => true
  | _ => false

/-- They are taken from what has come in. -/
def pumpAcks (m : Mach) : Mach :=
  finishAcks (m.cache.done.filter isThruAck) { m with cache := { m.cache with done := m.cache.done.filter fun d => !isThruAck d } }

/-- Reads of berth lines from their sources, begun and taken in (15 R398). -/
def endReloads (fx : Fixed) : Nat → Mach → Mach
  | 0, m => m
  | n + 1, m =>
    match takeDone (fun s => match s with | .reload _ => true | _ => false) m with
    | (m, some (.read (.reload k) _ d p)) => endReloads fx n (finishReload fx k d p m)
    | (m, some (.fail (.reload k) _ _)) => endReloads fx n (finishReload fx k 0 true m)
    | (m, some _) => endReloads fx n m
    | (m, none) => m
def pumpReloads (fx : Fixed) (m : Mach) : Mach :=
  let m := (m.berth.reloads.filter fun r => !r.busy).foldl (fun m r => tryReload fx r m) m
  endReloads fx m.cache.done.length m

/-- Bias lines and drain writes taken in. -/
def pumpDrains (fx : Fixed) : Nat → Mach → Mach
  | 0, m => m
  | n + 1, m =>
    match takeDone (fun s => match s with | .bias _ => true | .drain _ => true | _ => false) m with
    | (m, some d) =>
      (match d with
       | .read (.bias t) _ _ _ | .read (.drain t) _ _ _ | .write (.drain t) _ | .write (.bias t) _
       | .fail (.bias t) _ _ | .fail (.drain t) _ _ => pumpDrains fx n (drainDone fx t.toNat d m)
       | _ => pumpDrains fx n m)
    | (m, none) => m

/-- One running command carried on. -/
def pumpRun (fx : Fixed) (run : Run) (m : Mach) : Mach :=
  let c := run.cmd
  match run.prog with
  | .first => pumpFirst fx c m
  | .purge cancelled objs => pumpPurge fx c cancelled objs m
  | .lock next acked =>
    let (m, n) := takeAcks c.id m
    let m := pumpLock fx c 8192 next (acked + n) m
    (match m.cmds.running.find? (·.cmd.id = c.id) with
     | some ⟨_, .lock next acked⟩ => if 8192 ≤ next ∧ 8192 ≤ acked then finishLock fx c m else m
     | _ => m)
  | .close p =>
    let m := pumpClose fx run p m
    (match m.cmds.running.find? (·.cmd.id = c.id) with
     | some ⟨c, .close p⟩ => endClose fx ⟨c, .close p⟩ p m
     | _ => m)
  | .fence p => pumpFence fx c p m
  | .quarantine _ => pumpQuarantine fx c m
  | .latency prev ds n => pumpLatency fx c prev ds n m
  | .stage b lines got none from_ => pumpStage fx c b lines got from_ m
  | .activate b false _ => pumpActivate c b false m
  | .errlog left n eat => pumpErrlog fx c left n eat m
  | .poison l was filled bad => pumpClear fx c l was filled bad m
  | .inject l flip asked => pumpInject fx c l flip asked m
  | .drainRefs n => if c.opcode = 0x44 then pumpScat fx c m else if c.opcode = 0x42 then pumpDiscard fx c m
    else if c.opcode = 0x26 then pumpQueue fx c m else pumpAbort fx c n m
  | .pin b todo => pumpPin fx c b todo m
  | _ => m

/-- The running commands carried on in the order in which they started. -/
def pumpRuns (fx : Fixed) : List Nat → Mach → Mach
  | [], m => m
  | i :: t, m =>
    match m.cmds.running.find? (·.cmd.id = i) with
    | some r => pumpRuns fx t (pumpRun fx r m)
    | none => pumpRuns fx t m

/-- A fetched ring entry is taken as a command (03 R71, R72). -/
def pumpFetch (fx : Fixed) (f : Bool) (m : Mach) : Mach :=
  match takeDone (fun s => s = .ring f) m with
  | (m, some d) =>
    (match fetched fx f d m with
     | (m, some p) => takeCmd fx p m
     | (m, none) => m)
  | (m, none) => m

/-- A command in progress, by number. -/
def runs (m : Mach) (id : Nat) : Bool := m.cmds.running.any fun r => r.cmd.id = id

/-- Somebody still waits for what an access brings. -/
def wantsSrc (m : Mach) (s : Src) : Bool :=
  match s with
  | .copyRd | .copyWr => (runningCmd m isCopyRun).isSome
  | .maint => (runningCmd m isMaintRun).isSome
  | .bias t | .drain t => (closeOf m t.toNat).isSome
  | .ring f => (ringOf m f).fetching
  | .reply f => (ringOf m f).writing
  | .event => m.evq.writing
  | .dump => decide (m.pmc.left ≠ 0)
  | .view c => m.pmc.permits.any fun p => p.ctx = c
  | .reload k => m.berth.reloads.any fun r => r.key = k
  | .cmd id => runs m id
  | _ => false

/-- What came in for nobody is dropped. -/
def tidyDone (m : Mach) : Mach :=
  let wanted := fun (d : Done) =>
    match d with
    | .read s _ _ _ | .write s _ | .fail s _ _ => wantsSrc m s
    | .ack (.cmd id) _ => runs m id
    | .ack w _ => isThruAck (.ack w 0)
    | .raw id _ _ => runs m id
  { m with cache := { m.cache with done := m.cache.done.filter wanted } }

/-- One pass over everything that may go on. -/
def settlePass (fx : Fixed) (m : Mach) : Mach :=
  let m := pumpAcks m
  let m := pumpOwn fx m
  let m := pumpReloads fx m
  let m := pumpDrains fx m.cache.done.length m
  let m := drainSync fx m
  let m := pumpSlots fx m
  let m := pumpRecalls fx m
  let m := pumpUnsent m.unsent (pumpOwing fx m.dir.owing m)
  let m := pumpHeld fx m
  let m := pumpCopy fx m
  let m := pumpMaint fx m
  let m := endSweep fx m
  let m := pumpRuns fx (m.cmds.running.map (·.cmd.id)) m
  let m := pumpFetch fx false (pumpFetch fx true m)
  let m := pumpRingWrites fx m.cache.done.length m
  let m := pumpDeferred fx (pumpRecords fx m.cache.done.length m)
  let m := stepFolds fx m
  let (m, ns) := pumpNotices m.red.notices { m with red := { m.red with notices := [] } }
  let m := { m with red := { m.red with notices := ns ++ m.red.notices } }
  let m := pumpExpired fx (stepHops fx m)
  let m := endRots fx (tidyWaits (tidyThaws (freeOrphans m)))
  let m := startReady fx m.cmds.waiting.length m
  tidyDone (pump fx m)

/-- What is under way and a pass might carry on. -/
def work (m : Mach) : Nat :=
  m.cache.done.length + m.cache.own.length + m.cache.heldN.length + m.cache.heldS.length + m.cache.writes.length +
  m.cache.tickets.length + m.berth.reloads.length + m.sync.thawQ.length + m.dir.recalls.length + m.dir.owing.length + m.cmds.waiting.length +
  m.cmds.running.length + m.ringH.replies.length + m.ringF.replies.length + m.red.folds.length + m.red.notices.length +
  m.red.hops.length + (m.sync.objs.filter fun x => x.2.orphan).length + m.season.queue.length + m.keys.rots.length +
  b2n m.ringH.fetching + b2n m.ringF.fetching + b2n m.evq.writing + m.sparse.slots.length + m.unsent.length +
  (m.sync.waits.filter (·.late)).length + m.season.asleep.length

/-- Passes while anything is under way. -/
def settleN (fx : Fixed) : Nat → Mach → Mach
  | 0, m => m
  | n + 1, m => if work m = 0 then m else settleN fx n (settlePass fx m)

/-- The block after a command: everything that may go on at once has gone on. -/
def settle (fx : Fixed) (m : Mach) : Mach := settleN fx (2 * work m + 2) m

/-- A level that a LEVEL_LOCK has chosen is fixed (03 R99). -/
def lockStep (x : Fixed × Mach) : Fixed × Mach :=
  (lockFixed x.1 x.2, { x.2 with life := { x.2.life with lockTo := none } })

/-- A level fixed on the way, and what that lets go on. -/
def lockEnd (x : Fixed × Mach) : Fixed × Mach :=
  if x.2.life.lockTo.isNone then x
  else
    let y := lockStep x
    lockStep (y.1, settle y.1 y.2)

/-- The end of a command's step: what follows at once, a level fixed on the way, and what that lets go on. -/
def finish (x : Fixed × Mach) : Fixed × Mach := lockEnd (x.1, settle x.1 x.2)

/-- A command's effect on the block, with what follows. -/
def act (s : State) (f : Fixed → Mach → Fixed × Mach) : Host.Outcome State Fault Refusal :=
  let x := finish (f s.fx s.m)
  .next { s with fx := x.1, m := x.2 }

/-- A command that leaves the fixed part alone. -/
def actM (s : State) (f : Fixed → Mach → Mach) : Host.Outcome State Fault Refusal :=
  act s fun fx m => (fx, f fx m)

/-- A timed command: the control cycle is the one it carries, or stays when that lies behind (log 9). -/
def actAt (s : State) (cyc : Nat) (f : Fixed → Mach → Mach) : Host.Outcome State Fault Refusal :=
  actM s fun fx m => f fx (advance cyc m)

end Sys2Proof.Machine
end

