-- ==== Sys2Proof/Machine/CmdRows.lean ====
section
/-! DEFINITION. Meanings of the command rows, one each: the packet arrives by its path and is checked and carried out as its opcode says
(03_command_channel.md R66 to R79, Table CMD-6); a row that is a variant of an opcode has its flag set -/

namespace Sys2Proof.Machine

/-- A packet with the opcode of its row. -/
def withOp (op : Byte) (c : CmdPkt) : CmdPkt := { c with w0 := (c.w0 &&& 0xFFFFFFFFFFFFFF00) ||| op.zeroExtend 64 }

/-- A packet with a flag of OPFLAGS set. -/
def withFlag (i : Nat) (c : CmdPkt) : CmdPkt := { c with w0 := c.w0 ||| ((1 : BitVec 64) <<< (12 + i)) }

/-- A packet with the mode of its row in P0. -/
def withMode (b : Bool) (c : CmdPkt) : CmdPkt := { c with p0 := if b then c.p0 ||| 1 else c.p0 &&& 0xFFFFFFFFFFFFFFFE }

/-- COMMAND_UNASSIGNED (03 R76). -/
def execCommandUnassigned (opcode : Byte) (c : CmdPkt) (s : State) : Host.Outcome State Fault Refusal :=
  actM s fun fx m => arriveCmd fx (withOp opcode c) m

/-- NOP (03 R76). -/
def execNop (c : CmdPkt) (s : State) : Host.Outcome State Fault Refusal :=
  actM s fun fx m => arriveCmd fx (withOp 0x00 c) m

/-- IDENTIFY (03 R83). -/
def execIdentify (c : CmdPkt) (s : State) : Host.Outcome State Fault Refusal :=
  actM s fun fx m => arriveCmd fx (withOp 0x01 c) m

/-- PILOT_CLAIM (03 R85). -/
def execPilotClaim (c : CmdPkt) (s : State) : Host.Outcome State Fault Refusal :=
  actM s fun fx m => arriveCmd fx (withOp 0x02 c) m

/-- PILOT_RELEASE (03 R87). -/
def execPilotRelease (c : CmdPkt) (s : State) : Host.Outcome State Fault Refusal :=
  actM s fun fx m => arriveCmd fx (withOp 0x03 c) m

/-- PILOT_HANDOVER (03 R86). -/
def execPilotHandover (c : CmdPkt) (s : State) : Host.Outcome State Fault Refusal :=
  actM s fun fx m => arriveCmd fx (withOp 0x04 c) m

/-- LEASE_RENEW (03 R88). -/
def execLeaseRenew (c : CmdPkt) (s : State) : Host.Outcome State Fault Refusal :=
  actM s fun fx m => arriveCmd fx (withOp 0x05 c) m

/-- STATE_QUERY (03 R84). -/
def execStateQuery (c : CmdPkt) (s : State) : Host.Outcome State Fault Refusal :=
  actM s fun fx m => arriveCmd fx (withOp 0x06 c) m

/-- LEVEL_LOCK (17 R445). -/
def execLevelLock (c : CmdPkt) (s : State) : Host.Outcome State Fault Refusal :=
  actM s fun fx m => arriveCmd fx (withOp 0x07 c) m

/-- CTX_OPEN (03 R90). -/
def execCtxOpen (c : CmdPkt) (s : State) : Host.Outcome State Fault Refusal :=
  actM s fun fx m => arriveCmd fx (withOp 0x10 c) m

/-- CTX_SET_CLASS (03 R91). -/
def execCtxSetClass (c : CmdPkt) (s : State) : Host.Outcome State Fault Refusal :=
  actM s fun fx m => arriveCmd fx (withOp 0x11 c) m

/-- CTX_SUSPEND (03 R92). -/
def execCtxSuspend (c : CmdPkt) (s : State) : Host.Outcome State Fault Refusal :=
  actM s fun fx m => arriveCmd fx (withOp 0x12 c) m

/-- CTX_RESUME (03 R92). -/
def execCtxResume (c : CmdPkt) (s : State) : Host.Outcome State Fault Refusal :=
  actM s fun fx m => arriveCmd fx (withOp 0x13 c) m

/-- CTX_PURGE (16 R426). -/
def execCtxPurge (c : CmdPkt) (s : State) : Host.Outcome State Fault Refusal :=
  actM s fun fx m => arriveCmd fx (withOp 0x14 c) m

/-- CTX_CLOSE (03 R93). -/
def execCtxClose (c : CmdPkt) (s : State) : Host.Outcome State Fault Refusal :=
  actM s fun fx m => arriveCmd fx (withOp 0x15 c) m

/-- CTX_QUARANTINE (16 R432). -/
def execCtxQuarantine (c : CmdPkt) (s : State) : Host.Outcome State Fault Refusal :=
  actM s fun fx m => arriveCmd fx (withOp 0x16 c) m

/-- CTX_QUARANTINE_RELEASE (16 R433). -/
def execCtxQuarantineRelease (c : CmdPkt) (s : State) : Host.Outcome State Fault Refusal :=
  actM s fun fx m => arriveCmd fx (withFlag 0 (withOp 0x16 c)) m

/-- BERTH_ALLOC (05 R156). -/
def execBerthAlloc (c : CmdPkt) (s : State) : Host.Outcome State Fault Refusal :=
  actM s fun fx m => arriveCmd fx (withOp 0x20 c) m

/-- ARENA_OBJECT_ALLOC (05 R164). -/
def execArenaObjectAlloc (c : CmdPkt) (s : State) : Host.Outcome State Fault Refusal :=
  actM s fun fx m => arriveCmd fx (withOp 0x20 c) m

/-- BERTH_FREE (05 R158). -/
def execBerthFree (c : CmdPkt) (s : State) : Host.Outcome State Fault Refusal :=
  actM s fun fx m => arriveCmd fx (withOp 0x21 c) m

/-- BERTH_FREE_ABORT (05 R159). -/
def execBerthFreeAbort (c : CmdPkt) (s : State) : Host.Outcome State Fault Refusal :=
  actM s fun fx m => arriveCmd fx (withFlag 0 (withOp 0x21 c)) m

/-- ARENA_OBJECT_FREE (05 R165). -/
def execArenaObjectFree (c : CmdPkt) (s : State) : Host.Outcome State Fault Refusal :=
  actM s fun fx m => arriveCmd fx (withOp 0x21 c) m

/-- BERTH_RESIZE (05 R160). -/
def execBerthResize (c : CmdPkt) (s : State) : Host.Outcome State Fault Refusal :=
  actM s fun fx m => arriveCmd fx (withOp 0x22 c) m

/-- ARENA_GRANT (05 R163). -/
def execArenaGrant (c : CmdPkt) (s : State) : Host.Outcome State Fault Refusal :=
  actM s fun fx m => arriveCmd fx (withOp 0x23 c) m

/-- ARENA_REVOKE (05 R166). -/
def execArenaRevoke (c : CmdPkt) (s : State) : Host.Outcome State Fault Refusal :=
  actM s fun fx m => arriveCmd fx (withOp 0x24 c) m

/-- QUEUE_CREATE (05 R170). -/
def execQueueCreate (c : CmdPkt) (s : State) : Host.Outcome State Fault Refusal :=
  actM s fun fx m => arriveCmd fx (withOp 0x25 c) m

/-- QUEUE_DESTROY (05 R174). -/
def execQueueDestroy (c : CmdPkt) (s : State) : Host.Outcome State Fault Refusal :=
  actM s fun fx m => arriveCmd fx (withOp 0x26 c) m

/-- PIN_BUDGET (05 R161). -/
def execPinBudget (c : CmdPkt) (s : State) : Host.Outcome State Fault Refusal :=
  actM s fun fx m => arriveCmd fx (withOp 0x27 c) m

/-- COPY (05 R168). -/
def execCopy (c : CmdPkt) (s : State) : Host.Outcome State Fault Refusal :=
  actM s fun fx m => arriveCmd fx (withOp 0x30 c) m

/-- COPY_MEASURE (14 R379). -/
def execCopyMeasure (c : CmdPkt) (s : State) : Host.Outcome State Fault Refusal :=
  actM s fun fx m => arriveCmd fx (withOp 0x31 c) m

/-- RANGE_CLEAN (04 R137). -/
def execRangeClean (c : CmdPkt) (s : State) : Host.Outcome State Fault Refusal :=
  actM s fun fx m => arriveCmd fx (withOp 0x32 c) m

/-- RANGE_INVAL (04 R137). -/
def execRangeInval (c : CmdPkt) (s : State) : Host.Outcome State Fault Refusal :=
  actM s fun fx m => arriveCmd fx (withOp 0x33 c) m

/-- RANGE_FLUSH (04 R137). -/
def execRangeFlush (c : CmdPkt) (s : State) : Host.Outcome State Fault Refusal :=
  actM s fun fx m => arriveCmd fx (withOp 0x34 c) m

/-- RANGE_ZERO (04 R137). -/
def execRangeZero (c : CmdPkt) (s : State) : Host.Outcome State Fault Refusal :=
  actM s fun fx m => arriveCmd fx (withOp 0x35 c) m

/-- SPARSE_PACK (09 R276). -/
def execSparsePack (c : CmdPkt) (s : State) : Host.Outcome State Fault Refusal :=
  actM s fun fx m => arriveCmd fx (withOp 0x36 c) m

/-- SPARSE_UNPACK (09 R276). -/
def execSparseUnpack (c : CmdPkt) (s : State) : Host.Outcome State Fault Refusal :=
  actM s fun fx m => arriveCmd fx (withOp 0x37 c) m

/-- ACQUIRE_SWEEP (10 R301). -/
def execAcquireSweep (c : CmdPkt) (s : State) : Host.Outcome State Fault Refusal :=
  actM s fun fx m => arriveCmd fx (withOp 0x38 c) m

/-- TILE_OPEN (07 R215). -/
def execTileOpen (c : CmdPkt) (s : State) : Host.Outcome State Fault Refusal :=
  actM s fun fx m => arriveCmd fx (withOp 0x40 c) m

/-- TILE_CLOSE (07 R231). -/
def execTileClose (c : CmdPkt) (s : State) : Host.Outcome State Fault Refusal :=
  actM s fun fx m => arriveCmd fx (withOp 0x41 c) m

/-- TILE_DISCARD (07 R238). -/
def execTileDiscard (c : CmdPkt) (s : State) : Host.Outcome State Fault Refusal :=
  actM s fun fx m => arriveCmd fx (withOp 0x42 c) m

/-- TOWLINE_SET (08 R247). -/
def execTowlineSet (c : CmdPkt) (s : State) : Host.Outcome State Fault Refusal :=
  actM s fun fx m => arriveCmd fx (withOp 0x43 c) m

/-- TOWLINE_RELEASE (08 R247). -/
def execTowlineRelease (c : CmdPkt) (s : State) : Host.Outcome State Fault Refusal :=
  actM s fun fx m => arriveCmd fx (withFlag 0 (withOp 0x43 c)) m

/-- SCATTER_DESC_CREATE (09 R279). -/
def execScatterDescCreate (c : CmdPkt) (s : State) : Host.Outcome State Fault Refusal :=
  actM s fun fx m => arriveCmd fx (withOp 0x44 c) m

/-- SCATTER_DESC_RELEASE (09 R284). -/
def execScatterDescRelease (c : CmdPkt) (s : State) : Host.Outcome State Fault Refusal :=
  actM s fun fx m => arriveCmd fx (withFlag 0 (withOp 0x44 c)) m

/-- SCATTER_DESC_QUERY (09 R280). -/
def execScatterDescQuery (c : CmdPkt) (s : State) : Host.Outcome State Fault Refusal :=
  actM s fun fx m => arriveCmd fx (withFlag 1 (withOp 0x44 c)) m

/-- TILE_QUERY (07 R239). -/
def execTileQuery (c : CmdPkt) (s : State) : Host.Outcome State Fault Refusal :=
  actM s fun fx m => arriveCmd fx (withOp 0x45 c) m

/-- SYNC_CREATE (06 R187). -/
def execSyncCreate (c : CmdPkt) (s : State) : Host.Outcome State Fault Refusal :=
  actM s fun fx m => arriveCmd fx (withOp 0x50 c) m

/-- SYNC_DESTROY (06 R188). -/
def execSyncDestroy (c : CmdPkt) (s : State) : Host.Outcome State Fault Refusal :=
  actM s fun fx m => arriveCmd fx (withOp 0x51 c) m

/-- SYNC_SET (06 R189). -/
def execSyncSet (c : CmdPkt) (s : State) : Host.Outcome State Fault Refusal :=
  actM s fun fx m => arriveCmd fx (withOp 0x52 c) m

/-- SYNC_QUERY (06 R189). -/
def execSyncQuery (c : CmdPkt) (s : State) : Host.Outcome State Fault Refusal :=
  actM s fun fx m => arriveCmd fx (withOp 0x53 c) m

/-- SYNC_SHARE (06 R204). -/
def execSyncShare (c : CmdPkt) (s : State) : Host.Outcome State Fault Refusal :=
  actM s fun fx m => arriveCmd fx (withOp 0x54 c) m

/-- SYNC_SHARE_REMOVE (06 R204). -/
def execSyncShareRemove (c : CmdPkt) (s : State) : Host.Outcome State Fault Refusal :=
  actM s fun fx m => arriveCmd fx (withFlag 0 (withOp 0x54 c)) m

/-- JAM_EXPORT (16 R424). -/
def execJamExport (c : CmdPkt) (s : State) : Host.Outcome State Fault Refusal :=
  actM s fun fx m => arriveCmd fx (withOp 0x55 c) m

/-- CLASS_SET (12 R329). -/
def execClassSet (c : CmdPkt) (s : State) : Host.Outcome State Fault Refusal :=
  actM s fun fx m => arriveCmd fx (withOp 0x60 c) m

/-- RESERVE_BW (12 R339). -/
def execReserveBw (c : CmdPkt) (s : State) : Host.Outcome State Fault Refusal :=
  actM s fun fx m => arriveCmd fx (withOp 0x61 c) m

/-- RELEASE_BW (12 R340). -/
def execReleaseBw (c : CmdPkt) (s : State) : Host.Outcome State Fault Refusal :=
  actM s fun fx m => arriveCmd fx (withOp 0x62 c) m

/-- LATENCY_TOLERANCE (13 R352). -/
def execLatencyTolerance (c : CmdPkt) (s : State) : Host.Outcome State Fault Refusal :=
  actM s fun fx m => arriveCmd fx (withOp 0x70 c) m

/-- SEASON_QUERY (13 R356). -/
def execSeasonQuery (c : CmdPkt) (s : State) : Host.Outcome State Fault Refusal :=
  actM s fun fx m => arriveCmd fx (withOp 0x71 c) m

/-- THAW_GRANT (13 R355). -/
def execThawGrant (c : CmdPkt) (s : State) : Host.Outcome State Fault Refusal :=
  actM s fun fx m => arriveCmd fx (withOp 0x72 c) m

/-- KEY_BIND (14 R375). -/
def execKeyBind (c : CmdPkt) (s : State) : Host.Outcome State Fault Refusal :=
  actM s fun fx m => arriveCmd fx (withOp 0x80 c) m

/-- KEY_BIND_REVOKE (14 R375). -/
def execKeyBindRevoke (c : CmdPkt) (s : State) : Host.Outcome State Fault Refusal :=
  actM s fun fx m => arriveCmd fx (withFlag 0 (withOp 0x80 c)) m

/-- KEY_ROTATE (14 R372). -/
def execKeyRotate (c : CmdPkt) (s : State) : Host.Outcome State Fault Refusal :=
  actM s fun fx m => arriveCmd fx (withOp 0x81 c) m

/-- KEY_RETIRE (14 R374). -/
def execKeyRetire (c : CmdPkt) (s : State) : Host.Outcome State Fault Refusal :=
  actM s fun fx m => arriveCmd fx (withOp 0x82 c) m

/-- KEY_ERASE (14 R382). -/
def execKeyErase (c : CmdPkt) (s : State) : Host.Outcome State Fault Refusal :=
  actM s fun fx m => arriveCmd fx (withOp 0x83 c) m

/-- CONF_ATTACH (14 R376). -/
def execConfAttach (c : CmdPkt) (s : State) : Host.Outcome State Fault Refusal :=
  actM s fun fx m => arriveCmd fx (withOp 0x84 c) m

/-- MEASURE_READ (14 R380). -/
def execMeasureRead (c : CmdPkt) (s : State) : Host.Outcome State Fault Refusal :=
  actM s fun fx m => arriveCmd fx (withOp 0x85 c) m

/-- SCRUB_CONTEXT (14 R384). -/
def execScrubContext (c : CmdPkt) (s : State) : Host.Outcome State Fault Refusal :=
  actM s fun fx m => arriveCmd fx (withOp 0x86 c) m

/-- ERRLOG_READ (15 R406). -/
def execErrlogRead (c : CmdPkt) (s : State) : Host.Outcome State Fault Refusal :=
  actM s fun fx m => arriveCmd fx (withOp 0x90 c) m

/-- SCRUB_RATE (15 R409). -/
def execScrubRate (c : CmdPkt) (s : State) : Host.Outcome State Fault Refusal :=
  actM s fun fx m => arriveCmd fx (withOp 0x91 c) m

/-- INJECT (15 R411). -/
def execInject (c : CmdPkt) (s : State) : Host.Outcome State Fault Refusal :=
  actM s fun fx m => arriveCmd fx (withOp 0x92 c) m

/-- BANK_SPARE (15 R415). -/
def execBankSpare (c : CmdPkt) (s : State) : Host.Outcome State Fault Refusal :=
  actM s fun fx m => arriveCmd fx (withOp 0x93 c) m

/-- WAY_DISABLE (15 R416). -/
def execWayDisable (c : CmdPkt) (s : State) : Host.Outcome State Fault Refusal :=
  actM s fun fx m => arriveCmd fx (withOp 0x94 c) m

/-- WAY_RESTORE (15 R416). -/
def execWayRestore (c : CmdPkt) (s : State) : Host.Outcome State Fault Refusal :=
  actM s fun fx m => arriveCmd fx (withFlag 0 (withOp 0x94 c)) m

/-- DIR_RECLAIM (11 R326). -/
def execDirReclaim (c : CmdPkt) (s : State) : Host.Outcome State Fault Refusal :=
  actM s fun fx m => arriveCmd fx (withOp 0x95 c) m

/-- POISON_CLEAR (15 R412). -/
def execPoisonClear (c : CmdPkt) (s : State) : Host.Outcome State Fault Refusal :=
  actM s fun fx m => arriveCmd fx (withOp 0x96 c) m

/-- ENGINE_RESET (16 R430). -/
def execEngineReset (c : CmdPkt) (s : State) : Host.Outcome State Fault Refusal :=
  actM s fun fx m => arriveCmd fx (withOp 0x97 c) m

/-- SLICE_FENCE_MODE0 (15 R418). -/
def execSliceFenceMode0 (c : CmdPkt) (s : State) : Host.Outcome State Fault Refusal :=
  actM s fun fx m => arriveCmd fx (withMode false (withOp 0x98 c)) m

/-- SLICE_FENCE_MODE1 (03 R100). -/
def execSliceFenceMode1 (c : CmdPkt) (s : State) : Host.Outcome State Fault Refusal :=
  actM s fun fx m => arriveCmd fx (withMode true (withOp 0x98 c)) m

/-- PMC_CONFIG (18 R454). -/
def execPmcConfig (c : CmdPkt) (s : State) : Host.Outcome State Fault Refusal :=
  actM s fun fx m => arriveCmd fx (withOp 0xA0 c) m

/-- PMC_DUMP_SET (18 R457). -/
def execPmcDumpSet (c : CmdPkt) (s : State) : Host.Outcome State Fault Refusal :=
  actM s fun fx m => arriveCmd fx (withOp 0xA1 c) m

/-- PMC_PERMIT (18 R461). -/
def execPmcPermit (c : CmdPkt) (s : State) : Host.Outcome State Fault Refusal :=
  actM s fun fx m => arriveCmd fx (withOp 0xA2 c) m

/-- DEBUG_OPEN (18 R462). -/
def execDebugOpen (c : CmdPkt) (s : State) : Host.Outcome State Fault Refusal :=
  actM s fun fx m => arriveCmd fx (withOp 0xA8 c) m

/-- DEBUG_CLOSE (18 R465). -/
def execDebugClose (c : CmdPkt) (s : State) : Host.Outcome State Fault Refusal :=
  actM s fun fx m => arriveCmd fx (withOp 0xA9 c) m

/-- FW_STAGE (14 R390). -/
def execFwStage (c : CmdPkt) (s : State) : Host.Outcome State Fault Refusal :=
  actM s fun fx m => arriveCmd fx (withOp 0xF0 c) m

/-- FW_ACTIVATE (14 R391). -/
def execFwActivate (c : CmdPkt) (s : State) : Host.Outcome State Fault Refusal :=
  actM s fun fx m => arriveCmd fx (withOp 0xF1 c) m

/-- FW_QUERY (14 R392). -/
def execFwQuery (c : CmdPkt) (s : State) : Host.Outcome State Fault Refusal :=
  actM s fun fx m => arriveCmd fx (withOp 0xF2 c) m

end Sys2Proof.Machine
end

