-- ==== Sys2Proof/Machine/DataRows.lean ====
section
/-! DEFINITION. Meanings of the data-plane rows, one each (02_boundary.md R41 to R47, 03_command_channel.md R481; the
chapters of the units that serve them). -/

namespace Sys2Proof.Machine

/-- RD (04 R112). -/
def execRd (r : Req) (s : State) : Host.Outcome State Fault Refusal := actM s fun fx m => arriveDp fx opRD r m

/-- RD_VOL (04 R112). -/
def execRdVol (r : Req) (s : State) : Host.Outcome State Fault Refusal := actM s fun fx m => arriveDp fx opRDVOL r m

/-- RD_STREAM (04 R112). -/
def execRdStream (r : Req) (s : State) : Host.Outcome State Fault Refusal := actM s fun fx m => arriveDp fx opRDSTREAM r m

/-- WR (04 R119). -/
def execWr (r : Req) (s : State) : Host.Outcome State Fault Refusal := actM s fun fx m => arriveDp fx opWR r m

/-- WR_THRU (04 R119). -/
def execWrThru (r : Req) (s : State) : Host.Outcome State Fault Refusal := actM s fun fx m => arriveDp fx opWRTHRU r m

/-- WR_FULL (04 R120). -/
def execWrFull (r : Req) (s : State) : Host.Outcome State Fault Refusal := actM s fun fx m => arriveDp fx opWRFULL r m

/-- ATOM (06 R181). -/
def execAtom (r : Req) (s : State) : Host.Outcome State Fault Refusal := actM s fun fx m => arriveDp fx opATOM r m

/-- ATOM_RET (06 R182). -/
def execAtomRet (r : Req) (s : State) : Host.Outcome State Fault Refusal := actM s fun fx m => arriveDp fx opATOMRET r m

/-- LRED (08 R259). -/
def execLred (r : Req) (s : State) : Host.Outcome State Fault Refusal := actM s fun fx m => arriveDp fx opLRED r m

/-- TCONTRIB (07 R219). -/
def execTcontrib (r : Req) (s : State) : Host.Outcome State Fault Refusal := actM s fun fx m => arriveDp fx opTCONTRIB r m

/-- TCONTRIB_W (07 R219). -/
def execTcontribW (r : Req) (s : State) : Host.Outcome State Fault Refusal := actM s fun fx m => arriveDp fx opTCONTRIBW r m

/-- TFOLD_FOLD (08 R244). -/
def execTfoldFold (r : Req) (s : State) : Host.Outcome State Fault Refusal :=
  actM s fun fx m => arriveDp fx opTFOLD { r with subop := 0 } m

/-- TFOLD_SEGMENT (08 R242). -/
def execTfoldSegment (r : Req) (s : State) : Host.Outcome State Fault Refusal :=
  actM s fun fx m => arriveDp fx opTFOLD { r with subop := 1 } m

/-- TFOLD_ABORT (08 R255). -/
def execTfoldAbort (r : Req) (s : State) : Host.Outcome State Fault Refusal :=
  actM s fun fx m => arriveDp fx opTFOLD { r with subop := 2 } m

/-- SIGNAL (06 R190). -/
def execSignal (r : Req) (s : State) : Host.Outcome State Fault Refusal := actM s fun fx m => arriveDp fx opSIGNAL r m

/-- WAIT (06 R199). -/
def execWait (r : Req) (s : State) : Host.Outcome State Fault Refusal := actM s fun fx m => arriveDp fx opWAIT r m

/-- BRD (05 R154). -/
def execBrd (r : Req) (s : State) : Host.Outcome State Fault Refusal := actM s fun fx m => arriveDp fx opBRD r m

/-- BWR (05 R154). -/
def execBwr (r : Req) (s : State) : Host.Outcome State Fault Refusal := actM s fun fx m => arriveDp fx opBWR r m

/-- QENQ (05 R172). -/
def execQenq (r : Req) (s : State) : Host.Outcome State Fault Refusal := actM s fun fx m => arriveDp fx opQENQ r m

/-- QDEQ (05 R172). -/
def execQdeq (r : Req) (s : State) : Host.Outcome State Fault Refusal := actM s fun fx m => arriveDp fx opQDEQ r m

/-- SCATTER_RED (09 R283). -/
def execScatterRed (r : Req) (s : State) : Host.Outcome State Fault Refusal := actM s fun fx m => arriveDp fx opSCATTER r m

/-- PF_HINT (04 R135). -/
def execPfHint (r : Req) (s : State) : Host.Outcome State Fault Refusal := actM s fun fx m => arriveDp fx opPFHINT r m

/-- DATA_PLANE_UNASSIGNED_OPCODE (02 R43). -/
def execDataPlaneUnassignedOpcode (op : BitVec 6) (r : Req) (s : State) : Host.Outcome State Fault Refusal :=
  actM s fun fx m => arriveDp fx op r m

end Sys2Proof.Machine
end

