-- ==== Sys2Proof/Machine/HostRows.lean ====
section
/-! DEFINITION. Meanings of the host-message and key-bus rows, one each (11_host_coherence.md; 02_boundary.md R57, R58). -/

namespace Sys2Proof.Machine

/-- HOST_MEMRD (11 R314). -/
def execHostMemrd (h : HostMsg) (s : State) : Host.Outcome State Fault Refusal := actM s fun fx m => arriveHost fx 0 1 h m

/-- HOST_MEMRDDATA (11 R314). -/
def execHostMemrddata (h : HostMsg) (s : State) : Host.Outcome State Fault Refusal := actM s fun fx m => arriveHost fx 0 2 h m

/-- HOST_MEMINV: MemInv (MSG 0); MemInvNT is handled as it (11 R314, Table COH-3), under its own number 6 by `execHostMsgRefused`. -/
def execHostMeminv (h : HostMsg) (s : State) : Host.Outcome State Fault Refusal := actM s fun fx m => arriveHost fx 0 0 h m

/-- HOST_MEMSPECRD (11 R308). -/
def execHostMemspecrd (h : HostMsg) (s : State) : Host.Outcome State Fault Refusal := actM s fun fx m => arriveHost fx 0 5 h m

/-- HOST_MEMCLNEVCT (11 R314). -/
def execHostMemclnevct (h : HostMsg) (s : State) : Host.Outcome State Fault Refusal := actM s fun fx m => arriveHost fx 0 7 h m

/-- HOST_BICONFLICT (11 R322). -/
def execHostBiconflict (h : HostMsg) (s : State) : Host.Outcome State Fault Refusal := actM s fun fx m => arriveHost fx 0 8 h m

/-- HOST_MEMWR (11 R314). -/
def execHostMemwr (h : HostMsg) (s : State) : Host.Outcome State Fault Refusal := actM s fun fx m => arriveHost fx 1 0 h m

/-- HOST_MEMWRPTL (11 R314). -/
def execHostMemwrptl (h : HostMsg) (s : State) : Host.Outcome State Fault Refusal := actM s fun fx m => arriveHost fx 1 1 h m

/-- HOST_MSG_REFUSED (11 R308): any CLASS and MSG; a BIRsp goes its own way. -/
def execHostMsgRefused (cls msg : BitVec 4) (h : HostMsg) (s : State) : Host.Outcome State Fault Refusal :=
  actM s fun fx m => if cls = 2 then serveBirsp fx msg h m else arriveHost fx cls msg h m

/-- HOST_BIRSP (11 R318). -/
def execHostBirsp (msg : BitVec 4) (h : HostMsg) (s : State) : Host.Outcome State Fault Refusal :=
  actM s fun fx m => serveBirsp fx msg h m

/-- SNOOP_TIMEOUT (11 R324). -/
def execSnoopTimeout (ctag : BitVec 16) (cyc : Nat) (s : State) : Host.Outcome State Fault Refusal :=
  actAt s cyc fun fx m => snoopLate fx ctag m

/-- The key-bus receiver is powered and out of reset. -/
def keyBusUp (m : Mach) : Bool := !(m.life.st = .off) && m.life.vddSw

/-- KLOAD (02 R57). -/
def execKload (slot : BitVec 9) (gen : Bool) (request : BitVec 16) (dataKey tweakKey tagKey : BitVec 256) (check : W64)
    (parityOk checkOk : Bool) (s : State) : Host.Outcome State Fault Refusal :=
  actM s fun fx m =>
    if keyBusUp m then kloadArrive fx slot gen request ⟨dataKey, tweakKey, tagKey, check⟩ (parityOk && checkOk) m else m

/-- KNACK (02 R57). -/
def execKnack (request : BitVec 16) (reason : Byte) (s : State) : Host.Outcome State Fault Refusal :=
  actM s fun fx m => if keyBusUp m then knackArrive fx request reason m else m

/-- KERASE (02 R58). -/
def execKerase (slot : BitVec 9) (sel : BitVec 2) (s : State) : Host.Outcome State Fault Refusal :=
  actM s fun fx m => if keyBusUp m then kerase fx slot sel m else m

/-- KEY_RETIRE_READS_DRAINED (14 R374). -/
def execKeyRetireReadsDrained (slot : BitVec 9) (s : State) : Host.Outcome State Fault Refusal :=
  actM s fun fx m => retireDrained fx slot m

end Sys2Proof.Machine
end

