-- ==== Sys2Proof/Machine/PowerRows.lean ====
section
/-! DEFINITION. Meanings of the power, reset, start-up and test rows, one each (02_boundary.md R61 to R64;
17_startup_and_levels.md). A reset acts at once, and nothing follows it. -/

namespace Sys2Proof.Machine

/-- PWR_OK_RISE (02 R62). -/
def execPwrOkRise (s : State) : Host.Outcome State Fault Refusal := actM s fun _ m => powerGood m

/-- COLD_RST_ASSERT (02 R61). -/
def execColdRstAssert (s : State) : Host.Outcome State Fault Refusal :=
  let x := coldReset s.fx s.m
  .next { s with fx := x.1, m := x.2 }

/-- WARM_RST_ASSERT (02 R61). -/
def execWarmRstAssert (s : State) : Host.Outcome State Fault Refusal := .next { s with m := warmReset s.m }

/-- RESET_RELEASE (02 R62). -/
def execResetRelease (s : State) : Host.Outcome State Fault Refusal := actM s fun _ m => releaseReset m

/-- LEAVE_OFF_FOR_INIT (02 R62). -/
def execLeaveOffForInit (s : State) : Host.Outcome State Fault Refusal := actM s fun _ m => leaveOff m

/-- ISO_N_CHANGE (02 R64). -/
def execIsoNChange (level : Bool) (s : State) : Host.Outcome State Fault Refusal := actM s fun _ m => driveIso level m

/-- VDD_SW_REMOVAL (02 R56). -/
def execVddSwRemoval (vddRetToo : Bool) (s : State) : Host.Outcome State Fault Refusal :=
  actM s fun _ m => dropSupply vddRetToo m

/-- FWLOAD (17 R441). -/
def execFwload (request : BitVec 16) (bank : Bool) (offset : BitVec 18) (beats : List W64) (parityOk : Bool) (s : State) :
    Host.Outcome State Fault Refusal :=
  actM s fun _ m => fwLoad request bank offset beats parityOk m

/-- FWDONE (17 R441). -/
def execFwdone (request : BitVec 16) (result : Byte) (version : W32) (parityOk : Bool) (s : State) : Host.Outcome State Fault Refusal :=
  actM s fun fx m => fwDone fx request result version parityOk m

/-- FIRMWARE_LOAD_TIMEOUT (17 R441). -/
def execFirmwareLoadTimeout (cyc : Nat) (s : State) : Host.Outcome State Fault Refusal := actAt s cyc fun _ m => fwLoadExpire m

/-- CONTROLLER_START (17 R440). -/
def execControllerStart (s : State) : Host.Outcome State Fault Refusal := actM s fun _ m => startController m

/-- ARRAY_BIST (17 R443). -/
def execArrayBist (f : BistFindings) (s : State) : Host.Outcome State Fault Refusal := actM s fun _ m => runBist f m

/-- REPAIR_LOAD (17 R444). -/
def execRepairLoad (s : State) : Host.Outcome State Fault Refusal := actM s fun fx m => loadRepairs fx m

/-- HARDWARE_INVALIDATE (04 R141). -/
def execHardwareInvalidate (s : State) : Host.Outcome State Fault Refusal := actM s fun _ m => invalidate m

/-- TAP_FUSE_REPAIR_SHIFT (17 R448). -/
def execTapFuseRepairShift (bits : BitVec 2048) (s : State) : Host.Outcome State Fault Refusal :=
  actM s fun _ m => shiftFuses bits m

/-- TAP_BIST_CTL_WRITE (17 R448). -/
def execTapBistCtlWrite (val : W32) (f : BistFindings) (s : State) : Host.Outcome State Fault Refusal :=
  actM s fun _ m => testBist val f m

/-- TAP_SCAN_EN_WRITE (17 R448). -/
def execTapScanEnWrite (b : Bool) (s : State) : Host.Outcome State Fault Refusal := actM s fun _ m => setScan b m

/-- TAP_SCAN_CHAIN_ACCESS (17 R448). -/
def execTapScanChainAccess (_chain : Nat) (bits : List Bool) (s : State) : Host.Outcome State Fault Refusal :=
  actM s fun _ m => shiftChain bits m

/-- SLICE_ALIVE_TOGGLE (17 R440). -/
def execSliceAliveToggle (s : State) : Host.Outcome State Fault Refusal := actM s fun _ m => toggleAlive m

/-- CONTROLLER_STOPS (16 R431). -/
def execControllerStops (s : State) : Host.Outcome State Fault Refusal := actM s fun _ m => stopController m

end Sys2Proof.Machine
end

