-- ==== Sys2Proof/Machine/RegRows.lean ====
section
/-! DEFINITION. Meanings of the sideband, window and VC2 transport rows and of the register-write rows, one each
(02_boundary.md R48, R49, R59, R483; 19_control_window.md R466 to R471). -/

namespace Sys2Proof.Machine

/-- SB_READ (02 R60). -/
def execSbRead (site : Byte) (rsvd : BitVec 4) (offset : BitVec 16) (data : W32) (s : State) : Host.Outcome State Fault Refusal :=
  act s fun fx m => sbRead fx site rsvd offset data m

/-- SB_WRITE (02 R60). -/
def execSbWrite (site : Byte) (rsvd : BitVec 4) (offset : BitVec 16) (data : W32) (s : State) : Host.Outcome State Fault Refusal :=
  act s fun fx m => sbWrite fx site rsvd offset data m

/-- SB_CMD (02 R59): the word and the eight words of the command. -/
def execSbCmd (site : Byte) (c : CmdPkt) (s : State) : Host.Outcome State Fault Refusal :=
  actM s fun fx m => if site = fx.siteId then arriveCmd fx { c with path := .sideband } m else m

/-- SB_TRANSFER_IGNORED (02 R483): a KIND that is reserved or outbound, all but SB_READ, SB_WRITE and SB_CMD. -/
def execSbTransferIgnored (site : Byte) (kind : BitVec 4) (s : State) : Host.Outcome State Fault Refusal :=
  actM s fun fx m => if site = fx.siteId ∧ 2 < kind.toNat then count 0x010 m else m

/-- WINDOW_ACCESS (02 R49). -/
def execWindowAccess (stop : Stop) (peer : BitVec 16) (env : BitVec 44) (w0 w1 : W64) (s : State) : Host.Outcome State Fault Refusal :=
  act s fun fx m => windowPacket fx stop peer env w0 w1 m

/-- A VC2 packet that is discarded is counted (02 R48, R49, R67, R483; 10 R302; log 35). R483 gives no length for KIND 4: one whose body
is not the two words of Table PORT-20 is discarded too (log 114, DESIGN CHOICE). -/
def vc2Strays (fx : Fixed) (kind : BitVec 4) (peer : BitVec 16) (env : BitVec 44) (body : List W64) : Bool :=
  match kind.toNat with
  | 0 => false
  | 1 => (masterOf (.vc2 .north peer)).isNone || body.length ≠ 8
  | 2 => body.length ≠ 4 || env ≠ 0
  | 3 => env ≠ 0
  | 4 => (peerPath peer).isNone || decide (fld (body.headD 0) 61 54 ≠ fx.siteId.toNat) || body.length ≠ 2
  | _ => true

/-- A packet that a VC2 landing accepts (02 R37) and the slice discards; a KIND 2 of the right form is looked up among the
outstanding notices. -/
def discardVc2 (fx : Fixed) (kind : BitVec 4) (peer : BitVec 16) (env : BitVec 44) (body : List W64) (m : Mach) : Mach :=
  let m := count 0x040 m
  if vc2Strays fx kind peer env body then countN 0x010 (if kind = 1 then wordCtx (body.getD 1 0) else none) none 1 m
  else if kind = 2 ∧ m.life.st ≠ .off then ackNotice fx peer (body.headD 0) m
  else m

/-- VC2_PACKET_DISCARD (02 R48). -/
def execVc2PacketDiscard (kind : BitVec 4) (peer : BitVec 16) (env : BitVec 44) (body : List W64) (s : State) :
    Host.Outcome State Fault Refusal :=
  actM s fun fx m => discardVc2 fx kind peer env body m

/-- REGISTER_WRITE (19 R467, R469): one access of the size named. -/
def execRegisterWrite (path : Path) (eight : Bool) (offset : BitVec 16) (data : W64) (s : State) : Host.Outcome State Fault Refusal :=
  act s fun fx m => winWrite fx path eight offset.toNat data m

/-- CMDQ_CTL_WRITE (19 R473). -/
def execCmdqCtlWrite (path : Path) (fabric : Bool) (data : W32) (s : State) : Host.Outcome State Fault Refusal :=
  act s fun fx m => pathWrite fx path false (if fabric then 0x0140 else 0x0100) (data.zeroExtend 64) m

/-- CMDQ_TAIL_WRITE (03 R69). -/
def execCmdqTailWrite (path : Path) (fabric : Bool) (data : W32) (s : State) : Host.Outcome State Fault Refusal :=
  act s fun fx m => pathWrite fx path false (if fabric then 0x0160 else 0x0120) (data.zeroExtend 64) m

/-- RPLQ_HEAD_WRITE (19 R470). -/
def execRplqHeadWrite (path : Path) (fabric : Bool) (data : W32) (s : State) : Host.Outcome State Fault Refusal :=
  act s fun fx m => pathWrite fx path false (if fabric then 0x016C else 0x012C) (data.zeroExtend 64) m

/-- EVQ_CTL_WRITE (19 R474). -/
def execEvqCtlWrite (path : Path) (data : W32) (s : State) : Host.Outcome State Fault Refusal :=
  act s fun fx m => pathWrite fx path false 0x0180 (data.zeroExtend 64) m

/-- EVQ_HEAD_WRITE (19 R475). -/
def execEvqHeadWrite (path : Path) (data : W32) (s : State) : Host.Outcome State Fault Refusal :=
  act s fun fx m => pathWrite fx path false 0x0194 (data.zeroExtend 64) m

/-- RECOV_CTL_HWFENCE (16 R431). -/
def execRecovCtlHwfence (path : Path) (data : W32) (s : State) : Host.Outcome State Fault Refusal :=
  act s fun fx m => pathWrite fx path false 0x0230 (data.zeroExtend 64) m

/-- DBG_PEEK_ADDR_WRITE (18 R464). -/
def execDbgPeekAddrWrite (path : Path) (data : W64) (s : State) : Host.Outcome State Fault Refusal :=
  act s fun fx m => pathWrite fx path true 0x3008 data m

/-- PMC_RD_WRITE (18 R459). -/
def execPmcRdWrite (path : Path) (data : W32) (s : State) : Host.Outcome State Fault Refusal :=
  act s fun fx m => pathWrite fx path false 0x2554 (data.zeroExtend 64) m

/-- RED_CTL_WRITE (07 R223). -/
def execRedCtlWrite (path : Path) (data : W32) (s : State) : Host.Outcome State Fault Refusal :=
  act s fun fx m => pathWrite fx path false 0x0208 (data.zeroExtend 64) m

/-- KRT_WRITE (14 R367). -/
def execKrtWrite (path : Path) (n : BitVec 6) (data : W64) (s : State) : Host.Outcome State Fault Refusal :=
  act s fun fx m => pathWrite fx path true (0x2000 + 8 * n.toNat) data m

/-- BOOT_CTL_WRITE (17 R444). -/
def execBootCtlWrite (path : Path) (data : W32) (s : State) : Host.Outcome State Fault Refusal :=
  act s fun fx m => pathWrite fx path false 0x0250 (data.zeroExtend 64) m

/-- SLICE_ID_WRITE (01 R30): SLICE_ID, or a register of the bucket mask. -/
def execSliceIdWrite (path : Path) (mask : Option (BitVec 7)) (data : W64) (s : State) : Host.Outcome State Fault Refusal :=
  act s fun fx m =>
    match mask with
    | none => pathWrite fx path true 0x0010 data m
    | some n => pathWrite fx path false (0x0400 + 4 * n.toNat) data m

/-- HC_AGENT_WRITE (19 R470). -/
def execHcAgentWrite (path : Path) (n : BitVec 4) (data : W32) (s : State) : Host.Outcome State Fault Refusal :=
  act s fun fx m => pathWrite fx path false (0x0280 + 4 * n.toNat) (data.zeroExtend 64) m

end Sys2Proof.Machine
end

