-- ==== Sys2Proof/Machine/StepRows.lean ====
section
/-! DEFINITION. Meanings of the rows in which the block's own units take a step: the reduction island, the memory port and the
array, the sync unit, one each. -/

namespace Sys2Proof.Machine

/-- CONTRIB_ADMIT (07 R229). -/
def execContribAdmit (stop : Stop) (s : State) : Host.Outcome State Fault Refusal := actM s fun fx m => admitBatch fx stop m

/-- The drain of a closing tile begins; a hop's tile drains only at the chain's last hop, and only once every line is in (07 R233;
08 R252). -/
def beginDrain (fx : Fixed) (i : Nat) (m : Mach) : Mach :=
  match closeOf m i, hopOfTile m i (tileOf m i).gen with
  | some (run, c), none => startDrain fx run c m
  | some (run, c), some j =>
    let h := hopOf m j
    if !h.broken && h.cut && decide (h.hop = h.last) && hopFed m h then startDrain fx run c m else m
  | none, _ => m

/-- TILE_DRAIN (07 R233). -/
def execTileDrain (tile : BitVec 13) (s : State) : Host.Outcome State Fault Refusal :=
  actM s fun fx m => beginDrain fx tile.toNat m

/-- TOWLINE_FORWARD (08 R250). -/
def execTowlineForward (hop : BitVec 10) (s : State) : Host.Outcome State Fault Refusal :=
  actM s fun fx m => forwardLine fx hop.toNat m

/-- TOWLINE_FORWARD_RETRY (08 R251). -/
def execTowlineForwardRetry (hop : BitVec 10) (line : BitVec 6) (cyc : Nat) (s : State) : Host.Outcome State Fault Refusal :=
  actAt s cyc fun fx m => forwardAgain fx hop.toNat line m

/-- SEGMENT_RESPONSE (08 R245). -/
def execSegmentResponse (stop : Stop) (tag : BitVec 12) (status : BitVec 4) (s : State) : Host.Outcome State Fault Refusal :=
  actM s fun fx m => segAnswer fx stop tag status m

/-- HOP_TIMEOUT (08 R256). -/
def execHopTimeout (hop : BitVec 10) (cyc : Nat) (s : State) : Host.Outcome State Fault Refusal :=
  actAt s cyc fun fx m => hopExpire fx hop.toNat m

/-- The beats of a read that the port has issued come back; a retirement waits no longer for it, unless it is read again
(15 R395). With the memory island down the port's returns are discarded or not taken, by strap: the slice sees none of them
(02 R64). -/
def readReturn (fx : Fixed) (n : BitVec 10) (d : Line) (md : Meta) (ue : Bool) (m : Mach) : Mach :=
  if memDown m then m else
  match m.cache.tickets.find? fun t => t.num = n && t.issued with
  | none => m
  | some t =>
    let m := memReturn fx t d md ue m
    if m.cache.tickets.any fun u => u.num = n && u.line = t.line && u.kind = t.kind && decide (t.attempts < u.attempts) then m
    else readBack n m

/-- MEM_READ_RETURN (02 R50). -/
def execMemReadReturn (ticket : BitVec 10) (data : Line) (md : Meta) (ue : Bool) (s : State) : Host.Outcome State Fault Refusal :=
  actM s fun fx m => readReturn fx ticket data md ue m

/-- MEM_WRITE_ACK (02 R51). -/
def execMemWriteAck (index : BitVec 10) (s : State) : Host.Outcome State Fault Refusal :=
  actM s fun fx m => match m.cache.writes.find? fun w => w.index = index && w.issued with | some w => portAck fx w m | none => m

/-- SLIPWAY_ISSUE (04 R130). -/
def execSlipwayIssue (s : State) : Host.Outcome State Fault Refusal := actM s fun fx m => pump fx m

/-- MEMORY_PORT_CREDIT (12 R337). -/
def execMemoryPortCredit (lines cycles : Nat) (s : State) : Host.Outcome State Fault Refusal :=
  actM s fun fx m => portCredit fx lines cycles m

/-- The place in the replay list of the entry at a place of a quad's queue. -/
def replayAt (quad : Nat) : Nat → Nat → List Parked → Option (Nat × Parked)
  | _, _, [] => none
  | i, pos, p :: t =>
    if quadOf p.acc.line ≠ quad then replayAt quad (i + 1) pos t
    else if pos = 0 then some (i, p)
    else replayAt quad (i + 1) (pos - 1) t

/-- A parked berth or queue access behind an earlier one of its line or queue; the order at a line of memory space is that of the
accesses' places (04 R118). -/
def behindSame (m : Mach) (i : Nat) (a : Access) : Bool :=
  !onMemory a.op && (m.cache.replay.take i).any fun q =>
    q.acc.line = a.line && !onMemory q.acc.op && decide (q.acc.op = .queue) = decide (a.op = .queue)

/-- A parked access tried at its unit. -/
def tryParked (fx : Fixed) (a : Access) (m : Mach) : Mach × Got × Access :=
  if a.op = .queue then (let (m, g) := tryFerry fx a m; (m, g, a))
  else if a.op = .brd ∨ a.op = .bwr then (let (m, g) := tryBerth fx a m; (m, g, a))
  else tryAccess fx a m

/-- A waiting request tried again: behind an earlier one to its line it stays; one that cannot proceed keeps its place
(04 R118; log 12). -/
def retryParked (fx : Fixed) (quad pos : Nat) (m : Mach) : Mach :=
  match replayAt quad 0 pos m.cache.replay with
  | none => m
  | some (i, p) =>
    if behindSame m i p.acc then m
    else
      let m := { m with cache := { m.cache with replay := m.cache.replay.eraseIdx i } }
      match tryParked fx p.acc m with
      | (m, .done, _) => m
      | (m, g, a) =>
        let thaw := decide (g = .waitThaw)
        let m := if thaw && !p.thaw then count 0x01E m else m
        { m with cache := { m.cache with replay := m.cache.replay.insertIdx (min i m.cache.replay.length) { p with acc := a, thaw := thaw } } }

/-- REPLAY_RETRY (04 R118). -/
def execReplayRetry (quad : BitVec 2) (pos : Nat) (s : State) : Host.Outcome State Fault Refusal :=
  actM s fun fx m => retryParked fx quad.toNat pos m

/-- The oldest count under way of a manifest is applied once the sync store is ready (06 R195, R196; 13 R353); one that is still
in its coalescer entry leaves that first. -/
def countArrives (fx : Fixed) (i : BitVec 14) (m : Mach) : Mach :=
  let m := if m.sync.counts.any (·.obj = i) then m else drainCoal i m
  match m.sync.counts.find? (·.obj = i) with
  | none => m
  | some c =>
    match needDom dSync m with
    | (m, false) =>
      if c.thaw then m
      else count 0x01E { m with sync := { m.sync with counts := m.sync.counts.map fun x => if x.obj = i then { x with thaw := true } else x } }
    | (m, true) => applyCount fx c { m with sync := { m.sync with counts := m.sync.counts.eraseP (·.obj = i) } }

/-- MANIFEST_COUNT (06 R196). -/
def execManifestCount (manifest : BitVec 14) (s : State) : Host.Outcome State Fault Refusal :=
  actM s fun fx m => countArrives fx manifest m

/-- MANIFEST_COALESCER_DRAIN (06 R196). -/
def execManifestCoalescerDrain (manifest : BitVec 14) (s : State) : Host.Outcome State Fault Refusal :=
  actM s fun _ m => drainCoal manifest m

/-- The oldest notify of a queue is applied once the sync store is ready (05 R173; 13 R353). -/
def notifyArrives (fx : Fixed) (q : BitVec 10) (m : Mach) : Mach :=
  match m.sync.notifies.find? (·.queue = q) with
  | none => m
  | some n =>
    match needDom dSync m with
    | (m, false) =>
      if n.thaw then m
      else count 0x01E { m with sync := { m.sync with notifies := m.sync.notifies.map fun x => if x.queue = q then { x with thaw := true } else x } }
    | (m, true) => applyNotify fx n { m with sync := { m.sync with notifies := m.sync.notifies.eraseP (·.queue = q) } }

/-- QUEUE_NOTIFY (05 R173). -/
def execQueueNotify (queue : BitVec 10) (s : State) : Host.Outcome State Fault Refusal :=
  actM s fun fx m => notifyArrives fx queue m

/-- A parked wait whose tick has come is answered RETRY with VALUE (06 R202), once the sync store is ready (13 R353); a freeze stops its time
(16 R432). -/
def waitExpires (fx : Fixed) (source : BitVec 16) (tag : BitVec 12) (m : Mach) : Mach :=
  let due := fun (w : Wait) =>
    w.source = source && w.tag = tag && decide (w.expire ≠ 0) && decide (w.expire ≤ tickOf m.cyc) && !waitFrozen m w && !w.late
  match m.sync.waits.find? due with
  | none => m
  | some w =>
    match needDom dSync m with
    | (m, true) => expireWait fx w m
    | (m, false) =>
      let mark := fun (v : Wait) => if sameWait w v then { v with late := true } else v
      count 0x01E { m with sync := { m.sync with waits := m.sync.waits.map mark } }

/-- WAIT_TIMEOUT (06 R202). -/
def execWaitTimeout (source : BitVec 16) (tag : BitVec 12) (cyc : Nat) (s : State) : Host.Outcome State Fault Refusal :=
  actAt s cyc fun fx m => waitExpires fx source tag m

/-- SYNC_INDEX_HOLD_EXPIRY (16 R438). -/
def execSyncIndexHoldExpiry (index : BitVec 14) (cyc : Nat) (s : State) : Host.Outcome State Fault Refusal :=
  actAt s cyc fun _ m => releaseIndex index m

/-- JAM_EDGE_EXPORT (16 R421). -/
def execJamEdgeExport (cyc : Nat) (s : State) : Host.Outcome State Fault Refusal := actAt s cyc fun fx m => jamTick fx m

end Sys2Proof.Machine
end

