-- ==== Sys2Proof/Machine/TimeRows.lean ====
section
/-! DEFINITION. Meanings of the rows that come at a time or as a command's work ends, one each -/

namespace Sys2Proof.Machine

/-- RING_FETCH (03 R71). -/
def execRingFetch (fabric : Bool) (s : State) : Host.Outcome State Fault Refusal :=
  actM s fun fx m => ringFetch fx fabric m

/-- PILOT_LEASE_EXPIRY (03 R88). -/
def execPilotLeaseExpiry (cyc : Nat) (s : State) : Host.Outcome State Fault Refusal :=
  actAt s cyc fun fx m => leaseExpire fx m

/-- QUARANTINE_TIMEOUT (16 R432). -/
def execQuarantineTimeout (ctx : Ctx) (cyc : Nat) (s : State) : Host.Outcome State Fault Refusal :=
  actAt s cyc fun fx m => quarantineExpire fx ctx m

/-- BERTH_GRANULES_RELEASE (05 R158). -/
def execBerthGranulesRelease (berth : BitVec 12) (s : State) : Host.Outcome State Fault Refusal :=
  actM s fun fx m => releaseIfDone fx berth.toNat m

/-- COPY_ENGINE_START (05 R169). -/
def execCopyEngineStart (s : State) : Host.Outcome State Fault Refusal :=
  actM s fun fx m => startCopy fx m

/-- MAINT_ENGINE_START (04 R140). -/
def execMaintEngineStart (s : State) : Host.Outcome State Fault Refusal :=
  actM s fun fx m => startMaint fx m

/-- SWEEP_NOTICE_SEND (10 R302). -/
def execSweepNoticeSend (s : State) : Host.Outcome State Fault Refusal :=
  actM s fun fx m => sendNotice fx m

/-- A KIND 2 packet of four words (10 R302; 02 R37, R483); in OFF nothing is taken. -/
def sweepReply (fx : Fixed) (peer : BitVec 16) (env : BitVec 44) (w0 : W64) (m : Mach) : Mach :=
  let m := count 0x040 m
  if m.life.st = .off then m else if env ≠ 0 then count 0x010 m else ackNotice fx peer w0 m

/-- SWEEP_ACK (10 R302). -/
def execSweepAck (peer : BitVec 16) (env : BitVec 44) (w0 _w1 _w2 _w3 : W64) (s : State) : Host.Outcome State Fault Refusal :=
  actM s fun fx m => sweepReply fx peer env w0 m

/-- SWEEP_NOTICE_TIMEOUT (10 R301). -/
def execSweepNoticeTimeout (cluster : BitVec 7) (cyc : Nat) (s : State) : Host.Outcome State Fault Refusal :=
  actAt s cyc fun fx m => expireNotice fx cluster m

/-- EFF_WINDOW_END (12 R337). -/
def execEffWindowEnd (cyc : Nat) (s : State) : Host.Outcome State Fault Refusal :=
  actAt s cyc fun fx m => effWindow fx m

/-- AUTUMN_ENTRY (13 R347). -/
def execAutumnEntry (domain : Fin 82) (s : State) : Host.Outcome State Fault Refusal :=
  actM s fun _ m => autumnEnter domain.val m

/-- SEASON_WINDOW_END (13 R348). -/
def execSeasonWindowEnd (cyc : Nat) (s : State) : Host.Outcome State Fault Refusal :=
  actAt s cyc fun fx m => seasonWindow fx m

/-- WINTER_ENTRY_COMPLETE (13 R349). -/
def execWinterEntryComplete (domain : Fin 82) (s : State) : Host.Outcome State Fault Refusal :=
  actM s fun _ m => winterEnter domain.val m

/-- FROST_ENTRY_COMPLETE (13 R351). -/
def execFrostEntryComplete (domain : Fin 82) (s : State) : Host.Outcome State Fault Refusal :=
  actM s fun fx m => frostEnter fx domain.val m

/-- THAW_START (13 R354). -/
def execThawStart (s : State) : Host.Outcome State Fault Refusal :=
  actM s fun _ m => thawBegin m

/-- THAW_COMPLETE (13 R353). -/
def execThawComplete (domain : Fin 82) (s : State) : Host.Outcome State Fault Refusal :=
  actM s fun _ m => thawEnd domain.val m

/-- SCRUB_STEP (15 R407). -/
def execScrubStep (upset : Option Upset) (s : State) : Host.Outcome State Fault Refusal :=
  actM s fun fx m => scrubStep fx upset m

/-- MEMORY_SCRUB_STEP (15 R410). -/
def execMemoryScrubStep (s : State) : Host.Outcome State Fault Refusal :=
  actM s fun fx m => memScrubStep fx m

/-- ROTATION_SWEEP_STEP (14 R373). -/
def execRotationSweepStep (s : State) : Host.Outcome State Fault Refusal :=
  actM s fun fx m => rotStep fx m

/-- QUIESCE_DRAINED (03 R100). -/
def execQuiesceDrained (s : State) : Host.Outcome State Fault Refusal :=
  actM s fun fx m => quiesceEnd fx m

/-- QUIESCE_TIMEOUT (03 R100). -/
def execQuiesceTimeout (cyc : Nat) (s : State) : Host.Outcome State Fault Refusal :=
  actAt s cyc fun fx m => quiesceExpire fx m

/-- DUMP_DUE (18 R459). -/
def execDumpDue (cyc : Nat) (s : State) : Host.Outcome State Fault Refusal :=
  actAt s cyc fun fx m => dumpDue fx m

/-- VIEW_RECORD_WRITE (18 R461). -/
def execViewRecordWrite (cyc : Nat) (s : State) : Host.Outcome State Fault Refusal :=
  actAt s cyc fun fx m => viewTick fx m

/-- CONFIDENTIAL_LATCH (14 R386). -/
def execConfidentialLatch (cyc : Nat) (s : State) : Host.Outcome State Fault Refusal :=
  actAt s cyc fun _ m => confLatch m

/-- PM_TLM_WINDOW_END (14 R388). -/
def execPmTlmWindowEnd (sum count cyc : Nat) (s : State) : Host.Outcome State Fault Refusal :=
  actAt s cyc fun _ m => pmTlmWindow sum count m

/-- FW_STAGE_TIMEOUT (14 R390). -/
def execFwStageTimeout (cyc : Nat) (s : State) : Host.Outcome State Fault Refusal :=
  actAt s cyc fun fx m => stageExpire fx m

/-- FW_ACTIVATE_READY (14 R391). -/
def execFwActivateReady (s : State) : Host.Outcome State Fault Refusal :=
  actM s fun fx m => activateReady fx m

/-- FW_ACTIVATE_TIMEOUT (14 R391). -/
def execFwActivateTimeout (cyc : Nat) (s : State) : Host.Outcome State Fault Refusal :=
  actAt s cyc fun fx m => activateExpire fx m

/-- PIN_PRESSURE_WINDOW_END (05 R162). -/
def execPinPressureWindowEnd (cyc : Nat) (s : State) : Host.Outcome State Fault Refusal :=
  actAt s cyc fun fx m => pressureWindow fx m

/-- The teardown hold of a slot ends at its tick (16 R437). -/
def holdEnds (c : Ctx) (m : Mach) : Mach :=
  let e := ctxOf m c
  if e.holdTick ≠ 0 ∧ e.holdTick ≤ tickOf m.cyc then setCtx c { e with holdTick := 0 } m else m

/-- TEARDOWN_HOLD_EXPIRY (16 R437). -/
def execTeardownHoldExpiry (ctx : Ctx) (cyc : Nat) (s : State) : Host.Outcome State Fault Refusal :=
  actAt s cyc fun _ m => holdEnds ctx m

/-- EVENT_RECORD_WRITE (19 R475). -/
def execEventRecordWrite (s : State) : Host.Outcome State Fault Refusal :=
  actM s fun fx m => eventWrite fx m

/-- HW_FENCE_POWER_OFF (16 R431). -/
def execHwFencePowerOff (cyc : Nat) (s : State) : Host.Outcome State Fault Refusal :=
  actAt s cyc fun _ m => hwFenceOff m

/-- PEEK_RESULT (18 R464). -/
def execPeekResult (s : State) : Host.Outcome State Fault Refusal :=
  actM s fun _ m => peekResult m

/-- RESERVATION_TOKEN_REFILL (12 R338). -/
def execReservationTokenRefill (cls : BitVec 4) (s : State) : Host.Outcome State Fault Refusal :=
  actM s fun fx m => tokenRefill fx cls.toNat m

end Sys2Proof.Machine
end

