-- ==== Sys2Proof/Machine/Dispatch.lean ====
section
/-! DEFINITION. One arm per command: its meaning, or its rejection by name. -/

namespace Sys2Proof.Machine

def exec (i : Instr) (s : State) : Host.Outcome State Fault Refusal :=
  match i with
  | .pwrOkRise => Sys2Proof.Machine.execPwrOkRise s
  | .coldRstAssert => Sys2Proof.Machine.execColdRstAssert s
  | .warmRstAssert => Sys2Proof.Machine.execWarmRstAssert s
  | .resetRelease => Sys2Proof.Machine.execResetRelease s
  | .leaveOffForInit => Sys2Proof.Machine.execLeaveOffForInit s
  | .isoNChange level => Sys2Proof.Machine.execIsoNChange level s
  | .vddSwRemoval vddRetToo => Sys2Proof.Machine.execVddSwRemoval vddRetToo s
  | .fwload request bank offset beats parityOk => Sys2Proof.Machine.execFwload request bank offset beats parityOk s
  | .fwdone request result version parityOk => Sys2Proof.Machine.execFwdone request result version parityOk s
  | .firmwareLoadTimeout cyc => Sys2Proof.Machine.execFirmwareLoadTimeout cyc s
  | .controllerStart => Sys2Proof.Machine.execControllerStart s
  | .arrayBist f => Sys2Proof.Machine.execArrayBist f s
  | .repairLoad => Sys2Proof.Machine.execRepairLoad s
  | .hardwareInvalidate => Sys2Proof.Machine.execHardwareInvalidate s
  | .tapFuseRepairShift bits => Sys2Proof.Machine.execTapFuseRepairShift bits s
  | .tapBistCtlWrite val f => Sys2Proof.Machine.execTapBistCtlWrite val f s
  | .tapScanEnWrite b => Sys2Proof.Machine.execTapScanEnWrite b s
  | .tapScanChainAccess chain bits => Sys2Proof.Machine.execTapScanChainAccess chain bits s
  | .rd r => Sys2Proof.Machine.execRd r s
  | .rdVol r => Sys2Proof.Machine.execRdVol r s
  | .rdStream r => Sys2Proof.Machine.execRdStream r s
  | .wr r => Sys2Proof.Machine.execWr r s
  | .wrThru r => Sys2Proof.Machine.execWrThru r s
  | .wrFull r => Sys2Proof.Machine.execWrFull r s
  | .atom r => Sys2Proof.Machine.execAtom r s
  | .atomRet r => Sys2Proof.Machine.execAtomRet r s
  | .lred r => Sys2Proof.Machine.execLred r s
  | .tcontrib r => Sys2Proof.Machine.execTcontrib r s
  | .tcontribW r => Sys2Proof.Machine.execTcontribW r s
  | .tfoldFold r => Sys2Proof.Machine.execTfoldFold r s
  | .tfoldSegment r => Sys2Proof.Machine.execTfoldSegment r s
  | .tfoldAbort r => Sys2Proof.Machine.execTfoldAbort r s
  | .signal r => Sys2Proof.Machine.execSignal r s
  | .wait r => Sys2Proof.Machine.execWait r s
  | .brd r => Sys2Proof.Machine.execBrd r s
  | .bwr r => Sys2Proof.Machine.execBwr r s
  | .qenq r => Sys2Proof.Machine.execQenq r s
  | .qdeq r => Sys2Proof.Machine.execQdeq r s
  | .scatterRed r => Sys2Proof.Machine.execScatterRed r s
  | .pfHint r => Sys2Proof.Machine.execPfHint r s
  | .dataPlaneUnassignedOpcode op r => Sys2Proof.Machine.execDataPlaneUnassignedOpcode op r s
  | .contribAdmit stop => Sys2Proof.Machine.execContribAdmit stop s
  | .tileDrain tile => Sys2Proof.Machine.execTileDrain tile s
  | .towlineForward hop => Sys2Proof.Machine.execTowlineForward hop s
  | .towlineForwardRetry hop line cyc => Sys2Proof.Machine.execTowlineForwardRetry hop line cyc s
  | .segmentResponse stop tag status => Sys2Proof.Machine.execSegmentResponse stop tag status s
  | .hopTimeout hop cyc => Sys2Proof.Machine.execHopTimeout hop cyc s
  | .memReadReturn ticket data md ue => Sys2Proof.Machine.execMemReadReturn ticket data md ue s
  | .memWriteAck index => Sys2Proof.Machine.execMemWriteAck index s
  | .slipwayIssue => Sys2Proof.Machine.execSlipwayIssue s
  | .replayRetry quad pos => Sys2Proof.Machine.execReplayRetry quad pos s
  | .manifestCount manifest => Sys2Proof.Machine.execManifestCount manifest s
  | .queueNotify queue => Sys2Proof.Machine.execQueueNotify queue s
  | .waitTimeout source tag cyc => Sys2Proof.Machine.execWaitTimeout source tag cyc s
  | .hostMemrd h => Sys2Proof.Machine.execHostMemrd h s
  | .hostMemrddata h => Sys2Proof.Machine.execHostMemrddata h s
  | .hostMeminv h => Sys2Proof.Machine.execHostMeminv h s
  | .hostMemspecrd h => Sys2Proof.Machine.execHostMemspecrd h s
  | .hostMemclnevct h => Sys2Proof.Machine.execHostMemclnevct h s
  | .hostBiconflict h => Sys2Proof.Machine.execHostBiconflict h s
  | .hostMemwr h => Sys2Proof.Machine.execHostMemwr h s
  | .hostMemwrptl h => Sys2Proof.Machine.execHostMemwrptl h s
  | .hostMsgRefused cls msg h => Sys2Proof.Machine.execHostMsgRefused cls msg h s
  | .hostBirsp msg h => Sys2Proof.Machine.execHostBirsp msg h s
  | .snoopTimeout ctag cyc => Sys2Proof.Machine.execSnoopTimeout ctag cyc s
  | .kload slot gen request dataKey tweakKey tagKey check parityOk checkOk => Sys2Proof.Machine.execKload slot gen request dataKey tweakKey tagKey check parityOk checkOk s
  | .knack request reason => Sys2Proof.Machine.execKnack request reason s
  | .kerase slot sel => Sys2Proof.Machine.execKerase slot sel s
  | .keyRetireReadsDrained slot => Sys2Proof.Machine.execKeyRetireReadsDrained slot s
  | .sbRead site rsvd offset data => Sys2Proof.Machine.execSbRead site rsvd offset data s
  | .sbWrite site rsvd offset data => Sys2Proof.Machine.execSbWrite site rsvd offset data s
  | .sbCmd site c => Sys2Proof.Machine.execSbCmd site c s
  | .sbTransferIgnored site kind => Sys2Proof.Machine.execSbTransferIgnored site kind s
  | .windowAccess stop peer env w0 w1 => Sys2Proof.Machine.execWindowAccess stop peer env w0 w1 s
  | .vc2PacketDiscard kind peer env body => Sys2Proof.Machine.execVc2PacketDiscard kind peer env body s
  | .registerWrite path eight offset data => Sys2Proof.Machine.execRegisterWrite path eight offset data s
  | .cmdqCtlWrite path fabric data => Sys2Proof.Machine.execCmdqCtlWrite path fabric data s
  | .cmdqTailWrite path fabric data => Sys2Proof.Machine.execCmdqTailWrite path fabric data s
  | .rplqHeadWrite path fabric data => Sys2Proof.Machine.execRplqHeadWrite path fabric data s
  | .evqCtlWrite path data => Sys2Proof.Machine.execEvqCtlWrite path data s
  | .evqHeadWrite path data => Sys2Proof.Machine.execEvqHeadWrite path data s
  | .recovCtlHwfence path data => Sys2Proof.Machine.execRecovCtlHwfence path data s
  | .dbgPeekAddrWrite path data => Sys2Proof.Machine.execDbgPeekAddrWrite path data s
  | .pmcRdWrite path data => Sys2Proof.Machine.execPmcRdWrite path data s
  | .redCtlWrite path data => Sys2Proof.Machine.execRedCtlWrite path data s
  | .krtWrite path n data => Sys2Proof.Machine.execKrtWrite path n data s
  | .bootCtlWrite path data => Sys2Proof.Machine.execBootCtlWrite path data s
  | .sliceIdWrite path mask data => Sys2Proof.Machine.execSliceIdWrite path mask data s
  | .hcAgentWrite path n data => Sys2Proof.Machine.execHcAgentWrite path n data s
  | .ringFetch fabric => Sys2Proof.Machine.execRingFetch fabric s
  | .commandUnassigned opcode c => Sys2Proof.Machine.execCommandUnassigned opcode c s
  | .nop c => Sys2Proof.Machine.execNop c s
  | .identify c => Sys2Proof.Machine.execIdentify c s
  | .pilotClaim c => Sys2Proof.Machine.execPilotClaim c s
  | .pilotRelease c => Sys2Proof.Machine.execPilotRelease c s
  | .pilotHandover c => Sys2Proof.Machine.execPilotHandover c s
  | .leaseRenew c => Sys2Proof.Machine.execLeaseRenew c s
  | .pilotLeaseExpiry cyc => Sys2Proof.Machine.execPilotLeaseExpiry cyc s
  | .stateQuery c => Sys2Proof.Machine.execStateQuery c s
  | .levelLock c => Sys2Proof.Machine.execLevelLock c s
  | .ctxOpen c => Sys2Proof.Machine.execCtxOpen c s
  | .ctxSetClass c => Sys2Proof.Machine.execCtxSetClass c s
  | .ctxSuspend c => Sys2Proof.Machine.execCtxSuspend c s
  | .ctxResume c => Sys2Proof.Machine.execCtxResume c s
  | .ctxPurge c => Sys2Proof.Machine.execCtxPurge c s
  | .ctxClose c => Sys2Proof.Machine.execCtxClose c s
  | .ctxQuarantine c => Sys2Proof.Machine.execCtxQuarantine c s
  | .ctxQuarantineRelease c => Sys2Proof.Machine.execCtxQuarantineRelease c s
  | .quarantineTimeout ctx cyc => Sys2Proof.Machine.execQuarantineTimeout ctx cyc s
  | .berthAlloc c => Sys2Proof.Machine.execBerthAlloc c s
  | .arenaObjectAlloc c => Sys2Proof.Machine.execArenaObjectAlloc c s
  | .berthFree c => Sys2Proof.Machine.execBerthFree c s
  | .berthFreeAbort c => Sys2Proof.Machine.execBerthFreeAbort c s
  | .arenaObjectFree c => Sys2Proof.Machine.execArenaObjectFree c s
  | .berthGranulesRelease berth => Sys2Proof.Machine.execBerthGranulesRelease berth s
  | .berthResize c => Sys2Proof.Machine.execBerthResize c s
  | .arenaGrant c => Sys2Proof.Machine.execArenaGrant c s
  | .arenaRevoke c => Sys2Proof.Machine.execArenaRevoke c s
  | .queueCreate c => Sys2Proof.Machine.execQueueCreate c s
  | .queueDestroy c => Sys2Proof.Machine.execQueueDestroy c s
  | .pinBudget c => Sys2Proof.Machine.execPinBudget c s
  | .copy c => Sys2Proof.Machine.execCopy c s
  | .copyMeasure c => Sys2Proof.Machine.execCopyMeasure c s
  | .copyEngineStart => Sys2Proof.Machine.execCopyEngineStart s
  | .rangeClean c => Sys2Proof.Machine.execRangeClean c s
  | .rangeInval c => Sys2Proof.Machine.execRangeInval c s
  | .rangeFlush c => Sys2Proof.Machine.execRangeFlush c s
  | .rangeZero c => Sys2Proof.Machine.execRangeZero c s
  | .maintEngineStart => Sys2Proof.Machine.execMaintEngineStart s
  | .sparsePack c => Sys2Proof.Machine.execSparsePack c s
  | .sparseUnpack c => Sys2Proof.Machine.execSparseUnpack c s
  | .acquireSweep c => Sys2Proof.Machine.execAcquireSweep c s
  | .sweepNoticeSend => Sys2Proof.Machine.execSweepNoticeSend s
  | .sweepAck peer env w0 w1 w2 w3 => Sys2Proof.Machine.execSweepAck peer env w0 w1 w2 w3 s
  | .sweepNoticeTimeout cluster cyc => Sys2Proof.Machine.execSweepNoticeTimeout cluster cyc s
  | .tileOpen c => Sys2Proof.Machine.execTileOpen c s
  | .tileClose c => Sys2Proof.Machine.execTileClose c s
  | .tileDiscard c => Sys2Proof.Machine.execTileDiscard c s
  | .tileQuery c => Sys2Proof.Machine.execTileQuery c s
  | .towlineSet c => Sys2Proof.Machine.execTowlineSet c s
  | .towlineRelease c => Sys2Proof.Machine.execTowlineRelease c s
  | .scatterDescCreate c => Sys2Proof.Machine.execScatterDescCreate c s
  | .scatterDescRelease c => Sys2Proof.Machine.execScatterDescRelease c s
  | .scatterDescQuery c => Sys2Proof.Machine.execScatterDescQuery c s
  | .syncCreate c => Sys2Proof.Machine.execSyncCreate c s
  | .syncDestroy c => Sys2Proof.Machine.execSyncDestroy c s
  | .syncSet c => Sys2Proof.Machine.execSyncSet c s
  | .syncQuery c => Sys2Proof.Machine.execSyncQuery c s
  | .syncShare c => Sys2Proof.Machine.execSyncShare c s
  | .syncShareRemove c => Sys2Proof.Machine.execSyncShareRemove c s
  | .jamExport c => Sys2Proof.Machine.execJamExport c s
  | .jamEdgeExport cyc => Sys2Proof.Machine.execJamEdgeExport cyc s
  | .classSet c => Sys2Proof.Machine.execClassSet c s
  | .reserveBw c => Sys2Proof.Machine.execReserveBw c s
  | .releaseBw c => Sys2Proof.Machine.execReleaseBw c s
  | .effWindowEnd cyc => Sys2Proof.Machine.execEffWindowEnd cyc s
  | .latencyTolerance c => Sys2Proof.Machine.execLatencyTolerance c s
  | .seasonQuery c => Sys2Proof.Machine.execSeasonQuery c s
  | .thawGrant c => Sys2Proof.Machine.execThawGrant c s
  | .autumnEntry domain => Sys2Proof.Machine.execAutumnEntry domain s
  | .seasonWindowEnd cyc => Sys2Proof.Machine.execSeasonWindowEnd cyc s
  | .winterEntryComplete domain => Sys2Proof.Machine.execWinterEntryComplete domain s
  | .frostEntryComplete domain => Sys2Proof.Machine.execFrostEntryComplete domain s
  | .thawStart => Sys2Proof.Machine.execThawStart s
  | .thawComplete domain => Sys2Proof.Machine.execThawComplete domain s
  | .keyBind c => Sys2Proof.Machine.execKeyBind c s
  | .keyBindRevoke c => Sys2Proof.Machine.execKeyBindRevoke c s
  | .keyRotate c => Sys2Proof.Machine.execKeyRotate c s
  | .keyRetire c => Sys2Proof.Machine.execKeyRetire c s
  | .keyErase c => Sys2Proof.Machine.execKeyErase c s
  | .confAttach c => Sys2Proof.Machine.execConfAttach c s
  | .measureRead c => Sys2Proof.Machine.execMeasureRead c s
  | .scrubContext c => Sys2Proof.Machine.execScrubContext c s
  | .errlogRead c => Sys2Proof.Machine.execErrlogRead c s
  | .scrubRate c => Sys2Proof.Machine.execScrubRate c s
  | .scrubStep upset => Sys2Proof.Machine.execScrubStep upset s
  | .memoryScrubStep => Sys2Proof.Machine.execMemoryScrubStep s
  | .rotationSweepStep => Sys2Proof.Machine.execRotationSweepStep s
  | .inject c => Sys2Proof.Machine.execInject c s
  | .bankSpare c => Sys2Proof.Machine.execBankSpare c s
  | .wayDisable c => Sys2Proof.Machine.execWayDisable c s
  | .wayRestore c => Sys2Proof.Machine.execWayRestore c s
  | .dirReclaim c => Sys2Proof.Machine.execDirReclaim c s
  | .poisonClear c => Sys2Proof.Machine.execPoisonClear c s
  | .engineReset c => Sys2Proof.Machine.execEngineReset c s
  | .sliceFenceMode0 c => Sys2Proof.Machine.execSliceFenceMode0 c s
  | .sliceFenceMode1 c => Sys2Proof.Machine.execSliceFenceMode1 c s
  | .quiesceDrained => Sys2Proof.Machine.execQuiesceDrained s
  | .quiesceTimeout cyc => Sys2Proof.Machine.execQuiesceTimeout cyc s
  | .pmcConfig c => Sys2Proof.Machine.execPmcConfig c s
  | .pmcDumpSet c => Sys2Proof.Machine.execPmcDumpSet c s
  | .pmcPermit c => Sys2Proof.Machine.execPmcPermit c s
  | .dumpDue cyc => Sys2Proof.Machine.execDumpDue cyc s
  | .viewRecordWrite cyc => Sys2Proof.Machine.execViewRecordWrite cyc s
  | .confidentialLatch cyc => Sys2Proof.Machine.execConfidentialLatch cyc s
  | .pmTlmWindowEnd sum count cyc => Sys2Proof.Machine.execPmTlmWindowEnd sum count cyc s
  | .debugOpen c => Sys2Proof.Machine.execDebugOpen c s
  | .debugClose c => Sys2Proof.Machine.execDebugClose c s
  | .fwStage c => Sys2Proof.Machine.execFwStage c s
  | .fwStageTimeout cyc => Sys2Proof.Machine.execFwStageTimeout cyc s
  | .fwActivate c => Sys2Proof.Machine.execFwActivate c s
  | .fwActivateReady => Sys2Proof.Machine.execFwActivateReady s
  | .fwActivateTimeout cyc => Sys2Proof.Machine.execFwActivateTimeout cyc s
  | .fwQuery c => Sys2Proof.Machine.execFwQuery c s
  | .pinPressureWindowEnd cyc => Sys2Proof.Machine.execPinPressureWindowEnd cyc s
  | .teardownHoldExpiry ctx cyc => Sys2Proof.Machine.execTeardownHoldExpiry ctx cyc s
  | .syncIndexHoldExpiry index cyc => Sys2Proof.Machine.execSyncIndexHoldExpiry index cyc s
  | .manifestCoalescerDrain manifest => Sys2Proof.Machine.execManifestCoalescerDrain manifest s
  | .eventRecordWrite => Sys2Proof.Machine.execEventRecordWrite s
  | .hwFencePowerOff cyc => Sys2Proof.Machine.execHwFencePowerOff cyc s
  | .peekResult => Sys2Proof.Machine.execPeekResult s
  | .memoryPortCredit lines cycles => Sys2Proof.Machine.execMemoryPortCredit lines cycles s
  | .reservationTokenRefill cls => Sys2Proof.Machine.execReservationTokenRefill cls s
  | .sliceAliveToggle => Sys2Proof.Machine.execSliceAliveToggle s
  | .controllerStops => Sys2Proof.Machine.execControllerStops s

end Sys2Proof.Machine
end

