-- ==== Sys2Proof/Safety.lean ====
section
/-! DEFINITION. What statements say of a state: that nothing under way can go on by itself, that a command is about to start,
and what every step keeps. -/

namespace Sys2Proof.Machine

/-- A command in progress that waits for something from outside, or for a row of its own; a sweep waits for no write that has been
performed. -/
def runRests (m : Mach) (p : Prog) : Bool :=
  match p with
  | .copyHeld | .maintHeld | .key _ | .retire _ _ | .quiesce _ _ => true
  | .close c => !c.draining
  | .sweepRun todo sent _ _ before => before.all (fun k => decide (k ∈ unperformed m)) && (!todo.isEmpty || !sent.isEmpty)
  | .stage _ _ _ (some _) _ => true
  | .activate _ true _ => true
  | _ => false

/-- A hop that is not to go on: free, or bound, whole and not yet cut off. -/
def hopRests (h : Hop) : Bool := !h.valid || (!h.broken && !h.cut)

/-- A queued thaw is still needed. -/
def thawRests (m : Mach) (t : Thaw) : Bool :=
  !((dom m t.dom).season = .summer || (dom m t.dom).season = .autumn) || (dom m t.dom).entering.isSome

/-- Nothing that is under way can go on before something comes from outside or a row of its own: no request is held at a landing,
no engine has anything to try or to take in, every ticket and every queued write has been issued, and no command waits to start. -/
def resting (m : Mach) : Bool :=
  m.life.lockTo.isNone && m.cache.done.isEmpty && m.cache.own.isEmpty && m.cache.heldN.isEmpty && m.cache.heldS.isEmpty &&
  m.cache.tickets.all (·.issued) && m.cache.writes.all (·.issued) && m.berth.reloads.isEmpty && m.sync.thawQ.isEmpty &&
  (m.dir.recalls.isEmpty && m.dir.owing.isEmpty) && m.cmds.waiting.isEmpty && m.cmds.running.all (fun r => runRests m r.prog) && m.ringH.replies.isEmpty &&
  m.ringF.replies.isEmpty && m.red.folds.isEmpty && m.red.notices.isEmpty && m.red.hops.all (fun x => hopRests (hopOf m x.1)) &&
  m.sparse.slots.isEmpty && m.unsent.isEmpty && m.season.asleep.all (fun x => !domReady m x.2) && m.sync.waits.all (fun w => !w.late) &&
  m.lateDumps = 0 && m.sync.objs.all (fun x => !x.2.orphan) && m.season.queue.all (thawRests m) && m.keys.rots.all (fun r => (nextRun r.runs).isSome)

/-- The state that a command leaves when its own effect leaves the block as `m`: with what follows at once (log 1). -/
def State.after (s : State) (m : Mach) : State :=
  { s with fx := (finish (s.fx, m)).1, m := (finish (s.fx, m)).2 }

/-- The state with its block replaced: the queue and the fixed part are as they were. -/
abbrev State.put (s : State) (m : Mach) : State := { s with m := m }

/-- Domains that are on, in Summer, and used already in this window: an access to one of them finds it so and leaves it so. -/
def awake (m : Mach) (ds : List Nat) : Bool :=
  !m.life.domainsOff && m.life.vddSw && ds.all fun i => decide (i < 82) &&
    decide (dom m i = { dom m i with season := .summer, entering := none, idle := 0, used := true })

/-- No stored word, tag, directory entry or record disagrees with its code. -/
def sound (m : Mach) : Bool := decide (m.cache.errs = .none)

/-- Nothing of a context is at the slice: no command is in progress, no request or wait is held anywhere, no hop is bound, and the
context owns no object and is a member of none. -/
def bare (m : Mach) (c : Ctx) (g : Gen) : Bool :=
  m.cmds.running.isEmpty && m.cache.replay.isEmpty && m.cache.tickets.isEmpty && m.cache.writes.isEmpty && m.sparse.fills.isEmpty &&
  m.red.qN.isEmpty && m.red.qS.isEmpty && m.sync.coalWait.isEmpty && m.red.hops.isEmpty && m.sync.waits.isEmpty && decide (ownedCount m c g = 0) &&
  m.sync.members.all (fun x => !x.2.any (·.1 = c)) &&
  m.sync.objs.all fun x => let o := syncObj m (BitVec.ofNat 14 x.1); !(o.valid && !o.orphan && decide (o.owner = c) && decide (o.ogen = g))

/-- The packet that a command row brings, with the opcode and the variant of its row; none for another row, and for a sideband
transfer to another site. -/
def packetOf (fx : Fixed) (i : Instr) : Option CmdPkt :=
  match i with
  | .commandUnassigned opcode c => some (withOp opcode c)
  | .nop c => some (withOp 0x00 c)
  | .identify c => some (withOp 0x01 c)
  | .pilotClaim c => some (withOp 0x02 c)
  | .pilotRelease c => some (withOp 0x03 c)
  | .pilotHandover c => some (withOp 0x04 c)
  | .leaseRenew c => some (withOp 0x05 c)
  | .stateQuery c => some (withOp 0x06 c)
  | .levelLock c => some (withOp 0x07 c)
  | .ctxOpen c => some (withOp 0x10 c)
  | .ctxSetClass c => some (withOp 0x11 c)
  | .ctxSuspend c => some (withOp 0x12 c)
  | .ctxResume c => some (withOp 0x13 c)
  | .ctxPurge c => some (withOp 0x14 c)
  | .ctxClose c => some (withOp 0x15 c)
  | .ctxQuarantine c => some (withOp 0x16 c)
  | .ctxQuarantineRelease c => some (withFlag 0 (withOp 0x16 c))
  | .berthAlloc c => some (withOp 0x20 c)
  | .arenaObjectAlloc c => some (withOp 0x20 c)
  | .berthFree c => some (withOp 0x21 c)
  | .berthFreeAbort c => some (withFlag 0 (withOp 0x21 c))
  | .arenaObjectFree c => some (withOp 0x21 c)
  | .berthResize c => some (withOp 0x22 c)
  | .arenaGrant c => some (withOp 0x23 c)
  | .arenaRevoke c => some (withOp 0x24 c)
  | .queueCreate c => some (withOp 0x25 c)
  | .queueDestroy c => some (withOp 0x26 c)
  | .pinBudget c => some (withOp 0x27 c)
  | .copy c => some (withOp 0x30 c)
  | .copyMeasure c => some (withOp 0x31 c)
  | .rangeClean c => some (withOp 0x32 c)
  | .rangeInval c => some (withOp 0x33 c)
  | .rangeFlush c => some (withOp 0x34 c)
  | .rangeZero c => some (withOp 0x35 c)
  | .sparsePack c => some (withOp 0x36 c)
  | .sparseUnpack c => some (withOp 0x37 c)
  | .acquireSweep c => some (withOp 0x38 c)
  | .tileOpen c => some (withOp 0x40 c)
  | .tileClose c => some (withOp 0x41 c)
  | .tileDiscard c => some (withOp 0x42 c)
  | .tileQuery c => some (withOp 0x45 c)
  | .towlineSet c => some (withOp 0x43 c)
  | .towlineRelease c => some (withFlag 0 (withOp 0x43 c))
  | .scatterDescCreate c => some (withOp 0x44 c)
  | .scatterDescRelease c => some (withFlag 0 (withOp 0x44 c))
  | .scatterDescQuery c => some (withFlag 1 (withOp 0x44 c))
  | .syncCreate c => some (withOp 0x50 c)
  | .syncDestroy c => some (withOp 0x51 c)
  | .syncSet c => some (withOp 0x52 c)
  | .syncQuery c => some (withOp 0x53 c)
  | .syncShare c => some (withOp 0x54 c)
  | .syncShareRemove c => some (withFlag 0 (withOp 0x54 c))
  | .jamExport c => some (withOp 0x55 c)
  | .classSet c => some (withOp 0x60 c)
  | .reserveBw c => some (withOp 0x61 c)
  | .releaseBw c => some (withOp 0x62 c)
  | .latencyTolerance c => some (withOp 0x70 c)
  | .seasonQuery c => some (withOp 0x71 c)
  | .thawGrant c => some (withOp 0x72 c)
  | .keyBind c => some (withOp 0x80 c)
  | .keyBindRevoke c => some (withFlag 0 (withOp 0x80 c))
  | .keyRotate c => some (withOp 0x81 c)
  | .keyRetire c => some (withOp 0x82 c)
  | .keyErase c => some (withOp 0x83 c)
  | .confAttach c => some (withOp 0x84 c)
  | .measureRead c => some (withOp 0x85 c)
  | .scrubContext c => some (withOp 0x86 c)
  | .errlogRead c => some (withOp 0x90 c)
  | .scrubRate c => some (withOp 0x91 c)
  | .inject c => some (withOp 0x92 c)
  | .bankSpare c => some (withOp 0x93 c)
  | .wayDisable c => some (withOp 0x94 c)
  | .wayRestore c => some (withFlag 0 (withOp 0x94 c))
  | .dirReclaim c => some (withOp 0x95 c)
  | .poisonClear c => some (withOp 0x96 c)
  | .engineReset c => some (withOp 0x97 c)
  | .sliceFenceMode0 c => some (withMode false (withOp 0x98 c))
  | .sliceFenceMode1 c => some (withMode true (withOp 0x98 c))
  | .pmcConfig c => some (withOp 0xA0 c)
  | .pmcDumpSet c => some (withOp 0xA1 c)
  | .pmcPermit c => some (withOp 0xA2 c)
  | .debugOpen c => some (withOp 0xA8 c)
  | .debugClose c => some (withOp 0xA9 c)
  | .fwStage c => some (withOp 0xF0 c)
  | .fwActivate c => some (withOp 0xF1 c)
  | .fwQuery c => some (withOp 0xF2 c)
  | .sbCmd site c => if site = fx.siteId then some { c with path := .sideband } else none
  | _ => none

/-- The block as a packet that comes by VC2 or the sideband is taken: VC2 counts it (02 R37), and it has its number. -/
def atStart (p : CmdPkt) (m : Mach) : Mach :=
  let n := match p.path with
    | .vc2 _ _ => countN 0x040 (if bit p.w1 20 then some (BitVec.ofNat 12 (fld p.w1 11 0)) else none) none 1 m
    | _ => m
  { n with cmds := { n.cmds with nextId := n.cmds.nextId + 1 } }

/-- A command waits to start. -/
def waits (c : Rec) (m : Mach) : Mach := { m with cmds := { m.cmds with waiting := m.cmds.waiting ++ [c] } }

/-- The state that a command leaves when its own effect, as it starts, leaves the block as `n`: with the rest of that pass, and the
passes that follow (log 1). `c` and `m` are the command and the block as it starts. -/
def State.onward (s : State) (c : Rec) (m n : Mach) : State :=
  let x := lockEnd (s.fx, settleN s.fx (2 * work (waits c m) + 1) (tidyDone (pump s.fx n)))
  { s with fx := x.1, m := x.2 }

/-- A command row that comes by VC2 or the sideband comes to its turn at once: nothing under way can go on, the controller takes
commands and has room for one (03 R78, R95), its master is known (R67), and no earlier command makes it wait (R79). `c` is the
command, and `m` the block as it starts. -/
structure Arrives (s : State) (i : Instr) (c : Rec) (m : Mach) : Prop where
  still : resting s.m = true
  takes : controls s.m = true
  room : inProgress s.m < 64
  row : ∃ p, packetOf s.fx i = some p ∧ byRing p = false ∧ masterOf p.path = some c.master ∧ c = recOf s.m c.master p ∧ m = atStart p s.m
  turn : mustWait s.fx (waits c m) c = false

/-- It also starts: it passes the checks before its opcode's own (R76), the domains of its first step are awake
(13 R353), and what that step needs of the format map is ready. -/
structure Begins (s : State) (i : Instr) (c : Rec) (m : Mach) : Prop extends Arrives s i c m where
  passes : startStop s.fx (waits c m) c = none
  doms : stepDoms s.fx (waits c m) c = [] ∨ awake (waits c m) (stepDoms s.fx (waits c m) c) = true
  ready : readyNow s.fx c (waits c m) = (waits c m, some false)

/-- The request that a data-plane row brings, with the opcode and the variant of its row; none for another row. -/
def requestOf (i : Instr) : Option (BitVec 6 × Req) :=
  match i with
  | .rd r => some (opRD, r)
  | .rdVol r => some (opRDVOL, r)
  | .rdStream r => some (opRDSTREAM, r)
  | .wr r => some (opWR, r)
  | .wrThru r => some (opWRTHRU, r)
  | .wrFull r => some (opWRFULL, r)
  | .atom r => some (opATOM, r)
  | .atomRet r => some (opATOMRET, r)
  | .lred r => some (opLRED, r)
  | .tcontrib r => some (opTCONTRIB, r)
  | .tcontribW r => some (opTCONTRIBW, r)
  | .tfoldFold r => some (opTFOLD, { r with subop := 0 })
  | .tfoldSegment r => some (opTFOLD, { r with subop := 1 })
  | .tfoldAbort r => some (opTFOLD, { r with subop := 2 })
  | .signal r => some (opSIGNAL, r)
  | .wait r => some (opWAIT, r)
  | .brd r => some (opBRD, r)
  | .bwr r => some (opBWR, r)
  | .qenq r => some (opQENQ, r)
  | .qdeq r => some (opQDEQ, r)
  | .scatterRed r => some (opSCATTER, r)
  | .pfHint r => some (opPFHINT, r)
  | .dataPlaneUnassignedOpcode op r => some (op, r)
  | _ => none

/-- The checks of 03 R481 as each opcode meets them: by the space it names, its fields and its level. -/
def gateFor (fx : Fixed) (op : BitVec 6) (r : Req) (m : Mach) : Gate :=
  let here := fun (b : Bool) => if b then Own.ok else Own.mishomed
  if op = opSIGNAL ∨ op = opWAIT then gate op r (here (syncHome fx m r.address)) (syncFields op r) true m
  else if op = opTCONTRIB ∨ op = opTCONTRIBW ∨ op = opTFOLD then
    gate op r (here (berthHome fx m r.address)) (if op = opTFOLD then foldFields r else contribFields m op r) (tileLevel fx op r) m
  else if op = opBRD ∨ op = opBWR then gate op r (here (berthHome fx m r.address)) (berthFields op r) true m
  else if op = opQENQ ∨ op = opQDEQ then gate op r (here (syncHome fx m r.address)) (ferryFields op r) true m
  else if op ∈ dpOps then gate op r (ownMem (memHome fx m r.address)) (memFields op r) true m
  else gate op r (here (decide (fld r.address 63 48 = fx.procId.toNat))) false true m

/-- A data-plane request comes to the head of its landing: nothing under way can go on, and the strap does not hold it at its router
(02 R64). `op` and `r` are its opcode and fields, and `m` the block with its acceptance counted. -/
structure Lands (s : State) (i : Instr) (op : BitVec 6) (r : Req) (m : Mach) : Prop where
  still : resting s.m = true
  row : requestOf i = some (op, r)
  free : heldByStrap s.fx r.vc s.m = false
  counted : m = countAccept (.dp op r none) s.m

/-- It also passes the checks of 03 R481 up to the sixth step, and its manifest's, if it names one (06 R194). -/
structure Passes (s : State) (i : Instr) (op : BitVec 6) (r : Req) (m : Mach) : Prop extends Lands s i op r m where
  passes : gateFor s.fx op r m = .pass
  manifest : manifestStop m r = none

/-- No earlier access to the line waits on a ticket or a MERGE entry (04 R118, R482). -/
def lineFree (m : Mach) (l : LineNo) : Bool :=
  !(m.cache.tickets.any fun t => t.waiters.any (·.line = l)) && !(m.cache.writes.any fun w => isMerge w.after && w.line = l)

/-- A request's access to memory space, which has its place (04 R118), meets its line, dense, in a way with every sector that it needs: the domains on its path are
awake, no earlier access waits for the line, no fill of it and no snoop is out, no host holds anything, and the key rule of 14 R369
lets the context reach it. -/
structure Meets (fx : Fixed) (a : Access) (way : Nat) (m : Mach) : Prop where
  awake : awake m [dTag (quadOf a.line), dDir (quadOf a.line), dWay m (setOf a.line) way] = true
  sound : sound m = true
  first : waitsBefore m a = false
  unlocked : m.sparse.locked ≠ some (BitVec.ofNat 23 (granOf a.line))
  outside : inMap fx a.line = false
  hit : hitWay m a.line = some way
  dense : (tagAt m (setOf a.line) way).fmt = 0
  key : ∀ op r, a.src = .dp op r → (tagAt m (setOf a.line) way).keyv = true →
    mayReach m r.ctx (tagAt m (setOf a.line) way).keyslot (isWrite a.op) = true
  alone : ticketFor m a.line = none ∧ m.sparse.fills.find? (·.line = a.line) = none
  hosts : m.dir.ents = [] ∧ m.dir.recalls = [] ∧ m.dir.reclaim = none
  valid : needSect a &&& ~~~(tagAt m (setOf a.line) way).v = 0

end Sys2Proof.Machine
end

