-- ==== Sys2Proof/Certificates/Slice0/Obligations.lean ====
section
/-! DEFINITION. Statements about the block, for the provers: what it does at reset and at each command, what a command leaves as it
was, and what every step keeps. Words such as `complete`, `respond` and `post` are the shared operations of Machine/, which
statements of their own describe. -/

open Sys2Proof Sys2Proof.Machine

/-- For every command and state: the step of the state with the command at the front of its queue is that command performed on
the state with the queue's rest. With an empty queue the block idles and nothing changes (log 1, the model's choice). -/
def Obligations.StepTakesTheFront : Prop :=
  (∀ (c : Instr) (rest : List Instr) (s : State), step { s with pending := c :: rest } = exec c { s with pending := rest }) ∧
  (∀ s : State, s.pending = [] → step s = .next s)

/-- Performing any row of the table in any state answers a next state, with no fault and no refusal, and changes nothing in the
queue of commands that wait (log 1). What each row does is said by the statements that follow. -/
def Obligations.EveryRowCompletes : Prop :=
  ∀ (i : Instr) (s : State), ∃ t, exec i s = .next t ∧ t.pending = s.pending

/-- At reset no level is locked and no RO/L field is (00 R13, 01 Table SLICE-1), the slice is in OFF with no pilot and EPOCH 0
(03 R84), the rings and the event ring are disabled with SIZE 4 and empty (19 Tables WIN-3, WIN-4), the error log is empty and
the array scrub's rate is 0x0020 (15 R409), EFF is 4,000 and so the admission limit 3,600 (12 R337), the prefetch reserve, the
slipway's high mark and the pressure threshold are 0x10, 0x60 and 0x0400, every context slot is closed, no request, command,
wait or transfer is under way, and nothing has left. Fields that the manual gives no reset value hold what the logs name, and
nothing is said of them here. -/
def Obligations.ResetValues : Prop :=
  let m := State.reset.m
  State.reset.fx.level = none ∧ State.reset.fx.roLocked = false ∧ State.reset.pending = [] ∧
  m.life.st = .off ∧ stateWord State.reset.fx m = BitVec.ofNat 64 (stateCode .off) ∧
  m.ringH.en = false ∧ m.ringF.en = false ∧ m.ringH.size = 4 ∧ m.ringF.size = 4 ∧ m.ringH.tail = m.ringH.head ∧ m.ringF.tail = m.ringF.head ∧
  m.evq.en = false ∧ m.evq.size = 4 ∧ m.evq.pend = [] ∧ m.evq.seq = 0 ∧ m.evq.lost = 0 ∧
  m.err.log = [] ∧ m.err.fatal = false ∧ m.err.rate = 0x0020 ∧ m.regs.pfReserve = 0x10 ∧ m.regs.slipHigh = 0x60 ∧ m.regs.pressThresh = 0x0400 ∧
  m.qos.eff = 4000 ∧ limitOf m.qos.eff = 3600 ∧
  (∀ c, (ctxOf m c).opened = false) ∧ m.cache.tickets = [] ∧ m.cache.writes = [] ∧ m.cmds.running = [] ∧ m.sync.waits = [] ∧ m.out = []

/-- STATE_QUERY completes with DONE and the state word, whose fields are EPOCH, the pilot's master ID or 0, the locked level or
0, and the state's code (03 R84): the word's four fields, read back from it, are those values, and the model's state holds 0 for
no pilot. -/
def Obligations.StateWordFields : Prop :=
  ∀ (fx : Fixed) (m : Mach),
    fld (stateWord fx m) 63 32 = m.pilot.epoch.toNat ∧
    fld (stateWord fx m) 31 16 = m.pilot.master.toNat ∧
    fld (stateWord fx m) 15 8 = levelNum fx ∧ (fx.level = none → levelNum fx = 0) ∧
    (∀ l, fx.level = some l → levelNum fx = l.toNat) ∧
    fld (stateWord fx m) 7 0 = stateCode m.life.st ∧
    (∀ (s : State) (p : CmdPkt) (c : Rec), Begins s (.stateQuery p) c m → s.fx = fx →
      exec (.stateQuery p) s = .next (s.put (complete fx c csDone [stateWord fx m] m)))

/-- PILOT_RELEASE that passes the checks of its start ends in a state with no pilot, whose EPOCH is the one before (03 R87). -/
def Obligations.PilotReleaseKeepsEpoch : Prop :=
  ∀ (s : State) (p : CmdPkt) (c : Rec) (m : Mach), Begins s (.pilotRelease p) c m →
    ∃ t, exec (.pilotRelease p) s = .next t ∧ t.m.pilot.master = 0 ∧ t.m.pilot.epoch = s.m.pilot.epoch

/-- A command that completes by VC2 or the sideband leaves the commands in progress and sends one reply on its own path, of four
words: W0 holds the master ID, the number of result words, the opcode, the tag and the status in the places Table CMD-4 gives
with its reserved bits zero, W1 to W3 hold the results, and those beyond NRES are zero (03 R75). A command with EVENT set also
posts the event CMD_DONE that names it (R73, 19 R476). -/
def Obligations.ReplyWords : Prop :=
  (∀ (c : Rec) (st n : Nat), st < 2 ^ 16 → n ≤ 3 →
    let w := replyWord c st n
    fld w 63 48 = c.master.toNat ∧ fld w 47 44 = 0 ∧ fld w 43 40 = n ∧ fld w 39 32 = c.opcode.toNat ∧ fld w 31 16 = cTag c ∧ fld w 15 0 = st) ∧
  (∀ (fx : Fixed) (c : Rec) (st : Nat) (res : List W64) (m : Mach), byRing c.pkt = false →
    let gone := { m with cmds := { m.cmds with running := m.cmds.running.filter (·.cmd.id ≠ c.id) } }
    let said := emit (.reply c.pkt.path (replyWord c st res.length) (res.getD 0 0) (res.getD 1 0) (res.getD 2 0)) gone
    complete fx c st res m = if cEvent c then
      post fx 0x01 (BitVec.ofNat 64 (c.master.toNat * 2 ^ 48 + cTag c * 2 ^ 32 + c.opcode.toNat * 2 ^ 16 + st)) said else said) ∧
  (∀ res : List W64, (res.length ≤ 0 → res.getD 0 0 = 0) ∧ (res.length ≤ 1 → res.getD 1 0 = 0) ∧ (res.length ≤ 2 → res.getD 2 0 = 0))

/-- An event takes the event ring's sequence number and the control cycle, joins the pending buffer last, or is counted lost
when 64 wait, the count saturating, and the sequence number moves on either way; with SBMIR an SB_EVENT is sent (19 R475, R476).
An error that repeats the newest entry's class and place adds one to its REPEAT, saturating, and posts no event; any other
becomes the newest entry with REPEAT 0, pushing out the oldest of 1,024, and posts the event ERROR where its severity is 2 or
more (15 R404, R405). -/
def Obligations.EventsAndErrors : Prop :=
  (∀ (fx : Fixed) (code : BitVec 8) (d : W64) (m : Mach),
    let t := post fx code d m
    t.evq.seq = m.evq.seq + 1 ∧
    (m.evq.pend.length < 64 → t.evq.pend = m.evq.pend ++ [⟨code, m.evq.seq, BitVec.ofNat 32 m.cyc, d⟩] ∧ t.evq.lost = m.evq.lost) ∧
    (64 ≤ m.evq.pend.length → t.evq.pend = m.evq.pend ∧ t.evq.lost = if m.evq.lost = 0xFFFF then m.evq.lost else m.evq.lost + 1) ∧
    t = if m.evq.sbmir then emit (.sb (BitVec.ofNat 64 (11 * 2 ^ 60 + fx.siteId.toNat * 2 ^ 52 + code.toNat * 2 ^ 24 + m.evq.seq.toNat))) { m with evq := t.evq }
      else { m with evq := t.evq }) ∧
  (∀ (fx : Fixed) (cls at_ loc : Nat) (m : Mach),
    let t := logErr fx cls at_ loc m
    (∀ w0 w1, m.err.log.getLast? = some (w0, w1) → fld w0 63 56 = cls → fld w1 55 0 = loc % 2 ^ 56 →
      t.evq = m.evq ∧ t.err.next = m.err.next ∧
      (fld w1 63 56 = 0xFF → t = m) ∧
      (fld w1 63 56 ≠ 0xFF → t.err.log = m.err.log.dropLast ++ [(w0, w1 + BitVec.ofNat 64 (2 ^ 56))])) ∧
    ((∀ w0 w1, m.err.log.getLast? = some (w0, w1) → ¬ (fld w0 63 56 = cls ∧ fld w1 55 0 = loc % 2 ^ 56)) →
      t.err.next = m.err.next + 1 ∧
      t.err.log = (if 1024 ≤ m.err.log.length then m.err.log.drop 1 else m.err.log) ++
        [(BitVec.ofNat 64 (cls * 2 ^ 56 + sevOf cls * 2 ^ 53 + at_ * 2 ^ 48 + m.err.next.toNat * 2 ^ 32 + m.cyc % 2 ^ 32), BitVec.ofNat 64 (loc % 2 ^ 56))] ∧
      (sevOf cls < 2 → t.evq = m.evq) ∧
      (2 ≤ sevOf cls → t.evq = (post fx 0x06 (BitVec.ofNat 64 (cls * 2 ^ 56 + m.err.next.toNat * 2 ^ 32)) m).evq)))

/-- A command that arrives by VC2 or the sideband, may start and fails one of the checks made before its opcode's own is
answered with the first failure and has no other effect (03 R76): an unassigned opcode is BAD_OPCODE; reserved bits, LEN or
unused words that are wrong are BAD_PARAM; authority comes next, then the state, answered BAD_STATE with the state word (R98),
then the level (LEVEL_UNSUPPORTED), then the context (R74). A row whose opcode the table does not hold so answers BAD_OPCODE. -/
def Obligations.RefusalsAtTheStart : Prop :=
  (∀ (s : State) (i : Instr) (c : Rec) (m : Mach) (st : Nat) (res : List W64), Arrives s i c m → startStop s.fx (waits c m) c = some (st, res) →
    exec i s = .next (s.put (complete s.fx c st res m))) ∧
  (∀ (s : State) (op : Byte) (p : CmdPkt) (c : Rec) (m : Mach), Arrives s (.commandUnassigned op p) c m → rowOf? op.toNat opTable = none →
    exec (.commandUnassigned op p) s = .next (s.put (complete s.fx c csBadOpcode [] m))) ∧
  (∀ (fx : Fixed) (m : Mach) (c : Rec),
    (opRow c = none → startStop fx m c = some (csBadOpcode, [])) ∧
    (∀ r, opRow c = some r →
      (bitsOk c r = false → startStop fx m c = some (csBadParam, [])) ∧
      (bitsOk c r = true →
        (∀ a, authority m c r = some a → startStop fx m c = some (a, [])) ∧
        (authority m c r = none →
          (legalNow m c r = false → startStop fx m c = some (csBadState, [stateWord fx m])) ∧
          (legalNow m c r = true → levelHas fx c = false → startStop fx m c = some (csLevel, [])) ∧
          (legalNow m c r = true → levelHas fx c = true →
            (∀ a, ctxStop m c r = some a → startStop fx m c = some (a, [])) ∧
            (ctxStop m c r = none → startStop fx m c = none))))))

/-- For every state in which a level is locked and RO/L fields are locked, every step whose command is not COLD_RST_ASSERT
leaves the level, the RO/L fields and the straps as they were: a register write that would change one is ignored until the next
cold reset (00 R13, Table SCOPE-3), and a second LEVEL_LOCK changes no level. -/
def Obligations.LockedFieldsStay : Prop :=
  ∀ (s t : State) (c : Instr) (rest : List Instr), s.pending = c :: rest → c ≠ .coldRstAssert → s.fx.roLocked = true → s.fx.level.isSome = true →
    step s = .next t → t.fx = s.fx

/-- For every state in which a level is locked exactly when RO/L fields are locked, every step, whatever its command, ends in
such a state: LEVEL_LOCK locks both at once, a cold reset clears both, and nothing else touches either (00 R13, 03). -/
def Obligations.LevelAndLockAgree : Prop :=
  ∀ s t : State, s.fx.level.isSome = s.fx.roLocked → step s = .next t → t.fx.level.isSome = t.fx.roLocked

/-- The invariant that every step keeps (LevelAndLockAgree) holds of the state at reset: no level is locked and no RO/L field is
(00 R13). -/
def Obligations.ResetLevelAndLock : Prop :=
  State.reset.fx.level.isSome = State.reset.fx.roLocked ∧ State.reset.fx.roLocked = false

/-- A NOP, IDENTIFY, STATE_QUERY, PILOT_RELEASE or LEASE_RENEW that starts at once completes with DONE (03 R79, R83, R84, R87,
R88). IDENTIFY answers the vendor and block codes, the stepping, the mask of levels 1 to 3, the processor ID, SITE_ID, the
logical number with its valid bit, the locked level and the running firmware's version; STATE_QUERY answers EPOCH, the pilot's
master ID, the locked level and the state code. PILOT_RELEASE leaves no pilot, keeps EPOCH and posts PILOT_CHANGE where there
was one; LEASE_RENEW restarts the lease; the others change nothing. Everything else is as it was when the command started; the
priority of no pilot is the model's (log 39). -/
def Obligations.SmallCommandsComplete : Prop :=
  ∀ (s : State) (p : CmdPkt) (c : Rec) (m : Mach),
    (Begins s (.nop p) c m → exec (.nop p) s = .next (s.put (complete s.fx c csDone [] m))) ∧
    (Begins s (.identify p) c m → exec (.identify p) s = .next (s.put (complete s.fx c csDone
      [BitVec.ofNat 64 (0x1C3E * 2 ^ 48 + 0x0001 * 2 ^ 32 + Config.stepping.toNat * 2 ^ 24 + 0b111 * 2 ^ 16),
       BitVec.ofNat 64 (s.fx.procId.toNat * 2 ^ 48 + s.fx.siteId.toNat * 2 ^ 40 + (if m.regs.lv then 1 else 0) * 2 ^ 39 +
         m.regs.logical.toNat * 2 ^ 32 + levelNum s.fx * 2 ^ 24),
       BitVec.ofNat 64 ((if m.fw.bankB then m.fw.verB else m.fw.verA).toNat * 2 ^ 32)] m))) ∧
    (Begins s (.stateQuery p) c m → exec (.stateQuery p) s = .next (s.put (complete s.fx c csDone
      [BitVec.ofNat 64 (m.pilot.epoch.toNat * 2 ^ 32 + m.pilot.master.toNat * 2 ^ 16 + levelNum s.fx * 2 ^ 8 + stateCode m.life.st)] m))) ∧
    (Begins s (.pilotRelease p) c m → exec (.pilotRelease p) s = .next (s.put (complete s.fx c csDone []
      (if m.pilot.master = 0 then { m with pilot := { m.pilot with master := 0, priority := 0 } }
       else post s.fx 0x02 (BitVec.ofNat 64 (m.pilot.epoch.toNat * 2 ^ 32 + 2))
         { m with pilot := { m.pilot with master := 0, priority := 0 } })))) ∧
    (Begins s (.leaseRenew p) c m → exec (.leaseRenew p) s = .next (s.put (complete s.fx c csDone []
      { m with pilot := { m.pilot with leaseFrom := m.cyc } })))

/-- A PILOT_CLAIM that starts at once is accepted when there is no pilot and its epoch is at least EPOCH, when its epoch exceeds
EPOCH, or when the epochs are equal and its priority exceeds the pilot's: the claimant is pilot, EPOCH and the priority are the
claim's, the lease starts, and the answer is DONE; else it is DENIED and changes nothing; either reply carries the state word
(03 R85). A PILOT_HANDOVER to 1, 2 or 3 and not to its sender makes that master pilot at the same EPOCH with the priority of P0
[23:16], the lease restarts; any other target is BAD_PARAM (03 R86). A change of pilot posts PILOT_CHANGE. A LEVEL_LOCK in READY
with no level locked, to 1 or 2 or to 3 with no format map to clear, enters service, fixes the level and locks the RO/L fields
(03 R99, 17 R446). -/
def Obligations.PilotClaimsAndHandover : Prop :=
  ∀ (s : State) (p : CmdPkt) (c : Rec) (m : Mach),
    (Begins s (.pilotClaim p) c m →
      let ep : W32 := BitVec.ofNat 32 (fld c.pkt.p0 63 32)
      let pr : Byte := BitVec.ofNat 8 (fld c.pkt.p0 7 0)
      let m' : Mach := { m with pilot := { epoch := ep, master := c.master, priority := pr, leaseFrom := m.cyc } }
      ((m.pilot.master = 0 ∧ m.pilot.epoch ≤ ep) ∨ m.pilot.epoch < ep ∨ (ep = m.pilot.epoch ∧ m.pilot.priority < pr) →
        exec (.pilotClaim p) s = .next (s.put (complete s.fx c csDone [stateWord s.fx m'] (pilotChange s.fx m.pilot.master 0 m')))) ∧
      (¬ ((m.pilot.master = 0 ∧ m.pilot.epoch ≤ ep) ∨ m.pilot.epoch < ep ∨ (ep = m.pilot.epoch ∧ m.pilot.priority < pr)) →
        exec (.pilotClaim p) s = .next (s.put (complete s.fx c csDenied [stateWord s.fx m] m)))) ∧
    (Begins s (.pilotHandover p) c m →
      let t : BitVec 16 := BitVec.ofNat 16 (fld c.pkt.p0 15 0)
      ((t = 1 ∨ t = 2 ∨ t = 3) ∧ t ≠ c.master →
        exec (.pilotHandover p) s = .next (s.put (complete s.fx c csDone [] (pilotChange s.fx m.pilot.master 1
          { m with pilot := { m.pilot with master := t, priority := BitVec.ofNat 8 (fld c.pkt.p0 23 16), leaseFrom := m.cyc } })))) ∧
      (¬ ((t = 1 ∨ t = 2 ∨ t = 3) ∧ t ≠ c.master) → exec (.pilotHandover p) s = .next (s.put (complete s.fx c csBadParam [] m)))) ∧
    (Begins s (.levelLock p) c m → m.life.st = .ready → s.fx.level = none → ∀ l : BitVec 2, fld c.pkt.p0 7 0 = l.toNat → l ≠ 0 →
      (l = 3 ∧ s.fx.fmapEn ∧ ¬ s.fx.fmapKeep → False) →
      let m' : Mach := { m with life := { m.life with st := if m.err.degraded then .degraded else .service } }
      exec (.levelLock p) s = .next { s with
        fx := { s.fx with level := some l, roLocked := true }
        m := complete s.fx c csDone [stateWord { s.fx with level := some l, roLocked := true } m'] m' })

/-- A CTX_OPEN without KEYV that starts at once opens its slot with the new generation, the permissions of P0 [11:4] and the
class of P0 [3:0], with no key slot, when the slot is closed, its generation differs from GEN and its teardown hold has ended;
where the slot is open or has that generation it is BAD_PARAM with the slot's generation, and while the hold runs it is
BUSY_RETRY with the ticks left (03 R90, 16 R437). CTX_SET_CLASS replaces the default class with P0 [3:0] (R91), CTX_SUSPEND and
CTX_RESUME set and clear the suspension (R92). A CTX_CLOSE of a context that owns nothing and is not confidential closes the
slot, which keeps its generation, ends its grants and permits and starts its teardown hold; with an object it is BUSY_RETRY with
their number (R93). Nothing else changes. -/
def Obligations.ContextRecords : Prop :=
  ∀ (s : State) (p : CmdPkt) (c : Rec) (m : Mach),
    (Begins s (.ctxOpen p) c m →
      ((ctxOf m (cCtx c)).opened = true ∨ (ctxOf m (cCtx c)).gen = cGen c → exec (.ctxOpen p) s =
        .next (s.put (complete s.fx c csBadParam [(ctxOf m (cCtx c)).gen.zeroExtend 64] m))) ∧
      ((ctxOf m (cCtx c)).opened = false → (ctxOf m (cCtx c)).gen ≠ cGen c →
        (tickOf m.cyc < (ctxOf m (cCtx c)).holdTick → exec (.ctxOpen p) s =
          .next (s.put (complete s.fx c csBusy [BitVec.ofNat 64 ((ctxOf m (cCtx c)).holdTick - tickOf m.cyc)] m))) ∧
        ((ctxOf m (cCtx c)).holdTick ≤ tickOf m.cyc → bit c.pkt.p0 21 = false → exec (.ctxOpen p) s =
          .next (s.put (complete s.fx c csDone [] (setCtx (cCtx c) { CtxEntry.closed with
            gen := cGen c, opened := true, perm := BitVec.ofNat 8 (fld c.pkt.p0 11 4), cls := BitVec.ofNat 4 (fld c.pkt.p0 3 0) } m)))))) ∧
    (Begins s (.ctxSetClass p) c m → exec (.ctxSetClass p) s = .next (s.put (complete s.fx c csDone []
      (setCtx (cCtx c) { ctxOf m (cCtx c) with cls := BitVec.ofNat 4 (fld c.pkt.p0 3 0) } m)))) ∧
    (Begins s (.ctxSuspend p) c m → exec (.ctxSuspend p) s = .next (s.put (complete s.fx c csDone []
      (setCtx (cCtx c) { ctxOf m (cCtx c) with suspended := true } m)))) ∧
    (Begins s (.ctxResume p) c m → exec (.ctxResume p) s = .next (s.put (complete s.fx c csDone []
      (setCtx (cCtx c) { ctxOf m (cCtx c) with suspended := false } m)))) ∧
    (Begins s (.ctxClose p) c m →
      (ownedCount m (cCtx c) (ctxOf m (cCtx c)).gen ≠ 0 ∨ (ctxOf m (cCtx c)).conf = true → exec (.ctxClose p) s =
        .next (s.put (complete s.fx c csBusy [BitVec.ofNat 64 (ownedCount m (cCtx c) (ctxOf m (cCtx c)).gen)] m))) ∧
      (bare m (cCtx c) (ctxOf m (cCtx c)).gen = true → (ctxOf m (cCtx c)).conf = false → (ctxOf m (cCtx c)).lost = false →
        exec (.ctxClose p) s = .next (s.put (complete s.fx c csDone [] (setCtx (cCtx c)
          { CtxEntry.closed with gen := (ctxOf m (cCtx c)).gen, holdTick := tickOf m.cyc + max 1 m.regs.holdTicks.toNat }
          { m with keys := { m.keys with grants := m.keys.grants.filter (·.ctx ≠ cCtx c) }
                   pmc := { m.pmc with permits := m.pmc.permits.filter (·.ctx ≠ cCtx c) } })))))

/-- With nothing of the context at the slice, a CTX_PURGE that starts at once marks the slot purged and not frozen at the named
generation, ends its grants and permits, posts CTX_PURGED with the context and its generation, and completes with DONE and the
three counts zero (16 R426 to R428); a CTX_QUARANTINE of a context that is not frozen freezes it, posts CTX_QUARANTINE and
completes with DONE; its release unfreezes it, posts the event with RELEASE set and completes with DONE and a count of zero
waits; a freeze of a frozen context and a release of one that is not complete with DONE and change nothing else (R432, R433).
QUARANTINE_TIMEOUT, where no freeze runs, moves the clock alone; where one has run 262,144 control cycles it completes it with
WARN and the number of requests still out. TEARDOWN_HOLD_EXPIRY ends the hold of a slot whose tick has come, and ends no other
(R437). -/
def Obligations.ContextTeardown : Prop :=
  ∀ (s : State) (p : CmdPkt) (c : Rec) (m : Mach),
    (Begins s (.ctxPurge p) c m → bare m (cCtx c) (cGen c) = true → (∀ q, m.cmds.purge = some q → q.1 = cCtx c → q.2.2.1 ≠ m.cyc) →
      (purgeDoms m (cCtx c) = [] ∨ awake m (purgeDoms m (cCtx c)) = true) →
      let n := post s.fx 0x0C (BitVec.ofNat 64 ((cGen c).toNat * 4096 + (cCtx c).toNat))
        { setCtx (cCtx c) { ctxOf m (cCtx c) with purged := true, frozen := false, gen := cGen c } m with
          keys := { m.keys with grants := m.keys.grants.filter fun k => !(k.ctx = cCtx c && k.gen = cGen c) }
          pmc := { m.pmc with permits := m.pmc.permits.filter (·.ctx ≠ cCtx c) } }
      exec (.ctxPurge p) s = .next (s.put (complete s.fx c csDone [0, 0, 0]
        { n with cmds := { n.cmds with purge := some (cCtx c, cGen c, m.cyc, csDone, [0, 0, 0]) } }))) ∧
    (Begins s (.ctxQuarantine p) c m → cFlag c 0 = false →
      ((ctxOf m (cCtx c)).frozen = true → exec (.ctxQuarantine p) s = .next (s.put (complete s.fx c csDone [] m))) ∧
      ((ctxOf m (cCtx c)).frozen = false → bare m (cCtx c) (cGen c) = true →
        exec (.ctxQuarantine p) s = .next (s.put (complete s.fx c csDone []
          (post s.fx 0x0D (BitVec.ofNat 64 ((cGen c).toNat * 4096 + (cCtx c).toNat))
            (setCtx (cCtx c) { ctxOf m (cCtx c) with frozen := true } m)))))) ∧
    (Begins s (.ctxQuarantineRelease p) c m →
      ((ctxOf m (cCtx c)).frozen = false → exec (.ctxQuarantineRelease p) s = .next (s.put (complete s.fx c csDone [0] m))) ∧
      ((ctxOf m (cCtx c)).frozen = true → bare m (cCtx c) (ctxOf m (cCtx c)).gen = true → exec (.ctxQuarantineRelease p) s =
        .next (s.put (complete s.fx c csDone [0] (post s.fx 0x0D (BitVec.ofNat 64 (2 ^ 32 + (cGen c).toNat * 4096 + (cCtx c).toNat))
          (setCtx (cCtx c) { ctxOf m (cCtx c) with frozen := false } m)))))) ∧
    (∀ (x : Ctx) (cyc : Nat),
      ((∀ r ∈ s.m.cmds.running, ∀ f, r.prog ≠ .quarantine f) → exec (.quarantineTimeout x cyc) s = .next (s.after (advance cyc s.m))) ∧
      (∀ r f, s.m.cmds.running = [r] → r.prog = .quarantine f → cCtx r.cmd = x → f + 262144 ≤ max cyc s.m.cyc →
        exec (.quarantineTimeout x cyc) s = .next (s.after (complete s.fx r.cmd csWarn
          [0, BitVec.ofNat 64 (ctxOut (advance cyc s.m) x (cGen r.cmd))] (advance cyc s.m)))) ∧
      exec (.teardownHoldExpiry x cyc) s = .next (s.after
        (if (ctxOf s.m x).holdTick ≠ 0 ∧ (ctxOf s.m x).holdTick ≤ max cyc s.m.cyc / 65536 then
          setCtx x { ctxOf s.m x with holdTick := 0 } (advance cyc s.m)
         else advance cyc s.m)))

/-- A BERTH_ALLOC that starts at once with ARENA zero and SIZE from 1 to 2 MiB takes the next free index, granules for the whole
size and a run of map entries, pins them and answers the handle, the berth's first address and its size in bytes, in a block
that can then rest (05 R155, R156); without a logical number it is MISHOMED. A BERTH_FREE of a berth that its handle names and
no queue holds marks it freeing, so that its handle is refused, and answers its REFS (R158); with ABORT and nothing that refers
to it, it is released before the answer (R159). A BERTH_RESIZE to fewer or as many granules, all queues inside them, unpins the
granules beyond and clears SRCV (R160). A stale handle is STALE. BERTH_GRANULES_RELEASE releases a berth being freed whose REFS
are zero, with the BERTH_RELEASED event when the free asked for it, and does nothing to any other (R158). -/
def Obligations.BerthCommands : Prop :=
  ∀ (s : State) (p : CmdPkt) (c : Rec) (m : Mach) (i : Nat),
    (Begins s (.berthAlloc p) c m → c.pkt.p1 = 0 →
      (m.regs.lv = false → exec (.berthAlloc p) s = .next (s.put (complete s.fx c csMishomed [] m))) ∧
      (m.regs.lv = true → 0 < fld c.pkt.p0 31 0 → fld c.pkt.p0 31 0 ≤ 2097152 →
        let n := (fld c.pkt.p0 31 0 + 4095) / 4096
        fqPeek 4096 m.berth.berthQ = some i → mapUsed m + n ≤ 3072 → ctxPinned m (cCtx c) + n ≤ (ctxOf m (cCtx c)).pinCap.toNat →
        ∀ gs m1 e m3, chooseGranules m n (pinnedGranules m) = some gs → mapPlace n m = (m1, some e) →
        pinWays s.fx c.id (gs.flatMap granuleKeys) (runOn c (.pin (BitVec.ofNat 12 i) (gs.flatMap granuleKeys)) (putRun e (gs.map (· + 1))
          (setBerth i { Berth.free with valid := true, ctx := cCtx c, size := BitVec.ofNat 9 (n - 1), mapbase := BitVec.ofNat 12 e,
                                        gen := (berthOf m1 i).gen, moving := true }
            { m1 with berth := { m1.berth with berthQ := fqPop 4096 m1.berth.berthQ } }))) = (m3, []) → i < 4096 →
        let b := berthOf m3 i
        let t := complete s.fx c csDone [handleOf 0 b.gen i,
          berthAddr s.fx m3 i b.gen 0, BitVec.ofNat 64 ((b.size.toNat + 1) * 4096)] (setBerth i { b with moving := false } m3)
        resting t = true → exec (.berthAlloc p) s = .next (s.put t))) ∧
    (Begins s (.berthFree p) c m → hKind c.pkt.p0 = 0 → cFlag c 0 = false →
      (heldBerth m (cCtx c) c.pkt.p0 = none → exec (.berthFree p) s = .next (s.put (complete s.fx c csStale [] m))) ∧
      (heldBerth m (cCtx c) c.pkt.p0 = some i →
        ((berthOf m i).qheld = true → exec (.berthFree p) s = .next (s.put (complete s.fx c csBusy [1] m))) ∧
        ((berthOf m i).qheld = false → exec (.berthFree p) s = .next (s.put (
          let f := setBerth i { berthOf m i with valid := false, freeing := true, gen := (berthOf m i).gen + 1, event := cEvent c, moving := false } m
          complete s.fx c csDone [BitVec.ofNat 64 (berthRefs f i)] f))))) ∧
    (Begins s (.berthFreeAbort p) c m → hKind c.pkt.p0 = 0 → heldBerth m (cCtx c) c.pkt.p0 = some i → (berthOf m i).qheld = false →
      m.cmds.running = [] → m.red.hops = [] → m.red.tiles = [] →
      let f := runOn c (.drainRefs 0) (setBerth i
        { berthOf m i with valid := false, freeing := true, gen := (berthOf m i).gen + 1, event := cEvent c, moving := false } m)
      berthRefs f i = 0 →
      let t := complete s.fx c csDone [0] (releaseIfDone s.fx i f)
      resting t = true → exec (.berthFreeAbort p) s = .next (s.put t)) ∧
    (Begins s (.berthResize p) c m → heldBerth m (cCtx c) c.pkt.p0 = some i → lostObj m 1 i = false →
      let b := berthOf m i
      let n := (fld c.pkt.p1 31 0 + 4095) / 4096
      0 < fld c.pkt.p1 31 0 → n ≤ b.size.toNat + 1 → ((berthQueues m i).all fun x => x.2.base.toNat * 128 + ferryBytes x.2 ≤ n * 4096) = true →
      let t := complete s.fx c csDone [] (setBerth i { b with size := BitVec.ofNat 9 (n - 1), srcv := false }
        (dropRun (b.mapbase.toNat + n) (b.size.toNat + 1 - n) (unpinGranules (((berthRun m b).drop n).map (· - 1)) m)))
      resting t = true → exec (.berthResize p) s = .next (s.put t)) ∧
    (∀ k : BitVec 12,
      ((berthOf s.m k.toNat).freeing = true → berthRefs s.m k.toNat = 0 → exec (.berthGranulesRelease k) s = .next (s.after (
        let r := releaseBerth k.toNat (unlose 1 k.toNat s.m)
        if (berthOf s.m k.toNat).event then post s.fx 0x04 (handleOf 0 ((berthOf s.m k.toNat).gen - 1) k.toNat) r else r))) ∧
      ((berthOf s.m k.toNat).freeing = false ∨ berthRefs s.m k.toNat ≠ 0 → exec (.berthGranulesRelease k) s = .next (s.after s.m)))

/-- An ARENA_GRANT that starts at once of a power of two from 1 MiB to 256 MiB, aligned, homed here, meeting no live arena and
within the limits takes the next free arena index and answers its handle (05 R163). BERTH_ALLOC naming an arena rounds SIZE up
to a power of two of at least 256 bytes, takes the lowest fitting block and the next free object index and answers the object's
handle, its address and its size (R164); BERTH_FREE of an object frees it (R165); ARENA_REVOKE removes an arena; without FORCE
it is DENIED for a lost one (15 R400) and BUSY_RETRY with their number for one with objects in it (R166). QUEUE_CREATE takes the
next free queue index, writes the queue's record with the fields of P1, marks the berth as holding a queue and answers the
queue's handle (R170); QUEUE_DESTROY frees the queue and answers the number of entries it held; while operations are parked on
the queue it has advanced GEN, so that its handle is refused, and goes on as they end (R174). PIN_BUDGET sets the context's cap
and answers the granules it has pinned (R161). A handle that names nothing of the context is STALE. -/
def Obligations.ArenaAndQueueCommands : Prop :=
  ∀ (s : State) (p : CmdPkt) (c : Rec) (m : Mach) (i j : Nat),
    (Begins s (.arenaGrant p) c m → m.regs.lv = true →
      let n := c.pkt.p1.toNat
      (∃ k < 9, n = 1048576 * 2 ^ k) → c.pkt.p0.toNat % n = 0 → rangeHomed s.fx m c.pkt.p0 n = true → mapMeets s.fx (rangeRuns s.fx m c.pkt.p0 n) = false →
      (∀ a ∈ liveArenas m, runsMeet (rangeRuns s.fx m a.start a.length) (rangeRuns s.fx m c.pkt.p0 n) = false) →
      (liveArenas m).length < 64 → ((liveArenas m).map (·.length)).sum + n ≤ 268435456 → fqPeek 64 m.berth.arenaQ = some i →
      exec (.arenaGrant p) s = .next (s.put (complete s.fx c csDone [handleOf 1 (arenaOf m i).gen i]
        { m with berth := { m.berth with
            arenaQ := fqPop 64 m.berth.arenaQ
            arenas := tset .free m.berth.arenas i
              { valid := true, gen := (arenaOf m i).gen, ctx := cCtx c, start := c.pkt.p0
                base := BitVec.ofNat 35 (((lineAt s.fx m c.pkt.p0).elim 0 (·.toNat)) * 128), length := n } } }))) ∧
    (Begins s (.arenaRevoke p) c m →
      (heldArena m (cCtx c) c.pkt.p0 = none → exec (.arenaRevoke p) s = .next (s.put (complete s.fx c csStale [] m))) ∧
      (heldArena m (cCtx c) c.pkt.p0 = some i → lostObj m 8 i = true → cFlag c 0 = false → exec (.arenaRevoke p) s = .next (s.put (complete s.fx c csDenied [] m))) ∧
      (heldArena m (cCtx c) c.pkt.p0 = some i → lostObj m 8 i = false → arenaObjs m i ≠ [] → cFlag c 0 = false → exec (.arenaRevoke p) s =
        .next (s.put (complete s.fx c csBusy [BitVec.ofNat 64 (arenaObjs m i).length] m))) ∧
      (heldArena m (cCtx c) c.pkt.p0 = some i → lostObj m 8 i = false ∨ cFlag c 0 = true → arenaObjs m i = [] → exec (.arenaRevoke p) s =
        .next (s.put (complete s.fx c csDone [] { m with
          err := { m.err with lost := m.err.lost.filter (· ≠ 8 * 16384 + i) }
          berth := { m.berth with
            arenas := tset .free m.berth.arenas i { Arena.free with gen := (arenaOf m i).gen + 1 }
            arenaQ := fqPush i m.berth.arenaQ } })))) ∧
    (Begins s (.arenaObjectAlloc p) c m → c.pkt.p1 ≠ 0 → m.regs.lv = true → heldArena m (cCtx c) c.pkt.p1 = some i → lostObj m 8 i = false →
      let size := pow2Up (fld c.pkt.p0 31 0) 24 256
      size ≤ 64 * 1048576 → size ≤ (arenaOf m i).length → ∀ off, buddyPick m i size = some off → fqPeek 16384 m.berth.objQ = some j →
      exec (.arenaObjectAlloc p) s = .next (s.put (complete s.fx c csDone
        [handleOf 2 (objOf m j).gen j, (arenaOf m i).start + BitVec.ofNat 64 off, BitVec.ofNat 64 size]
        { m with berth := { m.berth with
            objQ := fqPop 16384 m.berth.objQ
            objs := tset .free m.berth.objs j
              { valid := true, gen := (objOf m j).gen, ctx := cCtx c, arena := BitVec.ofNat 6 i, offset := off, size := size } } }))) ∧
    (Begins s (.arenaObjectFree p) c m → hKind c.pkt.p0 = 2 → cFlag c 0 = false →
      (heldObj m (cCtx c) c.pkt.p0 = none → exec (.arenaObjectFree p) s = .next (s.put (complete s.fx c csStale [] m))) ∧
      (heldObj m (cCtx c) c.pkt.p0 = some i → exec (.arenaObjectFree p) s = .next (s.put (complete s.fx c csDone [] { m with
        err := { m.err with lost := m.err.lost.filter (· ≠ 9 * 16384 + i) }
        berth := { m.berth with
          objs := tset .free m.berth.objs i { ArenaObj.free with gen := (objOf m i).gen + 1 }
          objQ := fqPush i m.berth.objQ } })))) ∧
    (Begins s (.queueCreate p) c m →
      (m.regs.lv = true → heldBerth m (cCtx c) c.pkt.p0 = none → exec (.queueCreate p) s = .next (s.put (complete s.fx c csStale [] m))) ∧
      (m.regs.lv = true → heldBerth m (cCtx c) c.pkt.p0 = some i → lostObj m 1 i = false → queueBad m c i = false →
        fqPeek 1024 m.berth.ferryQ = some j → exec (.queueCreate p) s = .next (s.put (complete s.fx c csDone [handleOf 3 (ferryOf m j).gen j]
          { m with berth := { m.berth with
              ferryQ := fqPop 1024 m.berth.ferryQ
              ferries := tset .free m.berth.ferries j
                { valid := true, gen := (ferryOf m j).gen, ctx := cCtx c, berth := BitVec.ofNat 12 i
                  base := BitVec.ofNat 14 (fld c.pkt.p1 63 50), esize := BitVec.ofNat 3 (fld c.pkt.p1 49 47)
                  depth := BitVec.ofNat 5 (fld c.pkt.p1 46 42), notifyV := bit c.pkt.p1 41
                  ngen := BitVec.ofNat 8 (fld c.pkt.p1 40 33), notify := BitVec.ofNat 14 (fld c.pkt.p1 32 19), head := 0, tail := 0, closing := false }
              berths := tset .free m.berth.berths i { berthOf m i with qheld := true } } })))) ∧
    (Begins s (.queueDestroy p) c m →
      (heldQueue m (cCtx c) c.pkt.p0 = none → exec (.queueDestroy p) s = .next (s.put (complete s.fx c csStale [] m))) ∧
      (heldQueue m (cCtx c) c.pkt.p0 = some i →
        let f := ferryOf m i
        let d : Mach := { m with
          err := { m.err with lost := m.err.lost.filter (· ≠ 2 * 16384 + i) }
          berth := { m.berth with
            ferries := tset .free m.berth.ferries i { Ferry.free with gen := f.gen + 1 }
            ferryQ := fqPush i m.berth.ferryQ } }
        (queueParked m i = true → exec (.queueDestroy p) s =
          .next (s.onward c m (runOn c (.drainRefs 0) (setFerry i { f with gen := f.gen + 1, closing := true } m)))) ∧
        (queueParked m i = false → exec (.queueDestroy p) s = .next (s.put (complete s.fx c csDone [BitVec.ofNat 64 (ferryOcc f)]
          (if berthQueues d f.berth.toNat = [] then setBerth f.berth.toNat { berthOf m f.berth.toNat with qheld := false } d else d)))))) ∧
    (Begins s (.pinBudget p) c m →
      (3072 < fld c.pkt.p0 11 0 → exec (.pinBudget p) s = .next (s.put (complete s.fx c csBadParam [] m))) ∧
      (fld c.pkt.p0 11 0 ≤ 3072 → exec (.pinBudget p) s = .next (s.put (complete s.fx c csDone [BitVec.ofNat 64 (ctxPinned m (cCtx c))]
        (setCtx (cCtx c) { ctxOf m (cCtx c) with pinCap := BitVec.ofNat 12 (fld c.pkt.p0 11 0) } m)))))

/-- With the copy engine idle, a COPY or a COPY_MEASURE with START of one line from berth to berth that passes its checks, and
both berth lines ready and sound, writes the source line into the destination line, clears the destination's SRCV, carries the
poison over and completes in its own step with DONE, or POISONED when the line was poisoned, RES0 of 128 and RES1 of the
poisoned lines (05 R167, R168); the measuring one leaves its digest slot Open, owned by the context, with the line, or zeros for
a poisoned one, taken into the digest, 128 bytes counted, and TAINT of the poison (14 R379). With one to seven commands in the
engine it is held; with eight it is BUSY_RETRY (05 R169). COPY_ENGINE_START begins a held copy, with the same effect. -/
def Obligations.CopyCommands : Prop :=
  ∀ (s : State) (p : CmdPkt) (c : Rec) (m : Mach),
    let oneLine := fun (c : Rec) (m : Mach) =>
      cFlag c 0 = true ∧ cFlag c 1 = true ∧ copyLen c = 128 ∧ sound m = true ∧
      awake m [dEngine, dTag ((berthPlace m (berthOf m (bIdx c.pkt.p0)) (bOff c.pkt.p0)).1 % 4), dWay m (berthPlace m (berthOf m (bIdx c.pkt.p0)) (bOff c.pkt.p0)).1 (berthPlace m (berthOf m (bIdx c.pkt.p0)) (bOff c.pkt.p0)).2,
        dTag ((berthPlace m (berthOf m (bIdx c.pkt.p1)) (bOff c.pkt.p1)).1 % 4), dWay m (berthPlace m (berthOf m (bIdx c.pkt.p1)) (bOff c.pkt.p1)).1 (berthPlace m (berthOf m (bIdx c.pkt.p1)) (bOff c.pkt.p1)).2] = true
    let from_ := fun (c : Rec) (m : Mach) => berthPlace m (berthOf m (bIdx c.pkt.p0)) (bOff c.pkt.p0)
    let data := fun (c : Rec) (m : Mach) => wayData m (from_ c m).1 (from_ c m).2
    let bad := fun (c : Rec) (m : Mach) => (tagAt m (from_ c m).1 (from_ c m).2).poison
    let copied := fun (c : Rec) (m : Mach) =>
      let v := berthPlace m (berthOf m (bIdx c.pkt.p1)) (bOff c.pkt.p1)
      let n := unmarkSource (bIdx c.pkt.p1) (writeBerthWay v.1 v.2 (BitVec.allOnes 128) (data c m) m)
      setTag v.1 v.2 { tagAt n v.1 v.2 with poison := bad c m } n
    let held := (m.cmds.running.filter fun r => isCopy r.prog).length
    (Begins s (.copy p) c m → copyStop s.fx m c false = none →
      (oneLine c m → m.cmds.running = [] → exec (.copy p) s = .next (s.put (complete s.fx c (if bad c m then csPoisoned else csDone)
        [BitVec.ofNat 64 128, BitVec.ofNat 64 (b2n (bad c m))] (copied c m)))) ∧
      (0 < held → held < 8 → exec (.copy p) s = .next (s.put (runOn c .copyHeld m))) ∧
      (8 ≤ held → exec (.copy p) s = .next (s.put (complete s.fx c csBusy [] m)))) ∧
    (Begins s (.copyMeasure p) c m → copyStop s.fx m c false = none →
      (oneLine c m → m.cmds.running = [] → cFlag c 3 = true →
        let g : Digest := { st := 1, taint := false, owner := cCtx c, ogen := cGen c, bytes := 0, h := shaPack sha384Init }
        exec (.copyMeasure p) s = .next (s.put (complete s.fx c (if bad c m then csPoisoned else csDone)
          [BitVec.ofNat 64 128, BitVec.ofNat 64 (b2n (bad c m))]
          (setDigest (fld c.pkt.p3 3 0) { g with h := shaLine g.h (if bad c m then 0 else data c m), bytes := 128, taint := bad c m }
            (setDigest (fld c.pkt.p3 3 0) g (copied c m)))))) ∧
      (8 ≤ held → exec (.copyMeasure p) s = .next (s.put (complete s.fx c csBusy [] m)))) ∧
    (resting s.m = true → s.m.cmds.running = [⟨c, .copyHeld⟩] → byRing c.pkt = false → c.opcode = 0x30 → oneLine c s.m →
      exec .copyEngineStart s = .next (s.put (complete s.fx c (if bad c s.m then csPoisoned else csDone)
        [BitVec.ofNat 64 128, BitVec.ofNat 64 (b2n (bad c s.m))] (copied c s.m))))

/-- With the maintenance engine idle, no host holding anything and no earlier access to the line waiting, a range command over
one line that passes its checks (04 R136) completes with DONE in its own step where Table CACHE-10 asks for no write (04 R137):
on a valid clean line RANGE_CLEAN does nothing, RANGE_INVAL (of a dirty line too) and RANGE_FLUSH discard the line and count it
in RES1, RANGE_ZERO makes every sector of it Dirty zero without touching the data array and counts it in RES1; on an absent line
RANGE_CLEAN, RANGE_INVAL and RANGE_FLUSH do nothing. The fifth command that the engine would hold is BUSY_RETRY, and one that is
stopped completes with its own status (04 R140). -/
def Obligations.RangeCommands : Prop :=
  ∀ (s : State) (p : CmdPkt) (c : Rec) (m : Mach) (l : LineNo) (way : Nat),
    let one := c.pkt.p1 = 128 ∧ rangeRuns s.fx m c.pkt.p0 128 = [(l.toNat, 1)] ∧ m.cmds.running = [] ∧ m.dir.ents = [] ∧ m.dir.reclaim = none ∧ sound m = true ∧
      waitsBefore m (placed m (ownWrite (.cmd c.id) .write l 0 0)) = false ∧
      awake m [dEngine, dTag (quadOf l), dDir (quadOf l)] = true
    let t := tagAt m (setOf l) way
    let hit := hitWay m l = some way ∧ way ∉ fillingWays m (setOf l) ∧ ticketFor m l = none ∧ slipsOf m l = [] ∧ ¬ m.sparse.fills.any (fun f => f.line = l)
    let miss := hitWay m l = none ∧ slipsOf m l = [] ∧ ¬ m.cache.tickets.any (fun t => t.line = l && t.kind = .merge) ∧
      ¬ m.cache.writes.any (fun w => isMerge w.after && w.line = l)
    let ends := fun (i : Instr) (n : Nat) (m' : Mach) => exec i s = .next (s.put (complete s.fx c csDone [0, BitVec.ofNat 64 n, 0] m'))
    let full := fun (i : Instr) => (rangeStop s.fx m c false = none → 4 ≤ (m.cmds.running.filter fun r => isMaint r.prog).length →
        exec i s = .next (s.put (complete s.fx c csBusy [] m))) ∧
      ∀ st, rangeStop s.fx m c false = some st → exec i s = .next (s.put (complete s.fx c st [] m))
    (Begins s (.rangeClean p) c m → full (.rangeClean p) ∧ (rangeStop s.fx m c false = none → one →
      (hit → t.d = 0 → ends (.rangeClean p) 0 m) ∧ (miss → ends (.rangeClean p) 0 m))) ∧
    (Begins s (.rangeInval p) c m → full (.rangeInval p) ∧ (rangeStop s.fx m c false = none → one →
      (hit → ends (.rangeInval p) 1 (dropWay (setOf l) way m)) ∧ (miss → ends (.rangeInval p) 0 m))) ∧
    (Begins s (.rangeFlush p) c m → full (.rangeFlush p) ∧ (rangeStop s.fx m c false = none → one →
      (hit → t.d = 0 → ends (.rangeFlush p) 1 (dropWay (setOf l) way m)) ∧ (miss → ends (.rangeFlush p) 0 m))) ∧
    (Begins s (.rangeZero p) c m → full (.rangeZero p) ∧ (rangeStop s.fx m c false = none → one → hit →
      ends (.rangeZero p) 1 (setTag (setOf l) way { t with v := 0xF, d := 0xF, z := 0xF, poison := false, cls := m.regs.maintTc }
        (markRewritten l m))))

/-- A SPARSE_PACK, SPARSE_UNPACK, BANK_SPARE, WAY_DISABLE (with RESTORE or without) or DIR_RECLAIM that starts at once completes
with the status of the first check that it fails and changes nothing else; otherwise the engine holds it behind one to three
others, and with four it is BUSY_RETRY (04 R140). With the engine idle and its domains on: a BANK_SPARE copies 2,048 rows of a
sound bank, none of a frozen one, the spare takes the bank's place, the error log takes class 0x33 (15 R404), and it answers
DONE with the rows and no line poisoned (15 R415); a WAY_DISABLE of one set whose named ways are retired or pinned, but for one
way that is neither dirty nor being filled, drops that way's line, puts the named ways into RETIRED, sets DEGRADED and answers
DONE with no line written back and the sets changed; with RESTORE it takes them out (15 R416, R417 through endWays); a
DIR_RECLAIM of an agent that no entry and no snoop names clears the agent's EN and answers DONE with zeros (11 R325, R326). -/
def Obligations.EngineCommands : Prop :=
  ∀ (s : State) (p : CmdPkt) (c : Rec) (m : Mach),
    let held := (m.cmds.running.filter fun r => isMaint r.prog).length
    let refuses := fun (i : Instr) (stop : Option Nat) =>
      (∀ st, stop = some st → exec i s = .next (s.put (complete s.fx c st [] m))) ∧
      (stop = none → 4 ≤ held → exec i s = .next (s.put (complete s.fx c csBusy [] m)))
    let holds := fun (i : Instr) (stop : Option Nat) => stop = none → 0 < held → held < 4 → exec i s = .next (s.put (runOn c .maintHeld m))
    let q := fld c.pkt.p0 1 0
    let b := fld c.pkt.p0 5 2
    let set := wayFirst c
    let x := setStOf m set
    let off := { m with dir := { m.dir with en := m.dir.en &&& ~~~((1 : BitVec 16) <<< fld c.pkt.p0 3 0) } }
    (Begins s (.sparsePack p) c m → refuses (.sparsePack p) (sparseStop s.fx m c) ∧ holds (.sparsePack p) (sparseStop s.fx m c)) ∧
    (Begins s (.sparseUnpack p) c m → refuses (.sparseUnpack p) (sparseStop s.fx m c) ∧ holds (.sparseUnpack p) (sparseStop s.fx m c)) ∧
    (Begins s (.bankSpare p) c m →
      let stop := stopIf (tget 0 m.cache.spareFor q ≠ 0 || decide (q ∈ m.cache.spareBad) || (repairSlot m).isNone) csNoSpace
      refuses (.bankSpare p) stop ∧ holds (.bankSpare p) stop ∧
      (stop = none → m.cmds.running = [] → awake m [dEngine, dBank q 16] = true → bankFrozen m (dBank q b) = true →
        exec (.bankSpare p) s = .next (s.put (complete s.fx c csDone [0, 0] (logErr s.fx 0x33 0 (locB q b 0) (spareBank q b m))))) ∧
      (stop = none → m.cmds.running = [] → awake m [dEngine, dBank q 16, dBank q b] = true → bankFrozen m (dBank q b) = false → sound m = true →
        exec (.bankSpare p) s = .next (s.put (complete s.fx c csDone [2048, 0] (logErr s.fx 0x33 0 (locB q b 0) (spareBank q b m)))))) ∧
    (Begins s (.wayDisable p) c m → cFlag c 0 = false →
      refuses (.wayDisable p) (wayStop m c) ∧ holds (.wayDisable p) (wayStop m c) ∧
      ∀ w, wayStop m c = none → m.cmds.running = [] → wayLast c = set → floorBanks m c = [] →
        ((waysOf (wayMask c &&& ~~~x.retired)).filter fun w => !x.pin.getLsbD w) = [w] → w ∉ fillingWays m set → (tagAt m set w).d = 0 →
        sound m = true → awake m [dEngine, dWay m set w] = true →
        exec (.wayDisable p) s = .next (s.put (complete s.fx c csDone [0, BitVec.ofNat 64 (b2n (x.retired ||| wayMask c ≠ x.retired))]
          (endWays c (degrade (putSetSt set { x with retired := x.retired ||| wayMask c } (setTag set w .free m))))))) ∧
    (Begins s (.wayRestore p) c m →
      let stop := firstStop [stopIf (decide (wayLast c < wayFirst c) || wayMask c = 0) csBadParam, stopIf ((waySets c).any fun s => pinsOf m s &&& wayMask c ≠ 0) csPinLimit]
      refuses (.wayRestore p) stop ∧ holds (.wayRestore p) stop ∧
      (stop = none → m.cmds.running = [] → wayLast c = set → awake m [dEngine] = true →
        exec (.wayRestore p) s = .next (s.put (complete s.fx c csDone [0, BitVec.ofNat 64 (b2n (x.retired &&& ~~~wayMask c ≠ x.retired))]
          (endWays c (putSetSt set { x with retired := x.retired &&& ~~~wayMask c } m)))))) ∧
    (Begins s (.dirReclaim p) c m → refuses (.dirReclaim p) none ∧
      (0 < held → held < 4 → exec (.dirReclaim p) s = .next (s.put (runOn c .maintHeld off))) ∧
      (m.cmds.running = [] → awake m [dEngine] = true → m.dir.ents = [] →
        m.dir.snoops.filter (·.agent = BitVec.ofNat 4 (fld c.pkt.p0 3 0)) = [] →
        exec (.dirReclaim p) s = .next (s.put (complete s.fx c csDone [0, 0, 0] off))))

/-- An ACQUIRE_SWEEP with SCOPE outside 2 to 5 or with no cluster named is BAD_PARAM; given to the idle engine it takes the next
sweep number, with nothing else changed, the write-class requests admitted and not yet performed as its cut-off; the engine also
takes a held one at MAINT_ENGINE_START, which does nothing while a command runs (10 R300, R301 steps 1 and 2, 04 R140).
SWEEP_NOTICE_SEND does nothing while one of those requests is not yet performed; after that it sends the notice of the lowest
cluster left, if its stop has a free inbox slot, with the words of R302. A KIND 2 packet that matches an outstanding notice by
PEER and TAG acknowledges it, any other is counted as denied; a notice outstanding for 1,048,576 control cycles is given up.
With the last one the sweep completes with the acknowledgements in RES0 and the silent clusters in RES1 and RES2, DONE_WARN
where there are some (R304). -/
def Obligations.AcquireSweeps : Prop :=
  ∀ (s : State) (c : Rec),
    let numbered := fun (m : Mach) => { m with cmds := { m.cmds with sweepSeq := m.cmds.sweepSeq + 1 } }
    (∀ (p : CmdPkt) (m : Mach), Begins s (.acquireSweep p) c m →
      let good := 2 ≤ fld c.pkt.p2 2 0 ∧ fld c.pkt.p2 2 0 ≤ 5 ∧ (c.pkt.p0 ≠ 0 ∨ c.pkt.p1 ≠ 0)
      (¬ good → exec (.acquireSweep p) s = .next (s.put (complete s.fx c csBadParam [] m))) ∧
      (good → m.cmds.running = [] →
        exec (.acquireSweep p) s = .next (s.put (runOn c (.sweepRun (sweepClusters c) [] [] [] (unperformed m)) (numbered m))))) ∧
    (resting s.m = true →
      (s.m.cmds.running.any (fun r => isMaintRun r.prog || isSweepRun r.prog) = true → exec .maintEngineStart s = .next s) ∧
      (s.m.cmds.running = [⟨c, .maintHeld⟩] → c.opcode = 0x38 → (c.pkt.p0 ≠ 0 ∨ c.pkt.p1 ≠ 0) →
        exec .maintEngineStart s = .next (s.put { numbered s.m with cmds := { (numbered s.m).cmds with
          running := [⟨c, .sweepRun (sweepClusters c) [] [] [] (unperformed s.m)⟩] } })) ∧
      ∀ todo sent acked lost, (∀ k bef, s.m.cmds.running = [⟨c, .sweepRun todo sent acked lost (k :: bef)⟩] → exec .sweepNoticeSend s = .next s) ∧
        (s.m.cmds.running = [⟨c, .sweepRun todo sent acked lost []⟩] → byRing c.pkt = false →
        let seq : BitVec 16 := s.m.cmds.sweepSeq - 1
        let runs := fun (todo : List (BitVec 7)) (sent : List (BitVec 7 × Nat)) (acked lost : List (BitVec 7)) (m : Mach) =>
          if todo = [] ∧ sent = [] then
            complete s.fx c (if lost = [] then csDone else csWarn)
              [BitVec.ofNat 64 acked.length, (maskWords lost).1, (maskWords lost).2] m
          else { m with cmds := { m.cmds with running := [⟨c, .sweepRun todo sent acked lost []⟩] } }
        (∀ k rest, todo = k :: rest →
          let st : Stop := if k.toNat % 2 = 0 then .north else .south
          (segRoom s.m st = false → exec .sweepNoticeSend s = .next s) ∧
          (segRoom s.m st = true → exec .sweepNoticeSend s = .next (s.put (emit
            (.notice st (BitVec.ofNat 16 (0xFF00 + k.toNat))
              (BitVec.ofNat 64 (c.master.toNat * 2 ^ 48 + 1 * 2 ^ 40 + 0x38 * 2 ^ 32 + seq.toNat * 2 ^ 16))
              (BitVec.ofNat 64 (s.fx.procId.toNat * 2 ^ 48 + s.m.regs.logical.toNat * 2 ^ 40 + fld c.pkt.p2 2 0)) 0 0)
            (runs rest (sent ++ [(k, s.m.cyc)]) acked lost s.m))))) ∧
        (∀ (k : BitVec 7) (env : BitVec 44) (w0 w1 w2 w3 : W64), s.m.life.st ≠ .off →
          let m := count 0x040 s.m
          (env = 0 ∧ sent.any (·.1 = k) = true ∧ fld w0 31 16 = seq.toNat →
            exec (.sweepAck (BitVec.ofNat 16 (0xFF00 + k.toNat)) env w0 w1 w2 w3) s =
              .next (s.put (runs todo (sent.filter (·.1 ≠ k)) (acked ++ [k]) lost m))) ∧
          (¬ (env = 0 ∧ sent.any (·.1 = k) = true ∧ fld w0 31 16 = seq.toNat) →
            exec (.sweepAck (BitVec.ofNat 16 (0xFF00 + k.toNat)) env w0 w1 w2 w3) s = .next (s.put (count 0x010 m)))) ∧
        (∀ (k : BitVec 7) (cyc : Nat),
          (sent.any (fun x => x.1 = k && decide (x.2 + 1048576 ≤ max cyc s.m.cyc)) = true →
            exec (.sweepNoticeTimeout k cyc) s = .next (s.put (runs todo (sent.filter (·.1 ≠ k)) acked (lost ++ [k]) (advance cyc s.m)))) ∧
          (sent.any (fun x => x.1 = k && decide (x.2 + 1048576 ≤ max cyc s.m.cyc)) = false →
            exec (.sweepNoticeTimeout k cyc) s = .next (s.put (advance cyc s.m))))))

/-- A TILE_OPEN that starts at once is refused by the first of its checks in the order of 07 R215 and changes nothing else;
otherwise the tile of Table RED-5 is opened at the lowest free index, or the requested one, in the lowest free block, a reused
CLOSED index takes its next generation, and it completes with DONE, the tile address and BASE. A TILE_CLOSE of a tile with no
hop takes its cut-off: a single-buffered tile becomes CLOSING, a double-buffered one swaps its buffers, and the drain waits for
TILE_DRAIN (07 R231, R232); a tile whose descriptor was lost is POISONED at once (15 R400). A TILE_DISCARD of a tile with no hop
frees its index and its lines under the next generation and answers LATE; a TILE_QUERY answers words W0, W1 and the selected
TOUCH and changes nothing (07 R238, R239). The block choice is the model's (log 23). -/
def Obligations.TileCommands : Prop :=
  ∀ (s : State) (p : CmdPkt) (c : Rec) (m : Mach),
    (Begins s (.tileOpen p) c m →
      let t := tileAsked c
      let reqv := bit c.pkt.p0 63
      let ri := fld c.pkt.p0 62 50
      let reuse := reqv && (tileOf m ri).valid
      let stop := firstStop (
        [stopIf (!m.regs.lv) csMishomed,
         stopIf (t.dstBerth && (!berthHome s.fx m t.dst || (t.auxdst ≠ 0 && !berthHome s.fx m t.auxdst))) csMishomed,
         stopIf (openBad t) csBadParam, openIndexStop m c,
         stopIf ((accPick m (blockSize t)).isNone || (!reuse && !reqv && (fqPeek 8192 m.red.tileQ).isNone)) csNoSpace] ++
        (tileRanges t).map (tileRangeStop s.fx m (cCtx c)) ++
        [stopIf (mapMeets s.fx (tileWrites s.fx m t ++ tileReads s.fx m t)) csBadParam,
         stopIf (!confDest m (cCtx c) false (tileWrites s.fx m t)) csDenied])
      (∀ st, stop = some st → exec (.tileOpen p) s = .next (s.put (complete s.fx c st [] m))) ∧
      ∀ b, stop = none → accPick m (blockSize t) = some b →
        (reuse = false →
          let i := if reqv then ri else (fqPeek 8192 m.red.tileQ).getD 0
          let g := (tileOf m i).gen
          exec (.tileOpen p) s = .next (s.put (complete s.fx c csDone [tileAddr s.fx m i g, BitVec.ofNat 64 b]
            (setTile i { t with gen := g, base := BitVec.ofNat 15 b }
              { m with red := { m.red with tileQ := if reqv then fqTake i m.red.tileQ else fqPop 8192 m.red.tileQ } })))) ∧
        (reuse = true →
          let g := (tileOf m ri).gen + 1
          let m' := setTile ri { t with gen := g, base := BitVec.ofNat 15 b } (unbind ri m)
          resting m' = true → exec (.tileOpen p) s =
            .next (s.put (complete s.fx c csDone [tileAddr s.fx (unbind ri m) ri g, BitVec.ofNat 64 b] m')))) ∧
    (Begins s (.tileClose p) c m →
      let i := tIdx c.pkt.p0
      let t := tileOf m i
      (∀ st, closeStop s.fx m c false = some st → exec (.tileClose p) s = .next (s.put (complete s.fx c st [] m))) ∧
      (closeStop s.fx m c false = none → hopOfTile m i t.gen = none →
        (t.lost = true → exec (.tileClose p) s = .next (s.put (complete s.fx c csPoisoned
          [0, 0, BitVec.ofNat 64 ((bufExp t t.epoch).toNat * 2 ^ 56 + b2n (bufOvf t t.epoch))] m))) ∧
        (t.lost = false → exec (.tileClose p) s = .next (s.put (runOn c (.close
            { tile := BitVec.ofNat 13 i, buf := t.epoch, late := 0, draining := false, bias := [], made := false
              todo := [], left := 0, bytes := 0, poisoned := false, exp := bufExp t t.epoch, ovf := bufOvf t t.epoch })
          (if t.dbuf then setTile i { t with epoch := !t.epoch } m
           else if t.st = .opened then setTile i { t with st := .closing } m else m)))))) ∧
    (Begins s (.tileDiscard p) c m →
      let i := tIdx c.pkt.p0
      let t := tileOf m i
      let stop := firstStop [tileCmdStop s.fx m c.pkt.p0, stopIf (!tileBare c.pkt.p0) csBadParam, stopIf (tileForeign m c c.pkt.p0) csTileBusy]
      (∀ st, stop = some st → exec (.tileDiscard p) s = .next (s.put (complete s.fx c st [] m))) ∧
      (stop = none → hopOfTile m i t.gen = none → exec (.tileDiscard p) s = .next (s.put (complete s.fx c csDone [t.late.zeroExtend 64]
        (setTile i { Tile.free with gen := t.gen + 1 } { m with red := { m.red with tileQ := fqPush i m.red.tileQ } }))))) ∧
    (Begins s (.tileQuery p) c m →
      let t := tileOf m (tIdx c.pkt.p0)
      let stop := firstStop [tileCmdStop s.fx m c.pkt.p0, stopIf (!tileBare c.pkt.p0) csBadParam]
      exec (.tileQuery p) s = .next (s.put (match stop with
        | some st => complete s.fx c st [] m
        | none => complete s.fx c csDone [tileW0 t, tileW1 t, bufTouch t t.epoch] m)))

/-- A TOWLINE_SET that starts at once is refused by the first of its checks in the order of 08 R247 and changes nothing else;
otherwise the next free hop record binds the tile with HOP, LASTHOP, NEXT, PREV and CHAIN, everything else of it zero, and the
answer is DONE with the record's index. With RELEASE an unbound tile is BAD_PARAM, a bound one that has not taken its cut-off
loses its record, and one that has is BUSY_RETRY. A SCATTER_DESC creation is MISHOMED before the slice has its logical number,
BAD_PARAM and NO_SPACE as 09 R279 gives them, and otherwise writes the descriptor of Table SPARSE-8 with its counts zero under
the index's generation; a RELEASE with no request out advances the generation, frees the index and answers APPLIED (R284; a held
descriptor has rows, by R279); a QUERY answers W0, W2 and W3 (R280). A handle that names none of the context's descriptors is
STALE_HANDLE. -/
def Obligations.TowlineAndScatterCommands : Prop :=
  ∀ (s : State) (p : CmdPkt) (c : Rec) (m : Mach),
    let ends := fun (row : Instr) (st : Nat) (res : List W64) (m' : Mach) => exec row s = .next (s.put (complete s.fx c st res m'))
    let a := c.pkt.p0
    let i := tIdx a
    let t := tileOf m i
    (Begins s (.towlineSet p) c m → cFlag c 0 = false →
      let hop := fld c.pkt.p3 13 8
      let last := fld c.pkt.p3 5 0
      let stop := firstStop [tileCmdStop s.fx m a, stopIf (tileForeign m c a) csTileBusy,
        stopIf (t.st ≠ .opened || t.dbuf || (hopOfTile m i t.gen).isSome || decide (last < hop) ||
          (decide (c.pkt.p2 = 0) != decide (hop = 0)) || (decide (c.pkt.p1 = 0) != decide (hop = last)) || !towBare c) csBadParam,
        stopIf (fqPeek 1024 m.red.hopQ).isNone csNoSpace]
      (∀ st, stop = some st → ends (.towlineSet p) st [] m) ∧
      ∀ j, stop = none → fqPeek 1024 m.red.hopQ = some j → ends (.towlineSet p) csDone [BitVec.ofNat 64 j] (setHop j
        { valid := true, broken := false, cut := false, cause := 0, hop := BitVec.ofNat 6 hop, last := BitVec.ofNat 6 last
          tile := BitVec.ofNat 13 i, tgen := t.gen, outst := 0, next := c.pkt.p1, prev := c.pkt.p2
          chain := BitVec.ofNat 32 (fld c.pkt.p3 63 32), recvd := 0, sent := 0, acked := 0, tick := 0, full := 0 }
        { m with red := { m.red with hopQ := fqPop 1024 m.red.hopQ } })) ∧
    (Begins s (.towlineRelease p) c m →
      let stop := firstStop [tileCmdStop s.fx m a, stopIf (tileForeign m c a) csTileBusy]
      (∀ st, stop = some st → ends (.towlineRelease p) st [] m) ∧
      (stop = none →
        (hopOfTile m i t.gen = none → ends (.towlineRelease p) csBadParam [] m) ∧
        ∀ j, hopOfTile m i t.gen = some j → (hopOf m j).cut = false → resting (freeHop j m) = true → ends (.towlineRelease p) csDone [] (freeHop j m))) ∧
    (firstStop [tileCmdStop s.fx m a, stopIf (tileForeign m c a) csTileBusy] = none → ∀ j, hopOfTile m i t.gen = some j → (hopOf m j).cut = true →
      cmdTowRelease s.fx c m = complete s.fx c csBusy [] m) ∧
    (Begins s (.scatterDescCreate p) c m → cFlag c 0 = false → cFlag c 1 = false →
      let asked := fld c.pkt.p2 7 0
      let index := if cFlag c 2 then (if fqFree m.sparse.scatQ asked then some asked else none) else fqPeek 256 m.sparse.scatQ
      (m.regs.lv = false → ends (.scatterDescCreate p) csMishomed [] m) ∧
      (m.regs.lv = true → scatBad s.fx m c = true → ends (.scatterDescCreate p) csBadParam [] m) ∧
      (m.regs.lv = true → scatBad s.fx m c = false → index = none → ends (.scatterDescCreate p) csNoSpace [] m) ∧
      ∀ k, m.regs.lv = true → scatBad s.fx m c = false → index = some k →
        let g := (scatOf m k).gen
        ends (.scatterDescCreate p) csDone [BitVec.ofNat 64 (g.toNat * 256 + k)] (setScat k
          { valid := true, op := BitVec.ofNat 2 (fld c.pkt.p1 3 2), gen := g, ctx := cCtx c, cgen := cGen c
            scale := BitVec.ofNat 32 (fld c.pkt.p2 63 32), table := a, rows := BitVec.ofNat 32 (fld c.pkt.p1 63 32)
            stride := BitVec.ofNat 16 (fld c.pkt.p1 31 16), rowlines := BitVec.ofNat 12 (fld c.pkt.p1 15 4), applied := 0, refused := 0 }
          { m with sparse := { m.sparse with scatQ := if cFlag c 2 then fqTake k m.sparse.scatQ else fqPop 256 m.sparse.scatQ } })) ∧
    (Begins s (.scatterDescRelease p) c m →
      (heldScat m c = none → ends (.scatterDescRelease p) csStale [] m) ∧
      ∀ k, heldScat m c = some k →
        let d := scatOf m k
        let m' := setScat k { d with valid := false, gen := d.gen + 1 } m
        (d.rows ≠ 0 → scatOut m k = false → ends (.scatterDescRelease p) csDone [d.applied.zeroExtend 64] (dropScat k (d.gen + 1) m'))) ∧
    (Begins s (.scatterDescQuery p) c m → cFlag c 0 = false →
      (heldScat m c = none → ends (.scatterDescQuery p) csStale [] m) ∧
      ∀ k, heldScat m c = some k →
        let d := scatOf m k
        (lostObj m 3 k = true → ends (.scatterDescQuery p) csDenied [] m) ∧
        (lostObj m 3 k = false → ends (.scatterDescQuery p) csDone
          [BitVec.ofNat 64 (b2n d.valid * 2 ^ 63 + d.op.toNat * 2 ^ 61 + d.gen.toNat * 2 ^ 53 + d.ctx.toNat * 2 ^ 41 + d.cgen.toNat * 2 ^ 33 +
             d.scale.toNat),
           BitVec.ofNat 64 (d.rows.toNat * 2 ^ 32 + d.stride.toNat * 2 ^ 16 + d.rowlines.toNat * 2 ^ 4),
           BitVec.ofNat 64 (d.applied.toNat * 2 ^ 32 + d.refused.toNat)] m))

/-- A command on an object that is not homed here is MISHOMED, on a free index or another generation STALE_HANDLE, with nothing
changed (06 R186). Otherwise SYNC_CREATE writes the record of Table SYNC-3 at the next free index or the requested one and
answers its address (R187); SYNC_DESTROY wakes every parked wait with code 0x81, drops the members, and frees the index under
the next generation (R188); SYNC_SET applies SIG, VAL, RAISE, CLEAR in that order and answers the old VALUE; SYNC_QUERY answers
VALUE, W1 and the numbers of waits and members (R189); SYNC_SHARE adds the context, or removes it and wakes its waits with code
0x84 (R204). JAM_EXPORT sets JAM_CTL and answers the old one; with NOW it exports the edges (16 R424), here with a free slot for
each packet. The record of a sound object is read as it stands. -/
def Obligations.SyncObjectCommands : Prop :=
  ∀ (s : State) (p : CmdPkt) (c : Rec) (m : Mach),
    let i := sIdx c.pkt.p0
    let o := syncObj m i
    let ms := tget [] m.sync.members i.toNat
    let me := (cCtx c, cGen c)
    let ends := fun (row : Instr) (st : Nat) (res : List W64) (m' : Mach) => exec row s = .next (s.put (complete s.fx c st res m'))
    let stops := fun (row : Instr) => ∀ st, syncCmdStop s.fx m c.pkt.p0 = some st → ends row st [] m
    let passes := syncCmdStop s.fx m c.pkt.p0 = none
    (Begins s (.syncCreate p) c m →
      let kind := fld c.pkt.p1 63 62
      let bad := kind = 3 ∨ (bit c.pkt.p1 61 = true ∧ kind ≠ 2) ∨ (kind = 1 ∧ bit c.pkt.p1 60 = false) ∨
        (bit c.pkt.p1 60 = false ∧ fld c.pkt.p1 59 44 ≠ 0)
      let asked := fld c.pkt.p1 42 29
      let index := if bit c.pkt.p1 43 then (if fqFree m.sync.objQ asked then some asked else none) else fqPeek 16384 m.sync.objQ
      (m.regs.lv = false → ends (.syncCreate p) csMishomed [] m) ∧
      (m.regs.lv = true → bad → ends (.syncCreate p) csBadParam [] m) ∧
      (m.regs.lv = true → ¬ bad → index = none → ends (.syncCreate p) csNoSpace [] m) ∧
      ∀ k, m.regs.lv = true → ¬ bad → index = some k →
        let g := (syncObj m (BitVec.ofNat 14 k)).gen
        ends (.syncCreate p) csDone [syncAddr s.fx m k g] (setSync (BitVec.ofNat 14 k)
          { value := c.pkt.p0, valid := true, err := false, shared := false, orphan := false, kind := BitVec.ofNat 2 kind
            unit := bit c.pkt.p1 61, sigv := bit c.pkt.p1 60, sigq := BitVec.ofNat 16 (fld c.pkt.p1 59 44), errcode := 0
            owner := cCtx c, ogen := cGen c, gen := g }
          (freshSync (BitVec.ofNat 14 k)
            { m with sync := { m.sync with objQ := if bit c.pkt.p1 43 then fqTake k m.sync.objQ else fqPop 16384 m.sync.objQ } }))) ∧
    (Begins s (.syncDestroy p) c m → stops (.syncDestroy p) ∧ (passes → sound m = true →
      ends (.syncDestroy p) csDone [BitVec.ofNat 64 (waitsOn m i).length] (freeSync i (wakeAll 0x81 (waitsOn m i) m)))) ∧
    (Begins s (.syncSet p) c m → stops (.syncSet p) ∧ (passes →
      let code := fld c.pkt.p2 23 16
      (cFlag c 1 = true ∧ (cFlag c 2 = true ∨ code < 1 ∨ 0x7F < code) → ends (.syncSet p) csBadParam [] m) ∧
      (¬ (cFlag c 1 = true ∧ (cFlag c 2 = true ∨ code < 1 ∨ 0x7F < code)) → sound m = true →
        ends (.syncSet p) csDone [o.value] (syncSet i c m)))) ∧
    (Begins s (.syncQuery p) c m → stops (.syncQuery p) ∧ (passes → sound m = true →
      ends (.syncQuery p) csDone [o.value, syncW1 o, BitVec.ofNat 64 ((waitsOn m i).length + ms.length * 2 ^ 16)] m)) ∧
    (Begins s (.syncShare p) c m → cFlag c 0 = false → stops (.syncShare p) ∧ (passes → sound m = true →
      (o.owner = me.1 ∧ o.ogen = me.2 → ends (.syncShare p) csBadParam [] m) ∧
      (¬ (o.owner = me.1 ∧ o.ogen = me.2) →
        (me ∈ ms → ends (.syncShare p) csDone [] m) ∧
        (me ∉ ms → 16 ≤ ms.length ∨ 4096 ≤ memberships m → ends (.syncShare p) csNoSpace [] m) ∧
        (me ∉ ms → ms.length < 16 → memberships m < 4096 → ends (.syncShare p) csDone [] (setSync i { o with shared := true }
          { m with sync := { m.sync with members := tset [] m.sync.members i.toNat (ms ++ [me]) } }))))) ∧
    (Begins s (.syncShareRemove p) c m → stops (.syncShareRemove p) ∧ (passes → sound m = true →
      (me ∈ ms → ends (.syncShareRemove p) csDone [BitVec.ofNat 64 (ms.length - 1)] (dropMember s.fx i me.1 m)) ∧
      (me ∉ ms → ends (.syncShareRemove p) csDone [BitVec.ofNat 64 ms.length] m))) ∧
    (Begins s (.jamExport p) c m →
      let a := c.pkt.p0
      let m' := { m with sync := { m.sync with
        jamFresh := bit a 0 && (m.sync.jamFresh || !m.sync.jamEn)
        jamCollector := BitVec.ofNat 16 (fld a 31 16), jamQuiet := BitVec.ofNat 12 (fld a 15 4), jamEn := bit a 0 } }
      (0xFEFF < fld a 31 16 ∨ fld a 15 4 = 0 → ends (.jamExport p) csBadParam [] m) ∧
      (fld a 31 16 ≤ 0xFEFF → fld a 15 4 ≠ 0 → cFlag c 0 = false → sound m = true →
        ends (.jamExport p) csDone [(jamCtl m).zeroExtend 64, 0] m') ∧
      (fld a 31 16 ≤ 0xFEFF → fld a 15 4 ≠ 0 → cFlag c 0 = true → sound m = true →
        let x := exportEdges s.fx (fun _ _ => true) false m'
        resting x.1 = true → ends (.jamExport p) csDone [(jamCtl m).zeroExtend 64, BitVec.ofNat 64 x.2] x.1))

/-- A CLASS_SET with TARGET 1 to 49 or above 65,000 is BAD_PARAM; else it sets the class's TARGET and BASE, recomputes the
grants and answers the old QOS_CLASSn (12 R329). A RESERVE_BW of 0 or above 4,000 is BAD_PARAM; with the other reservations
beyond LIMIT it is NO_BANDWIDTH with the headroom; else the class's RESV is set, the grants are recomputed, and it answers GRANT
and the room left (R339); RELEASE_BW sets RESV and GRANT to 0 and answers the old RESV (R340). The end of a window measures EFF
as floor(1,024 N / C), at most 4,096, keeps it where C is 0, and recomputes the grants (R337, R341). A refill gives a class with
a grant one token, up to 64 (R338); credits are counted and kept. The recomputation itself is regrant, on the reservations
alone; LIMIT is floor(9 EFF / 10). -/
def Obligations.BandwidthRows : Prop :=
  ∀ (s : State) (p : CmdPkt) (c : Rec) (m : Mach),
    let ends := fun (row : Instr) (st : Nat) (res : List W64) (m' : Mach) => exec row s = .next (s.put (complete s.fx c st res m'))
    let i := fld c.pkt.p0 3 0
    let k := clsOf m i
    (Begins s (.classSet p) c m →
      let t := fld c.pkt.p0 31 16
      let m' := setCls i { k with target := BitVec.ofNat 16 t, base := BitVec.ofNat 3 (fld c.pkt.p0 10 8) } m
      ((1 ≤ t ∧ t ≤ 49) ∨ 65000 < t → ends (.classSet p) csBadParam [] m) ∧
      (¬ ((1 ≤ t ∧ t ≤ 49) ∨ 65000 < t) → ends (.classSet p) csDone [(clsWord m i).zeroExtend 64]
        (regrant s.fx (shedMask m') m'))) ∧
    (Begins s (.reserveBw p) c m →
      let bw := fld c.pkt.p0 28 16
      let others := (((List.range 16).filter (· ≠ i)).map fun j => (clsOf m j).resv.toNat).sum
      let limit := 9 * m.qos.eff.toNat / 10
      (bw = 0 ∨ 4000 < bw → ends (.reserveBw p) csBadParam [] m) ∧
      (0 < bw → bw ≤ 4000 → limit < others + bw → ends (.reserveBw p) csNoBw [BitVec.ofNat 64 (limit - others)] m) ∧
      (0 < bw → bw ≤ 4000 → others + bw ≤ limit →
        let m' := regrant s.fx (shedMask m) (setCls i { k with resv := BitVec.ofNat 13 bw } m)
        ends (.reserveBw p) csDone [(clsOf m' i).grant.zeroExtend 64, BitVec.ofNat 64 (limit - (others + bw))] m')) ∧
    (Begins s (.releaseBw p) c m →
      ends (.releaseBw p) csDone [k.resv.zeroExtend 64] (regrant s.fx (shedMask m) (setCls i { k with resv := 0, grant := 0 } m))) ∧
    (resting s.m = true →
      (∀ cyc : Nat,
        let n := advance cyc s.m
        let q := n.qos
        let q' := if q.winC = 0 then q else { q with eff := BitVec.ofNat 13 (min 4096 (1024 * q.winN / q.winC)), measured := true }
        exec (.effWindowEnd cyc) s = .next (s.put (regrant s.fx (shedMask n) { n with qos := { q' with winC := 0, winN := 0 } }))) ∧
      (∀ cls : BitVec 4,
        let x := clsOf s.m cls.toNat
        exec (.reservationTokenRefill cls) s =
          .next (s.put (if x.grant = 0 then s.m else setCls cls.toNat { x with tokens := min 64 (x.tokens + 1) } s.m))) ∧
      ∀ lines cycles : Nat, exec (.memoryPortCredit lines cycles) s = .next (s.put { s.m with
        cache := { s.m.cache with credits := s.m.cache.credits + lines }
        qos := { s.m.qos with winC := s.m.qos.winC + cycles, winN := s.m.qos.winN + lines } }))

/-- A LATENCY_TOLERANCE that raises or keeps TOL, or lowers it with no domain too deep for it, sets TOL and answers DONE with
the previous TOL and the number of domains thawed, those whose gating is no longer allowed being in Summer at once (13 R352); a
SEASON_QUERY answers the words of R356 and changes nothing; a THAW_GRANT replaces TOKENS and answers the old count (R355). A
domain in Summer that idles is gated while TOL is at least 5 (R347); a Winter entry not cancelled ends in Winter, a tag
quadrant's with its directory segment's (R345, R349), a Frost entry in Frost, its contents lost, once nothing of a bank is left
to write back (R344, R351); where the slice's state or the domain's use bars it by then, the entry is given up (R346). A season
window's end counts the idle windows of every domain and sends domains deeper where R348 lets them (sendDomain); a thaw starts
when the weights in Spring allow it (R354) and ends in Summer, or in Winter where that was asked; the reduction engine back from
Frost reloads its lane generators (R345). -/
def Obligations.SeasonRows : Prop :=
  ∀ (s : State) (p : CmdPkt) (c : Rec) (m : Mach),
    let ends := fun (row : Instr) (st : Nat) (res : List W64) (m' : Mach) => exec row s = .next (s.put (complete s.fx c st res m'))
    (Begins s (.latencyTolerance p) c m →
      let tol := fld c.pkt.p0 23 0
      let prev := m.season.tol
      let set := { m with season := { m.season with tol := BitVec.ofNat 24 tol } }
      let woken := (List.range 82).foldl (fun m d => wakeLight tol d m) set
      (prev.toNat ≤ tol → ends (.latencyTolerance p) csDone [prev.zeroExtend 64, 0] set) ∧
      (tol < prev.toNat → tooDeep set tol = [] → resting woken = true →
        ends (.latencyTolerance p) csDone [prev.zeroExtend 64, BitVec.ofNat 64 (tooLight set tol)] woken)) ∧
    (Begins s (.seasonQuery p) c m → ends (.seasonQuery p) csDone
      [BitVec.ofNat 64 (banksIn m .summer + banksIn m .autumn * 2 ^ 8 + banksIn m .winter * 2 ^ 16 + banksIn m .frost * 2 ^ 24 +
         banksIn m .spring * 2 ^ 32),
       BitVec.ofNat 64 (((List.range 14).map fun i => seasonCode (dom m (68 + i)).season * 2 ^ (3 * i)).sum),
       BitVec.ofNat 64 (m.season.tokens.toNat + queuedWeight m % 2 ^ 16 * 2 ^ 8 + m.season.tol.toNat * 2 ^ 24)] m) ∧
    (Begins s (.thawGrant p) c m → ends (.thawGrant p) csDone [m.season.tokens.zeroExtend 64]
      { m with season := { m.season with tokens := BitVec.ofNat 8 (fld c.pkt.p0 7 0) } }) ∧
    (resting s.m = true → ∀ d : Fin 82,
      let x := dom s.m d
      let up := s.m.life.st ≠ .off ∧ s.m.life.st ≠ .init ∧ s.m.life.st ≠ .selftest ∧ s.m.life.domainsOff = false
      exec (.autumnEntry d) s = .next (s.put
        (if 5 ≤ s.m.season.tol.toNat ∧ x.season = .summer ∧ x.entering.isNone ∧ up then
          setDom d { x with season := .autumn } s.m else s.m)) ∧
      (¬ (x.entering = some .winter ∧ x.season ≠ .spring) → exec (.winterEntryComplete d) s = .next s) ∧
      (x.entering = some .winter → x.season ≠ .spring →
        let both := d.val :: (twinOf d).toList
        let sleep := fun (m : Mach) (d : Nat) => let x := dom m d
          if x.entering = some .winter ∧ x.season ≠ .spring then setDom d { x with season := .winter, entering := none } m else m
        let m' := if seasonsRun s.m && mayRest s.m d .winter then both.foldl sleep s.m else both.foldl (fun m d => giveUp d m) s.m
        resting m' = true → exec (.winterEntryComplete d) s = .next (s.put m')) ∧
      (¬ (x.entering = some .frost ∧ x.season ≠ .spring) → exec (.frostEntryComplete d) s = .next s) ∧
      (x.entering = some .frost → x.season ≠ .spring →
        ((seasonsRun s.m && mayFrost s.m d) = false → resting (giveUp d s.m) = true →
          exec (.frostEntryComplete d) s = .next (s.put (giveUp d s.m))) ∧
        ((seasonsRun s.m && mayFrost s.m d) = true →
          (d.val < 68 → bankKeys s.m d = [] ∧ ¬ s.m.cache.writes.any (fun w => decide (0 ∈ w.also))) →
          exec (.frostEntryComplete d) s = .next (s.put (loseContents d (setDom d { x with season := .frost, entering := none } s.m))))) ∧
      (x.season ≠ .spring → exec (.thawComplete d) s = .next s) ∧
      (x.season = .spring →
        let lanes := if d.val = dRed ∧ x.left = .frost then { s.m with red := { s.m.red with lanes := lanesOf s.m.red.seed } } else s.m
        let m' := setDom d { season := if x.entering = some .winter then .winter else .summer, entering := none, left := .summer, idle := 0, used := true } lanes
        resting m' = true → exec (.thawComplete d) s = .next (s.put m'))) ∧
    (resting s.m = true →
      (nextThaw s.m = none → exec .thawStart s = .next s) ∧
      (∀ t : Thaw, nextThaw s.m = some t →
        let d := dom s.m t.dom
        (4 + s.m.season.tokens.toNat < springWeight s.m + seasonWeight d.season → exec .thawStart s = .next s) ∧
        (springWeight s.m + seasonWeight d.season ≤ 4 + s.m.season.tokens.toNat → t.dom < 82 →
          exec .thawStart s = .next (s.put (setDom t.dom
            { d with season := .spring, left := d.season, entering := if t.target = .winter then some .winter else none }
            { s.m with season := { s.m.season with queue := s.m.season.queue.filter (·.dom ≠ t.dom) } })))) ∧
      ∀ cyc : Nat,
        let n := advance cyc s.m
        let counted := { n with season := { n.season with
          doms := n.season.doms.mapIdx fun d x => { x with idle := if x.used || busyDom n d then 0 else x.idle + 1, used := false } } }
        let m' := if seasonsRun counted then (List.range 82).foldl (fun m d => sendDomain s.fx d m) counted else counted
        exec (.seasonWindowEnd cyc) s = .next (s.after m'))

/-- Each command that fails a check of its rule completes with the status and words that the rule gives, and changes nothing:
KEY_BIND and its REVOKE (14 R375), KEY_ROTATE (R372), KEY_RETIRE (R374), CONF_ATTACH (R376), MEASURE_READ (R380), SCRUB_CONTEXT
(R384). Otherwise KEY_BIND and KEY_ROTATE send their request for key material and wait for its answer; REVOKE ends the grant;
KEY_RETIRE with no read of the slot on the port overwrites the old generation and sends KACK "retired"; KEY_ERASE erases the
slot (eraseSlot) and answers how many generations held material, and neither holds any then (R382; the key table in canonical
form); CONF_ATTACH sets the context's and the slot's CONF; MEASURE_READ makes the slot final, sends KDIGEST and answers the
digest; SCRUB_CONTEXT scrubs (scrubCtx) and answers what it freed, with no event. -/
def Obligations.KeyCommands : Prop :=
  ∀ (s : State) (p : CmdPkt) (c : Rec) (m : Mach),
    let ends := fun (row : Instr) (st : Nat) (res : List W64) (m' : Mach) => exec row s = .next (s.put (complete s.fx c st res m'))
    let k : BitVec 9 := BitVec.ofNat 9 (fld c.pkt.p0 8 0)
    let x := kslot m k
    let e := ctxOf m (cCtx c)
    let n : BitVec 16 := BitVec.ofNat 16 ((lowestFree (reqNums m) 0 65536).getD 0)
    let asks := fun (row : Instr) (q : KReq) => exec row s =
      .next (s.put (runOn c (.key n) (sendKreq q { m with keys := { m.keys with reqs := m.keys.reqs ++ [q] } })))
    (Begins s (.keyBind p) c m → cFlag c 0 = false →
      let h : BitVec 16 := BitVec.ofNat 16 (fld c.pkt.p0 31 16)
      let other := m.keys.grants.any (fun g => g.slot = k && g.load && g.ctx ≠ cCtx c)
      let full := decide (1024 ≤ m.keys.grants.length) && !m.keys.grants.any (fun g => g.slot = k && g.ctx = cCtx c)
      let bad := (x.kind ≠ 0 ∧ x.kind ≠ 2) ∨ (x.kind = 2 ∧ x.bindh ≠ h)
      (bad → ends (.keyBind p) csBadParam [] m) ∧
      (¬ bad → cFlag c 1 = true → other = true → ends (.keyBind p) csBusy [] m) ∧
      (¬ bad → (cFlag c 1 && other) = false → full = true → ends (.keyBind p) csNoSpace [] m) ∧
      (¬ bad → (cFlag c 1 && other) = false → full = false → asks (.keyBind p)
        { num := n, slot := k, gen := false, bound := true, bindh := h, ctx := cCtx c, cgen := cGen c, fails := 0, cmd := some c.id })) ∧
    (Begins s (.keyBindRevoke p) c m →
      (cFlag c 1 = true → ends (.keyBindRevoke p) csBadParam [] m) ∧
      (cFlag c 1 = false → ends (.keyBindRevoke p) csDone []
        { m with keys := { m.keys with grants := m.keys.grants.filter fun g => !(g.slot = k && g.ctx = cCtx c) } })) ∧
    (Begins s (.keyRotate p) c m →
      let rate := fld c.pkt.p0 31 16
      (rate = 0 ∨ x.kind ≠ 1 → ends (.keyRotate p) csBadParam [] m) ∧
      (rate ≠ 0 → x.kind = 1 → x.v0 = true → x.v1 = true → ends (.keyRotate p) csBusy [1] m) ∧
      (rate ≠ 0 → x.kind = 1 → (x.v0 && x.v1) = false → asks (.keyRotate p)
        { num := n, slot := k, gen := !x.cur, bound := false, bindh := 0, ctx := x.owner, cgen := x.ogen, fails := 0, cmd := some c.id })) ∧
    (Begins s (.keyRetire p) c m →
      let reads := (m.cache.tickets.filter fun t => t.issued && t.range.any fun r => r.keyslot = k).map (·.num)
      ((x.v0 && x.v1) = false → ends (.keyRetire p) csBadParam [] m) ∧
      (x.v0 = true → x.v1 = true → x.sweep = true → ends (.keyRetire p) csBusy [BitVec.ofNat 64 (rotLeft m k)] m) ∧
      (x.v0 = true → x.v1 = true → x.sweep = false →
        (reads ≠ [] → exec (.keyRetire p) s = .next (s.put (runOn c (.retire k reads) m))) ∧
        (reads = [] → ends (.keyRetire p) csDone [] (emit (.kackSlot k true) (setSlot k
          (if x.cur then { x with v0 := false, g0 := .zero } else { x with v1 := false, g1 := .zero }) m))))) ∧
    (Begins s (.keyErase p) c m →
      let m' := eraseSlot s.fx k true true m
      ends (.keyErase p) csDone [BitVec.ofNat 64 (b2n x.v0 + b2n x.v1)] m' ∧
      (twf .free m.keys.slots = true → (kslot m' k).v0 = false ∧ (kslot m' k).v1 = false ∧ (kslot m' k).g0 = .zero ∧ (kslot m' k).g1 = .zero)) ∧
    (Begins s (.confAttach p) c m →
      let owned := ownedCount m (cCtx c) (cGen c)
      let m' := setCtx (cCtx c) { e with conf := true } (setSlot k { x with conf := true } m)
      (e.keyv = false ∨ e.keyslot ≠ k → ends (.confAttach p) csBadParam [] m) ∧
      (e.keyv = true → e.keyslot = k →
        (e.conf = true → ends (.confAttach p) csDone [] m) ∧
        (e.conf = false → owned ≠ 0 → ends (.confAttach p) csBusy [BitVec.ofNat 64 owned] m) ∧
        (e.conf = false → owned = 0 → confPresent m = true → ends (.confAttach p) csDone [] m') ∧
        (e.conf = false → owned = 0 → confPresent m = false → ends (.confAttach p) csDone [] { m' with
          life := { m.life with pmTlm := round8 m.freeN }
          freeN := m.freeN + 2
          pmc := { m.pmc with nextDue := if m.pmc.interval = 0 then m.cyc + 67108864 else m.pmc.nextDue } }))) ∧
    (Begins s (.measureRead p) c m →
      let i := fld c.pkt.p0 3 0
      let d := digestOf m i
      let f := if d.st = 1 then { d with st := 2, h := shaFinal d.h d.bytes.toNat } else d
      let y := shaDigest f.h
      (d.st = 0 → ends (.measureRead p) csBadParam [] m) ∧
      (d.st ≠ 0 → ends (.measureRead p) (if f.taint then csPoisoned else csDone)
        [f.bytes.zeroExtend 64, y.extractLsb' 0 64, y.extractLsb' 64 64]
        (emit (.kdigest (BitVec.ofNat 4 i) f.taint f.owner f.ogen f.bytes y) (setDigest i f m)))) ∧
    (Begins s (.scrubContext p) c m →
      let silent := fun (st : Nat) (res : List W64) (m' : Mach) => exec (.scrubContext p) s = .next (s.put (complete s.fx (quiet c) st res m'))
      let held := e.keyv && slotHolds (kslot m e.keyslot)
      let out := decide (ctxOut m (cCtx c) e.gen ≠ 0) || ctxStarted m (cCtx c) c.id
      (e.conf = false → silent csBadParam [] m) ∧
      (e.conf = true → held = true → silent csBusy [1] m) ∧
      (e.conf = true → held = false → out = true → silent csBusy [2] m) ∧
      (e.conf = true → held = false → out = false →
        let r := scrubCtx s.fx (cCtx c) c.id m
        resting r.1 = true → silent csDone
          [BitVec.ofNat 64 r.2.1, BitVec.ofNat 64 (r.2.2.1 * 2 ^ 32 + r.2.2.2.1), BitVec.ofNat 64 r.2.2.2.2] r.1))

/-- With the block at rest and the key bus in power (log 24 for the reload's KNACK). A KLOAD whose request number matches no
outstanding request is answered KACK "rejected" and changes nothing (02 R57). One with wrong parity, check word, slot or
generation is answered "rejected", and its request is sent again while it has failed less than twice; at the third failure
error-log class 0x38 is recorded and the command that asked completes with BUSY_RETRY. An accepted one thaws the cipher's domain
or keeps it awake, and ends the command that asked: CTX_OPEN (R365) fills a slot that held nothing and opens the context;
KEY_ROTATE (R372) installs the generation, makes it current and starts the sweep; KEY_BIND (R375) grants an empty slot, or a
shared one when the check words agree, is DENIED when they do not, and NO_SPACE when the table of 1,024 grants has filled
meanwhile. A KNACK ends the command with DENIED and its reason. A KERASE naming nothing is only acknowledged; any other erases
what it names (R58). KEY_RETIRE whose last read is in overwrites the old generation, sends KACK "retired" and completes (14
R374). A rotation sweep's step with no sweep on, or with no scrubs running, changes nothing; otherwise it passes the next line
of the first sweep, or leaves that line next (R373, log 28). With the bus out of power KLOAD, KNACK and KERASE change nothing.
-/
def Obligations.KeyBusRows : Prop :=
  ∀ (s : State), resting s.m = true →
    let m := s.m
    (keyBusUp m = false → ∀ (k : BitVec 9) (g : Bool) (n : BitVec 16) (a b t : BitVec 256) (w : W64) (x y : Bool) (r : Byte) (l : BitVec 2),
      exec (.kload k g n a b t w x y) s = .next s ∧ exec (.knack n r) s = .next s ∧ exec (.kerase k l) s = .next s) ∧
    (keyBusUp m = true →
      (∀ (k : BitVec 9) (g : Bool) (n : BitVec 16) (a b t : BitVec 256) (w : W64) (x y : Bool),
        let row := Instr.kload k g n a b t w x y
        let rejected := emit (.kackRejected n) m
        let key : KeyMat := ⟨a, b, t, w⟩
        (m.keys.reqs.find? (·.num = n) = none → exec row s = .next (s.put rejected)) ∧
        (∀ q, m.keys.reqs.find? (·.num = n) = some q →
          let bad := (x && y) = false ∨ q.slot ≠ k ∨ q.gen ≠ g
          let took := dropKreq n (needDom dCipher m).1
          let z := kslot took k
          (bad → q.fails < 2 →
            let q' := { q with fails := q.fails + 1 }
            exec row s = .next (s.put (sendKreq q'
              { rejected with keys := { rejected.keys with reqs := m.keys.reqs.map fun o => if o.num = q.num then q' else o } }))) ∧
          (∀ run, kreqRun m q = some run → byRing run.cmd.pkt = false →
            let ends := fun (st : Nat) (t : Mach) => exec row s = .next (s.put (complete s.fx run.cmd st [] t))
            (bad → 2 ≤ q.fails → ends csBusy (logErr s.fx 0x38 0 (locO 7 q.slot.toNat) (dropKreq q.num rejected))) ∧
            (¬ bad → resting took = true → run.cmd.opcode = 0x10 → slotHolds z = false →
              let t := openCtx run.cmd (markErased k false false (setSlot k { KeySlot.free with kind := 1, v0 := true, owner := q.ctx, ogen := q.cgen, g0 := key } took))
              resting t = true → ends csDone t) ∧
            (¬ bad → resting took = true → run.cmd.opcode = 0x81 →
              let t := markErased k g false (setSlot k { putGen g key z with cur := g, sweep := true } took)
              let r : Rot := ⟨k, BitVec.ofNat 16 (fld run.cmd.pkt.p0 31 16), slotRuns t k, false⟩
              (nextRun r.runs).isSome = true → ends csDone { t with keys := { t.keys with rots := t.keys.rots ++ [r] } }) ∧
            (¬ bad → resting took = true → run.cmd.opcode = 0x80 →
              (grantRoom took k q.ctx = false → ends csNoSpace took) ∧ (grantRoom took k q.ctx = true →
              (z.kind = 2 → z.v0 = true → w ≠ z.g0.check → ends csDenied took) ∧
              (z.kind = 2 → z.v0 = true → w = z.g0.check → ends csDone (putGrant k q.ctx (cFlag run.cmd 1) took)) ∧
              ((z.kind ≠ 2 ∨ z.v0 = false) → ends csDone (putGrant k q.ctx (cFlag run.cmd 1)
                (markErased k false false (setSlot k { KeySlot.free with kind := 2, v0 := true, bindh := q.bindh, g0 := key } took))))))))) ∧
      (∀ (n : BitVec 16) (r : Byte),
        (m.keys.reqs.find? (·.num = n) = none → exec (.knack n r) s = .next s) ∧
        (∀ q run, m.keys.reqs.find? (·.num = n) = some q → kreqRun m q = some run → byRing run.cmd.pkt = false →
          exec (.knack n r) s = .next (s.put (complete s.fx run.cmd csDenied [r.zeroExtend 64] (dropKreq n m))))) ∧
      (∀ (k : BitVec 9) (l : BitVec 2),
        (l = 0 → exec (.kerase k l) s = .next (s.put (emit (.kackSlot k false) m))) ∧
        (l ≠ 0 → let t := eraseSlot s.fx k (l.getLsbD 0) (l.getLsbD 1) m
          exec (.kerase k l) s = .next (s.put t) ∧
          (twf .free m.keys.slots = true →
            (l.getLsbD 0 = true → (kslot t k).v0 = false ∧ (kslot t k).g0 = .zero) ∧
            (l.getLsbD 1 = true → (kslot t k).v1 = false ∧ (kslot t k).g1 = .zero))))) ∧
    (∀ (k : BitVec 9) (c : Rec), m.cmds.running = [⟨c, .retire k []⟩] → byRing c.pkt = false →
      let z := kslot m k
      exec (.keyRetireReadsDrained k) s = .next (s.put (complete s.fx c csDone [] (emit (.kackSlot k true) (setSlot k
        (if z.cur then { z with v0 := false, g0 := .zero } else { z with v1 := false, g1 := .zero }) m))))) ∧
    (m.keys.rots = [] ∨ scrubsRun m = false → exec .rotationSweepStep s = .next s) ∧
    (∀ r rest l runs, m.keys.rots = r :: rest → scrubsRun m = true → nextRun r.runs = some (l, runs) →
      let x := sweepLine s.fx (whoRot r.slot.toNat) l r.snooped { m with keys := { m.keys with rots := rest } }
      let t := { x.1 with keys := { x.1.keys with rots := x.1.keys.rots ++
        [if x.2.1 then { r with runs := runs, snooped := false } else { r with snooped := x.2.2 }] } }
      exec .rotationSweepStep s = .next (s.after t))

/-- Each command that fails a check of its rule completes with the status that the rule gives and changes nothing. Otherwise:
ERRLOG_READ of one entry answers its two words and, with CONSUME, takes it and those before it out; an empty answer is zeros; a
longer read of no entry answers 0 and stores nothing, and any other stores its entries by write-through and answers their count
(15 R406, logWrites). SCRUB_RATE answers the old rates and the lines left and sets the rates (R409). INJECT answers the stored
bits and changes them as MODE says; a memory line's runs as a program (R411). POISON_CLEAR clears a berth line's poison, or a
cached line's that is present whole, leaving every sector dirty, and answers whether there was any; a line that is not cached is
fetched first (R412). ENGINE_RESET of an engine whose domain is in Frost, or of one with nothing under way, ends at once;
otherwise it answers how many items and commands it gave up (16 R430). What an engine that a command starts does in the same
step is said by `State.onward`. A scrub's step with no scrub on changes nothing; one that finds every stored word agreeing with
its code, and no upset, only moves on, and at RATE 0 only the upset acts (R409, log 20). A memory scrub's step passes a dense
line that is cached, posts the event after the last and starts again where it repeats (R410). -/
def Obligations.ErrorCommands : Prop :=
  ∀ (s : State) (p : CmdPkt) (c : Rec) (m : Mach),
    let ends := fun (row : Instr) (st : Nat) (res : List W64) (m' : Mach) => exec row s = .next (s.put (complete s.fx c st res m'))
    let becomes := fun (row : Instr) (m' : Mach) => exec row s = .next (s.onward c m m')
    (Begins s (.errlogRead p) c m →
      let row := Instr.errlogRead p
      let cnt := fld c.pkt.p0 26 16
      let dest := c.pkt.p1
      let ents := match logStart m (fld c.pkt.p0 15 0) with | some i => (m.err.log.drop i).take cnt | none => []
      let eat : Option (BitVec 16) := if cFlag c 0 then ents.getLast?.map fun e => BitVec.ofNat 16 (fld e.1 47 32) else none
      let ate := match eat with | some n => eatLog n m | none => m
      let homed := rangeHomed s.fx m dest (cnt * 16)
      let rs := rangeRuns s.fx m dest (cnt * 16)
      let bad := fld dest 3 0 ≠ 0 ∨ (homed ∧ !runsAll (fun l => (rangeOf m l).isNone) rs) ∨ mapMeets s.fx rs
      (cnt = 0 ∨ 1024 < cnt → ends row csBadParam [] m) ∧
      (cnt = 1 → (∀ e, ents = [e] → ends row csDone [e.1, e.2, seqWord ate] ate) ∧ (ents = [] → ends row csDone [0, 0, seqWord m] m)) ∧
      (2 ≤ cnt → cnt ≤ 1024 →
        (bad → ends row csBadParam [] m) ∧
        (¬ bad → homed = false → ends row csMishomed [] m) ∧
        (¬ bad → homed = true → (logWrites s.fx m c.id dest 0 ents = [] → ends row csDone [BitVec.ofNat 64 ents.length, 0, seqWord ate] ate) ∧
          becomes row (pumpErrlog s.fx c (logWrites s.fx m c.id dest 0 ents).length ents.length eat
            ((logWrites s.fx m c.id dest 0 ents).foldl (fun m a => doOwn s.fx a m)
              (runOn c (.errlog (logWrites s.fx m c.id dest 0 ents).length ents.length eat) m)))))) ∧
    (Begins s (.scrubRate p) c m →
      let e := m.err
      let n := c.pkt.p3.toNat
      let four := decide (cLen c = 4)
      let bad := four && (decide (fld c.pkt.p2 6 0 ≠ 0) || decide (n % 128 ≠ 0) || decide (n < 128) || decide (n > 2 ^ 35))
      let e1 := { e with rate := BitVec.ofNat 16 (fld c.pkt.p0 15 0) }
      (bad = true → ends (.scrubRate p) csBadParam [] m) ∧
      (bad = false → four = true → rangeHomed s.fx m c.pkt.p2 n = false → ends (.scrubRate p) csMishomed [] m) ∧
      let map := mapMeets s.fx (rangeRuns s.fx m c.pkt.p2 n)
      (bad = false → four = true → rangeHomed s.fx m c.pkt.p2 n = true → map = true → ends (.scrubRate p) csBadParam [] m) ∧
      (bad = false → four = true → rangeHomed s.fx m c.pkt.p2 n = true → map = false →
        ends (.scrubRate p) csDone [BitVec.ofNat 64 (e.mrate.toNat * 2 ^ 16 + e.rate.toNat), BitVec.ofNat 64 (e.mlines - e.mpos)]
          { m with err := { e1 with
            mrate := BitVec.ofNat 16 (fld c.pkt.p1 15 0)
            mrepeat := bit c.pkt.p1 16
            mstart := c.pkt.p2
            mlines := n / 128
            mpos := 0 } }) ∧
      (four = false →
        ends (.scrubRate p) csDone [BitVec.ofNat 64 (e.mrate.toNat * 2 ^ 16 + e.rate.toNat), BitVec.ofNat 64 (e.mlines - e.mpos)] { m with err := e1 })) ∧
    (Begins s (.inject p) c m →
      let row := Instr.inject p
      let mode := b2n (cFlag c 0) + 2 * b2n (cFlag c 1)
      let arr := fld c.pkt.p0 7 0
      let loc := fld c.pkt.p0 63 8
      let badLine := mode = 1 ∨ 2 ^ 35 ≤ loc ∨ loc % 128 ≠ 0 ∨ m.regs.lv = false
      (confPresent m = true → ends row csDenied [] m) ∧
      (confPresent m = false → (mode = 3 ∨ 5 < arr) → ends row csBadParam [] m) ∧
      (confPresent m = false → mode ≠ 3 → arr = 5 → badLine → ends row csBadParam [] m) ∧
      (confPresent m = false → mode ≠ 3 → arr = 5 → ¬ badLine →
        let l : LineNo := BitVec.ofNat 28 (loc / 128)
        let f := if mode = 2 then some (c.pkt.p1, c.pkt.p2) else none
        becomes row (pumpInject s.fx c l f false (runOn c (.inject l f false) m))) ∧
      (confPresent m = false → mode ≠ 3 → arr < 5 →
        (rawGet m arr loc = none → ends row csBadParam [] m) ∧
        (∀ d k, rawGet m arr loc = some (d, k) →
          let asks := fun (x : W64) (y : BitVec 8) => ends row csDone [d, k.zeroExtend 64] (rawFlip arr loc x y m)
          (mode = 0 → asks 0 0) ∧ (mode = 1 → asks (d ^^^ c.pkt.p1) (k ^^^ c.pkt.p2.extractLsb' 0 8)) ∧
          (mode = 2 → asks c.pkt.p1 (c.pkt.p2.extractLsb' 0 8))))) ∧
    (Begins s (.poisonClear p) c m →
      let row := Instr.poisonClear p
      let a := c.pkt.p0
      let b := berthOf m (bIdx a)
      (cFlag c 0 = true →
        (berthHome s.fx m a = false → ends row csMishomed [] m) ∧
        (berthHome s.fx m a = true → fld a 6 0 ≠ 0 → ends row csBadParam [] m) ∧
        (fld a 6 0 = 0 → berthHome s.fx m a = true → lostObj m 1 (bIdx a) = true → ends row csDenied [] m) ∧
        (fld a 6 0 = 0 → berthHome s.fx m a = true → lostObj m 1 (bIdx a) = false → b.valid = true → b.gen = bGen a → bOff a < (b.size.toNat + 1) * 4096 →
          let q := berthPlace m b (bOff a)
          let t := tagAt m q.1 q.2
          (t.poison = false → ends row csDone [0] m) ∧
          (t.poison = true → ends row csDone [1] (setTag q.1 q.2 { t with poison := false } m)))) ∧
      (cFlag c 0 = false →
        (fld a 6 0 ≠ 0 → ends row csBadParam [] m) ∧
        (fld a 6 0 = 0 → lineAt s.fx m a = none → ends row csMishomed [] m) ∧
        (∀ l, fld a 6 0 = 0 → lineAt s.fx m a = some l →
          let conf := (rangeOf m l).any fun r => (kslot m r.keyslot).conf
          (conf = true → ends row csDenied [] m) ∧
          (conf = false →
            becomes row (pumpClear s.fx c l false false false (runOn c (.poison l false false false) m)) ∧
            (∀ way, (ticketFor m l).isSome = false → m.sparse.fills = [] → awake m [dTag (quadOf l), dWay m (setOf l) way] = true → sound m = true →
              hitWay m l = some way →
              let t := tagAt m (setOf l) way
              (t.poison = false → ends row csDone [0] m) ∧
              (t.poison = true → t.v = 0xF → way ∉ fillingWays m (setOf l) →
                ends row csDone [1] (markRewritten l (setTag (setOf l) way { t with v := 0xF, d := 0xF, poison := false } m)))))))) ∧
    (Begins s (.engineReset p) c m →
      let row := Instr.engineReset p
      let e := fld c.pkt.p0 2 0
      let frost := fun (d : Nat) => decide ((dom m d).season = .frost)
      let cold := (e = 0 && frost dRed) || ((e = 1 || e = 2) && frost dEngine) || (e = 4 && frost dCipher)
      let gaveUp := fun (n k : Nat) (m' : Mach) => becomes row (complete s.fx c csDone [BitVec.ofNat 64 n, BitVec.ofNat 64 k] m')
      (5 ≤ e → ends row csBadParam [] m) ∧
      (e < 5 → cold = true → ends row csDone [] m) ∧
      (cold = false →
        (e = 0 → let r := resetReduction s.fx m; gaveUp r.2 0 r.1) ∧
        (e = 1 → let r := cancelProgs s.fx isCopy dropDigest m; gaveUp 0 r.2 r.1) ∧
        (e = 2 → let r := cancelProgs s.fx isMaint (fun _ m => m) m; gaveUp 0 r.2 (stopFrosts r.1)) ∧
        (e = 3 → let r := pullAccs (fun op _ => decide (op ∈ atomicOps)) (closeOff stRetry) m; gaveUp r.2 0 r.1) ∧
        (e = 4 → ends row csDone [0, 0] m) ∧
        (e = 1 → m.cmds.running = [] → ends row csDone [0, 0] m))) ∧
    (∀ n, resting n = true → s.onward c m n = s.put n) ∧
    (resting s.m = true →
      let n := s.m
      (∀ u, scrubsRun n = false → exec (.scrubStep u) s = .next s) ∧
      (n.err.rate = 0 → exec (.scrubStep none) s = .next s) ∧
      (∀ u, scrubsRun n = true → (disturb s.fx u n).err.rate = 0 → exec (.scrubStep (some u)) s = .next (s.after (disturb s.fx u n))) ∧
      (sound n = true → scrubsRun n = true → n.err.rate ≠ 0 →
        exec (.scrubStep none) s = .next (s.put { n with err := { n.err with scrubPos := (n.err.scrubPos + 1) % 131072 } })) ∧
      (∀ u, exec (.scrubStep u) s = .next (s.after (scrubStep s.fx u n))) ∧
      (scrubsRun n = false ∨ n.err.mrate = 0 ∨ n.err.mlines ≤ n.err.mpos → exec .memoryScrubStep s = .next s) ∧
      (∀ l, scrubsRun n = true → n.err.mrate ≠ 0 → n.err.mpos < n.err.mlines → runsAt (scrubRuns s.fx n) n.err.mpos = some l → sound n = true →
        n.sparse.locked ≠ some (BitVec.ofNat 23 (granOf l)) → mapAwake s.fx l n = true → storedForm s.fx l n = .dense n → (hitWay n l).isSome = true →
        let moved := { n with err := { n.err with mpos := n.err.mpos + 1 } }
        let again := if n.err.mrepeat then { n with err := { n.err with mpos := 0 } } else moved
        (n.err.mpos + 1 < n.err.mlines → exec .memoryScrubStep s = .next (s.put moved)) ∧
        (n.err.mpos + 1 = n.err.mlines → exec .memoryScrubStep s = .next (s.put (post s.fx 0x0E n.err.mstart again)))) ∧
      exec .memoryScrubStep s = .next (s.after (memScrubStep s.fx n)))

/-- Each command that fails a check of its rule completes with the status that the rule gives and changes nothing. PMC_CONFIG
programs a counter and answers its old setting and count, clearing the counts its flags name (18 R454). PMC_DUMP_SET places the
dump ring, empty, and sets its interval (R459). PMC_PERMIT gives a context one view, or ends it, and answers how many are held
(R460). DEBUG_OPEN erases the confidential tenants, enters DEBUG and opens the facilities asked for; DEBUG_CLOSE returns to the
state before and closes them (R462). A dump that is not due, with no interval, changes nothing; one that is due latches, moves
on to its next time, and when the ring is full counts a record missed (R459; with no permit held); one due while a SCRUB_CONTEXT
runs waits for its completion (R460). The confidential latch falls only with a confidential context present, no dump interval
and its time come (R386). The power window's value is rounded and shown while a confidential context is present (R387; a free
value past 12 bits, log 8). A peek result answers the pending peek, or says that it names nothing (R463, log 79). -/
def Obligations.CounterAndDebugRows : Prop :=
  ∀ (s : State) (p : CmdPkt) (c : Rec) (m : Mach),
    let ends := fun (row : Instr) (st : Nat) (res : List W64) (m' : Mach) => exec row s = .next (s.put (complete s.fx c st res m'))
    (Begins s (.pmcConfig p) c m →
      let n := fld c.pkt.p1 3 0
      let q := { m.pmc with ctl := tset 0 m.pmc.ctl n c.pkt.p0 }
      let q := if cFlag c 0 then { q with cnt := tset 0 q.cnt n 0 } else q
      let q := if cFlag c 1 then { q with fixed := [] } else q
      (pmcBad c.pkt.p0 = true → ends (.pmcConfig p) csBadParam [] m) ∧
      (pmcBad c.pkt.p0 = false →
        ends (.pmcConfig p) csDone [tget 0 m.pmc.ctl n, ((shown m).prog.getD n 0).zeroExtend 64] { m with pmc := q })) ∧
    (Begins s (.pmcDumpSet p) c m →
      let base := c.pkt.p0
      let size := fld c.pkt.p1 4 0
      let n := 256 * 2 ^ size
      let iv := fld c.pkt.p1 63 40
      let bad := (size < 4 ∨ size > 16 ∨ base.toNat % n ≠ 0) ∨
        (!runsAll (fun l => (rangeOf m l).isNone) (rangeRuns s.fx m base n) || mapMeets s.fx (rangeRuns s.fx m base n)) = true
      (bad → ends (.pmcDumpSet p) csBadParam [] m) ∧
      (¬ bad → rangeHomed s.fx m base n = false → ends (.pmcDumpSet p) csMishomed [] m) ∧
      (¬ bad → rangeHomed s.fx m base n = true → ends (.pmcDumpSet p) csDone [m.pmc.base, m.pmc.seq.zeroExtend 64]
        { m with pmc := { m.pmc with
          base := base
          size := BitVec.ofNat 5 size
          interval := BitVec.ofNat 24 iv
          wr := 0
          rd := 0
          nextDue := if iv = 0 then m.cyc + 67108864 else m.cyc + iv * 1024 } })) ∧
    (Begins s (.pmcPermit p) c m →
      let row := Instr.pmcPermit p
      let view := c.pkt.p0
      let x := cCtx c
      let rs := rangeRuns s.fx m view 256
      let has := m.pmc.permits.any fun p => p.ctx = x
      let gone := endPermit x m
      let held := { m with pmc := { m.pmc with permits := m.pmc.permits.filter (·.ctx ≠ x) ++ [⟨x, cGen c, view⟩] } }
      (view.toNat % 256 ≠ 0 → ends row csBadParam [] m) ∧
      (view.toNat % 256 = 0 → cFlag c 0 = true → ends row csDone [BitVec.ofNat 64 gone.pmc.permits.length] gone ∧ (gone.pmc.permits.all fun q => q.ctx ≠ x) = true) ∧
      (view.toNat % 256 = 0 → cFlag c 0 = false →
        (mapMeets s.fx rs = true → ends row csBadParam [] m) ∧
        (mapMeets s.fx rs = false → has = false → 16 ≤ m.pmc.permits.length → ends row csNoSpace [] m) ∧
        (mapMeets s.fx rs = false → (has = true ∨ m.pmc.permits.length < 16) →
          (rangeHomed s.fx m view 256 = false → ends row csMishomed [] m) ∧
          (rangeHomed s.fx m view 256 = true → (ctxReach m x true rs && confDest m x false rs) = false → ends row csDenied [] m) ∧
          (rangeHomed s.fx m view 256 = true → (ctxReach m x true rs && confDest m x false rs) = true →
            ends row csDone [BitVec.ofNat 64 held.pmc.permits.length] held)))) ∧
    (Begins s (.debugOpen p) c m →
      let fac := fld c.pkt.p0 1 0
      (fac = 0 → ends (.debugOpen p) csBadParam [] m) ∧
      (fac ≠ 0 →
        let t := eraseTenants s.fx c.id m
        let t' := { t with
          life := { t.life with dbgFrom := t.life.st, st := .debug }
          dbg := { t.dbg with trace := fac % 2 = 1, peek := fac / 2 = 1 } }
        resting t' = true → ends (.debugOpen p) csDone [BitVec.ofNat 64 (keysOf m.ctxs fun e => e.opened && e.conf).length] t')) ∧
    (Begins s (.debugClose p) c m → ends (.debugClose p) csDone []
      { m with life := { m.life with st := m.life.dbgFrom }
               dbg := { m.dbg with trace := false, peek := false, peekAddr := 0, data0 := 0, data1 := 0 } }) ∧
    (resting s.m = true →
      (∀ cyc, let n := advance cyc s.m
        (n.pmc.interval = 0 ∨ n.cyc < n.pmc.nextDue → exec (.dumpDue cyc) s = .next (s.put n)) ∧
        (n.pmc.interval ≠ 0 → n.pmc.nextDue ≤ n.cyc →
          let full := (n.pmc.wr - n.pmc.rd).toNat = 2 ^ n.pmc.size.toNat ∨ n.pmc.left ≠ 0
          (scrubRunning n = true → exec (.dumpDue cyc) s = .next (s.after { n with
            lateDumps := n.lateDumps + 1, pmc := { n.pmc with nextDue := n.pmc.nextDue + n.pmc.interval.toNat * 1024 } })) ∧
          (scrubRunning n = false → full → n.pmc.permits = [] → exec (.dumpDue cyc) s = .next (s.put { n with pmc := { n.pmc with
            snap := liveSnap n
            nextDue := n.pmc.nextDue + n.pmc.interval.toNat * 1024
            seq := n.pmc.seq + 1
            missed := n.pmc.missed + 1 } })) ∧
          exec (.dumpDue cyc) s = .next (s.after (dumpDue s.fx n))) ∧
        (n.pmc.interval ≠ 0 ∨ n.pmc.permits = [] → exec (.viewRecordWrite cyc) s = .next (s.put n)) ∧
        (n.pmc.interval = 0 → exec (.viewRecordWrite cyc) s = .next (s.after (sendViews s.fx n.pmc.missed false n))) ∧
        (confPresent n = false ∨ n.pmc.interval ≠ 0 ∨ n.cyc < n.pmc.nextDue → exec (.confidentialLatch cyc) s = .next (s.put n)) ∧
        (confPresent n = true → n.pmc.interval = 0 → n.pmc.nextDue ≤ n.cyc →
          exec (.confidentialLatch cyc) s = .next (s.put { n with pmc := { n.pmc with snap := liveSnap n, nextDue := n.pmc.nextDue + 67108864 } })) ∧
        (∀ sum k, (confPresent n = false ∨ k = 0 → exec (.pmTlmWindowEnd sum k cyc) s = .next (s.put n)) ∧
          (confPresent n = true → k ≠ 0 →
            let v := (sum + 4 * k) / (8 * k) * 8
            (v < 4096 → exec (.pmTlmWindowEnd sum k cyc) s = .next (s.put { n with life := { n.life with pmTlm := BitVec.ofNat 12 v } })) ∧
            (4096 ≤ v → exec (.pmTlmWindowEnd sum k cyc) s =
              .next (s.put { n with life := { n.life with pmTlm := Config.freePower n.freeN }, freeN := n.freeN + 1 }))))) ∧
      (peekPend s.m = false → exec .peekResult s = .next s) ∧
      (peekPend s.m = true →
        (∀ w k, peekAt s.m s.m.dbg.peekAddr = some (w, k) → exec .peekResult s =
          .next (s.put { s.m with dbg := { s.m.dbg with data0 := w, data1 := BitVec.ofNat 64 (2 ^ 63 + k.toNat) }, freeN := s.m.freeN + 1 })) ∧
        (peekAt s.m s.m.dbg.peekAddr = none → exec .peekResult s = .next (s.put { s.m with dbg := { s.m.dbg with data1 := 0 } }))))

/-- SLICE_FENCE of mode 1 with DISCARD is BAD_PARAM; else the slice goes to QUIESCED and the command completes at once when
nothing admitted is left, or waits for it (03 R100, log 36). Mode 0 goes to FENCED and walks (15 R418, pumpFence).
QUIESCE_DRAINED completes a waiting quiesce once what it waits for is gone, and QUIESCE_TIMEOUT one that is late, with DONE_WARN
and how many are left where some are. A hardware fence's power-off comes at its time and switches the domains off with the keys
lost (R419). FW_STAGE is refused for a bad length or address, a range that is not homed or meets the format map, or a stage
under way; else it marks the inactive bank unverified and asks for the image (14 R390). FW_ACTIVATE is refused unless the bank
is the inactive, verified one; with no other command under way the controller restarts from it and waits (R391). FW_QUERY
answers the versions and marks (R392). FW_STAGE_TIMEOUT completes a late stage with DONE_WARN; FW_ACTIVATE_READY completes an
activation with the new and old versions and ends the pause; FW_ACTIVATE_TIMEOUT goes back to the former bank, marks the new one
unverified and answers DONE_WARN. -/
def Obligations.FenceAndFirmwareRows : Prop :=
  ∀ (s : State) (p : CmdPkt) (c : Rec) (m : Mach),
    let ends := fun (row : Instr) (st : Nat) (res : List W64) (m' : Mach) => exec row s = .next (s.put (complete s.fx c st res m'))
    (∀ row, row = .sliceFenceMode0 p ∨ row = .sliceFenceMode1 p → Begins s row c m →
      let quiet := { m with life := { m.life with st := .quiesced } }
      let fenced := { m with life := { m.life with st := .fenced } }
      let q : FenceProg :=
        { discard := cFlag c 0, fatal := m.err.fatal, phase := 2, before := admittedKeys m, wb := 0, pois := 0, left := 0 }
      (bit c.pkt.p0 0 = true → cFlag c 0 = true → ends row csBadParam [] m) ∧
      (bit c.pkt.p0 0 = true → cFlag c 0 = false →
        (quiesceKeys quiet = [] → ends row csDone [] quiet) ∧
        (quiesceKeys quiet ≠ [] → exec row s = .next (s.put (runOn c (.quiesce m.cyc (quiesceKeys quiet)) quiet)))) ∧
      (bit c.pkt.p0 0 = false →
        let t := pumpFence s.fx c q (runOn c (.fence q) fenced)
        exec row s = .next (s.onward c m t) ∧ (resting t = true → exec row s = .next (s.put t)))) ∧
    (Begins s (.fwStage p) c m →
      let n := fld c.pkt.p1 31 0
      let bad := fld c.pkt.p0 6 0 ≠ 0 ∨ n % 128 ≠ 0 ∨ n < 1024 ∨ 262144 < n
      (bad → ends (.fwStage p) csBadParam [] m) ∧
      (¬ bad → rangeHomed s.fx m c.pkt.p0 n = false → ends (.fwStage p) csMishomed [] m) ∧
      let map := mapMeets s.fx (rangeRuns s.fx m c.pkt.p0 n)
      (¬ bad → rangeHomed s.fx m c.pkt.p0 n = true → map = true → ends (.fwStage p) csBadParam [] m) ∧
      (¬ bad → rangeHomed s.fx m c.pkt.p0 n = true → map = false → staging m = true → ends (.fwStage p) csBusy [] m) ∧
      (¬ bad → rangeHomed s.fx m c.pkt.p0 n = true → map = false → staging m = false →
        let b := !m.fw.bankB
        let t := askImage s.fx c 0 (runOn c (.stage b (n / 128) [] none m.cyc) { m with fw := setBank b false (fwVersion m b) m.fw })
        exec (.fwStage p) s = .next (s.onward c m t))) ∧
    (Begins s (.fwActivate p) c m →
      let b := bit c.pkt.p0 0
      (b = m.fw.bankB ∨ bankOk m b = false → ends (.fwActivate p) csBadParam [] m) ∧
      (b ≠ m.fw.bankB → bankOk m b = true → m.cmds.running = [] → exec (.fwActivate p) s =
        .next (s.put (runOn c (.activate b true m.cyc) { m with fw := { m.fw with paused := true, bankB := b } })))) ∧
    (Begins s (.fwQuery p) c m → ends (.fwQuery p) csDone
      [BitVec.ofNat 64 (m.fw.verA.toNat * 2 ^ 32 + m.fw.verB.toNat),
       BitVec.ofNat 64 (b2n m.fw.bankB + b2n m.fw.okA * 2 + b2n m.fw.okB * 4 + b2n (staging m) * 8), 0] m) ∧
    (resting s.m = true → byRing c.pkt = false →
      (s.m.cmds.running = [] → exec .quiesceDrained s = .next s ∧ exec .fwActivateReady s = .next s) ∧
      (∀ f ks, s.m.cmds.running = [⟨c, .quiesce f ks⟩] →
        (quiesceOut s.m ks = true → exec .quiesceDrained s = .next s) ∧
        (quiesceOut s.m ks = false → exec .quiesceDrained s = .next (s.put (complete s.fx c csDone [] s.m)))) ∧
      (∀ b f, s.m.cmds.running = [⟨c, .activate b true f⟩] → exec .fwActivateReady s = .next (s.put (complete s.fx c csDone
        [(fwVersion s.m b).zeroExtend 64, (fwVersion s.m (!b)).zeroExtend 64] { s.m with fw := { s.m.fw with paused := false } }))) ∧
      (∀ cyc, let n := advance cyc s.m
        (n.cmds.running = [] → exec (.quiesceTimeout cyc) s = .next (s.put n) ∧ exec (.fwStageTimeout cyc) s = .next (s.put n) ∧
          exec (.fwActivateTimeout cyc) s = .next (s.put n)) ∧
        (∀ f ks, n.cmds.running = [⟨c, .quiesce f ks⟩] →
          (n.cyc < f + 1048576 → exec (.quiesceTimeout cyc) s = .next (s.put n)) ∧
          (f + 1048576 ≤ n.cyc →
            let k := ((quiesceKeys n).filter fun k => decide (k ∈ ks)).length
            exec (.quiesceTimeout cyc) s =
              .next (s.put (if k = 0 then complete s.fx c csDone [] n else complete s.fx c csWarn [0, BitVec.ofNat 64 k] n)))) ∧
        (∀ b k i r f, n.cmds.running = [⟨c, .stage b k i (some r) f⟩] →
          (n.cyc < f + 268435456 → exec (.fwStageTimeout cyc) s = .next (s.put n)) ∧
          (f + 268435456 ≤ n.cyc → exec (.fwStageTimeout cyc) s = .next (s.put (complete s.fx c csWarn [0, 1] n)))) ∧
        (∀ b f, n.cmds.running = [⟨c, .activate b true f⟩] →
          (n.cyc < f + 65536 → exec (.fwActivateTimeout cyc) s = .next (s.put n)) ∧
          (f + 65536 ≤ n.cyc →
            let t := { n with fw := { setBank b false (fwVersion n b) n.fw with bankB := !b, paused := false } }
            exec (.fwActivateTimeout cyc) s =
              .next (s.put (complete s.fx c csWarn [(fwVersion t (!b)).zeroExtend 64, (fwVersion t b).zeroExtend 64] t)))) ∧
        (n.life.hwFence = none → exec (.hwFencePowerOff cyc) s = .next (s.put n)) ∧
        (∀ t, n.life.hwFence = some t →
          (n.cyc < t → exec (.hwFencePowerOff cyc) s = .next (s.put n)) ∧
          (t ≤ n.cyc → exec (.hwFencePowerOff cyc) s =
            .next (s.put { loseKeys n with life := { (loseKeys n).life with domainsOff := true, hwFence := none } })))))

/-- A cold reset returns every register, table and FIFO of the block to its reset value with the RO/L fields and the level, and
keeps the straps, the pins, what the data banks hold and what has left; a warm reset keeps RO/L, level and the soft-repair log
(02 R61; log 84, log 88), and while COLD_RST_N is asserted only records its pin. PWR_OK, the release of resets, ISO_N and VDD_SW
act as 02 R62, R64 and R56 say (log 30); sixteen cycles after the release the slice goes to INIT. The phases of 17 Table START-1
follow one another: FWDONE ends phase 0, or with bad parity is rejected (17 R441; a stage's FWDONE completes FW_STAGE, 14 R390),
CONTROLLER_START ends 1, ARRAY_BIST ends 2 or fails (R443), REPAIR_LOAD ends 4 or fences a failed site (R442; log 31, log 43),
HARDWARE_INVALIDATE ends 5 in READY with an empty cache and directory (04 R141). Out of its phase each changes nothing. FWLOAD
writes its beats where it is accepted and is rejected otherwise (log 26). The TAP writes take effect only in the states 17 R448
gives; what a scan chain holds is free (log 8). SLICE_ALIVE toggles while the controller runs unpaused, and a controller that
stops runs no more (16 R431). -/
def Obligations.PowerAndStartupRows : Prop :=
  ∀ (s : State), (
    let keepsReset := fun (cold : Bool) (t : Mach) =>
      t = { Mach.reset with
        life := { Life.reset with
          pwrOk := s.m.life.pwrOk
          coldRst := s.m.life.coldRst || cold
          warmRst := s.m.life.warmRst || !cold
          iso := s.m.life.iso
          vddSw := s.m.life.vddSw
          softRepair := if cold then [] else s.m.life.softRepair
          fuseRepair := if cold then 0 else s.m.life.fuseRepair
          scanEn := !cold && s.m.life.scanEn
          scanned := !cold && s.m.life.scanned }
        cache := { Cache.reset with data := s.m.cache.data, errs := { ArrErr.none with word := s.m.cache.errs.word } }
        out := s.m.out
        freeN := s.m.freeN }
    (∃ t, exec .coldRstAssert s = .next t ∧ keepsReset true t.m ∧ t.pending = s.pending ∧ t.fx.siteId = s.fx.siteId ∧
      t.fx.level = none ∧ t.fx.roLocked = false ∧ t.fx.procId = 0 ∧ t.fx.fmapBase = 0 ∧ t.fx.fmapKeep = false ∧ t.fx.fmapEn = false) ∧
    (s.m.life.coldRst = false → ∃ t, exec .warmRstAssert s = .next t ∧ keepsReset false t.m ∧ t.fx = s.fx ∧ t.pending = s.pending) ∧
    (s.m.life.coldRst = true → exec .warmRstAssert s = .next (s.put { s.m with life := { s.m.life with warmRst := true } })) ∧
    (resting s.m = true →
      let m := s.m
      let l := m.life
      (exec .pwrOkRise s = .next (s.put { m with life := { l with
        pwrOk := true
        released := l.st = .off && !l.coldRst && !l.warmRst } })) ∧
      (exec .resetRelease s = .next (s.put { m with life := { l with
        coldRst := false
        warmRst := false
        vddSw := true
        released := l.st = .off && l.pwrOk } })) ∧
      (l.released = true → l.scanned = false → l.scanEn = false →
        exec .leaveOffForInit s = .next (s.put { m with life := { l with st := .init, phase := 0, released := false }, cyc := 16 })) ∧
      (l.released = false ∨ l.scanned = true ∨ l.scanEn = true → exec .leaveOffForInit s = .next s) ∧
      (∀ b, exec (.isoNChange b) s = .next (s.put { m with life := { l with iso := !b } })) ∧
      (∀ b, ∃ t, exec (.vddSwRemoval b) s = .next (s.put t) ∧ t.life = { l with vddSw := false } ∧ t.cache.tags = [] ∧ t.cache.data = [] ∧ t.dir.ents = [] ∧
        t.red.acc = [] ∧ (b = false → t.keys = m.keys) ∧ (b = true → t.keys.slots = [] ∧ t.keys.grants = []) ∧ t.pmc = m.pmc ∧ t.regs = m.regs ∧ t.ctxs = m.ctxs) ∧
      (∀ (n : BitVec 16) (b : Bool) (o : BitVec 18) (ws : List W64) (ok : Bool),
        let fits := decide (o.toNat / 8 + ws.length ≤ 24576)
        let due := if l.st = .init then decide (l.phase = 0) && decide (n = 0) && !b else decide ((stageOf m n).map (·.2) = some b)
        (l.st = .off → exec (.fwload n b o ws ok) s = .next s) ∧
        (l.st ≠ .off → (ok && due && fits) = true → exec (.fwload n b o ws ok) s = .next (s.put (putBeats b (o.toNat / 8) ws m))) ∧
        (l.st ≠ .off → (ok && due && fits) = false → exec (.fwload n b o ws ok) s = .next (s.put (emit (.kackRejected n) m)))) ∧
      (∀ (n : BitVec 16) (r : Byte) (v : W32),
        (∀ ok, l.st = .off → exec (.fwdone n r v ok) s = .next s) ∧
        (l.st ≠ .off → exec (.fwdone n r v false) s = .next (s.put (emit (.kackRejected n) m))) ∧
        (l.st = .init → l.phase ≠ 0 ∨ n ≠ 0 → exec (.fwdone n r v true) s = .next s) ∧
        (l.st = .init → l.phase = 0 → n = 0 → r = 0 → exec (.fwdone n r v true) s = .next (s.put { m with
          fw := { setBank false true v m.fw with okB := false, verB := 0, bankB := false }
          life := { l with phase := 1, fwResult := 0 } })) ∧
        (l.st = .init → l.phase = 0 → n = 0 → r ≠ 0 → exec (.fwdone n r v true) s = .next (s.put { m with
          life := { l with phase := 7, fail := 1, fwResult := r } })) ∧
        (l.st ≠ .off → l.st ≠ .init → stageOf m n = none → exec (.fwdone n r v true) s = .next s) ∧
        (∀ run b, l.st ≠ .off → l.st ≠ .init → stageOf m n = some (run, b) → byRing run.cmd.pkt = false →
          let t := { m with fw := setBank b (decide (r = 0)) v m.fw }
          (r = 0 → exec (.fwdone n r v true) s = .next (s.put (complete s.fx run.cmd csDone [v.zeroExtend 64] t))) ∧
          (r ≠ 0 → exec (.fwdone n r v true) s = .next (s.put (complete s.fx run.cmd csWarn [r.zeroExtend 64, 0] t))))) ∧
      (∀ cyc, let n := advance cyc m
        ((initLoads n && decide (268435472 ≤ n.cyc)) = true →
          exec (.firmwareLoadTimeout cyc) s = .next (s.put { n with life := { n.life with phase := 7, fail := 2 } })) ∧
        ((initLoads n && decide (268435472 ≤ n.cyc)) = false → exec (.firmwareLoadTimeout cyc) s = .next (s.put n))) ∧
      (l.st = .init → l.phase = 1 → exec .controllerStart s = .next (s.put { m with life := { l with
        running := true
        alive := true
        st := .selftest
        phase := 2 } })) ∧
      (l.st ≠ .init ∨ l.phase ≠ 1 → exec .controllerStart s = .next s) ∧
      (∀ f, (l.st ≠ .selftest ∨ l.phase ≠ 2 → exec (.arrayBist f) s = .next s) ∧
        (l.st = .selftest → l.phase = 2 → bistRepairable f = false → exec (.arrayBist f) s = .next (s.put { m with life := { l with
          bistRows := f.rows
          bistBanks := f.banks
          bistUnit := f.unit
          st := .fenced
          phase := 7
          fail := 3 } })) ∧
        (l.st = .selftest → l.phase = 2 → bistRepairable f = true → exec (.arrayBist f) s = .next (s.put { m with
          life := { l with bistRows := f.rows, bistBanks := f.banks, bistUnit := f.unit, phase := if l.hold then 3 else 4 }
          cache := { m.cache with spareBad := (List.range 4).filter fun q => 16 ∈ badBanks f q } }))) ∧
      (l.st ≠ .selftest ∨ l.phase ≠ 4 → exec .repairLoad s = .next s) ∧
      (l.st = .selftest → l.phase = 4 → columnFailed s.fx m = true → exec .repairLoad s = .next (s.put { m with life := { l with
        st := .fenced
        phase := 7
        fail := 4 } })) ∧
      (l.st = .selftest → l.phase = 4 → columnFailed s.fx m = false →
        (loadRepairs s.fx m).life.phase = 5 ∧ exec .repairLoad s = .next (s.after (loadRepairs s.fx m))) ∧
      (l.st ≠ .selftest ∨ l.phase ≠ 5 → exec .hardwareInvalidate s = .next s) ∧
      (l.st = .selftest → l.phase = 5 → m.cmds.running.any (fun r => isSweepRun r.prog) = false → ∃ t, exec .hardwareInvalidate s = .next (s.put t) ∧ t.life = { l with st := .ready, phase := 6 } ∧
        t.cache.tags = [] ∧ t.cache.data = m.cache.data ∧ t.dir.ents = [] ∧ t.dir.snoops = [] ∧ t.red.acc = [] ∧ t.regs = m.regs ∧ t.keys = m.keys) ∧
      (∀ v, (exec (.tapFuseRepairShift v) s = .next (s.put (if l.coldRst && !confPresent m then { m with life := { l with fuseRepair := v } } else m)))) ∧
      (∀ v f, (exec (.tapBistCtlWrite v f) s = .next (s.put (if (l.st = .off || l.st = .fenced) && !confPresent m then
        { m with life := { l with bistCtl := v, bistRows := f.rows, bistBanks := f.banks, bistUnit := f.unit } } else m)))) ∧
      (∀ b, ((l.coldRst || l.warmRst) = false ∨ confPresent m = true → exec (.tapScanEnWrite b) s = .next s) ∧
        ((l.coldRst || l.warmRst) = true → confPresent m = false → exec (.tapScanEnWrite b) s = .next (s.put
          { (if b then loseKeys m else m) with life := { l with scanEn := b } }))) ∧
      (∀ k bs, (l.scanEn = false ∨ confPresent m = true → exec (.tapScanChainAccess k bs) s = .next s) ∧
        (l.scanEn = true → confPresent m = false →
          let t := emit (.scan ((List.range bs.length).map fun i => Config.freeBit (m.freeN + i))) m
          (bs = [] → exec (.tapScanChainAccess k bs) s = .next (s.put t)) ∧
          (bs ≠ [] → exec (.tapScanChainAccess k bs) s = .next (s.put { t with
            life := { t.life with scanned := true, bistCtl := (Config.freeWord (m.freeN + bs.length)).extractLsb' 0 32 }
            freeN := m.freeN + bs.length + 1 })))) ∧
      (exec .sliceAliveToggle s = .next (s.put (if l.running && !m.fw.paused then { m with life := { l with alive := !l.alive } } else m))) ∧
      (exec .controllerStops s = .next (s.put { m with life := { l with running := false } }))))

/-- A write of a 32-bit register by any path ends the path's latches (19 R468); in OFF it does nothing; from a path that Table
WIN-1 does not name it is ignored, with REJECT and the offset kept (R469); where the manual ignores it silently nothing more
happens (log 81); else the register takes the value. So do the rows of 64-bit registers by the in-band path and the aperture; by
the sideband they are two writes (log 44). The value's effect: a tail may not run past the ring (03 R72 names the error), a head
or PMC_RD past the tail is ignored with REJECT (R470), EVQ_CTL and CMDQ_CTL enable only a well-placed ring (19 R473, R474),
RED_CTL sets the seed and with it every lane generator (07 R223), KRTn is ignored where it or a locked range stands in the way
(14 R367, log 82), BOOT_CTL holds start-up (17 R444), HC_AGENTn enables, disables and clears HUNG (11 R326), a peek is asked for
when none is pending (R470), SLICE_ID sets PROC while RO/L fields are not locked and the rest in READY or QUIESCED (01 R30), and
RECOV_CTL's HWFENCE acts for the sideband alone: FENCED, FATAL, and the domains off 64 cycles after the last wake (16 R431;
shown whole with nothing outstanding). A register write of eight bytes by the sideband, or one that is not aligned to its size,
writes nothing and sets REJECT, or in INIT is ignored. -/
def Obligations.RegisterRows : Prop :=
  (∀ (s : State) (row : Instr) (path : Path) (o : Nat) (d : W32) (w : Writer),
    ((∃ f, row = .cmdqCtlWrite path f d ∧ o = if f then 0x0140 else 0x0100) ∨ (∃ f, row = .cmdqTailWrite path f d ∧ o = if f then 0x0160 else 0x0120) ∨
     (∃ f, row = .rplqHeadWrite path f d ∧ o = if f then 0x016C else 0x012C) ∨ (row = .evqCtlWrite path d ∧ o = 0x0180) ∨ (row = .evqHeadWrite path d ∧ o = 0x0194) ∨
     (row = .recovCtlHwfence path d ∧ o = 0x0230) ∨ (row = .pmcRdWrite path d ∧ o = 0x2554) ∨ (row = .redCtlWrite path d ∧ o = 0x0208) ∨
     (row = .bootCtlWrite path d ∧ o = 0x0250) ∨ (∃ n : BitVec 4, row = .hcAgentWrite path n d ∧ o = 0x0280 + 4 * n.toNat) ∨
     (∃ n : BitVec 7, row = .sliceIdWrite path (some n) (d.zeroExtend 64) ∧ o = 0x0400 + 4 * n.toNat) ∨
     (row = .registerWrite path false (BitVec.ofNat 16 o) (d.zeroExtend 64) ∧ o < 2 ^ 16)) →
    o % 4 = 0 → regAt o = some (o, false, w) → resting s.m = true →
    let m := clearLatches path s.m
    let v := (regVal s.fx m o &&& ~~~0xFFFFFFFF) ||| (d.zeroExtend 64 &&& 0xFFFFFFFF)
    let x := regWrite s.fx path o o v m
    (s.m.life.st = .off → exec row s = .next s) ∧
    (s.m.life.st ≠ .off → writeGate m path o w = .quiet_ → exec row s = .next (s.put m)) ∧
    (s.m.life.st ≠ .off → writeGate m path o w = .reject → exec row s = .next (s.put { m with regs := { m.regs with reject := true, roff := BitVec.ofNat 16 o } })) ∧
    (s.m.life.st ≠ .off → writeGate m path o w = .go → resting x.2.1 = true → exec row s = .next { s with fx := x.1, m := x.2.1 })) ∧
  (∀ (s : State) (row : Instr) (path : Path) (o : Nat) (d : W64) (w : Writer),
    ((row = .dbgPeekAddrWrite path d ∧ o = 0x3008) ∨ (∃ n : BitVec 6, row = .krtWrite path n d ∧ o = 0x2000 + 8 * n.toNat) ∨
     (row = .sliceIdWrite path none d ∧ o = 0x0010) ∨ (row = .registerWrite path true (BitVec.ofNat 16 o) d ∧ o < 2 ^ 16)) →
    path ≠ .sideband → o % 8 = 0 → regAt o = some (o, true, w) → resting s.m = true →
    let m := clearLatches path s.m
    let x := regWrite s.fx path o o d m
    (s.m.life.st = .off → exec row s = .next s) ∧
    (s.m.life.st ≠ .off → writeGate m path o w = .quiet_ → exec row s = .next (s.put m)) ∧
    (s.m.life.st ≠ .off → writeGate m path o w = .reject → exec row s = .next (s.put { m with regs := { m.regs with reject := true, roff := BitVec.ofNat 16 o } })) ∧
    (s.m.life.st ≠ .off → writeGate m path o w = .go → resting x.2.1 = true → exec row s = .next { s with fx := x.1, m := x.2.1 })) ∧
  (∀ (m : Mach) (p : Path) (o : Nat) (w : Writer), m.life.st ≠ .init →
    (w = .none → writeGate m p o w = .reject) ∧
    (w = .pilot → m.pilot.master ≠ (match p with | .aperture => 1 | .inband => 2 | .sideband => 3) → writeGate m p o w = .reject) ∧
    (w = .pilot → m.pilot.master = (match p with | .aperture => 1 | .inband => 2 | .sideband => 3) → o ≠ 0x3000 → o ≠ 0x3008 → writeGate m p o w = .go) ∧
    (w = .aperture → writeGate m p o w ≠ .go → p ≠ .aperture ∨ o = 0x3000 ∨ o = 0x3008) ∧
    (w = .inband → writeGate m p o w ≠ .go → p ≠ .inband ∨ o = 0x3000 ∨ o = 0x3008)) ∧
  (∀ (fx : Fixed) (p : Path) (off : Nat) (v : W64) (m : Mach),
    (∀ f, let r := ringOf m f;
      let h : BitVec 16 := v.extractLsb' 0 16;
      (r.en = false → (regWrite fx p off (if f then 0x0160 else 0x0120) v m).2.1 = m) ∧
      (r.en = true → (h - r.head).toNat ≤ 2 ^ r.size.toNat →
        (regWrite fx p off (if f then 0x0160 else 0x0120) v m).2.1 = setRing f { r with tail := h } m) ∧
      (r.en = true → 2 ^ r.size.toNat < (h - r.head).toNat →
        (regWrite fx p off (if f then 0x0160 else 0x0120) v m).2.1 = ringError fx f 1 (setRing f { r with tail := h } m)) ∧
      ((r.rtail - h).toNat ≤ 2 ^ r.size.toNat → (regWrite fx p off (if f then 0x016C else 0x012C) v m).2.1 = setRing f { r with rhead := h } m) ∧
      (2 ^ r.size.toNat < (r.rtail - h).toNat → (regWrite fx p off (if f then 0x016C else 0x012C) v m).2.1 = rejectAt off m)) ∧
    (let h : BitVec 16 := v.extractLsb' 0 16;
      ((m.evq.tail - h).toNat ≤ 2 ^ m.evq.size.toNat → (regWrite fx p off 0x0194 v m).2.1 = { m with evq := { m.evq with head := h } }) ∧
      (2 ^ m.evq.size.toNat < (m.evq.tail - h).toNat → (regWrite fx p off 0x0194 v m).2.1 = rejectAt off m)) ∧
    (let r : W32 := v.extractLsb' 0 32;
      ((m.pmc.wr - r).toNat ≤ 2 ^ m.pmc.size.toNat → (regWrite fx p off 0x2554 v m).2.1 = { m with pmc := { m.pmc with rd := r } }) ∧
      (2 ^ m.pmc.size.toNat < (m.pmc.wr - r).toNat → (regWrite fx p off 0x2554 v m).2.1 = rejectAt off m)) ∧
    (let seed : BitVec 16 := v.extractLsb' 16 16;
      (regWrite fx p off 0x0208 v m).2.1 = { m with red := { m.red with seed := seed, batchEn := bit v 0, lanes := lanesOf seed } }) ∧
    ((peekPend m = true → (regWrite fx p off 0x3008 v m).2.1 = rejectAt off m) ∧
      (peekPend m = false → (regWrite fx p off 0x3008 v m).2.1 =
        { m with dbg := { m.dbg with peekAddr := v, data1 := BitVec.ofNat 64 (2 ^ 62) } })) ∧
    (∀ n : BitVec 6, let r := krtOf v;
      (krtLock m (krt m n.toNat) = true →
        (regWrite fx p off (0x2000 + 8 * n.toNat) v m).2.1 = { m with keys := { m.keys with krtReject := true } }) ∧
      (krtLock m (krt m n.toNat) = false → r.en = false →
        (regWrite fx p off (0x2000 + 8 * n.toNat) v m).2.1 = { m with keys := { m.keys with krt := tset .reset m.keys.krt n.toNat r } })) ∧
    ((regWrite fx p off 0x0010 v m).1 = (if fx.roLocked then fx else { fx with procId := v.extractLsb' 48 16 }) ∧
      (regWrite fx p off 0x0010 v m).2.1 = (if m.life.st = .ready ∨ m.life.st = .quiesced then
        { m with regs := { m.regs with lv := bit v 39, logical := v.extractLsb' 32 7 } } else m)) ∧
    (∀ n : BitVec 4, bit v 31 = false → bit v 30 = false → (regWrite fx p off (0x0280 + 4 * n.toNat) v m).2.1 =
      { m with dir := { m.dir with en := m.dir.en &&& ~~~((1 : BitVec 16) <<< n.toNat) } }) ∧
    (∀ n : BitVec 4, bit v 31 = true → bit v 30 = false → (regWrite fx p off (0x0280 + 4 * n.toNat) v m).2.1 =
      if reclaiming m n.toNat then rejectAt off m else { m with dir := { m.dir with en := m.dir.en ||| ((1 : BitVec 16) <<< n.toNat) } }) ∧
    (∀ n : BitVec 4, bit v 30 = true →
      let c := { m with dir := { m.dir with hung := m.dir.hung &&& ~~~((1 : BitVec 16) <<< n.toNat) } }
      (bit v 31 = false → (regWrite fx p off (0x0280 + 4 * n.toNat) v m).2.1 = { c with dir := { c.dir with en := c.dir.en &&& ~~~((1 : BitVec 16) <<< n.toNat) } }) ∧
      (bit v 31 = true → (regWrite fx p off (0x0280 + 4 * n.toNat) v m).2.1 =
        if reclaiming m n.toNat then rejectAt off c else { c with dir := { c.dir with en := c.dir.en ||| ((1 : BitVec 16) <<< n.toNat) } })) ∧
    (∀ n : BitVec 6, let r := krtOf v
      let clash := fun (o : KRange) => o.en = true ∧ krtLock m o = true ∧ r.base.toNat ≤ r.limit.toNat ∧ o.base.toNat ≤ o.limit.toNat ∧
        r.base.toNat ≤ o.limit.toNat ∧ o.base.toNat ≤ r.limit.toNat
      krtLock m (krt m n.toNat) = false → r.en = true →
        ((∃ j, j < 64 ∧ j ≠ n.toNat ∧ clash (krt m j)) →
          (regWrite fx p off (0x2000 + 8 * n.toNat) v m).2.1 = { m with keys := { m.keys with krtReject := true } }) ∧
        ((∀ j, j < 64 → j ≠ n.toNat → ¬ clash (krt m j)) →
          (regWrite fx p off (0x2000 + 8 * n.toNat) v m).2.1 = { m with keys := { m.keys with krt := tset .reset m.keys.krt n.toNat r } })) ∧
    (∀ f, let r := ringOf m f
      let n := 2 ^ r.size.toNat
      let fits := 4 ≤ r.size.toNat ∧ r.size.toNat ≤ 12 ∧ r.base.toNat % (64 * n) = 0 ∧ r.rbase.toNat % (32 * n) = 0 ∧
        rangeHomed fx m r.base (64 * n) = true ∧ rangeHomed fx m r.rbase (32 * n) = true
      let t := (regWrite fx p off (if f then 0x0140 else 0x0100) v m).2.1
      (r.en = true → bit v 31 = true → t = m) ∧
      (r.en = true → bit v 31 = false → t = setRing f { ringOf (dropFetch f m) f with en := false } (dropFetch f m)) ∧
      (r.en = false → bit v 31 = false → t = m) ∧
      (r.en = false → bit v 31 = true → fits → t = setRing f { r with en := true, err := false, tail := 0, head := 0, rtail := 0, rhead := 0 } m) ∧
      (r.en = false → bit v 31 = true → ¬ fits → t = setRing f { r with err := true } m)) ∧
    (let q := m.evq
      let size := if q.en then q.size else v.extractLsb' 0 4
      let n := 16 * 2 ^ size.toNat
      let fits := 4 ≤ size.toNat ∧ size.toNat ≤ 12 ∧ q.base.toNat % n = 0 ∧ rangeHomed fx m q.base n = true ∧
        runsAll (fun l => (rangeOf m l).isNone) (rangeRuns fx m q.base n) = true
      let t := (regWrite fx p off 0x0180 v m).2.1
      (q.en = true ∨ bit v 31 = false → t = { m with evq := { q with sbmir := bit v 29, size := size, en := bit v 31 } }) ∧
      (q.en = false → bit v 31 = true → fits →
        t = { m with evq := { q with sbmir := bit v 29, size := size, en := true, err := false, tail := 0, head := 0 } }) ∧
      (q.en = false → bit v 31 = true → ¬ fits → t = { m with evq := { q with sbmir := bit v 29, size := size, err := true } })) ∧
    (let t := (regWrite fx p off 0x0250 v m).2.1;
      t.life.hold = bit v 31 ∧ t.life.rowHealth = v.extractLsb' 0 9 ∧
      (m.life.st = .selftest → m.life.phase = 3 → t.life.phase = if bit v 31 then 3 else 4) ∧
      (m.life.st ≠ .selftest ∨ m.life.phase ≠ 3 → t.life.phase = m.life.phase) ∧
      t = { m with life := { m.life with hold := t.life.hold, rowHealth := t.life.rowHealth, phase := t.life.phase } }) ∧
    (let n := if pilotPath m p then { m with regs := { m.regs with holdTicks := v.extractLsb' 24 8 } } else m
      let t := (regWrite fx p off 0x0230 v m).2.1
      (p ≠ .sideband ∨ bit v 0 = false → t = n) ∧
      (p = .sideband → bit v 0 = true → t = hwFence n ∧
        (m.cache.replay = [] → m.cache.tickets = [] → m.cache.writes = [] → m.sparse.fills = [] → m.cache.own = [] → m.red.qN = [] → m.red.qS = [] →
          m.red.folds = [] → m.sync.thawQ = [] → m.sync.coalWait = [] → m.sync.waits = [] →
          t = { n with life := { n.life with st := .fenced, hwFence := some (n.cyc + 64) }, err := { n.err with fatal := true } })))) ∧
  (∀ (s : State) (path : Path) (eight : Bool) (o : Nat) (d : W64), (eight = true ∧ path = .sideband) ∨ o % (if eight then 8 else 4) ≠ 0 → o < 2 ^ 16 →
    s.m.life.st ≠ .off → resting s.m = true →
    let m := clearLatches path s.m
    exec (.registerWrite path eight (BitVec.ofNat 16 o) d) s = .next (s.put (if m.life.st = .init then m else { m with regs := { m.regs with reject := true } })))

/-- A sideband read or write of another site, or in OFF, does nothing; a malformed one is answered with zeros and sets REJECT
(02 R59, R60, R483, log 86); others access the window and are answered. A transfer of a reserved kind for this site is counted
denied, and SB_CMD acts as the row of its command. A window packet from no window's peer or for another site is counted and
dropped; in OFF it is answered with zeros, malformed it is answered DENIED with REJECT (log 80). A discarded VC2 packet is
counted as accepted, and as denied, with the context of word 1 for a command packet (18 R452), unless it is a KIND 3 with a zero
envelope (log 35, log 94). A ring with nothing to fetch, or that may not, is left alone (03 R71). The lease ends only with a
pilot whose lease is over, who then is gone, with the event PILOT_CHANGE (R89, log 39, log 64). The event ring writes nothing
when nothing waits, it is disabled, full or writing (19 R475); else it marks the write as going on. At the end of a pressure
window the groups are judged and their misses counted anew (05 R162). -/
def Obligations.TransportRows : Prop :=
  (∀ (s : State) (site : Byte) (rs : BitVec 4) (o : BitVec 16) (d : W32), resting s.m = true →
    let word := fun (v : W32) => BitVec.ofNat 64 (8 * 2 ^ 60 + s.fx.siteId.toNat * 2 ^ 52 + o.toNat * 2 ^ 32 + v.toNat)
    let ack := Out.sb (BitVec.ofNat 64 (9 * 2 ^ 60 + s.fx.siteId.toNat * 2 ^ 52 + o.toNat * 2 ^ 32))
    let bad := { s.m with regs := { s.m.regs with reject := true } }
    (site ≠ s.fx.siteId ∨ s.m.life.st = .off → exec (.sbRead site rs o d) s = .next s ∧ exec (.sbWrite site rs o d) s = .next s) ∧
    (site = s.fx.siteId → s.m.life.st ≠ .off →
      (rs ≠ 0 ∨ o.toNat % 4 ≠ 0 ∨ d ≠ 0 → exec (.sbRead site rs o d) s = .next (s.put (emit (.sb (word 0)) bad))) ∧
      (rs = 0 → o.toNat % 4 = 0 → d = 0 →
        let x := read4 s.fx .sideband o.toNat (tget none s.m.regs.rlatch 0) (clearLatches .sideband s.m)
        exec (.sbRead site rs o d) s = .next (s.put (emit (.sb (word x.2)) x.1))) ∧
      (rs ≠ 0 ∨ o.toNat % 4 ≠ 0 → exec (.sbWrite site rs o d) s = .next (s.put (emit ack bad))) ∧
      (rs = 0 → o.toNat % 4 = 0 →
        let x := write4 s.fx .sideband o.toNat d (tget none s.m.regs.wlatch 0) (clearLatches .sideband s.m)
        resting x.2.1 = true → exec (.sbWrite site rs o d) s = .next { s with fx := x.1, m := emit ack x.2.1 })) ∧
    (∀ k : BitVec 4, (site = s.fx.siteId → 2 < k.toNat → exec (.sbTransferIgnored site k) s = .next (s.put (count 0x010 s.m))) ∧
      (site ≠ s.fx.siteId ∨ k.toNat ≤ 2 → exec (.sbTransferIgnored site k) s = .next s)) ∧
    (∀ p, site ≠ s.fx.siteId → exec (.sbCmd site p) s = .next s) ∧
    (∀ p c m, Begins s (.sbCmd site p) c m → c.opcode = 0x00 → exec (.sbCmd site p) s = .next (s.put (complete s.fx c csDone [] m))) ∧
    (∀ (stop : Stop) (peer : BitVec 16) (env : BitVec 44) (a b : W64),
      let row := Instr.windowAccess stop peer env a b
      let m := count 0x040 s.m
      let reply := fun (st : Nat) (v : W64) => emit (.win stop peer (BitVec.ofNat 64 (fld a 63 54 * 2 ^ 54 + fld a 47 16 * 2 ^ 16 + st)) v)
      let malformed := env ≠ 0 ∨ fld a 53 48 ≠ 0 ∨ fld a 15 0 ≠ 0 ∨ (bit a 63 = false ∧ b ≠ 0) ∨ (bit a 63 = true ∧ bit a 62 = false ∧ fld b 63 32 ≠ 0)
      (peerPath peer = none ∨ fld a 61 54 ≠ s.fx.siteId.toNat → exec row s = .next (s.put (count 0x010 m))) ∧
      (∀ q, peerPath peer = some q → fld a 61 54 = s.fx.siteId.toNat →
        (s.m.life.st = .off → exec row s = .next (s.put (reply 0 0 m))) ∧
        (s.m.life.st ≠ .off → malformed → exec row s = .next (s.put (reply 4 0 { m with regs := { m.regs with reject := true } }))) ∧
        (s.m.life.st ≠ .off → ¬ malformed →
          let x := winAccess s.fx q (bit a 63) (bit a 62) (fld a 47 32) b m
          resting x.2.1 = true →
            exec row s = .next { s with fx := x.1, m := reply (if x.2.2.2 then 0 else 4) x.2.2.1 x.2.1 }))) ∧
    (∀ (k : BitVec 4) (peer : BitVec 16) (env : BitVec 44) (body : List W64),
      let row := Instr.vc2PacketDiscard k peer env body
      let m := count 0x040 s.m
      (5 ≤ k.toNat → exec row s = .next (s.put (count 0x010 m))) ∧
      (k = 3 → env ≠ 0 → exec row s = .next (s.put (count 0x010 m))) ∧
      (k = 3 → env = 0 → exec row s = .next (s.put m)) ∧
      (k = 2 → (body.length ≠ 4 ∨ env ≠ 0) → exec row s = .next (s.put (count 0x010 m))) ∧
      (k = 2 → body.length = 4 → env = 0 → s.m.life.st ≠ .off → s.m.cmds.running = [] → exec row s = .next (s.put (count 0x010 m))) ∧
      (k = 1 → (masterOf (.vc2 .north peer) = none ∨ body.length ≠ 8) → exec row s = .next (s.put (countN 0x010 (wordCtx (body.getD 1 0)) none 1 m)))) ∧
    (∀ f, mayFetch s.m (ringOf s.m f) = false → exec (.ringFetch f) s = .next s) ∧
    (∀ f, let t := ringFetch s.fx f s.m; exec (.ringFetch f) s = .next (s.after t)) ∧
    (∀ cyc, let n := advance cyc s.m
      (n.pilot.master = 0 ∨ n.cyc < n.pilot.leaseFrom + 268435456 → exec (.pilotLeaseExpiry cyc) s = .next (s.put n)) ∧
      (n.pilot.master ≠ 0 → n.pilot.leaseFrom + 268435456 ≤ n.cyc → exec (.pilotLeaseExpiry cyc) s = .next (s.put
        (post s.fx 0x02 (BitVec.ofNat 64 (n.pilot.epoch.toNat * 2 ^ 32 + 3)) { n with pilot := { n.pilot with master := 0, priority := 0 } }))) ∧
      (let t := pressureWindow s.fx n
       t.berth.miss = [] ∧ exec (.pinPressureWindowEnd cyc) s = .next (s.after t))) ∧
    (s.m.evq.pend = [] ∨ s.m.evq.en = false ∨ s.m.evq.writing = true ∨ 2 ^ s.m.evq.size.toNat ≤ (s.m.evq.tail - s.m.evq.head).toNat →
      exec .eventRecordWrite s = .next s) ∧
    (let t := eventWrite s.fx s.m; exec .eventRecordWrite s = .next (s.after t))) ∧
  (∀ (s : State) (i : Instr) (q : CmdPkt), packetOf s.fx i = some q → q.path = .sideband → exec (.sbCmd s.fx.siteId q) s = exec i s)

/-- A request that comes to the head of its landing is counted as accepted, and the first check of 03 R481 that it fails answers
it: MISHOMED where the slice is as fenced (02 R64) or does not home the address (01 R32), DENIED for a reserved address field, a
field of the opcode, or READY, RETRY in QUIESCED, DENIED for a level, STALE for a context that is not open, is purged or has
another generation, which is recorded as an orphan (16 R435), RETRY for a suspended or frozen context, DENIED without the
permission; what is denied for a field, a level or a permission is counted. A PF_HINT is never answered, and counted where the
manual counts it (04 R135); with nothing against it, its lines that the context may reach are prefetched and its tracker seeded.
A data-plane opcode that is not assigned is DENIED unless an earlier check answers it (02 R46, log 14). A failed manifest check
is answered DENIED or RETRY (06 R194). Nothing else changes. -/
def Obligations.DataPlaneChecks : Prop :=
  ∀ (s : State) (i : Instr) (op : BitVec 6) (r : Req) (m : Mach), Lands s i op r m →
    let e := ctxOf s.m r.ctx
    let st := effState s.m
    let hint := op = opPFHINT
    let ends := fun (t : Mach) => exec i s = .next (s.put t)
    (∀ (own : Own) (fields level : Bool), gateFor s.fx op r m = gate op r own fields level m →
      let opened := e.opened = true ∧ e.purged = false ∧ e.gen = r.gen
      let held := e.suspended = true ∨ e.frozen = true ∨ e.lost = true
      (fencedLike s.m = true → ends (if hint then m else bounce r op m)) ∧
      (fencedLike s.m = false → own = .denied → ends (if hint then countR 0x010 r m else answer r op stDenied m)) ∧
      (fencedLike s.m = false → own = .mishomed → ends (if hint then count 0x011 m else bounce r op m)) ∧
      (fencedLike s.m = false → own = .ok → fields = false → ends (if hint then countR 0x010 r m else deny r op m)) ∧
      (fencedLike s.m = false → own = .ok → fields = true →
        (st = .ready → ends (if hint then m else answer r op stDenied m)) ∧
        (st = .quiesced → ends (if hint then m else answer r op stRetry m)) ∧
        (st ≠ .ready → st ≠ .quiesced →
          (level = false → ends (if hint then countR 0x010 r m else deny r op m)) ∧
          (level = true →
            (¬ opened → ends (noteOrphan op r (if hint then m else answer r op stStale m))) ∧
            (opened → held → ends (if hint then countR 0x010 r m else answer r op stRetry m)) ∧
            (opened → ¬ held → e.perm.getLsbD (permBit op) = false → ends (if hint then countR 0x010 r m else deny r op m)) ∧
            (opened → ¬ held → e.perm.getLsbD (permBit op) = true → gateFor s.fx op r m = .pass))))) ∧
    (i = .pfHint r → gateFor s.fx op r m = .pass → ∀ off, memHome s.fx m r.address = .at off →
      exec (.pfHint r) s = .next (s.after (runHint s.fx r off (taken m) m))) ∧
    (i = .dataPlaneUnassignedOpcode op r → op ∉ dpOps → fencedLike s.m = false →
      (fld r.address 63 48 ≠ s.fx.procId.toNat → exec (.dataPlaneUnassignedOpcode op r) s = .next (s.put (bounce r op m))) ∧
      (fld r.address 63 48 = s.fx.procId.toNat → exec (.dataPlaneUnassignedOpcode op r) s = .next (s.put (deny r op m)))) ∧
    (gateFor s.fx op r m = .pass → op ≠ opPFHINT → op ≠ opSIGNAL → op ≠ opWAIT → op ∈ dpOps → sound m = true →
      ∀ x, manifestStop m r = some x →
      ends (answer r op x m))

/-- A SIGNAL or WAIT that passes the first checks and reaches its unit is answered STALE, RETRY or DENIED where the object is
free, has another generation, is its frozen owner's, is not the context's, or is of a KIND that does not permit the operation
(06 R190, R197, 16 R432), with the object as it was. A SIGNAL on an object in error is answered SIG_ERR with the code and
changes nothing, an error SIGNAL OK. ADD stores VALUE + X, SET X on its kind, MAX the larger with INFO 1 and a count where VALUE
is not below X; an error puts the object in error and wakes its waits (R190, R191). A WAIT on an object in error is answered
SIG_ERR; one that is satisfied OK with VALUE, an MREACH consuming N; one with NOPARK OK with INFO 0 and VALUE; with 8,192 waits
parked RETRY with VALUE; else it parks at the end (R197, R198, R201). Where no wait is parked on an object that is valid an
update changes VALUE alone. No record has a wrong bit here. -/
def Obligations.SignalAndWait : Prop :=
  (∀ (s : State) (r : Req) (m : Mach), awake m [dSync] = true → sound m = true →
    let i := sIdx r.address
    let o := syncObj m i
    let n := operand r
    let ok := fun (op : BitVec 6) (info : BitVec 16) (ws : List W64) (t : Mach) => s.put (respond r op stOk 0 info ws t)
    let stale := o.valid = false ∨ o.gen ≠ sGen r.address
    let retry := ownerFrozen m i r.ctx = true
    let denied := fun (op : BitVec 6) => mayUse m i r.ctx r.gen = false ∨ kindAllows op r.subop o.kind = false
    (Passes s (.signal r) opSIGNAL r m →
      (stale → exec (.signal r) s = .next (s.put (answer r opSIGNAL stStale m))) ∧
      (¬ stale → retry → exec (.signal r) s = .next (s.put (answer r opSIGNAL stRetry m))) ∧
      (¬ stale → ¬ retry → denied opSIGNAL → exec (.signal r) s = .next (s.put (answer r opSIGNAL stDenied m))) ∧
      (¬ stale → ¬ retry → ¬ denied opSIGNAL →
        (r.subop = 3 → o.err = true → exec (.signal r) s = .next (ok opSIGNAL 0 [] m)) ∧
        (r.subop = 3 → o.err = false →
          exec (.signal r) s = .next (ok opSIGNAL 0 [] (putError i (r.aux.extractLsb' 0 8) (count 0x049 m)))) ∧
        (r.subop ≠ 3 → o.err = true → exec (.signal r) s = .next (s.put (respond r opSIGNAL stSigErr 0 (o.errcode.zeroExtend 16) [] m))) ∧
        (r.subop = 0 → o.err = false → exec (.signal r) s = .next (ok opSIGNAL 0 [] (updateSync i (o.value + n) r.scope m))) ∧
        (r.subop = 1 → o.err = false → exec (.signal r) s = .next (ok opSIGNAL 0 [] (updateSync i n r.scope m))) ∧
        (r.subop = 2 → o.err = false → o.value.toNat < n.toNat →
          exec (.signal r) s = .next (ok opSIGNAL 0 [] (updateSync i n r.scope m))) ∧
        (r.subop = 2 → o.err = false → n.toNat ≤ o.value.toNat →
          exec (.signal r) s = .next (ok opSIGNAL 1 [] (updateSync i o.value r.scope (countR 0x01B r m)))))) ∧
    (Passes s (.wait r) opWAIT r m →
      let holds := if r.subop = 1 then o.value = n else n.toNat ≤ o.value.toNat
      let w : Wait :=
        { obj := i, cond := r.subop, n, source := r.source, tag := r.tag, ctx := r.ctx, gen := r.gen, tc := r.tc, scope := r.scope
          stop := r.stop, acq := r.aux.getLsbD 0, expire := if r.aux.toNat / 16 = 0 then 0 else tickOf m.cyc + r.aux.toNat / 16
          left := if (ctxOf m r.ctx).frozen && (ctxOf m r.ctx).gen = r.gen then r.aux.toNat / 16 else 0
          parkCyc := m.cyc, parkTick := tickOf m.cyc, quiet := false, exported := none, late := false }
      (stale → exec (.wait r) s = .next (s.put (answer r opWAIT stStale m))) ∧
      (¬ stale → retry → exec (.wait r) s = .next (s.put (answer r opWAIT stRetry m))) ∧
      (¬ stale → ¬ retry → denied opWAIT → exec (.wait r) s = .next (s.put (answer r opWAIT stDenied m))) ∧
      (¬ stale → ¬ retry → ¬ denied opWAIT →
        (o.err = true → exec (.wait r) s = .next (s.put (respond r opWAIT stSigErr 0 (o.errcode.zeroExtend 16) [] m))) ∧
        (o.err = false → holds → r.subop ≠ 2 → exec (.wait r) s = .next (ok opWAIT 1 [o.value] m)) ∧
        (o.err = false → holds → r.subop = 2 → exec (.wait r) s = .next (ok opWAIT 1 [o.value]
          (evalConsumed i r.scope (count 0x049 (setSync i { o with value := o.value - n } m))))) ∧
        (o.err = false → ¬ holds → r.aux.getLsbD 1 = true → exec (.wait r) s = .next (ok opWAIT 0 [o.value] m)) ∧
        (o.err = false → ¬ holds → r.aux.getLsbD 1 = false → 8192 ≤ m.sync.waits.length →
          exec (.wait r) s = .next (s.put (respond r opWAIT stRetry 0 0 [o.value] (countR 0x01D r m)))) ∧
        (o.err = false → ¬ holds → r.aux.getLsbD 1 = false → m.sync.waits.length < 8192 →
          exec (.wait r) s = .next (s.put (countR 0x04A r { m with sync := { m.sync with waits := m.sync.waits ++ [w] } })))))) ∧
  (∀ (i : BitVec 14) (v : W64) (scope : BitVec 3) (m : Mach), waitsOn m i = [] →
    ((syncObj m i).valid = true → ∃ p, updateSync i v scope m = { setSync i { syncObj m i with value := v } m with pmc := p }) ∧
    evalConsumed i scope m = m ∧ ∀ code : BitVec 8, (syncObj m i).err = false →
      putError i code m = setSync i { syncObj m i with err := true, errcode := code } m)

/-- A read that meets its line with every sector it names answers POISON where the line is poisoned; else, naming one sector, OK
with its words, or first the critical sector with MORE and then the others (04 R110, R112); INFO says which are zero and whether
it was volatile. It counts as a hit and touches the replacement state, RD_STREAM only for a prefetched line (04 R128). A read
with PFE trains the prefetcher (R131). WR and WR_FULL write the bytes they enable into the line's way and answer OK (04 R119);
WR_THRU writes them too, and queues the line's write to memory, by whose acknowledgement it is answered (R121). A write that
enables no byte, with nothing of its line waiting, is answered OK and writes nothing (02 R482). Accepted writes with MV count in
their manifest, or wait for room in the coalescer (06 R195, R196). Any other memory request does what its access does, or stays
at its landing; a SCATTER_RED that fails its checks is answered, and counted in its descriptor (09 R282). -/
def Obligations.MemoryReadsAndWrites : Prop :=
  ∀ (s : State) (i : Instr) (op : BitVec 6) (r : Req) (m : Mach) (off : BitVec 35), Passes s i op r m → memHome s.fx m r.address = .at off →
    let a0 := memAccess op r off
    let a := placed m a0
    let done := fun (t : Mach) => if coalRoom t r then answer r op stOk (arrival r t)
      else { t with sync := { t.sync with coalWait := t.sync.coalWait ++ [⟨op, r, false, 0, []⟩] } }
    let set := setOf a.line
    let ends := fun (t : Mach) => exec i s = .next (s.put t)
    ((i = .rd r ∧ op = opRD) ∨ (i = .rdVol r ∧ op = opRDVOL) ∨ (i = .rdStream r ∧ op = opRDSTREAM) → ∀ way, Meets s.fx a way m →
      let t := tagAt m set way
      let d := wayData m set way
      let c := oneSect a.crit
      let n := if op = opRDSTREAM ∧ t.pf = false then countR 0x041 r m else touch set way (countR 0x041 r m)
      let info := fun (x : BitVec 4) => readInfo (op = opRDVOL) t.z x
      let both := fun (u : Mach) =>
        exec i s = .next (s.after (if mayTrain s.fx m r a.line then train s.fx r (taken u) off u else u)) ∧ (r.aux.getLsbD 7 = false → ends u)
      (t.poison = true → both (answer r op stPoison n)) ∧
      (t.poison = false → r.sect = c → both (respond r op stOk c (info c) (wordsOf d c) n)) ∧
      (t.poison = false → r.sect ≠ c →
        let x := r.sect &&& ~~~c
        both (respond r op stOk x (info x) (wordsOf d x) (sendResp r op stOk c true (info c) (wordsOf d c) n)))) ∧
    ((i = .wr r ∧ op = opWR) ∨ (i = .wrFull r ∧ op = opWRFULL) ∨ (i = .wrThru r ∧ op = opWRTHRU) → ∀ way, Meets s.fx a way m →
      let b := if r.maskmode = 1 then r.bmask else sectMask r.sect
      let u := writeWay set way (r.maskmode = 0) b (placeSect r.payload r.sect) r.tc (touch set way m)
      (b = 0 → lineFree m a.line = true → ends (done (countR 0x044 r m))) ∧
      (b ≠ 0 → op ≠ opWRTHRU → ends (done (countR 0x044 r u))) ∧
      (b ≠ 0 → op = opWRTHRU → writeRoom m = true →
        exec i s = .next (s.after (countR 0x044 r ((queueWrite s.fx
          { writeOfWay u set way false (.thruHit (BitVec.ofNat 12 set) (BitVec.ofNat 5 way) a) [] with due := a.due } u).getD u))))) ∧
    (op ∈ [opRD, opRDVOL, opRDSTREAM, opWR, opWRTHRU, opWRFULL, opATOM, opATOMRET, opLRED, opSCATTER] → (op = opSCATTER → scatCheck m r = none) → sound m = true →
      (∀ u, submit s.fx a0 m = some u → exec i s = .next (s.after (if isRead a.op && mayTrain s.fx m r a.line then train s.fx r (taken u) off u else u))) ∧
      (submit s.fx a0 m = none → exec i s = .next (s.after (keepHeld r.stop (.dp op r none) m)))) ∧
    (i = .scatterRed r → sound m = true → ∀ x, scatCheck m r = some x →
      let k := r.aux.toNat % 256
      exec (.scatterRed r) s = .next (s.put (answer r opSCATTER x (setScat k { scatOf m k with refused := satInc (scatOf m k).refused } m))))

/-- An atomic that meets its line replaces the operand's bytes by the result of its operation on the old ones, as modular or
sign-aware integer arithmetic of its width or a comparison with swap (06 R178, R179), is counted, and counts in its manifest, or
waits for room in the coalescer (R196). ATOM answers OK; ATOM_RET answers the old bytes with INFO [0] for a swap, or POISON,
with nothing written, where the line is poisoned (R180). An LRED combines each element of the named sectors with its input, and
a SCATTER_RED with its descriptor's operation and scale, counted in APPLIED; both answer OK, or POISON with nothing written (08
R258, 09 R283). Of the line's way nothing else changes than writeWay says, and nothing of the other ways. -/
def Obligations.MemoryAtomics : Prop :=
  (∀ (s : State) (r : Req) (m : Mach) (off : BitVec 35) (way : Nat), memHome s.fx m r.address = .at off →
    let here := fun (op : BitVec 6) => Meets s.fx (placed m (memAccess op r off)) way m
    let done := fun (op : BitVec 6) (info : BitVec 16) (ws : List W64) (t : Mach) => if coalRoom t r then respond r op stOk 0 info ws (arrival r t)
      else { t with sync := { t.sync with coalWait := t.sync.coalWait ++ [⟨op, r, false, info, ws⟩] } }
    let set := Machine.setOf (lineOfOff off)
    let t := tagAt m set way
    let d := wayData m set way
    let n := touch set way m
    let at_ := fld r.address 6 0
    let k := atomSize (r.aux.toNat % 16)
    let old := d.toNat / 2 ^ (8 * at_) % 2 ^ (8 * k)
    let x := atomResult r old
    let u := writeWay set way false (spanMask at_ k) (BitVec.ofNat 1024 (x.1 * 2 ^ (8 * at_))) r.tc n
    (Passes s (.atom r) opATOM r m → here opATOM → exec (.atom r) s = .next (s.put (done opATOM 0 [] (countR 0x045 r u)))) ∧
    (Passes s (.atomRet r) opATOMRET r m → here opATOMRET →
      (t.poison = true → exec (.atomRet r) s = .next (s.put (answer r opATOMRET stPoison m))) ∧
      (t.poison = false → exec (.atomRet r) s = .next (s.put (done opATOMRET (BitVec.ofNat 16 (b2n x.2))
        (if k = 16 then [BitVec.ofNat 64 old, BitVec.ofNat 64 (old / 2 ^ 64)] else [BitVec.ofNat 64 old]) (countR 0x045 r u))))) ∧
    (Passes s (.lred r) opLRED r m → here opLRED →
      let tgt := r.aux.toNat / 16 % 16
      let inc := r.aux.toNat % 16
      let e := redLine (lredElem r.subop.toNat tgt inc) (if tgt = 2 then 8 else 4) (inBytes inc) r.sect r.payload d
      (t.poison = true → exec (.lred r) s = .next (s.put (answer r opLRED stPoison m))) ∧
      (t.poison = false → exec (.lred r) s = .next (s.put (done opLRED 0 []
        (countR 0x046 r (writeWay set way false (sectMask r.sect) e r.tc n)))))) ∧
    (Passes s (.scatterRed r) opSCATTER r m → here opSCATTER → scatCheck m r = none →
      let j := r.aux.toNat % 256
      let sc := scatOf m j
      let e := redLine (scatElem sc.op.toNat sc.scale r.subop.toNat) 4 (inBytes r.subop.toNat) r.sect r.payload d
      (t.poison = true → exec (.scatterRed r) s = .next (s.put (answer r opSCATTER stPoison m))) ∧
      (t.poison = false → exec (.scatterRed r) s = .next (s.put (done opSCATTER 0 []
        (countR 0x046 r (setScat j { sc with applied := satInc sc.applied }
          (writeWay set way false (sectMask r.sect) e r.tc n))))))))  ∧
  (∀ (r : Req) (old : Nat), let w := 8 * atomSize (r.aux.toNat % 16)
    let x := (atomArgs r).1
    let gives := fun (k : Nat) (v : Nat) => r.subop.toNat = k → atomResult r old = (v, false)
    gives 0 ((old + x) % 2 ^ w) ∧ gives 1 (if toSigned w x < toSigned w old then x else old) ∧
    gives 2 (if toSigned w old < toSigned w x then x else old) ∧ gives 3 (min x old) ∧ gives 4 (max x old) ∧ gives 5 (old &&& x) ∧
    gives 6 (old ||| x) ∧ gives 7 (old ^^^ x) ∧ gives 8 x ∧ gives 10 (fadd (atomFmt (r.aux.toNat % 16)) old x) ∧
    (r.subop.toNat = 9 → atomResult r old = if old = x then ((atomArgs r).2, true) else (old, false))) ∧
  (∀ (set way set' way' : Nat) (whole : Bool) (b : BitVec 128) (d : Line) (cls : BitVec 4) (m : Mach),
    wayKey set' way' ≠ wayKey set way → (tagAt m set way).v ≠ 0 → twf 0 m.cache.data = true →
    tagAt (writeWay set way whole b d cls m) set' way' = tagAt m set' way' ∧
    wayData (writeWay set way whole b d cls m) set' way' = wayData m set' way')

/-- A berth request whose address names no berth, one that is freed or of another generation is STALE, one of another context or
past the berth's end DENIED, while the berth moves RETRY, and of a lost record POISON (05 R153, 15 R400). A BRD answers the
named words as a read does, or POISON; a BWR writes its bytes into the berth line, clears the berth's clean mark, and answers OK
(05 R146, R147); a read of sectors that are all zero needs no bank (09 R263). A write counts in its manifest, or waits for room
in the coalescer (06 R195, R196). A queue request is POISON for a lost record, STALE, or DENIED for another context; a QENQ with
a wrong entry size is DENIED, on a full queue QFULL with the occupancy, else it writes its entry at the tail, advances it, and
answers the old tail's low bits; its notify then waits for its sync object (05 R172, R173). A QDEQ of an empty queue is QEMPTY;
else it pops the entries that its SUBOP and AUX ask for and answers them with the old head's low bits, or POISON. Entries lie at
slots in turn. -/
def Obligations.BerthAndQueueRequests : Prop :=
  ∀ (s : State) (r : Req) (m : Mach), sound m = true →
    let j := bIdx r.address
    let bb := berthOf m j
    let crit : BitVec 2 := r.address.extractLsb' 5 2
    let i := fld r.address 9 0
    let f := ferryOf m i
    let qb := berthOf m f.berth.toNat
    let done := fun (op : BitVec 6) (info : BitVec 16) (t : Mach) => if coalRoom t r then respond r op stOk 0 info [] (arrival r t)
      else { t with sync := { t.sync with coalWait := t.sync.coalWait ++ [⟨op, r, false, info, []⟩] } }
    (∀ (row : Instr) (op : BitVec 6), (row = .brd r ∧ op = opBRD) ∨ (row = .bwr r ∧ op = opBWR) → Passes s row op r m →
      let ends := fun (t : Mach) => exec row s = .next (s.put t)
      let gone := bb.valid = false ∨ bb.freeing = true ∨ bb.gen ≠ bGen r.address
      let beyond := bb.size.toNat < bOff r.address / 4096
      (lostObj m 1 j = true → ends (answer r op stPoison m)) ∧
      (lostObj m 1 j = false → gone → ends (answer r op stStale m)) ∧
      (lostObj m 1 j = false → ¬ gone → bb.ctx ≠ r.ctx ∨ beyond → ends (answer r op stDenied m)) ∧
      (lostObj m 1 j = false → ¬ gone → ¬ (bb.ctx ≠ r.ctx ∨ beyond) → bb.moving = true → ends (answer r op stRetry m)) ∧
      (lostObj m 1 j = false → ¬ gone → ¬ (bb.ctx ≠ r.ctx ∨ beyond) → bb.moving = false →
        let x := berthPlace m bb (bOff r.address)
        let t := tagAt m x.1 x.2
        let d := wayData m x.1 x.2
        let c := oneSect crit
        let z := fun (y : BitVec 4) => readInfo false t.z y
        let b := if r.maskmode = 1 then r.bmask else sectMask r.sect
        x.1 < 4096 → x.2 < 32 → (op = opBRD ∧ r.sect &&& ~~~t.z = 0 ∧ awake m [dTag (x.1 % 4)] = true) ∨ awake m [dTag (x.1 % 4), dWay m x.1 x.2] = true →
        m.cache.replay.any (fun p => p.acc.line = berthKey x.1 x.2 && (p.acc.op = .brd || p.acc.op = .bwr)) = false →
        (op = opBRD → t.poison = true → ends (answer r op stPoison m)) ∧
        (op = opBRD → t.poison = false → r.sect = c → ends (respond r op stOk c (z c) (wordsOf d c) m)) ∧
        (op = opBRD → t.poison = false → r.sect ≠ c → ends (respond r op stOk (r.sect &&& ~~~c) (z (r.sect &&& ~~~c)) (wordsOf d (r.sect &&& ~~~c))
          (sendResp r op stOk c true (z c) (wordsOf d c) m))) ∧
        (op = opBWR → ends (done op 0 (countR 0x044 r (writeBerthWay x.1 x.2 b (placeSect r.payload r.sect)
          (if b = 0 then m else unmarkSource j m))))))) ∧
    (∀ (row : Instr) (op : BitVec 6), (row = .qenq r ∧ op = opQENQ) ∨ (row = .qdeq r ∧ op = opQDEQ) → Passes s row op r m →
      m.cache.replay.any (fun p => p.acc.line = BitVec.ofNat 28 i && p.acc.op = .queue) = false →
      let ends := fun (t : Mach) => exec row s = .next (s.put t)
      let gone := f.valid = false ∨ f.closing = true ∨ f.gen ≠ BitVec.ofNat 8 (fld r.address 28 21)
      let occ := ferryOcc f
      let cap := if r.subop = 1 then min r.aux.toNat (2 ^ f.depth.toNat) else 2 ^ f.depth.toNat
      let slots := opSlots op r f
      let place := berthPlace m qb
      (lostObj m 2 i = true → ends (answer r op stPoison m)) ∧
      (lostObj m 2 i = false → gone → ends (answer r op stStale m)) ∧
      (lostObj m 2 i = false → ¬ gone → f.ctx ≠ r.ctx → ends (answer r op stDenied m)) ∧
      (lostObj m 2 i = false → ¬ gone → f.ctx = r.ctx →
        (op = opQENQ → r.plen.toNat * 8 ≠ eBytes f → ends (deny r op m)) ∧
        (op = opQENQ → r.plen.toNat * 8 = eBytes f → cap ≤ occ → ends (respond r op stQfull 0 (BitVec.ofNat 16 occ) [] m)) ∧
        (op = opQDEQ → occ = 0 → ends (answer r op stQempty m)) ∧
        (awake m (slots.flatMap fun o => [dTag ((place o).1 % 4), dWay m (place o).1 (place o).2]) = true →
          (op = opQENQ → r.plen.toNat * 8 = eBytes f → occ < cap →
            let o := slotOff f f.tail.toNat
            let u := setFerry i { f with tail := f.tail + 1 } (unmarkSource f.berth.toNat
              (writeBerthWay (place o).1 (place o).2 (spanMask (o % 128) (eBytes f)) (BitVec.ofNat 1024 (catWords r.payload * 2 ^ (8 * (o % 128)))) m))
            let v := if f.notifyV then
              { u with sync := { u.sync with notifies := u.sync.notifies ++ [⟨BitVec.ofNat 10 i, f.notify, f.ngen, r.scope, f.ctx, r.tc, false⟩] } } else u
            ends (done op (BitVec.ofNat 16 f.tail.toNat) (countR 0x052 r v))) ∧
          (op = opQDEQ → occ ≠ 0 → slots.any (fun o => (tagAt m (place o).1 (place o).2).poison) = true → ends (answer r op stPoison m)) ∧
          (op = opQDEQ → occ ≠ 0 → slots.any (fun o => (tagAt m (place o).1 (place o).2).poison) = false →
            ends (respond r op stOk 0 (BitVec.ofNat 16 f.head.toNat) (wordsFrom (readSlots m qb (eBytes f) slots) (slots.length * eBytes f / 8))
              (countR 0x052 r (setFerry i { f with head := f.head + BitVec.ofNat 17 slots.length } m)))))))

/-- A tile request that passes the first checks waits at the end of its tile's contribution queue, north for even tiles, while
the queue has fewer than 32 entries, and at its landing while it has not (07 R218, R220); one whose tile it may not name is
answered at once: DENIED for a segment of another KIND than the tile's or with EXPQ on a KIND but SUM_F32 (08 R241), STALE for a
free index or another generation, DENIED and counted for another context's tile, LATE and counted for a tile that is not open,
or the status of its own check. A TFOLD FOLD with a bad destination, or the tile itself, is DENIED (08 R240); an ABORT that
names the bound hop's neighbour breaks the hop and is answered OK, another DENIED (08 R255). An admission of an empty queue does
nothing; the one contribution of a queue, its tile awake, is admitted alone and its batch run (07 R229); with no sector named,
and no INIT, it is answered OK and stores nothing. The tree and the accumulate of a SUM_I32 tile add modulo 2^32 what is present
(07 R221, R225). -/
def Obligations.TileRequests : Prop :=
  (∀ (s : State) (i : Instr) (op : BitVec 6) (r : Req) (m : Mach), Passes s i op r m → sound m = true → awake m [dAcc 0] = true →
    let st := tileStopOf (tIdx r.address)
    let q := redQ m st
    let t := tileOf m (tIdx r.address)
    let ends := fun (t : Mach) => exec i s = .next (s.put t)
    let queues := (q.length < 32 → tileStop m op r = .pass → ends (pushEnt st op r none m)) ∧
      (q.length < 32 → tileStop m op r = .busy → ends (countR 0x016 r (answer r op stDenied m))) ∧
      (q.length < 32 → tileStop m op r = .late → exec i s = .next (s.after (countR 0x015 r (bumpLate (tIdx r.address) (answer r op stLate m))))) ∧
      (∀ x, q.length < 32 → tileStop m op r = .other x → ends (answer r op x m)) ∧
      (32 ≤ q.length → exec i s = .next (s.after (keepHeld r.stop (.dp op r none) m)))
    (i = .tcontrib r ∨ i = .tcontribW r → queues) ∧
    (∀ p, i = .tfoldSegment p → queues) ∧
    (∀ p, i = .tfoldFold p → (foldStop s.fx r = some true → ends (deny r op m)) ∧ (foldStop s.fx r = some false → ends (answer r op stDenied m)) ∧
      (foldStop s.fx r = none → queues)) ∧
    (∀ p, i = .tfoldAbort p →
      (∀ j cause, abortAt m r = some (j, cause) → exec i s = .next (s.after (answerOk r op (breakHop s.fx j cause m)))) ∧
      (abortAt m r = none → ends (answer r op stDenied m))) ∧
    let bad := isSegment op r = true ∧ ((t.valid = true ∧ segKind r ≠ t.kind) ∨ (segExpq r ≠ 0 ∧ segKind r ≠ 0))
    (bad → tileStop m op r = .other stDenied) ∧
    (¬ bad → t.valid = false ∨ t.gen ≠ tGen r.address → tileStop m op r = .other stStale) ∧
    (¬ bad → t.valid = true → t.gen = tGen r.address → t.ctx ≠ r.ctx ∨ t.cgen ≠ r.gen → tileStop m op r = .busy)) ∧
  (∀ (s : State) (st : Stop), resting s.m = true →
    (redQ s.m st = [] → exec (.contribAdmit st) s = .next s) ∧
    (∀ e, redQ s.m st = [e] → isContrib e = true → e.fold = none → foldWaits s.fx s.m e = false → tInit e.r.address = false →
      awake s.m (tileDoms (tileOf s.m (tIdx e.r.address))) = true →
      exec (.contribAdmit st) s = .next (s.after (runBatch s.fx [e] (setRedQ st [] s.m))) ∧
      (e.r.sect = 0 → sound s.m = true → manifestStop s.m e.r = none → tileStop s.m e.opcode e.r = .pass →
        let i := tIdx e.r.address
        let u := (tileOf s.m i).epoch
        let n := countR 0x047 e.r (setTile i (setInfl u (bufInfl (tileOf s.m i) u + 1) (tileOf s.m i)) (setRedQ st [] s.m))
        exec (.contribAdmit st) s = .next (s.after (answerOk e.r e.opcode (setTile i (setInfl u (bufInfl (tileOf n i) u - 1) (tileOf n i)) n)))))) ∧
  (∀ (p : Nat → Option Nat) (stored : Nat),
    let sum := ((List.range 8).map fun j => (p j).getD 0).sum
    let t := tree8 3 fun j => (p j, false)
    ((∀ j, j < 8 → p j = none) → accum 3 false none stored t.1 = (stored, false)) ∧
    (∀ j, j < 8 → p j ≠ none → t.2 = false ∧ accum 3 false none stored t.1 = ((stored + sum) % 2 ^ 32, false) ∧
      ∃ x, t.1 = some x ∧ x % 2 ^ 32 = sum % 2 ^ 32))

/-- A tile with no close does not drain; a bound one drains only at a last hop, cut off, whole and fed (07 R233, 08 R252); one
whose buffer is idle and whose domains are awake begins: the close keeps the buffer's exponent and overflow flag, and asks for
its bias vector if it has one. A hop without a ready line, or with its window of forwards out, forwards nothing (R250); else its
lowest ready line leaves as a towline segment, is marked sent and counted outstanding, unless the line is poisoned, which breaks
the hop with cause 5, or the stop's inbox has no room. A forward answered RETRY leaves again once its 1,024 cycles are over
(R251). The answer of a segment that is not out changes nothing; that of a notice or a fold's line frees its place, the latter
counting in its fold (R245); of a forward OK marks ACKED, RETRY sets the retry's cycle, another breaks the hop with cause 1. A
hop that has waited HOP_TIMEOUT ticks breaks with cause 2, and no other (R256). That a poisoned line breaks the hop with cause 5
is the model's choice (log 99). -/
def Obligations.ReductionStepRows : Prop :=
  ∀ s : State,
    (∀ t, resting t = true → s.after t = s.put t) ∧
    (∀ tile : BitVec 13,
      let i := tile.toNat
      let t := tileOf s.m i
      (closeOf s.m i = none → exec (.tileDrain tile) s = .next (s.after s.m)) ∧
      ∀ run c, closeOf s.m i = some (run, c) →
        (∀ j, hopOfTile s.m i t.gen = some j → ¬ ((hopOf s.m j).broken = false ∧ (hopOf s.m j).cut = true ∧ (hopOf s.m j).hop = (hopOf s.m j).last ∧ hopFed s.m (hopOf s.m j) = true) →
          exec (.tileDrain tile) s = .next (s.after s.m)) ∧
        (hopOfTile s.m i t.gen = none → c.tile = tile → c.draining = false → s.m.red.folds.any (fun f => f.src = tile) = false →
          (bufInfl t c.buf ≠ 0 → exec (.tileDrain tile) s = .next (s.after s.m)) ∧
          (bufInfl t c.buf = 0 → awake s.m (tileDoms t) = true →
            let c' := { c with draining := true, exp := bufExp t c.buf, ovf := bufOvf t c.buf }
            let x := if t.dstv = true ∧ t.biasmode = 2 then askBias s.fx tile (List.range (tileLines t)) s.m else (s.m, [])
            exec (.tileDrain tile) s = .next (s.after (setProg run.cmd.id (.close { c' with bias := x.2 }) x.1))))) ∧
    (∀ hop : BitVec 10,
      let j := hop.toNat
      let h := hopOf s.m j
      let t := tileOf s.m h.tile.toNat
      (readyLine s.m h = none → exec (.towlineForward hop) s = .next (s.after s.m)) ∧
      ∀ l, readyLine s.m h = some l →
        (towWindow s.m ≤ h.outst.toNat → exec (.towlineForward hop) s = .next (s.after s.m)) ∧
        (h.outst.toNat < towWindow s.m → awake s.m (tileDoms t) = true → sound s.m = true →
          let has := touched t false l
          let k := bufBase t false + l
          let pois := has && (accLine s.m k).poison
          let r := ownFold s.fx 1 t.ctx t.cgen (defaultClass s.m t.ctx) (lineAddr h.next false l) (if has then 0xF else 0)
            (segAux true t.kind t.exp0 h.hop.toNat) (if has then segWords t.kind.toNat (bufLine s.m t false l) else [])
          (pois = true → exec (.towlineForward hop) s = .next (s.after (breakHop s.fx j 5 s.m))) ∧
          (pois = false → segRoom s.m r.stop = false ∨ 4096 ≤ s.m.red.segs.length → exec (.towlineForward hop) s = .next (s.after s.m)) ∧
          (pois = false → segRoom s.m r.stop = true → s.m.red.segs.length < 4096 → exec (.towlineForward hop) s = .next (s.after (setHop j
            { h with sent := h.sent ||| ((1 : W64) <<< l), outst := h.outst + 1, full := h.full + b2n has, tick := if hopWaits s.m h then h.tick else hopNow s.m h }
            (emit (.request 0 r.stop opTFOLD { r with tag := segTag s.m })
              { s.m with red := { s.m.red with segs := s.m.red.segs ++ [⟨r.stop, segTag s.m, .hop (BitVec.ofNat 10 j) (BitVec.ofNat 6 l), 0⟩] } })))))) ∧
    (∀ (hop : BitVec 10) (line : BitVec 6) (cyc : Nat),
      let n := advance cyc s.m
      let j := hop.toNat
      let h := hopOf n j
      let t := tileOf n h.tile.toNat
      let due := n.red.segs.find? fun x => x.what = .hop (BitVec.ofNat 10 j) line && decide (x.retryAt ≠ 0) && decide (x.retryAt ≤ n.cyc)
      (due = none → exec (.towlineForwardRetry hop line cyc) s = .next (s.after n)) ∧
      ∀ x, due = some x →
        (segRoom n x.stop = false ∨ towWindow n ≤ h.outst.toNat → exec (.towlineForwardRetry hop line cyc) s = .next (s.after n)) ∧
        (segRoom n x.stop = true → h.outst.toNat < towWindow n →
          let has := touched t false line.toNat
          let r := ownFold s.fx 1 t.ctx t.cgen (defaultClass n t.ctx) (lineAddr h.next false line.toNat) (if has then 0xF else 0)
            (segAux true t.kind t.exp0 h.hop.toNat) (if has then segWords t.kind.toNat (bufLine n t false line.toNat) else [])
          exec (.towlineForwardRetry hop line cyc) s = .next (s.after (setHop j
            { h with outst := h.outst + 1, tick := if hopWaits n h then h.tick else hopNow n h }
            (emit (.request 0 x.stop opTFOLD { r with tag := x.tag })
              { n with red := { n.red with segs := n.red.segs.map fun y => if y = x then { y with retryAt := 0 } else y } }))))) ∧
    (∀ (stop : Stop) (tag : BitVec 12) (status : BitVec 4),
      let row := Instr.segmentResponse stop tag status
      let out := s.m.red.segs.find? fun x => x.stop = stop && x.tag = tag && decide (x.retryAt = 0)
      (out = none → exec row s = .next (s.after s.m)) ∧
      ∀ x, out = some x →
        let drop := { s.m with red := { s.m.red with segs := s.m.red.segs.filter (· ≠ x) } }
        (x.what = .notice → exec row s = .next (s.after drop)) ∧
        (∀ id line, x.what = .fold id line → exec row s = .next (s.after (foldLine id line status drop))) ∧
        ∀ i line, x.what = .hop i line →
          let j := i.toNat
          let h := { hopOf s.m j with outst := (hopOf s.m j).outst - 1, tick := hopNow s.m (hopOf s.m j) }
          (h.broken = true → exec row s = .next (s.after (setHop j h drop))) ∧
          (h.broken = false → status = stOk →
            exec row s = .next (s.after (setHop j { h with acked := h.acked ||| ((1 : W64) <<< line.toNat) } drop))) ∧
          (h.broken = false → status = stRetry → exec row s = .next (s.after (setHop j h { s.m with red := { s.m.red with
            segs := s.m.red.segs.map fun y => if y = x then { y with retryAt := s.m.cyc + 1024 } else y } }))) ∧
          (h.broken = false → status ≠ stOk → status ≠ stRetry → exec row s = .next (s.after (breakHop s.fx j 1 (setHop j h drop))))) ∧
    (∀ (hop : BitVec 10) (cyc : Nat),
      let n := advance cyc s.m
      let h := hopOf n hop.toNat
      let t := tileOf n h.tile.toNat
      let late := h.valid = true ∧ h.cut = true ∧ h.broken = false ∧ hopWaits n h = true ∧ ¬ ((ctxOf n t.ctx).frozen = true ∧ (ctxOf n t.ctx).gen = t.cgen) ∧
        n.regs.hopTimeout ≠ 0 ∧ h.tick + n.regs.hopTimeout.toNat ≤ tickOf n.cyc
      (late → awake n [dAcc 0] = true → exec (.hopTimeout hop cyc) s = .next (s.after (breakHop s.fx hop.toNat 2 n))) ∧
      (¬ late → exec (.hopTimeout hop cyc) s = .next (s.after n)))

/-- With memory out of reach a return is not taken (02 R64). A return for no issued ticket, and an acknowledgement of no issued
write, change nothing (02 R50, R51). A line read for one device read that names one sector and installs nothing, and that passes
its check, answers that read and frees the ticket; one that fails its check for the first or second time is counted and read
again (15 R395). An acknowledged write frees its place, and answers the WR_THRU that waits for it (04 R121). The port issues
what it may (R130). A parked request tried again stays behind an earlier one to its line, leaves the queue once it is done, and
else keeps its place (R118). The oldest count of a manifest leaves and adds its sum to a valid manifest of its generation that
is not in error, whose waits are evaluated (06 R196); a queue's notify adds 1 to its object, or is counted where it is stale or
the queue's context may not add (05 R173). A coalescer entry drains to the unit, and what waits for room is taken up (06 R196).
A parked wait whose tick has come is answered RETRY with VALUE (R202). An index whose hold is over is free again (16 R438), an
edge that has been quiet for long enough is marked, and an export sends what is to be exported (R421). -/
def Obligations.MemoryAndSyncStepRows : Prop :=
  ∀ s : State,
    (∀ t, resting t = true → s.after t = s.put t) ∧
    (∀ (num : BitVec 10) (d : Line) (md : Meta) (ue : Bool),
      let row := Instr.memReadReturn num d md ue
      let tk := s.m.cache.tickets.find? fun t => t.num = num && t.issued
      (memDown s.m = true → exec row s = .next (s.after s.m)) ∧
      (tk = none → exec row s = .next (s.after s.m)) ∧
      ∀ t, tk = some t →
        (memDown s.m = false →
         let x := memReturn s.fx t d md ue s.m
         exec row s = .next (s.after (if x.cache.tickets.any (fun u => u.num = num && u.line = t.line && u.kind = t.kind && decide (t.attempts < u.attempts))
           then x else readBack num x))) ∧
        (∀ a op r e z f g, t.kind = .noAlloc → t.attempts = 1 → t.waiters = [a] → a.src = .dp op r → isRead a.op = true → a.early = false →
          a.sect = oneSect a.crit → s.m.dir.ents = [] → s.m.dir.recalls = [] → s.m.dir.reclaim = none → a.again = false →
          waitsBefore (dropTicket t.num s.m) (placed (dropTicket t.num s.m) a) = false →
          checkLine s.fx s.m t.range t.line d md ue 0 = .good e z f g false →
          memReturn s.fx t d md ue s.m =
            respond r op stOk a.sect (readInfo (a.op = .readVol) z a.sect) (wordsOf e a.sect) (dropTicket t.num s.m)) ∧
        (∀ e, t.kind = .noAlloc → t.attempts < 3 → t.waiters = [] → checkLine s.fx s.m t.range t.line d md ue 0 = .mismatch e →
          let due := ((s.m.cache.tickets.filter fun u => u.cls = t.cls && !u.issued).map (·.due)).foldl sooner t.due
          memReturn s.fx t d md ue s.m = pump s.fx (setTicket { t with issued := false, attempts := t.attempts + 1, due, seq := 0 } (count 0x020 s.m)))) ∧
    (∀ index : BitVec 10,
      let wr := s.m.cache.writes.find? fun w => w.index = index && w.issued
      (wr = none → exec (.memWriteAck index) s = .next (s.after s.m)) ∧
      ∀ w, wr = some w → w.also = [] →
        ((w.after = .none ∨ w.after = .slip) → exec (.memWriteAck index) s = .next (s.after (pump s.fx (payOwed s.fx (dropWrite w.index s.m))))) ∧
        (∀ a op r, w.after = .thruMiss a → a.src = .dp op r →
          exec (.memWriteAck index) s = .next (s.after (pump s.fx (payOwed s.fx (answerOk r op (dropWrite w.index s.m))))))) ∧
    (exec .slipwayIssue s = .next (s.after (pump s.fx s.m))) ∧
    ((∀ t ∈ s.m.cache.tickets, t.issued = true) → (∀ w ∈ s.m.cache.writes, w.issued = true) → pump s.fx s.m = s.m) ∧
    (∀ (quad : BitVec 2) (pos : Nat),
      let row := Instr.replayRetry quad pos
      (replayAt quad.toNat 0 pos s.m.cache.replay = none → exec row s = .next (s.after s.m)) ∧
      ∀ i p, replayAt quad.toNat 0 pos s.m.cache.replay = some (i, p) →
        let first := !behindSame s.m i p.acc
        let out := { s.m with cache := { s.m.cache with replay := s.m.cache.replay.eraseIdx i } }
        let x := tryParked s.fx p.acc out
        (first = false → exec row s = .next (s.after s.m)) ∧
        (first = true → x.2.1 = .done → exec row s = .next (s.after x.1)) ∧
        (first = true → x.2.1 = .wait → exec row s = .next (s.after { x.1 with cache := { x.1.cache with
          replay := x.1.cache.replay.insertIdx (min i x.1.cache.replay.length) { p with acc := x.2.2, thaw := false } } }))) ∧
    (∀ o : BitVec 14,
      (s.m.sync.coal.find? (·.obj = o) = none → exec (.manifestCoalescerDrain o) s = .next (s.after s.m)) ∧
      (∀ c, s.m.sync.coal.find? (·.obj = o) = some c → exec (.manifestCoalescerDrain o) s = .next (s.after (s.m.sync.coalWait.foldl (fun m x => tally x m)
        { s.m with sync := { s.m.sync with coal := s.m.sync.coal.filter (·.obj ≠ o), counts := s.m.sync.counts ++ [c], coalWait := [] } }))) ∧
      (s.m.sync.counts.find? (·.obj = o) = none → s.m.sync.coal.find? (·.obj = o) = none → exec (.manifestCount o) s = .next (s.after s.m)) ∧
      (∀ c, s.m.sync.counts.find? (·.obj = o) = some c →
        let out := { s.m with sync := { s.m.sync with counts := s.m.sync.counts.eraseP (·.obj = o) } }
        let x := syncObj s.m c.obj
        awake s.m [dSync] = true → sound s.m = true →
        (x.valid = false ∨ x.gen ≠ c.gen → exec (.manifestCount o) s = .next (s.after out)) ∧
        (x.valid = true → x.gen = c.gen → x.err = false →
          exec (.manifestCount o) s = .next (s.after (updateSync c.obj (x.value + BitVec.ofNat 64 c.sum) c.scope out))))) ∧
    (∀ q : BitVec 10,
      (s.m.sync.notifies.find? (·.queue = q) = none → exec (.queueNotify q) s = .next (s.after s.m)) ∧
      (∀ n, s.m.sync.notifies.find? (·.queue = q) = some n →
        let out := { s.m with sync := { s.m.sync with notifies := s.m.sync.notifies.eraseP (·.queue = q) } }
        let x := syncObj s.m n.obj
        let may := mayUse s.m n.obj n.ctx (ctxOf s.m n.ctx).gen
        awake s.m [dSync] = true → sound s.m = true →
        (x.valid = false ∨ x.gen ≠ n.gen ∨ may = false → exec (.queueNotify q) s = .next (s.after (countN 0x01A (some n.ctx) (some n.tc) 1 out))) ∧
        (x.valid = true → x.gen = n.gen → may = true → x.err = true → exec (.queueNotify q) s = .next (s.after out)) ∧
        (x.valid = true → x.gen = n.gen → may = true → x.err = false →
          exec (.queueNotify q) s = .next (s.after (updateSync n.obj (x.value + 1) n.scope out))))) ∧
    (∀ cyc : Nat,
      let n := advance cyc s.m
      (∀ (source : BitVec 16) (tag : BitVec 12),
        let due := n.sync.waits.find? fun w =>
          w.source = source && w.tag = tag && decide (w.expire ≠ 0) && decide (w.expire ≤ tickOf n.cyc) && !waitFrozen n w && !w.late
        (due = none → exec (.waitTimeout source tag cyc) s = .next (s.after n)) ∧
        (∀ w, due = some w → awake n [dSync] = true → sound s.m = true → exec (.waitTimeout source tag cyc) s = .next (s.after (wake w stRetry 0 [(syncObj n w.obj).value] n)))) ∧
      (∀ o : BitVec 14,
        let due := n.sync.heldIdx.any fun x => x.1 = o && decide (x.2 ≤ tickOf n.cyc)
        (due = false → exec (.syncIndexHoldExpiry o cyc) s = .next (s.after n)) ∧
        (due = true → exec (.syncIndexHoldExpiry o cyc) s = .next (s.after
          { n with sync := { n.sync with heldIdx := n.sync.heldIdx.filter (·.1 ≠ o), objQ := fqPush o.toNat n.sync.objQ } }))) ∧
      (sound s.m = true → n.sync.jamEn = false → exec (.jamEdgeExport cyc) s = .next (s.after (markQuiet n))) ∧
      (sound s.m = true → n.sync.jamEn = true →
        let x := (exportEdges s.fx tickEdge true (markQuiet n)).1
        exec (.jamEdgeExport cyc) s = .next (s.after { x with sync := { x.sync with jamFresh := false } })))

/-- A host request on another channel than its own is discarded, logged and counted (11 R306). At its landing it is checked in
order: one that is not at home here, or meets a fence or a clamp, is answered Cmp MISHOMED; one whose address or reserved bits
are wrong, DENIED, counted; while HC_CTL.EN is 0, DENIED (R308, R310); a write from an agent that is not enabled is logged and
answered DENIED (R310). A MemClnEvct that crosses a snoop of the same half to its sender removes the sender, has the response
taken as BIRspI, and is answered Cmp (R322). MemInvNT, which comes as class 0 message 6, is handled as MemInv (Table COH-3). Any
other is performed, or stays: at a line in the cache, dense, that no host holds, a read is answered by MemData of its half,
poisoned as the line is, and a write puts the bytes its BE enables (MemWrPtl) or the whole half (MemWr) into the line, with
POISON if its PSN is 1 (R315); each then has the state and the completion that Table COH-5 gives, none for an agent that is not
enabled (R310, R314). -/
def Obligations.HostRequests : Prop :=
  ∀ (s : State) (i : Instr) (cls msg : BitVec 4) (h : HostMsg),
    (i = .hostMemrd h ∧ cls = 0 ∧ msg = 1) ∨ (i = .hostMemrddata h ∧ cls = 0 ∧ msg = 2) ∨ (i = .hostMeminv h ∧ cls = 0 ∧ msg = 0) ∨ (i = .hostMsgRefused 0 6 h ∧ cls = 0 ∧ msg = 6) ∨
      (i = .hostMemclnevct h ∧ cls = 0 ∧ msg = 7) ∨ (i = .hostMemwr h ∧ cls = 1 ∧ msg = 0) ∨ (i = .hostMemwrptl h ∧ cls = 1 ∧ msg = 1) →
    resting s.m = true →
    let n := countAccept (.host cls msg h none) s.m
    let ends := fun (t : Mach) => exec i s = .next (s.put t)
    let goes := fun (t : Mach) => exec i s = .next (s.after t)
    (heldByStrap s.fx .vc0 s.m = true → ends s.m) ∧
    (s.m.dbg.trace = false → n = countN 0x040 none (some s.m.regs.hostTc) 1 s.m) ∧
    (heldByStrap s.fx .vc0 s.m = false → h.rightChannel = false →
      (landingClamped s.m = true → ends s.m) ∧ (landingClamped s.m = false → ends (hostStray s.fx h s.m))) ∧
    (heldByStrap s.fx .vc0 s.m = false → h.rightChannel = true →
      (fencedLike n = true ∨ memHome s.fx n h.address = .mishomed → ends (count 0x011 (ndr h 0 stMishomed n))) ∧
      (fencedLike n = false → memHome s.fx n h.address = .denied → ends (count 0x010 (ndr h 0 stDenied n))) ∧
      (∀ off, fencedLike n = false → memHome s.fx n h.address = .at off →
        let l := lineOfOff off
        let a0 := hostAccess cls msg h l
        let a := placed n a0
        let crossed := cls = 0 ∧ msg = 7 ∧ crosses n l h = true
        let known := n.dir.en.getLsbD h.agent.toNat
        (hostFields h = false → ends (count 0x010 (ndr h 0 stDenied n))) ∧
        (hostFields h = true → n.regs.hostEn = false → ends (ndr h 0 stDenied n)) ∧
        (hostFields h = true → n.regs.hostEn = true → cls = 1 → known = false → ends (ndr h 0 stDenied (logErr s.fx 0x39 0 (hostLoc h) n))) ∧
        (hostFields h = true → n.regs.hostEn = true → (cls = 1 → known = true) →
          (crossed → goes (crossEvict h l n)) ∧
          (¬ crossed → submit s.fx a0 n = none → goes (keepHeld h.stop (.host cls msg h none) n)) ∧
          (¬ crossed → ∀ u, submit s.fx a0 n = some u → goes u) ∧
          (¬ crossed → n.dir.snoops = [] → n.dir.claims = [] → a.range = none → ∀ way, Meets s.fx a way n →
            let done := fun (u : Mach) => 
              let v := count 0x051 (hostNdr cls msg h false (hostGrant cls msg h l false false u))
              goes (keepEntry a (grantOf cls msg h false (v.dir.en.getLsbD h.agent.toNat)) h v)
            let t := tagAt n (setOf l) way
            let w := touch (setOf l) way n
            let u := writeWay (setOf l) way (wholeWrite a) a.bytes a.data n.regs.hostTc w
            (cls = 0 → (msg = 1 ∨ msg = 2) → done (memData h (wayData n (setOf l) way) t.poison w)) ∧
            (cls = 0 → (msg = 0 ∨ msg = 6 ∨ msg = 7) → done n) ∧
            (cls = 1 → h.psn = false → done u) ∧
            (cls = 1 → h.psn = true → done (setTag (setOf l) way { tagAt u (setOf l) way with poison := true } u))))))

/-- A MemSpecRd with its reserved bits zero is ignored, but answered MISHOMED at a fence or a clamp (01 R33); a message that the
slice does not handle, or with reserved bits set, is answered MISHOMED where it is not at home here, else DENIED, and counted
(11 R308). A BIConflict that passes its checks is answered BIConflictAck from the stop of the snoop of that half to its sender,
or from the stop it came to (11 R322). A BIRsp that matches no snoop by agent and tag, is not supported or comes on another
channel is discarded, logged and counted; from an agent that is not enabled it is discarded and logged (R308, R310). The answer
to BISnpCur sets I, S or A, to BISnpData I or S, to BISnpInv I; a stronger answer than the snoop allows is logged, and posted
for BISnpInv (R318); one whose snoop was crossed by an eviction counts as none (R322); the line's directory segment awake is a
premise. A snoop unanswered for SNOOP_TIMEOUT ticks marks its agent hung and posts the event; a timeout of 0 never does (R324).
In OFF nothing is taken. That a host message comes to an unclamped landing, and that no fence walks the directory, are premises.
-/
def Obligations.HostAnswers : Prop :=
  ∀ s : State, resting s.m = true →
    (∀ (i : Instr) (h : HostMsg) (cls msg : BitVec 4),
      (i = .hostMemspecrd h ∧ cls = 0 ∧ msg = 5 ∧ hostFields h = false) ∨
        (i = .hostMsgRefused cls msg h ∧ cls ≠ 2 ∧ hostHandled cls msg = false ∧ ¬ (cls = 0 ∧ (msg = 5 ∨ msg = 8))) →
      heldByStrap s.fx .vc0 s.m = false →
      let n := countAccept (.host cls msg h none) s.m
      let away := fencedLike n
      let home := memHome s.fx n h.address
      (h.rightChannel = false → landingClamped s.m = false → exec i s = .next (s.put (hostStray s.fx h s.m))) ∧
      (h.rightChannel = true → (away = true ∨ home = .mishomed) → exec i s = .next (s.put (count 0x011 (ndr h 0 stMishomed n)))) ∧
      (h.rightChannel = true → away = false → home ≠ .mishomed → exec i s = .next (s.put (count 0x010 (ndr h 0 stDenied n))))) ∧
    (∀ h : HostMsg, heldByStrap s.fx .vc0 s.m = false → h.rightChannel = true → hostFields h = true →
      let n := countAccept (.host 0 5 h none) s.m
      let away := fencedLike n
      (away = false → exec (.hostMemspecrd h) s = .next (s.put n)) ∧
      (away = true → exec (.hostMemspecrd h) s = .next (s.put (count 0x011 (ndr h 0 stMishomed n))))) ∧
    (∀ h : HostMsg, heldByStrap s.fx .vc0 s.m = false →
      let i := Instr.hostBiconflict h
      let n := countAccept (.host 0 8 h none) s.m
      let away := fencedLike n
      let home := memHome s.fx n h.address
      (h.rightChannel = false → landingClamped s.m = false → exec i s = .next (s.put (hostStray s.fx h s.m))) ∧
      (h.rightChannel = true → (away = true ∨ home = .mishomed) → exec i s = .next (s.put (count 0x011 (ndr h 0 stMishomed n)))) ∧
      (h.rightChannel = true → away = false → home = .denied → exec i s = .next (s.put (count 0x010 (ndr h 0 stDenied n)))) ∧
      (∀ off, h.rightChannel = true → away = false → home = .at off →
        (hostFields h = false → exec i s = .next (s.put (count 0x010 (ndr h 0 stDenied n)))) ∧
        (hostFields h = true → n.regs.hostEn = false → exec i s = .next (s.put (ndr h 0 stDenied n))) ∧
        (hostFields h = true → n.regs.hostEn = true →
          let met := n.dir.snoops.find? fun x => x.line = lineOfOff off && x.half = hostHalf h && x.agent = h.agent
          exec i s = .next (s.put (count 0x051 (departed n.regs.hostTc 0 none stOk (emit (.ndr ((met.map (·.stop)).getD h.stop) 4 h.agent h.ctag stOk) n))))))) ∧
    (∀ (i : Instr) (msg : BitVec 4) (h : HostMsg), i = .hostBirsp msg h ∨ i = .hostMsgRefused 2 msg h →
      let met := s.m.dir.snoops.find? fun x => x.agent = h.agent && x.ctag = h.ctag
      let known := s.m.dir.en.getLsbD h.agent.toNat
      (s.m.life.st = .off → exec i s = .next s) ∧
      (s.m.life.st ≠ .off → (met = none ∨ h.rightChannel = false ∨ 2 < msg.toNat) → exec i s = .next (s.put (hostStray s.fx h s.m))) ∧
      (∀ x, s.m.life.st ≠ .off → met = some x → h.rightChannel = true → msg.toNat ≤ 2 → awake s.m [dDir (quadOf x.line)] = true →
        let odd := logErr s.fx 0x39 0 (h.agent.toNat * 2 ^ 52 + locM x.line) s.m
        let set := fun (k : Nat) (m : Mach) => exec i s = .next (s.after (endSnoop s.fx x k m))
        (known = false → exec i s = .next (s.put (logErr s.fx 0x39 0 (hostLoc h) s.m))) ∧
        (known = true → x.taken = true → set 0 s.m) ∧
        (known = true → x.taken = false → x.kind = 2 → (msg = 0 → set 0 s.m) ∧
          (msg ≠ 0 → set 0 (post s.fx 0x09 (BitVec.ofNat 64 (msg.toNat * 2 ^ 12 + h.agent.toNat)) odd))) ∧
        (known = true → x.taken = false → x.kind = 1 → (msg ≠ 2 → set msg.toNat s.m) ∧ (msg = 2 → set 1 odd)) ∧
        (known = true → x.taken = false → x.kind ≠ 1 → x.kind ≠ 2 → set msg.toNat s.m))) ∧
    (∀ (ctag : BitVec 16) (cyc : Nat),
      let m := advance cyc s.m
      let due := fun (x : Snoop) => m.regs.snoopTimeout ≠ 0 ∧ x.tick + m.regs.snoopTimeout.toNat ≤ tickOf m.cyc ∧ m.dir.hung.getLsbD x.agent.toNat = false
      let met := m.dir.snoops.find? (·.ctag = ctag)
      (met = none → exec (.snoopTimeout ctag cyc) s = .next (s.put m)) ∧
      (∀ x, met = some x →
        (¬ due x → exec (.snoopTimeout ctag cyc) s = .next (s.put m)) ∧
        (due x → exec (.snoopTimeout ctag cyc) s = .next (s.put
          (post s.fx 0x08 (x.agent.zeroExtend 64) { m with dir := { m.dir with hung := m.dir.hung ||| ((1 : BitVec 16) <<< x.agent.toNat) } })))))

/-- A SPARSE_PACK or SPARSE_UNPACK that starts with the engine idle, its domains on and no host holding a line of its first page
locks the page and asks for its 32 lines (09 R276 steps 1 to 3); where none of them is at hand its next state waits for them so.
With the page's map word at hand, a page that is already in the new form, or on a pack holds more nonzero sectors than LIMIT or
a poisoned line, is skipped: it is unlocked, RES1 grows by one and nothing else of it changes (step 4). Else the new form's
lines are given to memory one by one, on a pack the packed lines from physical line 1 on and then the header, on an unpack lines
1 to 31 and then line 0 (step 5); the engine waits for their acknowledgements before it writes the map word, with the page's bit
set by a pack and cleared by an unpack (step 6), and with that write done the word and the header stand in their caches, each
valid line of the page is Clean with the new FMT and Z set for its zero sectors, the page is unlocked, RES0 grows by one and
RES2, on a pack, by the nonzero sectors (steps 6 and 7, R278). At the end the status is POISONED where a page stayed dense for
poison, else DONE_WARN where a page was skipped, else DONE (R278). The nonzero sectors are taken in ascending order, none is
left out, the j-th of them stands in slot j mod 4 of physical line 1 + j / 4, and the header's BITMAP has a bit for each and its
COUNT their number. -/
def Obligations.SparsePages : Prop :=
  (∀ (s : State) (p : CmdPkt) (c : Rec) (m : Mach) (i : Instr) (x : Nat × Nat) (t : List (Nat × Nat)),
    (i = .sparsePack p ∨ i = .sparseUnpack p) → Begins s i c m →
    let g := x.1 / 32
    let p0 := maintStart s.fx m c
    let asked := (pageLines g).foldl (fun m l => doOwn s.fx (ownRead .maint .read l) m) (lockPage g (runOn c (.maintRun p0) m))
    sparseStop s.fx m c = none → m.cmds.running = [] → p0.runs = x :: t →
    awake m (dEngine :: (pageLines g).flatMap fun l => [dTag (quadOf l), dDir (quadOf l)]) = true → sound m = true →
    m.dir.ents = [] → m.dir.recalls = [] → m.dir.reclaim = none → pageBusy (lockPage g m) g = false → asked.cache.done = [] →
    exec i s = .next (s.onward c m (setProg c.id (.maintRun { p0 with stepNo := 34, left := 32 }) asked))) ∧
  (∀ (fx : Fixed) (c : Rec) (g : Nat) (p : MaintProg) (m : Mach), fmapOn fx = true →
    let pack := decide (c.opcode = 0x36)
    let ss := pageSectors p.buf g
    let bad := p.buf.any (·.2.2)
    let wordOf := fun (m : Mach) => (lruFind (g / 64) (tget [] m.sparse.fcache (g / 64 % 256))).map (·.1)
    let bit := (1 : W64) <<< (g % 64)
    let moved := fun (v : W64) => if pack then v ||| bit else v &&& ~~~bit
    (p.stepNo = 35 → ∀ v, wordOf m = some v →
      let is := v.getLsbD (g % 64)
      let skip := decide (is = pack) || (pack && (bad || decide (packLimit c < ss.length)))
      (skip = true → ∃ n q, pageStep fx c g p m = .ok n q ∧ n.cache = m.cache ∧ n.sparse.locked = none ∧ wordOf n = some v ∧
        q.next = p.next + 1 ∧ q.stepNo = 0 ∧ q.res0 = p.res0 ∧ q.res1 = p.res1 + 1 ∧ q.res2 = p.res2 ∧ q.flag = (p.flag || (pack && !is && bad))) ∧
      (skip = false → ∃ n, pageStep fx c g p m = .ok n { p with stepNo := 36, left := 0 } ∧ n.cache = m.cache ∧ n.sparse.locked = m.sparse.locked)) ∧
    (36 ≤ p.stepNo → p.stepNo < 100 →
      (∀ x, (pageWrites pack g p.buf)[p.stepNo - 36]? = some x →
        (pageWrite fx c x m = none → pageStep fx c g p m = .wait m p) ∧
        (∀ n, pageWrite fx c x m = some n → pageStep fx c g p m = .ok n { p with stepNo := p.stepNo + 1, left := p.left + 1 })) ∧
      ((pageWrites pack g p.buf).length ≤ p.stepNo - 36 → pageStep fx c g p m = .ok m { p with stepNo := 100 })) ∧
    (p.stepNo = 100 → p.left ≠ 0 → ∃ n, pageStep fx c g p m = .wait n p) ∧
    (p.stepNo = 100 → p.left = 0 → (m.cache.writes.any fun w => granOf w.line = g && w.slip) = false → ∀ v, wordOf m = some v →
      ∃ n, n.cache = m.cache ∧ wordOf n = some v ∧ pageStep fx c g p m = .ok (doOwn fx (mapWrite fx n c.id g (moved v)) n) { p with stepNo := 101 }) ∧
    (p.stepNo = 101 → ∀ v, wordOf m = some v → ∀ d n0, takeDone (· = .cmd c.id) m = (n0, some d) →
      ∃ n q, pageStep fx c g p m = .ok n q ∧ n.sparse.locked = none ∧ wordOf n = some (moved v) ∧
        (pack = true → (lruFind g (tget [] n.sparse.hcache (g % 128))).map (·.1) = some ⟨BitVec.ofNat 128 (ss.map fun x => 2 ^ x.1).sum, ss.length, false⟩) ∧
        (∀ l ∈ pageLines g, ∀ w, hitWay m l = some w →
          let d := ((p.buf.find? (·.1 = l)).map (·.2.1)).getD 0
          let t := tagAt m (setOf l) w
          tagAt n (setOf l) w = { t with d := 0, fmt := if pack then 1 else 0, z := zeroBits d &&& t.v, kgen := t.keyv && (kslot m t.keyslot).cur }) ∧
        q.next = p.next + 1 ∧ q.stepNo = 0 ∧ q.res0 = p.res0 + 1 ∧ q.res1 = p.res1 ∧ q.res2 = p.res2 + (if pack then ss.length else 0) ∧ q.flag = p.flag)) ∧
  (∀ (g : Nat) (buf : List (LineNo × Line × Bool)),
    (pageWrites true g buf).map (·.line) = (List.range (((pageSectors buf g).length + 3) / 4)).map (fun j => BitVec.ofNat 28 (g * 32 + 1 + j)) ++ [BitVec.ofNat 28 (g * 32)] ∧
    (pageWrites false g buf).map (·.line) = ((List.range 31).map fun i => BitVec.ofNat 28 (g * 32 + (i + 1))) ++ [BitVec.ofNat 28 (g * 32)] ∧
    (∀ i, i < 32 → ∃ x ∈ pageWrites false g buf, x.line = BitVec.ofNat 28 (g * 32 + i) ∧ x.fmt = 0 ∧
      (x.data, x.poison) = ((buf.find? fun y => y.1.toNat = g * 32 + i).map (·.2)).getD (0, false))) ∧
  (∀ (fx : Fixed) (c : Rec) (p : MaintProg) (m : Mach), c.opcode = 0x36 ∨ c.opcode = 0x37 →
    endMaint fx c p m = complete fx c (if p.flag then csPoisoned else if p.res1 ≠ 0 then csWarn else csDone)
      [BitVec.ofNat 64 p.res0, BitVec.ofNat 64 p.res1, BitVec.ofNat 64 p.res2] m) ∧
  (∀ (g : Nat) (buf : List (LineNo × Line × Bool)),
    let ss := pageSectors buf g
    ss.Pairwise (fun x y => x.1 < y.1) ∧
    (∀ k d, (k, d) ∈ ss ↔ k < 128 ∧ d ≠ 0 ∧ d = sector (((buf.find? fun x => x.1.toNat = g * 32 + k / 4).map (·.2.1)).getD 0) (k % 4)) ∧
    (∀ j x, ss[j]? = some x → sector (packedLine ss (j / 4)).1 (j % 4) = x.2) ∧
    (∀ k, k < 128 → (headerLine ss).getLsbD k = decide (k ∈ ss.map (·.1))) ∧
    ((headerLine ss).extractLsb' 128 16).toNat = ss.length)
end

