-- ==== Sys2Proof/Laws/Settle.lean ====
section
/-! SUPPORT. What follows a command when nothing under way can go on: the passes of Machine/Settle.lean change nothing, or start
the one command that waits. -/

namespace Sys2Proof.Machine

/-- Nothing under way can go on but the commands that wait to start. -/
structure Calm (m : Mach) : Prop where
  done : m.cache.done = []
  own : m.cache.own = []
  heldN : m.cache.heldN = []
  heldS : m.cache.heldS = []
  tickets : ∀ t ∈ m.cache.tickets, t.issued = true
  writes : ∀ w ∈ m.cache.writes, w.issued = true
  reloads : m.berth.reloads = []
  thawQ : m.sync.thawQ = []
  recalls : m.dir.recalls = [] ∧ m.dir.owing = []
  runs : ∀ r ∈ m.cmds.running, runRests m r.prog = true
  repliesH : m.ringH.replies = []
  repliesF : m.ringF.replies = []
  folds : m.red.folds = []
  notices : m.red.notices = []
  hops : ∀ x ∈ m.red.hops, hopRests (hopOf m x.1) = true
  orphans : ∀ x ∈ m.sync.objs, x.2.orphan = false
  thaws : ∀ t ∈ m.season.queue, thawRests m t = true
  rots : ∀ r ∈ m.keys.rots, (nextRun r.runs).isSome = true
  slots : m.sparse.slots = []
  unsent : m.unsent = []
  asleep : ∀ x ∈ m.season.asleep, domReady m x.2 = false
  late : ∀ w ∈ m.sync.waits, w.late = false
  deferred : m.lateDumps = 0

theorem resting_iff (m : Mach) :
    resting m = true ↔ Calm m ∧ m.life.lockTo = none ∧ m.cmds.waiting = [] := by
  constructor
  · intro h
    simp only [resting, Bool.and_eq_true, Option.isNone_iff_eq_none, List.isEmpty_iff, List.all_eq_true, Bool.not_eq_true', decide_eq_true_eq] at h
    obtain ⟨⟨⟨⟨⟨⟨⟨⟨⟨⟨⟨⟨⟨⟨⟨⟨⟨⟨⟨⟨⟨⟨⟨⟨a, b⟩, c⟩, d⟩, e⟩, f⟩, g⟩, i⟩, j⟩, k⟩, l⟩, n⟩, o⟩, p⟩, q⟩, r⟩, t⟩, sl⟩, un⟩, sp⟩, la⟩, df⟩, u⟩, v⟩, w⟩ := h
    exact ⟨⟨b, c, d, e, f, g, i, j, k, n, o, p, q, r, t, u, v, w, sl, un, sp, la, df⟩, a, l⟩
  · rintro ⟨⟨b, c, d, e, f, g, i, j, k, n, o, p, q, r, t, u, v, w, sl, un, sp, la, df⟩, a, l⟩
    simp only [resting, Bool.and_eq_true, Option.isNone_iff_eq_none, List.isEmpty_iff, List.all_eq_true, Bool.not_eq_true', decide_eq_true_eq]
    exact ⟨⟨⟨⟨⟨⟨⟨⟨⟨⟨⟨⟨⟨⟨⟨⟨⟨⟨⟨⟨⟨⟨⟨⟨a, b⟩, c⟩, d⟩, e⟩, f⟩, g⟩, i⟩, j⟩, k⟩, l⟩, n⟩, o⟩, p⟩, q⟩, r⟩, t⟩, sl⟩, un⟩, sp⟩, la⟩, df⟩, u⟩, v⟩, w⟩

theorem pumpAcks_calm {m : Mach} (h : Calm m) : pumpAcks m = m := by
  simp only [pumpAcks, h.done, List.filter_nil, finishAcks]
  rw [← h.done]

theorem pumpOwn_calm {m : Mach} (fx : Fixed) (h : Calm m) : pumpOwn fx m = m := by
  simp only [pumpOwn, h.own, retryOwn]
  rw [← h.own]

theorem pumpReloads_calm {m : Mach} (fx : Fixed) (h : Calm m) : pumpReloads fx m = m := by
  simp only [pumpReloads, h.reloads, h.done, List.filter_nil, List.foldl_nil, List.length_nil, endReloads]

theorem drainSync_calm {m : Mach} (fx : Fixed) (h : Calm m) : drainSync fx m = m := by
  have hl : m.sync.waits.any (·.late) = false := by
    rw [List.any_eq_false]
    exact fun w hw => by simp [h.late w hw]
  rw [drainSync, if_pos (by simp [h.thawQ, hl])]

theorem pumpSlots_calm {m : Mach} (fx : Fixed) (h : Calm m) : pumpSlots fx m = m := by
  simp only [pumpSlots, h.slots, List.foldl_nil]
  rw [← h.slots]

theorem pumpUnsent_calm {m : Mach} (h : Calm m) : pumpUnsent m.unsent m = m := by
  rw [h.unsent, pumpUnsent, ← h.unsent]

theorem pumpDeferred_calm {m : Mach} (fx : Fixed) (h : Calm m) : pumpDeferred fx m = m := by
  simp [pumpDeferred, h.deferred]

theorem tidyWaits_calm {m : Mach} (h : Calm m) : tidyWaits m = m := by
  have e : (m.season.asleep.filter fun x => !domReady m x.2) = m.season.asleep :=
    List.filter_eq_self.mpr fun x hx => by simp [h.asleep x hx]
  rw [tidyWaits, e]

theorem pumpRecalls_calm {m : Mach} (fx : Fixed) (h : Calm m) : pumpRecalls fx m = m := by
  simp only [pumpRecalls, h.recalls.1, List.foldl_nil]

theorem pumpOwing_calm {m : Mach} (fx : Fixed) (h : Calm m) : pumpOwing fx m.dir.owing m = m := by
  rw [h.recalls.2, pumpOwing, ← h.recalls.2]

/-- No sweep that rests waits for a write admitted before it. -/
theorem pruneSweep_calm {m : Mach} (h : Calm m) : pruneSweep m = m := by
  rw [pruneSweep]
  split
  · rename_i c todo sent acked lost before hr
    have := h.runs _ (List.mem_of_find?_eq_some hr)
    simp only [runRests, Bool.and_eq_true] at this
    exact if_pos this.1
  · rfl

/-- A stop that holds nothing issues nothing to a quad. -/
theorem issueQuad_none {m : Mach} (fx : Fixed) {st : Stop} (h : heldAt m st = []) (q n : Nat) (tried : List Nat) :
    issueQuad fx st q n tried m = m := by
  cases n with
  | zero => rfl
  | succ n => simp [issueQuad, eligibleHeld, h, windowed, heldBest]

/-- A stop that holds nothing is left as it is. -/
theorem pumpStop_none {m : Mach} (fx : Fixed) {st : Stop} (h : heldAt m st = []) : pumpStop fx st m = m := by
  have e : setHeld st [] m = m := by
    cases st <;> (simp only [heldAt, reduceCtorEq, if_true, if_false] at h; simp only [setHeld, reduceCtorEq, if_true, if_false]; rw [← h])
  have k : (List.range 4).foldl (fun m q => issueQuad fx st q 32 [] m) m = m := by
    simp only [show List.range 4 = [0, 1, 2, 3] from rfl, List.foldl_cons, List.foldl_nil, issueQuad_none fx h]
  simp only [pumpStop, h, retryHeld, e, List.append_nil]
  exact k

theorem pumpHeld_calm {m : Mach} (fx : Fixed) (h : Calm m) : pumpHeld fx m = m := by
  rw [pumpHeld, pumpStop_none (st := .north) fx h.heldN, pumpStop_none (st := .south) fx h.heldS]

theorem runningCmd_calm {m : Mach} {p : Prog → Bool} (h : Calm m) (hp : ∀ q, runRests m q = true → p q = false) :
    runningCmd m p = none := by
  simpa [runningCmd, List.find?_eq_none] using fun r hr => hp _ (h.runs r hr)

theorem pumpCopy_calm {m : Mach} (fx : Fixed) (h : Calm m) : pumpCopy fx m = m := by
  rw [pumpCopy, runningCmd_calm h (by intro q; cases q <;> simp [runRests, isCopyRun])]

theorem pumpMaint_calm {m : Mach} (fx : Fixed) (h : Calm m) : pumpMaint fx m = m := by
  rw [pumpMaint, runningCmd_calm h (by intro q; cases q <;> simp [runRests, isMaintRun])]

theorem endSweep_calm {m : Mach} (fx : Fixed) (h : Calm m) : endSweep fx m = m := by
  simp only [endSweep, pruneSweep_calm h]
  split
  · rename_i c acked lost hs
    exfalso
    simp only [sweepReady] at hs
    split at hs
    · rename_i c' todo sent acked' lost' before hr
      have := h.runs _ (List.mem_of_find?_eq_some hr)
      split at hs
      · cases hs
      · simp only [Option.some.injEq, Prod.mk.injEq] at hs
        obtain ⟨-, rfl, rfl, -⟩ := hs
        simp [runRests] at this
    · cases hs
  · rfl

theorem pumpClose_rests {m : Mach} (fx : Fixed) (run : Run) (c : CloseProg) (h : c.draining = false) : pumpClose fx run c m = m := by
  simp [pumpClose, h]

theorem endClose_rests {m : Mach} (fx : Fixed) (run : Run) (c : CloseProg) (h : c.draining = false) : endClose fx run c m = m := by
  simp [endClose, h]

theorem pumpRun_calm {m : Mach} (fx : Fixed) (h : Calm m) (r : Run) (hr : runRests m r.prog = true) : pumpRun fx r m = m := by
  obtain ⟨c, p⟩ := r
  cases p with
  | close p =>
    have hd : p.draining = false := by simpa [runRests] using hr
    simp only [pumpRun, pumpClose_rests fx _ p hd]
    split
    · rename_i c' p' hf
      have := h.runs _ (List.mem_of_find?_eq_some hf)
      exact endClose_rests fx _ p' (by simpa [runRests] using this)
    · rfl
  | stage b n g q f =>
    cases q with
    | none => simp [runRests] at hr
    | some q => rfl
  | activate b q f =>
    cases q with
    | false => simp [runRests] at hr
    | true => rfl
  | _ => first | rfl | simp [runRests] at hr

theorem pumpRuns_calm {m : Mach} (fx : Fixed) (h : Calm m) (ids : List Nat) : pumpRuns fx ids m = m := by
  induction ids with
  | nil => rfl
  | cons i t ih =>
    simp only [pumpRuns]
    split
    · rename_i r hr
      rw [pumpRun_calm fx h r (h.runs _ (List.mem_of_find?_eq_some hr)), ih]
    · exact ih

theorem takeDone_calm {m : Mach} (h : m.cache.done = []) (p : Src → Bool) : takeDone p m = (m, none) := by
  simp [takeDone, h]

theorem pumpFetch_calm {m : Mach} (fx : Fixed) (f : Bool) (h : Calm m) : pumpFetch fx f m = m := by
  simp [pumpFetch, takeDone_calm h.done]

theorem pumpReply_calm {m : Mach} (fx : Fixed) (f : Bool) (h : Calm m) : pumpReply fx f m = m := by
  cases f <;> simp [pumpReply, ringOf, h.repliesH, h.repliesF]

theorem pumpRingWrites_calm {m : Mach} (fx : Fixed) (h : Calm m) : pumpRingWrites fx m.cache.done.length m = m := by
  rw [h.done, List.length_nil, pumpRingWrites, pumpReply_calm fx true h, pumpReply_calm fx false h]

theorem stepFolds_calm {m : Mach} (fx : Fixed) (h : Calm m) : stepFolds fx m = m := by
  simp [stepFolds, h.folds]

theorem pumpNotices_calm {m : Mach} (h : Calm m) :
    (let x := pumpNotices m.red.notices { m with red := { m.red with notices := [] } };
     { x.1 with red := { x.1.red with notices := x.2 ++ x.1.red.notices } }) = m := by
  simp only [h.notices, pumpNotices, List.nil_append]
  rw [← h.notices]

theorem stepHop_rests {m : Mach} (fx : Fixed) (j : Nat) (h : hopRests (hopOf m j) = true) : stepHop fx j m = m := by
  have h : (hopOf m j).valid = false ∨ ((hopOf m j).broken = false ∧ (hopOf m j).cut = false) := by simpa [hopRests] using h
  unfold stepHop
  rcases h with h | ⟨h, h'⟩
  · simp [h]
  · simp [h, h']

theorem foldl_keeps {α β : Type} (f : β → α → β) (b : β) (l : List α) (h : ∀ x ∈ l, f b x = b) : l.foldl f b = b := by
  induction l with
  | nil => rfl
  | cons x t ih =>
    rw [List.foldl_cons, h x (by simp)]
    exact ih fun y hy => h y (by simp [hy])

theorem pumpExpired_calm {m : Mach} (fx : Fixed) (h : Calm m) : pumpExpired fx m = m := by
  rw [pumpExpired]
  exact foldl_keeps _ _ _ fun x hx => if_neg fun c => by simp [h.asleep x hx] at c

theorem stepHops_calm {m : Mach} (fx : Fixed) (h : Calm m) : stepHops fx m = m := by
  rw [stepHops]
  refine foldl_keeps _ _ _ fun j hj => ?_
  obtain ⟨x, hx, rfl⟩ := List.mem_map.mp hj
  exact stepHop_rests fx _ (h.hops x hx)

theorem freeOrphans_calm {m : Mach} (h : Calm m) : freeOrphans m = m := by
  rw [freeOrphans]
  refine foldl_keeps _ _ _ fun x hx => ?_
  simp [h.orphans x hx]

theorem tidyThaws_calm {m : Mach} (h : Calm m) : tidyThaws m = m := by
  have e : (m.season.queue.filter fun t =>
      !(((dom m t.dom).season = .summer || (dom m t.dom).season = .autumn) && (dom m t.dom).entering.isNone)) = m.season.queue := by
    refine List.filter_eq_self.mpr fun t ht => ?_
    have := h.thaws t ht
    revert this
    rw [thawRests]
    cases (dom m t.dom).entering <;> simp
  rw [tidyThaws]
  simp only [e]

theorem endRots_calm {m : Mach} (fx : Fixed) (h : Calm m) : endRots fx m = m := by
  have e : (m.keys.rots.filter fun r => (nextRun r.runs).isNone) = [] := by
    refine List.filter_eq_nil_iff.mpr fun r hr => ?_
    have := h.rots r hr
    cases hn : nextRun r.runs <;> simp_all
  rw [endRots, e, List.foldl_nil]

theorem tidyDone_nil {m : Mach} (h : m.cache.done = []) : tidyDone m = m := by
  simp only [tidyDone, h, List.filter_nil]
  rw [← h]

theorem xferReady_issued {m : Mach} (ht : ∀ t ∈ m.cache.tickets, t.issued = true) (hw : ∀ w ∈ m.cache.writes, w.issued = true) :
    xferReady m = [] := by
  have hf : (m.cache.writes.filter fun w =>
      !(w.issued || m.cache.writes.any (fun v => v.issued && v.line = w.line) || m.cache.tickets.any (fun t => t.issued && t.line = w.line) ||
        m.cache.writes.any (fun v => !v.issued && v.line = w.line && decide (v.seq < w.seq)) ||
        cipherWaits m (if w.keyv then some w.keyslot else none))) = [] :=
    List.filter_eq_nil_iff.mpr fun w h => by simp [hw w h]
  simp only [xferReady, hf, List.filter_nil, List.map_nil, List.append_nil, List.filterMap_eq_nil_iff]
  exact fun t h => by simp [ht t h]

theorem pumpPort_issued {m : Mach} (fx : Fixed) (n : Nat) (ht : ∀ t ∈ m.cache.tickets, t.issued = true)
    (hw : ∀ w ∈ m.cache.writes, w.issued = true) : pumpPort fx n m = m := by
  cases n with
  | zero => rfl
  | succ n =>
    have : xferPick m = none := by
      rw [xferPick, xferReady_issued ht hw]
      split <;> rfl
    simp [pumpPort, this]

/-- The port has nothing to issue. -/
theorem pump_issued {m : Mach} (fx : Fixed) (ht : ∀ t ∈ m.cache.tickets, t.issued = true)
    (hw : ∀ w ∈ m.cache.writes, w.issued = true) : pump fx m = m := by
  have k : (m.cache.writes.any (fun w => w.keyv && !w.issued) || m.cache.tickets.any (fun t => !t.issued && t.range.isSome)) = false := by
    rw [Bool.or_eq_false_iff, List.any_eq_false, List.any_eq_false]
    exact ⟨fun w h => by simp [hw w h], fun t h => by simp [ht t h]⟩
  rw [pump]
  simp only [k]
  exact pumpPort_issued fx _ ht hw

/-- A pass over a calm block does no more than start the commands that wait. -/
theorem settlePass_calm {m : Mach} (fx : Fixed) (h : Calm m) :
    settlePass fx m = tidyDone (pump fx (startReady fx m.cmds.waiting.length m)) := by
  have d : pumpDrains fx m.cache.done.length m = m := by rw [h.done]; rfl
  have r : pumpRecords fx m.cache.done.length m = m := by rw [h.done]; rfl
  have n := pumpNotices_calm h
  simp only [settlePass, pumpAcks_calm h, pumpOwn_calm fx h, pumpReloads_calm fx h, d, drainSync_calm fx h, pumpSlots_calm fx h, pumpRecalls_calm fx h,
    pumpOwing_calm fx h, pumpUnsent_calm h,
    pumpHeld_calm fx h, pumpCopy_calm fx h, pumpMaint_calm fx h, endSweep_calm fx h, pumpRuns_calm fx h, pumpFetch_calm fx false h,
    pumpFetch_calm fx true h, pumpRingWrites_calm fx h, r, pumpDeferred_calm fx h, stepFolds_calm fx h]
  rw [n, stepHops_calm fx h, pumpExpired_calm fx h, freeOrphans_calm h, tidyThaws_calm h, tidyWaits_calm h, endRots_calm fx h]

theorem settlePass_still {m : Mach} (fx : Fixed) (c : Calm m) (w : m.cmds.waiting = []) : settlePass fx m = m := by
  rw [settlePass_calm fx c, w, List.length_nil, startReady, pump_issued fx c.tickets c.writes, tidyDone_nil c.done]

theorem settleN_still {m : Mach} (fx : Fixed) (n : Nat) (c : Calm m) (w : m.cmds.waiting = []) : settleN fx n m = m := by
  induction n with
  | zero => rfl
  | succ n ih =>
    rw [settleN]
    split
    · rfl
    · rw [settlePass_still fx c w, ih]

theorem settle_still {m : Mach} (fx : Fixed) (c : Calm m) (w : m.cmds.waiting = []) : settle fx m = m := settleN_still fx _ c w

/-- Nothing follows where nothing under way can go on. -/
theorem finish_resting {m : Mach} (fx : Fixed) (h : resting m = true) : finish (fx, m) = (fx, m) := by
  obtain ⟨c, l, w⟩ := (resting_iff m).mp h
  simp [finish, lockEnd, settle_still fx c w, l]

/-- A command whose own effect leaves a block where nothing can go on leaves that block. -/
theorem after_resting {s : State} {m : Mach} (h : resting m = true) : s.after m = { s with m := m } := by
  simp [State.after, finish_resting s.fx h]

/-- The block with no level chosen. -/
def noLock (m : Mach) : Mach := { m with life := { m.life with lockTo := none } }

/-- A level chosen within the step is fixed as it ends, and the RO/L fields are locked. -/
theorem after_lock {s : State} {m : Mach} {l : BitVec 2} (h : m.life.lockTo = some l) (r : resting (noLock m) = true) :
    s.after m = { s with fx := { s.fx with level := some (s.fx.level.getD l), roLocked := true }, m := noLock m } := by
  obtain ⟨c, -, w⟩ := (resting_iff _).mp r
  have c' : Calm m := ⟨c.1, c.2, c.3, c.4, c.5, c.6, c.7, c.8, c.9, c.10, c.11, c.12, c.13, c.14, c.15, c.16, c.17, c.18, c.19, c.20, c.21, c.22, c.23⟩
  have w' : m.cmds.waiting = [] := w
  have e : ∀ fx, settle fx (noLock m) = noLock m := fun fx => settle_still fx c w
  simp only [State.after, finish, lockEnd, settle_still s.fx c' w', h, Option.isNone_some, Bool.false_eq_true, if_false, lockStep, lockFixed]
  simp only [noLock] at e ⊢
  simp only [e]

end Sys2Proof.Machine
end

