-- ==== Sys2Proof/Laws/Start.lean ====
section
/-! SUPPORT. A command that starts at once: what its row does is what its opcode does to the block as it starts. -/

namespace Sys2Proof.Machine

theorem setDom_same {m : Mach} {i : Nat} (h : i < 82) : setDom i (dom m i) m = m := by
  have e : m.season.doms.setIfInBounds i (dom m i) = m.season.doms := by
    ext j hj
    rw [Vector.getElem_setIfInBounds]
    split
    · rename_i hij
      subst hij
      simp [dom, Vector.getD, h]
    · rfl
  simp only [setDom, e]

/-- A use of a domain that is awake. -/
theorem needDom_awake {m : Mach} {ds : List Nat} {i : Nat} (h : awake m ds = true) (hi : i ∈ ds) : needDom i m = (m, true) := by
  simp only [awake, Bool.and_eq_true, Bool.not_eq_true', List.all_eq_true, decide_eq_true_eq] at h
  obtain ⟨⟨h1, h2⟩, h3⟩ := h
  obtain ⟨h4, h5⟩ := h3 i hi
  have r : domReady m i = true := by
    rw [domReady, h5]
    rfl
  rw [needDom]
  simp only [h1, h2, Bool.not_true, Bool.or_self, Bool.false_eq_true, if_false, r, if_true]
  have h6 : (dom m i).entering ≠ some Season.winter := by rw [h5]; exact fun h => by cases h
  rw [← h5, if_neg h6, setDom_same h4]

theorem awake_ready {m : Mach} {ds : List Nat} {i : Nat} (h : awake m ds = true) (hi : i ∈ ds) : domReady m i = true := by
  simp only [awake, Bool.and_eq_true, Bool.not_eq_true', List.all_eq_true, decide_eq_true_eq] at h
  rw [domReady, (h.2 i hi).2]
  rfl

theorem needDoms_awake {m : Mach} {ds es : List Nat} (h : awake m ds = true) (hs : ∀ i ∈ es, i ∈ ds) : needDoms es m = (m, true) := by
  induction es with
  | nil => rfl
  | cons i t ih =>
    simp only [needDoms, needDom_awake h (hs i (by simp)), ih fun j hj => hs j (by simp [hj]), Bool.and_self]

/-- A step that waits for a domain does not where it is awake. -/
theorem waitDom_awake {m : Mach} {ds : List Nat} {i : Nat} (who : Nat) (h : awake m ds = true) (hi : i ∈ ds) : waitDom who i m = (m, true) := by
  simp only [waitDom, needDom_awake h hi, if_true]

theorem waitDoms_awake {m : Mach} {ds es : List Nat} (who : Nat) (h : awake m ds = true) (hs : ∀ i ∈ es, i ∈ ds) : waitDoms who es m = (m, true) := by
  simp only [waitDoms, needDoms_awake h hs, if_true]

theorem waitDoms_nil (who : Nat) (m : Mach) : waitDoms who [] m = (m, true) := rfl

/-- A command's first step finds its domains awake, if it needs any. -/
theorem needDoms_first {m : Mach} {es : List Nat} (h : es = [] ∨ awake m es = true) : needDoms es m = (m, true) := by
  rcases h with h | h
  · rw [h, needDoms]
  · exact needDoms_awake h fun _ hi => hi

/-- A command row is the arrival of its packet. -/
theorem exec_packet {s : State} {i : Instr} {p : CmdPkt} (h : packetOf s.fx i = some p) :
    exec i s = actM s fun fx m => arriveCmd fx p m := by
  cases i <;> simp only [packetOf, Option.some.injEq, reduceCtorEq] at h
  case sbCmd site c =>
    split at h
    · rename_i e
      cases h
      simp only [exec, execSbCmd, actM, act, if_pos e]
    · cases h
  all_goals (subst h; rfl)

theorem countN_cmds (ev : Nat) (ctx : Option Ctx) (tc : Option (BitVec 4)) (n : Nat) (m : Mach) :
    (countN ev ctx tc n m).cmds = m.cmds := by
  rw [countN]; split <;> rfl

/-- Counting changes the counters alone. -/
theorem countN_frame (ev : Nat) (ctx : Option Ctx) (tc : Option (BitVec 4)) (n : Nat) (m : Mach) :
    ∃ p, countN ev ctx tc n m = { m with pmc := p } := by
  rw [countN]
  split
  · exact ⟨m.pmc, rfl⟩
  · exact ⟨_, rfl⟩

theorem unwait_waits {c : Rec} {m : Mach} (w : m.cmds.waiting = []) : unwait c (waits c m) = m := by
  simp [unwait, waits, w]
  rw [← w]

theorem startReady_one {fx : Fixed} {c : Rec} {m : Mach} (w : m.cmds.waiting = []) (k : controls m = true)
    (l : m.life.lockTo = none) (ch : channelOf c.pkt.path < 4) : startReady fx 1 (waits c m) = (tryStart fx c (waits c m)).1 := by
  have hw : (waits c m).cmds.waiting = [c] := by simp [waits, w]
  have hc : controls (waits c m) = true := k
  have hh : cmdHeads (waits c m) = [c] := by
    have : (List.range 4).filterMap (fun k => (waits c m).cmds.waiting.find? fun c => decide (channelOf c.pkt.path = k)) = [c] := by
      rw [hw]
      simp only [List.find?_singleton]
      generalize channelOf c.pkt.path = n at ch
      have e : List.range 4 = [0, 1, 2, 3] := rfl
      rw [e]
      interval_cases n <;> rfl
    rw [cmdHeads]
    simp only [this]
    by_cases z : c.wait = 0 <;> simp [z, sortBy, insertBy]
  have hl : (waits c m).life.lockTo = none := l
  simp only [startReady, hw, hc, hh, hl, Option.isSome_none, startFirst, reduceCtorEq, decide_false, Bool.not_true, Bool.or_self, Bool.false_eq_true, if_false]
  cases tryStart fx c (waits c m) with
  | mk n b => cases b <;> rfl

/-- What a command row does whose turn comes at once, with what follows. -/
theorem arrives_onward {s : State} {i : Instr} {c : Rec} {m m' : Mach} (b : Arrives s i c m)
    (hs : (tryStart s.fx c (waits c m)).1 = m') : exec i s = .next (s.onward c m m') := by
  obtain ⟨p, hp, hb, hm, hc, he⟩ := b.row
  have hk := b.takes
  simp only [controls, Bool.and_eq_true, Bool.not_eq_true', decide_eq_false_iff_not] at hk
  obtain ⟨⟨⟨hk1, hk2⟩, hk3⟩, hk4⟩ := hk
  obtain ⟨calm, lock, nowait⟩ := (resting_iff _).mp b.still
  have hroom := b.room
  -- the packet is taken
  have ht : ∀ n : Mach, (∃ q, n = { s.m with pmc := q }) → takeCmd s.fx p n = waits c { n with cmds := { n.cmds with nextId := n.cmds.nextId + 1 } } := by
    rintro n ⟨q, rfl⟩
    rw [takeCmd, hm]
    have hroom' : ¬ (64 ≤ inProgress s.m) := by omega
    rw [hc]
    simp only [inProgress] at hroom'
    simp [waits, recOf, hk1, hk2, hk4, hb, inProgress, hroom']
  have ha : arriveCmd s.fx p s.m = waits c m := by
    rw [arriveCmd, if_neg hk3, he, atStart]
    cases hpath : p.path with
    | ring f => simp [byRing, hpath] at hb
    | sideband => exact ht s.m ⟨s.m.pmc, rfl⟩
    | vc2 st peer =>
      dsimp only
      rw [ht _ (countN_frame ..)]
  have hfr : ∃ q, m = { s.m with pmc := q, cmds := { s.m.cmds with nextId := s.m.cmds.nextId + 1 } } := by
    rw [he, atStart]
    split
    · obtain ⟨q, hq⟩ := countN_frame 0x040 (if bit p.w1 20 then some (BitVec.ofNat 12 (fld p.w1 11 0)) else none) none 1 s.m
      exact ⟨q, by rw [hq]⟩
    · exact ⟨s.m.pmc, rfl⟩
  have hcalm : Calm (waits c m) := by
    obtain ⟨q, rfl⟩ := hfr
    exact ⟨calm.1, calm.2, calm.3, calm.4, calm.5, calm.6, calm.7, calm.8, calm.9, calm.10, calm.11, calm.12, calm.13, calm.14, calm.15,
      calm.16, calm.17, calm.18, calm.19, calm.20, calm.21, calm.22, calm.23⟩
  have hw : m.cmds.waiting = [] := by obtain ⟨q, rfl⟩ := hfr; exact nowait
  have hlk : m.life.lockTo = none := by obtain ⟨q, rfl⟩ := hfr; exact lock
  have hcon : controls m = true := by obtain ⟨q, rfl⟩ := hfr; exact b.takes
  have hch : channelOf c.pkt.path < 4 := by
    generalize c.pkt.path = q
    cases q with
    | ring f => cases f <;> decide
    | sideband => decide
    | vc2 st peer => exact Nat.lt_succ_self 3
  have hpass : settlePass s.fx (waits c m) = tidyDone (pump s.fx m') := by
    rw [settlePass_calm s.fx hcalm]
    have : (waits c m).cmds.waiting.length = 1 := by simp [waits, hw]
    rw [this, startReady_one hw hcon hlk hch, hs]
  have hset : settle s.fx (waits c m) = settleN s.fx (2 * work (waits c m) + 1) (tidyDone (pump s.fx m')) := by
    have : work (waits c m) ≠ 0 := by simp [work, waits]
    rw [settle, settleN, if_neg this, hpass]
  rw [exec_packet hp, actM, act]
  simp only [ha, finish, hset, State.onward]

theorem onward_calm {s : State} {c : Rec} {m m' : Mach} (calm' : Calm m') (wait' : m'.cmds.waiting = []) : s.onward c m m' = s.after m' := by
  simp only [State.onward, State.after, finish, pump_issued s.fx calm'.tickets calm'.writes, tidyDone_nil calm'.done,
    settleN_still s.fx _ calm' wait', settle_still s.fx calm' wait']

/-- Where the command's own effect leaves nothing that can go on, that is all. -/
theorem onward_resting {s : State} {c : Rec} {m m' : Mach} (h : Machine.resting m' = true) : s.onward c m m' = s.put m' := by
  obtain ⟨calm', -, wait'⟩ := (resting_iff _).mp h
  rw [onward_calm calm' wait', after_resting h]

/-- What a command row does whose turn comes at once, where its effect leaves no engine anything to do. -/
theorem arrives_after {s : State} {i : Instr} {c : Rec} {m m' : Mach} (b : Arrives s i c m)
    (hs : (tryStart s.fx c (waits c m)).1 = m') (calm' : Calm m') (wait' : m'.cmds.waiting = []) : exec i s = .next (s.after m') :=
  (arrives_onward b hs).trans (by rw [onward_calm calm' wait'])


theorem arrives_finish {s : State} {i : Instr} {c : Rec} {m m' : Mach} (b : Arrives s i c m)
    (hs : (tryStart s.fx c (waits c m)).1 = m') (hr : resting m' = true) : exec i s = .next { s with m := m' } := by
  obtain ⟨calm', -, wait'⟩ := (resting_iff _).mp hr
  rw [arrives_after b hs calm' wait', after_resting hr]

/-- A command that starts at once starts in a block where nothing else can go on, and has not come by a ring. -/
theorem Arrives.resting {s : State} {i : Instr} {c : Rec} {m : Mach} (b : Arrives s i c m) : resting m = true := by
  obtain ⟨p, -, -, -, -, he⟩ := b.row
  rw [he, atStart]
  split
  · obtain ⟨q, hq⟩ := countN_frame 0x040 (if bit p.w1 20 then some (BitVec.ofNat 12 (fld p.w1 11 0)) else none) none 1 s.m
    rw [hq]; exact b.still
  · exact b.still

theorem Arrives.waiting {s : State} {i : Instr} {c : Rec} {m : Mach} (b : Arrives s i c m) : m.cmds.waiting = [] :=
  ((resting_iff m).mp b.resting).2.2

/-- What a command does that starts at once, with what follows. -/
theorem begins_onward {s : State} {i : Instr} {c : Rec} {m m' : Mach} (b : Begins s i c m) (hs : startCmd s.fx c false m = m') :
    exec i s = .next (s.onward c m m') := by
  refine arrives_onward b.toArrives ?_
  simp only [tryStart, b.turn, b.passes, needDoms_first b.doms, b.ready, unwait_waits b.waiting, hs]
  rfl

/-- What a command does that starts at once. -/
theorem begins_finish {s : State} {i : Instr} {c : Rec} {m m' : Mach} (b : Begins s i c m)
    (hs : startCmd s.fx c false m = m') (hr : resting m' = true) : exec i s = .next { s with m := m' } := by
  refine arrives_finish b.toArrives ?_ hr
  simp only [tryStart, b.turn, b.passes, needDoms_first b.doms, b.ready, unwait_waits b.waiting, hs]
  rfl

/-- The same where the command's own effect chooses a level. -/
theorem begins_lock {s : State} {i : Instr} {c : Rec} {m m' : Mach} {l : BitVec 2} (b : Begins s i c m)
    (hs : startCmd s.fx c false m = m') (h : m'.life.lockTo = some l) (r : Machine.resting (noLock m') = true) :
    exec i s = .next { s with fx := { s.fx with level := some (s.fx.level.getD l), roLocked := true }, m := noLock m' } := by
  obtain ⟨c', -, w'⟩ := (resting_iff _).mp r
  rw [← after_lock h r]
  refine arrives_after b.toArrives ?_ ⟨c'.1, c'.2, c'.3, c'.4, c'.5, c'.6, c'.7, c'.8, c'.9, c'.10, c'.11, c'.12, c'.13, c'.14, c'.15,
    c'.16, c'.17, c'.18, c'.19, c'.20, c'.21, c'.22, c'.23⟩ w'
  simp only [tryStart, b.turn, b.passes, needDoms_first b.doms, b.ready, unwait_waits b.waiting, hs]
  rfl

/-- What a command does that is stopped before its opcode's own checks. -/
theorem refused_finish {s : State} {i : Instr} {c : Rec} {m : Mach} {st : Nat} {res : List W64} (b : Arrives s i c m)
    (h : startStop s.fx (waits c m) c = some (st, res)) (hr : Machine.resting (complete s.fx c st res m) = true) :
    exec i s = .next { s with m := complete s.fx c st res m } := by
  refine arrives_finish b ?_ hr
  simp only [tryStart, b.turn, h, unwait_waits b.waiting]
  rfl

end Sys2Proof.Machine
end

