-- ==== Sys2Proof/Laws/Ops.lean ====
section
/-! SUPPORT. What the shared operations of Machine/Ops.lean and Machine/Command.lean can change, said once each: every other part of
the block is as it was. -/

namespace Sys2Proof.Machine

/-- A message that leaves changes what has left alone. -/
theorem emit_frame (o : Out) (m : Mach) : ∃ l, emit o m = { m with out := l } := by
  rw [emit]; split
  · exact ⟨m.out, rfl⟩
  · exact ⟨_, rfl⟩

/-- A posted event changes the event ring, and what has left where the mirror is on. -/
theorem post_frame (fx : Fixed) (code : BitVec 8) (d : W64) (m : Mach) : ∃ q l, post fx code d m = { m with evq := q, out := l } := by
  simp only [post]
  split
  · exact let ⟨l, h⟩ := emit_frame _ _; ⟨_, l, h⟩
  · exact ⟨_, _, rfl⟩

/-- The response to a request changes what has left, the counters, the class's measures and the counter of the free values. -/
theorem departed_frame (tc : BitVec 4) (d : Nat) (ctx : Option Ctx) (st : BitVec 4) (m : Mach) :
    ∃ p q n, departed tc d ctx st m = { m with pmc := p, qos := q, freeN := n } := by
  simp only [departed]
  exact let ⟨p, h⟩ := countN_frame _ _ _ _ _; ⟨p, _, _, h⟩

theorem sendResp_frame (r : Req) (op : BitVec 6) (st sect : BitVec 4) (more : Bool) (info : BitVec 16) (ws : List W64) (m : Mach) :
    ∃ l, sendResp r op st sect more info ws m = { m with out := l } := emit_frame _ _

theorem respond_frame (r : Req) (op : BitVec 6) (st sect : BitVec 4) (info : BitVec 16) (ws : List W64) (m : Mach) :
    ∃ l p q n, respond r op st sect info ws m = { m with out := l, pmc := p, qos := q, freeN := n } := by
  obtain ⟨l, h⟩ := sendResp_frame r op st sect false info ws m
  obtain ⟨p, h'⟩ := countN_frame st.toNat (some r.ctx) (some r.tc) 1 { m with out := l }
  obtain ⟨p', q, n, h''⟩ := departed_frame r.tc r.deadline.toNat (some r.ctx) st { m with out := l, pmc := p }
  exact ⟨l, p', q, n, by rw [respond, h, countR, h', h'']⟩

theorem answer_frame (r : Req) (op : BitVec 6) (st : BitVec 4) (m : Mach) :
    ∃ l p q n, answer r op st m = { m with out := l, pmc := p, qos := q, freeN := n } := respond_frame ..

theorem deny_frame (r : Req) (op : BitVec 6) (m : Mach) :
    ∃ l p q n, deny r op m = { m with out := l, pmc := p, qos := q, freeN := n } := by
  obtain ⟨l, p, q, n, h⟩ := answer_frame r op stDenied m
  obtain ⟨p', h'⟩ := countN_frame 0x010 (some r.ctx) (some r.tc) 1 { m with out := l, pmc := p, qos := q, freeN := n }
  exact ⟨l, p', q, n, by rw [deny, h, countR, h']⟩

theorem bounce_frame (r : Req) (op : BitVec 6) (m : Mach) :
    ∃ l p q n, bounce r op m = { m with out := l, pmc := p, qos := q, freeN := n } := by
  obtain ⟨l, p, q, n, h⟩ := answer_frame r op stMishomed m
  obtain ⟨p', h'⟩ := countN_frame 0x011 none none 1 { m with out := l, pmc := p, qos := q, freeN := n }
  exact ⟨l, p', q, n, by rw [bounce, h, count, h']⟩

/-- An error logged changes the log, the counters, the event ring and what has left. -/
theorem logErr_frame (fx : Fixed) (cls at_ loc : Nat) (m : Mach) :
    ∃ e p q l, logErr fx cls at_ loc m = { m with err := e, pmc := p, evq := q, out := l } := by
  have counted : ∀ (e : ErrSt), ∃ p, { count (0x023 + sevOf cls) { m with err := e } with
      pmc := addFix 7 1 (count (0x023 + sevOf cls) { m with err := e }).pmc } = { m with err := e, pmc := p } := by
    intro e
    obtain ⟨p, h⟩ := countN_frame (0x023 + sevOf cls) none none 1 { m with err := e }
    rw [count, h]
    exact ⟨_, rfl⟩
  have fresh : ∀ (e : ErrSt) (x : W64), ∃ e' p q l,
      (if sevOf cls ≥ 2 then post fx 0x06 x { count (0x023 + sevOf cls) { m with err := e } with
          pmc := addFix 7 1 (count (0x023 + sevOf cls) { m with err := e }).pmc }
       else { count (0x023 + sevOf cls) { m with err := e } with
          pmc := addFix 7 1 (count (0x023 + sevOf cls) { m with err := e }).pmc }) = { m with err := e', pmc := p, evq := q, out := l } := by
    intro e x
    obtain ⟨p, h⟩ := counted e
    rw [h]
    split
    · obtain ⟨q, l, h'⟩ := post_frame fx 0x06 x { m with err := e, pmc := p }
      exact ⟨e, p, q, l, h'⟩
    · exact ⟨e, p, m.evq, m.out, rfl⟩
  simp only [logErr]
  split
  · exact fresh _ _
  · split
    · split
      · exact ⟨m.err, m.pmc, m.evq, m.out, rfl⟩
      · obtain ⟨p, h⟩ := counted { m.err with log := m.err.log.dropLast ++ [((_ : W64), (_ : W64) + BitVec.ofNat 64 (2 ^ 56))] }
        exact ⟨_, p, m.evq, m.out, h⟩
    · exact fresh _ _

/-- A command that has not come by a ring ends: it is no more in progress, and its reply and event leave. -/
theorem complete_frame (fx : Fixed) (c : Rec) (st : Nat) (res : List W64) (m : Mach) (h : byRing c.pkt = false) :
    ∃ q l, complete fx c st res m =
      { m with cmds := { m.cmds with running := m.cmds.running.filter (·.cmd.id ≠ c.id) }, evq := q, out := l } := by
  have sent : ∀ n, ∃ l, sendReply c st res n = { n with out := l } := by
    intro n
    rw [sendReply]
    revert h
    rw [byRing]
    cases c.pkt.path with
    | ring f => intro h; cases h
    | _ => intro; exact emit_frame _ _
  obtain ⟨l, hl⟩ := sent { m with cmds := { m.cmds with running := m.cmds.running.filter (·.cmd.id ≠ c.id) } }
  simp only [complete, hl]
  split
  · obtain ⟨q, l', h'⟩ := post_frame fx 0x01 (BitVec.ofNat 64 (c.master.toNat * 2 ^ 48 + cTag c * 2 ^ 32 + c.opcode.toNat * 2 ^ 16 + st))
      { m with cmds := { m.cmds with running := m.cmds.running.filter (·.cmd.id ≠ c.id) }, out := l }
    exact ⟨q, l', h'⟩
  · exact ⟨m.evq, l, rfl⟩

/-- The clock moves on to the cycle that a timed command carries, and the counters of cycles with it. -/
theorem advance_frame (cyc : Nat) (m : Mach) : ∃ p, advance cyc m = { m with pmc := p, cyc := max cyc m.cyc } := by
  rw [advance]
  split
  · rename_i h
    exact ⟨m.pmc, by rw [Nat.max_eq_right h]⟩
  · rename_i h
    exact ⟨_, by rw [Nat.max_eq_left (by omega)]⟩

/-- A command that has run on ends as it would have ended at once. -/
theorem complete_runOn (fx : Fixed) (c : Rec) (p : Prog) (st : Nat) (res : List W64) (m : Mach) :
    complete fx c st res (runOn c p m) = complete fx c st res m := by
  simp only [complete, runOn, List.filter_append, List.filter_cons, ne_eq, decide_not, decide_true, Bool.not_true,
    Bool.false_eq_true, if_false, List.filter_nil, List.append_nil]

/-! ### The commands in progress play no part in what leaves -/

theorem emit_cmds (o : Out) (m : Mach) (k : Cmds) : emit o { m with cmds := k } = { emit o m with cmds := k } := by
  have e : clampedOut { m with cmds := k } o = clampedOut m o := by cases o <;> rfl
  rw [emit, emit, e]
  split <;> rfl

theorem post_cmds (fx : Fixed) (code : BitVec 8) (d : W64) (m : Mach) (k : Cmds) :
    post fx code d { m with cmds := k } = { post fx code d m with cmds := k } := by
  simp only [post]
  generalize (if m.evq.pend.length < 64 then _ else _ : Evq) = q
  cases m.evq.sbmir
  · rfl
  · exact emit_cmds _ { m with evq := q } k

/-! ### A chosen level plays no part in them -/

theorem emit_noLock (o : Out) (m : Mach) : noLock (emit o m) = emit o (noLock m) := by
  have k : clampedOut (noLock m) o = clampedOut m o := by cases o <;> rfl
  rw [emit, emit, k]
  split <;> rfl

theorem post_noLock (fx : Fixed) (code : BitVec 8) (d : W64) (m : Mach) : noLock (post fx code d m) = post fx code d (noLock m) := by
  simp only [post]
  have e : (noLock m).evq = m.evq := rfl
  rw [e]
  split
  · rw [emit_noLock]; rfl
  · rfl

theorem sendReply_noLock (c : Rec) (st : Nat) (res : List W64) (m : Mach) : noLock (sendReply c st res m) = sendReply c st res (noLock m) := by
  simp only [sendReply]
  cases c.pkt.path with
  | ring f => cases f <;> rfl
  | _ => exact emit_noLock _ _

theorem complete_noLock (fx : Fixed) (c : Rec) (st : Nat) (res : List W64) (m : Mach) :
    noLock (complete fx c st res m) = complete fx c st res (noLock m) := by
  simp only [complete]
  split
  · rw [post_noLock, sendReply_noLock]; rfl
  · rw [sendReply_noLock]; rfl

/-! ### None of them lets anything go on -/

theorem resting_emit {o : Out} {m : Mach} (h : resting m = true) : resting (emit o m) = true := by
  obtain ⟨l, e⟩ := emit_frame o m
  rw [e]; exact h

theorem resting_post {fx : Fixed} {code : BitVec 8} {d : W64} {m : Mach} (h : resting m = true) : resting (post fx code d m) = true := by
  obtain ⟨q, l, e⟩ := post_frame fx code d m
  rw [e]; exact h

theorem resting_countN {ev : Nat} {ctx : Option Ctx} {tc : Option (BitVec 4)} {n : Nat} {m : Mach} (h : resting m = true) :
    resting (countN ev ctx tc n m) = true := by
  obtain ⟨p, e⟩ := countN_frame ev ctx tc n m
  rw [e]; exact h

theorem resting_respond {r : Req} {op : BitVec 6} {st sect : BitVec 4} {info : BitVec 16} {ws : List W64} {m : Mach}
    (h : resting m = true) : resting (respond r op st sect info ws m) = true := by
  obtain ⟨l, p, q, n, e⟩ := respond_frame r op st sect info ws m
  rw [e]; exact h

theorem countN_apart (ev : Nat) (x : Option Ctx) (tc : Option (BitVec 4)) (n : Nat) (m : Mach) (k : Cmds) :
    countN ev x tc n { m with cmds := k } = { countN ev x tc n m with cmds := k } := by
  simp only [countN]
  split <;> rfl

/-- Logging an error neither reads nor writes the command channel. -/
theorem logErr_cmds (fx : Fixed) (cls at_ loc : Nat) (m : Mach) (k : Cmds) :
    logErr fx cls at_ loc { m with cmds := k } = { logErr fx cls at_ loc m with cmds := k } := by
  have hc : ∀ (e : ErrSt), count (0x023 + sevOf cls) { m with err := e, cmds := k } = { count (0x023 + sevOf cls) { m with err := e } with cmds := k } :=
    fun e => countN_apart _ none none 1 { m with err := e } k
  have hp : ∀ (e : ErrSt) (x : Mach) (d : W64), (if sevOf cls ≥ 2 then
      post fx 0x06 d { { x with cmds := k } with pmc := addFix 7 1 x.pmc } else { { x with cmds := k } with pmc := addFix 7 1 x.pmc }) =
      { (if sevOf cls ≥ 2 then post fx 0x06 d { x with pmc := addFix 7 1 x.pmc } else { x with pmc := addFix 7 1 x.pmc }) with cmds := k } := by
    intro e x d
    split
    · exact post_cmds fx 0x06 d { x with pmc := addFix 7 1 x.pmc } k
    · rfl
  simp only [logErr]
  split
  · simp only [hc]
    exact hp m.err _ _
  · split
    · split
      · rfl
      · simp only [hc]
    · simp only [hc]
      exact hp m.err _ _

theorem logErr_runOn (fx : Fixed) (cls at_ loc : Nat) (c : Rec) (p : Prog) (m : Mach) :
    logErr fx cls at_ loc (runOn c p m) = runOn c p (logErr fx cls at_ loc m) := by
  obtain ⟨e', a, b, l, e⟩ := logErr_frame fx cls at_ loc m
  rw [runOn, logErr_cmds, runOn, e]

theorem resting_logErr {fx : Fixed} {cls at_ loc : Nat} {m : Mach} (h : resting m = true) : resting (logErr fx cls at_ loc m) = true := by
  obtain ⟨e', p, q, l, e⟩ := logErr_frame fx cls at_ loc m
  rw [e]; exact h

theorem resting_complete {fx : Fixed} {c : Rec} {st : Nat} {res : List W64} {m : Mach} (hb : byRing c.pkt = false)
    (h : resting m = true) : resting (complete fx c st res m) = true := by
  obtain ⟨q, l, e⟩ := complete_frame fx c st res m hb
  rw [e]
  obtain ⟨calm, lock, wait⟩ := (resting_iff m).mp h
  exact (resting_iff _).mpr ⟨⟨calm.1, calm.2, calm.3, calm.4, calm.5, calm.6, calm.7, calm.8, calm.9,
    fun r hr => calm.runs r (List.mem_of_mem_filter hr), calm.11, calm.12, calm.13, calm.14, calm.15, calm.16, calm.17, calm.18, calm.19, calm.20, calm.21, calm.22, calm.23⟩, lock, wait⟩

theorem recOf_path (m : Mach) (w : BitVec 16) (p : CmdPkt) : (recOf m w p).pkt.path = p.path := by cases p; rfl

theorem Arrives.byRing {s : State} {i : Instr} {c : Rec} {m : Mach} (b : Arrives s i c m) : byRing c.pkt = false := by
  obtain ⟨p, -, hb, -, hc, -⟩ := b.row
  have e : c.pkt.path = p.path := (congrArg (fun r => r.pkt.path) hc).trans (recOf_path s.m c.master p)
  simp only [Machine.byRing] at hb ⊢
  rw [e]
  exact hb

/-- The opcode of a command that starts is its packet's. -/
theorem Arrives.opcode {s : State} {i : Instr} {c : Rec} {m : Mach} (b : Arrives s i c m) {p : CmdPkt}
    (hp : packetOf s.fx i = some p) : c.opcode = p.w0.extractLsb' 0 8 := by
  obtain ⟨q, hq, -, -, hc, -⟩ := b.row
  rw [hp] at hq
  cases hq
  rw [hc]; rfl

/-- The opcode of a row's packet is its row's. -/
theorem opcode_withOp (op : Byte) (p : CmdPkt) : (withOp op p).w0.extractLsb' 0 8 = op := by
  refine BitVec.eq_of_getLsbD_eq fun i hi => ?_
  simp only [withOp, BitVec.getLsbD_extractLsb', BitVec.getLsbD_or, BitVec.getLsbD_and, BitVec.getLsbD_setWidth, Nat.zero_add]
  have e : (0xFFFFFFFFFFFFFF00 : BitVec 64).getLsbD i = false := by interval_cases i <;> rfl
  rw [e]
  have : i < 64 := by omega
  simp [hi, this]

/-! ### Rows that are not commands -/

/-- What a row does: its own effect, and what follows. -/
theorem actM_goes {s : State} {f : Fixed → Mach → Mach} {m : Mach} (e : f s.fx s.m = m) : actM s f = .next (s.after m) := by
  rw [actM, act, e]
  rfl

/-- The same for a row that carries the control cycle. -/
theorem actAt_goes {s : State} {cyc : Nat} {f : Fixed → Mach → Mach} {m : Mach} (e : f s.fx (advance cyc s.m) = m) :
    actAt s cyc f = .next (s.after m) := actM_goes e

/-- A row whose own effect leaves nothing that can go on. -/
theorem actM_rest {s : State} {f : Fixed → Mach → Mach} {m : Mach} (e : f s.fx s.m = m) (h : resting m = true) : actM s f = .next (s.put m) := by
  rw [actM, act, e, finish_resting s.fx h]

/-- The same for a row that carries the control cycle. -/
theorem actAt_rest {s : State} {cyc : Nat} {f : Fixed → Mach → Mach} {m : Mach} (e : f s.fx (advance cyc s.m) = m) (h : resting m = true) :
    actAt s cyc f = .next (s.put m) := actM_rest e h

/-- The same for a row that may change the fixed part. -/
theorem act_rest {s : State} {f : Fixed → Mach → Fixed × Mach} {fx : Fixed} {m : Mach} (e : f s.fx s.m = (fx, m)) (h : resting m = true) :
    act s f = .next { s with fx := fx, m := m } := by
  rw [act, e, finish_resting fx h]

theorem resting_advance {m : Mach} {cyc : Nat} (h : resting m = true) : resting (advance cyc m) = true := by
  obtain ⟨p, hp⟩ := advance_frame cyc m
  rw [hp]; exact h

/-- The commands in progress replaced by others that wait for something else. -/
theorem resting_running {m : Mach} {l : List Run} (h : resting m = true) (hl : ∀ r ∈ l, runRests m r.prog = true) :
    resting { m with cmds := { m.cmds with running := l } } = true := by
  obtain ⟨k, lk, w⟩ := (resting_iff m).mp h
  exact (resting_iff _).mpr ⟨⟨k.1, k.2, k.3, k.4, k.5, k.6, k.7, k.8, k.9, hl, k.11, k.12, k.13, k.14, k.15, k.16, k.17, k.18, k.19, k.20, k.21, k.22, k.23⟩, lk, w⟩

end Sys2Proof.Machine
end

