-- ==== Sys2Proof/Laws/Awake.lean ====
section
/-! SUPPORT. What the shared looks at the domains, the arrays and the directory find where all is ready and sound: nothing to do. -/

namespace Sys2Proof.Machine

theorem sound_errs {m : Mach} (h : sound m = true) : m.cache.errs = .none := by simpa [sound] using h

theorem scanSet_sound {m : Mach} (fx : Fixed) (set : Nat) (h : sound m = true) : scanSet fx set m = m := by
  simp [scanSet, sound_errs h, ArrErr.none]

theorem scanDir_sound {m : Mach} (fx : Fixed) (l : LineNo) (h : sound m = true) : scanDir fx l m = m := by
  simp [scanDir, sound_errs h, ArrErr.none]

theorem scanWay_sound {m : Mach} (fx : Fixed) (set way : Nat) (s : BitVec 4) (h : sound m = true) : scanWay fx set way s m = (m, .clean) := by
  simp [scanWay, sound_errs h, ArrErr.none]

theorem clearWords_sound {m : Mach} (set way : Nat) (s : BitVec 4) (h : sound m = true) : clearWords set way s m = m := by
  simp [clearWords, sound_errs h, ArrErr.none]

theorem scanAcc_sound {m : Mach} (fx : Fixed) (k : Nat) (h : sound m = true) : scanAcc fx k m = m := by
  simp [scanAcc, sound_errs h, ArrErr.none]

theorem scanSync_sound {m : Mach} (fx : Fixed) (i : BitVec 14) (h : sound m = true) : scanSync fx i m = m := by
  simp [scanSync, sound_errs h, ArrErr.none]

theorem scanManifest_sound {m : Mach} (fx : Fixed) (r : Req) (h : sound m = true) : scanManifest fx r m = m := by
  rw [scanManifest, scanSync_sound fx r.manifest h, ite_self]

theorem scanBerth_sound {m : Mach} (fx : Fixed) (set way : Nat) (s : BitVec 4) (b off : Nat) (h : sound m = true) :
    scanBerth fx set way s b off m = (m, false) := by
  simp [scanBerth, sound_errs h, ArrErr.none]

theorem dropReloads_none {m : Mach} (h : m.berth.reloads = []) (p : Reload → Bool) : dropReloads p m = m := by
  rw [dropReloads, h, List.any_nil, if_neg Bool.false_ne_true]

/-- With no reload under way, a berth line that loses its source is marked so and no more. -/
theorem unmarkSource_none {m : Mach} (h : m.berth.reloads = []) (i : Nat) :
    unmarkSource i m = if (berthOf m i).srcv then setBerth i { berthOf m i with srcv := false } m else m := by
  rw [unmarkSource]
  simp only [dropReloads_none (show (setBerth i { berthOf m i with srcv := false } m).berth.reloads = [] from h)]

theorem resting_unmark {i : Nat} {m : Mach} (h : resting m = true) : resting (unmarkSource i m) = true := by
  rw [unmarkSource_none ((resting_iff m).mp h).1.reloads]
  split
  · exact h
  · exact h

theorem dirFind_nil {m : Mach} (h : m.dir.ents = []) (l : LineNo) : dirFind m l = none := by
  simp only [dirFind]
  rw [List.find?_eq_none]
  intro x hx
  have e : dirEnt m x = .free := by rw [dirEnt, h]; rfl
  have f : dirFree .free = true := by decide
  simp [e, f]

/-- Where no host holds anything, the directory lets every access go. -/
theorem dirGate_empty {m : Mach} (fx : Fixed) (l : LineNo) (wr sn dp : Bool) (hs : List Bool) (h1 : m.dir.ents = []) (h2 : m.dir.recalls = [])
    (h3 : m.dir.reclaim = none) : dirGate fx l wr sn dp hs m = .go m := by
  simp [dirGate, dirSetHeld, dirFind_nil h1, h2, h3]

end Sys2Proof.Machine
end

