-- ==== Sys2Proof/Laws/Bare.lean ====
section
/-! SUPPORT. A context with nothing at the slice: what its teardown finds. -/

namespace Sys2Proof.Machine

/-- What `bare` says, part by part. -/
structure Bare (m : Mach) (c : Ctx) (g : Gen) : Prop where
  running : m.cmds.running = []
  replay : m.cache.replay = []
  tickets : m.cache.tickets = []
  writes : m.cache.writes = []
  fills : m.sparse.fills = []
  qN : m.red.qN = []
  qS : m.red.qS = []
  counts : m.sync.coalWait = []
  hops : m.red.hops = []
  waits : m.sync.waits = []
  owned : ownedCount m c g = 0
  members : ∀ x ∈ m.sync.members, x.2.any (·.1 = c) = false
  objs : ∀ x ∈ m.sync.objs, ((syncObj m (BitVec.ofNat 14 x.1)).valid && !(syncObj m (BitVec.ofNat 14 x.1)).orphan &&
    decide ((syncObj m (BitVec.ofNat 14 x.1)).owner = c) && decide ((syncObj m (BitVec.ofNat 14 x.1)).ogen = g)) = false

theorem bare_iff {m : Mach} {c : Ctx} {g : Gen} : bare m c g = true ↔ Bare m c g := by
  constructor
  · intro h
    simp only [bare, Bool.and_eq_true, List.isEmpty_iff, decide_eq_true_eq, List.all_eq_true, Bool.not_eq_true'] at h
    obtain ⟨⟨⟨⟨⟨⟨⟨⟨⟨⟨⟨⟨a, b⟩, c⟩, d⟩, e⟩, f⟩, g⟩, o⟩, i⟩, j⟩, k⟩, l⟩, n⟩ := h
    exact ⟨a, b, c, d, e, f, g, o, i, j, k, l, n⟩
  · rintro ⟨a, b, c, d, e, f, g, o, i, j, k, l, n⟩
    simp only [bare, Bool.and_eq_true, List.isEmpty_iff, decide_eq_true_eq, List.all_eq_true, Bool.not_eq_true']
    exact ⟨⟨⟨⟨⟨⟨⟨⟨⟨⟨⟨⟨a, b⟩, c⟩, d⟩, e⟩, f⟩, g⟩, o⟩, i⟩, j⟩, k⟩, l⟩, n⟩

theorem Bare.dropMemberships {m : Mach} {c : Ctx} {g : Gen} (fx : Fixed) (h : Bare m c g) : dropMemberships fx c m = m := by
  rw [Machine.dropMemberships]
  exact foldl_keeps _ _ _ fun x hx => by simp [h.members x hx]

theorem Bare.purgeObjects {m : Mach} {c : Ctx} {g : Gen} (fx : Fixed) (h : Bare m c g) : purgeObjects fx c g m = m := by
  rw [Machine.purgeObjects]
  exact foldl_keeps _ _ _ fun x hx => by simp only [h.objs x hx, Bool.false_eq_true, if_false]

/-- What a context owns none of. -/
theorem Bare.none {m : Mach} {c : Ctx} {g : Gen} (h : Bare m c g) :
    (m.berth.berths.filter fun x => (x.2.valid || x.2.freeing) && decide (x.2.ctx = c)) = [] ∧
    (m.berth.arenas.filter fun x => x.2.valid && decide (x.2.ctx = c)) = [] ∧
    (m.berth.ferries.filter fun x => x.2.valid && decide (x.2.ctx = c)) = [] ∧
    (m.red.tiles.filter fun x => x.2.valid && decide (x.2.ctx = c)) = [] ∧
    (m.sparse.scat.filter fun x => x.2.valid && decide (x.2.ctx = c)) = [] ∧
    (m.sync.objs.filter fun x => x.2.valid && !x.2.orphan && decide (x.2.owner = c) && decide (x.2.ogen = g)) = [] := by
  have o := h.owned
  simp only [ownedCount, ownedObjs] at o
  simp only [← List.length_eq_zero_iff]
  omega

end Sys2Proof.Machine
end

