-- ==== Sys2Proof/Laws/Opcodes.lean ====
section
/-! SUPPORT. What each command row does once it may start: the meaning its opcode selects (03 Table CMD-6). -/

namespace Sys2Proof.Machine

theorem opcode_withFlag (k : Nat) (p : CmdPkt) : (withFlag k p).w0.extractLsb' 0 8 = p.w0.extractLsb' 0 8 := by
  refine BitVec.eq_of_getLsbD_eq fun i hi => ?_
  simp only [withFlag, BitVec.getLsbD_extractLsb', BitVec.getLsbD_or, BitVec.getLsbD_shiftLeft, Nat.zero_add]
  have : i < 12 + k := by omega
  simp [this]

/-- A row's flag is set in its command. -/
theorem Arrives.flag {s : State} {i : Instr} {c : Rec} {m : Mach} (b : Arrives s i c m) {k : Nat} (hk : k < 4) {p : CmdPkt}
    (hp : packetOf s.fx i = some (withFlag k p)) : cFlag c k = true := by
  obtain ⟨q, hq, -, -, hc, -⟩ := b.row
  rw [hp] at hq
  cases hq
  have e : c.pkt.w0 = (withFlag k p).w0 := (congrArg (fun r => r.pkt.w0) hc).trans (by cases p; rfl)
  simp only [cFlag, bit, e, withFlag, BitVec.getLsbD_or, BitVec.getLsbD_shiftLeft]
  have : 12 + k < 64 := by omega
  simp [this]

theorem start_nop {s : State} {p : CmdPkt} {c : Rec} {m : Mach} (b : Begins s (.nop p) c m) :
    startCmd s.fx c false m = cmdNop s.fx c m := by
  have h : c.opcode = 0x00 := (b.opcode (p := withOp 0x00 p) rfl).trans (opcode_withOp _ p)
  simp [startCmd, startLow, h]

theorem start_identify {s : State} {p : CmdPkt} {c : Rec} {m : Mach} (b : Begins s (.identify p) c m) :
    startCmd s.fx c false m = cmdIdentify s.fx c m := by
  have h : c.opcode = 0x01 := (b.opcode (p := withOp 0x01 p) rfl).trans (opcode_withOp _ p)
  simp [startCmd, startLow, h]

theorem start_pilotClaim {s : State} {p : CmdPkt} {c : Rec} {m : Mach} (b : Begins s (.pilotClaim p) c m) :
    startCmd s.fx c false m = cmdPilotClaim s.fx c m := by
  have h : c.opcode = 0x02 := (b.opcode (p := withOp 0x02 p) rfl).trans (opcode_withOp _ p)
  simp [startCmd, startLow, h]

theorem start_pilotRelease {s : State} {p : CmdPkt} {c : Rec} {m : Mach} (b : Begins s (.pilotRelease p) c m) :
    startCmd s.fx c false m = cmdPilotRelease s.fx c m := by
  have h : c.opcode = 0x03 := (b.opcode (p := withOp 0x03 p) rfl).trans (opcode_withOp _ p)
  simp [startCmd, startLow, h]

theorem start_pilotHandover {s : State} {p : CmdPkt} {c : Rec} {m : Mach} (b : Begins s (.pilotHandover p) c m) :
    startCmd s.fx c false m = cmdPilotHandover s.fx c m := by
  have h : c.opcode = 0x04 := (b.opcode (p := withOp 0x04 p) rfl).trans (opcode_withOp _ p)
  simp [startCmd, startLow, h]

theorem start_leaseRenew {s : State} {p : CmdPkt} {c : Rec} {m : Mach} (b : Begins s (.leaseRenew p) c m) :
    startCmd s.fx c false m = cmdLeaseRenew s.fx c m := by
  have h : c.opcode = 0x05 := (b.opcode (p := withOp 0x05 p) rfl).trans (opcode_withOp _ p)
  simp [startCmd, startLow, h]

theorem start_stateQuery {s : State} {p : CmdPkt} {c : Rec} {m : Mach} (b : Begins s (.stateQuery p) c m) :
    startCmd s.fx c false m = cmdStateQuery s.fx c m := by
  have h : c.opcode = 0x06 := (b.opcode (p := withOp 0x06 p) rfl).trans (opcode_withOp _ p)
  simp [startCmd, startLow, h]

theorem start_levelLock {s : State} {p : CmdPkt} {c : Rec} {m : Mach} (b : Begins s (.levelLock p) c m) :
    startCmd s.fx c false m = cmdLevelLock s.fx c m := by
  have h : c.opcode = 0x07 := (b.opcode (p := withOp 0x07 p) rfl).trans (opcode_withOp _ p)
  simp [startCmd, startLow, h]

theorem start_ctxOpen {s : State} {p : CmdPkt} {c : Rec} {m : Mach} (b : Begins s (.ctxOpen p) c m) :
    startCmd s.fx c false m = cmdCtxOpen s.fx c m := by
  have h : c.opcode = 0x10 := (b.opcode (p := withOp 0x10 p) rfl).trans (opcode_withOp _ p)
  simp [startCmd, startLow, h]

theorem start_ctxSetClass {s : State} {p : CmdPkt} {c : Rec} {m : Mach} (b : Begins s (.ctxSetClass p) c m) :
    startCmd s.fx c false m = cmdCtxSetClass s.fx c m := by
  have h : c.opcode = 0x11 := (b.opcode (p := withOp 0x11 p) rfl).trans (opcode_withOp _ p)
  simp [startCmd, startLow, h]

theorem start_ctxSuspend {s : State} {p : CmdPkt} {c : Rec} {m : Mach} (b : Begins s (.ctxSuspend p) c m) :
    startCmd s.fx c false m = cmdCtxSuspend s.fx c m := by
  have h : c.opcode = 0x12 := (b.opcode (p := withOp 0x12 p) rfl).trans (opcode_withOp _ p)
  simp [startCmd, startLow, h]

theorem start_ctxResume {s : State} {p : CmdPkt} {c : Rec} {m : Mach} (b : Begins s (.ctxResume p) c m) :
    startCmd s.fx c false m = cmdCtxResume s.fx c m := by
  have h : c.opcode = 0x13 := (b.opcode (p := withOp 0x13 p) rfl).trans (opcode_withOp _ p)
  simp [startCmd, startLow, h]

theorem start_ctxPurge {s : State} {p : CmdPkt} {c : Rec} {m : Mach} (b : Begins s (.ctxPurge p) c m) :
    startCmd s.fx c false m = cmdCtxPurge s.fx c m := by
  have h : c.opcode = 0x14 := (b.opcode (p := withOp 0x14 p) rfl).trans (opcode_withOp _ p)
  simp [startCmd, startLow, h]

theorem start_ctxClose {s : State} {p : CmdPkt} {c : Rec} {m : Mach} (b : Begins s (.ctxClose p) c m) :
    startCmd s.fx c false m = cmdCtxClose s.fx c m := by
  have h : c.opcode = 0x15 := (b.opcode (p := withOp 0x15 p) rfl).trans (opcode_withOp _ p)
  simp [startCmd, startLow, h]

theorem start_ctxQuarantine {s : State} {p : CmdPkt} {c : Rec} {m : Mach} (b : Begins s (.ctxQuarantine p) c m) :
    startCmd s.fx c false m = if cFlag c 0 then cmdQuarantineRelease s.fx c m else cmdQuarantine s.fx c m := by
  have h : c.opcode = 0x16 := (b.opcode (p := withOp 0x16 p) rfl).trans (opcode_withOp _ p)
  simp [startCmd, startLow, h]

theorem start_ctxQuarantineRelease {s : State} {p : CmdPkt} {c : Rec} {m : Mach} (b : Begins s (.ctxQuarantineRelease p) c m) :
    startCmd s.fx c false m = cmdQuarantineRelease s.fx c m := by
  have h : c.opcode = 0x16 := (b.opcode (p := withFlag 0 (withOp 0x16 p)) rfl).trans ((opcode_withFlag _ _).trans (opcode_withOp _ p))
  have f := b.flag (k := 0) (by omega) (p := withOp 0x16 p) rfl
  simp [startCmd, startLow, h, f]

theorem start_berthAlloc {s : State} {p : CmdPkt} {c : Rec} {m : Mach} (b : Begins s (.berthAlloc p) c m) :
    startCmd s.fx c false m = if c.pkt.p1 = 0 then cmdBerthAlloc s.fx c m else cmdObjAlloc s.fx c m := by
  have h : c.opcode = 0x20 := (b.opcode (p := withOp 0x20 p) rfl).trans (opcode_withOp _ p)
  simp [startCmd, startAlloc, h]

theorem start_arenaObjectAlloc {s : State} {p : CmdPkt} {c : Rec} {m : Mach} (b : Begins s (.arenaObjectAlloc p) c m) :
    startCmd s.fx c false m = if c.pkt.p1 = 0 then cmdBerthAlloc s.fx c m else cmdObjAlloc s.fx c m := by
  have h : c.opcode = 0x20 := (b.opcode (p := withOp 0x20 p) rfl).trans (opcode_withOp _ p)
  simp [startCmd, startAlloc, h]

theorem start_berthFree {s : State} {p : CmdPkt} {c : Rec} {m : Mach} (b : Begins s (.berthFree p) c m) :
    startCmd s.fx c false m = if hKind c.pkt.p0 = 2 then cmdObjFree s.fx c m else if cFlag c 0 then cmdBerthAbort s.fx c m else cmdBerthFree s.fx c m := by
  have h : c.opcode = 0x21 := (b.opcode (p := withOp 0x21 p) rfl).trans (opcode_withOp _ p)
  simp [startCmd, startAlloc, h]

theorem start_berthFreeAbort {s : State} {p : CmdPkt} {c : Rec} {m : Mach} (b : Begins s (.berthFreeAbort p) c m) :
    startCmd s.fx c false m = if hKind c.pkt.p0 = 2 then cmdObjFree s.fx c m else cmdBerthAbort s.fx c m := by
  have h : c.opcode = 0x21 := (b.opcode (p := withFlag 0 (withOp 0x21 p)) rfl).trans ((opcode_withFlag _ _).trans (opcode_withOp _ p))
  have f := b.flag (k := 0) (by omega) (p := withOp 0x21 p) rfl
  simp [startCmd, startAlloc, h, f]

theorem start_arenaObjectFree {s : State} {p : CmdPkt} {c : Rec} {m : Mach} (b : Begins s (.arenaObjectFree p) c m) :
    startCmd s.fx c false m = if hKind c.pkt.p0 = 2 then cmdObjFree s.fx c m else if cFlag c 0 then cmdBerthAbort s.fx c m else cmdBerthFree s.fx c m := by
  have h : c.opcode = 0x21 := (b.opcode (p := withOp 0x21 p) rfl).trans (opcode_withOp _ p)
  simp [startCmd, startAlloc, h]

theorem start_berthResize {s : State} {p : CmdPkt} {c : Rec} {m : Mach} (b : Begins s (.berthResize p) c m) :
    startCmd s.fx c false m = cmdBerthResize s.fx c m := by
  have h : c.opcode = 0x22 := (b.opcode (p := withOp 0x22 p) rfl).trans (opcode_withOp _ p)
  simp [startCmd, startAlloc, h]

theorem start_arenaGrant {s : State} {p : CmdPkt} {c : Rec} {m : Mach} (b : Begins s (.arenaGrant p) c m) :
    startCmd s.fx c false m = cmdArenaGrant s.fx c m := by
  have h : c.opcode = 0x23 := (b.opcode (p := withOp 0x23 p) rfl).trans (opcode_withOp _ p)
  simp [startCmd, startAlloc, h]

theorem start_arenaRevoke {s : State} {p : CmdPkt} {c : Rec} {m : Mach} (b : Begins s (.arenaRevoke p) c m) :
    startCmd s.fx c false m = cmdArenaRevoke s.fx c m := by
  have h : c.opcode = 0x24 := (b.opcode (p := withOp 0x24 p) rfl).trans (opcode_withOp _ p)
  simp [startCmd, startAlloc, h]

theorem start_queueCreate {s : State} {p : CmdPkt} {c : Rec} {m : Mach} (b : Begins s (.queueCreate p) c m) :
    startCmd s.fx c false m = cmdQueueCreate s.fx c m := by
  have h : c.opcode = 0x25 := (b.opcode (p := withOp 0x25 p) rfl).trans (opcode_withOp _ p)
  simp [startCmd, startAlloc, h]

theorem start_queueDestroy {s : State} {p : CmdPkt} {c : Rec} {m : Mach} (b : Begins s (.queueDestroy p) c m) :
    startCmd s.fx c false m = cmdQueueDestroy s.fx c m := by
  have h : c.opcode = 0x26 := (b.opcode (p := withOp 0x26 p) rfl).trans (opcode_withOp _ p)
  simp [startCmd, startAlloc, h]

theorem start_pinBudget {s : State} {p : CmdPkt} {c : Rec} {m : Mach} (b : Begins s (.pinBudget p) c m) :
    startCmd s.fx c false m = cmdPinBudget s.fx c m := by
  have h : c.opcode = 0x27 := (b.opcode (p := withOp 0x27 p) rfl).trans (opcode_withOp _ p)
  simp [startCmd, startAlloc, h]

theorem start_copy {s : State} {p : CmdPkt} {c : Rec} {m : Mach} (b : Begins s (.copy p) c m) :
    startCmd s.fx c false m = cmdCopy s.fx c false m := by
  have h : c.opcode = 0x30 := (b.opcode (p := withOp 0x30 p) rfl).trans (opcode_withOp _ p)
  simp [startCmd, startAlloc, h]

theorem start_copyMeasure {s : State} {p : CmdPkt} {c : Rec} {m : Mach} (b : Begins s (.copyMeasure p) c m) :
    startCmd s.fx c false m = cmdCopyMeasure s.fx c false m := by
  have h : c.opcode = 0x31 := (b.opcode (p := withOp 0x31 p) rfl).trans (opcode_withOp _ p)
  simp [startCmd, startAlloc, h]

theorem start_rangeClean {s : State} {p : CmdPkt} {c : Rec} {m : Mach} (b : Begins s (.rangeClean p) c m) :
    startCmd s.fx c false m = cmdRangeClean s.fx c m := by
  have h : c.opcode = 0x32 := (b.opcode (p := withOp 0x32 p) rfl).trans (opcode_withOp _ p)
  simp [startCmd, startAlloc, h]

theorem start_rangeInval {s : State} {p : CmdPkt} {c : Rec} {m : Mach} (b : Begins s (.rangeInval p) c m) :
    startCmd s.fx c false m = cmdRangeInval s.fx c m := by
  have h : c.opcode = 0x33 := (b.opcode (p := withOp 0x33 p) rfl).trans (opcode_withOp _ p)
  simp [startCmd, startAlloc, h]

theorem start_rangeFlush {s : State} {p : CmdPkt} {c : Rec} {m : Mach} (b : Begins s (.rangeFlush p) c m) :
    startCmd s.fx c false m = cmdRangeFlush s.fx c m := by
  have h : c.opcode = 0x34 := (b.opcode (p := withOp 0x34 p) rfl).trans (opcode_withOp _ p)
  simp [startCmd, startAlloc, h]

theorem start_rangeZero {s : State} {p : CmdPkt} {c : Rec} {m : Mach} (b : Begins s (.rangeZero p) c m) :
    startCmd s.fx c false m = cmdRangeZero s.fx c false m := by
  have h : c.opcode = 0x35 := (b.opcode (p := withOp 0x35 p) rfl).trans (opcode_withOp _ p)
  simp [startCmd, startAlloc, h]

theorem start_sparsePack {s : State} {p : CmdPkt} {c : Rec} {m : Mach} (b : Begins s (.sparsePack p) c m) :
    startCmd s.fx c false m = cmdSparsePack s.fx c m := by
  have h : c.opcode = 0x36 := (b.opcode (p := withOp 0x36 p) rfl).trans (opcode_withOp _ p)
  simp [startCmd, startAlloc, h]

theorem start_sparseUnpack {s : State} {p : CmdPkt} {c : Rec} {m : Mach} (b : Begins s (.sparseUnpack p) c m) :
    startCmd s.fx c false m = cmdSparseUnpack s.fx c m := by
  have h : c.opcode = 0x37 := (b.opcode (p := withOp 0x37 p) rfl).trans (opcode_withOp _ p)
  simp [startCmd, startAlloc, h]

theorem start_acquireSweep {s : State} {p : CmdPkt} {c : Rec} {m : Mach} (b : Begins s (.acquireSweep p) c m) :
    startCmd s.fx c false m = cmdSweep s.fx c m := by
  have h : c.opcode = 0x38 := (b.opcode (p := withOp 0x38 p) rfl).trans (opcode_withOp _ p)
  simp [startCmd, startAlloc, h]

theorem start_tileOpen {s : State} {p : CmdPkt} {c : Rec} {m : Mach} (b : Begins s (.tileOpen p) c m) :
    startCmd s.fx c false m = cmdTileOpen s.fx c m := by
  have h : c.opcode = 0x40 := (b.opcode (p := withOp 0x40 p) rfl).trans (opcode_withOp _ p)
  simp [startCmd, startObjects, h]

theorem start_tileClose {s : State} {p : CmdPkt} {c : Rec} {m : Mach} (b : Begins s (.tileClose p) c m) :
    startCmd s.fx c false m = cmdTileClose s.fx c false m := by
  have h : c.opcode = 0x41 := (b.opcode (p := withOp 0x41 p) rfl).trans (opcode_withOp _ p)
  simp [startCmd, startObjects, h]

theorem start_tileDiscard {s : State} {p : CmdPkt} {c : Rec} {m : Mach} (b : Begins s (.tileDiscard p) c m) :
    startCmd s.fx c false m = cmdTileDiscard s.fx c m := by
  have h : c.opcode = 0x42 := (b.opcode (p := withOp 0x42 p) rfl).trans (opcode_withOp _ p)
  simp [startCmd, startObjects, h]

theorem start_towlineSet {s : State} {p : CmdPkt} {c : Rec} {m : Mach} (b : Begins s (.towlineSet p) c m) :
    startCmd s.fx c false m = if cFlag c 0 then cmdTowRelease s.fx c m else cmdTowSet s.fx c m := by
  have h : c.opcode = 0x43 := (b.opcode (p := withOp 0x43 p) rfl).trans (opcode_withOp _ p)
  simp [startCmd, startObjects, h]

theorem start_towlineRelease {s : State} {p : CmdPkt} {c : Rec} {m : Mach} (b : Begins s (.towlineRelease p) c m) :
    startCmd s.fx c false m = cmdTowRelease s.fx c m := by
  have h : c.opcode = 0x43 := (b.opcode (p := withFlag 0 (withOp 0x43 p)) rfl).trans ((opcode_withFlag _ _).trans (opcode_withOp _ p))
  have f := b.flag (k := 0) (by omega) (p := withOp 0x43 p) rfl
  simp [startCmd, startObjects, h, f]

theorem start_scatterDescCreate {s : State} {p : CmdPkt} {c : Rec} {m : Mach} (b : Begins s (.scatterDescCreate p) c m) :
    startCmd s.fx c false m = if cFlag c 0 then cmdScatRelease s.fx c m else if cFlag c 1 then cmdScatQuery s.fx c m else cmdScatCreate s.fx c m := by
  have h : c.opcode = 0x44 := (b.opcode (p := withOp 0x44 p) rfl).trans (opcode_withOp _ p)
  simp [startCmd, startObjects, h]

theorem start_scatterDescRelease {s : State} {p : CmdPkt} {c : Rec} {m : Mach} (b : Begins s (.scatterDescRelease p) c m) :
    startCmd s.fx c false m = cmdScatRelease s.fx c m := by
  have h : c.opcode = 0x44 := (b.opcode (p := withFlag 0 (withOp 0x44 p)) rfl).trans ((opcode_withFlag _ _).trans (opcode_withOp _ p))
  have f := b.flag (k := 0) (by omega) (p := withOp 0x44 p) rfl
  simp [startCmd, startObjects, h, f]

theorem start_scatterDescQuery {s : State} {p : CmdPkt} {c : Rec} {m : Mach} (b : Begins s (.scatterDescQuery p) c m) :
    startCmd s.fx c false m = if cFlag c 0 then cmdScatRelease s.fx c m else cmdScatQuery s.fx c m := by
  have h : c.opcode = 0x44 := (b.opcode (p := withFlag 1 (withOp 0x44 p)) rfl).trans ((opcode_withFlag _ _).trans (opcode_withOp _ p))
  have f := b.flag (k := 1) (by omega) (p := withOp 0x44 p) rfl
  simp [startCmd, startObjects, h, f]

theorem start_tileQuery {s : State} {p : CmdPkt} {c : Rec} {m : Mach} (b : Begins s (.tileQuery p) c m) :
    startCmd s.fx c false m = cmdTileQuery s.fx c m := by
  have h : c.opcode = 0x45 := (b.opcode (p := withOp 0x45 p) rfl).trans (opcode_withOp _ p)
  simp [startCmd, startObjects, h]

theorem start_syncCreate {s : State} {p : CmdPkt} {c : Rec} {m : Mach} (b : Begins s (.syncCreate p) c m) :
    startCmd s.fx c false m = cmdSyncCreate s.fx c m := by
  have h : c.opcode = 0x50 := (b.opcode (p := withOp 0x50 p) rfl).trans (opcode_withOp _ p)
  simp [startCmd, startObjects, h]

theorem start_syncDestroy {s : State} {p : CmdPkt} {c : Rec} {m : Mach} (b : Begins s (.syncDestroy p) c m) :
    startCmd s.fx c false m = cmdSyncDestroy s.fx c m := by
  have h : c.opcode = 0x51 := (b.opcode (p := withOp 0x51 p) rfl).trans (opcode_withOp _ p)
  simp [startCmd, startObjects, h]

theorem start_syncSet {s : State} {p : CmdPkt} {c : Rec} {m : Mach} (b : Begins s (.syncSet p) c m) :
    startCmd s.fx c false m = cmdSyncSet s.fx c m := by
  have h : c.opcode = 0x52 := (b.opcode (p := withOp 0x52 p) rfl).trans (opcode_withOp _ p)
  simp [startCmd, startObjects, h]

theorem start_syncQuery {s : State} {p : CmdPkt} {c : Rec} {m : Mach} (b : Begins s (.syncQuery p) c m) :
    startCmd s.fx c false m = cmdSyncQuery s.fx c m := by
  have h : c.opcode = 0x53 := (b.opcode (p := withOp 0x53 p) rfl).trans (opcode_withOp _ p)
  simp [startCmd, startObjects, h]

theorem start_syncShare {s : State} {p : CmdPkt} {c : Rec} {m : Mach} (b : Begins s (.syncShare p) c m) :
    startCmd s.fx c false m = if cFlag c 0 then cmdSyncUnshare s.fx c m else cmdSyncShare s.fx c m := by
  have h : c.opcode = 0x54 := (b.opcode (p := withOp 0x54 p) rfl).trans (opcode_withOp _ p)
  simp [startCmd, startObjects, h]

theorem start_syncShareRemove {s : State} {p : CmdPkt} {c : Rec} {m : Mach} (b : Begins s (.syncShareRemove p) c m) :
    startCmd s.fx c false m = cmdSyncUnshare s.fx c m := by
  have h : c.opcode = 0x54 := (b.opcode (p := withFlag 0 (withOp 0x54 p)) rfl).trans ((opcode_withFlag _ _).trans (opcode_withOp _ p))
  have f := b.flag (k := 0) (by omega) (p := withOp 0x54 p) rfl
  simp [startCmd, startObjects, h, f]

theorem start_jamExport {s : State} {p : CmdPkt} {c : Rec} {m : Mach} (b : Begins s (.jamExport p) c m) :
    startCmd s.fx c false m = cmdJamExport s.fx c m := by
  have h : c.opcode = 0x55 := (b.opcode (p := withOp 0x55 p) rfl).trans (opcode_withOp _ p)
  simp [startCmd, startObjects, h]

theorem start_classSet {s : State} {p : CmdPkt} {c : Rec} {m : Mach} (b : Begins s (.classSet p) c m) :
    startCmd s.fx c false m = cmdClassSet s.fx c m := by
  have h : c.opcode = 0x60 := (b.opcode (p := withOp 0x60 p) rfl).trans (opcode_withOp _ p)
  simp [startCmd, startObjects, h]

theorem start_reserveBw {s : State} {p : CmdPkt} {c : Rec} {m : Mach} (b : Begins s (.reserveBw p) c m) :
    startCmd s.fx c false m = cmdReserve s.fx c m := by
  have h : c.opcode = 0x61 := (b.opcode (p := withOp 0x61 p) rfl).trans (opcode_withOp _ p)
  simp [startCmd, startObjects, h]

theorem start_releaseBw {s : State} {p : CmdPkt} {c : Rec} {m : Mach} (b : Begins s (.releaseBw p) c m) :
    startCmd s.fx c false m = cmdUnreserve s.fx c m := by
  have h : c.opcode = 0x62 := (b.opcode (p := withOp 0x62 p) rfl).trans (opcode_withOp _ p)
  simp [startCmd, startObjects, h]

theorem start_latencyTolerance {s : State} {p : CmdPkt} {c : Rec} {m : Mach} (b : Begins s (.latencyTolerance p) c m) :
    startCmd s.fx c false m = cmdTolerance s.fx c m := by
  have h : c.opcode = 0x70 := (b.opcode (p := withOp 0x70 p) rfl).trans (opcode_withOp _ p)
  simp [startCmd, startObjects, h]

theorem start_seasonQuery {s : State} {p : CmdPkt} {c : Rec} {m : Mach} (b : Begins s (.seasonQuery p) c m) :
    startCmd s.fx c false m = cmdSeasonQuery s.fx c m := by
  have h : c.opcode = 0x71 := (b.opcode (p := withOp 0x71 p) rfl).trans (opcode_withOp _ p)
  simp [startCmd, startObjects, h]

theorem start_thawGrant {s : State} {p : CmdPkt} {c : Rec} {m : Mach} (b : Begins s (.thawGrant p) c m) :
    startCmd s.fx c false m = cmdThawGrant s.fx c m := by
  have h : c.opcode = 0x72 := (b.opcode (p := withOp 0x72 p) rfl).trans (opcode_withOp _ p)
  simp [startCmd, startObjects, h]

theorem start_keyBind {s : State} {p : CmdPkt} {c : Rec} {m : Mach} (b : Begins s (.keyBind p) c m) :
    startCmd s.fx c false m = if cFlag c 0 then cmdKeyUnbind s.fx c m else cmdKeyBind s.fx c m := by
  have h : c.opcode = 0x80 := (b.opcode (p := withOp 0x80 p) rfl).trans (opcode_withOp _ p)
  simp [startCmd, startHigh, h]

theorem start_keyBindRevoke {s : State} {p : CmdPkt} {c : Rec} {m : Mach} (b : Begins s (.keyBindRevoke p) c m) :
    startCmd s.fx c false m = cmdKeyUnbind s.fx c m := by
  have h : c.opcode = 0x80 := (b.opcode (p := withFlag 0 (withOp 0x80 p)) rfl).trans ((opcode_withFlag _ _).trans (opcode_withOp _ p))
  have f := b.flag (k := 0) (by omega) (p := withOp 0x80 p) rfl
  simp [startCmd, startHigh, h, f]

theorem start_keyRotate {s : State} {p : CmdPkt} {c : Rec} {m : Mach} (b : Begins s (.keyRotate p) c m) :
    startCmd s.fx c false m = cmdKeyRotate s.fx c m := by
  have h : c.opcode = 0x81 := (b.opcode (p := withOp 0x81 p) rfl).trans (opcode_withOp _ p)
  simp [startCmd, startHigh, h]

theorem start_keyRetire {s : State} {p : CmdPkt} {c : Rec} {m : Mach} (b : Begins s (.keyRetire p) c m) :
    startCmd s.fx c false m = cmdKeyRetire s.fx c m := by
  have h : c.opcode = 0x82 := (b.opcode (p := withOp 0x82 p) rfl).trans (opcode_withOp _ p)
  simp [startCmd, startHigh, h]

theorem start_keyErase {s : State} {p : CmdPkt} {c : Rec} {m : Mach} (b : Begins s (.keyErase p) c m) :
    startCmd s.fx c false m = cmdKeyErase s.fx c m := by
  have h : c.opcode = 0x83 := (b.opcode (p := withOp 0x83 p) rfl).trans (opcode_withOp _ p)
  simp [startCmd, startHigh, h]

theorem start_confAttach {s : State} {p : CmdPkt} {c : Rec} {m : Mach} (b : Begins s (.confAttach p) c m) :
    startCmd s.fx c false m = cmdConfAttach s.fx c m := by
  have h : c.opcode = 0x84 := (b.opcode (p := withOp 0x84 p) rfl).trans (opcode_withOp _ p)
  simp [startCmd, startHigh, h]

theorem start_measureRead {s : State} {p : CmdPkt} {c : Rec} {m : Mach} (b : Begins s (.measureRead p) c m) :
    startCmd s.fx c false m = cmdMeasureRead s.fx c m := by
  have h : c.opcode = 0x85 := (b.opcode (p := withOp 0x85 p) rfl).trans (opcode_withOp _ p)
  simp [startCmd, startHigh, h]

theorem start_scrubContext {s : State} {p : CmdPkt} {c : Rec} {m : Mach} (b : Begins s (.scrubContext p) c m) :
    startCmd s.fx c false m = cmdScrubContext s.fx c m := by
  have h : c.opcode = 0x86 := (b.opcode (p := withOp 0x86 p) rfl).trans (opcode_withOp _ p)
  simp [startCmd, startHigh, h]

theorem start_errlogRead {s : State} {p : CmdPkt} {c : Rec} {m : Mach} (b : Begins s (.errlogRead p) c m) :
    startCmd s.fx c false m = cmdErrlogRead s.fx c false m := by
  have h : c.opcode = 0x90 := (b.opcode (p := withOp 0x90 p) rfl).trans (opcode_withOp _ p)
  simp [startCmd, startHigh, h]

theorem start_scrubRate {s : State} {p : CmdPkt} {c : Rec} {m : Mach} (b : Begins s (.scrubRate p) c m) :
    startCmd s.fx c false m = cmdScrubRate s.fx c m := by
  have h : c.opcode = 0x91 := (b.opcode (p := withOp 0x91 p) rfl).trans (opcode_withOp _ p)
  simp [startCmd, startHigh, h]

theorem start_inject {s : State} {p : CmdPkt} {c : Rec} {m : Mach} (b : Begins s (.inject p) c m) :
    startCmd s.fx c false m = cmdInject s.fx c m := by
  have h : c.opcode = 0x92 := (b.opcode (p := withOp 0x92 p) rfl).trans (opcode_withOp _ p)
  simp [startCmd, startHigh, h]

theorem start_bankSpare {s : State} {p : CmdPkt} {c : Rec} {m : Mach} (b : Begins s (.bankSpare p) c m) :
    startCmd s.fx c false m = cmdBankSpare s.fx c m := by
  have h : c.opcode = 0x93 := (b.opcode (p := withOp 0x93 p) rfl).trans (opcode_withOp _ p)
  simp [startCmd, startHigh, h]

theorem start_wayDisable {s : State} {p : CmdPkt} {c : Rec} {m : Mach} (b : Begins s (.wayDisable p) c m) :
    startCmd s.fx c false m = if cFlag c 0 then cmdWayRestore s.fx c m else cmdWayDisable s.fx c m := by
  have h : c.opcode = 0x94 := (b.opcode (p := withOp 0x94 p) rfl).trans (opcode_withOp _ p)
  simp [startCmd, startHigh, h]

theorem start_wayRestore {s : State} {p : CmdPkt} {c : Rec} {m : Mach} (b : Begins s (.wayRestore p) c m) :
    startCmd s.fx c false m = cmdWayRestore s.fx c m := by
  have h : c.opcode = 0x94 := (b.opcode (p := withFlag 0 (withOp 0x94 p)) rfl).trans ((opcode_withFlag _ _).trans (opcode_withOp _ p))
  have f := b.flag (k := 0) (by omega) (p := withOp 0x94 p) rfl
  simp [startCmd, startHigh, h, f]

theorem start_dirReclaim {s : State} {p : CmdPkt} {c : Rec} {m : Mach} (b : Begins s (.dirReclaim p) c m) :
    startCmd s.fx c false m = cmdReclaim s.fx c m := by
  have h : c.opcode = 0x95 := (b.opcode (p := withOp 0x95 p) rfl).trans (opcode_withOp _ p)
  simp [startCmd, startHigh, h]

theorem start_poisonClear {s : State} {p : CmdPkt} {c : Rec} {m : Mach} (b : Begins s (.poisonClear p) c m) :
    startCmd s.fx c false m = cmdPoisonClear s.fx c false m := by
  have h : c.opcode = 0x96 := (b.opcode (p := withOp 0x96 p) rfl).trans (opcode_withOp _ p)
  simp [startCmd, startHigh, h]

theorem start_engineReset {s : State} {p : CmdPkt} {c : Rec} {m : Mach} (b : Begins s (.engineReset p) c m) :
    startCmd s.fx c false m = cmdEngineReset s.fx c m := by
  have h : c.opcode = 0x97 := (b.opcode (p := withOp 0x97 p) rfl).trans (opcode_withOp _ p)
  simp [startCmd, startHigh, h]

theorem start_sliceFenceMode0 {s : State} {p : CmdPkt} {c : Rec} {m : Mach} (b : Begins s (.sliceFenceMode0 p) c m) :
    startCmd s.fx c false m = if bit c.pkt.p0 0 then cmdFence1 s.fx c m else cmdFence0 s.fx c m := by
  have h : c.opcode = 0x98 := (b.opcode (p := withMode false (withOp 0x98 p)) rfl).trans (opcode_withOp _ p)
  simp [startCmd, startHigh, h]

theorem start_sliceFenceMode1 {s : State} {p : CmdPkt} {c : Rec} {m : Mach} (b : Begins s (.sliceFenceMode1 p) c m) :
    startCmd s.fx c false m = if bit c.pkt.p0 0 then cmdFence1 s.fx c m else cmdFence0 s.fx c m := by
  have h : c.opcode = 0x98 := (b.opcode (p := withMode true (withOp 0x98 p)) rfl).trans (opcode_withOp _ p)
  simp [startCmd, startHigh, h]

theorem start_pmcConfig {s : State} {p : CmdPkt} {c : Rec} {m : Mach} (b : Begins s (.pmcConfig p) c m) :
    startCmd s.fx c false m = cmdPmcConfig s.fx c m := by
  have h : c.opcode = 0xA0 := (b.opcode (p := withOp 0xA0 p) rfl).trans (opcode_withOp _ p)
  simp [startCmd, startHigh, h]

theorem start_pmcDumpSet {s : State} {p : CmdPkt} {c : Rec} {m : Mach} (b : Begins s (.pmcDumpSet p) c m) :
    startCmd s.fx c false m = cmdPmcDumpSet s.fx c false m := by
  have h : c.opcode = 0xA1 := (b.opcode (p := withOp 0xA1 p) rfl).trans (opcode_withOp _ p)
  simp [startCmd, startHigh, h]

theorem start_pmcPermit {s : State} {p : CmdPkt} {c : Rec} {m : Mach} (b : Begins s (.pmcPermit p) c m) :
    startCmd s.fx c false m = cmdPmcPermit s.fx c false m := by
  have h : c.opcode = 0xA2 := (b.opcode (p := withOp 0xA2 p) rfl).trans (opcode_withOp _ p)
  simp [startCmd, startHigh, h]

theorem start_debugOpen {s : State} {p : CmdPkt} {c : Rec} {m : Mach} (b : Begins s (.debugOpen p) c m) :
    startCmd s.fx c false m = cmdDebugOpen s.fx c m := by
  have h : c.opcode = 0xA8 := (b.opcode (p := withOp 0xA8 p) rfl).trans (opcode_withOp _ p)
  simp [startCmd, startHigh, h]

theorem start_debugClose {s : State} {p : CmdPkt} {c : Rec} {m : Mach} (b : Begins s (.debugClose p) c m) :
    startCmd s.fx c false m = cmdDebugClose s.fx c m := by
  have h : c.opcode = 0xA9 := (b.opcode (p := withOp 0xA9 p) rfl).trans (opcode_withOp _ p)
  simp [startCmd, startHigh, h]

theorem start_fwStage {s : State} {p : CmdPkt} {c : Rec} {m : Mach} (b : Begins s (.fwStage p) c m) :
    startCmd s.fx c false m = cmdFwStage s.fx c m := by
  have h : c.opcode = 0xF0 := (b.opcode (p := withOp 0xF0 p) rfl).trans (opcode_withOp _ p)
  simp [startCmd, startHigh, h]

theorem start_fwActivate {s : State} {p : CmdPkt} {c : Rec} {m : Mach} (b : Begins s (.fwActivate p) c m) :
    startCmd s.fx c false m = cmdFwActivate s.fx c m := by
  have h : c.opcode = 0xF1 := (b.opcode (p := withOp 0xF1 p) rfl).trans (opcode_withOp _ p)
  simp [startCmd, startHigh, h]

theorem start_fwQuery {s : State} {p : CmdPkt} {c : Rec} {m : Mach} (b : Begins s (.fwQuery p) c m) :
    startCmd s.fx c false m = cmdFwQuery s.fx c m := by
  have h : c.opcode = 0xF2 := (b.opcode (p := withOp 0xF2 p) rfl).trans (opcode_withOp _ p)
  simp [startCmd, startHigh, h]

end Sys2Proof.Machine
end

