-- ==== Sys2Proof/Laws/Engine.lean ====
section
/-! SUPPORT. The maintenance engine with nothing to do: a command that it is given runs at once. -/

namespace Sys2Proof.Machine

/-- No acknowledgement has come in. -/
theorem takeAcks_nil (id : Nat) (m : Mach) (h : m.cache.done = []) : takeAcks id m = (m, 0) := by
  simp only [takeAcks, h, List.filter_nil, List.length_nil]
  rw [← h]
/-- A command given to the idle engine, all of whose steps can be made at once. -/
theorem start_run (fx : Fixed) (c : Rec) (m m' : Mach) (p' : MaintProg) (hr : m.cmds.running = []) (h38 : c.opcode ≠ 0x38)
    (hd : m.cache.done = []) (hd' : m'.cache.done = []) (ds : List Nat) (aw : awake m ds = true) (he : dEngine ∈ ds) (hl : p'.left = 0)
    (h93 : c.opcode = 0x93 → spareTaken m c = false)
    (hs : ∀ q, maintSteps fx c (maintStart fx m c) (runOn c q m) = (runOn c q m', p', true)) :
    startMaint fx (runOn c .maintHeld m) = endMaint fx c p' (runOn c (.maintRun (maintStart fx m c)) m') := by
  have hm : ({ maintStart fx m c with left := if 0x36 ≤ c.opcode.toNat ∧ c.opcode.toNat ≤ 0x37 ∧ (maintStart fx m c).stepNo < 36 then (maintStart fx m c).left else (maintStart fx m c).left - 0 } : MaintProg) = maintStart fx m c := by
    split <;> rfl
  have r : (runOn c .maintHeld m).cmds.running = [⟨c, .maintHeld⟩] := by simp [runOn, hr]
  rw [startMaint]
  simp only [r]
  have e0 : (([⟨c, .maintHeld⟩] : List Run).any (fun r => isMaintRun r.prog || isSweepRun r.prog)) = false := rfl
  have e1 : (([⟨c, .maintHeld⟩] : List Run).find? (fun r => decide (r.prog = .maintHeld))) = some ⟨c, .maintHeld⟩ := rfl
  have h93' : (decide (c.opcode = 0x93) && spareTaken (runOn c .maintHeld m) c) = false := by
    by_cases h : c.opcode = 0x93
    · have : spareTaken (runOn c .maintHeld m) c = false := h93 h
      simp [this]
    · rw [decide_eq_false h, Bool.false_and]
  rw [if_neg (by simp [e0]), e1]
  simp only [h38, h93', if_false, Bool.false_eq_true]
  have e2 : setProg c.id (.maintRun (maintStart fx (runOn c .maintHeld m) c)) (runOn c .maintHeld m) = runOn c (.maintRun (maintStart fx m c)) m := by
    simp only [setProg, runOn, hr, List.nil_append, List.map_cons, List.map_nil, if_true]
    rfl
  rw [e2]
  have r1 : runningCmd (runOn c (.maintRun (maintStart fx m c)) m) isMaintRun = some ⟨c, .maintRun (maintStart fx m c)⟩ := by
    simp [runningCmd, runOn, hr, isMaintRun]
  rw [pumpMaint, r1]
  simp only [takeAcks_nil _ _ (show (runOn c (.maintRun (maintStart fx m c)) m).cache.done = [] from hd)]
  have aw' : awake (runOn c (.maintRun (maintStart fx m c)) m) ds = true := aw
  rw [waitDom_awake _ aw' he]
  simp only [Bool.not_true, Bool.false_eq_true, if_false, hm, hs, takeAcks_nil _ _ (show (runOn c (.maintRun (maintStart fx m c)) m').cache.done = [] from hd')]
  have hp : ({ p' with left := p'.left - 0 } : MaintProg) = p' := rfl
  rw [hp, hl]
  rfl
/-- The same for a command as it is given to the engine. -/
theorem hold_run (fx : Fixed) (c : Rec) (m m' : Mach) (p' : MaintProg) (hr : m.cmds.running = []) (h38 : c.opcode ≠ 0x38) (h95 : c.opcode ≠ 0x95)
    (hd : m.cache.done = []) (hd' : m'.cache.done = []) (ds : List Nat) (aw : awake m ds = true) (he : dEngine ∈ ds) (hl : p'.left = 0)
    (h93 : c.opcode = 0x93 → spareTaken m c = false)
    (hs : ∀ q, maintSteps fx c (maintStart fx m c) (runOn c q m) = (runOn c q m', p', true)) :
    holdMaint fx c none m = endMaint fx c p' (runOn c (.maintRun (maintStart fx m c)) m') := by
  simp only [holdMaint, hr, List.filter_nil, List.length_nil, h95, if_false, if_true]
  rw [if_neg (by omega), start_run fx c m m' p' hr h38 hd hd' ds aw he hl h93 hs]

/-- A command given to the engine behind one to three others is held. -/
theorem hold_held {fx : Fixed} {c : Rec} {m : Mach} (h0 : 0 < (m.cmds.running.filter fun r => isMaint r.prog).length)
    (h4 : (m.cmds.running.filter fun r => isMaint r.prog).length < 4) (h95 : c.opcode ≠ 0x95) : holdMaint fx c none m = runOn c .maintHeld m := by
  rw [holdMaint]
  simp only [ge_iff_le, h95, if_false]
  rw [if_neg (by omega), if_neg (by omega)]

/-- The engine is full. -/
theorem hold_full {fx : Fixed} {c : Rec} {m : Mach} (h4 : 4 ≤ (m.cmds.running.filter fun r => isMaint r.prog).length) :
    holdMaint fx c none m = complete fx c csBusy [] m := by
  rw [holdMaint]
  simp only [ge_iff_le, h4, if_true]

/-- A command held or running leaves the block at rest when its program waits for something else. -/
theorem resting_runOn {c : Rec} {p : Prog} {m : Mach} (h : resting m = true) (hp : runRests m p = true) : resting (runOn c p m) = true := by
  obtain ⟨k, l, w⟩ := (resting_iff m).mp h
  refine (resting_iff _).mpr ⟨⟨k.1, k.2, k.3, k.4, k.5, k.6, k.7, k.8, k.9, ?_, k.11, k.12, k.13, k.14, k.15, k.16, k.17, k.18, k.19, k.20, k.21, k.22, k.23⟩, l, w⟩
  intro r hr
  rcases List.mem_append.mp hr with h | h
  · exact k.runs r h
  · simp only [List.mem_singleton] at h; subst h; exact hp

end Sys2Proof.Machine
end

