-- ==== Sys2Proof/Laws/Landing.lean ====
section
/-! SUPPORT. A data-plane request at the head of its landing: what its row does is what its opcode does to the block that has
counted it. -/

namespace Sys2Proof.Machine

theorem exec_request {s : State} {i : Instr} {op : BitVec 6} {r : Req} (h : requestOf i = some (op, r)) :
    exec i s = actM s fun fx m => arriveDp fx op r m := by
  cases i <;> simp only [requestOf, Option.some.injEq, Prod.mk.injEq, reduceCtorEq] at h
  all_goals (obtain ⟨rfl, rfl⟩ := h; rfl)

/-- An acceptance changes the counters and the trace alone. -/
theorem countAccept_frame (h : Held) (m : Mach) : ∃ p, countAccept h m = { m with pmc := p } := by
  have k : ∀ n : Mach, (∃ p, n = { m with pmc := p }) → ∀ (b : Bool) (f : PmcSt), ∃ p, (if b then { n with pmc := f } else n) = { m with pmc := p } := by
    rintro n ⟨p, rfl⟩ b f
    cases b <;> exact ⟨_, rfl⟩
  cases h with
  | dp op r t => exact k _ (countN_frame ..) _ _
  | host cls msg h t => exact k _ (countN_frame ..) _ _

/-- A block that keeps no trace counts an acceptance, and that is all. -/
theorem countAccept_quiet {op : BitVec 6} {r : Req} {t : Option Taken} {m : Mach} (h : m.dbg.trace = false) :
    countAccept (.dp op r t) m = countR 0x040 r m := by
  have e : (countR 0x040 r m).dbg.trace = false := by
    obtain ⟨p, e⟩ := countN_frame 0x040 (some r.ctx) (some r.tc) 1 m
    rw [countR, e]; exact h
  rw [countAccept]
  simp [e]

/-- The block as a request meets it differs from the block before by the counters alone. -/
theorem Lands.frame {s : State} {i : Instr} {op : BitVec 6} {r : Req} {m : Mach} (h : Lands s i op r m) : ∃ p, m = { s.m with pmc := p } := by
  obtain ⟨p, e⟩ := countAccept_frame (.dp op r none) s.m
  exact ⟨p, h.counted.trans e⟩

theorem Lands.resting {s : State} {i : Instr} {op : BitVec 6} {r : Req} {m : Mach} (h : Lands s i op r m) : resting m = true := by
  obtain ⟨p, e⟩ := h.frame
  rw [e]; exact h.still

theorem countAccept_held (h : Held) (m : Mach) (st : Stop) : heldAt (countAccept h m) st = heldAt m st := by
  obtain ⟨p, e⟩ := countAccept_frame h m
  rw [e]; rfl

theorem countAccept_resting {h : Held} {m : Mach} (r : resting m = true) : resting (countAccept h m) = true := by
  obtain ⟨p, e⟩ := countAccept_frame h m
  rw [e]; exact r

/-- A landing that holds nothing has a credit for each channel. -/
theorem landingCredits_free {m : Mach} {st : Stop} (h : heldAt m st = []) (k : Nat) : landingCredits m st k ≠ 0 := by
  rw [landingCredits, h, heldCap]
  split <;> simp

/-- Nothing is held in front of a request that comes to a block at rest. -/
theorem comesBehind_none {fx : Fixed} {st : Stop} {h : Held} {m : Mach} (r : resting m = true) : comesBehind fx st h m = false := by
  obtain ⟨c, -, -⟩ := (resting_iff m).mp r
  have e : ∀ st, heldAt m st = [] := fun st => by rw [heldAt, c.heldN, c.heldS, ite_self]
  simp [comesBehind, inWindows, e, windowed]

theorem heldAt_resting {m : Mach} (r : resting m = true) (st : Stop) : heldAt m st = [] := by
  obtain ⟨c, -, -⟩ := (resting_iff m).mp r
  rw [heldAt, c.heldN, c.heldS, ite_self]

/-- A request that comes to a block at rest and can be served. -/
theorem arrive_served {fx : Fixed} {st : Stop} {h : Held} {m n t : Mach} (hn : countAccept h m = n) (r : resting n = true)
    (e : serveHeld fx h n = (t, true)) : arrive fx st h m = t := by
  subst hn
  rw [arrive, if_neg (landingCredits_free (by rw [← countAccept_held h m]; exact heldAt_resting r st) _)]
  simp only [comesBehind_none r, Bool.false_eq_true, if_false, e]

/-- A request that is served leaves what its service leaves, with what follows at once. -/
theorem Lands.after {s : State} {i : Instr} {op : BitVec 6} {r : Req} {m t : Mach} (h : Lands s i op r m)
    (e : serveDp s.fx op r none m = (t, true)) : exec i s = .next (s.after t) := by
  rw [exec_request h.row]
  have hf : (fun fx m => arriveDp fx op r m) s.fx s.m = t := by
    show arriveDp s.fx op r s.m = t
    rw [arriveDp, if_neg (by rw [h.free]; exact Bool.false_ne_true)]
    exact arrive_served h.counted.symm h.resting e
  show Host.Outcome.next _ = _
  simp only [State.after, hf]

theorem Lands.put {s : State} {i : Instr} {op : BitVec 6} {r : Req} {m t : Mach} (h : Lands s i op r m)
    (e : serveDp s.fx op r none m = (t, true)) (ht : Machine.resting t = true) : exec i s = .next (s.put t) := by
  rw [h.after e, after_resting ht]

/-- A request that comes to a block at rest and cannot be served yet. -/
theorem arrive_stays {fx : Fixed} {st : Stop} {h : Held} {m n t : Mach} (hn : countAccept h m = n) (r : resting n = true)
    (e : serveHeld fx h n = (t, false)) : arrive fx st h m = keepHeld st h t := by
  subst hn
  rw [arrive, if_neg (landingCredits_free (by rw [← countAccept_held h m]; exact heldAt_resting r st) _)]
  simp only [comesBehind_none r, Bool.false_eq_true, if_false, e]

/-- A request that cannot be served yet stays at its landing, and is tried again with what follows. -/
theorem Lands.stays {s : State} {i : Instr} {op : BitVec 6} {r : Req} {m : Mach} (h : Lands s i op r m)
    (e : serveDp s.fx op r none m = (m, false)) : exec i s = .next (s.after (keepHeld r.stop (.dp op r none) m)) := by
  rw [exec_request h.row]
  have hf : (fun fx m => arriveDp fx op r m) s.fx s.m = keepHeld r.stop (.dp op r none) m := by
    show arriveDp s.fx op r s.m = _
    rw [arriveDp, if_neg (by rw [h.free]; exact Bool.false_ne_true)]
    exact arrive_stays h.counted.symm h.resting e
  show Host.Outcome.next _ = _
  simp only [State.after, hf]

/-- A request that the gate stops is answered so. -/
theorem serveDp_stop {fx : Fixed} {op : BitVec 6} {r : Req} {m t : Mach} (k : Option Taken) (h : gateFor fx op r m = .stop t) : serveDp fx op r k m = (t, true) := by
  rw [gateFor] at h
  rw [serveDp]
  by_cases h0 : op = opPFHINT
  · subst h0
    rw [if_neg (by decide), if_neg (by decide), if_neg (by decide), if_neg (by decide), if_pos (by decide)] at h
    rw [if_pos rfl, serveHint, h]
  rw [if_neg h0]
  split at h
  · rename_i h1
    rw [if_pos h1, serveSync, h]
  rename_i h1
  rw [if_neg h1]
  split at h
  · rename_i h2
    rw [if_pos h2, serveTile]
    simp only at h ⊢
    rw [h]
  rename_i h2
  rw [if_neg h2]
  split at h
  · rename_i h3
    rw [if_pos h3, serveBerth, h]
  rename_i h3
  rw [if_neg h3]
  split at h
  · rename_i h4
    rw [if_pos h4, serveFerry, h]
  rename_i h4
  rw [if_neg h4]
  split at h
  · rename_i h5
    rw [if_pos h5, serveMem]
    simp only
    rw [h]
  · rename_i h5
    rw [if_neg h5, serveUnassigned]
    simp only [decide_eq_true_eq] at h
    rw [h]

theorem resting_countR {ev : Nat} {r : Req} {m : Mach} (h : resting m = true) : resting (countR ev r m) = true := resting_countN h

theorem resting_count {ev : Nat} {m : Mach} (h : resting m = true) : resting (count ev m) = true := resting_countN h

theorem resting_answer {r : Req} {op : BitVec 6} {st : BitVec 4} {m : Mach} (h : resting m = true) : resting (answer r op st m) = true :=
  resting_respond h

theorem resting_deny {r : Req} {op : BitVec 6} {m : Mach} (h : resting m = true) : resting (deny r op m) = true := resting_countR (resting_answer h)

theorem resting_bounce {r : Req} {op : BitVec 6} {m : Mach} (h : resting m = true) : resting (bounce r op m) = true :=
  resting_count (resting_answer h)

theorem resting_ite {c : Prop} [Decidable c] {a b : Mach} (h1 : resting a = true) (h2 : resting b = true) : resting (if c then a else b) = true := by
  split
  · exact h1
  · exact h2

theorem resting_coalesce {c : Count} {m : Mach} (h : resting m = true) : resting { m with sync := coalesce c m.sync } = true := by
  rw [coalesce]
  split <;> exact h

theorem resting_arrival {r : Req} {m : Mach} (h : resting m = true) : resting (arrival r m) = true := by
  rw [arrival]
  split
  · exact h
  · exact resting_coalesce h

/-- A command that rests still does where more requests are unperformed. -/
theorem runRests_mono {m n : Mach} {p : Prog} (h : ∀ k ∈ unperformed m, k ∈ unperformed n) (hp : runRests m p = true) : runRests n p = true := by
  cases p with
  | sweepRun todo sent acked lost before =>
    simp only [runRests, Bool.and_eq_true, List.all_eq_true, decide_eq_true_eq] at hp ⊢
    exact ⟨fun k hk => h k (hp.1 k hk), hp.2⟩
  | stage b k g q f => cases q <;> [exact hp; rfl]
  | activate b q f => cases q <;> [exact hp; rfl]
  | _ => exact hp

theorem resting_coalWait {m : Mach} {x : CoalWait} (h : resting m = true) :
    resting { m with sync := { m.sync with coalWait := m.sync.coalWait ++ [x] } } = true := by
  obtain ⟨k, l, w⟩ := (resting_iff m).mp h
  refine (resting_iff _).mpr ⟨⟨k.1, k.2, k.3, k.4, k.5, k.6, k.7, k.8, k.9, fun r hr => runRests_mono ?_ (k.10 r hr), k.11, k.12, k.13, k.14, k.15, k.16,
    k.17, k.18, k.19, k.20, k.21, k.22, k.23⟩, l, w⟩
  intro q hq
  simp only [unperformed, List.mem_map, List.mem_filter] at hq ⊢
  obtain ⟨y, ⟨hy, hc⟩, rfl⟩ := hq
  refine ⟨y, ⟨?_, hc⟩, rfl⟩
  simp only [underWay, List.mem_append] at hy ⊢
  rcases hy with hy | hy
  · exact .inl hy
  · refine .inr ?_
    rw [List.flatMap_append, List.mem_append]
    exact .inl hy

/-- A request done is counted and answered, or waits for room in the coalescer. -/
theorem resting_tally {x : CoalWait} {m : Mach} (h : resting m = true) : resting (tally x m) = true := by
  rw [tally]
  split
  · split
    · exact resting_arrival h
    · exact resting_respond (resting_arrival h)
  · exact resting_coalWait h

end Sys2Proof.Machine
end

