-- ==== Sys2Proof/Laws/Table.lean ====
section
/-! SUPPORT. The laws of a sparse table that proofs cite first: what an empty table reads, and that a table in canonical form from a
number on has nothing below it. -/

namespace Sys2Proof.Machine

@[simp] theorem tget_nil {α : Type} (d : α) (k : Nat) : tget d [] k = d := rfl

@[simp] theorem twf_nil {α : Type} [DecidableEq α] (d : α) : twf d [] = true := rfl

theorem twfFrom_mono {α : Type} [DecidableEq α] {d : α} {lo lo' : Nat} {t : Tbl α} (h : lo' ≤ lo) (w : twfFrom d lo t = true) :
    twfFrom d lo' t = true := by
  cases t with
  | nil => rfl
  | cons x t =>
    obtain ⟨j, a⟩ := x
    simp only [twfFrom, Bool.and_eq_true, decide_eq_true_eq] at w ⊢
    exact ⟨⟨h.trans w.1.1, w.1.2⟩, w.2⟩

/-- What a table holds after a write it held before, or it is what was written. -/
theorem mem_tset {α : Type} [DecidableEq α] {d : α} {t : Tbl α} {k : Nat} {a : α} {x : Nat × α} (h : x ∈ tset d t k a) : x ∈ t ∨ x = (k, a) := by
  induction t with
  | nil =>
    simp only [tset] at h
    split at h
    · cases h
    · exact .inr (by simpa using h)
  | cons y t ih =>
    obtain ⟨j, b⟩ := y
    simp only [tset] at h
    split at h
    · split at h
      · exact .inl h
      · rcases List.mem_cons.mp h with h | h
        · exact .inr h
        · exact .inl h
    · split at h
      · split at h
        · exact .inl (List.mem_cons_of_mem _ h)
        · rcases List.mem_cons.mp h with h | h
          · exact .inr h
          · exact .inl (List.mem_cons_of_mem _ h)
      · rcases List.mem_cons.mp h with h | h
        · exact .inl (by simp [h])
        · rcases ih h with h | h
          · exact .inl (List.mem_cons_of_mem _ h)
          · exact .inr h

/-- What a table reads is its reset value or stands in it. -/
theorem tget_mem {α : Type} (d : α) (t : Tbl α) (k : Nat) : tget d t k = d ∨ (k, tget d t k) ∈ t := by
  induction t with
  | nil => exact .inl rfl
  | cons y t ih =>
    obtain ⟨j, b⟩ := y
    simp only [tget]
    split
    · rename_i h
      subst h
      exact .inr (by simp)
    · split
      · exact .inl rfl
      · exact ih.imp_right fun h => List.mem_cons_of_mem _ h

/-- A value other than the reset value is read back. -/
theorem tget_tset_ne {α : Type} [DecidableEq α] (d : α) (t : Tbl α) (k : Nat) (a : α) (h : a ≠ d) : tget d (tset d t k a) k = a := by
  induction t with
  | nil => simp [tset, h, tget]
  | cons x t ih =>
    obtain ⟨j, b⟩ := x
    simp only [tset, h, if_false]
    split
    · simp [tget]
    · split
      · simp [tget]
      · have : ¬ j = k := by omega
        simp [tget, *]

/-- A value written over another at the same index. -/
theorem tset_tset {α : Type} [DecidableEq α] (d : α) (t : Tbl α) (k : Nat) (a b : α) (h : a ≠ d) : tset d (tset d t k a) k b = tset d t k b := by
  induction t with
  | nil => simp [tset, h]
  | cons x t ih =>
    obtain ⟨j, c⟩ := x
    simp only [tset, h, if_false]
    by_cases h1 : k < j
    · simp [h1, tset]
    · by_cases h2 : k = j
      · simp [h2, tset]
      · simp [h1, h2, tset, ih]

/-- A write of a value other than the reset value leaves every other number as it was. -/
theorem tget_tset_other {α : Type} [DecidableEq α] (d : α) (t : Tbl α) (k j : Nat) (a : α) (h : a ≠ d) (hj : j ≠ k) :
    tget d (tset d t k a) j = tget d t j := by
  induction t with
  | nil =>
    simp only [tset, h, if_false, tget]
    rw [if_neg (Ne.symm hj)]
    split <;> rfl
  | cons x t ih =>
    obtain ⟨i, b⟩ := x
    simp only [tset, h, if_false]
    by_cases h1 : k < i
    · simp only [h1, if_true, tget]
      rw [if_neg (Ne.symm hj)]
      by_cases h2 : j < k
      · rw [if_pos h2, if_neg (by omega), if_pos (by omega)]
      · rw [if_neg h2]
    · by_cases h2 : k = i
      · subst h2
        rw [if_neg h1, if_pos rfl]
        simp only [tget, if_neg (Ne.symm hj)]
      · rw [if_neg h1, if_neg h2]
        simp only [tget, ih]

/-- Below its first number a table in canonical form reads as its reset value. -/
theorem tget_below {α : Type} [DecidableEq α] {d : α} {lo k : Nat} {t : Tbl α} (w : twfFrom d lo t = true) (h : k < lo) :
    tget d t k = d := by
  cases t with
  | nil => rfl
  | cons x t =>
    obtain ⟨j, a⟩ := x
    simp only [twfFrom, Bool.and_eq_true, decide_eq_true_eq] at w
    have : j ≠ k := by omega
    have : k < j := by omega
    simp [tget, *]

/-- A write keeps a table's canonical form. -/
theorem twfFrom_tset {α : Type} [DecidableEq α] {d : α} {lo : Nat} {t : Tbl α} (w : twfFrom d lo t = true) (k : Nat) (a : α) (hk : lo ≤ k) :
    twfFrom d lo (tset d t k a) = true := by
  induction t generalizing lo with
  | nil =>
    simp only [tset]
    split
    · rfl
    · rename_i h
      simp [twfFrom, hk, h]
  | cons x t ih =>
    obtain ⟨j, b⟩ := x
    have w' := w
    simp only [twfFrom, Bool.and_eq_true, decide_eq_true_eq] at w'
    simp only [tset]
    split
    · rename_i h1
      split
      · exact w
      · rename_i h2
        simp only [twfFrom, Bool.and_eq_true, decide_eq_true_eq]
        exact ⟨⟨hk, h2⟩, ⟨by omega, w'.1.2⟩, w'.2⟩
    · split
      · rename_i h1 h2
        subst h2
        split
        · exact twfFrom_mono (by omega) w'.2
        · rename_i h3
          simp only [twfFrom, Bool.and_eq_true, decide_eq_true_eq]
          exact ⟨⟨hk, h3⟩, w'.2⟩
      · simp only [twfFrom, Bool.and_eq_true, decide_eq_true_eq]
        exact ⟨w'.1, ih w'.2 (by omega)⟩

theorem twf_tset {α : Type} [DecidableEq α] {d : α} {t : Tbl α} (w : twf d t = true) (k : Nat) (a : α) : twf d (tset d t k a) = true :=
  twfFrom_tset w k a (Nat.zero_le k)

/-- What is written to a table in canonical form is read back. -/
theorem tget_tset_from {α : Type} [DecidableEq α] {d : α} {lo : Nat} {t : Tbl α} (w : twfFrom d lo t = true) (k : Nat) (a : α) :
    tget d (tset d t k a) k = a := by
  induction t generalizing lo with
  | nil =>
    simp only [tset]
    split
    · rename_i h; rw [h]; rfl
    · simp [tget]
  | cons x t ih =>
    obtain ⟨j, b⟩ := x
    have w' := w
    simp only [twfFrom, Bool.and_eq_true, decide_eq_true_eq] at w'
    simp only [tset]
    split
    · rename_i h1
      split
      · rename_i h2
        rw [h2, tget, if_neg (by omega), if_pos h1]
      · simp [tget]
    · split
      · rename_i h1 h2
        subst h2
        split
        · rename_i h3
          rw [h3]
          exact tget_below w'.2 (Nat.lt_succ_self _)
        · simp [tget]
      · rename_i h1 h2
        rw [tget, if_neg (fun e => h2 e.symm), if_neg h1]
        exact ih w'.2

theorem tget_tset {α : Type} [DecidableEq α] {d : α} {t : Tbl α} (w : twf d t = true) (k : Nat) (a : α) : tget d (tset d t k a) k = a :=
  tget_tset_from w k a

/-- In canonical form a write of any value leaves every other number as it was. -/
theorem tget_tset_others_from {α : Type} [DecidableEq α] {d : α} {lo : Nat} {t : Tbl α} (w : twfFrom d lo t = true) (k j : Nat) (a : α) (hj : j ≠ k) :
    tget d (tset d t k a) j = tget d t j := by
  by_cases h : a = d
  · subst h
    induction t generalizing lo with
    | nil => simp [tset]
    | cons x t ih =>
      obtain ⟨i, b⟩ := x
      have w' := w
      simp only [twfFrom, Bool.and_eq_true, decide_eq_true_eq] at w'
      simp only [tset, if_true]
      split
      · rfl
      · split
        · rename_i h1 h2
          subst h2
          rw [tget, if_neg (Ne.symm hj)]
          split
          · exact tget_below w'.2 (by omega)
          · rfl
        · simp only [tget]
          rw [ih w'.2]
  · exact tget_tset_other d t k j a h hj

theorem tget_tset_others {α : Type} [DecidableEq α] {d : α} {t : Tbl α} (w : twf d t = true) (k j : Nat) (a : α) (hj : j ≠ k) :
    tget d (tset d t k a) j = tget d t j := tget_tset_others_from w k j a hj

end Sys2Proof.Machine
end

