-- ==== Sys2Proof/Laws/Hit.lean ====
section
/-! SUPPORT. A request on memory space that meets its line: it is performed at once. -/

namespace Sys2Proof.Machine

theorem arrayPart_hit {fx : Fixed} {a : Access} {way : Nat} {m : Mach} (sp : Bool) (h : Meets fx a way m) (hw : a.op = .writeThru → writeRoom m = true) :
    arrayPart fx a sp m = (perform fx a (setOf a.line) way false (noteHit a m), .done) := by
  rw [arrayPart, scanSet_sound fx _ h.sound]
  simp only [h.hit, h.alone.1, h.alone.2]
  simp only [Option.filter_none]
  rw [hitPart, needDom_awake h.awake (by simp)]
  split
  · rfl
  simp only [Bool.not_true, Bool.false_eq_true, if_false, scanWay_sound fx _ _ _ h.sound, h.valid, ne_eq, not_true_eq_false, false_and, reduceCtorEq]
  rw [if_neg]
  rintro ⟨h1, h2⟩
  rw [hw h1] at h2
  cases h2

/-- What the checks of an access before its line's own come to, where all is well. -/
theorem Meets.slot {fx : Fixed} {a : Access} {way : Nat} {m : Mach} (h : Meets fx a way m) :
    slotUnder a.range m a.line = if (tagAt m (setOf a.line) way).keyv then some (tagAt m (setOf a.line) way).keyslot else none := by
  rw [slotUnder, h.hit]

theorem Meets.reach {fx : Fixed} {a : Access} {way : Nat} {m : Mach} {op : BitVec 6} {r : Req} (h : Meets fx a way m) (hs : a.src = .dp op r) :
    barred m r.ctx (isWrite a.op) (slotUnder a.range m a.line) = false := by
  rw [h.slot]
  cases hk : (tagAt m (setOf a.line) way).keyv with
  | false => simp [barred]
  | true => simp [barred, h.key op r hs hk]

theorem Meets.open_ {fx : Fixed} {a : Access} {way : Nat} {m : Mach} (h : Meets fx a way m) : lockedOut m a = false := by
  simp [lockedOut, h.unlocked]

theorem tryDevice_hit {fx : Fixed} {a : Access} {way : Nat} {m : Mach} {op : BitVec 6} {r : Req} (h : Meets fx a way m) (hs : a.src = .dp op r)
    (hm : manifestStop m r = none) (hw : a.op = .writeThru → writeRoom m = true) (hb : writesNothing a = false) :
    tryDevice fx a m = (perform fx a (setOf a.line) way false (noteHit a m), .done, a) := by
  have h1 : needDoms [dTag (quadOf a.line), dDir (quadOf a.line)] m = (m, true) := needDoms_awake h.awake (by simp)
  have h2 : asStop m a = none := by rw [asStop, hs]
  have h3 : manifestBars m a = none := by rw [manifestBars, hs]; simp only [hm, ite_self]
  have h4 : sparseMet fx a.line m = .dense m := by rw [sparseMet, h.hit]; simp [h.dense]
  have h5 : goArray fx a false m = (perform fx a (setOf a.line) way false (noteHit a m), .done, a) := by
    rw [goArray, hb, if_neg (by simp), dirGate_empty fx _ _ _ _ _ h.hosts.1 h.hosts.2.1 h.hosts.2.2]
    simp only [arrayPart_hit false h hw]
  rw [tryDevice, h1]
  simp only [hs, scanManifest_sound fx r h.sound, scanSet_sound fx _ h.sound, scanDir_sound fx _ h.sound, h2, h3, h.open_, h.reach hs, h.hit,
    Option.isSome_none, Option.isSome_some, Bool.not_true, Bool.false_eq_true, if_false, if_true, h.outside, Bool.and_false, hb, h4, h5]

/-- A request that meets its line is performed there. -/
theorem submit_hit {fx : Fixed} {a : Access} {way : Nat} {m : Mach} {op : BitVec 6} {r : Req} (h : Meets fx (placed m a) way m) (hs : a.src = .dp op r)
    (hm : manifestStop m r = none) (hw : a.op = .writeThru → writeRoom m = true) (hb : writesNothing (placed m a) = false) :
    submit fx a m = some (perform fx (placed m a) (setOf a.line) way false (noteHit (placed m a) m)) := by
  have hs' : (placed m a).src = .dp op r := hs
  rw [submit, tryAccess, tryPlaced, if_neg (by rw [h.first]; simp), hs']
  simp only [tryDevice_hit h hs' hm hw hb]
  rfl

/-- A line that nothing earlier waits for on a ticket or a MERGE entry. -/
theorem emptyPart_free {fx : Fixed} {a : Access} {way : Nat} {m : Mach} (h : Meets fx a way m) (hl : lineFree m a.line = true) :
    emptyPart a m = (serveWrite a false m, .done) := by
  simp only [lineFree, Bool.and_eq_true, Bool.not_eq_true'] at hl
  have h1 : (m.cache.tickets.find? fun t => t.waiters.any (·.line = a.line)) = none := by
    rw [List.find?_eq_none]
    exact fun t ht => by simpa using List.any_eq_false.mp hl.1 t ht
  have h2 : (m.sparse.fills.any fun f => f.line = a.line && !f.waiters.isEmpty) = false := by
    rw [List.any_eq_false]
    intro f hf
    have := (List.find?_eq_none.mp h.alone.2) f hf
    simp_all
  rw [emptyPart, h1]
  simp only [h2, Bool.false_eq_true, if_false, hl.2]

/-- A write that enables no byte is answered at once, where its path is awake, the line is in a way and nothing earlier waits for it. -/
theorem submit_none {fx : Fixed} {a : Access} {way : Nat} {m : Mach} {op : BitVec 6} {r : Req} (h : Meets fx (placed m a) way m) (hs : a.src = .dp op r)
    (hm : manifestStop m r = none) (hb : writesNothing (placed m a) = true) (hl : lineFree m a.line = true) :
    submit fx a m = some (serveWrite (placed m a) false m) := by
  have hs' : (placed m a).src = .dp op r := hs
  have h1 : needDoms [dTag (quadOf (placed m a).line), dDir (quadOf (placed m a).line)] m = (m, true) := needDoms_awake h.awake (by simp)
  have h2 : asStop m (placed m a) = none := by rw [asStop, hs']
  have h3 : manifestBars m (placed m a) = none := by rw [manifestBars, hs']; simp only [hm, ite_self]
  rw [submit, tryAccess, tryPlaced, if_neg (by rw [h.first]; simp), hs']
  simp only
  rw [tryDevice, h1]
  simp only [hs', scanManifest_sound fx r h.sound, scanSet_sound fx _ h.sound, scanDir_sound fx _ h.sound, h2, h3, h.open_, h.reach hs', Option.isSome_none, Bool.not_true,
    Bool.false_eq_true, if_false, h.outside, Bool.and_false, hb, if_true, emptyPart_free h hl]

/-- A request's access is made as the request is met: no control value is kept with it. -/
theorem memAccess_ctl (op : BitVec 6) (r : Req) (off : BitVec 35) : { memAccess op r off with ctl := none } = memAccess op r off := by
  simp only [memAccess]
  split_ifs <;> rfl

/-- What a request that passes its checks does at memory space is what its access does. -/
theorem serveDp_mem {s : State} {i : Instr} {op : BitVec 6} {r : Req} {m t : Mach} {off : BitVec 35} (b : Passes s i op r m)
    (ho : op ∈ [opRD, opRDVOL, opRDSTREAM, opWR, opWRTHRU, opWRFULL, opATOM, opATOMRET, opLRED, opSCATTER])
    (hh : memHome s.fx m r.address = .at off) (hc : op = opSCATTER → scatCheck m r = none) (hs : sound m = true)
    (e : submit s.fx (memAccess op r off) m = some t) :
    serveDp s.fx op r none m =
      (if isRead (memAccess op r off).op && mayTrain s.fx m r (memAccess op r off).line then train s.fx r (taken t) off t else t, true) := by
  have hp := b.passes
  have ne : op ≠ opPFHINT ∧ ¬ (op = opSIGNAL ∨ op = opWAIT) ∧ ¬ (op = opTCONTRIB ∨ op = opTCONTRIBW ∨ op = opTFOLD) ∧ ¬ (op = opBRD ∨ op = opBWR) ∧
      ¬ (op = opQENQ ∨ op = opQDEQ) ∧ op ∈ dpOps := by
    simp only [List.mem_cons, List.not_mem_nil, or_false] at ho
    rcases ho with h | h | h | h | h | h | h | h | h | h <;> (rw [h]; decide)
  obtain ⟨n0, n1, n2, n3, n4, n5⟩ := ne
  rw [gateFor, if_neg n1, if_neg n2, if_neg n3, if_neg n4, if_pos n5, hh] at hp
  rw [serveDp, if_neg n0, if_neg n1, if_neg n2, if_neg n3, if_neg n4, if_pos n5, serveMem, hh]
  simp only [hp, scanManifest_sound s.fx r hs, b.manifest]
  have : ¬ (op = opSCATTER ∧ (scatCheck m r).isSome = true) := fun c => by rw [hc c.1] at c; exact absurd c.2 (by decide)
  have e' : submit s.fx { memAccess op r off with ctl := none } m = some t := by rw [memAccess_ctl]; exact e
  rw [if_neg this, e']
  rfl

/-- A block that differs where nothing that is under way stands leaves it at rest. -/
theorem resting_cacheSets {m : Mach} {tags : Tbl Tag} {data : Tbl Line} {sets : Tbl SetSt} (h : resting m = true) :
    resting { m with cache := { m.cache with tags, data, sets } } = true := h

theorem resting_setTag {m : Mach} {set way : Nat} {t : Tag} (h : resting m = true) : resting (setTag set way t m) = true := h

theorem resting_touch {m : Mach} {set way : Nat} (h : resting m = true) : resting (touch set way m) = true := by
  simp only [touch]
  split
  · exact resting_count (by exact h)
  · exact h

theorem resting_clearWords {m : Mach} {set way : Nat} {s : BitVec 4} (h : resting m = true) : resting (clearWords set way s m) = true := by
  rw [clearWords]
  split
  · exact h
  · exact h

theorem unperformed_markRewritten (l : LineNo) (m : Mach) : unperformed (markRewritten l m) = unperformed m := by
  have e : ((markRewritten l m).cache.writes.flatMap fun w => writeReqs openReq w.after) = m.cache.writes.flatMap fun w => writeReqs openReq w.after := by
    simp only [markRewritten, List.flatMap_map]
    refine List.flatMap_congr fun w _ => ?_
    split <;> rfl
  simp only [unperformed, underWay, e]
  rfl

theorem resting_markRewritten {m : Mach} {l : LineNo} (h : resting m = true) : resting (markRewritten l m) = true := by
  obtain ⟨k, l', w⟩ := (resting_iff m).mp h
  refine (resting_iff _).mpr ⟨⟨k.1, k.2, k.3, k.4, k.5, ?_, k.7, k.8, k.9,
    fun r hr => runRests_mono (by rw [unperformed_markRewritten]; exact fun _ h => h) (k.10 r hr), k.11, k.12, k.13, k.14, k.15, k.16, k.17, k.18, k.19, k.20, k.21, k.22, k.23⟩, l', w⟩
  intro x hx
  simp only [markRewritten, List.mem_map] at hx
  obtain ⟨y, hy, rfl⟩ := hx
  split
  · exact k.writes y hy
  · exact k.writes y hy

theorem resting_writeWay {m : Mach} {set way : Nat} {whole : Bool} {b : BitVec 128} {d : Line} {cls : BitVec 4} (h : resting m = true) :
    resting (writeWay set way whole b d cls m) = true := by
  simp only [writeWay]
  exact resting_markRewritten (resting_clearWords (by exact h))

theorem resting_setScat {m : Mach} {i : Nat} {x : Scatter} (h : resting m = true) : resting (setScat i x m) = true := h

end Sys2Proof.Machine
end

