-- ==== Sys2Proof/Laws/Keys.lean ====
section
/-! SUPPORT. Key slots: what erasing one does. -/

namespace Sys2Proof.Machine

/-- A key request sent is only something that left. -/
theorem resting_sendKreq {q : KReq} {m : Mach} (h : resting m = true) : resting (sendKreq q m) = true := by
  rw [sendKreq]; split <;> exact resting_emit h

/-- With every queued write issued, there is none to discard for a slot. -/
theorem discardWrites_rest (fx : Fixed) (k : BitVec 9) (m : Mach) (h : ∀ w ∈ m.cache.writes, w.issued = true) : discardWrites fx k m = m := by
  rw [discardWrites]
  split
  · rfl
  · have : (m.cache.writes.filter fun w => w.keyv && w.keyslot = k && !w.issued) = [] := by
      rw [List.filter_eq_nil_iff]
      intro w hw
      simp [h w hw]
    rw [this]; rfl

/-- A rotation sweep stopped leaves nothing to go on. -/
theorem resting_stopRot {k : BitVec 9} {m : Mach} (h : resting m = true) : resting (stopRot k m) = true := by
  obtain ⟨c, l, w⟩ := (resting_iff m).mp h
  exact (resting_iff _).mpr ⟨⟨c.1, c.2, c.3, c.4, c.5, c.6, c.7, c.8, c.9, c.10, c.11, c.12, c.13, c.14, c.15, c.16, c.17, fun r hr => c.18 r (List.mem_of_mem_filter hr), c.19, c.20, c.21, c.22, c.23⟩, l, w⟩

/-- An erasure replaces the slot, the requests, the grants and the sweeps, and sends its KACK; each generation named holds nothing. -/
theorem eraseSlot_frame (fx : Fixed) (k : BitVec 9) (a b : Bool) (m : Mach) : ∃ sl ks, eraseSlot fx k a b m = discardWrites fx k (emit (.kackSlot k false) (setSlot k sl { m with keys := ks })) ∧
    ks.rots = m.keys.rots.filter (·.slot ≠ k) ∧ ks.slots = (stopRot k m).keys.slots ∧ (a = true → sl.v0 = false ∧ sl.g0 = .zero) ∧ (b = true → sl.v1 = false ∧ sl.g1 = .zero) := by
  have hif : ∀ (p : Bool) (sl : KeySlot) (n : Mach), discardWrites fx k (emit (.kackSlot k false) (setSlot k sl (if p then { n with keys := { n.keys with grants := n.keys.grants.filter (·.slot ≠ k) } } else n))) =
      discardWrites fx k (emit (.kackSlot k false) (setSlot k sl { n with keys := { n.keys with grants := if p then n.keys.grants.filter (·.slot ≠ k) else n.keys.grants } })) := by
    intro p sl n; cases p <;> rfl
  rw [eraseSlot]
  refine ⟨_, _, (hif _ _ _).trans rfl, rfl, rfl, ?_, ?_⟩
  · rintro rfl
    cases b <;> simp only [if_true, if_false, Bool.false_eq_true] <;> split <;> exact ⟨rfl, rfl⟩
  · rintro rfl
    cases a <;> simp only [if_true, if_false, Bool.false_eq_true] <;> split <;> exact ⟨rfl, rfl⟩

/-- The slot after an erasure. -/
theorem eraseSlot_rest (fx : Fixed) (k : BitVec 9) (a b : Bool) (m : Mach) (h : resting m = true) :
    resting (eraseSlot fx k a b m) = true ∧ (twf .free m.keys.slots = true →
      (a = true → (kslot (eraseSlot fx k a b m) k).v0 = false ∧ (kslot (eraseSlot fx k a b m) k).g0 = .zero) ∧
      (b = true → (kslot (eraseSlot fx k a b m) k).v1 = false ∧ (kslot (eraseSlot fx k a b m) k).g1 = .zero)) := by
  obtain ⟨c, l, w⟩ := (resting_iff m).mp h
  obtain ⟨sl, ks, e, hr, hs, ha, hb⟩ := eraseSlot_frame fx k a b m
  have h1 : resting (emit (.kackSlot k false) (setSlot k sl { m with keys := ks })) = true := by
    refine resting_emit ?_
    refine (resting_iff _).mpr ⟨⟨c.1, c.2, c.3, c.4, c.5, c.6, c.7, c.8, c.9, c.10, c.11, c.12, c.13, c.14, c.15, c.16, c.17, ?_, c.19, c.20, c.21, c.22, c.23⟩, l, w⟩
    intro r hx
    have hx : r ∈ ks.rots := hx
    rw [hr] at hx
    exact c.18 r (List.mem_of_mem_filter hx)
  have hd : eraseSlot fx k a b m = emit (.kackSlot k false) (setSlot k sl { m with keys := ks }) := by
    rw [e]; exact discardWrites_rest _ _ _ ((resting_iff _).mp h1).1.writes
  rw [hd]
  refine ⟨h1, fun wf => ?_⟩
  have hk : kslot (emit (.kackSlot k false) (setSlot k sl { m with keys := ks })) k = sl := by
    obtain ⟨l, hl⟩ := emit_frame (.kackSlot k false) (setSlot k sl { m with keys := ks })
    rw [hl]
    refine tget_tset ?_ _ _
    show twf .free ks.slots = true
    rw [hs]
    exact twf_tset wf _ _
  rw [hk]
  exact ⟨ha, hb⟩

end Sys2Proof.Machine
end

