-- ==== Sys2Proof/Laws/Late.lean ====
section
/-! SUPPORT. Commands that are late: what the timeout of the one that is running does. The bounds are large numbers, so the lemmas
take the bound as a variable first. -/

namespace Sys2Proof.Machine

/-- A stage whose answer has been awaited for T cycles. -/
def lateStage (T : Nat) (m : Mach) (r : Run) : Bool :=
  match r.prog with | .stage _ _ _ (some _) f => decide (f + T ≤ m.cyc) | _ => false

theorem stageExpire_late (fx : Fixed) (n : Mach) : stageExpire fx n =
    match n.cmds.running.find? (lateStage 268435456 n) with | some r => complete fx r.cmd csWarn [0, 1] n | none => n := by
  rw [stageExpire]; rfl

theorem lateStage_one (T : Nat) (fx : Fixed) (n : Mach) (c : Rec) (b : Bool) (k : Nat) (i : List Line) (r : BitVec 16) (f : Nat)
    (hr : n.cmds.running = [⟨c, .stage b k i (some r) f⟩]) :
    (match n.cmds.running.find? (lateStage T n) with | some r => complete fx r.cmd csWarn [0, 1] n | none => n) =
      if f + T ≤ n.cyc then complete fx c csWarn [0, 1] n else n := by
  rw [hr]
  by_cases h : f + T ≤ n.cyc
  · simp only [List.find?, lateStage, h, decide_true, if_true]
  · simp only [List.find?, lateStage, h, decide_false, if_false]

/-- The one stage that is running, at its timeout. -/
theorem stageExpire_one (fx : Fixed) (n : Mach) (c : Rec) (b : Bool) (k : Nat) (i : List Line) (r : BitVec 16) (f : Nat)
    (hr : n.cmds.running = [⟨c, .stage b k i (some r) f⟩]) :
    stageExpire fx n = if f + 268435456 ≤ n.cyc then complete fx c csWarn [0, 1] n else n :=
  (stageExpire_late fx n).trans (lateStage_one 268435456 fx n c b k i r f hr)

/-- A quiesce that has waited for T cycles. -/
def lateQuiesce (T : Nat) (m : Mach) (r : Run) : Bool :=
  match r.prog with | .quiesce f _ => decide (f + T ≤ m.cyc) | _ => false

/-- What the quiesce that is late answers. -/
def quiesceLeft (m : Mach) (r : Run) : Nat :=
  match r.prog with | .quiesce _ ks => ((quiesceKeys m).filter fun k => decide (k ∈ ks)).length | _ => 0

/-- The reply of a quiesce whose time has run out. -/
def quiesceReply (fx : Fixed) (c : Rec) (n : Nat) (m : Mach) : Mach :=
  if n = 0 then complete fx c csDone [] m else complete fx c csWarn [0, BitVec.ofNat 64 n] m

theorem quiesceExpire_late (fx : Fixed) (n : Mach) : quiesceExpire fx n =
    match n.cmds.running.find? (lateQuiesce 1048576 n) with
    | some r => quiesceReply fx r.cmd (quiesceLeft n r) n
    | none => n := by
  rw [quiesceExpire]; rfl

theorem lateQuiesce_one (T : Nat) (fx : Fixed) (n : Mach) (c : Rec) (f : Nat) (ks : List (BitVec 16 × BitVec 12))
    (hr : n.cmds.running = [⟨c, .quiesce f ks⟩]) :
    (match n.cmds.running.find? (lateQuiesce T n) with
      | some r => quiesceReply fx r.cmd (quiesceLeft n r) n
      | none => n) =
      if f + T ≤ n.cyc then quiesceReply fx c ((quiesceKeys n).filter fun k => decide (k ∈ ks)).length n else n := by
  rw [hr]
  by_cases h : f + T ≤ n.cyc
  · simp only [List.find?, lateQuiesce, quiesceLeft, h, decide_true, if_true]
  · simp only [List.find?, lateQuiesce, h, decide_false, if_false]

/-- The one quiesce that is running, at its timeout. -/
theorem quiesceExpire_one (fx : Fixed) (n : Mach) (c : Rec) (f : Nat) (ks : List (BitVec 16 × BitVec 12))
    (hr : n.cmds.running = [⟨c, .quiesce f ks⟩]) :
    quiesceExpire fx n = if f + 1048576 ≤ n.cyc then quiesceReply fx c ((quiesceKeys n).filter fun k => decide (k ∈ ks)).length n else n :=
  (quiesceExpire_late fx n).trans (lateQuiesce_one 1048576 fx n c f ks hr)

end Sys2Proof.Machine
end

