-- ==== Sys2Proof/Laws/Rows.lean ====
section
/-! SUPPORT. What the row of each thing that is not a command says: which operation it is, on the block alone or on the fixed part too. -/

namespace Sys2Proof.Machine

theorem row_commandUnassigned (opcode : Byte) (c : CmdPkt) (s : State) :
    exec (.commandUnassigned opcode c) s = actM s fun fx m => arriveCmd fx (withOp opcode c) m := rfl

theorem row_nop (c : CmdPkt) (s : State) :
    exec (.nop c) s = actM s fun fx m => arriveCmd fx (withOp 0x00 c) m := rfl

theorem row_identify (c : CmdPkt) (s : State) :
    exec (.identify c) s = actM s fun fx m => arriveCmd fx (withOp 0x01 c) m := rfl

theorem row_pilotClaim (c : CmdPkt) (s : State) :
    exec (.pilotClaim c) s = actM s fun fx m => arriveCmd fx (withOp 0x02 c) m := rfl

theorem row_pilotRelease (c : CmdPkt) (s : State) :
    exec (.pilotRelease c) s = actM s fun fx m => arriveCmd fx (withOp 0x03 c) m := rfl

theorem row_pilotHandover (c : CmdPkt) (s : State) :
    exec (.pilotHandover c) s = actM s fun fx m => arriveCmd fx (withOp 0x04 c) m := rfl

theorem row_leaseRenew (c : CmdPkt) (s : State) :
    exec (.leaseRenew c) s = actM s fun fx m => arriveCmd fx (withOp 0x05 c) m := rfl

theorem row_stateQuery (c : CmdPkt) (s : State) :
    exec (.stateQuery c) s = actM s fun fx m => arriveCmd fx (withOp 0x06 c) m := rfl

theorem row_levelLock (c : CmdPkt) (s : State) :
    exec (.levelLock c) s = actM s fun fx m => arriveCmd fx (withOp 0x07 c) m := rfl

theorem row_ctxOpen (c : CmdPkt) (s : State) :
    exec (.ctxOpen c) s = actM s fun fx m => arriveCmd fx (withOp 0x10 c) m := rfl

theorem row_ctxSetClass (c : CmdPkt) (s : State) :
    exec (.ctxSetClass c) s = actM s fun fx m => arriveCmd fx (withOp 0x11 c) m := rfl

theorem row_ctxSuspend (c : CmdPkt) (s : State) :
    exec (.ctxSuspend c) s = actM s fun fx m => arriveCmd fx (withOp 0x12 c) m := rfl

theorem row_ctxResume (c : CmdPkt) (s : State) :
    exec (.ctxResume c) s = actM s fun fx m => arriveCmd fx (withOp 0x13 c) m := rfl

theorem row_ctxPurge (c : CmdPkt) (s : State) :
    exec (.ctxPurge c) s = actM s fun fx m => arriveCmd fx (withOp 0x14 c) m := rfl

theorem row_ctxClose (c : CmdPkt) (s : State) :
    exec (.ctxClose c) s = actM s fun fx m => arriveCmd fx (withOp 0x15 c) m := rfl

theorem row_ctxQuarantine (c : CmdPkt) (s : State) :
    exec (.ctxQuarantine c) s = actM s fun fx m => arriveCmd fx (withOp 0x16 c) m := rfl

theorem row_ctxQuarantineRelease (c : CmdPkt) (s : State) :
    exec (.ctxQuarantineRelease c) s = actM s fun fx m => arriveCmd fx (withFlag 0 (withOp 0x16 c)) m := rfl

theorem row_berthAlloc (c : CmdPkt) (s : State) :
    exec (.berthAlloc c) s = actM s fun fx m => arriveCmd fx (withOp 0x20 c) m := rfl

theorem row_arenaObjectAlloc (c : CmdPkt) (s : State) :
    exec (.arenaObjectAlloc c) s = actM s fun fx m => arriveCmd fx (withOp 0x20 c) m := rfl

theorem row_berthFree (c : CmdPkt) (s : State) :
    exec (.berthFree c) s = actM s fun fx m => arriveCmd fx (withOp 0x21 c) m := rfl

theorem row_berthFreeAbort (c : CmdPkt) (s : State) :
    exec (.berthFreeAbort c) s = actM s fun fx m => arriveCmd fx (withFlag 0 (withOp 0x21 c)) m := rfl

theorem row_arenaObjectFree (c : CmdPkt) (s : State) :
    exec (.arenaObjectFree c) s = actM s fun fx m => arriveCmd fx (withOp 0x21 c) m := rfl

theorem row_berthResize (c : CmdPkt) (s : State) :
    exec (.berthResize c) s = actM s fun fx m => arriveCmd fx (withOp 0x22 c) m := rfl

theorem row_arenaGrant (c : CmdPkt) (s : State) :
    exec (.arenaGrant c) s = actM s fun fx m => arriveCmd fx (withOp 0x23 c) m := rfl

theorem row_arenaRevoke (c : CmdPkt) (s : State) :
    exec (.arenaRevoke c) s = actM s fun fx m => arriveCmd fx (withOp 0x24 c) m := rfl

theorem row_queueCreate (c : CmdPkt) (s : State) :
    exec (.queueCreate c) s = actM s fun fx m => arriveCmd fx (withOp 0x25 c) m := rfl

theorem row_queueDestroy (c : CmdPkt) (s : State) :
    exec (.queueDestroy c) s = actM s fun fx m => arriveCmd fx (withOp 0x26 c) m := rfl

theorem row_pinBudget (c : CmdPkt) (s : State) :
    exec (.pinBudget c) s = actM s fun fx m => arriveCmd fx (withOp 0x27 c) m := rfl

theorem row_copy (c : CmdPkt) (s : State) :
    exec (.copy c) s = actM s fun fx m => arriveCmd fx (withOp 0x30 c) m := rfl

theorem row_copyMeasure (c : CmdPkt) (s : State) :
    exec (.copyMeasure c) s = actM s fun fx m => arriveCmd fx (withOp 0x31 c) m := rfl

theorem row_rangeClean (c : CmdPkt) (s : State) :
    exec (.rangeClean c) s = actM s fun fx m => arriveCmd fx (withOp 0x32 c) m := rfl

theorem row_rangeInval (c : CmdPkt) (s : State) :
    exec (.rangeInval c) s = actM s fun fx m => arriveCmd fx (withOp 0x33 c) m := rfl

theorem row_rangeFlush (c : CmdPkt) (s : State) :
    exec (.rangeFlush c) s = actM s fun fx m => arriveCmd fx (withOp 0x34 c) m := rfl

theorem row_rangeZero (c : CmdPkt) (s : State) :
    exec (.rangeZero c) s = actM s fun fx m => arriveCmd fx (withOp 0x35 c) m := rfl

theorem row_sparsePack (c : CmdPkt) (s : State) :
    exec (.sparsePack c) s = actM s fun fx m => arriveCmd fx (withOp 0x36 c) m := rfl

theorem row_sparseUnpack (c : CmdPkt) (s : State) :
    exec (.sparseUnpack c) s = actM s fun fx m => arriveCmd fx (withOp 0x37 c) m := rfl

theorem row_acquireSweep (c : CmdPkt) (s : State) :
    exec (.acquireSweep c) s = actM s fun fx m => arriveCmd fx (withOp 0x38 c) m := rfl

theorem row_tileOpen (c : CmdPkt) (s : State) :
    exec (.tileOpen c) s = actM s fun fx m => arriveCmd fx (withOp 0x40 c) m := rfl

theorem row_tileClose (c : CmdPkt) (s : State) :
    exec (.tileClose c) s = actM s fun fx m => arriveCmd fx (withOp 0x41 c) m := rfl

theorem row_tileDiscard (c : CmdPkt) (s : State) :
    exec (.tileDiscard c) s = actM s fun fx m => arriveCmd fx (withOp 0x42 c) m := rfl

theorem row_towlineSet (c : CmdPkt) (s : State) :
    exec (.towlineSet c) s = actM s fun fx m => arriveCmd fx (withOp 0x43 c) m := rfl

theorem row_towlineRelease (c : CmdPkt) (s : State) :
    exec (.towlineRelease c) s = actM s fun fx m => arriveCmd fx (withFlag 0 (withOp 0x43 c)) m := rfl

theorem row_scatterDescCreate (c : CmdPkt) (s : State) :
    exec (.scatterDescCreate c) s = actM s fun fx m => arriveCmd fx (withOp 0x44 c) m := rfl

theorem row_scatterDescRelease (c : CmdPkt) (s : State) :
    exec (.scatterDescRelease c) s = actM s fun fx m => arriveCmd fx (withFlag 0 (withOp 0x44 c)) m := rfl

theorem row_scatterDescQuery (c : CmdPkt) (s : State) :
    exec (.scatterDescQuery c) s = actM s fun fx m => arriveCmd fx (withFlag 1 (withOp 0x44 c)) m := rfl

theorem row_tileQuery (c : CmdPkt) (s : State) :
    exec (.tileQuery c) s = actM s fun fx m => arriveCmd fx (withOp 0x45 c) m := rfl

theorem row_syncCreate (c : CmdPkt) (s : State) :
    exec (.syncCreate c) s = actM s fun fx m => arriveCmd fx (withOp 0x50 c) m := rfl

theorem row_syncDestroy (c : CmdPkt) (s : State) :
    exec (.syncDestroy c) s = actM s fun fx m => arriveCmd fx (withOp 0x51 c) m := rfl

theorem row_syncSet (c : CmdPkt) (s : State) :
    exec (.syncSet c) s = actM s fun fx m => arriveCmd fx (withOp 0x52 c) m := rfl

theorem row_syncQuery (c : CmdPkt) (s : State) :
    exec (.syncQuery c) s = actM s fun fx m => arriveCmd fx (withOp 0x53 c) m := rfl

theorem row_syncShare (c : CmdPkt) (s : State) :
    exec (.syncShare c) s = actM s fun fx m => arriveCmd fx (withOp 0x54 c) m := rfl

theorem row_syncShareRemove (c : CmdPkt) (s : State) :
    exec (.syncShareRemove c) s = actM s fun fx m => arriveCmd fx (withFlag 0 (withOp 0x54 c)) m := rfl

theorem row_jamExport (c : CmdPkt) (s : State) :
    exec (.jamExport c) s = actM s fun fx m => arriveCmd fx (withOp 0x55 c) m := rfl

theorem row_classSet (c : CmdPkt) (s : State) :
    exec (.classSet c) s = actM s fun fx m => arriveCmd fx (withOp 0x60 c) m := rfl

theorem row_reserveBw (c : CmdPkt) (s : State) :
    exec (.reserveBw c) s = actM s fun fx m => arriveCmd fx (withOp 0x61 c) m := rfl

theorem row_releaseBw (c : CmdPkt) (s : State) :
    exec (.releaseBw c) s = actM s fun fx m => arriveCmd fx (withOp 0x62 c) m := rfl

theorem row_latencyTolerance (c : CmdPkt) (s : State) :
    exec (.latencyTolerance c) s = actM s fun fx m => arriveCmd fx (withOp 0x70 c) m := rfl

theorem row_seasonQuery (c : CmdPkt) (s : State) :
    exec (.seasonQuery c) s = actM s fun fx m => arriveCmd fx (withOp 0x71 c) m := rfl

theorem row_thawGrant (c : CmdPkt) (s : State) :
    exec (.thawGrant c) s = actM s fun fx m => arriveCmd fx (withOp 0x72 c) m := rfl

theorem row_keyBind (c : CmdPkt) (s : State) :
    exec (.keyBind c) s = actM s fun fx m => arriveCmd fx (withOp 0x80 c) m := rfl

theorem row_keyBindRevoke (c : CmdPkt) (s : State) :
    exec (.keyBindRevoke c) s = actM s fun fx m => arriveCmd fx (withFlag 0 (withOp 0x80 c)) m := rfl

theorem row_keyRotate (c : CmdPkt) (s : State) :
    exec (.keyRotate c) s = actM s fun fx m => arriveCmd fx (withOp 0x81 c) m := rfl

theorem row_keyRetire (c : CmdPkt) (s : State) :
    exec (.keyRetire c) s = actM s fun fx m => arriveCmd fx (withOp 0x82 c) m := rfl

theorem row_keyErase (c : CmdPkt) (s : State) :
    exec (.keyErase c) s = actM s fun fx m => arriveCmd fx (withOp 0x83 c) m := rfl

theorem row_confAttach (c : CmdPkt) (s : State) :
    exec (.confAttach c) s = actM s fun fx m => arriveCmd fx (withOp 0x84 c) m := rfl

theorem row_measureRead (c : CmdPkt) (s : State) :
    exec (.measureRead c) s = actM s fun fx m => arriveCmd fx (withOp 0x85 c) m := rfl

theorem row_scrubContext (c : CmdPkt) (s : State) :
    exec (.scrubContext c) s = actM s fun fx m => arriveCmd fx (withOp 0x86 c) m := rfl

theorem row_errlogRead (c : CmdPkt) (s : State) :
    exec (.errlogRead c) s = actM s fun fx m => arriveCmd fx (withOp 0x90 c) m := rfl

theorem row_scrubRate (c : CmdPkt) (s : State) :
    exec (.scrubRate c) s = actM s fun fx m => arriveCmd fx (withOp 0x91 c) m := rfl

theorem row_inject (c : CmdPkt) (s : State) :
    exec (.inject c) s = actM s fun fx m => arriveCmd fx (withOp 0x92 c) m := rfl

theorem row_bankSpare (c : CmdPkt) (s : State) :
    exec (.bankSpare c) s = actM s fun fx m => arriveCmd fx (withOp 0x93 c) m := rfl

theorem row_wayDisable (c : CmdPkt) (s : State) :
    exec (.wayDisable c) s = actM s fun fx m => arriveCmd fx (withOp 0x94 c) m := rfl

theorem row_wayRestore (c : CmdPkt) (s : State) :
    exec (.wayRestore c) s = actM s fun fx m => arriveCmd fx (withFlag 0 (withOp 0x94 c)) m := rfl

theorem row_dirReclaim (c : CmdPkt) (s : State) :
    exec (.dirReclaim c) s = actM s fun fx m => arriveCmd fx (withOp 0x95 c) m := rfl

theorem row_poisonClear (c : CmdPkt) (s : State) :
    exec (.poisonClear c) s = actM s fun fx m => arriveCmd fx (withOp 0x96 c) m := rfl

theorem row_engineReset (c : CmdPkt) (s : State) :
    exec (.engineReset c) s = actM s fun fx m => arriveCmd fx (withOp 0x97 c) m := rfl

theorem row_sliceFenceMode0 (c : CmdPkt) (s : State) :
    exec (.sliceFenceMode0 c) s = actM s fun fx m => arriveCmd fx (withMode false (withOp 0x98 c)) m := rfl

theorem row_sliceFenceMode1 (c : CmdPkt) (s : State) :
    exec (.sliceFenceMode1 c) s = actM s fun fx m => arriveCmd fx (withMode true (withOp 0x98 c)) m := rfl

theorem row_pmcConfig (c : CmdPkt) (s : State) :
    exec (.pmcConfig c) s = actM s fun fx m => arriveCmd fx (withOp 0xA0 c) m := rfl

theorem row_pmcDumpSet (c : CmdPkt) (s : State) :
    exec (.pmcDumpSet c) s = actM s fun fx m => arriveCmd fx (withOp 0xA1 c) m := rfl

theorem row_pmcPermit (c : CmdPkt) (s : State) :
    exec (.pmcPermit c) s = actM s fun fx m => arriveCmd fx (withOp 0xA2 c) m := rfl

theorem row_debugOpen (c : CmdPkt) (s : State) :
    exec (.debugOpen c) s = actM s fun fx m => arriveCmd fx (withOp 0xA8 c) m := rfl

theorem row_debugClose (c : CmdPkt) (s : State) :
    exec (.debugClose c) s = actM s fun fx m => arriveCmd fx (withOp 0xA9 c) m := rfl

theorem row_fwStage (c : CmdPkt) (s : State) :
    exec (.fwStage c) s = actM s fun fx m => arriveCmd fx (withOp 0xF0 c) m := rfl

theorem row_fwActivate (c : CmdPkt) (s : State) :
    exec (.fwActivate c) s = actM s fun fx m => arriveCmd fx (withOp 0xF1 c) m := rfl

theorem row_fwQuery (c : CmdPkt) (s : State) :
    exec (.fwQuery c) s = actM s fun fx m => arriveCmd fx (withOp 0xF2 c) m := rfl

theorem row_pwrOkRise (s : State) :
    exec (.pwrOkRise) s = actM s fun _ m => powerGood m := rfl

theorem row_warmRstAssert (s : State) :
    exec (.warmRstAssert) s = .next { s with m := warmReset s.m } := rfl

theorem row_resetRelease (s : State) :
    exec (.resetRelease) s = actM s fun _ m => releaseReset m := rfl

theorem row_leaveOffForInit (s : State) :
    exec (.leaveOffForInit) s = actM s fun _ m => leaveOff m := rfl

theorem row_isoNChange (level : Bool) (s : State) :
    exec (.isoNChange level) s = actM s fun _ m => driveIso level m := rfl

theorem row_vddSwRemoval (vddRetToo : Bool) (s : State) :
    exec (.vddSwRemoval vddRetToo) s = actM s fun _ m => dropSupply vddRetToo m := rfl

theorem row_fwload (request : BitVec 16) (bank : Bool) (offset : BitVec 18) (beats : List W64) (parityOk : Bool) (s : State) :
    exec (.fwload request bank offset beats parityOk) s = actM s fun _ m => fwLoad request bank offset beats parityOk m := rfl

theorem row_fwdone (request : BitVec 16) (result : Byte) (version : W32) (parityOk : Bool) (s : State) :
    exec (.fwdone request result version parityOk) s = actM s fun fx m => fwDone fx request result version parityOk m := rfl

theorem row_firmwareLoadTimeout (cyc : Nat) (s : State) :
    exec (.firmwareLoadTimeout cyc) s = actAt s cyc fun _ m => fwLoadExpire m := rfl

theorem row_controllerStart (s : State) :
    exec (.controllerStart) s = actM s fun _ m => startController m := rfl

theorem row_arrayBist (f : BistFindings) (s : State) :
    exec (.arrayBist f) s = actM s fun _ m => runBist f m := rfl

theorem row_repairLoad (s : State) :
    exec (.repairLoad) s = actM s fun fx m => loadRepairs fx m := rfl

theorem row_hardwareInvalidate (s : State) :
    exec (.hardwareInvalidate) s = actM s fun _ m => invalidate m := rfl

theorem row_tapFuseRepairShift (bits : BitVec 2048) (s : State) :
    exec (.tapFuseRepairShift bits) s = actM s fun _ m => shiftFuses bits m := rfl

theorem row_tapBistCtlWrite (val : W32) (f : BistFindings) (s : State) :
    exec (.tapBistCtlWrite val f) s = actM s fun _ m => testBist val f m := rfl

theorem row_tapScanEnWrite (b : Bool) (s : State) :
    exec (.tapScanEnWrite b) s = actM s fun _ m => setScan b m := rfl

theorem row_tapScanChainAccess (chain : Nat) (bits : List Bool) (s : State) :
    exec (.tapScanChainAccess chain bits) s = actM s fun _ m => shiftChain bits m := rfl

theorem row_sliceAliveToggle (s : State) :
    exec (.sliceAliveToggle) s = actM s fun _ m => toggleAlive m := rfl

theorem row_controllerStops (s : State) :
    exec (.controllerStops) s = actM s fun _ m => stopController m := rfl

theorem row_rd (r : Req) (s : State) :
    exec (.rd r) s = actM s fun fx m => arriveDp fx opRD r m := rfl

theorem row_rdVol (r : Req) (s : State) :
    exec (.rdVol r) s = actM s fun fx m => arriveDp fx opRDVOL r m := rfl

theorem row_rdStream (r : Req) (s : State) :
    exec (.rdStream r) s = actM s fun fx m => arriveDp fx opRDSTREAM r m := rfl

theorem row_wr (r : Req) (s : State) :
    exec (.wr r) s = actM s fun fx m => arriveDp fx opWR r m := rfl

theorem row_wrThru (r : Req) (s : State) :
    exec (.wrThru r) s = actM s fun fx m => arriveDp fx opWRTHRU r m := rfl

theorem row_wrFull (r : Req) (s : State) :
    exec (.wrFull r) s = actM s fun fx m => arriveDp fx opWRFULL r m := rfl

theorem row_atom (r : Req) (s : State) :
    exec (.atom r) s = actM s fun fx m => arriveDp fx opATOM r m := rfl

theorem row_atomRet (r : Req) (s : State) :
    exec (.atomRet r) s = actM s fun fx m => arriveDp fx opATOMRET r m := rfl

theorem row_lred (r : Req) (s : State) :
    exec (.lred r) s = actM s fun fx m => arriveDp fx opLRED r m := rfl

theorem row_tcontrib (r : Req) (s : State) :
    exec (.tcontrib r) s = actM s fun fx m => arriveDp fx opTCONTRIB r m := rfl

theorem row_tcontribW (r : Req) (s : State) :
    exec (.tcontribW r) s = actM s fun fx m => arriveDp fx opTCONTRIBW r m := rfl

theorem row_tfoldFold (r : Req) (s : State) :
    exec (.tfoldFold r) s = actM s fun fx m => arriveDp fx opTFOLD { r with subop := 0 } m := rfl

theorem row_tfoldSegment (r : Req) (s : State) :
    exec (.tfoldSegment r) s = actM s fun fx m => arriveDp fx opTFOLD { r with subop := 1 } m := rfl

theorem row_tfoldAbort (r : Req) (s : State) :
    exec (.tfoldAbort r) s = actM s fun fx m => arriveDp fx opTFOLD { r with subop := 2 } m := rfl

theorem row_signal (r : Req) (s : State) :
    exec (.signal r) s = actM s fun fx m => arriveDp fx opSIGNAL r m := rfl

theorem row_wait (r : Req) (s : State) :
    exec (.wait r) s = actM s fun fx m => arriveDp fx opWAIT r m := rfl

theorem row_brd (r : Req) (s : State) :
    exec (.brd r) s = actM s fun fx m => arriveDp fx opBRD r m := rfl

theorem row_bwr (r : Req) (s : State) :
    exec (.bwr r) s = actM s fun fx m => arriveDp fx opBWR r m := rfl

theorem row_qenq (r : Req) (s : State) :
    exec (.qenq r) s = actM s fun fx m => arriveDp fx opQENQ r m := rfl

theorem row_qdeq (r : Req) (s : State) :
    exec (.qdeq r) s = actM s fun fx m => arriveDp fx opQDEQ r m := rfl

theorem row_scatterRed (r : Req) (s : State) :
    exec (.scatterRed r) s = actM s fun fx m => arriveDp fx opSCATTER r m := rfl

theorem row_pfHint (r : Req) (s : State) :
    exec (.pfHint r) s = actM s fun fx m => arriveDp fx opPFHINT r m := rfl

theorem row_dataPlaneUnassignedOpcode (op : BitVec 6) (r : Req) (s : State) :
    exec (.dataPlaneUnassignedOpcode op r) s = actM s fun fx m => arriveDp fx op r m := rfl

theorem row_contribAdmit (stop : Stop) (s : State) :
    exec (.contribAdmit stop) s = actM s fun fx m => admitBatch fx stop m := rfl

theorem row_tileDrain (tile : BitVec 13) (s : State) :
    exec (.tileDrain tile) s = actM s fun fx m => beginDrain fx tile.toNat m := rfl

theorem row_towlineForward (hop : BitVec 10) (s : State) :
    exec (.towlineForward hop) s = actM s fun fx m => forwardLine fx hop.toNat m := rfl

theorem row_towlineForwardRetry (hop : BitVec 10) (line : BitVec 6) (cyc : Nat) (s : State) :
    exec (.towlineForwardRetry hop line cyc) s = actAt s cyc fun fx m => forwardAgain fx hop.toNat line m := rfl

theorem row_segmentResponse (stop : Stop) (tag : BitVec 12) (status : BitVec 4) (s : State) :
    exec (.segmentResponse stop tag status) s = actM s fun fx m => segAnswer fx stop tag status m := rfl

theorem row_hopTimeout (hop : BitVec 10) (cyc : Nat) (s : State) :
    exec (.hopTimeout hop cyc) s = actAt s cyc fun fx m => hopExpire fx hop.toNat m := rfl

theorem row_memReadReturn (ticket : BitVec 10) (data : Line) (md : Meta) (ue : Bool) (s : State) :
    exec (.memReadReturn ticket data md ue) s = actM s fun fx m => readReturn fx ticket data md ue m := rfl

theorem row_memWriteAck (index : BitVec 10) (s : State) :
    exec (.memWriteAck index) s = actM s fun fx m => match m.cache.writes.find? fun w => w.index = index && w.issued with | some w => portAck fx w m | none => m := rfl

theorem row_slipwayIssue (s : State) :
    exec (.slipwayIssue) s = actM s fun fx m => pump fx m := rfl

theorem row_memoryPortCredit (lines cycles : Nat) (s : State) :
    exec (.memoryPortCredit lines cycles) s = actM s fun fx m => portCredit fx lines cycles m := rfl

theorem row_replayRetry (quad : BitVec 2) (pos : Nat) (s : State) :
    exec (.replayRetry quad pos) s = actM s fun fx m => retryParked fx quad.toNat pos m := rfl

theorem row_manifestCount (manifest : BitVec 14) (s : State) :
    exec (.manifestCount manifest) s = actM s fun fx m => countArrives fx manifest m := rfl

theorem row_manifestCoalescerDrain (manifest : BitVec 14) (s : State) :
    exec (.manifestCoalescerDrain manifest) s = actM s fun _ m => drainCoal manifest m := rfl

theorem row_queueNotify (queue : BitVec 10) (s : State) :
    exec (.queueNotify queue) s = actM s fun fx m => notifyArrives fx queue m := rfl

theorem row_waitTimeout (source : BitVec 16) (tag : BitVec 12) (cyc : Nat) (s : State) :
    exec (.waitTimeout source tag cyc) s = actAt s cyc fun fx m => waitExpires fx source tag m := rfl

theorem row_syncIndexHoldExpiry (index : BitVec 14) (cyc : Nat) (s : State) :
    exec (.syncIndexHoldExpiry index cyc) s = actAt s cyc fun _ m => releaseIndex index m := rfl

theorem row_jamEdgeExport (cyc : Nat) (s : State) :
    exec (.jamEdgeExport cyc) s = actAt s cyc fun fx m => jamTick fx m := rfl

theorem row_hostMemrd (h : HostMsg) (s : State) :
    exec (.hostMemrd h) s = actM s fun fx m => arriveHost fx 0 1 h m := rfl

theorem row_hostMemrddata (h : HostMsg) (s : State) :
    exec (.hostMemrddata h) s = actM s fun fx m => arriveHost fx 0 2 h m := rfl

theorem row_hostMeminv (h : HostMsg) (s : State) :
    exec (.hostMeminv h) s = actM s fun fx m => arriveHost fx 0 0 h m := rfl

theorem row_hostMemspecrd (h : HostMsg) (s : State) :
    exec (.hostMemspecrd h) s = actM s fun fx m => arriveHost fx 0 5 h m := rfl

theorem row_hostMemclnevct (h : HostMsg) (s : State) :
    exec (.hostMemclnevct h) s = actM s fun fx m => arriveHost fx 0 7 h m := rfl

theorem row_hostBiconflict (h : HostMsg) (s : State) :
    exec (.hostBiconflict h) s = actM s fun fx m => arriveHost fx 0 8 h m := rfl

theorem row_hostMemwr (h : HostMsg) (s : State) :
    exec (.hostMemwr h) s = actM s fun fx m => arriveHost fx 1 0 h m := rfl

theorem row_hostMemwrptl (h : HostMsg) (s : State) :
    exec (.hostMemwrptl h) s = actM s fun fx m => arriveHost fx 1 1 h m := rfl

theorem row_hostMsgRefused (cls msg : BitVec 4) (h : HostMsg) (s : State) :
    exec (.hostMsgRefused cls msg h) s = actM s fun fx m => if cls = 2 then serveBirsp fx msg h m else arriveHost fx cls msg h m := rfl

theorem row_hostBirsp (msg : BitVec 4) (h : HostMsg) (s : State) :
    exec (.hostBirsp msg h) s = actM s fun fx m => serveBirsp fx msg h m := rfl

theorem row_snoopTimeout (ctag : BitVec 16) (cyc : Nat) (s : State) :
    exec (.snoopTimeout ctag cyc) s = actAt s cyc fun fx m => snoopLate fx ctag m := rfl

theorem row_kload (slot : BitVec 9) (gen : Bool) (request : BitVec 16) (dataKey tweakKey tagKey : BitVec 256) (check : W64) (parityOk checkOk : Bool) (s : State) :
    exec (.kload slot gen request dataKey tweakKey tagKey check parityOk checkOk) s = actM s fun fx m =>
    if keyBusUp m then kloadArrive fx slot gen request ⟨dataKey, tweakKey, tagKey, check⟩ (parityOk && checkOk) m else m := rfl

theorem row_knack (request : BitVec 16) (reason : Byte) (s : State) :
    exec (.knack request reason) s = actM s fun fx m => if keyBusUp m then knackArrive fx request reason m else m := rfl

theorem row_kerase (slot : BitVec 9) (sel : BitVec 2) (s : State) :
    exec (.kerase slot sel) s = actM s fun fx m => if keyBusUp m then kerase fx slot sel m else m := rfl

theorem row_keyRetireReadsDrained (slot : BitVec 9) (s : State) :
    exec (.keyRetireReadsDrained slot) s = actM s fun fx m => retireDrained fx slot m := rfl

theorem row_sbRead (site : Byte) (rsvd : BitVec 4) (offset : BitVec 16) (data : W32) (s : State) :
    exec (.sbRead site rsvd offset data) s = act s fun fx m => sbRead fx site rsvd offset data m := rfl

theorem row_sbWrite (site : Byte) (rsvd : BitVec 4) (offset : BitVec 16) (data : W32) (s : State) :
    exec (.sbWrite site rsvd offset data) s = act s fun fx m => sbWrite fx site rsvd offset data m := rfl

theorem row_sbCmd (site : Byte) (c : CmdPkt) (s : State) :
    exec (.sbCmd site c) s = actM s fun fx m => if site = fx.siteId then arriveCmd fx { c with path := .sideband } m else m := rfl

theorem row_sbTransferIgnored (site : Byte) (kind : BitVec 4) (s : State) :
    exec (.sbTransferIgnored site kind) s = actM s fun fx m => if site = fx.siteId ∧ 2 < kind.toNat then count 0x010 m else m := rfl

theorem row_windowAccess (stop : Stop) (peer : BitVec 16) (env : BitVec 44) (w0 w1 : W64) (s : State) :
    exec (.windowAccess stop peer env w0 w1) s = act s fun fx m => windowPacket fx stop peer env w0 w1 m := rfl

theorem row_vc2PacketDiscard (kind : BitVec 4) (peer : BitVec 16) (env : BitVec 44) (body : List W64) (s : State) :
    exec (.vc2PacketDiscard kind peer env body) s = actM s fun fx m => discardVc2 fx kind peer env body m := rfl

theorem row_registerWrite (path : Path) (eight : Bool) (offset : BitVec 16) (data : W64) (s : State) :
    exec (.registerWrite path eight offset data) s = act s fun fx m => winWrite fx path eight offset.toNat data m := rfl

theorem row_cmdqCtlWrite (path : Path) (fabric : Bool) (data : W32) (s : State) :
    exec (.cmdqCtlWrite path fabric data) s = act s fun fx m => pathWrite fx path false (if fabric then 0x0140 else 0x0100) (data.zeroExtend 64) m := rfl

theorem row_cmdqTailWrite (path : Path) (fabric : Bool) (data : W32) (s : State) :
    exec (.cmdqTailWrite path fabric data) s = act s fun fx m => pathWrite fx path false (if fabric then 0x0160 else 0x0120) (data.zeroExtend 64) m := rfl

theorem row_rplqHeadWrite (path : Path) (fabric : Bool) (data : W32) (s : State) :
    exec (.rplqHeadWrite path fabric data) s = act s fun fx m => pathWrite fx path false (if fabric then 0x016C else 0x012C) (data.zeroExtend 64) m := rfl

theorem row_evqCtlWrite (path : Path) (data : W32) (s : State) :
    exec (.evqCtlWrite path data) s = act s fun fx m => pathWrite fx path false 0x0180 (data.zeroExtend 64) m := rfl

theorem row_evqHeadWrite (path : Path) (data : W32) (s : State) :
    exec (.evqHeadWrite path data) s = act s fun fx m => pathWrite fx path false 0x0194 (data.zeroExtend 64) m := rfl

theorem row_recovCtlHwfence (path : Path) (data : W32) (s : State) :
    exec (.recovCtlHwfence path data) s = act s fun fx m => pathWrite fx path false 0x0230 (data.zeroExtend 64) m := rfl

theorem row_dbgPeekAddrWrite (path : Path) (data : W64) (s : State) :
    exec (.dbgPeekAddrWrite path data) s = act s fun fx m => pathWrite fx path true 0x3008 data m := rfl

theorem row_pmcRdWrite (path : Path) (data : W32) (s : State) :
    exec (.pmcRdWrite path data) s = act s fun fx m => pathWrite fx path false 0x2554 (data.zeroExtend 64) m := rfl

theorem row_redCtlWrite (path : Path) (data : W32) (s : State) :
    exec (.redCtlWrite path data) s = act s fun fx m => pathWrite fx path false 0x0208 (data.zeroExtend 64) m := rfl

theorem row_krtWrite (path : Path) (n : BitVec 6) (data : W64) (s : State) :
    exec (.krtWrite path n data) s = act s fun fx m => pathWrite fx path true (0x2000 + 8 * n.toNat) data m := rfl

theorem row_bootCtlWrite (path : Path) (data : W32) (s : State) :
    exec (.bootCtlWrite path data) s = act s fun fx m => pathWrite fx path false 0x0250 (data.zeroExtend 64) m := rfl

theorem row_hcAgentWrite (path : Path) (n : BitVec 4) (data : W32) (s : State) :
    exec (.hcAgentWrite path n data) s = act s fun fx m => pathWrite fx path false (0x0280 + 4 * n.toNat) (data.zeroExtend 64) m := rfl

theorem row_ringFetch (fabric : Bool) (s : State) :
    exec (.ringFetch fabric) s = actM s fun fx m => ringFetch fx fabric m := rfl

theorem row_pilotLeaseExpiry (cyc : Nat) (s : State) :
    exec (.pilotLeaseExpiry cyc) s = actAt s cyc fun fx m => leaseExpire fx m := rfl

theorem row_quarantineTimeout (ctx : Ctx) (cyc : Nat) (s : State) :
    exec (.quarantineTimeout ctx cyc) s = actAt s cyc fun fx m => quarantineExpire fx ctx m := rfl

theorem row_berthGranulesRelease (berth : BitVec 12) (s : State) :
    exec (.berthGranulesRelease berth) s = actM s fun fx m => releaseIfDone fx berth.toNat m := rfl

theorem row_copyEngineStart (s : State) :
    exec (.copyEngineStart) s = actM s fun fx m => startCopy fx m := rfl

theorem row_maintEngineStart (s : State) :
    exec (.maintEngineStart) s = actM s fun fx m => startMaint fx m := rfl

theorem row_sweepNoticeSend (s : State) :
    exec (.sweepNoticeSend) s = actM s fun fx m => sendNotice fx m := rfl

theorem row_sweepAck (peer : BitVec 16) (env : BitVec 44) (w0 w1 w2 w3 : W64) (s : State) :
    exec (.sweepAck peer env w0 w1 w2 w3) s = actM s fun fx m => sweepReply fx peer env w0 m := rfl

theorem row_sweepNoticeTimeout (cluster : BitVec 7) (cyc : Nat) (s : State) :
    exec (.sweepNoticeTimeout cluster cyc) s = actAt s cyc fun fx m => expireNotice fx cluster m := rfl

theorem row_effWindowEnd (cyc : Nat) (s : State) :
    exec (.effWindowEnd cyc) s = actAt s cyc fun fx m => effWindow fx m := rfl

theorem row_autumnEntry (domain : Fin 82) (s : State) :
    exec (.autumnEntry domain) s = actM s fun _ m => autumnEnter domain.val m := rfl

theorem row_seasonWindowEnd (cyc : Nat) (s : State) :
    exec (.seasonWindowEnd cyc) s = actAt s cyc fun fx m => seasonWindow fx m := rfl

theorem row_winterEntryComplete (domain : Fin 82) (s : State) :
    exec (.winterEntryComplete domain) s = actM s fun _ m => winterEnter domain.val m := rfl

theorem row_frostEntryComplete (domain : Fin 82) (s : State) :
    exec (.frostEntryComplete domain) s = actM s fun fx m => frostEnter fx domain.val m := rfl

theorem row_thawStart (s : State) :
    exec (.thawStart) s = actM s fun _ m => thawBegin m := rfl

theorem row_thawComplete (domain : Fin 82) (s : State) :
    exec (.thawComplete domain) s = actM s fun _ m => thawEnd domain.val m := rfl

theorem row_scrubStep (upset : Option Upset) (s : State) :
    exec (.scrubStep upset) s = actM s fun fx m => scrubStep fx upset m := rfl

theorem row_memoryScrubStep (s : State) :
    exec (.memoryScrubStep) s = actM s fun fx m => memScrubStep fx m := rfl

theorem row_rotationSweepStep (s : State) :
    exec (.rotationSweepStep) s = actM s fun fx m => rotStep fx m := rfl

theorem row_quiesceDrained (s : State) :
    exec (.quiesceDrained) s = actM s fun fx m => quiesceEnd fx m := rfl

theorem row_quiesceTimeout (cyc : Nat) (s : State) :
    exec (.quiesceTimeout cyc) s = actAt s cyc fun fx m => quiesceExpire fx m := rfl

theorem row_dumpDue (cyc : Nat) (s : State) :
    exec (.dumpDue cyc) s = actAt s cyc fun fx m => dumpDue fx m := rfl

theorem row_viewRecordWrite (cyc : Nat) (s : State) :
    exec (.viewRecordWrite cyc) s = actAt s cyc fun fx m => viewTick fx m := rfl

theorem row_confidentialLatch (cyc : Nat) (s : State) :
    exec (.confidentialLatch cyc) s = actAt s cyc fun _ m => confLatch m := rfl

theorem row_pmTlmWindowEnd (sum count cyc : Nat) (s : State) :
    exec (.pmTlmWindowEnd sum count cyc) s = actAt s cyc fun _ m => pmTlmWindow sum count m := rfl

theorem row_fwStageTimeout (cyc : Nat) (s : State) :
    exec (.fwStageTimeout cyc) s = actAt s cyc fun fx m => stageExpire fx m := rfl

theorem row_fwActivateReady (s : State) :
    exec (.fwActivateReady) s = actM s fun fx m => activateReady fx m := rfl

theorem row_fwActivateTimeout (cyc : Nat) (s : State) :
    exec (.fwActivateTimeout cyc) s = actAt s cyc fun fx m => activateExpire fx m := rfl

theorem row_pinPressureWindowEnd (cyc : Nat) (s : State) :
    exec (.pinPressureWindowEnd cyc) s = actAt s cyc fun fx m => pressureWindow fx m := rfl

theorem row_teardownHoldExpiry (ctx : Ctx) (cyc : Nat) (s : State) :
    exec (.teardownHoldExpiry ctx cyc) s = actAt s cyc fun _ m => holdEnds ctx m := rfl

theorem row_eventRecordWrite (s : State) :
    exec (.eventRecordWrite) s = actM s fun fx m => eventWrite fx m := rfl

theorem row_hwFencePowerOff (cyc : Nat) (s : State) :
    exec (.hwFencePowerOff cyc) s = actAt s cyc fun _ m => hwFenceOff m := rfl

theorem row_peekResult (s : State) :
    exec (.peekResult) s = actM s fun _ m => peekResult m := rfl

theorem row_reservationTokenRefill (cls : BitVec 4) (s : State) :
    exec (.reservationTokenRefill cls) s = actM s fun fx m => tokenRefill fx cls.toNat m := rfl

end Sys2Proof.Machine
end

