-- ==== Sys2Proof/Laws/Season.lean ====
section
/-! SUPPORT. The domains' table, and what grants of bandwidth can change. -/

namespace Sys2Proof.Machine

/-- A domain's record after a write to one of them. -/
theorem dom_setDom (i j : Nat) (d : Dom) (m : Mach) : dom (setDom i d m) j = if i = j ∧ i < 82 then d else dom m j := by
  by_cases h : j < 82
  · by_cases e : i = j
    · subst e; simp [dom, setDom, Vector.getD, h]
    · simp [dom, setDom, Vector.getD, h, e]
  · rw [if_neg (by omega)]
    simp [dom, setDom, Vector.getD, h]

/-- A domain's record replaced by one that a thaw queued for it would still find asleep or on its way, as would a step that waits for it. -/
theorem resting_setDom {i : Nat} {d : Dom} {m : Mach} (h : resting m = true)
    (hd : ∀ t ∈ m.season.queue, t.dom = i → !(d.season = .summer || d.season = .autumn) || d.entering.isSome)
    (ha : ∀ x ∈ m.season.asleep, x.2 = i → ((d.season = .summer || d.season = .autumn) && !(d.entering = some .frost)) = false) :
    resting (setDom i d m) = true := by
  obtain ⟨k, l, w⟩ := (resting_iff m).mp h
  refine (resting_iff _).mpr ⟨⟨k.1, k.2, k.3, k.4, k.5, k.6, k.7, k.8, k.9, k.10, k.11, k.12, k.13, k.14, k.15, k.16, ?_, k.18, k.19, k.20, ?_, k.22, k.23⟩, l, w⟩
  swap
  · intro x hx
    rw [domReady, dom_setDom]
    split
    · rename_i e
      exact ha x hx e.1.symm
    · exact k.asleep x hx
  intro t ht
  have := k.thaws t ht
  rw [thawRests, dom_setDom]
  split
  · rename_i e
    exact hd t ht e.1.symm
  · exact this

/-- Grants recomputed change the classes, and with a change of the shed set the event ring, the counters and what has left. -/
theorem regrant_frame (fx : Fixed) (b : Nat) (m : Mach) : ∃ q e l p, regrant fx b m = { m with qos := q, evq := e, out := l, pmc := p } := by
  have set : ∀ (f : Mach → Nat → Cls) (cs : List Nat) (n : Mach), ∃ q, cs.foldl (fun m i => setCls i (f m i) m) n = { n with qos := q } := by
    intro f cs
    induction cs with
    | nil => intro n; exact ⟨n.qos, rfl⟩
    | cons i t ih =>
      intro n
      obtain ⟨q, hq⟩ := ih (setCls i (f n i) n)
      exact ⟨q, by rw [List.foldl_cons, hq]; rfl⟩
  have level : ∀ (b room : Nat) (n : Mach), ∃ q, (grantLevel b room n).1 = { n with qos := q } := by
    intro b room n
    simp only [grantLevel]
    split
    · exact set (fun m i => { clsOf m i with grant := (clsOf m i).resv }) _ n
    · exact set (fun m i => { clsOf m i with grant := BitVec.ofNat 13 (room * (clsOf m i).resv.toNat / _) }) _ n
  have levels : ∀ (b room : Nat) (n : Mach), ∃ q, grantLevels b room n = { n with qos := q } := by
    intro b
    induction b with
    | zero => intro room n; exact level 0 room n
    | succ b ih =>
      intro room n
      obtain ⟨q, hq⟩ := level (b + 1) room n
      rw [grantLevels]
      simp only [hq]
      obtain ⟨q', hq'⟩ := ih (grantLevel (b + 1) room n).2 { n with qos := q }
      exact ⟨q', by rw [hq']⟩
  have drops : ∀ (cs : List Nat) (n : Mach), ∃ q, cs.foldl (fun m i => dropBucket i m) n = { n with qos := q } := by
    intro cs
    induction cs with
    | nil => intro n; exact ⟨n.qos, rfl⟩
    | cons i t ih =>
      intro n
      have one : ∃ q, dropBucket i n = { n with qos := q } := by
        rw [dropBucket]
        split
        · exact ⟨_, rfl⟩
        · exact ⟨n.qos, rfl⟩
      obtain ⟨q, hq⟩ := one
      obtain ⟨q', hq'⟩ := ih (dropBucket i n)
      exact ⟨q', by rw [List.foldl_cons, hq', hq]⟩
  obtain ⟨q₀, hq₀⟩ := levels 7 (limitOf m.qos.eff) m
  obtain ⟨q, hq⟩ := drops (List.range 16) { m with qos := q₀ }
  simp only [regrant, hq₀, hq]
  split
  · exact ⟨q, m.evq, m.out, m.pmc, rfl⟩
  · obtain ⟨e, l, he⟩ := post_frame fx 0x0A (BitVec.ofNat 64 (q.eff.toNat * 2 ^ 32 + shedMask { m with qos := q })) { m with qos := q }
    rw [he]
    obtain ⟨p, hp⟩ := countN_frame 0x01F none none 1 { m with qos := q, evq := e, out := l }
    exact ⟨q, e, l, p, by rw [count, hp]⟩

theorem resting_regrant {fx : Fixed} {b : Nat} {m : Mach} (h : resting m = true) : resting (regrant fx b m) = true := by
  obtain ⟨q, e, l, p, hr⟩ := regrant_frame fx b m
  rw [hr]; exact h

/-- With everything issued the port has nothing to do. -/
theorem pump_rest {fx : Fixed} {m : Mach} (h : resting m = true) : pump fx m = m := by
  have k := ((resting_iff m).mp h).1
  exact pump_issued fx k.tickets k.writes

end Sys2Proof.Machine
end

