-- ==== Sys2Proof/Laws/State.lean ====
section
/-! SUPPORT. What each named update of the state leaves alone: every field but the one it writes. -/

namespace Sys2Proof.Machine

/-! ### The state -/

@[simp] theorem State.after_pending (s : State) (m : Mach) : (s.after m).pending = s.pending := rfl
@[simp] theorem State.after_fx (s : State) (m : Mach) : (s.after m).fx = (finish (s.fx, m)).1 := rfl
@[simp] theorem State.after_m (s : State) (m : Mach) : (s.after m).m = (finish (s.fx, m)).2 := rfl

/-! ### The block -/

@[simp] theorem nextPlace_keeps (m : Mach) :
    (nextPlace m).life = m.life ∧ (nextPlace m).pilot = m.pilot ∧ (nextPlace m).regs = m.regs ∧ (nextPlace m).ringH = m.ringH ∧
    (nextPlace m).ringF = m.ringF ∧ (nextPlace m).evq = m.evq ∧ (nextPlace m).ctxs = m.ctxs ∧ (nextPlace m).berth = m.berth ∧
    (nextPlace m).cmds = m.cmds ∧ (nextPlace m).sync = m.sync ∧ (nextPlace m).red = m.red ∧ (nextPlace m).sparse = m.sparse ∧
    (nextPlace m).dir = m.dir ∧ (nextPlace m).qos = m.qos ∧ (nextPlace m).season = m.season ∧ (nextPlace m).keys = m.keys ∧
    (nextPlace m).err = m.err ∧ (nextPlace m).pmc = m.pmc ∧ (nextPlace m).dbg = m.dbg ∧ (nextPlace m).fw = m.fw ∧
    (nextPlace m).cyc = m.cyc ∧ (nextPlace m).out = m.out ∧ (nextPlace m).unsent = m.unsent ∧
    (nextPlace m).lateDumps = m.lateDumps ∧ (nextPlace m).freeN = m.freeN := by
  simp only [nextPlace, and_self]

@[simp] theorem unlose_keeps (kind index : Nat) (m : Mach) :
    (unlose kind index m).life = m.life ∧ (unlose kind index m).pilot = m.pilot ∧ (unlose kind index m).regs = m.regs ∧
    (unlose kind index m).ringH = m.ringH ∧ (unlose kind index m).ringF = m.ringF ∧ (unlose kind index m).evq = m.evq ∧
    (unlose kind index m).ctxs = m.ctxs ∧ (unlose kind index m).cache = m.cache ∧ (unlose kind index m).berth = m.berth ∧
    (unlose kind index m).cmds = m.cmds ∧ (unlose kind index m).sync = m.sync ∧ (unlose kind index m).red = m.red ∧
    (unlose kind index m).sparse = m.sparse ∧ (unlose kind index m).dir = m.dir ∧ (unlose kind index m).qos = m.qos ∧
    (unlose kind index m).season = m.season ∧ (unlose kind index m).keys = m.keys ∧ (unlose kind index m).pmc = m.pmc ∧
    (unlose kind index m).dbg = m.dbg ∧ (unlose kind index m).fw = m.fw ∧ (unlose kind index m).cyc = m.cyc ∧
    (unlose kind index m).out = m.out ∧ (unlose kind index m).unsent = m.unsent ∧
    (unlose kind index m).lateDumps = m.lateDumps ∧ (unlose kind index m).freeN = m.freeN := by
  simp only [unlose, and_self]

@[simp] theorem setBerth_keeps (i : Nat) (b : Berth) (m : Mach) :
    (setBerth i b m).life = m.life ∧ (setBerth i b m).pilot = m.pilot ∧ (setBerth i b m).regs = m.regs ∧
    (setBerth i b m).ringH = m.ringH ∧ (setBerth i b m).ringF = m.ringF ∧ (setBerth i b m).evq = m.evq ∧
    (setBerth i b m).ctxs = m.ctxs ∧ (setBerth i b m).cache = m.cache ∧ (setBerth i b m).cmds = m.cmds ∧
    (setBerth i b m).sync = m.sync ∧ (setBerth i b m).red = m.red ∧ (setBerth i b m).sparse = m.sparse ∧
    (setBerth i b m).dir = m.dir ∧ (setBerth i b m).qos = m.qos ∧ (setBerth i b m).season = m.season ∧
    (setBerth i b m).keys = m.keys ∧ (setBerth i b m).err = m.err ∧ (setBerth i b m).pmc = m.pmc ∧ (setBerth i b m).dbg = m.dbg ∧
    (setBerth i b m).fw = m.fw ∧ (setBerth i b m).cyc = m.cyc ∧ (setBerth i b m).out = m.out ∧
    (setBerth i b m).unsent = m.unsent ∧
    (setBerth i b m).lateDumps = m.lateDumps ∧ (setBerth i b m).freeN = m.freeN := by
  simp only [setBerth, and_self]

@[simp] theorem setFerry_keeps (i : Nat) (f : Ferry) (m : Mach) :
    (setFerry i f m).life = m.life ∧ (setFerry i f m).pilot = m.pilot ∧ (setFerry i f m).regs = m.regs ∧
    (setFerry i f m).ringH = m.ringH ∧ (setFerry i f m).ringF = m.ringF ∧ (setFerry i f m).evq = m.evq ∧
    (setFerry i f m).ctxs = m.ctxs ∧ (setFerry i f m).cache = m.cache ∧ (setFerry i f m).cmds = m.cmds ∧
    (setFerry i f m).sync = m.sync ∧ (setFerry i f m).red = m.red ∧ (setFerry i f m).sparse = m.sparse ∧
    (setFerry i f m).dir = m.dir ∧ (setFerry i f m).qos = m.qos ∧ (setFerry i f m).season = m.season ∧
    (setFerry i f m).keys = m.keys ∧ (setFerry i f m).err = m.err ∧ (setFerry i f m).pmc = m.pmc ∧ (setFerry i f m).dbg = m.dbg ∧
    (setFerry i f m).fw = m.fw ∧ (setFerry i f m).cyc = m.cyc ∧ (setFerry i f m).out = m.out ∧
    (setFerry i f m).unsent = m.unsent ∧
    (setFerry i f m).lateDumps = m.lateDumps ∧ (setFerry i f m).freeN = m.freeN := by
  simp only [setFerry, and_self]

@[simp] theorem setTag_keeps (set way : Nat) (t : Tag) (m : Mach) :
    (setTag set way t m).life = m.life ∧ (setTag set way t m).pilot = m.pilot ∧ (setTag set way t m).regs = m.regs ∧
    (setTag set way t m).ringH = m.ringH ∧ (setTag set way t m).ringF = m.ringF ∧ (setTag set way t m).evq = m.evq ∧
    (setTag set way t m).ctxs = m.ctxs ∧ (setTag set way t m).berth = m.berth ∧ (setTag set way t m).cmds = m.cmds ∧
    (setTag set way t m).sync = m.sync ∧ (setTag set way t m).red = m.red ∧ (setTag set way t m).sparse = m.sparse ∧
    (setTag set way t m).dir = m.dir ∧ (setTag set way t m).qos = m.qos ∧ (setTag set way t m).season = m.season ∧
    (setTag set way t m).keys = m.keys ∧ (setTag set way t m).err = m.err ∧ (setTag set way t m).pmc = m.pmc ∧
    (setTag set way t m).dbg = m.dbg ∧ (setTag set way t m).fw = m.fw ∧ (setTag set way t m).cyc = m.cyc ∧
    (setTag set way t m).out = m.out ∧ (setTag set way t m).unsent = m.unsent ∧
    (setTag set way t m).lateDumps = m.lateDumps ∧ (setTag set way t m).freeN = m.freeN := by
  simp only [setTag, and_self]

@[simp] theorem setData_keeps (set way : Nat) (d : Line) (m : Mach) :
    (setData set way d m).life = m.life ∧ (setData set way d m).pilot = m.pilot ∧ (setData set way d m).regs = m.regs ∧
    (setData set way d m).ringH = m.ringH ∧ (setData set way d m).ringF = m.ringF ∧ (setData set way d m).evq = m.evq ∧
    (setData set way d m).ctxs = m.ctxs ∧ (setData set way d m).berth = m.berth ∧ (setData set way d m).cmds = m.cmds ∧
    (setData set way d m).sync = m.sync ∧ (setData set way d m).red = m.red ∧ (setData set way d m).sparse = m.sparse ∧
    (setData set way d m).dir = m.dir ∧ (setData set way d m).qos = m.qos ∧ (setData set way d m).season = m.season ∧
    (setData set way d m).keys = m.keys ∧ (setData set way d m).err = m.err ∧ (setData set way d m).pmc = m.pmc ∧
    (setData set way d m).dbg = m.dbg ∧ (setData set way d m).fw = m.fw ∧ (setData set way d m).cyc = m.cyc ∧
    (setData set way d m).out = m.out ∧ (setData set way d m).unsent = m.unsent ∧
    (setData set way d m).lateDumps = m.lateDumps ∧ (setData set way d m).freeN = m.freeN := by
  simp only [setData, and_self]

@[simp] theorem putSetSt_keeps (set : Nat) (x : SetSt) (m : Mach) :
    (putSetSt set x m).life = m.life ∧ (putSetSt set x m).pilot = m.pilot ∧ (putSetSt set x m).regs = m.regs ∧
    (putSetSt set x m).ringH = m.ringH ∧ (putSetSt set x m).ringF = m.ringF ∧ (putSetSt set x m).evq = m.evq ∧
    (putSetSt set x m).ctxs = m.ctxs ∧ (putSetSt set x m).berth = m.berth ∧ (putSetSt set x m).cmds = m.cmds ∧
    (putSetSt set x m).sync = m.sync ∧ (putSetSt set x m).red = m.red ∧ (putSetSt set x m).sparse = m.sparse ∧
    (putSetSt set x m).dir = m.dir ∧ (putSetSt set x m).qos = m.qos ∧ (putSetSt set x m).season = m.season ∧
    (putSetSt set x m).keys = m.keys ∧ (putSetSt set x m).err = m.err ∧ (putSetSt set x m).pmc = m.pmc ∧
    (putSetSt set x m).dbg = m.dbg ∧ (putSetSt set x m).fw = m.fw ∧ (putSetSt set x m).cyc = m.cyc ∧
    (putSetSt set x m).out = m.out ∧ (putSetSt set x m).unsent = m.unsent ∧
    (putSetSt set x m).lateDumps = m.lateDumps ∧ (putSetSt set x m).freeN = m.freeN := by
  simp only [putSetSt, and_self]

@[simp] theorem setSync_keeps (i : BitVec 14) (o : SyncObj) (m : Mach) :
    (setSync i o m).life = m.life ∧ (setSync i o m).pilot = m.pilot ∧ (setSync i o m).regs = m.regs ∧
    (setSync i o m).ringH = m.ringH ∧ (setSync i o m).ringF = m.ringF ∧ (setSync i o m).evq = m.evq ∧
    (setSync i o m).ctxs = m.ctxs ∧ (setSync i o m).cache = m.cache ∧ (setSync i o m).berth = m.berth ∧
    (setSync i o m).cmds = m.cmds ∧ (setSync i o m).red = m.red ∧ (setSync i o m).sparse = m.sparse ∧
    (setSync i o m).dir = m.dir ∧ (setSync i o m).qos = m.qos ∧ (setSync i o m).season = m.season ∧
    (setSync i o m).keys = m.keys ∧ (setSync i o m).err = m.err ∧ (setSync i o m).pmc = m.pmc ∧ (setSync i o m).dbg = m.dbg ∧
    (setSync i o m).fw = m.fw ∧ (setSync i o m).cyc = m.cyc ∧ (setSync i o m).out = m.out ∧ (setSync i o m).unsent = m.unsent ∧
    (setSync i o m).lateDumps = m.lateDumps ∧ (setSync i o m).freeN = m.freeN := by
  simp only [setSync, and_self]

@[simp] theorem runOn_keeps (c : Rec) (p : Prog) (m : Mach) :
    (runOn c p m).life = m.life ∧ (runOn c p m).pilot = m.pilot ∧ (runOn c p m).regs = m.regs ∧ (runOn c p m).ringH = m.ringH ∧
    (runOn c p m).ringF = m.ringF ∧ (runOn c p m).evq = m.evq ∧ (runOn c p m).ctxs = m.ctxs ∧ (runOn c p m).cache = m.cache ∧
    (runOn c p m).berth = m.berth ∧ (runOn c p m).sync = m.sync ∧ (runOn c p m).red = m.red ∧ (runOn c p m).sparse = m.sparse ∧
    (runOn c p m).dir = m.dir ∧ (runOn c p m).qos = m.qos ∧ (runOn c p m).season = m.season ∧ (runOn c p m).keys = m.keys ∧
    (runOn c p m).err = m.err ∧ (runOn c p m).pmc = m.pmc ∧ (runOn c p m).dbg = m.dbg ∧ (runOn c p m).fw = m.fw ∧
    (runOn c p m).cyc = m.cyc ∧ (runOn c p m).out = m.out ∧ (runOn c p m).unsent = m.unsent ∧
    (runOn c p m).lateDumps = m.lateDumps ∧ (runOn c p m).freeN = m.freeN := by
  simp only [runOn, and_self]

@[simp] theorem setProg_keeps (id : Nat) (p : Prog) (m : Mach) :
    (setProg id p m).life = m.life ∧ (setProg id p m).pilot = m.pilot ∧ (setProg id p m).regs = m.regs ∧
    (setProg id p m).ringH = m.ringH ∧ (setProg id p m).ringF = m.ringF ∧ (setProg id p m).evq = m.evq ∧
    (setProg id p m).ctxs = m.ctxs ∧ (setProg id p m).cache = m.cache ∧ (setProg id p m).berth = m.berth ∧
    (setProg id p m).sync = m.sync ∧ (setProg id p m).red = m.red ∧ (setProg id p m).sparse = m.sparse ∧
    (setProg id p m).dir = m.dir ∧ (setProg id p m).qos = m.qos ∧ (setProg id p m).season = m.season ∧
    (setProg id p m).keys = m.keys ∧ (setProg id p m).err = m.err ∧ (setProg id p m).pmc = m.pmc ∧ (setProg id p m).dbg = m.dbg ∧
    (setProg id p m).fw = m.fw ∧ (setProg id p m).cyc = m.cyc ∧ (setProg id p m).out = m.out ∧
    (setProg id p m).unsent = m.unsent ∧
    (setProg id p m).lateDumps = m.lateDumps ∧ (setProg id p m).freeN = m.freeN := by
  simp only [setProg, and_self]

@[simp] theorem latch_keeps (m : Mach) :
    (latch m).life = m.life ∧ (latch m).pilot = m.pilot ∧ (latch m).regs = m.regs ∧ (latch m).ringH = m.ringH ∧
    (latch m).ringF = m.ringF ∧ (latch m).evq = m.evq ∧ (latch m).ctxs = m.ctxs ∧ (latch m).cache = m.cache ∧
    (latch m).berth = m.berth ∧ (latch m).cmds = m.cmds ∧ (latch m).sync = m.sync ∧ (latch m).red = m.red ∧
    (latch m).sparse = m.sparse ∧ (latch m).dir = m.dir ∧ (latch m).qos = m.qos ∧ (latch m).season = m.season ∧
    (latch m).keys = m.keys ∧ (latch m).err = m.err ∧ (latch m).dbg = m.dbg ∧ (latch m).fw = m.fw ∧ (latch m).cyc = m.cyc ∧
    (latch m).out = m.out ∧ (latch m).unsent = m.unsent ∧
    (latch m).lateDumps = m.lateDumps ∧ (latch m).freeN = m.freeN := by
  simp only [latch, and_self]

@[simp] theorem claim_keeps (h : HostMsg) (l : LineNo) (k : Nat) (m : Mach) :
    (claim h l k m).life = m.life ∧ (claim h l k m).pilot = m.pilot ∧ (claim h l k m).regs = m.regs ∧ (claim h l k m).ringH = m.ringH ∧
    (claim h l k m).ringF = m.ringF ∧ (claim h l k m).evq = m.evq ∧ (claim h l k m).ctxs = m.ctxs ∧ (claim h l k m).cache = m.cache ∧
    (claim h l k m).berth = m.berth ∧ (claim h l k m).cmds = m.cmds ∧ (claim h l k m).sync = m.sync ∧ (claim h l k m).red = m.red ∧
    (claim h l k m).sparse = m.sparse ∧ (claim h l k m).qos = m.qos ∧ (claim h l k m).season = m.season ∧ (claim h l k m).keys = m.keys ∧
    (claim h l k m).err = m.err ∧ (claim h l k m).pmc = m.pmc ∧ (claim h l k m).dbg = m.dbg ∧ (claim h l k m).fw = m.fw ∧
    (claim h l k m).cyc = m.cyc ∧ (claim h l k m).out = m.out ∧ (claim h l k m).unsent = m.unsent ∧
    (claim h l k m).lateDumps = m.lateDumps ∧ (claim h l k m).freeN = m.freeN := by
  simp only [claim, and_self]

@[simp] theorem unclaim_keeps (h : HostMsg) (m : Mach) :
    (unclaim h m).life = m.life ∧ (unclaim h m).pilot = m.pilot ∧ (unclaim h m).regs = m.regs ∧ (unclaim h m).ringH = m.ringH ∧
    (unclaim h m).ringF = m.ringF ∧ (unclaim h m).evq = m.evq ∧ (unclaim h m).ctxs = m.ctxs ∧ (unclaim h m).cache = m.cache ∧
    (unclaim h m).berth = m.berth ∧ (unclaim h m).cmds = m.cmds ∧ (unclaim h m).sync = m.sync ∧ (unclaim h m).red = m.red ∧
    (unclaim h m).sparse = m.sparse ∧ (unclaim h m).qos = m.qos ∧ (unclaim h m).season = m.season ∧ (unclaim h m).keys = m.keys ∧
    (unclaim h m).err = m.err ∧ (unclaim h m).pmc = m.pmc ∧ (unclaim h m).dbg = m.dbg ∧ (unclaim h m).fw = m.fw ∧
    (unclaim h m).cyc = m.cyc ∧ (unclaim h m).out = m.out ∧ (unclaim h m).unsent = m.unsent ∧
    (unclaim h m).lateDumps = m.lateDumps ∧ (unclaim h m).freeN = m.freeN := by
  simp only [unclaim, and_self]

@[simp] theorem dropKreq_keeps (n : BitVec 16) (m : Mach) :
    (dropKreq n m).life = m.life ∧ (dropKreq n m).pilot = m.pilot ∧ (dropKreq n m).regs = m.regs ∧
    (dropKreq n m).ringH = m.ringH ∧ (dropKreq n m).ringF = m.ringF ∧ (dropKreq n m).evq = m.evq ∧ (dropKreq n m).ctxs = m.ctxs ∧
    (dropKreq n m).cache = m.cache ∧ (dropKreq n m).berth = m.berth ∧ (dropKreq n m).cmds = m.cmds ∧
    (dropKreq n m).sync = m.sync ∧ (dropKreq n m).red = m.red ∧ (dropKreq n m).sparse = m.sparse ∧ (dropKreq n m).dir = m.dir ∧
    (dropKreq n m).qos = m.qos ∧ (dropKreq n m).season = m.season ∧ (dropKreq n m).err = m.err ∧ (dropKreq n m).pmc = m.pmc ∧
    (dropKreq n m).dbg = m.dbg ∧ (dropKreq n m).fw = m.fw ∧ (dropKreq n m).cyc = m.cyc ∧ (dropKreq n m).out = m.out ∧
    (dropKreq n m).unsent = m.unsent ∧
    (dropKreq n m).lateDumps = m.lateDumps ∧ (dropKreq n m).freeN = m.freeN := by
  simp only [dropKreq, and_self]

@[simp] theorem readBack_keeps (n : BitVec 10) (m : Mach) :
    (readBack n m).life = m.life ∧ (readBack n m).pilot = m.pilot ∧ (readBack n m).regs = m.regs ∧
    (readBack n m).ringH = m.ringH ∧ (readBack n m).ringF = m.ringF ∧ (readBack n m).evq = m.evq ∧ (readBack n m).ctxs = m.ctxs ∧
    (readBack n m).cache = m.cache ∧ (readBack n m).berth = m.berth ∧ (readBack n m).sync = m.sync ∧ (readBack n m).red = m.red ∧
    (readBack n m).sparse = m.sparse ∧ (readBack n m).dir = m.dir ∧ (readBack n m).qos = m.qos ∧
    (readBack n m).season = m.season ∧ (readBack n m).keys = m.keys ∧ (readBack n m).err = m.err ∧ (readBack n m).pmc = m.pmc ∧
    (readBack n m).dbg = m.dbg ∧ (readBack n m).fw = m.fw ∧ (readBack n m).cyc = m.cyc ∧ (readBack n m).out = m.out ∧
    (readBack n m).unsent = m.unsent ∧
    (readBack n m).lateDumps = m.lateDumps ∧ (readBack n m).freeN = m.freeN := by
  simp only [readBack, and_self]

@[simp] theorem setDigest_keeps (i : Nat) (d : Digest) (m : Mach) :
    (setDigest i d m).life = m.life ∧ (setDigest i d m).pilot = m.pilot ∧ (setDigest i d m).regs = m.regs ∧
    (setDigest i d m).ringH = m.ringH ∧ (setDigest i d m).ringF = m.ringF ∧ (setDigest i d m).evq = m.evq ∧
    (setDigest i d m).ctxs = m.ctxs ∧ (setDigest i d m).cache = m.cache ∧ (setDigest i d m).berth = m.berth ∧
    (setDigest i d m).cmds = m.cmds ∧ (setDigest i d m).sync = m.sync ∧ (setDigest i d m).red = m.red ∧
    (setDigest i d m).sparse = m.sparse ∧ (setDigest i d m).dir = m.dir ∧ (setDigest i d m).qos = m.qos ∧
    (setDigest i d m).season = m.season ∧ (setDigest i d m).err = m.err ∧ (setDigest i d m).pmc = m.pmc ∧
    (setDigest i d m).dbg = m.dbg ∧ (setDigest i d m).fw = m.fw ∧ (setDigest i d m).cyc = m.cyc ∧ (setDigest i d m).out = m.out ∧
    (setDigest i d m).unsent = m.unsent ∧
    (setDigest i d m).lateDumps = m.lateDumps ∧ (setDigest i d m).freeN = m.freeN := by
  simp only [setDigest, and_self]

@[simp] theorem setHeld_keeps (st : Stop) (hs : List Held) (m : Mach) :
    (setHeld st hs m).life = m.life ∧ (setHeld st hs m).pilot = m.pilot ∧ (setHeld st hs m).regs = m.regs ∧
    (setHeld st hs m).ringH = m.ringH ∧ (setHeld st hs m).ringF = m.ringF ∧ (setHeld st hs m).evq = m.evq ∧
    (setHeld st hs m).ctxs = m.ctxs ∧ (setHeld st hs m).berth = m.berth ∧ (setHeld st hs m).cmds = m.cmds ∧
    (setHeld st hs m).sync = m.sync ∧ (setHeld st hs m).red = m.red ∧ (setHeld st hs m).sparse = m.sparse ∧
    (setHeld st hs m).dir = m.dir ∧ (setHeld st hs m).qos = m.qos ∧ (setHeld st hs m).season = m.season ∧
    (setHeld st hs m).keys = m.keys ∧ (setHeld st hs m).err = m.err ∧ (setHeld st hs m).pmc = m.pmc ∧
    (setHeld st hs m).dbg = m.dbg ∧ (setHeld st hs m).fw = m.fw ∧ (setHeld st hs m).cyc = m.cyc ∧ (setHeld st hs m).out = m.out ∧
    (setHeld st hs m).unsent = m.unsent ∧
    (setHeld st hs m).lateDumps = m.lateDumps ∧ (setHeld st hs m).freeN = m.freeN := by
  simp only [setHeld, and_self]

@[simp] theorem raiseSlip_keeps (w : PWrite) (id : Nat) (m : Mach) :
    (raiseSlip w id m).life = m.life ∧ (raiseSlip w id m).pilot = m.pilot ∧ (raiseSlip w id m).regs = m.regs ∧
    (raiseSlip w id m).ringH = m.ringH ∧ (raiseSlip w id m).ringF = m.ringF ∧ (raiseSlip w id m).evq = m.evq ∧
    (raiseSlip w id m).ctxs = m.ctxs ∧ (raiseSlip w id m).berth = m.berth ∧ (raiseSlip w id m).cmds = m.cmds ∧
    (raiseSlip w id m).sync = m.sync ∧ (raiseSlip w id m).red = m.red ∧ (raiseSlip w id m).sparse = m.sparse ∧
    (raiseSlip w id m).dir = m.dir ∧ (raiseSlip w id m).qos = m.qos ∧ (raiseSlip w id m).season = m.season ∧
    (raiseSlip w id m).keys = m.keys ∧ (raiseSlip w id m).err = m.err ∧ (raiseSlip w id m).pmc = m.pmc ∧
    (raiseSlip w id m).dbg = m.dbg ∧ (raiseSlip w id m).fw = m.fw ∧ (raiseSlip w id m).cyc = m.cyc ∧
    (raiseSlip w id m).out = m.out ∧ (raiseSlip w id m).unsent = m.unsent ∧
    (raiseSlip w id m).lateDumps = m.lateDumps ∧ (raiseSlip w id m).freeN = m.freeN := by
  simp only [raiseSlip, and_self]

@[simp] theorem freshSync_keeps (i : BitVec 14) (m : Mach) :
    (freshSync i m).life = m.life ∧ (freshSync i m).pilot = m.pilot ∧ (freshSync i m).regs = m.regs ∧
    (freshSync i m).ringH = m.ringH ∧ (freshSync i m).ringF = m.ringF ∧ (freshSync i m).evq = m.evq ∧
    (freshSync i m).ctxs = m.ctxs ∧ (freshSync i m).berth = m.berth ∧ (freshSync i m).cmds = m.cmds ∧
    (freshSync i m).sync = m.sync ∧ (freshSync i m).red = m.red ∧ (freshSync i m).sparse = m.sparse ∧
    (freshSync i m).dir = m.dir ∧ (freshSync i m).qos = m.qos ∧ (freshSync i m).season = m.season ∧
    (freshSync i m).keys = m.keys ∧ (freshSync i m).err = m.err ∧ (freshSync i m).pmc = m.pmc ∧ (freshSync i m).dbg = m.dbg ∧
    (freshSync i m).fw = m.fw ∧ (freshSync i m).cyc = m.cyc ∧ (freshSync i m).out = m.out ∧ (freshSync i m).unsent = m.unsent ∧
    (freshSync i m).lateDumps = m.lateDumps ∧ (freshSync i m).freeN = m.freeN := by
  simp only [freshSync, and_self]

@[simp] theorem bumpFree_keeps (m : Mach) :
    (bumpFree m).life = m.life ∧ (bumpFree m).pilot = m.pilot ∧ (bumpFree m).regs = m.regs ∧ (bumpFree m).ringH = m.ringH ∧
    (bumpFree m).ringF = m.ringF ∧ (bumpFree m).evq = m.evq ∧ (bumpFree m).ctxs = m.ctxs ∧ (bumpFree m).cache = m.cache ∧
    (bumpFree m).berth = m.berth ∧ (bumpFree m).cmds = m.cmds ∧ (bumpFree m).sync = m.sync ∧ (bumpFree m).red = m.red ∧
    (bumpFree m).sparse = m.sparse ∧ (bumpFree m).dir = m.dir ∧ (bumpFree m).qos = m.qos ∧ (bumpFree m).season = m.season ∧
    (bumpFree m).keys = m.keys ∧ (bumpFree m).err = m.err ∧ (bumpFree m).pmc = m.pmc ∧ (bumpFree m).dbg = m.dbg ∧
    (bumpFree m).fw = m.fw ∧ (bumpFree m).cyc = m.cyc ∧ (bumpFree m).out = m.out := by
  simp only [bumpFree, and_self]

@[simp] theorem setCtx_keeps (c : Ctx) (e : CtxEntry) (m : Mach) :
    (setCtx c e m).life = m.life ∧ (setCtx c e m).pilot = m.pilot ∧ (setCtx c e m).regs = m.regs ∧
    (setCtx c e m).ringH = m.ringH ∧ (setCtx c e m).ringF = m.ringF ∧ (setCtx c e m).evq = m.evq ∧
    (setCtx c e m).cache = m.cache ∧ (setCtx c e m).berth = m.berth ∧ (setCtx c e m).cmds = m.cmds ∧
    (setCtx c e m).sync = m.sync ∧ (setCtx c e m).red = m.red ∧ (setCtx c e m).sparse = m.sparse ∧ (setCtx c e m).dir = m.dir ∧
    (setCtx c e m).qos = m.qos ∧ (setCtx c e m).season = m.season ∧ (setCtx c e m).keys = m.keys ∧ (setCtx c e m).err = m.err ∧
    (setCtx c e m).pmc = m.pmc ∧ (setCtx c e m).dbg = m.dbg ∧ (setCtx c e m).fw = m.fw ∧ (setCtx c e m).cyc = m.cyc ∧
    (setCtx c e m).out = m.out ∧ (setCtx c e m).unsent = m.unsent ∧
    (setCtx c e m).lateDumps = m.lateDumps ∧ (setCtx c e m).freeN = m.freeN := by
  simp only [setCtx, and_self]

@[simp] theorem markRewritten_keeps (l : LineNo) (m : Mach) :
    (markRewritten l m).life = m.life ∧ (markRewritten l m).pilot = m.pilot ∧ (markRewritten l m).regs = m.regs ∧
    (markRewritten l m).ringH = m.ringH ∧ (markRewritten l m).ringF = m.ringF ∧ (markRewritten l m).evq = m.evq ∧
    (markRewritten l m).ctxs = m.ctxs ∧ (markRewritten l m).berth = m.berth ∧ (markRewritten l m).cmds = m.cmds ∧
    (markRewritten l m).sync = m.sync ∧ (markRewritten l m).red = m.red ∧ (markRewritten l m).sparse = m.sparse ∧
    (markRewritten l m).dir = m.dir ∧ (markRewritten l m).qos = m.qos ∧ (markRewritten l m).season = m.season ∧
    (markRewritten l m).keys = m.keys ∧ (markRewritten l m).err = m.err ∧ (markRewritten l m).pmc = m.pmc ∧
    (markRewritten l m).dbg = m.dbg ∧ (markRewritten l m).fw = m.fw ∧ (markRewritten l m).cyc = m.cyc ∧
    (markRewritten l m).out = m.out ∧ (markRewritten l m).unsent = m.unsent ∧
    (markRewritten l m).lateDumps = m.lateDumps ∧ (markRewritten l m).freeN = m.freeN := by
  simp only [markRewritten, and_self]

@[simp] theorem setScat_keeps (i : Nat) (s : Scatter) (m : Mach) :
    (setScat i s m).life = m.life ∧ (setScat i s m).pilot = m.pilot ∧ (setScat i s m).regs = m.regs ∧
    (setScat i s m).ringH = m.ringH ∧ (setScat i s m).ringF = m.ringF ∧ (setScat i s m).evq = m.evq ∧
    (setScat i s m).ctxs = m.ctxs ∧ (setScat i s m).cache = m.cache ∧ (setScat i s m).berth = m.berth ∧
    (setScat i s m).cmds = m.cmds ∧ (setScat i s m).sync = m.sync ∧ (setScat i s m).red = m.red ∧ (setScat i s m).dir = m.dir ∧
    (setScat i s m).qos = m.qos ∧ (setScat i s m).season = m.season ∧ (setScat i s m).keys = m.keys ∧
    (setScat i s m).err = m.err ∧ (setScat i s m).pmc = m.pmc ∧ (setScat i s m).dbg = m.dbg ∧ (setScat i s m).fw = m.fw ∧
    (setScat i s m).cyc = m.cyc ∧ (setScat i s m).out = m.out ∧ (setScat i s m).unsent = m.unsent ∧
    (setScat i s m).lateDumps = m.lateDumps ∧ (setScat i s m).freeN = m.freeN := by
  simp only [setScat, and_self]

@[simp] theorem setSlot_keeps (k : BitVec 9) (s : KeySlot) (m : Mach) :
    (setSlot k s m).life = m.life ∧ (setSlot k s m).pilot = m.pilot ∧ (setSlot k s m).regs = m.regs ∧
    (setSlot k s m).ringH = m.ringH ∧ (setSlot k s m).ringF = m.ringF ∧ (setSlot k s m).evq = m.evq ∧
    (setSlot k s m).ctxs = m.ctxs ∧ (setSlot k s m).cache = m.cache ∧ (setSlot k s m).berth = m.berth ∧
    (setSlot k s m).cmds = m.cmds ∧ (setSlot k s m).sync = m.sync ∧ (setSlot k s m).red = m.red ∧
    (setSlot k s m).sparse = m.sparse ∧ (setSlot k s m).dir = m.dir ∧ (setSlot k s m).qos = m.qos ∧
    (setSlot k s m).season = m.season ∧ (setSlot k s m).err = m.err ∧ (setSlot k s m).pmc = m.pmc ∧ (setSlot k s m).dbg = m.dbg ∧
    (setSlot k s m).fw = m.fw ∧ (setSlot k s m).cyc = m.cyc ∧ (setSlot k s m).out = m.out ∧ (setSlot k s m).unsent = m.unsent ∧
    (setSlot k s m).lateDumps = m.lateDumps ∧ (setSlot k s m).freeN = m.freeN := by
  simp only [setSlot, and_self]

@[simp] theorem loseKeys_keeps (m : Mach) :
    (loseKeys m).life = m.life ∧ (loseKeys m).pilot = m.pilot ∧ (loseKeys m).regs = m.regs ∧ (loseKeys m).ringH = m.ringH ∧
    (loseKeys m).ringF = m.ringF ∧ (loseKeys m).evq = m.evq ∧ (loseKeys m).ctxs = m.ctxs ∧ (loseKeys m).cache = m.cache ∧
    (loseKeys m).berth = m.berth ∧ (loseKeys m).cmds = m.cmds ∧ (loseKeys m).sync = m.sync ∧ (loseKeys m).red = m.red ∧
    (loseKeys m).sparse = m.sparse ∧ (loseKeys m).dir = m.dir ∧ (loseKeys m).qos = m.qos ∧ (loseKeys m).season = m.season ∧
    (loseKeys m).err = m.err ∧ (loseKeys m).pmc = m.pmc ∧ (loseKeys m).dbg = m.dbg ∧ (loseKeys m).fw = m.fw ∧
    (loseKeys m).cyc = m.cyc ∧ (loseKeys m).out = m.out ∧ (loseKeys m).unsent = m.unsent ∧
    (loseKeys m).lateDumps = m.lateDumps ∧ (loseKeys m).freeN = m.freeN := by
  simp only [loseKeys, and_self]

@[simp] theorem markErased_keeps (k : BitVec 9) (g v : Bool) (m : Mach) :
    (markErased k g v m).life = m.life ∧ (markErased k g v m).pilot = m.pilot ∧ (markErased k g v m).regs = m.regs ∧
    (markErased k g v m).ringH = m.ringH ∧ (markErased k g v m).ringF = m.ringF ∧ (markErased k g v m).evq = m.evq ∧
    (markErased k g v m).ctxs = m.ctxs ∧ (markErased k g v m).cache = m.cache ∧ (markErased k g v m).berth = m.berth ∧
    (markErased k g v m).cmds = m.cmds ∧ (markErased k g v m).sync = m.sync ∧ (markErased k g v m).red = m.red ∧
    (markErased k g v m).sparse = m.sparse ∧ (markErased k g v m).dir = m.dir ∧ (markErased k g v m).qos = m.qos ∧
    (markErased k g v m).season = m.season ∧ (markErased k g v m).err = m.err ∧ (markErased k g v m).pmc = m.pmc ∧
    (markErased k g v m).dbg = m.dbg ∧ (markErased k g v m).fw = m.fw ∧ (markErased k g v m).cyc = m.cyc ∧
    (markErased k g v m).out = m.out ∧ (markErased k g v m).unsent = m.unsent ∧
    (markErased k g v m).lateDumps = m.lateDumps ∧ (markErased k g v m).freeN = m.freeN := by
  simp only [markErased, and_self]

@[simp] theorem noteWait_keeps (who i : Nat) (m : Mach) :
    (noteWait who i m).life = m.life ∧ (noteWait who i m).pilot = m.pilot ∧ (noteWait who i m).regs = m.regs ∧
    (noteWait who i m).ringH = m.ringH ∧ (noteWait who i m).ringF = m.ringF ∧ (noteWait who i m).evq = m.evq ∧
    (noteWait who i m).ctxs = m.ctxs ∧ (noteWait who i m).cache = m.cache ∧ (noteWait who i m).berth = m.berth ∧
    (noteWait who i m).cmds = m.cmds ∧ (noteWait who i m).sync = m.sync ∧ (noteWait who i m).red = m.red ∧
    (noteWait who i m).sparse = m.sparse ∧ (noteWait who i m).dir = m.dir ∧ (noteWait who i m).qos = m.qos ∧
    (noteWait who i m).keys = m.keys ∧ (noteWait who i m).err = m.err ∧ (noteWait who i m).dbg = m.dbg ∧
    (noteWait who i m).fw = m.fw ∧ (noteWait who i m).cyc = m.cyc ∧ (noteWait who i m).out = m.out ∧
    (noteWait who i m).unsent = m.unsent ∧ (noteWait who i m).lateDumps = m.lateDumps ∧ (noteWait who i m).freeN = m.freeN := by
  rw [noteWait]
  split
  · simp only [and_self]
  · rw [count, countN]
    split <;> simp only [and_self]

@[simp] theorem tidyWaits_keeps (m : Mach) :
    (tidyWaits m).life = m.life ∧ (tidyWaits m).cache = m.cache ∧ (tidyWaits m).cmds = m.cmds ∧ (tidyWaits m).sync = m.sync ∧
    (tidyWaits m).red = m.red ∧ (tidyWaits m).sparse = m.sparse ∧ (tidyWaits m).dir = m.dir ∧ (tidyWaits m).keys = m.keys ∧
    (tidyWaits m).pmc = m.pmc ∧ (tidyWaits m).out = m.out ∧ (tidyWaits m).unsent = m.unsent ∧ (tidyWaits m).freeN = m.freeN := by
  simp only [tidyWaits, and_self]

@[simp] theorem dropWrite_keeps (i : BitVec 10) (m : Mach) :
    (dropWrite i m).life = m.life ∧ (dropWrite i m).pilot = m.pilot ∧ (dropWrite i m).regs = m.regs ∧
    (dropWrite i m).ringH = m.ringH ∧ (dropWrite i m).ringF = m.ringF ∧ (dropWrite i m).evq = m.evq ∧
    (dropWrite i m).ctxs = m.ctxs ∧ (dropWrite i m).berth = m.berth ∧ (dropWrite i m).cmds = m.cmds ∧
    (dropWrite i m).sync = m.sync ∧ (dropWrite i m).red = m.red ∧ (dropWrite i m).sparse = m.sparse ∧
    (dropWrite i m).dir = m.dir ∧ (dropWrite i m).qos = m.qos ∧ (dropWrite i m).season = m.season ∧
    (dropWrite i m).keys = m.keys ∧ (dropWrite i m).err = m.err ∧ (dropWrite i m).pmc = m.pmc ∧ (dropWrite i m).dbg = m.dbg ∧
    (dropWrite i m).fw = m.fw ∧ (dropWrite i m).cyc = m.cyc ∧ (dropWrite i m).out = m.out ∧ (dropWrite i m).unsent = m.unsent ∧
    (dropWrite i m).lateDumps = m.lateDumps ∧ (dropWrite i m).freeN = m.freeN := by
  simp only [dropWrite, and_self]

@[simp] theorem setTicket_keeps (t : Ticket) (m : Mach) :
    (setTicket t m).life = m.life ∧ (setTicket t m).pilot = m.pilot ∧ (setTicket t m).regs = m.regs ∧
    (setTicket t m).ringH = m.ringH ∧ (setTicket t m).ringF = m.ringF ∧ (setTicket t m).evq = m.evq ∧
    (setTicket t m).ctxs = m.ctxs ∧ (setTicket t m).berth = m.berth ∧ (setTicket t m).cmds = m.cmds ∧
    (setTicket t m).sync = m.sync ∧ (setTicket t m).red = m.red ∧ (setTicket t m).sparse = m.sparse ∧
    (setTicket t m).dir = m.dir ∧ (setTicket t m).qos = m.qos ∧ (setTicket t m).season = m.season ∧
    (setTicket t m).keys = m.keys ∧ (setTicket t m).err = m.err ∧ (setTicket t m).pmc = m.pmc ∧ (setTicket t m).dbg = m.dbg ∧
    (setTicket t m).fw = m.fw ∧ (setTicket t m).cyc = m.cyc ∧ (setTicket t m).out = m.out ∧ (setTicket t m).unsent = m.unsent ∧
    (setTicket t m).lateDumps = m.lateDumps ∧ (setTicket t m).freeN = m.freeN := by
  simp only [setTicket, and_self]

@[simp] theorem dropTicket_keeps (n : BitVec 10) (m : Mach) :
    (dropTicket n m).life = m.life ∧ (dropTicket n m).pilot = m.pilot ∧ (dropTicket n m).regs = m.regs ∧
    (dropTicket n m).ringH = m.ringH ∧ (dropTicket n m).ringF = m.ringF ∧ (dropTicket n m).evq = m.evq ∧
    (dropTicket n m).ctxs = m.ctxs ∧ (dropTicket n m).berth = m.berth ∧ (dropTicket n m).cmds = m.cmds ∧
    (dropTicket n m).sync = m.sync ∧ (dropTicket n m).red = m.red ∧ (dropTicket n m).sparse = m.sparse ∧
    (dropTicket n m).dir = m.dir ∧ (dropTicket n m).qos = m.qos ∧ (dropTicket n m).season = m.season ∧
    (dropTicket n m).keys = m.keys ∧ (dropTicket n m).err = m.err ∧ (dropTicket n m).pmc = m.pmc ∧ (dropTicket n m).dbg = m.dbg ∧
    (dropTicket n m).fw = m.fw ∧ (dropTicket n m).cyc = m.cyc ∧ (dropTicket n m).out = m.out ∧
    (dropTicket n m).unsent = m.unsent ∧
    (dropTicket n m).lateDumps = m.lateDumps ∧ (dropTicket n m).freeN = m.freeN := by
  simp only [dropTicket, and_self]

@[simp] theorem setCls_keeps (i : Nat) (c : Cls) (m : Mach) :
    (setCls i c m).life = m.life ∧ (setCls i c m).pilot = m.pilot ∧ (setCls i c m).regs = m.regs ∧
    (setCls i c m).ringH = m.ringH ∧ (setCls i c m).ringF = m.ringF ∧ (setCls i c m).evq = m.evq ∧ (setCls i c m).ctxs = m.ctxs ∧
    (setCls i c m).cache = m.cache ∧ (setCls i c m).berth = m.berth ∧ (setCls i c m).cmds = m.cmds ∧
    (setCls i c m).sync = m.sync ∧ (setCls i c m).red = m.red ∧ (setCls i c m).sparse = m.sparse ∧ (setCls i c m).dir = m.dir ∧
    (setCls i c m).season = m.season ∧ (setCls i c m).keys = m.keys ∧ (setCls i c m).err = m.err ∧ (setCls i c m).pmc = m.pmc ∧
    (setCls i c m).dbg = m.dbg ∧ (setCls i c m).fw = m.fw ∧ (setCls i c m).cyc = m.cyc ∧ (setCls i c m).out = m.out ∧
    (setCls i c m).unsent = m.unsent ∧
    (setCls i c m).lateDumps = m.lateDumps ∧ (setCls i c m).freeN = m.freeN := by
  simp only [setCls, and_self]

@[simp] theorem setTile_keeps (i : Nat) (t : Tile) (m : Mach) :
    (setTile i t m).life = m.life ∧ (setTile i t m).pilot = m.pilot ∧ (setTile i t m).regs = m.regs ∧
    (setTile i t m).ringH = m.ringH ∧ (setTile i t m).ringF = m.ringF ∧ (setTile i t m).evq = m.evq ∧
    (setTile i t m).ctxs = m.ctxs ∧ (setTile i t m).cache = m.cache ∧ (setTile i t m).berth = m.berth ∧
    (setTile i t m).cmds = m.cmds ∧ (setTile i t m).sync = m.sync ∧ (setTile i t m).sparse = m.sparse ∧
    (setTile i t m).dir = m.dir ∧ (setTile i t m).qos = m.qos ∧ (setTile i t m).season = m.season ∧
    (setTile i t m).keys = m.keys ∧ (setTile i t m).err = m.err ∧ (setTile i t m).pmc = m.pmc ∧ (setTile i t m).dbg = m.dbg ∧
    (setTile i t m).fw = m.fw ∧ (setTile i t m).cyc = m.cyc ∧ (setTile i t m).out = m.out ∧ (setTile i t m).unsent = m.unsent ∧
    (setTile i t m).lateDumps = m.lateDumps ∧ (setTile i t m).freeN = m.freeN := by
  simp only [setTile, and_self]

@[simp] theorem setHop_keeps (i : Nat) (h : Hop) (m : Mach) :
    (setHop i h m).life = m.life ∧ (setHop i h m).pilot = m.pilot ∧ (setHop i h m).regs = m.regs ∧
    (setHop i h m).ringH = m.ringH ∧ (setHop i h m).ringF = m.ringF ∧ (setHop i h m).evq = m.evq ∧ (setHop i h m).ctxs = m.ctxs ∧
    (setHop i h m).cache = m.cache ∧ (setHop i h m).berth = m.berth ∧ (setHop i h m).cmds = m.cmds ∧
    (setHop i h m).sync = m.sync ∧ (setHop i h m).sparse = m.sparse ∧ (setHop i h m).dir = m.dir ∧ (setHop i h m).qos = m.qos ∧
    (setHop i h m).season = m.season ∧ (setHop i h m).keys = m.keys ∧ (setHop i h m).err = m.err ∧ (setHop i h m).pmc = m.pmc ∧
    (setHop i h m).dbg = m.dbg ∧ (setHop i h m).fw = m.fw ∧ (setHop i h m).cyc = m.cyc ∧ (setHop i h m).out = m.out ∧
    (setHop i h m).unsent = m.unsent ∧
    (setHop i h m).lateDumps = m.lateDumps ∧ (setHop i h m).freeN = m.freeN := by
  simp only [setHop, and_self]

@[simp] theorem putAcc_keeps (k : Nat) (a : AccLine) (m : Mach) :
    (putAcc k a m).life = m.life ∧ (putAcc k a m).pilot = m.pilot ∧ (putAcc k a m).regs = m.regs ∧
    (putAcc k a m).ringH = m.ringH ∧ (putAcc k a m).ringF = m.ringF ∧ (putAcc k a m).evq = m.evq ∧ (putAcc k a m).ctxs = m.ctxs ∧
    (putAcc k a m).cache = m.cache ∧ (putAcc k a m).berth = m.berth ∧ (putAcc k a m).cmds = m.cmds ∧
    (putAcc k a m).sync = m.sync ∧ (putAcc k a m).sparse = m.sparse ∧ (putAcc k a m).dir = m.dir ∧ (putAcc k a m).qos = m.qos ∧
    (putAcc k a m).season = m.season ∧ (putAcc k a m).keys = m.keys ∧ (putAcc k a m).err = m.err ∧ (putAcc k a m).pmc = m.pmc ∧
    (putAcc k a m).dbg = m.dbg ∧ (putAcc k a m).fw = m.fw ∧ (putAcc k a m).cyc = m.cyc ∧ (putAcc k a m).out = m.out ∧
    (putAcc k a m).unsent = m.unsent ∧
    (putAcc k a m).lateDumps = m.lateDumps ∧ (putAcc k a m).freeN = m.freeN := by
  simp only [putAcc, and_self]

@[simp] theorem repark_keeps (a : Access) (dir thaw : Bool) (m : Mach) :
    (repark a dir thaw m).life = m.life ∧ (repark a dir thaw m).pilot = m.pilot ∧ (repark a dir thaw m).regs = m.regs ∧
    (repark a dir thaw m).ringH = m.ringH ∧ (repark a dir thaw m).ringF = m.ringF ∧ (repark a dir thaw m).evq = m.evq ∧
    (repark a dir thaw m).ctxs = m.ctxs ∧ (repark a dir thaw m).berth = m.berth ∧ (repark a dir thaw m).cmds = m.cmds ∧
    (repark a dir thaw m).sync = m.sync ∧ (repark a dir thaw m).red = m.red ∧ (repark a dir thaw m).sparse = m.sparse ∧
    (repark a dir thaw m).dir = m.dir ∧ (repark a dir thaw m).qos = m.qos ∧ (repark a dir thaw m).season = m.season ∧
    (repark a dir thaw m).keys = m.keys ∧ (repark a dir thaw m).err = m.err ∧ (repark a dir thaw m).pmc = m.pmc ∧
    (repark a dir thaw m).dbg = m.dbg ∧ (repark a dir thaw m).fw = m.fw ∧ (repark a dir thaw m).cyc = m.cyc ∧
    (repark a dir thaw m).out = m.out ∧ (repark a dir thaw m).unsent = m.unsent ∧
    (repark a dir thaw m).lateDumps = m.lateDumps ∧ (repark a dir thaw m).freeN = m.freeN := by
  simp only [repark, and_self]

@[simp] theorem markClear_keeps (l : LineNo) (m : Mach) :
    (markClear l m).life = m.life ∧ (markClear l m).pilot = m.pilot ∧ (markClear l m).regs = m.regs ∧
    (markClear l m).ringH = m.ringH ∧ (markClear l m).ringF = m.ringF ∧ (markClear l m).evq = m.evq ∧
    (markClear l m).ctxs = m.ctxs ∧ (markClear l m).cache = m.cache ∧ (markClear l m).berth = m.berth ∧
    (markClear l m).sync = m.sync ∧ (markClear l m).red = m.red ∧ (markClear l m).sparse = m.sparse ∧
    (markClear l m).dir = m.dir ∧ (markClear l m).qos = m.qos ∧ (markClear l m).season = m.season ∧
    (markClear l m).keys = m.keys ∧ (markClear l m).err = m.err ∧ (markClear l m).pmc = m.pmc ∧ (markClear l m).dbg = m.dbg ∧
    (markClear l m).fw = m.fw ∧ (markClear l m).cyc = m.cyc ∧ (markClear l m).out = m.out ∧ (markClear l m).unsent = m.unsent ∧
    (markClear l m).lateDumps = m.lateDumps ∧ (markClear l m).freeN = m.freeN := by
  simp only [markClear, and_self]

@[simp] theorem setDom_keeps (i : Nat) (d : Dom) (m : Mach) :
    (setDom i d m).life = m.life ∧ (setDom i d m).pilot = m.pilot ∧ (setDom i d m).regs = m.regs ∧
    (setDom i d m).ringH = m.ringH ∧ (setDom i d m).ringF = m.ringF ∧ (setDom i d m).evq = m.evq ∧ (setDom i d m).ctxs = m.ctxs ∧
    (setDom i d m).cache = m.cache ∧ (setDom i d m).berth = m.berth ∧ (setDom i d m).cmds = m.cmds ∧
    (setDom i d m).sync = m.sync ∧ (setDom i d m).red = m.red ∧ (setDom i d m).sparse = m.sparse ∧ (setDom i d m).dir = m.dir ∧
    (setDom i d m).qos = m.qos ∧ (setDom i d m).keys = m.keys ∧ (setDom i d m).err = m.err ∧ (setDom i d m).pmc = m.pmc ∧
    (setDom i d m).dbg = m.dbg ∧ (setDom i d m).fw = m.fw ∧ (setDom i d m).cyc = m.cyc ∧ (setDom i d m).out = m.out ∧
    (setDom i d m).unsent = m.unsent ∧
    (setDom i d m).lateDumps = m.lateDumps ∧ (setDom i d m).freeN = m.freeN := by
  simp only [setDom, and_self]

@[simp] theorem unwait_keeps (c : Rec) (m : Mach) :
    (unwait c m).life = m.life ∧ (unwait c m).pilot = m.pilot ∧ (unwait c m).regs = m.regs ∧ (unwait c m).ringH = m.ringH ∧
    (unwait c m).ringF = m.ringF ∧ (unwait c m).evq = m.evq ∧ (unwait c m).ctxs = m.ctxs ∧ (unwait c m).cache = m.cache ∧
    (unwait c m).berth = m.berth ∧ (unwait c m).sync = m.sync ∧ (unwait c m).red = m.red ∧ (unwait c m).sparse = m.sparse ∧
    (unwait c m).dir = m.dir ∧ (unwait c m).qos = m.qos ∧ (unwait c m).season = m.season ∧ (unwait c m).keys = m.keys ∧
    (unwait c m).err = m.err ∧ (unwait c m).pmc = m.pmc ∧ (unwait c m).dbg = m.dbg ∧ (unwait c m).fw = m.fw ∧
    (unwait c m).cyc = m.cyc ∧ (unwait c m).out = m.out ∧ (unwait c m).unsent = m.unsent ∧
    (unwait c m).lateDumps = m.lateDumps ∧ (unwait c m).freeN = m.freeN := by
  simp only [unwait, and_self]

@[simp] theorem countRelease_keeps (m : Mach) :
    (countRelease m).pilot = m.pilot ∧ (countRelease m).regs = m.regs ∧ (countRelease m).ringH = m.ringH ∧
    (countRelease m).ringF = m.ringF ∧ (countRelease m).evq = m.evq ∧ (countRelease m).ctxs = m.ctxs ∧
    (countRelease m).cache = m.cache ∧ (countRelease m).berth = m.berth ∧ (countRelease m).cmds = m.cmds ∧
    (countRelease m).sync = m.sync ∧ (countRelease m).red = m.red ∧ (countRelease m).sparse = m.sparse ∧
    (countRelease m).dir = m.dir ∧ (countRelease m).qos = m.qos ∧ (countRelease m).season = m.season ∧
    (countRelease m).keys = m.keys ∧ (countRelease m).err = m.err ∧ (countRelease m).pmc = m.pmc ∧ (countRelease m).dbg = m.dbg ∧
    (countRelease m).fw = m.fw ∧ (countRelease m).cyc = m.cyc ∧ (countRelease m).out = m.out ∧
    (countRelease m).unsent = m.unsent ∧
    (countRelease m).lateDumps = m.lateDumps ∧ (countRelease m).freeN = m.freeN := by
  simp only [countRelease, and_self]

@[simp] theorem driveIso_keeps (level : Bool) (m : Mach) :
    (driveIso level m).pilot = m.pilot ∧ (driveIso level m).regs = m.regs ∧ (driveIso level m).ringH = m.ringH ∧
    (driveIso level m).ringF = m.ringF ∧ (driveIso level m).evq = m.evq ∧ (driveIso level m).ctxs = m.ctxs ∧
    (driveIso level m).cache = m.cache ∧ (driveIso level m).berth = m.berth ∧ (driveIso level m).cmds = m.cmds ∧
    (driveIso level m).sync = m.sync ∧ (driveIso level m).red = m.red ∧ (driveIso level m).sparse = m.sparse ∧
    (driveIso level m).dir = m.dir ∧ (driveIso level m).qos = m.qos ∧ (driveIso level m).season = m.season ∧
    (driveIso level m).keys = m.keys ∧ (driveIso level m).err = m.err ∧ (driveIso level m).pmc = m.pmc ∧
    (driveIso level m).dbg = m.dbg ∧ (driveIso level m).fw = m.fw ∧ (driveIso level m).cyc = m.cyc ∧
    (driveIso level m).out = m.out ∧ (driveIso level m).unsent = m.unsent ∧
    (driveIso level m).lateDumps = m.lateDumps ∧ (driveIso level m).freeN = m.freeN := by
  simp only [driveIso, and_self]

@[simp] theorem countBank_keeps (m : Mach) :
    (countBank m).pilot = m.pilot ∧ (countBank m).regs = m.regs ∧ (countBank m).ringH = m.ringH ∧ (countBank m).ringF = m.ringF ∧
    (countBank m).evq = m.evq ∧ (countBank m).ctxs = m.ctxs ∧ (countBank m).cache = m.cache ∧ (countBank m).berth = m.berth ∧
    (countBank m).cmds = m.cmds ∧ (countBank m).sync = m.sync ∧ (countBank m).red = m.red ∧ (countBank m).sparse = m.sparse ∧
    (countBank m).dir = m.dir ∧ (countBank m).qos = m.qos ∧ (countBank m).season = m.season ∧ (countBank m).keys = m.keys ∧
    (countBank m).err = m.err ∧ (countBank m).pmc = m.pmc ∧ (countBank m).dbg = m.dbg ∧ (countBank m).fw = m.fw ∧
    (countBank m).cyc = m.cyc ∧ (countBank m).out = m.out ∧ (countBank m).unsent = m.unsent ∧
    (countBank m).lateDumps = m.lateDumps ∧ (countBank m).freeN = m.freeN := by
  simp only [countBank, and_self]

@[simp] theorem countRow_keeps (m : Mach) :
    (countRow m).pilot = m.pilot ∧ (countRow m).regs = m.regs ∧ (countRow m).ringH = m.ringH ∧ (countRow m).ringF = m.ringF ∧
    (countRow m).evq = m.evq ∧ (countRow m).ctxs = m.ctxs ∧ (countRow m).cache = m.cache ∧ (countRow m).berth = m.berth ∧
    (countRow m).cmds = m.cmds ∧ (countRow m).sync = m.sync ∧ (countRow m).red = m.red ∧ (countRow m).sparse = m.sparse ∧
    (countRow m).dir = m.dir ∧ (countRow m).qos = m.qos ∧ (countRow m).season = m.season ∧ (countRow m).keys = m.keys ∧
    (countRow m).err = m.err ∧ (countRow m).pmc = m.pmc ∧ (countRow m).dbg = m.dbg ∧ (countRow m).fw = m.fw ∧
    (countRow m).cyc = m.cyc ∧ (countRow m).out = m.out ∧ (countRow m).unsent = m.unsent ∧
    (countRow m).lateDumps = m.lateDumps ∧ (countRow m).freeN = m.freeN := by
  simp only [countRow, and_self]

@[simp] theorem stopController_keeps (m : Mach) :
    (stopController m).pilot = m.pilot ∧ (stopController m).regs = m.regs ∧ (stopController m).ringH = m.ringH ∧
    (stopController m).ringF = m.ringF ∧ (stopController m).evq = m.evq ∧ (stopController m).ctxs = m.ctxs ∧
    (stopController m).cache = m.cache ∧ (stopController m).berth = m.berth ∧ (stopController m).cmds = m.cmds ∧
    (stopController m).sync = m.sync ∧ (stopController m).red = m.red ∧ (stopController m).sparse = m.sparse ∧
    (stopController m).dir = m.dir ∧ (stopController m).qos = m.qos ∧ (stopController m).season = m.season ∧
    (stopController m).keys = m.keys ∧ (stopController m).err = m.err ∧ (stopController m).pmc = m.pmc ∧
    (stopController m).dbg = m.dbg ∧ (stopController m).fw = m.fw ∧ (stopController m).cyc = m.cyc ∧
    (stopController m).out = m.out ∧ (stopController m).unsent = m.unsent ∧
    (stopController m).lateDumps = m.lateDumps ∧ (stopController m).freeN = m.freeN := by
  simp only [stopController, and_self]

@[simp] theorem rejectAt_keeps (off : Nat) (m : Mach) :
    (rejectAt off m).life = m.life ∧ (rejectAt off m).pilot = m.pilot ∧ (rejectAt off m).ringH = m.ringH ∧
    (rejectAt off m).ringF = m.ringF ∧ (rejectAt off m).evq = m.evq ∧ (rejectAt off m).ctxs = m.ctxs ∧
    (rejectAt off m).cache = m.cache ∧ (rejectAt off m).berth = m.berth ∧ (rejectAt off m).cmds = m.cmds ∧
    (rejectAt off m).sync = m.sync ∧ (rejectAt off m).red = m.red ∧ (rejectAt off m).sparse = m.sparse ∧
    (rejectAt off m).dir = m.dir ∧ (rejectAt off m).qos = m.qos ∧ (rejectAt off m).season = m.season ∧
    (rejectAt off m).keys = m.keys ∧ (rejectAt off m).err = m.err ∧ (rejectAt off m).pmc = m.pmc ∧ (rejectAt off m).dbg = m.dbg ∧
    (rejectAt off m).fw = m.fw ∧ (rejectAt off m).cyc = m.cyc ∧ (rejectAt off m).out = m.out ∧
    (rejectAt off m).unsent = m.unsent ∧
    (rejectAt off m).lateDumps = m.lateDumps ∧ (rejectAt off m).freeN = m.freeN := by
  simp only [rejectAt, and_self]

@[simp] theorem rejectOnly_keeps (m : Mach) :
    (rejectOnly m).life = m.life ∧ (rejectOnly m).pilot = m.pilot ∧ (rejectOnly m).ringH = m.ringH ∧
    (rejectOnly m).ringF = m.ringF ∧ (rejectOnly m).evq = m.evq ∧ (rejectOnly m).ctxs = m.ctxs ∧ (rejectOnly m).cache = m.cache ∧
    (rejectOnly m).berth = m.berth ∧ (rejectOnly m).cmds = m.cmds ∧ (rejectOnly m).sync = m.sync ∧ (rejectOnly m).red = m.red ∧
    (rejectOnly m).sparse = m.sparse ∧ (rejectOnly m).dir = m.dir ∧ (rejectOnly m).qos = m.qos ∧
    (rejectOnly m).season = m.season ∧ (rejectOnly m).keys = m.keys ∧ (rejectOnly m).err = m.err ∧ (rejectOnly m).pmc = m.pmc ∧
    (rejectOnly m).dbg = m.dbg ∧ (rejectOnly m).fw = m.fw ∧ (rejectOnly m).cyc = m.cyc ∧ (rejectOnly m).out = m.out ∧
    (rejectOnly m).unsent = m.unsent ∧
    (rejectOnly m).lateDumps = m.lateDumps ∧ (rejectOnly m).freeN = m.freeN := by
  simp only [rejectOnly, and_self]

@[simp] theorem writePmcStatus_keeps (v : W64) (m : Mach) :
    (writePmcStatus v m).life = m.life ∧ (writePmcStatus v m).pilot = m.pilot ∧ (writePmcStatus v m).regs = m.regs ∧
    (writePmcStatus v m).ringH = m.ringH ∧ (writePmcStatus v m).ringF = m.ringF ∧ (writePmcStatus v m).evq = m.evq ∧
    (writePmcStatus v m).ctxs = m.ctxs ∧ (writePmcStatus v m).cache = m.cache ∧ (writePmcStatus v m).berth = m.berth ∧
    (writePmcStatus v m).cmds = m.cmds ∧ (writePmcStatus v m).sync = m.sync ∧ (writePmcStatus v m).red = m.red ∧
    (writePmcStatus v m).sparse = m.sparse ∧ (writePmcStatus v m).dir = m.dir ∧ (writePmcStatus v m).qos = m.qos ∧
    (writePmcStatus v m).season = m.season ∧ (writePmcStatus v m).keys = m.keys ∧ (writePmcStatus v m).err = m.err ∧
    (writePmcStatus v m).dbg = m.dbg ∧ (writePmcStatus v m).fw = m.fw ∧ (writePmcStatus v m).cyc = m.cyc ∧
    (writePmcStatus v m).out = m.out ∧ (writePmcStatus v m).unsent = m.unsent ∧
    (writePmcStatus v m).lateDumps = m.lateDumps ∧ (writePmcStatus v m).freeN = m.freeN := by
  simp only [writePmcStatus, and_self]

@[simp] theorem clearLatches_keeps (p : Path) (m : Mach) :
    (clearLatches p m).life = m.life ∧ (clearLatches p m).pilot = m.pilot ∧ (clearLatches p m).ringH = m.ringH ∧
    (clearLatches p m).ringF = m.ringF ∧ (clearLatches p m).evq = m.evq ∧ (clearLatches p m).ctxs = m.ctxs ∧
    (clearLatches p m).cache = m.cache ∧ (clearLatches p m).berth = m.berth ∧ (clearLatches p m).cmds = m.cmds ∧
    (clearLatches p m).sync = m.sync ∧ (clearLatches p m).red = m.red ∧ (clearLatches p m).sparse = m.sparse ∧
    (clearLatches p m).dir = m.dir ∧ (clearLatches p m).qos = m.qos ∧ (clearLatches p m).season = m.season ∧
    (clearLatches p m).keys = m.keys ∧ (clearLatches p m).err = m.err ∧ (clearLatches p m).pmc = m.pmc ∧
    (clearLatches p m).dbg = m.dbg ∧ (clearLatches p m).fw = m.fw ∧ (clearLatches p m).cyc = m.cyc ∧
    (clearLatches p m).out = m.out ∧ (clearLatches p m).unsent = m.unsent ∧
    (clearLatches p m).lateDumps = m.lateDumps ∧ (clearLatches p m).freeN = m.freeN := by
  simp only [clearLatches, and_self]

@[simp] theorem setReadLatch_keeps (p : Path) (o : Nat) (d : W32) (m : Mach) :
    (setReadLatch p o d m).life = m.life ∧ (setReadLatch p o d m).pilot = m.pilot ∧ (setReadLatch p o d m).ringH = m.ringH ∧
    (setReadLatch p o d m).ringF = m.ringF ∧ (setReadLatch p o d m).evq = m.evq ∧ (setReadLatch p o d m).ctxs = m.ctxs ∧
    (setReadLatch p o d m).cache = m.cache ∧ (setReadLatch p o d m).berth = m.berth ∧ (setReadLatch p o d m).cmds = m.cmds ∧
    (setReadLatch p o d m).sync = m.sync ∧ (setReadLatch p o d m).red = m.red ∧ (setReadLatch p o d m).sparse = m.sparse ∧
    (setReadLatch p o d m).dir = m.dir ∧ (setReadLatch p o d m).qos = m.qos ∧ (setReadLatch p o d m).season = m.season ∧
    (setReadLatch p o d m).keys = m.keys ∧ (setReadLatch p o d m).err = m.err ∧ (setReadLatch p o d m).pmc = m.pmc ∧
    (setReadLatch p o d m).dbg = m.dbg ∧ (setReadLatch p o d m).fw = m.fw ∧ (setReadLatch p o d m).cyc = m.cyc ∧
    (setReadLatch p o d m).out = m.out ∧ (setReadLatch p o d m).unsent = m.unsent ∧
    (setReadLatch p o d m).lateDumps = m.lateDumps ∧ (setReadLatch p o d m).freeN = m.freeN := by
  simp only [setReadLatch, and_self]

@[simp] theorem setWriteLatch_keeps (p : Path) (o : Nat) (d : W32) (m : Mach) :
    (setWriteLatch p o d m).life = m.life ∧ (setWriteLatch p o d m).pilot = m.pilot ∧ (setWriteLatch p o d m).ringH = m.ringH ∧
    (setWriteLatch p o d m).ringF = m.ringF ∧ (setWriteLatch p o d m).evq = m.evq ∧ (setWriteLatch p o d m).ctxs = m.ctxs ∧
    (setWriteLatch p o d m).cache = m.cache ∧ (setWriteLatch p o d m).berth = m.berth ∧ (setWriteLatch p o d m).cmds = m.cmds ∧
    (setWriteLatch p o d m).sync = m.sync ∧ (setWriteLatch p o d m).red = m.red ∧ (setWriteLatch p o d m).sparse = m.sparse ∧
    (setWriteLatch p o d m).dir = m.dir ∧ (setWriteLatch p o d m).qos = m.qos ∧ (setWriteLatch p o d m).season = m.season ∧
    (setWriteLatch p o d m).keys = m.keys ∧ (setWriteLatch p o d m).err = m.err ∧ (setWriteLatch p o d m).pmc = m.pmc ∧
    (setWriteLatch p o d m).dbg = m.dbg ∧ (setWriteLatch p o d m).fw = m.fw ∧ (setWriteLatch p o d m).cyc = m.cyc ∧
    (setWriteLatch p o d m).out = m.out ∧ (setWriteLatch p o d m).unsent = m.unsent ∧
    (setWriteLatch p o d m).lateDumps = m.lateDumps ∧ (setWriteLatch p o d m).freeN = m.freeN := by
  simp only [setWriteLatch, and_self]

end Sys2Proof.Machine
end

