-- ==== Sys2Proof/Laws/Sync.lean ====
section
/-! SUPPORT. The operations on sync objects and parked waits leave a block at rest where nothing could go on before. -/

namespace Sys2Proof.Machine

/-- Where nothing can go on, no object is an orphan. -/
theorem resting_orphan {m : Mach} (h : resting m = true) (i : BitVec 14) : (syncObj m i).orphan = false := by
  rcases tget_mem SyncObj.free m.sync.objs i.toNat with e | e
  · rw [syncObj, e]; rfl
  · exact ((resting_iff m).mp h).1.orphans _ e

theorem resting_setSync {m : Mach} {i : BitVec 14} {o : SyncObj} (h : resting m = true) (ho : o.orphan = false) : resting (setSync i o m) = true := by
  obtain ⟨k, l, w⟩ := (resting_iff m).mp h
  refine (resting_iff _).mpr ⟨⟨k.1, k.2, k.3, k.4, k.5, k.6, k.7, k.8, k.9, k.10, k.11, k.12, k.13, k.14, k.15, ?_, k.17, k.18, k.19, k.20, k.21, k.22, k.23⟩, l, w⟩
  intro x hx
  rcases mem_tset hx with hx | hx
  · exact k.orphans x hx
  · rw [hx]; exact ho

/-- A parked wait that leaves is out of the table, and its edge, once exported, is to be retracted. -/
theorem leaveTable_frame (w : Wait) (m : Mach) :
    ∃ r, leaveTable w m = { m with sync := { m.sync with waits := m.sync.waits.filter (!sameWait w ·), retract := r } } := by
  simp only [leaveTable]
  split
  · exact ⟨_, rfl⟩
  · exact ⟨m.sync.retract, rfl⟩

/-- A wait woken: it leaves the table, its answer leaves, and both are counted. -/
theorem wake_frame (w : Wait) (st : BitVec 4) (info : BitVec 16) (ws : List W64) (m : Mach) :
    ∃ r l p, wake w st info ws m =
      { m with sync := { m.sync with waits := m.sync.waits.filter (!sameWait w ·), retract := r }, out := l, pmc := p } := by
  obtain ⟨r, hr⟩ := leaveTable_frame w m
  simp only [wake, hr, count, countR]
  obtain ⟨l, hl⟩ := sendResp_frame (waitReq w) opWAIT st 0 false info ws
    { m with sync := { m.sync with waits := m.sync.waits.filter (!sameWait w ·), retract := r } }
  rw [hl]
  obtain ⟨p, hp⟩ := countN_frame st.toNat (some (waitReq w).ctx) (some (waitReq w).tc) 1
    { m with sync := { m.sync with waits := m.sync.waits.filter (!sameWait w ·), retract := r }, out := l }
  rw [hp]
  obtain ⟨p', hp'⟩ := countN_frame 0x04B none none 1
    { m with sync := { m.sync with waits := m.sync.waits.filter (!sameWait w ·), retract := r }, out := l, pmc := p }
  exact ⟨r, l, p', by rw [hp']⟩

theorem resting_wake {w : Wait} {st : BitVec 4} {info : BitVec 16} {ws : List W64} {m : Mach} (h : resting m = true) :
    resting (wake w st info ws m) = true := by
  obtain ⟨r, l, p, e⟩ := wake_frame w st info ws m
  obtain ⟨k, lk, wt⟩ := (resting_iff m).mp h
  rw [e]
  exact (resting_iff _).mpr ⟨⟨k.1, k.2, k.3, k.4, k.5, k.6, k.7, k.8, k.9, k.10, k.11, k.12, k.13, k.14, k.15, k.16, k.17, k.18, k.19, k.20, k.21,
    fun x hx => k.22 x (List.mem_of_mem_filter hx), k.23⟩, lk, wt⟩

theorem resting_wakeAll {code : BitVec 8} {ws : List Wait} {m : Mach} (h : resting m = true) : resting (wakeAll code ws m) = true := by
  rw [wakeAll]
  induction ws generalizing m with
  | nil => exact h
  | cons w t ih => exact ih (resting_wake h)

theorem resting_evalWaits {i : BitVec 14} {scope : BitVec 3} {only : Wait → Bool} {m : Mach} (h : resting m = true) :
    resting (evalWaits i scope only m) = true := by
  simp only [evalWaits, wakeHits]
  have step : ∀ (ws : List (Nat × Wait)) (hit : List (Nat × W64)) (n : Mach), resting n = true →
      resting (ws.foldl (fun m x => match hit.find? (·.1 = x.1) with
        | none => m
        | some h =>
          let m := if x.2.acq && decide (x.2.scope ≠ scope) then countN 0x013 (some x.2.ctx) (some x.2.tc) 1 m else m
          wake x.2 stOk 1 [h.2] m) n) = true := by
    intro ws hit
    induction ws with
    | nil => intro n hn; exact hn
    | cons x t ih =>
      intro n hn
      rw [List.foldl_cons]
      refine ih _ ?_
      split
      · exact hn
      · dsimp only
        split
        · exact resting_wake (resting_countN hn)
        · exact resting_wake hn
  exact step _ _ _ (resting_countN (resting_setSync h (resting_orphan h i)))

theorem resting_updateSync {i : BitVec 14} {v : W64} {scope : BitVec 3} {m : Mach} (h : resting m = true) :
    resting (updateSync i v scope m) = true :=
  resting_evalWaits (resting_countN (resting_setSync h (resting_orphan h i)))

theorem resting_freeSync {i : BitVec 14} {m : Mach} (h : resting m = true) : resting (freeSync i m) = true := by
  simp only [freeSync]
  exact resting_setSync (by exact h) rfl

theorem resting_putError {i : BitVec 14} {code : BitVec 8} {m : Mach} (h : resting m = true) : resting (putError i code m) = true := by
  simp only [putError]
  split
  · exact h
  · exact resting_wakeAll (resting_setSync h (resting_orphan h i))

theorem resting_syncSet {i : BitVec 14} {c : Rec} {m : Mach} (h : resting m = true) : resting (syncSet i c m) = true := by
  simp only [syncSet]
  have h1 : resting (if cFlag c 3 then setSync i { syncObj m i with sigv := true, sigq := BitVec.ofNat 16 (fld c.pkt.p2 15 0) } m else m) = true := by
    split
    · exact resting_setSync h (resting_orphan h i)
    · exact h
  generalize (if cFlag c 3 then setSync i { syncObj m i with sigv := true, sigq := BitVec.ofNat 16 (fld c.pkt.p2 15 0) } m else m) = n at h1 ⊢
  have h2 : resting (if cFlag c 0 then updateSync i c.pkt.p1 5 n else n) = true := by
    split
    · exact resting_updateSync h1
    · exact h1
  generalize (if cFlag c 0 then updateSync i c.pkt.p1 5 n else n) = n at h2 ⊢
  have h3 : resting (if cFlag c 1 then (if (syncObj n i).err then n else putError i (BitVec.ofNat 8 (fld c.pkt.p2 23 16)) (count 0x049 n)) else n) = true := by
    split
    · split
      · exact h2
      · exact resting_putError (resting_countN h2)
    · exact h2
  generalize (if cFlag c 1 then (if (syncObj n i).err then n else putError i (BitVec.ofNat 8 (fld c.pkt.p2 23 16)) (count 0x049 n)) else n) = n at h3 ⊢
  split
  · exact resting_setSync h3 (resting_orphan h3 i)
  · exact h3

theorem resting_dropMember {fx : Fixed} {i : BitVec 14} {c : Ctx} {m : Mach} (h : resting m = true) (hs : sound m = true) :
    resting (dropMember fx i c m) = true := by
  simp only [dropMember, scanSync_sound fx i hs]
  exact resting_wakeAll (resting_setSync (by exact h) (resting_orphan h i))

/-- Where nothing can go on, no object waits to be freed. -/
theorem freeOrphan_rest {i : BitVec 14} {m : Mach} (h : resting m = true) : freeOrphan i m = m := by
  rw [freeOrphan, resting_orphan h i]
  simp

end Sys2Proof.Machine
end

