-- ==== Sys2Proof/Machine/Flags.lean ====
section
/-! DEFINITION. The levels of the output pins (02_boundary.md Tables PORT-13, PORT-15, PORT-18) as functions of the state: each
shows what its chapter gives it, or the strap of its clamp group (02 R64). -/

namespace Sys2Proof.Machine

/-- ALERT_N: low while an event is pending or TAIL differs from HEAD (19 R476); its strap while clamped. -/
def pinAlertN (fx : Fixed) (m : Mach) : Bool :=
  if outDown m then fx.clampAlertN else m.evq.pend.isEmpty && decide (m.evq.tail = m.evq.head)

/-- SB_PRESENT: 1 while the sideband is served (02 R60); its strap while clamped. -/
def pinSbPresent (fx : Fixed) (m : Mach) : Bool := if outDown m then fx.clampSbPresent else true

/-- KB_EMPTY: 1 while no key slot holds key material (02 Table PORT-13); its strap while clamped. -/
def pinKbEmpty (fx : Fixed) (m : Mach) : Bool := if memDown m then fx.clampKbEmpty else kbEmpty m

/-- SLICE_ALIVE: toggles while Uzober runs (02 Table PORT-15, 17 R440), and is 0 while clamped. -/
def pinSliceAlive (m : Mach) : Bool := !outDown m && m.life.alive

/-- PM_TLM: the coarsened mean while a confidential context is present (14 R388), else a reading that the chapters leave open
(log 8); its strap while clamped. -/
def pinPmTlm (fx : Fixed) (m : Mach) : BitVec 12 :=
  if outDown m then fx.clampPmTlm else if confPresent m then m.life.pmTlm else Config.freePower m.freeN

/-- PM_THAW_REQ: queued weight beyond the budget, saturating at 7 (13 R355), and 0 while clamped. -/
def pinThawReq (m : Mach) : Nat := if outDown m then 0 else pmThawReq m

/-- The memory port takes read returns: its strap chooses while the memory island is clamped (02 Table PORT-18). -/
def pinMemReady (fx : Fixed) (m : Mach) : Bool := if memDown m then !fx.clampMemNotReady else true

/-- The landings advertise VC0 credits: with the strap HOLD they do not before READY (02 Table PORT-18). -/
def pinVc0Credits (fx : Fixed) (m : Mach) : Bool := !(fx.clampHold && landingClamped m)

/-- DBG_TRACE: zero while TRACE is not open or its MODE is reserved, else the word of the control cycle four before (18 R463, R465,
Table PMC-5). -/
def pinTrace (m : Mach) : W32 :=
  if outDown m || !m.dbg.trace || bit m.dbg.traceCtl 63 then 0
  else match m.pmc.trace.find? fun t => t.cyc + 4 = m.cyc with
    | none => 0
    | some t =>
      if bit m.dbg.traceCtl 62 then (t.north.orElse fun _ => t.south).getD 0
      else BitVec.ofNat 32 (sat 255 t.evs[0] + sat 255 t.evs[1] * 2 ^ 8 + sat 255 t.evs[2] * 2 ^ 16 + sat 255 t.evs[3] * 2 ^ 24)

/-- What a read of the test data registers gives: BIST_CTL, what the last march test found, SCAN_EN; zero outside the states that
Table START-3 gives and while a confidential context is present (17 R448; log 31: the layout of BIST_RESULT is left open). -/
def tapBistCtl (m : Mach) : W32 := if (m.life.st = .off || m.life.st = .fenced) && !confPresent m then m.life.bistCtl else 0
def tapBistResult (m : Mach) : Option BistFindings :=
  if m.life.st = .off || confPresent m then none else some ⟨m.life.bistRows, m.life.bistBanks, m.life.bistUnit⟩
def tapScanEn (m : Mach) : Bool := (m.life.coldRst || m.life.warmRst) && !confPresent m && m.life.scanEn

end Sys2Proof.Machine
end

