-- ==== Sys2Proof/WellFormed.lean ====
section
/-! DEFINITION. What a command of the block must be to be the row it is written as: the checks on its operands that the interface
makes by its own form. A term that fails them is no transfer, packet or event that can come; the meanings are total all the same. -/

namespace Sys2Proof

open Sys2Proof.Machine

/-- The assigned data-plane opcodes (02 Table PORT-8). -/
def dpOpcodes : List (BitVec 6) := dpOps

/-- A data-plane request: PLEN counts its payload words, the byte mask is there only with MASKMODE = 1, and only a VC2 packet has an
envelope (02 R41, R43, R48). -/
def reqOk (r : Req) : Bool :=
  decide (r.payload.length = r.plen.toNat) && (decide (r.maskmode = 1) || decide (r.bmask = 0)) && (decide (r.vc = .vc2) || decide (r.env = 0))

/-- A command as its path carries it: the command of a ring has no transport of its own bits, and a VC2 envelope has 44
(02 R48, R483). -/
def cmdOk (c : CmdPkt) : Bool :=
  match c.path with
  | .ring _ => decide (c.env = 0)
  | .vc2 _ _ => decide (c.env.toNat < 2 ^ 44)
  | .sideband => true

/-- A command whose flag i is clear: with it set, the command is another row's. -/
def plain (i : Nat) (c : CmdPkt) : Bool := cmdOk c && !c.w0.getLsbD (12 + i)

/-- The KIND of the handle in P0 (05 Table BERTH-1). -/
def handleKind (c : CmdPkt) : Nat := hKind c.p0

/-- A host message without payload: no half and no byte enable come with it (11 R307). -/
def bareMsg (h : HostMsg) : Bool := decide (h.be = 0) && decide (h.data = 0)

/-- The messages that have rows of their own; MemInvNT, which Table COH-3 has handled as MemInv, comes by its number, class 0
message 6 (11 Table COH-3). -/
def hostServed (cls msg : BitVec 4) : Bool := (hostHandled cls msg && !(cls = 0 && msg = 6)) || (cls = 0 && (msg = 5 || msg = 8)) || cls = 2

/-- Findings of the march test name banks 0 to 16 (17 R443). -/
def bistOk (f : BistFindings) : Bool := (f.rows.all fun x => decide (x.2.1.toNat ≤ 16)) && f.banks.all fun x => decide (x.2.toNat ≤ 16)

/-- A VC2 packet that is discarded is no data-plane request, and its body is no longer than any KIND's (02 Table PORT-11). -/
def discardOk (kind : BitVec 4) (body : List W64) : Bool := decide (kind ≠ 0) && decide (body.length ≤ 16)

/-- A well-formed command of the block. -/
def WellFormed (i : Instr) : Bool :=
  match i with
  | .pwrOkRise => true
  | .coldRstAssert => true
  | .warmRstAssert => true
  | .resetRelease => true
  | .leaveOffForInit => true
  | .isoNChange _ => true
  | .vddSwRemoval _ => true
  | .fwload _ _ _ beats _ => !beats.isEmpty && decide (beats.length ≤ 32768)
  | .fwdone _ _ _ _ => true
  | .firmwareLoadTimeout _ => true
  | .controllerStart => true
  | .arrayBist f => bistOk f
  | .repairLoad => true
  | .hardwareInvalidate => true
  | .tapFuseRepairShift _ => true
  | .tapBistCtlWrite _ f => bistOk f
  | .tapScanEnWrite _ => true
  | .tapScanChainAccess _ _ => true
  | .rd r => reqOk r
  | .rdVol r => reqOk r
  | .rdStream r => reqOk r
  | .wr r => reqOk r
  | .wrThru r => reqOk r
  | .wrFull r => reqOk r
  | .atom r => reqOk r
  | .atomRet r => reqOk r
  | .lred r => reqOk r
  | .tcontrib r => reqOk r
  | .tcontribW r => reqOk r
  | .tfoldFold r => reqOk r
  | .tfoldSegment r => reqOk r
  | .tfoldAbort r => reqOk r
  | .signal r => reqOk r
  | .wait r => reqOk r
  | .brd r => reqOk r
  | .bwr r => reqOk r
  | .qenq r => reqOk r
  | .qdeq r => reqOk r
  | .scatterRed r => reqOk r
  | .pfHint r => reqOk r
  | .dataPlaneUnassignedOpcode op r => !decide (op ∈ dpOpcodes) && reqOk r
  | .contribAdmit _ => true
  | .tileDrain _ => true
  | .towlineForward _ => true
  | .towlineForwardRetry _ _ _ => true
  | .segmentResponse _ _ _ => true
  | .hopTimeout _ _ => true
  | .memReadReturn _ _ _ _ => true
  | .memWriteAck _ => true
  | .slipwayIssue => true
  | .replayRetry _ _ => true
  | .manifestCount _ => true
  | .queueNotify _ => true
  | .waitTimeout _ _ _ => true
  | .hostMemrd h => bareMsg h
  | .hostMemrddata h => bareMsg h
  | .hostMeminv h => bareMsg h
  | .hostMemspecrd h => bareMsg h
  | .hostMemclnevct h => bareMsg h
  | .hostBiconflict h => bareMsg h
  | .hostMemwr h => decide (h.be = 0)
  | .hostMemwrptl _ => true
  | .hostMsgRefused cls msg _ => !hostServed cls msg
  | .hostBirsp _ h => bareMsg h
  | .snoopTimeout _ _ => true
  | .kload _ _ _ _ _ _ _ _ _ => true
  | .knack _ _ => true
  | .kerase _ _ => true
  | .keyRetireReadsDrained _ => true
  | .sbRead _ _ _ _ => true
  | .sbWrite _ _ _ _ => true
  | .sbCmd _ c => decide (c.path = .sideband) && cmdOk c
  | .sbTransferIgnored _ kind => decide (2 < kind.toNat)
  | .windowAccess _ _ _ _ _ => true
  | .vc2PacketDiscard kind _ _ body => discardOk kind body
  | .registerWrite _ _ _ _ => true
  | .cmdqCtlWrite _ _ _ => true
  | .cmdqTailWrite _ _ _ => true
  | .rplqHeadWrite _ _ _ => true
  | .evqCtlWrite _ _ => true
  | .evqHeadWrite _ _ => true
  | .recovCtlHwfence _ _ => true
  | .dbgPeekAddrWrite _ _ => true
  | .pmcRdWrite _ _ => true
  | .redCtlWrite _ _ => true
  | .krtWrite _ _ _ => true
  | .bootCtlWrite _ _ => true
  | .sliceIdWrite _ _ _ => true
  | .hcAgentWrite _ _ _ => true
  | .ringFetch _ => true
  | .commandUnassigned op c => (rowOf? op.toNat opTable).isNone && cmdOk c
  | .nop c => cmdOk c
  | .identify c => cmdOk c
  | .pilotClaim c => cmdOk c
  | .pilotRelease c => cmdOk c
  | .pilotHandover c => cmdOk c
  | .leaseRenew c => cmdOk c
  | .pilotLeaseExpiry _ => true
  | .stateQuery c => cmdOk c
  | .levelLock c => cmdOk c
  | .ctxOpen c => cmdOk c
  | .ctxSetClass c => cmdOk c
  | .ctxSuspend c => cmdOk c
  | .ctxResume c => cmdOk c
  | .ctxPurge c => cmdOk c
  | .ctxClose c => cmdOk c
  | .ctxQuarantine c => plain 0 c
  | .ctxQuarantineRelease c => cmdOk c
  | .quarantineTimeout _ _ => true
  | .berthAlloc c => cmdOk c && decide (c.p1 = 0)
  | .arenaObjectAlloc c => cmdOk c && decide (c.p1 ≠ 0)
  | .berthFree c => plain 0 c && decide (handleKind c ≠ 2)
  | .berthFreeAbort c => cmdOk c && decide (handleKind c ≠ 2)
  | .arenaObjectFree c => plain 0 c && decide (handleKind c = 2)
  | .berthGranulesRelease _ => true
  | .berthResize c => cmdOk c
  | .arenaGrant c => cmdOk c
  | .arenaRevoke c => cmdOk c
  | .queueCreate c => cmdOk c
  | .queueDestroy c => cmdOk c
  | .pinBudget c => cmdOk c
  | .copy c => cmdOk c
  | .copyMeasure c => cmdOk c
  | .copyEngineStart => true
  | .rangeClean c => cmdOk c
  | .rangeInval c => cmdOk c
  | .rangeFlush c => cmdOk c
  | .rangeZero c => cmdOk c
  | .maintEngineStart => true
  | .sparsePack c => cmdOk c
  | .sparseUnpack c => cmdOk c
  | .acquireSweep c => cmdOk c
  | .sweepNoticeSend => true
  | .sweepAck _ _ _ _ _ _ => true
  | .sweepNoticeTimeout _ _ => true
  | .tileOpen c => cmdOk c
  | .tileClose c => cmdOk c
  | .tileDiscard c => cmdOk c
  | .tileQuery c => cmdOk c
  | .towlineSet c => plain 0 c
  | .towlineRelease c => cmdOk c
  | .scatterDescCreate c => plain 0 c && plain 1 c
  | .scatterDescRelease c => cmdOk c
  | .scatterDescQuery c => cmdOk c
  | .syncCreate c => cmdOk c
  | .syncDestroy c => cmdOk c
  | .syncSet c => cmdOk c
  | .syncQuery c => cmdOk c
  | .syncShare c => plain 0 c
  | .syncShareRemove c => cmdOk c
  | .jamExport c => cmdOk c
  | .jamEdgeExport _ => true
  | .classSet c => cmdOk c
  | .reserveBw c => cmdOk c
  | .releaseBw c => cmdOk c
  | .effWindowEnd _ => true
  | .latencyTolerance c => cmdOk c
  | .seasonQuery c => cmdOk c
  | .thawGrant c => cmdOk c
  | .autumnEntry _ => true
  | .seasonWindowEnd _ => true
  | .winterEntryComplete _ => true
  | .frostEntryComplete _ => true
  | .thawStart => true
  | .thawComplete _ => true
  | .keyBind c => plain 0 c
  | .keyBindRevoke c => cmdOk c
  | .keyRotate c => cmdOk c
  | .keyRetire c => cmdOk c
  | .keyErase c => cmdOk c
  | .confAttach c => cmdOk c
  | .measureRead c => cmdOk c
  | .scrubContext c => cmdOk c
  | .errlogRead c => cmdOk c
  | .scrubRate c => cmdOk c
  | .scrubStep _ => true
  | .memoryScrubStep => true
  | .rotationSweepStep => true
  | .inject c => cmdOk c
  | .bankSpare c => cmdOk c
  | .wayDisable c => plain 0 c
  | .wayRestore c => cmdOk c
  | .dirReclaim c => cmdOk c
  | .poisonClear c => cmdOk c
  | .engineReset c => cmdOk c
  | .sliceFenceMode0 c => cmdOk c
  | .sliceFenceMode1 c => cmdOk c
  | .quiesceDrained => true
  | .quiesceTimeout _ => true
  | .pmcConfig c => cmdOk c
  | .pmcDumpSet c => cmdOk c
  | .pmcPermit c => cmdOk c
  | .dumpDue _ => true
  | .viewRecordWrite _ => true
  | .confidentialLatch _ => true
  | .pmTlmWindowEnd _ _ _ => true
  | .debugOpen c => cmdOk c
  | .debugClose c => cmdOk c
  | .fwStage c => cmdOk c
  | .fwStageTimeout _ => true
  | .fwActivate c => cmdOk c
  | .fwActivateReady => true
  | .fwActivateTimeout _ => true
  | .fwQuery c => cmdOk c
  | .pinPressureWindowEnd _ => true
  | .teardownHoldExpiry _ _ => true
  | .syncIndexHoldExpiry _ _ => true
  | .manifestCoalescerDrain _ => true
  | .eventRecordWrite => true
  | .hwFencePowerOff _ => true
  | .peekResult => true
  | .memoryPortCredit _ _ => true
  | .reservationTokenRefill _ => true
  | .sliceAliveToggle => true
  | .controllerStops => true

end Sys2Proof
end

