-- ==== Sys2Proof/Tests/Slice0.lean ====
section
/-! SUPPORT. Checks of our own: ill-formed terms, which WellFormed refuses, and, for each statement with premises, a state and
operands that meet them together. -/

namespace Sys2Proof.Tests

/-! Each check is made before the next is read, which keeps the memory it takes small. -/
set_option Elab.async false

open Sys2Proof.Machine

/-- A slice in READY at level 3, logical number 0, whose pilot is the sideband's, with its domains awake. -/
def ready : State :=
  { State.reset with
    fx := { Fixed.reset with level := some 3, roLocked := true }
    m := { Mach.reset with
      life := { Life.reset with st := .service, pwrOk := true, coldRst := false, iso := false, running := true, alive := true, phase := 7,
                                domainsOff := false }
      regs := { Regs.reset with lv := true }
      pilot := ⟨0, 3, 1, 0⟩
      season := { Mach.reset.season with doms := Vector.replicate 82 ⟨.summer, none, .summer, 0, true⟩ } } }

/-- `ready` with context 5 open at generation 1. -/
def tenant (f : CtxEntry → CtxEntry) : State := { ready with m := setCtx 5 (f { CtxEntry.closed with opened := true, gen := 1, perm := 0xFF, pinCap := 100 }) ready.m }

/-- A command by the sideband: LEN, flags, context, and parameters. -/
def cmd (len flags : Nat) (ctx : Option (Nat × Nat)) (ps : List Nat) : CmdPkt :=
  { path := .sideband, env := 0, w0 := BitVec.ofNat 64 (len * 2 ^ 32 + flags * 2 ^ 12)
    w1 := match ctx with | some (c, g) => BitVec.ofNat 64 (2 ^ 20 + g * 2 ^ 12 + c) | none => 0
    p0 := BitVec.ofNat 64 (ps.getD 0 0), p1 := BitVec.ofNat 64 (ps.getD 1 0), p2 := BitVec.ofNat 64 (ps.getD 2 0)
    p3 := BitVec.ofNat 64 (ps.getD 3 0), p4 := BitVec.ofNat 64 (ps.getD 4 0), p5 := BitVec.ofNat 64 (ps.getD 5 0) }

/-- The row's command and the block as it starts. -/
def atRow (s : State) (i : Instr) : Option (Rec × Mach) :=
  (packetOf s.fx i).bind fun p => if byRing p then none else (masterOf p.path).map fun w => (recOf s.m w p, atStart p s.m)

/-- The premises of Arrives, read as one check, with another condition on the command and the block. -/
def arrives (s : State) (i : Instr) (f : Rec → Mach → Bool) : Bool :=
  match atRow s i with
  | some (c, m) => resting s.m && controls s.m && decide (inProgress s.m < 64) && !mustWait s.fx (waits c m) c && f c m
  | none => false

/-- The premises of Begins, with another condition on the command and the block. -/
def begins (s : State) (i : Instr) (f : Rec → Mach → Bool) : Bool :=
  arrives s i fun c m => (startStop s.fx (waits c m) c).isNone &&
    (decide (stepDoms s.fx (waits c m) c = []) || awake (waits c m) (stepDoms s.fx (waits c m) c)) &&
    decide (readyNow s.fx c (waits c m) = (waits c m, some false)) && f c m

theorem arrives_spec {s : State} {i : Instr} {f : Rec → Mach → Bool} (h : arrives s i f = true) : ∃ c m, Arrives s i c m ∧ f c m = true := by
  unfold arrives at h
  split at h
  · rename_i c m e
    simp only [Bool.and_eq_true, decide_eq_true_eq, Bool.not_eq_true'] at h
    obtain ⟨⟨⟨⟨h1, h2⟩, h3⟩, h4⟩, h5⟩ := h
    simp only [atRow, Option.bind_eq_some_iff] at e
    obtain ⟨p, hp, e⟩ := e
    split at e
    · cases e
    · rename_i hb
      simp only [Option.map_eq_some_iff, Prod.mk.injEq] at e
      obtain ⟨w, hw, rfl, rfl⟩ := e
      exact ⟨_, _, ⟨h1, h2, h3, ⟨p, hp, by simpa using hb, hw, rfl, rfl⟩, h4⟩, h5⟩
  · cases h

theorem begins_spec {s : State} {i : Instr} {f : Rec → Mach → Bool} (h : begins s i f = true) : ∃ c m, Begins s i c m ∧ f c m = true := by
  obtain ⟨c, m, a, h⟩ := arrives_spec h
  simp only [Bool.and_eq_true, decide_eq_true_eq, Option.isNone_iff_eq_none, Bool.or_eq_true] at h
  exact ⟨c, m, ⟨a, h.1.1.1, h.1.1.2, h.1.2⟩, h.2⟩

/-- The address of line n of the slice's own memory, by its logical number. -/
def at_ (n : Nat) : Nat := 2 ^ 47 + 128 * n

/-- s with line 0 in way 0, as the tag says. -/
def cached (t : Tag) (s : State) : State := { s with m := setTag 0 0 t s.m }
/-- A line with every sector valid and clean. -/
def clean : Tag := { Tag.free with v := 0xF }

/-- s with a berth of one granule at index 0, generation 1, of context 5, whose first line lies in way 31 of set 0. -/
def berthed (b : Berth → Berth) (s : State) : State :=
  { s with m := { s.m with berth := { s.m.berth with
      berths := tset .free s.m.berth.berths 0 (b { Berth.free with valid := true, ctx := 5, gen := 1 })
      gmap := tset 0 s.m.berth.gmap 0 32 } } }

/-! The theorems named meets_… give states and operands that meet the premises of the statements of Certificates/Slice0/Obligations.lean
together, clause by clause. -/

theorem meets_StateWordFields :
    (begins ready (.stateQuery (cmd 0 0 none [])) (fun _ m => decide (fld (stateWord ready.fx m) 7 0 = stateCode .service))) = true := by
  decide +kernel

theorem meets_PilotReleaseKeepsEpoch :
    (begins ready (.pilotRelease (cmd 0 0 none [])) (fun _ m => decide (m.pilot.master = 3))) = true := by
  decide +kernel


/-- ready with another pilot. -/
def led : State := { ready with m := { ready.m with pilot := ⟨0, 2, 1, 0⟩ } }
/-- tenant id at level 1. -/
def low : State := { tenant id with fx := { ready.fx with level := some 1 } }
/-- ready before LEVEL_LOCK. -/
def unlocked : State := { ready with fx := Fixed.reset, m := { ready.m with life := { ready.m.life with st := .ready } } }

theorem meets_RefusalsAtTheStart :
    (arrives ready (.commandUnassigned 0xEE (cmd 0 0 none [])) (fun c m => decide (startStop ready.fx (waits c m) c = some (csBadOpcode, [])))) = true ∧
    (arrives ready (.nop (cmd 1 0 none [])) (fun c m => decide (startStop ready.fx (waits c m) c = some (csBadParam, [])))) = true ∧
    (arrives led (.leaseRenew (cmd 0 0 none [])) (fun c m => decide (startStop led.fx (waits c m) c = some (csNotPilot, [])))) = true ∧
    (arrives ready (.levelLock (cmd 1 0 none [1])) (fun c m => decide (startStop ready.fx (waits c m) c = some (csBadState, [stateWord ready.fx m])))) = true ∧
    (arrives ready (.ctxSuspend (cmd 0 0 (some (5, 1)) [])) (fun c m => decide (startStop ready.fx (waits c m) c = some (csGone, [])))) = true ∧
    (arrives low (.sparsePack (cmd 2 0 (some (5, 1)) [2 ^ 47, 1])) (fun c m => decide (startStop low.fx (waits c m) c = some (csLevel, [])))) = true := by
  decide +kernel

theorem meets_SmallCommandsComplete :
    (begins ready (.nop (cmd 0 0 none [])) (fun _ _ => true)) = true ∧
    (begins ready (.identify (cmd 0 0 none [])) (fun _ _ => true)) = true ∧
    (begins ready (.leaseRenew (cmd 0 0 none [])) (fun _ _ => true)) = true := by
  decide +kernel

theorem meets_PilotClaimsAndHandover :
    (begins ready (.pilotClaim (cmd 1 0 none [2 ^ 32])) (fun c m => decide (m.pilot.epoch < BitVec.ofNat 32 (fld c.pkt.p0 63 32)))) = true ∧
    (begins ready (.pilotClaim (cmd 1 0 none [1])) (fun c m => decide (¬ m.pilot.priority < BitVec.ofNat 8 (fld c.pkt.p0 7 0)))) = true ∧
    (begins ready (.pilotClaim (cmd 1 0 none [2])) (fun c m => decide (m.pilot.epoch = 0 ∧ m.pilot.priority < BitVec.ofNat 8 (fld c.pkt.p0 7 0)))) = true ∧
    (begins ready (.pilotHandover (cmd 1 0 none [2])) (fun c _ => decide ((2 : BitVec 16) ≠ c.master))) = true ∧
    (begins ready (.pilotHandover (cmd 1 0 none [3])) (fun c _ => decide ((3 : BitVec 16) = c.master))) = true ∧
    (begins unlocked (.levelLock (cmd 1 0 none [1])) (fun _ m => decide (m.life.st = .ready) && decide (unlocked.fx.level = none))) = true := by
  decide +kernel

theorem meets_ContextRecords :
    (begins ready (.ctxOpen (cmd 1 0 (some (5, 1)) [0x7F0])) (fun c m => !(ctxOf m (cCtx c)).opened && decide ((ctxOf m (cCtx c)).gen ≠ cGen c) && decide ((ctxOf m (cCtx c)).holdTick ≤ tickOf m.cyc))) = true ∧
    (begins (tenant id) (.ctxOpen (cmd 1 0 (some (5, 2)) [0x7F0])) (fun c m => (ctxOf m (cCtx c)).opened)) = true ∧
    (begins (tenant fun e => { e with opened := false, holdTick := 9 }) (.ctxOpen (cmd 1 0 (some (5, 2)) [0x7F0])) (fun c m => decide (tickOf m.cyc < (ctxOf m (cCtx c)).holdTick))) = true ∧
    (begins (tenant id) (.ctxSetClass (cmd 1 0 (some (5, 1)) [7])) (fun _ _ => true)) = true ∧
    (begins (tenant id) (.ctxSuspend (cmd 0 0 (some (5, 1)) [])) (fun _ _ => true)) = true ∧
    (begins (tenant id) (.ctxResume (cmd 0 0 (some (5, 1)) [])) (fun _ _ => true)) = true ∧
    (begins (tenant id) (.ctxClose (cmd 0 0 (some (5, 1)) [])) (fun c m => bare m (cCtx c) (ctxOf m (cCtx c)).gen && !(ctxOf m (cCtx c)).conf && !(ctxOf m (cCtx c)).lost)) = true ∧
    (begins (berthed id (tenant id)) (.ctxClose (cmd 0 0 (some (5, 1)) [])) (fun c m => decide (ownedCount m (cCtx c) (ctxOf m (cCtx c)).gen ≠ 0))) = true := by
  decide +kernel

theorem meets_ContextTeardown :
    (begins (tenant id) (.ctxPurge (cmd 0 0 (some (5, 1)) [])) (fun c m => bare m (cCtx c) (cGen c))) = true ∧
    (begins (tenant id) (.ctxQuarantine (cmd 0 0 (some (5, 1)) [])) (fun c m => bare m (cCtx c) (cGen c) && !(ctxOf m (cCtx c)).frozen)) = true ∧
    (begins (tenant fun e => { e with frozen := true }) (.ctxQuarantine (cmd 0 0 (some (5, 1)) [])) (fun c m => (ctxOf m (cCtx c)).frozen)) = true ∧
    (begins (tenant id) (.ctxQuarantineRelease (cmd 0 0 (some (5, 1)) [])) (fun c m => !(ctxOf m (cCtx c)).frozen)) = true ∧
    (begins (tenant fun e => { e with frozen := true }) (.ctxQuarantineRelease (cmd 0 0 (some (5, 1)) [])) (fun c m => (ctxOf m (cCtx c)).frozen && bare m (cCtx c) (ctxOf m (cCtx c)).gen)) = true := by
  decide +kernel


/-- What BERTH_ALLOC of one granule does before it completes. -/
def pinned (c : Rec) (m : Mach) : Option (Nat × Mach) :=
  match fqPeek 4096 m.berth.berthQ, chooseGranules m 1 (pinnedGranules m), mapPlace 1 m with
  | some i, some gs, (m1, some e) =>
    let x := pinWays ready.fx c.id (gs.flatMap granuleKeys) (runOn c (.pin (BitVec.ofNat 12 i) (gs.flatMap granuleKeys)) (putRun e (gs.map (· + 1))
      (setBerth i { Berth.free with valid := true, ctx := cCtx c, size := BitVec.ofNat 9 0, mapbase := BitVec.ofNat 12 e, gen := (berthOf m1 i).gen, moving := true }
        { m1 with berth := { m1.berth with berthQ := fqPop 4096 m1.berth.berthQ } })))
    if x.2 = [] then some (i, x.1) else none
  | _, _, _ => none

theorem meets_BerthCommands :
    (begins { tenant id with m := { (tenant id).m with regs := { ready.m.regs with lv := false } } } (.berthAlloc (cmd 2 0 (some (5, 1)) [4096])) (fun _ m => !m.regs.lv)) = true ∧
    (begins (tenant id) (.berthAlloc (cmd 2 0 (some (5, 1)) [4096])) (fun c m => decide (ctxPinned m (cCtx c) + 1 ≤ (ctxOf m (cCtx c)).pinCap.toNat) && (pinned c m).any fun x => decide (x.1 < 4096) && resting (complete ready.fx c csDone [] (setBerth x.1 { berthOf x.2 x.1 with moving := false } x.2)))) = true ∧
    (begins (berthed id (tenant id)) (.berthFree (cmd 1 0 (some (5, 1)) [2 ^ 14])) (fun c m => decide (heldBerth m (cCtx c) c.pkt.p0 = some 0))) = true ∧
    (begins (berthed id (tenant id)) (.berthFree (cmd 1 0 (some (5, 1)) [2 * 2 ^ 14])) (fun c m => decide (heldBerth m (cCtx c) c.pkt.p0 = none))) = true ∧
    (begins (berthed (fun b => { b with qheld := true }) (tenant id)) (.berthFree (cmd 1 0 (some (5, 1)) [2 ^ 14])) (fun c m => decide (heldBerth m (cCtx c) c.pkt.p0 = some 0) && (berthOf m 0).qheld)) = true ∧
    (begins (berthed id (tenant id)) (.berthFreeAbort (cmd 1 0 (some (5, 1)) [2 ^ 14])) (fun c m => (
      let f := runOn c (.drainRefs 0) (setBerth 0 { berthOf m 0 with valid := false, freeing := true, gen := (berthOf m 0).gen + 1, event := cEvent c, moving := false } m)
      decide (heldBerth m (cCtx c) c.pkt.p0 = some 0) && decide (m.cmds.running = []) && decide (m.red.hops = []) && decide (m.red.tiles = []) &&
        decide (berthRefs f 0 = 0) && resting (complete ready.fx c csDone [0] (releaseIfDone ready.fx 0 f))))) = true ∧
    (begins (berthed (fun b => { b with size := 1 }) (tenant id)) (.berthResize (cmd 2 0 (some (5, 1)) [2 ^ 14, 4096])) (fun c m => decide (heldBerth m (cCtx c) c.pkt.p0 = some 0) && !lostObj m 1 0)) = true := by
  decide +kernel

theorem meets_granulesRelease :
    ((berthOf (berthed (fun b => { b with valid := false, freeing := true }) (tenant id)).m 0).freeing) = true ∧
    (decide (berthRefs (berthed (fun b => { b with valid := false, freeing := true }) (tenant id)).m 0 = 0)) = true ∧
    (!(berthOf ready.m 0).freeing) = true := by
  decide +kernel


/-- s with an arena of 1 MiB of context 5 at index 0 with an object in it, and a queue of it at index 0 in the berth. -/
def owning (s : State) : State :=
  { s with m := { s.m with berth := { s.m.berth with
      arenas := tset .free s.m.berth.arenas 0 { Arena.free with valid := true, ctx := 5, start := 2 ^ 47, length := 1048576 }
      objs := tset .free s.m.berth.objs 0 { ArenaObj.free with valid := true, ctx := 5, size := 256 }
      ferries := tset .free s.m.berth.ferries 0 { Ferry.free with valid := true, ctx := 5, depth := 1 } } } }

theorem meets_ArenaAndQueueCommands :
    (begins (tenant id) (.arenaGrant (cmd 2 0 (some (5, 1)) [2 ^ 47, 1048576])) (fun c m => decide (fqPeek 64 m.berth.arenaQ = some 0) && rangeHomed ready.fx m c.pkt.p0 1048576 && !mapMeets ready.fx (rangeRuns ready.fx m c.pkt.p0 1048576) && decide (liveArenas m = []))) = true ∧
    (begins (tenant id) (.arenaRevoke (cmd 1 0 (some (5, 1)) [2 ^ 60])) (fun c m => decide (heldArena m (cCtx c) c.pkt.p0 = none))) = true ∧
    (begins (tenant id) (.arenaObjectFree (cmd 1 0 (some (5, 1)) [2 * 2 ^ 60])) (fun c m => decide (heldObj m (cCtx c) c.pkt.p0 = none))) = true ∧
    (begins (tenant id) (.queueDestroy (cmd 1 0 (some (5, 1)) [3 * 2 ^ 60])) (fun c m => decide (heldQueue m (cCtx c) c.pkt.p0 = none))) = true ∧
    (begins (tenant id) (.pinBudget (cmd 1 0 (some (5, 1)) [3072])) (fun c _ => decide (fld c.pkt.p0 11 0 ≤ 3072))) = true ∧
    (begins (tenant id) (.pinBudget (cmd 1 0 (some (5, 1)) [3073])) (fun c _ => decide (3072 < fld c.pkt.p0 11 0))) = true ∧
    (begins (tenant id) (.queueCreate (cmd 2 0 (some (5, 1)) [2 ^ 14, 0])) (fun c m => decide (heldBerth m (cCtx c) c.pkt.p0 = none))) = true ∧
    (begins (berthed id (tenant id)) (.queueCreate (cmd 2 0 (some (5, 1)) [2 ^ 14, 4 * 2 ^ 42])) (fun c m => decide (heldBerth m (cCtx c) c.pkt.p0 = some 0) && !queueBad m c 0 && decide (fqPeek 1024 m.berth.ferryQ = some 0))) = true := by
  decide +kernel

theorem meets_arenaObjects :
    (begins (owning (tenant id)) (.arenaRevoke (cmd 1 0 (some (5, 1)) [2 ^ 60])) (fun c m => decide (heldArena m (cCtx c) c.pkt.p0 = some 0) && decide (arenaObjs m 0 ≠ []))) = true ∧
    (begins (owning (tenant id)) (.arenaObjectAlloc (cmd 2 0 (some (5, 1)) [256, 2 ^ 60])) (fun c m => decide (heldArena m (cCtx c) c.pkt.p1 = some 0) && !lostObj m 8 0 && (buddyPick m 0 256).isSome && (fqPeek 16384 m.berth.objQ).isSome)) = true ∧
    (begins (owning (tenant id)) (.arenaObjectFree (cmd 1 0 (some (5, 1)) [2 * 2 ^ 60])) (fun c m => decide (heldObj m (cCtx c) c.pkt.p0 = some 0))) = true ∧
    (begins (owning (tenant id)) (.queueDestroy (cmd 1 0 (some (5, 1)) [3 * 2 ^ 60])) (fun c m => decide (heldQueue m (cCtx c) c.pkt.p0 = some 0))) = true := by
  decide +kernel


/-- s with two berths of one granule of context 5: index 0, and index 1 in way 30 of the same sets. -/
def twin (s : State) : State :=
  { s with m := { s.m with berth := { s.m.berth with
      berths := tset .free (tset .free s.m.berth.berths 0 { Berth.free with valid := true, ctx := 5, gen := 1 }) 1
        { Berth.free with valid := true, ctx := 5, gen := 1, mapbase := 1 }
      gmap := tset 0 (tset 0 s.m.berth.gmap 0 32) 1 31 } } }
/-- The addresses of a line of the berths of twin. -/
def from_ : Nat := 2 ^ 33
def to_ : Nat := 2 ^ 33 + 2 ^ 21

/-- s with the given commands under way. -/
def running (ps : List Prog) (s : State) : State :=
  { s with m := { s.m with cmds := { s.m.cmds with
      nextId := s.m.cmds.nextId + 1
      running := ps.map fun p => ⟨{ recOf s.m 3 (cmd 3 0 (some (5, 1)) [at_ 8, at_ 16, 128]) with opcode := 0x30 }, p⟩ } } }

theorem meets_CopyCommands :
    (begins (twin (tenant id)) (.copy (cmd 3 3 (some (5, 1)) [from_, to_, 128])) (fun c m => decide (copyStop ready.fx m c false = none) && cFlag c 0 && cFlag c 1 && decide (copyLen c = 128) && sound m && awake m [dEngine, dWay m (berthPlace m (berthOf m 0) 0).1 (berthPlace m (berthOf m 0) 0).2, dWay m (berthPlace m (berthOf m 1) 0).1 (berthPlace m (berthOf m 1) 0).2] && decide (m.cmds.running = []))) = true ∧
    (begins (running [.copyHeld] (twin (tenant id))) (.copy (cmd 3 3 (some (5, 1)) [from_, to_, 128])) (fun c m => decide (copyStop ready.fx m c false = none) && decide (0 < (m.cmds.running.filter fun r => isCopy r.prog).length))) = true ∧
    (begins (running (List.replicate 8 .copyHeld) (twin (tenant id))) (.copy (cmd 3 3 (some (5, 1)) [from_, to_, 128])) (fun c m => decide (copyStop ready.fx m c false = none) && decide (8 ≤ (m.cmds.running.filter fun r => isCopy r.prog).length))) = true ∧
    (begins (twin (tenant id)) (.copyMeasure (cmd 4 11 (some (5, 1)) [from_, to_, 128])) (fun c m => decide (copyStop ready.fx m c false = none) && cFlag c 0 && cFlag c 1 && decide (copyLen c = 128) && sound m && awake m [dEngine, dWay m (berthPlace m (berthOf m 0) 0).1 (berthPlace m (berthOf m 0) 0).2, dWay m (berthPlace m (berthOf m 1) 0).1 (berthPlace m (berthOf m 1) 0).2] && decide (m.cmds.running = []) && cFlag c 3)) = true ∧
    (resting (running [.copyHeld] (twin (tenant id))).m) = true := by
  decide +kernel

theorem meets_RangeCommands :
    (begins (cached clean (tenant id)) (.rangeClean (cmd 2 0 none [at_ 0, 128])) (fun c m => decide (c.pkt.p1 = 128) && decide (rangeRuns ready.fx m c.pkt.p0 128 = [(0, 1)]) && decide (m.cmds.running = []) && decide (m.dir.ents = []) && sound m && awake m [dEngine, dTag 0, dDir 0, dWay m 0 0] && decide (rangeStop ready.fx m c false = none) && decide (hitWay m 0 = some 0) && decide (0 ∉ fillingWays m 0) && decide (ticketFor m 0 = none) && decide (slipOf m 0 = none) && decide (m.sparse.fills = []) && decide ((tagAt m 0 0).d = 0))) = true ∧
    (begins ready (.rangeClean (cmd 2 0 none [at_ 0, 128])) (fun c m => decide (c.pkt.p1 = 128) && decide (rangeRuns ready.fx m c.pkt.p0 128 = [(0, 1)]) && decide (m.cmds.running = []) && decide (m.dir.ents = []) && sound m && awake m [dEngine, dTag 0, dDir 0, dWay m 0 0] && decide (rangeStop ready.fx m c false = none) && decide (hitWay m 0 = none) && decide (slipOf m 0 = none) && decide (m.cache.tickets = []) && decide (m.cache.writes = []))) = true ∧
    (begins (cached clean (tenant id)) (.rangeInval (cmd 2 0 none [at_ 0, 128])) (fun c m => decide (c.pkt.p1 = 128) && decide (rangeRuns ready.fx m c.pkt.p0 128 = [(0, 1)]) && decide (m.cmds.running = []) && decide (m.dir.ents = []) && sound m && awake m [dEngine, dTag 0, dDir 0, dWay m 0 0] && decide (rangeStop ready.fx m c false = none) && decide (hitWay m 0 = some 0) && decide (0 ∉ fillingWays m 0) && decide (ticketFor m 0 = none) && decide (slipOf m 0 = none) && decide (m.sparse.fills = []) && decide ((tagAt m 0 0).d = 0))) = true ∧
    (begins ready (.rangeInval (cmd 2 0 none [at_ 0, 128])) (fun c m => decide (c.pkt.p1 = 128) && decide (rangeRuns ready.fx m c.pkt.p0 128 = [(0, 1)]) && decide (m.cmds.running = []) && decide (m.dir.ents = []) && sound m && awake m [dEngine, dTag 0, dDir 0, dWay m 0 0] && decide (rangeStop ready.fx m c false = none) && decide (hitWay m 0 = none) && decide (slipOf m 0 = none) && decide (m.cache.tickets = []) && decide (m.cache.writes = []))) = true ∧
    (begins (cached clean (tenant id)) (.rangeFlush (cmd 2 0 none [at_ 0, 128])) (fun c m => decide (c.pkt.p1 = 128) && decide (rangeRuns ready.fx m c.pkt.p0 128 = [(0, 1)]) && decide (m.cmds.running = []) && decide (m.dir.ents = []) && sound m && awake m [dEngine, dTag 0, dDir 0, dWay m 0 0] && decide (rangeStop ready.fx m c false = none) && decide (hitWay m 0 = some 0) && decide (0 ∉ fillingWays m 0) && decide (ticketFor m 0 = none) && decide (slipOf m 0 = none) && decide (m.sparse.fills = []) && decide ((tagAt m 0 0).d = 0))) = true ∧
    (begins ready (.rangeFlush (cmd 2 0 none [at_ 0, 128])) (fun c m => decide (c.pkt.p1 = 128) && decide (rangeRuns ready.fx m c.pkt.p0 128 = [(0, 1)]) && decide (m.cmds.running = []) && decide (m.dir.ents = []) && sound m && awake m [dEngine, dTag 0, dDir 0, dWay m 0 0] && decide (rangeStop ready.fx m c false = none) && decide (hitWay m 0 = none) && decide (slipOf m 0 = none) && decide (m.cache.tickets = []) && decide (m.cache.writes = []))) = true ∧
    (begins (cached clean (tenant id)) (.rangeZero (cmd 2 0 (some (5, 1)) [at_ 0, 128])) (fun c m => decide (c.pkt.p1 = 128) && decide (rangeRuns ready.fx m c.pkt.p0 128 = [(0, 1)]) && decide (m.cmds.running = []) && decide (m.dir.ents = []) && sound m && awake m [dEngine, dTag 0, dDir 0, dWay m 0 0] && decide (rangeStop ready.fx m c false = none) && decide (hitWay m 0 = some 0) && decide (0 ∉ fillingWays m 0) && decide (ticketFor m 0 = none) && decide (slipOf m 0 = none) && decide (m.sparse.fills = []) && decide ((tagAt m 0 0).d = 0))) = true ∧
    (begins ready (.rangeClean (cmd 2 0 none [at_ 0, 1])) (fun c m => decide (rangeStop ready.fx m c false ≠ none))) = true ∧
    (begins (running (List.replicate 4 .maintHeld) ready) (.rangeClean (cmd 2 0 none [at_ 0, 128])) (fun c m => decide (rangeStop ready.fx m c false = none) && decide (4 ≤ (m.cmds.running.filter fun r => isMaint r.prog).length))) = true := by
  decide +kernel


/-- tenant id with the format map on. -/
def mapped : State := { tenant id with fx := { ready.fx with fmapEn := true, fmapBase := 1 } }

theorem meets_EngineCommands :
    (begins (tenant id) (.sparsePack (cmd 2 0 (some (5, 1)) [at_ 64, 1])) (fun c m => decide (sparseStop ready.fx m c ≠ none))) = true ∧
    (begins (running [.maintHeld] mapped) (.sparsePack (cmd 2 0 (some (5, 1)) [at_ 64, 1])) (fun c m => decide (sparseStop mapped.fx m c = none))) = true ∧
    (begins (running [.maintHeld] mapped) (.sparseUnpack (cmd 2 0 (some (5, 1)) [at_ 64, 0])) (fun c m => decide (sparseStop mapped.fx m c = none))) = true ∧
    (begins (running (List.replicate 4 .maintHeld) mapped) (.sparseUnpack (cmd 2 0 (some (5, 1)) [at_ 64, 0])) (fun c m => decide (sparseStop mapped.fx m c = none))) = true ∧
    (begins ready (.bankSpare (cmd 1 0 none [0])) (fun _ m => !(tget 0 m.cache.spareFor 0 ≠ 0 || decide (0 ∈ m.cache.spareBad) || (repairSlot m).isNone) && decide (m.cmds.running = []) && awake m [dEngine, dBank 0 16, dBank 0 0] && !bankFrozen m (dBank 0 0) && sound m)) = true ∧
    (begins { ready with m := setDom 0 .frost ready.m } (.bankSpare (cmd 1 0 none [0])) (fun _ m => !(tget 0 m.cache.spareFor 0 ≠ 0 || decide (0 ∈ m.cache.spareBad) || (repairSlot m).isNone) && decide (m.cmds.running = []) && awake m [dEngine, dBank 0 16] && bankFrozen m (dBank 0 0))) = true ∧
    (begins ready (.wayDisable (cmd 2 0 none [0, 1])) (fun c m => decide (wayStop m c = none) && decide (m.cmds.running = []) && decide (wayLast c = wayFirst c) && decide (floorBanks m c = []) && decide (waysOf (wayMask c) = [0]) && decide (0 ∉ fillingWays m 0) && decide ((tagAt m 0 0).d = 0) && awake m [dEngine, dWay m 0 0])) = true ∧
    (begins ready (.wayRestore (cmd 2 0 none [0, 1])) (fun c m => decide (m.cmds.running = []) && decide (wayLast c = wayFirst c) && awake m [dEngine])) = true ∧
    (begins ready (.dirReclaim (cmd 1 0 none [3])) (fun _ m => decide (m.cmds.running = []) && awake m [dEngine] && decide (m.dir.ents = []) && decide (m.dir.snoops = []))) = true ∧
    (begins (running [.maintHeld] (tenant id)) (.dirReclaim (cmd 1 0 none [3])) (fun _ m => decide (0 < (m.cmds.running.filter fun r => isMaint r.prog).length))) = true := by
  decide +kernel


/-- Granule 2 asked for, as a pack or unpack of it begins. -/
def asking (c : Rec) (m : Mach) : Mach :=
  (pageLines 2).foldl (fun m l => doOwn mapped.fx (ownRead .maint .read l) m) (lockPage 2 (runOn c (.maintRun (maintStart mapped.fx m c)) m))
/-- mapped with the page's map word at hand, all dense, or all sparse. -/
def worded (v : W64) : Mach := { mapped.m with sparse := { mapped.m.sparse with fcache := tset [] [] 0 [(0, v)] } }
/-- The step of a pack's program, with line 64 of granule 2 read as one nonzero sector, whole or poisoned. -/
def pageProg (n : Nat) (bad : Bool) : MaintProg :=
  { runs := [(64, 32)], next := 0, stepNo := n, res0 := 0, res1 := 0, res2 := 0, flag := false, at_ := none, snooped := false, left := 0, before := [], buf := [(64, 5, bad)] }
/-- A pack, and an unpack. -/
def packRec (op : Nat) : Rec := recOf mapped.m 3 (withOp (BitVec.ofNat 8 op) (cmd 2 0 (some (5, 1)) [at_ 64, 0]))

theorem meets_SparsePages :
    (begins mapped (.sparsePack (cmd 2 0 (some (5, 1)) [at_ 64, 0])) (fun c m => decide (sparseStop mapped.fx m c = none) && decide (m.cmds.running = []) && decide ((maintStart mapped.fx m c).runs.head? = some (64, 32)) && awake m (dEngine :: (pageLines 2).flatMap fun l => [dTag (quadOf l), dDir (quadOf l)]) && sound m && decide (m.dir.ents = []) && decide (m.dir.reclaim = none) && !pageBusy (lockPage 2 m) 2 && decide ((asking c m).cache.done = []))) = true ∧
    (begins mapped (.sparseUnpack (cmd 2 0 (some (5, 1)) [at_ 64, 0])) (fun c m => decide (sparseStop mapped.fx m c = none) && decide (m.cmds.running = []) && decide ((maintStart mapped.fx m c).runs.head? = some (64, 32)) && awake m (dEngine :: (pageLines 2).flatMap fun l => [dTag (quadOf l), dDir (quadOf l)]) && sound m && decide (m.dir.ents = []) && decide (m.dir.reclaim = none) && !pageBusy (lockPage 2 m) 2 && decide ((asking c m).cache.done = []))) = true ∧
    (fmapOn mapped.fx && decide ((packRec 0x36).opcode = 0x36) && decide ((packRec 0x37).opcode = 0x37) && decide (((lruFind 0 (tget [] (worded 4).sparse.fcache 0)).map (·.1)) = some 4)) = true ∧
    ((match pageStep mapped.fx (packRec 54) 2 (pageProg 35 false) (worded 0) with | .ok _ q => decide (q.stepNo = 36) && decide (q.res1 = 0) | .wait _ _ => false)) = true ∧
    ((match pageStep mapped.fx (packRec 54) 2 (pageProg 35 false) (worded 4) with | .ok _ q => decide (q.stepNo = 0) && decide (q.res1 = 1) | .wait _ _ => false)) = true ∧
    ((match pageStep mapped.fx (packRec 54) 2 (pageProg 35 true) (worded 0) with | .ok _ q => decide (q.stepNo = 0) && decide (q.res1 = 1) | .wait _ _ => false)) = true ∧
    ((match pageStep mapped.fx (packRec 55) 2 (pageProg 35 false) (worded 0) with | .ok _ q => decide (q.stepNo = 0) && decide (q.res1 = 1) | .wait _ _ => false)) = true ∧
    ((match pageStep mapped.fx (packRec 55) 2 (pageProg 35 true) (worded 4) with | .ok _ q => decide (q.stepNo = 36) && decide (q.res1 = 0) | .wait _ _ => false)) = true ∧
    ((match pageStep mapped.fx (packRec 54) 2 (pageProg 36 false) (worded 0) with | .ok _ q => decide (q.stepNo = 37) && decide (q.res1 = 0) | .wait _ _ => false)) = true ∧
    ((match pageStep mapped.fx (packRec 54) 2 (pageProg 38 false) (worded 0) with | .ok _ q => decide (q.stepNo = 100) && decide (q.res1 = 0) | .wait _ _ => false)) = true ∧
    ((match pageStep mapped.fx (packRec 55) 2 (pageProg 67 false) (worded 4) with | .ok _ q => decide (q.stepNo = 68) && decide (q.res1 = 0) | .wait _ _ => false)) = true ∧
    ((match pageStep mapped.fx (packRec 55) 2 (pageProg 68 false) (worded 4) with | .ok _ q => decide (q.stepNo = 100) && decide (q.res1 = 0) | .wait _ _ => false)) = true ∧
    ((match pageStep mapped.fx (packRec 54) 2 (pageProg 100 false) (worded 0) with | .ok _ q => decide (q.stepNo = 101) && decide (q.res1 = 0) | .wait _ _ => false)) = true ∧
    ((match pageStep mapped.fx (packRec 0x36) 2 { pageProg 100 false with left := 1 } (worded 0) with | .wait _ _ => true | .ok _ _ => false)) = true ∧
    ((match pageStep mapped.fx (packRec 0x36) 2 (pageProg 101 false) { (setTag 64 0 { clean with d := 1 } (worded 0)) with cache := { (setTag 64 0 { clean with d := 1 } (worded 0)).cache with done := [.write (.cmd (packRec 0x36).id) 0] } } with | .ok n q => decide (q.res0 = 1) && decide (q.res2 = 1) && decide ((tagAt n 64 0).d = 0) && decide ((tagAt n 64 0).fmt = 1) && decide ((tagAt n 64 0).z = 0xE) | .wait _ _ => false)) = true := by
  decide +kernel

theorem meets_AcquireSweeps :
    (begins ready (.acquireSweep (cmd 3 0 none [1, 0, 2])) (fun c m => decide (2 ≤ fld c.pkt.p2 2 0) && decide (c.pkt.p0 ≠ 0) && decide (m.cmds.running = []))) = true ∧
    (begins ready (.acquireSweep (cmd 3 0 none [1, 0, 6])) (fun c _ => decide (5 < fld c.pkt.p2 2 0))) = true ∧
    (resting (running [.maintHeld] ready).m) = true ∧
    (resting (running [.sweepRun [3] [] [] [] []] ready).m) = true ∧
    (segRoom ready.m .south) = true ∧
    (resting (running [.sweepRun [] [(3, 0)] [] [] []] ready).m) = true := by
  decide +kernel


/-- s with tile 0 of context 5, generation 1, open in block 0, as f says. -/
def tiled (f : Tile → Tile) (s : State) : State :=
  { s with m := setTile 0 (f { Tile.free with valid := true, ctx := 5, cgen := 1, gen := 1, kind := 3, dstv := true, scale := 0x3F800000, dst := 2 ^ 47, block := true }) s.m }
/-- The hop of tile 0 at index 0, as f says. -/
def hopped (f : Hop → Hop) (s : State) : State := { s with m := setHop 0 (f { Hop.free with valid := true, tile := 0, tgen := 1 }) s.m }

theorem meets_TileCommands :
    (begins (tenant id) (.tileOpen (cmd 5 0 (some (5, 1)) [3 * 2 ^ 45 + 11 * 2 ^ 40, 2 ^ 47, 0, 0x3F800000 * 2 ^ 32])) (fun c m => !openBad (tileAsked c) && decide (accPick m (blockSize (tileAsked c)) = some 0) && (fqPeek 8192 m.red.tileQ).isSome)) = true ∧
    (begins (tenant id) (.tileOpen (cmd 5 0 (some (5, 1)) [7 * 2 ^ 47, 2 ^ 47])) (fun c _ => openBad (tileAsked c))) = true ∧
    (begins (tiled id (tenant id)) (.tileClose (cmd 1 0 (some (5, 1)) [2 ^ 33])) (fun c m => decide (closeStop ready.fx m c false = none) && decide (hopOfTile m 0 1 = none) && !(tileOf m 0).lost)) = true ∧
    (begins (tiled (fun t => { t with lost := true }) (tenant id)) (.tileClose (cmd 1 0 (some (5, 1)) [2 ^ 33])) (fun c m => decide (closeStop ready.fx m c false = none) && (tileOf m 0).lost)) = true ∧
    (begins (tenant id) (.tileClose (cmd 1 0 (some (5, 1)) [2 ^ 33])) (fun c m => decide (closeStop ready.fx m c false = some csStale))) = true ∧
    (begins (tiled id (tenant id)) (.tileDiscard (cmd 1 0 (some (5, 1)) [2 ^ 33])) (fun c m => decide (tileCmdStop ready.fx m c.pkt.p0 = none) && tileBare c.pkt.p0 && !tileForeign m c c.pkt.p0 && decide (hopOfTile m 0 1 = none))) = true ∧
    (begins (tenant id) (.tileDiscard (cmd 1 0 (some (5, 1)) [2 ^ 33])) (fun c m => decide (tileCmdStop ready.fx m c.pkt.p0 = some csStale))) = true ∧
    (begins (tiled id (tenant id)) (.tileQuery (cmd 1 0 none [2 ^ 33])) (fun c m => decide (tileCmdStop ready.fx m c.pkt.p0 = none))) = true := by
  decide +kernel


/-- s with descriptor 0 of context 5, generation 1. -/
def scattered (s : State) : State :=
  { s with m := setScat 0 { Scatter.free with valid := true, gen := 1, ctx := 5, cgen := 1, scale := 0x3F800000, table := 2 ^ 47, rows := 1, stride := 1, rowlines := 1 } s.m }

theorem meets_TowlineAndScatterCommands :
    (begins (tiled id (tenant id)) (.towlineSet (cmd 4 0 (some (5, 1)) [2 ^ 33, 2 ^ 33, 0, 1])) (fun c m => decide (tileCmdStop ready.fx m c.pkt.p0 = none) && !tileForeign m c c.pkt.p0 && decide ((tileOf m 0).st = .opened) && !(tileOf m 0).dbuf && decide (hopOfTile m 0 1 = none) && towBare c && decide (fqPeek 1024 m.red.hopQ = some 0))) = true ∧
    (begins (tiled id (tenant id)) (.towlineRelease (cmd 4 1 (some (5, 1)) [2 ^ 33])) (fun c m => decide (tileCmdStop ready.fx m c.pkt.p0 = none) && !tileForeign m c c.pkt.p0 && decide (hopOfTile m 0 1 = none))) = true ∧
    (begins (hopped id (tiled id (tenant id))) (.towlineRelease (cmd 4 1 (some (5, 1)) [2 ^ 33])) (fun _ m => decide (hopOfTile m 0 1 = some 0) && !(hopOf m 0).cut && resting (freeHop 0 m))) = true ∧
    (begins (tenant id) (.scatterDescCreate (cmd 3 0 (some (5, 1)) [2 ^ 47, 2 ^ 32 + 2 ^ 16 + 16, 0x3F800000 * 2 ^ 32])) (fun c m => m.regs.lv && !scatBad ready.fx m c && decide (fqPeek 256 m.sparse.scatQ = some 0))) = true ∧
    (begins (tenant id) (.scatterDescCreate (cmd 3 0 (some (5, 1)) [2 ^ 47, 0, 0x3F800000 * 2 ^ 32])) (fun c m => m.regs.lv && scatBad ready.fx m c)) = true ∧
    (begins (scattered (tenant id)) (.scatterDescRelease (cmd 1 1 (some (5, 1)) [2 ^ 8])) (fun c m => decide (heldScat m c = some 0) && decide ((scatOf m 0).rows ≠ 0) && !scatOut m 0)) = true ∧
    (begins (tenant id) (.scatterDescRelease (cmd 1 1 (some (5, 1)) [2 ^ 8])) (fun c m => decide (heldScat m c = none))) = true ∧
    (begins (scattered (tenant id)) (.scatterDescQuery (cmd 1 2 (some (5, 1)) [2 ^ 8])) (fun c m => decide (heldScat m c = some 0) && !lostObj m 3 0)) = true ∧
    (begins (tenant id) (.scatterDescQuery (cmd 1 2 (some (5, 1)) [2 ^ 8])) (fun c m => decide (heldScat m c = none))) = true := by
  decide +kernel


/-- s with sync object 0 of context 5, generation 1, as f says. -/
def synced (f : SyncObj → SyncObj) (s : State) : State :=
  { s with m := setSync 0 (f { SyncObj.free with valid := true, owner := 5, ogen := 1, gen := 1 }) s.m }
/-- `tenant id` with context 6 open as well. -/
def guest (s : State) : State := { s with m := setCtx 6 { CtxEntry.closed with opened := true, gen := 1, perm := 0xFF } s.m }

theorem meets_SyncObjectCommands :
    (begins (tenant id) (.syncCreate (cmd 2 0 (some (5, 1)) [0, 0])) (fun _ m => m.regs.lv && (fqPeek 16384 m.sync.objQ).isSome)) = true ∧
    (begins (tenant id) (.syncCreate (cmd 2 0 (some (5, 1)) [0, 3 * 2 ^ 62])) (fun c m => m.regs.lv && decide (fld c.pkt.p1 63 62 = 3))) = true ∧
    (begins (synced id (tenant id)) (.syncDestroy (cmd 1 0 none [2 ^ 21])) (fun c m => decide (syncCmdStop ready.fx m c.pkt.p0 = none) && sound m)) = true ∧
    (begins ready (.syncDestroy (cmd 1 0 none [2 ^ 21])) (fun c m => decide (syncCmdStop ready.fx m c.pkt.p0 = some csStale))) = true ∧
    (begins (synced id (tenant id)) (.syncSet (cmd 3 1 none [2 ^ 21, 7])) (fun c m => decide (syncCmdStop ready.fx m c.pkt.p0 = none) && sound m && !cFlag c 1)) = true ∧
    (begins (synced id (tenant id)) (.syncSet (cmd 3 2 none [2 ^ 21, 0, 0])) (fun c m => decide (syncCmdStop ready.fx m c.pkt.p0 = none) && sound m && cFlag c 1 && decide (fld c.pkt.p2 23 16 < 1))) = true ∧
    (begins (synced id (tenant id)) (.syncQuery (cmd 1 0 none [2 ^ 21])) (fun c m => decide (syncCmdStop ready.fx m c.pkt.p0 = none) && sound m)) = true ∧
    (begins (guest (synced id (tenant id))) (.syncShare (cmd 1 0 (some (6, 1)) [2 ^ 21])) (fun c m => decide (syncCmdStop ready.fx m c.pkt.p0 = none) && sound m && decide ((syncObj m 0).owner ≠ cCtx c) && decide (tget [] m.sync.members 0 = []) && decide (memberships m < 4096))) = true ∧
    (begins (synced id (tenant id)) (.syncShare (cmd 1 0 (some (5, 1)) [2 ^ 21])) (fun c m => decide (syncCmdStop ready.fx m c.pkt.p0 = none) && sound m && decide ((syncObj m 0).owner = cCtx c))) = true ∧
    (begins (guest (synced id (tenant id))) (.syncShareRemove (cmd 1 1 (some (6, 1)) [2 ^ 21])) (fun c m => decide (syncCmdStop ready.fx m c.pkt.p0 = none) && sound m)) = true ∧
    (begins ready (.jamExport (cmd 1 0 none [16])) (fun c _ => decide (fld c.pkt.p0 15 4 ≠ 0) && !cFlag c 0)) = true ∧
    (begins ready (.jamExport (cmd 1 1 none [16])) (fun c _ => cFlag c 0)) = true ∧
    (begins ready (.jamExport (cmd 1 0 none [0])) (fun c _ => decide (fld c.pkt.p0 15 4 = 0))) = true := by
  decide +kernel

theorem meets_BandwidthRows :
    (begins ready (.classSet (cmd 1 0 none [50 * 2 ^ 16])) (fun c _ => decide (49 < fld c.pkt.p0 31 16))) = true ∧
    (begins ready (.classSet (cmd 1 0 none [49 * 2 ^ 16])) (fun c _ => decide (fld c.pkt.p0 31 16 ≤ 49))) = true ∧
    (begins ready (.reserveBw (cmd 1 0 none [100 * 2 ^ 16 + 1])) (fun _ m => decide (((List.range 16).map fun j => (clsOf m j).resv.toNat).sum + 100 ≤ 9 * m.qos.eff.toNat / 10))) = true ∧
    (begins ready (.reserveBw (cmd 1 0 none [4000 * 2 ^ 16 + 1])) (fun _ m => decide (9 * m.qos.eff.toNat / 10 < 4000))) = true ∧
    (begins ready (.reserveBw (cmd 1 0 none [1])) (fun c _ => decide (fld c.pkt.p0 28 16 = 0))) = true ∧
    (begins ready (.releaseBw (cmd 1 0 none [1])) (fun _ _ => true)) = true ∧
    (resting ready.m) = true := by
  decide +kernel


/-- ready with domain d as f says. -/
def domed (d : Nat) (x : Dom) (s : State) : State := { s with m := setDom d x s.m }

theorem meets_SeasonRows :
    (begins ready (.latencyTolerance (cmd 1 0 none [5])) (fun _ m => decide (m.season.tol.toNat ≤ 5))) = true ∧
    (begins ready (.latencyTolerance (cmd 1 0 none [4])) (fun _ m => decide (4 < m.season.tol.toNat) && decide (tooDeep { m with season := { m.season with tol := 4 } } 4 = []) && resting ((List.range 82).foldl (fun m d => wakeLight 4 d m) { m with season := { m.season with tol := 4 } }))) = true ∧
    (begins ready (.seasonQuery (cmd 0 0 none [])) (fun _ _ => true)) = true ∧
    (begins ready (.thawGrant (cmd 1 0 none [255])) (fun _ _ => true)) = true ∧
    (resting (domed 3 ⟨.summer, some .winter, .summer, 0, false⟩ ready).m && seasonsRun (domed 3 ⟨.summer, some .winter, .summer, 0, false⟩ ready).m && mayRest (domed 3 ⟨.summer, some .winter, .summer, 0, false⟩ ready).m 3 .winter) = true ∧
    (resting (domed 3 ⟨.summer, some .frost, .summer, 0, false⟩ ready).m && mayFrost (domed 3 ⟨.summer, some .frost, .summer, 0, false⟩ ready).m 3 && decide (bankKeys (domed 3 ⟨.summer, some .frost, .summer, 0, false⟩ ready).m 3 = [])) = true ∧
    (resting (domed 3 ⟨.spring, none, .winter, 0, false⟩ ready).m) = true ∧
    (decide (nextThaw ready.m = none)) = true ∧
    ((nextThaw { (domed 3 .frost ready).m with season := { (domed 3 .frost ready).m.season with queue := [⟨3, true, .summer⟩] } }).isSome) = true ∧
    (resting { (domed 3 .frost ready).m with season := { (domed 3 .frost ready).m.season with queue := [⟨3, true, .summer⟩] } }) = true := by
  decide +kernel


/-- s with key slot 0 of KIND 1 and context 5, as f says. -/
def keyed (f : KeySlot → KeySlot) (s : State) : State :=
  { s with m := { s.m with keys := { s.m.keys with slots := tset .free s.m.keys.slots 0 (f { KeySlot.free with kind := 1, v0 := true, owner := 5, ogen := 1 }) } } }
/-- s with request 0 out for slot 0, for a command under way with the opcode. -/
def asked (op : BitVec 8) (s : State) : State :=
  { s with m := { s.m with
      keys := { s.m.keys with reqs := [{ num := 0, slot := 0, gen := false, bound := false, bindh := 0, ctx := 5, cgen := 1, fails := 0, cmd := some 99 }] }
      cmds := { s.m.cmds with running := [⟨{ recOf s.m 3 (cmd 1 0 (some (5, 1)) [2 ^ 16]) with opcode := op, id := 99 }, .key 0⟩] } } }

theorem meets_KeyCommands :
    (begins (tenant id) (.keyBind (cmd 1 0 (some (5, 1)) [0])) (fun c m => decide ((kslot m 0).kind = 0) && decide (m.keys.grants = []) && !cFlag c 0 && !cFlag c 1)) = true ∧
    (begins (keyed id (tenant id)) (.keyBind (cmd 1 0 (some (5, 1)) [0])) (fun _ m => decide ((kslot m 0).kind = 1))) = true ∧
    (begins (tenant id) (.keyBindRevoke (cmd 1 1 (some (5, 1)) [0])) (fun c _ => !cFlag c 1)) = true ∧
    (begins (tenant id) (.keyBindRevoke (cmd 1 3 (some (5, 1)) [0])) (fun c _ => cFlag c 1)) = true ∧
    (begins (keyed id (tenant id)) (.keyRotate (cmd 1 0 none [2 ^ 16])) (fun _ m => decide ((kslot m 0).kind = 1) && !((kslot m 0).v0 && (kslot m 0).v1))) = true ∧
    (begins (keyed (fun k => { k with v1 := true }) (tenant id)) (.keyRotate (cmd 1 0 none [2 ^ 16])) (fun _ m => (kslot m 0).v0 && (kslot m 0).v1)) = true ∧
    (begins (keyed id (tenant id)) (.keyRotate (cmd 1 0 none [0])) (fun c _ => decide (fld c.pkt.p0 31 16 = 0))) = true ∧
    (begins (keyed (fun k => { k with v1 := true }) (tenant id)) (.keyRetire (cmd 1 0 none [0])) (fun _ m => (kslot m 0).v0 && (kslot m 0).v1 && !(kslot m 0).sweep && decide (m.cache.tickets = []))) = true ∧
    (begins (keyed id (tenant id)) (.keyRetire (cmd 1 0 none [0])) (fun _ m => !((kslot m 0).v0 && (kslot m 0).v1))) = true ∧
    (begins (keyed id (tenant id)) (.keyErase (cmd 1 0 none [0])) (fun _ m => twf .free m.keys.slots)) = true ∧
    (begins (keyed id (tenant fun e => { e with keyv := true })) (.confAttach (cmd 1 0 (some (5, 1)) [0])) (fun c m => (ctxOf m (cCtx c)).keyv && decide ((ctxOf m (cCtx c)).keyslot = 0) && !(ctxOf m (cCtx c)).conf && decide (ownedCount m (cCtx c) (cGen c) = 0) && !confPresent m)) = true ∧
    (begins (tenant id) (.confAttach (cmd 1 0 (some (5, 1)) [0])) (fun c m => !(ctxOf m (cCtx c)).keyv)) = true ∧
    (begins ready (.measureRead (cmd 1 0 none [0])) (fun _ m => decide ((digestOf m 0).st = 0))) = true ∧
    (begins { ready with m := setDigest 0 { st := 1, taint := false, owner := 5, ogen := 1, bytes := 0, h := shaPack sha384Init } ready.m } (.measureRead (cmd 1 0 none [0])) (fun _ m => decide ((digestOf m 0).st = 1))) = true ∧
    (begins (tenant id) (.scrubContext (cmd 0 0 (some (5, 1)) [])) (fun c m => !(ctxOf m (cCtx c)).conf)) = true ∧
    (begins (tenant fun e => { e with conf := true }) (.scrubContext (cmd 0 0 (some (5, 1)) [])) (fun c m => (ctxOf m (cCtx c)).conf && !((ctxOf m (cCtx c)).keyv && slotHolds (kslot m (ctxOf m (cCtx c)).keyslot)) && !(decide (ctxOut m (cCtx c) (ctxOf m (cCtx c)).gen ≠ 0) || ctxStarted m (cCtx c) c.id) && resting (scrubCtx ready.fx (cCtx c) c.id m).1)) = true := by
  decide +kernel


/-- ready in QUIESCED. -/
def stilled : State := { ready with m := { ready.m with life := { ready.m.life with st := .quiesced } } }
/-- ready with line 0 cached, and a memory scrub of it on. -/
def scrubbing : State :=
  { cached clean ready with m := { (cached clean ready).m with err := { ready.m.err with mrate := 1, mstart := 2 ^ 47, mlines := 1 } } }

theorem meets_KeyBusRows :
    (resting (asked 0x10 (tenant id)).m && keyBusUp (asked 0x10 (tenant id)).m && (match (asked 0x10 (tenant id)).m.keys.reqs.find? (·.num = 0) with | some q => (match kreqRun (asked 0x10 (tenant id)).m q with | some run => !byRing run.cmd.pkt && decide (run.cmd.opcode = 0x10) && (let took := dropKreq 0 (needDom dCipher (asked 0x10 (tenant id)).m).1; resting took && !slotHolds (kslot took 0) && resting (openCtx run.cmd (setSlot 0 { KeySlot.free with kind := 1, v0 := true, owner := q.ctx, ogen := q.cgen } took))) | none => false) | none => false)) = true ∧
    (resting (asked 0x80 (tenant id)).m && keyBusUp (asked 0x80 (tenant id)).m && (match (asked 0x80 (tenant id)).m.keys.reqs.find? (·.num = 0) with | some q => (match kreqRun (asked 0x80 (tenant id)).m q with | some run => !byRing run.cmd.pkt && decide (run.cmd.opcode = 0x80) && (let took := dropKreq 0 (needDom dCipher (asked 0x80 (tenant id)).m).1; resting took && decide ((kslot took 0).kind ≠ 2)) | none => false) | none => false)) = true ∧
    (resting (asked 0x81 (tenant id)).m && keyBusUp (asked 0x81 (tenant id)).m && (match (asked 0x81 (tenant id)).m.keys.reqs.find? (·.num = 0) with | some q => (match kreqRun (asked 0x81 (tenant id)).m q with | some run => !byRing run.cmd.pkt && decide (run.cmd.opcode = 0x81) && (let took := dropKreq 0 (needDom dCipher (asked 0x81 (tenant id)).m).1; resting took && decide ((kslot took 0).kind ≠ 2)) | none => false) | none => false)) = true ∧
    (!keyBusUp State.reset.m) = true ∧
    (resting State.reset.m) = true ∧
    (decide (ready.m.keys.reqs.find? (·.num = 0) = none)) = true ∧
    (resting { (keyed (fun k => { k with v1 := true }) (tenant id)).m with cmds := { (keyed (fun k => { k with v1 := true }) (tenant id)).m.cmds with running := [⟨recOf ready.m 3 (cmd 1 0 none [0]), .retire 0 []⟩] } }) = true := by
  decide +kernel

theorem meets_ErrorCommands :
    (begins ready (.errlogRead (cmd 1 0 none [0])) (fun c _ => decide (fld c.pkt.p0 26 16 = 0))) = true ∧
    (begins ready (.errlogRead (cmd 1 0 none [2 ^ 16])) (fun _ m => decide (m.err.log = []))) = true ∧
    (begins { ready with m := { ready.m with err := { ready.m.err with log := [(1, 2)], next := 1 } } } (.errlogRead (cmd 1 0 none [2 ^ 16])) (fun _ m => decide (logStart m 0 = some 0))) = true ∧
    (begins ready (.errlogRead (cmd 2 0 none [2 * 2 ^ 16, at_ 0])) (fun c m => rangeHomed ready.fx m c.pkt.p1 32 && decide (logStart m 0 = none))) = true ∧
    (begins ready (.errlogRead (cmd 2 0 none [2 * 2 ^ 16, at_ 0 + 1])) (fun c _ => decide (fld c.pkt.p1 3 0 ≠ 0))) = true ∧
    (begins ready (.scrubRate (cmd 1 0 none [7])) (fun c _ => decide (cLen c = 1))) = true ∧
    (begins ready (.scrubRate (cmd 4 0 none [7, 1, at_ 0, 128])) (fun c m => decide (cLen c = 4) && rangeHomed ready.fx m c.pkt.p2 128 && !mapMeets ready.fx (rangeRuns ready.fx m c.pkt.p2 128))) = true ∧
    (begins ready (.scrubRate (cmd 4 0 none [7, 1, at_ 0, 127])) (fun c _ => decide (c.pkt.p3.toNat % 128 ≠ 0))) = true ∧
    (begins { mapped with m := { ready.m with cmds := (tenant id).m.cmds } } (.scrubRate (cmd 4 0 none [7, 1, at_ 8192, 128])) (fun c m => rangeHomed mapped.fx m c.pkt.p2 128 && mapMeets mapped.fx (rangeRuns mapped.fx m c.pkt.p2 128))) = true := by
  decide +kernel

theorem meets_errorRest :
    (begins stilled (.inject (cmd 3 0 none [5, 0, 0])) (fun c m => !confPresent m && decide (fld c.pkt.p0 7 0 = 5) && m.regs.lv)) = true ∧
    (begins stilled (.inject (cmd 3 0 none [0, 0, 0])) (fun _ m => (rawGet m 0 0).isSome)) = true ∧
    (begins stilled (.inject (cmd 3 0 none [6, 0, 0])) (fun c _ => decide (5 < fld c.pkt.p0 7 0))) = true ∧
    (begins stilled (.inject (cmd 3 0 none [2, 0, 0])) (fun _ m => (rawGet m 2 0).isSome)) = true ∧
    (begins ready (.poisonClear (cmd 1 0 none [at_ 0 + 1])) (fun c _ => decide (fld c.pkt.p0 6 0 ≠ 0))) = true ∧
    (begins (cached clean ready) (.poisonClear (cmd 1 0 none [at_ 0])) (fun c m => decide (lineAt ready.fx m c.pkt.p0 = some 0) && decide (hitWay m 0 = some 0) && awake m [dTag 0, dWay m 0 0] && sound m && !(tagAt m 0 0).poison)) = true ∧
    (begins (cached { clean with poison := true } ready) (.poisonClear (cmd 1 0 none [at_ 0])) (fun _ m => decide (hitWay m 0 = some 0) && (tagAt m 0 0).poison && decide ((tagAt m 0 0).v = 0xF) && decide (0 ∉ fillingWays m 0))) = true ∧
    (begins (berthed id (tenant id)) (.poisonClear (cmd 1 1 none [2 ^ 33])) (fun c m => berthHome ready.fx m c.pkt.p0 && !lostObj m 1 0 && (berthOf m 0).valid && decide ((berthOf m 0).gen = bGen c.pkt.p0))) = true ∧
    (begins ready (.engineReset (cmd 1 0 none [0])) (fun c m => resting (complete ready.fx c csDone [] (resetReduction ready.fx m).1))) = true ∧
    (begins ready (.engineReset (cmd 1 0 none [4])) (fun _ m => decide ((dom m dCipher).season ≠ .frost))) = true ∧
    (begins ready (.engineReset (cmd 1 0 none [1])) (fun _ m => decide (m.cmds.running = []))) = true ∧
    (begins ready (.engineReset (cmd 1 0 none [2])) (fun c m => resting (complete ready.fx c csDone [] (stopFrosts (cancelProgs ready.fx isMaint (fun _ m => m) m).1)))) = true ∧
    (begins ready (.engineReset (cmd 1 0 none [3])) (fun c m => resting (complete ready.fx c csDone [] (pullAccs (fun op _ => decide (op ∈ atomicOps)) (closeOff stRetry) m).1))) = true ∧
    (begins ready (.engineReset (cmd 1 0 none [5])) (fun c _ => decide (5 ≤ fld c.pkt.p0 2 0))) = true ∧
    (begins { ready with m := setDom dRed .frost ready.m } (.engineReset (cmd 1 0 none [0])) (fun _ m => decide ((dom m dRed).season = .frost))) = true ∧
    (resting ready.m && sound ready.m && scrubsRun ready.m && decide (ready.m.err.rate ≠ 0)) = true ∧
    (resting (memScrubStep ready.fx scrubbing.m) && scrubsRun scrubbing.m && decide (scrubbing.m.err.mpos < scrubbing.m.err.mlines) && decide (runsAt (scrubRuns ready.fx scrubbing.m) 0 = some 0) && (hitWay scrubbing.m 0).isSome && (match storedForm ready.fx 0 scrubbing.m with | .dense _ => true | _ => false)) = true := by
  decide +kernel


/-- ready with a dump interval of one, a full ring, due at once. -/
def dumping : State := { ready with m := { ready.m with pmc := { ready.m.pmc with interval := 1, size := 4, wr := 16, nextDue := 0 } } }
/-- ready with a confidential context, and no dump interval. -/
def secret : State := { tenant (fun e => { e with conf := true }) with fx := ready.fx }

theorem meets_CounterAndDebugRows :
    (begins ready (.pmcConfig (cmd 2 0 none [0, 0])) (fun c _ => !pmcBad c.pkt.p0)) = true ∧
    (begins ready (.pmcConfig (cmd 2 0 none [0x3FF * 2 ^ 34, 0])) (fun c _ => pmcBad c.pkt.p0)) = true ∧
    (begins ready (.pmcDumpSet (cmd 2 0 none [2 ^ 47, 4])) (fun c m => rangeHomed ready.fx m c.pkt.p0 4096 && decide (fld c.pkt.p1 4 0 = 4) && !mapMeets ready.fx (rangeRuns ready.fx m c.pkt.p0 4096))) = true ∧
    (begins ready (.pmcDumpSet (cmd 2 0 none [2 ^ 47, 3])) (fun c _ => decide (fld c.pkt.p1 4 0 < 4))) = true ∧
    (begins ready (.pmcDumpSet (cmd 2 0 none [2 ^ 47, 16])) (fun c m => decide (fld c.pkt.p1 4 0 = 16) && rangeHomed ready.fx m c.pkt.p0 16777216)) = true ∧
    (begins (tenant id) (.pmcPermit (cmd 1 0 (some (5, 1)) [2 ^ 47])) (fun c m => rangeHomed ready.fx m c.pkt.p0 256 && ctxReach m (cCtx c) true (rangeRuns ready.fx m c.pkt.p0 256) && confDest m (cCtx c) false (rangeRuns ready.fx m c.pkt.p0 256) && decide (m.pmc.permits.length < 16))) = true ∧
    (begins (tenant id) (.pmcPermit (cmd 1 1 (some (5, 1)) [2 ^ 47])) (fun c _ => cFlag c 0 && decide (c.pkt.p0.toNat % 256 = 0))) = true ∧
    (begins (tenant id) (.pmcPermit (cmd 1 0 (some (5, 1)) [2 ^ 47 + 128])) (fun c _ => decide (c.pkt.p0.toNat % 256 ≠ 0))) = true ∧
    (begins ready (.debugOpen (cmd 1 0 none [3])) (fun c m => resting { eraseTenants ready.fx c.id m with life := { (eraseTenants ready.fx c.id m).life with st := .debug } })) = true ∧
    (begins ready (.debugOpen (cmd 1 0 none [0])) (fun c _ => decide (fld c.pkt.p0 1 0 = 0))) = true ∧
    (begins { ready with m := { ready.m with life := { ready.m.life with st := .debug, dbgFrom := .service } } } (.debugClose (cmd 0 0 none [])) (fun _ _ => true)) = true ∧
    (resting ready.m && decide (ready.m.pmc.interval = 0)) = true ∧
    (resting dumping.m && decide (dumping.m.pmc.interval ≠ 0) && decide (dumping.m.pmc.nextDue ≤ dumping.m.cyc) && resting (dumpDue ready.fx dumping.m)) = true ∧
    (resting secret.m && confPresent secret.m && decide (secret.m.pmc.interval = 0)) = true ∧
    (!peekPend ready.m) = true ∧
    (peekPend { ready.m with dbg := { ready.m.dbg with data1 := 2 ^ 62 } }) = true := by
  decide +kernel


/-- The program of a fence of mode 0 as it starts. -/
def fence0 (m : Mach) : FenceProg := { discard := false, fatal := m.err.fatal, phase := 2, before := admittedKeys m, wb := 0, pois := 0, left := 0 }

theorem meets_FenceAndFirmwareRows :
    (begins ready (.sliceFenceMode0 (cmd 1 0 none [0])) (fun c m => (let m1 := { m with life := { m.life with st := .fenced } }; resting (pumpFence ready.fx c (fence0 m) (runOn c (.fence (fence0 m)) m1))))) = true ∧
    (begins ready (.sliceFenceMode1 (cmd 1 0 none [0])) (fun c m => bit c.pkt.p0 0 && decide (quiesceKeys { m with life := { m.life with st := .quiesced } } = []))) = true ∧
    (begins ready (.sliceFenceMode1 (cmd 1 1 none [0])) (fun c _ => bit c.pkt.p0 0 && cFlag c 0)) = true ∧
    (begins ready (.fwStage (cmd 2 0 none [2 ^ 47, 1024])) (fun c m => rangeHomed ready.fx m c.pkt.p0 1024 && !mapMeets ready.fx (rangeRuns ready.fx m c.pkt.p0 1024) && !staging m)) = true ∧
    (begins ready (.fwStage (cmd 2 0 none [2 ^ 47, 896])) (fun c _ => decide (fld c.pkt.p1 31 0 < 1024))) = true ∧
    (begins { ready with m := { ready.m with fw := { ready.m.fw with okB := true } } } (.fwActivate (cmd 1 0 none [1])) (fun _ m => bankOk m true && decide (true ≠ m.fw.bankB) && decide (m.cmds.running = []))) = true ∧
    (begins ready (.fwActivate (cmd 1 0 none [0])) (fun _ m => decide (false = m.fw.bankB))) = true ∧
    (begins ready (.fwQuery (cmd 0 0 none [])) (fun _ _ => true)) = true ∧
    (resting (running [.quiesce 0 []] ready).m && !quiesceOut (running [.quiesce 0 []] ready).m []) = true ∧
    (resting (running [.activate true true 0] ready).m) = true ∧
    (resting (running [.stage true 8 [] (some 0) 0] ready).m) = true := by
  decide +kernel


/-- A slice in the state and phase of start-up. -/
def starting (st : SliceState) (phase : BitVec 4) : State :=
  { State.reset with m := { Mach.reset with life := { Life.reset with st := st, phase := phase, pwrOk := true, coldRst := false, iso := false } } }
/-- What the march test finds when nothing is wrong. -/
def noFindings : BistFindings := ⟨[], [], false⟩

theorem meets_PowerAndStartupRows :
    (resting State.reset.m && State.reset.m.life.coldRst) = true ∧
    (!ready.m.life.coldRst) = true ∧
    (resting (starting .init 0).m && initLoads (starting .init 0).m) = true ∧
    (resting (starting .init 1).m) = true ∧
    (resting (starting .selftest 2).m && bistRepairable noFindings && !bistRepairable ⟨[], [], true⟩) = true ∧
    (resting (starting .selftest 4).m && !columnFailed Fixed.reset (starting .selftest 4).m && resting (loadRepairs Fixed.reset (starting .selftest 4).m)) = true ∧
    (columnFailed Fixed.reset { (starting .selftest 4).m with life := { (starting .selftest 4).m.life with rowHealth := 0 } }) = true ∧
    (resting (starting .selftest 5).m && !((starting .selftest 5).m.cmds.running.any fun r => isSweepRun r.prog)) = true ∧
    (resting { (starting .off 0).m with life := { (starting .off 0).m.life with released := true, scanEn := true } }) = true := by
  decide +kernel


/-- The block with range 1 enabled over granules 4 to 8 under slot 3, which a sweep holds. -/
def lockedRange : Mach := setSlot 3 { KeySlot.free with sweep := true } { ready.m with keys := { ready.m.keys with krt := tset .reset ready.m.keys.krt 1 ⟨true, false, 3, 4, 8⟩ } }

theorem meets_RegisterRows :
    (decide (regAt 0x0120 = some (0x0120, false, .aperture))) = true ∧
    (decide (regAt 0x0180 = some (0x0180, false, .pilot))) = true ∧
    (decide (writeGate ready.m .sideband 0x0208 .pilot = .go)) = true ∧
    (decide (regAt 0x0208 = some (0x0208, false, .pilot))) = true ∧
    (decide (writeGate ready.m .inband 0x0208 .pilot = .reject)) = true ∧
    (decide (regAt 0x2000 = some (0x2000, true, .pilot))) = true ∧
    (resting (regWrite ready.fx .sideband 0x0208 0x0208 0x10000 ready.m).2.1) = true ∧
    (decide (writeGate ready.m .sideband 0x3000 .pilot = .quiet_)) = true ∧
    (krtLock lockedRange (krt lockedRange 1) && (krt lockedRange 1).en && !krtLock lockedRange (krt lockedRange 0) && (krtOf (BitVec.ofNat 64 (2 ^ 63 + 5 * 2 ^ 29 + 9 * 2 ^ 6))).en && decide ((krtOf (BitVec.ofNat 64 (2 ^ 63 + 5 * 2 ^ 29 + 9 * 2 ^ 6))).base.toNat = 5) && decide ((krt lockedRange 1).base.toNat = 4) && decide ((krt lockedRange 1).limit.toNat = 8)) = true ∧
    (rangeHomed ready.fx ready.m (BitVec.ofNat 64 (2 ^ 47)) 1024 && runsAll (fun l => (rangeOf ready.m l).isNone) (rangeRuns ready.fx ready.m (BitVec.ofNat 64 (2 ^ 47)) 256)) = true ∧
    (reclaiming (running [.maintHeld] ready).m 3 || !reclaiming ready.m 3) = true := by
  decide +kernel

theorem meets_TransportRows :
    (resting ready.m) = true ∧
    (resting (write4 ready.fx .sideband 0x0208 1 none (clearLatches .sideband ready.m)).2.1) = true ∧
    (begins ready (.sbCmd 0 (cmd 0 0 none [])) (fun c _ => decide (c.opcode = 0x00))) = true ∧
    (decide (peerPath 0xFFFE = some .aperture)) = true ∧
    (decide (peerPath 0 = none)) = true ∧
    (resting (winAccess ready.fx .aperture false false 0 0 (count 0x040 ready.m)).2.1) = true ∧
    (!mayFetch ready.m (ringOf ready.m true)) = true ∧
    (resting (ringFetch ready.fx true ready.m)) = true ∧
    (resting (pressureWindow ready.fx ready.m)) = true ∧
    (decide (ready.m.pilot.master ≠ 0)) = true ∧
    (resting (eventWrite ready.fx ready.m)) = true := by
  decide +kernel


/-- The premises of Lands and of Passes, read as checks, with another condition on the block. -/
def lands (s : State) (i : Instr) (f : BitVec 6 → Req → Mach → Bool) : Bool :=
  match requestOf i with
  | some (op, r) => resting s.m && !heldByStrap s.fx r.vc s.m && f op r (countAccept (.dp op r none) s.m)
  | none => false
def passesG (g : Gate) : Bool := match g with | .pass => true | _ => false
def passes (s : State) (i : Instr) (f : BitVec 6 → Req → Mach → Bool) : Bool :=
  lands s i fun op r m => passesG (gateFor s.fx op r m) && decide (manifestStop m r = none) && f op r m

theorem lands_spec {s : State} {i : Instr} {f : BitVec 6 → Req → Mach → Bool} (h : lands s i f = true) :
    ∃ op r m, Lands s i op r m ∧ f op r m = true := by
  unfold lands at h
  split at h
  · rename_i op r e
    simp only [Bool.and_eq_true, Bool.not_eq_true'] at h
    exact ⟨op, r, _, ⟨h.1.1, e, h.1.2, rfl⟩, h.2⟩
  · cases h
theorem passes_spec {s : State} {i : Instr} {f : BitVec 6 → Req → Mach → Bool} (h : passes s i f = true) :
    ∃ op r m, Passes s i op r m ∧ f op r m = true := by
  obtain ⟨op, r, m, l, h⟩ := lands_spec h
  simp only [Bool.and_eq_true, decide_eq_true_eq] at h
  refine ⟨op, r, m, ⟨l, ?_, h.1.2⟩, h.2⟩
  have := h.1.1
  revert this
  cases gateFor s.fx op r m <;> simp [passesG]

/-- The premises of Meets, for an access that meets a way without key. -/
def meets (fx : Fixed) (a : Access) (way : Nat) (m : Mach) : Bool :=
  let t := tagAt m (setOf a.line) way
  awake m [dTag (quadOf a.line), dDir (quadOf a.line), dWay m (setOf a.line) way] && sound m && !waitsBefore m a &&
  decide (m.sparse.locked ≠ some (BitVec.ofNat 23 (granOf a.line))) && !inMap fx a.line && decide (hitWay m a.line = some way) && decide (t.fmt = 0) && !t.keyv &&
  decide (ticketFor m a.line = none) && decide (m.sparse.fills.find? (·.line = a.line) = none) && decide (m.dir.ents = []) && decide (m.dir.recalls = []) && decide (m.dir.reclaim = none) &&
  decide (needSect a &&& ~~~t.v = 0)
theorem meets_spec {fx : Fixed} {a : Access} {way : Nat} {m : Mach} (h : meets fx a way m = true) : Meets fx a way m := by
  simp only [meets, Bool.and_eq_true, decide_eq_true_eq, Bool.not_eq_true'] at h
  obtain ⟨⟨⟨⟨⟨⟨⟨⟨⟨⟨⟨⟨⟨h1, h2⟩, h3⟩, h4⟩, h5⟩, h6⟩, h7⟩, h8⟩, h9⟩, h10⟩, h11⟩, h12⟩, h14⟩, h13⟩ := h
  exact ⟨h1, h2, h3, h4, h5, h6, h7, fun _ _ _ k => absurd k (by simp [h8]), ⟨h9, h10⟩, ⟨h11, h12, h14⟩, h13⟩

/-- A request of context 5: SUBOP, SECT, AUX, address and payload. -/
def req (sub sect aux addr : Nat) (ps : List Nat) : Req :=
  { stop := .north, vc := .vc0, env := 0, subop := BitVec.ofNat 4 sub, ctx := 5, gen := 1, tc := 0, deadline := 0, scope := 0, mv := false, manifest := 0
    source := 1, tag := 1, sect := BitVec.ofNat 4 sect, maskmode := 0, rsvd := 0, plen := BitVec.ofNat 5 ps.length, aux := BitVec.ofNat 16 aux
    address := BitVec.ofNat 64 addr, bmask := 0, payload := ps.map (BitVec.ofNat 64 ·) }

theorem meets_DataPlaneChecks :
    (lands { ready with m := { ready.m with life := { ready.m.life with st := .fenced } } } (.rd (req 0 1 0 (at_ 0) [])) (fun _ _ m => fencedLike m)) = true ∧
    (lands (tenant id) (.rd (req 0 1 0 (2 ^ 47 + 2 ^ 40) [])) (fun _ r m => decide (memHome ready.fx m r.address = .mishomed))) = true ∧
    (lands (tenant id) (.rd (req 0 1 0 (2 ^ 47 + 2 ^ 35) [])) (fun _ r m => decide (memHome ready.fx m r.address = .denied))) = true ∧
    (lands (tenant id) (.rd (req 2 1 0 (at_ 0) [])) (fun op r _ => !memFields op r)) = true ∧
    (lands { tenant id with m := { (tenant id).m with life := { ready.m.life with st := .ready } } } (.rd (req 0 1 0 (at_ 0) [])) (fun _ _ m => decide (effState m = .ready))) = true ∧
    (lands { tenant id with m := { (tenant id).m with life := { ready.m.life with st := .quiesced } } } (.rd (req 0 1 0 (at_ 0) [])) (fun _ _ m => decide (effState m = .quiesced))) = true ∧
    (lands ready (.rd (req 0 1 0 (at_ 0) [])) (fun _ r m => !(ctxOf m r.ctx).opened)) = true ∧
    (lands (tenant fun e => { e with suspended := true }) (.rd (req 0 1 0 (at_ 0) [])) (fun _ r m => (ctxOf m r.ctx).suspended)) = true ∧
    (lands (tenant fun e => { e with perm := 0 }) (.rd (req 0 1 0 (at_ 0) [])) (fun _ r m => decide ((ctxOf m r.ctx).perm = 0))) = true ∧
    (lands (tenant id) (.rd (req 0 1 0 (at_ 0) [])) (fun op r m => passesG (gateFor ready.fx op r m))) = true ∧
    (lands (tenant id) (.pfHint { req 0 15 1 (at_ 0) [] with vc := .vc2, tag := 0 }) (fun op r m => passesG (gateFor ready.fx op r m))) = true ∧
    (lands (tenant id) (.dataPlaneUnassignedOpcode 0x3F (req 0 1 0 (at_ 0) [])) (fun op _ m => decide (op ∉ dpOps) && !fencedLike m)) = true := by
  decide +kernel

theorem meets_SignalAndWait :
    (passes (synced id (tenant id)) (.signal { req 0 0 0 (2 ^ 21) [7] with vc := .vc2 }) (fun op r m => awake m [dSync] && sound m && mayUse m 0 r.ctx r.gen && kindAllows op r.subop (syncObj m 0).kind && !ownerFrozen m 0 r.ctx && decide ((syncObj m 0).gen = sGen r.address) && !(syncObj m 0).err)) = true ∧
    (passes (tenant id) (.signal { req 0 0 0 (2 ^ 21) [7] with vc := .vc2 }) (fun _ _ m => awake m [dSync] && sound m && !(syncObj m 0).valid)) = true ∧
    (passes (synced id (tenant id)) (.signal { req 3 0 3 (2 ^ 21) [] with vc := .vc2 }) (fun op r m => awake m [dSync] && sound m && mayUse m 0 r.ctx r.gen && kindAllows op r.subop (syncObj m 0).kind && !ownerFrozen m 0 r.ctx && decide ((syncObj m 0).gen = sGen r.address))) = true ∧
    (passes (synced (fun o => { o with err := true, errcode := 3 }) (tenant id)) (.signal { req 0 0 0 (2 ^ 21) [7] with vc := .vc2 }) (fun _ _ m => awake m [dSync] && sound m && (syncObj m 0).err)) = true ∧
    (passes (synced (fun o => { o with kind := 1, value := 5 }) (tenant id)) (.signal { req 2 0 0 (2 ^ 21) [5] with vc := .vc2 }) (fun _ _ m => awake m [dSync] && sound m)) = true ∧
    (passes (synced id (tenant id)) (.wait (req 0 0 0 (2 ^ 21) [0])) (fun op r m => awake m [dSync] && sound m && mayUse m 0 r.ctx r.gen && kindAllows op r.subop (syncObj m 0).kind && !ownerFrozen m 0 r.ctx && decide ((syncObj m 0).gen = sGen r.address))) = true ∧
    (passes (synced id (tenant id)) (.wait (req 0 0 0 (2 ^ 21) [1])) (fun op r m => awake m [dSync] && sound m && mayUse m 0 r.ctx r.gen && kindAllows op r.subop (syncObj m 0).kind && !ownerFrozen m 0 r.ctx && decide ((syncObj m 0).gen = sGen r.address) && decide (m.sync.waits.length < 8192))) = true ∧
    (passes (synced id (tenant id)) (.wait (req 0 0 2 (2 ^ 21) [1])) (fun op r m => awake m [dSync] && sound m && mayUse m 0 r.ctx r.gen && kindAllows op r.subop (syncObj m 0).kind && !ownerFrozen m 0 r.ctx && decide ((syncObj m 0).gen = sGen r.address) && r.aux.getLsbD 1)) = true ∧
    (passes (synced (fun o => { o with value := 5 }) (tenant id)) (.wait (req 1 0 0 (2 ^ 21) [5])) (fun _ r m => awake m [dSync] && sound m && decide (operand r = (syncObj m 0).value))) = true ∧
    (passes (synced (fun o => { o with kind := 2, value := 5 }) (tenant id)) (.wait (req 2 0 0 (2 ^ 21) [5])) (fun _ _ m => awake m [dSync] && sound m)) = true := by
  decide +kernel

theorem meets_MemoryReadsAndWrites :
    (passes (cached clean (tenant id)) (.rd (req 0 1 0 (at_ 0) [])) (fun op r m => (match memHome ready.fx m r.address with | .at off => meets ready.fx (placed m (memAccess op r off)) 0 m | _ => false))) = true ∧
    (passes (cached { clean with poison := true } (tenant id)) (.rd (req 0 1 0 (at_ 0) [])) (fun op r m => (match memHome ready.fx m r.address with | .at off => meets ready.fx (placed m (memAccess op r off)) 0 m | _ => false))) = true ∧
    (passes (cached clean (tenant id)) (.rd (req 0 3 0 (at_ 0) [])) (fun op r m => (match memHome ready.fx m r.address with | .at off => meets ready.fx (placed m (memAccess op r off)) 0 m | _ => false) && decide (r.sect ≠ oneSect 0))) = true ∧
    (passes (cached clean (tenant id)) (.rdVol (req 1 1 0 (at_ 0) [])) (fun op r m => (match memHome ready.fx m r.address with | .at off => meets ready.fx (placed m (memAccess op r off)) 0 m | _ => false))) = true ∧
    (passes (cached clean (tenant id)) (.rdStream (req 0 1 0 (at_ 0) [])) (fun op r m => (match memHome ready.fx m r.address with | .at off => meets ready.fx (placed m (memAccess op r off)) 0 m | _ => false))) = true ∧
    (passes (cached clean (tenant id)) (.wr (req 0 1 0 (at_ 0) [1, 2, 3, 4])) (fun op r m => (match memHome ready.fx m r.address with | .at off => meets ready.fx (placed m (memAccess op r off)) 0 m | _ => false))) = true ∧
    (passes (cached clean (tenant id)) (.wrFull (req 0 15 0 (at_ 0) [1, 2, 3, 4, 5, 6, 7, 8, 9, 10, 11, 12, 13, 14, 15, 16])) (fun op r m => (match memHome ready.fx m r.address with | .at off => meets ready.fx (placed m (memAccess op r off)) 0 m | _ => false))) = true ∧
    (passes (cached clean (tenant id)) (.wrThru (req 0 1 0 (at_ 0) [1, 2, 3, 4])) (fun op r m => (match memHome ready.fx m r.address with | .at off => meets ready.fx (placed m (memAccess op r off)) 0 m | _ => false) && writeRoom m)) = true ∧
    (passes (cached clean (tenant id)) (.wr { req 0 1 0 (at_ 0) [1, 2, 3, 4] with maskmode := 1 }) (fun op r m => (match memHome ready.fx m r.address with | .at off => meets ready.fx (placed m (memAccess op r off)) 0 m | _ => false) && decide (r.bmask = 0) && lineFree m 0)) = true ∧
    (passes (tenant id) (.rd (req 0 1 0 (at_ 0) [])) (fun op r m => decide (submit ready.fx (memAccess op r 0) m ≠ none))) = true ∧
    (passes (scattered (tenant id)) (.scatterRed (req 0 1 1 (at_ 0) [1, 2, 3, 4])) (fun _ r m => sound m && decide (scatCheck m r ≠ none))) = true := by
  decide +kernel

theorem meets_MemoryAtomics :
    (passes (cached clean (tenant id)) (.atom (req 0 0 1 (at_ 0) [1])) (fun op r m => (match memHome ready.fx m r.address with | .at off => meets ready.fx (placed m (memAccess op r off)) 0 m | _ => false))) = true ∧
    (passes (cached clean (tenant id)) (.atomRet (req 9 0 1 (at_ 0) [0, 1])) (fun op r m => (match memHome ready.fx m r.address with | .at off => meets ready.fx (placed m (memAccess op r off)) 0 m | _ => false))) = true ∧
    (passes (cached { clean with poison := true } (tenant id)) (.atomRet (req 8 0 1 (at_ 0) [1])) (fun op r m => (match memHome ready.fx m r.address with | .at off => meets ready.fx (placed m (memAccess op r off)) 0 m | _ => false))) = true ∧
    (passes (cached clean (tenant id)) (.lred (req 0 1 0 (at_ 0) [1, 2, 3, 4])) (fun op r m => (match memHome ready.fx m r.address with | .at off => meets ready.fx (placed m (memAccess op r off)) 0 m | _ => false))) = true ∧
    (passes (cached { clean with poison := true } (tenant id)) (.lred (req 0 1 0 (at_ 0) [1, 2, 3, 4])) (fun op r m => (match memHome ready.fx m r.address with | .at off => meets ready.fx (placed m (memAccess op r off)) 0 m | _ => false))) = true ∧
    (passes (cached clean (scattered (tenant id))) (.scatterRed (req 0 1 (2 ^ 8) (at_ 0) [1, 2, 3, 4])) (fun op r m => (match memHome ready.fx m r.address with | .at off => meets ready.fx (placed m (memAccess op r off)) 0 m | _ => false) && decide (scatCheck m r = none))) = true ∧
    (twf 0 ready.m.cache.data) = true := by
  decide +kernel


/-- s with queue 0 of context 5, generation 0, of 16 entries of 8 bytes in berth 0, n of them taken up. -/
def queued (n : Nat) (s : State) : State :=
  { s with m := { s.m with berth := { s.m.berth with ferries := tset .free s.m.berth.ferries 0 { Ferry.free with valid := true, ctx := 5, depth := 4, tail := BitVec.ofNat 17 n } } } }

theorem meets_BerthAndQueueRequests :
    (passes (berthed id (tenant id)) (.brd (req 0 1 0 (2 ^ 33) [])) (fun _ r m => sound m && !lostObj m 1 0 && (berthOf m 0).valid && decide ((berthOf m 0).gen = bGen r.address) && decide ((berthOf m 0).ctx = r.ctx) && awake m [dWay m (berthPlace m (berthOf m 0) 0).1 (berthPlace m (berthOf m 0) 0).2])) = true ∧
    (passes (berthed id (tenant id)) (.bwr (req 0 1 0 (2 ^ 33) [1, 2, 3, 4])) (fun _ r m => sound m && !lostObj m 1 0 && (berthOf m 0).valid && decide ((berthOf m 0).gen = bGen r.address) && decide ((berthOf m 0).ctx = r.ctx) && awake m [dWay m (berthPlace m (berthOf m 0) 0).1 (berthPlace m (berthOf m 0) 0).2])) = true ∧
    (passes (tenant id) (.brd (req 0 1 0 (2 ^ 33) [])) (fun _ _ m => !(berthOf m 0).valid)) = true ∧
    (passes (berthed id (tenant id)) (.brd (req 0 1 0 (2 ^ 33 + 4096) [])) (fun _ r m => decide ((berthOf m 0).size.toNat < bOff r.address / 4096))) = true ∧
    (passes (berthed (fun b => { b with moving := true }) (tenant id)) (.brd (req 0 1 0 (2 ^ 33) [])) (fun _ _ m => (berthOf m 0).moving)) = true ∧
    (passes (queued 0 (berthed id (tenant id))) (.qenq (req 0 0 0 0 [7])) (fun op r m => sound m && !lostObj m 2 0 && (ferryOf m 0).valid && decide ((ferryOf m 0).ctx = r.ctx) && decide (eBytes (ferryOf m 0) = 8) && awake m ((opSlots op r (ferryOf m 0)).map fun o => dWay m (berthPlace m (berthOf m 0) o).1 (berthPlace m (berthOf m 0) o).2))) = true ∧
    (passes (queued 0 (berthed id (tenant id))) (.qenq (req 1 0 0 0 [7])) (fun _ r m => sound m && !lostObj m 2 0 && (ferryOf m 0).valid && decide ((ferryOf m 0).ctx = r.ctx) && decide (min r.aux.toNat 16 ≤ ferryOcc (ferryOf m 0)))) = true ∧
    (passes (queued 0 (berthed id (tenant id))) (.qdeq (req 0 0 0 0 [])) (fun _ r m => sound m && !lostObj m 2 0 && (ferryOf m 0).valid && decide ((ferryOf m 0).ctx = r.ctx) && decide (ferryOcc (ferryOf m 0) = 0))) = true ∧
    (passes (queued 1 (berthed id (tenant id))) (.qdeq (req 0 0 0 0 [])) (fun op r m => sound m && !lostObj m 2 0 && (ferryOf m 0).valid && decide ((ferryOf m 0).ctx = r.ctx) && decide (ferryOcc (ferryOf m 0) ≠ 0) && awake m ((opSlots op r (ferryOf m 0)).map fun o => dWay m (berthPlace m (berthOf m 0) o).1 (berthPlace m (berthOf m 0) o).2))) = true ∧
    (passes (tenant id) (.qdeq (req 0 0 0 0 [])) (fun _ _ m => !(ferryOf m 0).valid)) = true ∧
    (passes (queued 0 (berthed id (tenant id))) (.qenq (req 0 0 0 0 [7, 8])) (fun _ r m => decide (r.plen.toNat * 8 ≠ eBytes (ferryOf m 0)))) = true := by
  decide +kernel


/-- A contribution waits at tile 0. -/
def waiting (sect : Nat) : State :=
  { tiled id (tenant id) with m := setRedQ .north [⟨opTCONTRIB, req 11 sect 0 (2 ^ 33) [], none, false, 0⟩] (tiled id (tenant id)).m }

theorem meets_TileRequests :
    (passes (tiled id (tenant id)) (.tcontrib (req 11 1 0 (2 ^ 33) [1, 2, 3, 4])) (fun op r m => sound m && awake m [dAcc 0] && (match tileStop m op r with | .pass => true | _ => false) && decide ((redQ m .north).length < 32))) = true ∧
    (passes (tiled id (tenant id)) (.tcontribW (req 11 1 0 (2 ^ 33) [1, 2, 3, 4])) (fun _ _ m => sound m)) = true ∧
    (passes (tenant id) (.tcontrib (req 11 1 0 (2 ^ 33) [1, 2, 3, 4])) (fun _ _ m => !(tileOf m 0).valid)) = true ∧
    (passes (tiled (fun t => { t with ctx := 6 }) (tenant id)) (.tcontrib (req 11 1 0 (2 ^ 33) [1, 2, 3, 4])) (fun _ r m => decide ((tileOf m 0).ctx ≠ r.ctx))) = true ∧
    (passes (tiled (fun t => { t with st := .closing }) (tenant id)) (.tcontrib (req 11 1 0 (2 ^ 33) [1, 2, 3, 4])) (fun op r m => (match tileStop m op r with | .late => true | _ => false))) = true ∧
    (passes (tiled id (tenant id)) (.tfoldSegment (req 1 1 (3 * 2 ^ 8) (2 ^ 33) [1, 2, 3, 4])) (fun _ _ m => sound m)) = true ∧
    (passes (tiled id (tenant id)) (.tfoldFold (req 0 0 0 (2 ^ 33) [2 ^ 33 + 2 ^ 20])) (fun _ r _ => decide (foldStop ready.fx r = none))) = true ∧
    (passes (tiled id (tenant id)) (.tfoldFold (req 0 0 0 (2 ^ 33) [2 ^ 33])) (fun _ r _ => decide (foldStop ready.fx r = some false))) = true ∧
    (passes (tiled id (tenant id)) (.tfoldFold (req 0 0 0 (2 ^ 33) [2 ^ 33 + 1])) (fun _ r _ => decide (foldStop ready.fx r = some true))) = true ∧
    (passes (hopped (fun h => { h with hop := 1, last := 2 }) (tiled id (tenant id))) (.tfoldAbort (req 2 0 (2 ^ 6 + 2) (2 ^ 33) [])) (fun _ r m => decide (abortAt m r = some (0, 3)))) = true ∧
    (passes (tiled id (tenant id)) (.tfoldAbort (req 2 0 66 (2 ^ 33) [])) (fun _ r m => decide (abortAt m r = none))) = true ∧
    (resting (waiting 1).m && ((redQ (waiting 1).m .north).all fun e => isContrib e && e.fold.isNone && !foldWaits ready.fx (waiting 1).m e && !tInit e.r.address) && decide (redQ (waiting 1).m .north ≠ []) && awake (waiting 1).m (tileDoms (tileOf (waiting 1).m 0))) = true ∧
    (sound (waiting 0).m && (match tileStop (waiting 0).m opTCONTRIB (req 11 0 0 (2 ^ 33) []) with | .pass => true | _ => false)) = true := by
  decide +kernel


/-- A tile being closed, its close not yet draining. -/
def closing : State :=
  running [.close { tile := 0, buf := false, late := 0, draining := false, bias := [], made := false, todo := [], left := 0, bytes := 0, poisoned := false, exp := 0, ovf := false }]
    (tiled (fun t => { t with st := .closing }) (tenant id))
/-- A first hop of tile 0 that has taken its cut-off, with line 0 touched. -/
def cutOff : State := hopped (fun h => { h with cut := true, last := 1, next := 2 ^ 33 }) (tiled (fun t => { t with st := .closing, touch0 := 1 }) (tenant id))
/-- cutOff with so many of the hop's segments out. -/
def fed (n : Nat) : State := { cutOff with m := setHop 0 { hopOf cutOff.m 0 with outst := BitVec.ofNat 7 n } cutOff.m }
/-- s with a segment of the hop out at the north stop, or the notice or fold line. -/
def sent (w : SegOf) (retry : Nat) (s : State) : State := { s with m := { s.m with red := { s.m.red with segs := [⟨.north, 1, w, retry⟩] } } }

theorem meets_ReductionStepRows :
    ((closeOf closing.m 0).isSome && decide (hopOfTile closing.m 0 1 = none) && decide (bufInfl (tileOf closing.m 0) false = 0) && awake closing.m (tileDoms (tileOf closing.m 0)) && decide (closing.m.red.folds = [])) = true ∧
    (decide (closeOf ready.m 0 = none)) = true ∧
    (decide (readyLine cutOff.m (hopOf cutOff.m 0) = some 0) && decide ((hopOf cutOff.m 0).outst.toNat < towWindow cutOff.m) && awake cutOff.m (tileDoms (tileOf cutOff.m 0)) && sound cutOff.m && segRoom cutOff.m .south) = true ∧
    (decide (readyLine ready.m (hopOf ready.m 0) = none)) = true ∧
    (((sent (.hop 0 0) 1 cutOff).m.red.segs.any fun x => decide (x.retryAt ≠ 0) && decide (x.retryAt ≤ (advance 9 (sent (.hop 0 0) 1 cutOff).m).cyc)) && segRoom (sent (.hop 0 0) 1 cutOff).m .north && decide ((hopOf cutOff.m 0).outst.toNat < towWindow cutOff.m)) = true ∧
    (((sent (.hop 0 0) 0 cutOff).m.red.segs.find? fun x => x.stop = .north && x.tag = 1 && decide (x.retryAt = 0)).isSome && !(hopOf cutOff.m 0).broken) = true ∧
    ((sent .notice 0 ready).m.red.segs.any fun x => x.what = .notice) = true ∧
    (hopWaits (fed 1).m (hopOf (fed 1).m 0) && decide ((fed 1).m.regs.hopTimeout ≠ 0) && decide ((hopOf (fed 1).m 0).tick + (fed 1).m.regs.hopTimeout.toNat ≤ tickOf (advance (2 ^ 24) (fed 1).m).cyc) && awake (advance (2 ^ 24) (fed 1).m) [dAcc 0]) = true := by
  decide +kernel


/-- tenant id with a read of line 0 out for one request, and nothing to install. -/
def reading (t : Ticket → Ticket) (s : State) : State :=
  { s with m := { s.m with cache := { s.m.cache with tickets := [t { num := 0, line := 0, kind := .noAlloc, cls := 0, crit := 0, prefetch := false, due := none, range := none, issued := true, attempts := 1, seq := 1, born := 1, ctl := taken s.m, waiters := [memAccess opRD (req 0 1 0 (at_ 0) []) 0] }] } } }
/-- The metadata of a line of zeros. -/
def okMeta : Meta := BitVec.ofNat 128 (lineCrc 0 0)
/-- tenant id with a write of line 0 out. -/
def writing (w : WAfter) : State :=
  { tenant id with m := { (tenant id).m with cache := { (tenant id).m.cache with writes :=
      [{ line := 0, data := 0, zero := 0, fmt := 0, keyv := false, keyslot := 0, poison := false, cls := 0, slip := false, issued := true, index := 3, seq := 1, rewritten := false, after := w, also := [] }] } } }
/-- tenant id with a read of line 0 parked in quad 0. -/
def parked : State :=
  { cached clean (tenant id) with m := { (cached clean (tenant id)).m with cache := { (cached clean (tenant id)).m.cache with
      replay := [⟨memAccess opRD (req 0 1 0 (at_ 0) []) 0, false, false, false⟩] } } }
/-- s with a count and a notify for object 0. -/
def counting (s : State) : State :=
  { s with m := { s.m with sync := { s.m.sync with counts := [⟨0, 1, 2, 0, [], false⟩], coal := [⟨1, 1, 2, 0, [], false⟩], notifies := [⟨0, 0, 1, 0, 5, 0, false⟩] } } }


/-- s with a parked wait of object 0 that has a timeout. -/
def waitingFor (s : State) : State :=
  { s with m := { s.m with sync := { s.m.sync with waits := [⟨0, 0, 9, 1, 1, 5, 1, 0, 0, .north, false, 1, 0, 0, 0, false, none, false⟩] } } }

theorem meets_MemoryAndSyncStepRows :
    (!memDown (reading id (tenant id)).m && ((reading id (tenant id)).m.cache.tickets.find? fun t => t.num = 0 && t.issued).isSome) = true ∧
    (!memDown ready.m) = true ∧
    ((match checkLine ready.fx ready.m none 0 0 okMeta false 0 with | .good _ _ _ _ p => !p | _ => false)) = true ∧
    ((match checkLine ready.fx ready.m none 0 1 okMeta false 0 with | .mismatch _ => true | _ => false)) = true ∧
    (!waitsBefore (dropTicket 0 (reading id (tenant id)).m) (placed (dropTicket 0 (reading id (tenant id)).m) (memAccess opRD (req 0 1 0 (at_ 0) []) 0))) = true ∧
    (((writing .none).m.cache.writes.find? fun w => w.index = 3 && w.issued).isSome) = true ∧
    (((writing (.thruMiss (memAccess opWRTHRU (req 0 1 0 (at_ 0) [1, 2, 3, 4]) 0))).m.cache.writes.find? fun w => w.index = 3 && w.issued).isSome) = true ∧
    ((replayAt 0 0 0 parked.m.cache.replay).isSome && !behindSame parked.m 0 (memAccess opRD (req 0 1 0 (at_ 0) []) 0)) = true ∧
    (((counting (synced id (tenant id))).m.sync.counts.find? (·.obj = 0)).isSome && ((counting (synced id (tenant id))).m.sync.coal.find? (·.obj = 1)).isSome && ((counting (synced id (tenant id))).m.sync.notifies.find? (·.queue = 0)).isSome && awake (counting (synced id (tenant id))).m [dSync] && sound (counting (synced id (tenant id))).m && (syncObj (counting (synced id (tenant id))).m 0).valid && decide ((syncObj (counting (synced id (tenant id))).m 0).gen = 1) && mayUse (counting (synced id (tenant id))).m 0 5 (ctxOf (counting (synced id (tenant id))).m 5).gen) = true ∧
    ((let n := advance (2 ^ 24) (waitingFor (synced id (tenant id))).m; awake n [dSync] && sound n && (n.sync.waits.any fun w => w.source = 1 && w.tag = 1 && decide (w.expire ≠ 0) && decide (w.expire ≤ tickOf n.cyc) && !waitFrozen n w && !w.late))) = true ∧
    (decide (ready.m.dir.ents = []) && decide (ready.m.dir.recalls = []) && decide (ready.m.dir.reclaim = none)) = true := by
  decide +kernel


/-- A host message on its own channel, of agent 1. -/
def msg (mval psn : Nat) (a : Nat) : HostMsg :=
  { stop := .north, rightChannel := true, agent := 1, mval := BitVec.ofNat 2 mval, snp := 0, ctag := 7, status := 0, psn := decide (psn = 1), rsvd := 0, address := BitVec.ofNat 64 a, be := 0, data := 0 }
/-- cached clean with hosts enabled, agent 1 among them. -/
def hosting : State := { cached clean ready with m := { (cached clean ready).m with
  regs := { ready.m.regs with hostEn := true }, dir := { ready.m.dir with en := 2 } } }
/-- hosting with a snoop of line 0's lower half to agent 1 out. -/
def snooping (kind : BitVec 4) : State := { hosting with m := { hosting.m with dir := { hosting.m.dir with snoops := [⟨7, 1, 0, false, kind, .north, 0, false, false, none⟩] } } }
/-- The block of s with a host message counted. -/
def countedHost (s : State) : Mach := countAccept (.host 0 1 (msg 2 0 (at_ 0)) none) s.m

theorem meets_HostRequests :
    (resting hosting.m && hostFields (msg 2 0 (at_ 0)) && decide (memHome ready.fx (countedHost hosting) (msg 2 0 (at_ 0)).address = .at 0) && decide (hosting.m.dir.snoops = []) && decide (hosting.m.dir.claims = []) && !heldByStrap ready.fx .vc0 hosting.m) = true ∧
    (meets ready.fx (placed (countedHost hosting) (hostAccess 0 1 (msg 2 0 (at_ 0)) 0)) 0 (countedHost hosting) && decide ((placed (countedHost hosting) (hostAccess 0 1 (msg 2 0 (at_ 0)) 0)).range = none)) = true ∧
    (meets ready.fx (placed (countedHost hosting) (hostAccess 0 0 (msg 2 0 (at_ 0)) 0)) 0 (countedHost hosting) && decide ((placed (countedHost hosting) (hostAccess 0 0 (msg 2 0 (at_ 0)) 0)).range = none)) = true ∧
    (meets ready.fx (placed (countedHost hosting) (hostAccess 1 0 (msg 0 1 (at_ 0)) 0)) 0 (countedHost hosting) && decide ((placed (countedHost hosting) (hostAccess 1 0 (msg 0 1 (at_ 0)) 0)).range = none)) = true ∧
    (meets ready.fx (placed (countedHost hosting) (hostAccess 1 1 (msg 0 0 (at_ 0)) 0)) 0 (countedHost hosting) && decide ((placed (countedHost hosting) (hostAccess 1 1 (msg 0 0 (at_ 0)) 0)).range = none)) = true ∧
    (crosses (snooping 1).m 0 (msg 0 0 (at_ 0))) = true ∧
    (!hostFields { msg 0 0 (at_ 0) with status := 1 }) = true ∧
    (decide (memHome ready.fx ready.m (msg 0 0 (2 ^ 47 + 2 ^ 40)).address = .mishomed)) = true ∧
    (!ready.m.regs.hostEn) = true ∧
    (decide (submit ready.fx (hostAccess 0 1 (msg 2 0 (at_ 0)) 0) (countedHost hosting) ≠ none)) = true ∧
    (fencedLike { ready.m with life := { ready.m.life with st := .fenced } }) = true ∧
    (landingClamped State.reset.m) = true ∧
    (heldByStrap { Fixed.reset with clampHold := true } .vc0 State.reset.m) = true ∧
    (meets ready.fx (placed (countedHost hosting) (hostAccess 0 6 (msg 2 0 (at_ 0)) 0)) 0 (countedHost hosting) && decide ((placed (countedHost hosting) (hostAccess 0 6 (msg 2 0 (at_ 0)) 0)).range = none)) = true ∧
    (!hosting.m.dbg.trace) = true := by
  decide +kernel

theorem meets_HostAnswers :
    (resting (snooping 1).m && ((snooping 1).m.dir.snoops.find? fun x => x.agent = 1 && x.ctag = 7).isSome && (snooping 1).m.dir.en.getLsbD 1 && awake (snooping 1).m [dDir 0]) = true ∧
    (resting (snooping 2).m && decide ((snooping 2).m.life.st ≠ .off)) = true ∧
    (resting (snooping 0).m) = true ∧
    (decide ((snooping 1).m.regs.snoopTimeout ≠ 0) && decide ((snooping 1).m.regs.snoopTimeout.toNat ≤ tickOf (advance (2 ^ 24) (snooping 1).m).cyc)) = true ∧
    (!hostHandled 3 0 && !hostHandled 0 15) = true ∧
    (decide (State.reset.m.life.st = .off)) = true := by
  decide +kernel

/-- WellFormed refuses a request whose PLEN is not its payload, a byte mask without MASKMODE 1, an envelope on VC0, and an assigned opcode. -/
theorem test_ill_formed_requests :
    (WellFormed (.wr (req 0 1 0 0 [1]))) = true ∧
    (!WellFormed (.wr { req 0 1 0 0 [1] with plen := 2 })) = true ∧
    (!WellFormed (.wr { req 0 1 0 0 [1] with bmask := 1 })) = true ∧
    (!WellFormed (.rd { req 0 1 0 0 [] with env := 1 })) = true ∧
    (!WellFormed (.dataPlaneUnassignedOpcode opRD (req 0 1 0 0 []))) = true := by
  decide +kernel

/-- WellFormed refuses a ring command with transport bits, an envelope above 44 bits, a flag that makes the command another row's, an assigned opcode, and a handle of the wrong kind. -/
theorem test_ill_formed_commands :
    (WellFormed (.nop (cmd 0 0 none []))) = true ∧
    (!WellFormed (.nop { cmd 0 0 none [] with path := .ring true, env := 1 })) = true ∧
    (!WellFormed (.nop { cmd 0 0 none [] with path := .vc2 .north 1, env := BitVec.ofNat 52 (2 ^ 44) })) = true ∧
    (!WellFormed (.wayDisable (cmd 0 1 none []))) = true ∧
    (!WellFormed (.commandUnassigned 0x00 (cmd 0 0 none []))) = true ∧
    (!WellFormed (.berthAlloc (cmd 1 0 none [0, 1]))) = true ∧
    (!WellFormed (.arenaObjectAlloc (cmd 1 0 none [1, 0]))) = true ∧
    (!WellFormed (.berthFree { cmd 0 0 none [] with p0 := BitVec.ofNat 64 (2 ^ 61) })) = true ∧
    (!WellFormed (.arenaObjectFree (cmd 0 0 none [0]))) = true := by
  decide +kernel

/-- WellFormed refuses an empty load, a bank above 16, the wrong path or KIND, a body that is too long, and a host message with what it does not carry. -/
theorem test_ill_formed_events :
    (!WellFormed (.fwload 0 false 0 [] true)) = true ∧
    (!WellFormed (.arrayBist ⟨[(0, 17, 0)], [], false⟩)) = true ∧
    (!WellFormed (.arrayBist ⟨[], [(0, 17)], false⟩)) = true ∧
    (!WellFormed (.sbCmd 0 { cmd 0 0 none [] with path := .ring true })) = true ∧
    (!WellFormed (.sbTransferIgnored 0 2)) = true ∧
    (!WellFormed (.vc2PacketDiscard 0 0 0 [])) = true ∧
    (!WellFormed (.vc2PacketDiscard 5 0 0 (List.replicate 17 0))) = true ∧
    (!WellFormed (.hostMemrd { msg 0 0 0 with be := 1 })) = true ∧
    (!WellFormed (.hostMemwr { msg 0 0 0 with be := 1 })) = true ∧
    (!WellFormed (.hostMsgRefused 2 0 (msg 0 0 0))) = true := by
  decide +kernel

/-- No row of the table gives bits, so no word spells a command. -/
theorem test_decode_none : decodeTableWord 8 0x11 = none := by decide

/-- The step answers a next state. -/
def goes (o : Host.Outcome State Fault Refusal) : Bool := match o with | .next _ => true | _ => false

/-- State.reset meets the premise of LevelAndLockAgree, and its step answers a next state. -/
theorem meets_LevelAndLockAgree :
    (State.reset.fx.level.isSome == State.reset.fx.roLocked && goes (step State.reset)) = true := by
  decide +kernel

/-- ready with a NOP waiting. -/
def nopFirst : State := { ready with pending := [.nop (cmd 0 0 none [])] }

/-- nopFirst meets the premises of LockedFieldsStay. -/
theorem meets_LockedFieldsStay :
    (decide (nopFirst.pending = [.nop (cmd 0 0 none [])]) && decide (Instr.nop (cmd 0 0 none []) ≠ .coldRstAssert) && nopFirst.fx.roLocked &&
      nopFirst.fx.level.isSome && goes (step nopFirst)) = true := by
  decide +kernel

/-- The premises of the clauses of EventsAndErrors: a pending buffer with room, a full one, and a newest entry that is repeated. -/
theorem meets_EventsAndErrors :
    State.reset.m.evq.pend.length < 64 ∧ 64 ≤ (List.replicate 64 (⟨1, 0, 0, 0⟩ : Event)).length ∧
    (let e : W64 × W64 := (BitVec.ofNat 64 (0x01 * 2 ^ 56), 5)
     fld e.1 63 56 = 0x01 ∧ fld e.2 55 0 = 5 % 2 ^ 56 ∧ fld e.2 63 56 ≠ 0xFF) := by
  decide

/-- The premises of the clauses of ReplyWords: a command by the sideband. -/
theorem meets_ReplyWords : (0 : Nat) < 2 ^ 16 ∧ (0 : Nat) ≤ 3 ∧ byRing (cmd 0 0 none []) = false := by
  decide

end Sys2Proof.Tests
end

section
/-! SUPPORT. What a step may make of the locked level and of the RO/L fields (00_scope.md R13, Table SCOPE-3). -/

namespace Sys2Proof.Machine

/-! ### The fixed part from one state to a later one -/

/-- What a step other than a cold reset may make of the fixed part: once a level and the RO/L fields are locked it stays as it is, and
where a level is locked exactly while the RO/L fields are, that is so afterwards too. -/
structure LockKept (fx fx' : Fixed) : Prop where
  frozen : fx.roLocked = true → fx.level.isSome = true → fx' = fx
  agree : fx.level.isSome = fx.roLocked → fx'.level.isSome = fx'.roLocked

theorem LockKept.refl (fx : Fixed) : LockKept fx fx := ⟨fun _ _ => rfl, id⟩

theorem LockKept.trans {a b c : Fixed} (h : LockKept a b) (k : LockKept b c) : LockKept a c where
  frozen r l := by
    obtain rfl := h.frozen r l
    exact k.frozen r l
  agree e := k.agree (h.agree e)

/-! ### The end of a step -/

/-- A lock accepted within the step keeps a level that is fixed already (03 R99), and sets the level together with the lock. -/
theorem lockFixed_lockKept (fx : Fixed) (m : Mach) : LockKept fx (lockFixed fx m) := by
  rw [lockFixed]
  cases m.life.lockTo with
  | none => exact .refl fx
  | some l =>
    refine ⟨fun r v => ?_, fun _ => rfl⟩
    obtain ⟨level, hl⟩ := Option.isSome_iff_exists.mp v
    simp only [hl, Option.getD_some]
    rw [← hl, ← r]

theorem lockEnd_lockKept (x : Fixed × Mach) : LockKept x.1 (lockEnd x).1 := by
  rw [lockEnd]
  split
  · exact .refl x.1
  · exact (lockFixed_lockKept ..).trans (lockFixed_lockKept ..)

theorem finish_lockKept (x : Fixed × Mach) : LockKept x.1 (finish x).1 := lockEnd_lockKept (x.1, settle x.1 x.2)

/-- A row keeps the lock if its own effect does: what follows from it keeps it. -/
theorem act_lockKept {s t : State} {f : Fixed → Mach → Fixed × Mach} (h : act s f = .next t) (k : LockKept s.fx (f s.fx s.m).1) :
    LockKept s.fx t.fx := by
  cases h
  exact k.trans (finish_lockKept _)

/-- A row that leaves the fixed part alone keeps the lock. -/
theorem actM_lockKept {s t : State} {f : Fixed → Mach → Mach} (h : actM s f = .next t) : LockKept s.fx t.fx :=
  act_lockKept h (.refl s.fx)

/-- The same for a row that carries the control cycle. -/
theorem actAt_lockKept {s t : State} {cyc : Nat} {f : Fixed → Mach → Mach} (h : actAt s cyc f = .next t) : LockKept s.fx t.fx :=
  actM_lockKept h

/-! ### Writes by the control window: of its registers only SLICE_ID and FMAP_CTL hold RO/L fields -/

theorem writeSliceId_lockKept (fx : Fixed) (v : W64) (m : Mach) : LockKept fx (writeSliceId fx v m).1 := by
  refine ⟨fun r _ => if_pos r, fun e => ?_⟩
  simp only [writeSliceId]
  split <;> exact e

theorem writeFmap_lockKept (fx : Fixed) (v : W64) : LockKept fx (writeFmap fx v) := by
  refine ⟨fun r _ => if_pos r, fun e => ?_⟩
  rw [writeFmap]
  split <;> exact e

/-- A write of any other register leaves the fixed part alone. -/
theorem regWrite_fixed {o : Nat} (h : o ≠ 0x0010) (h' : o ≠ 0x0210) (fx : Fixed) (p : Path) (off : Nat) (v : W64) (m : Mach) :
    (regWrite fx p off o v m).1 = fx := by
  simp only [regWrite, if_neg h, if_neg h', apply_ite Prod.fst, ite_self]

theorem regWrite_lockKept (fx : Fixed) (p : Path) (off o : Nat) (v : W64) (m : Mach) : LockKept fx (regWrite fx p off o v m).1 := by
  by_cases h : o = 0x0010
  · subst h
    exact writeSliceId_lockKept fx v m
  by_cases h' : o = 0x0210
  · subst h'
    exact writeFmap_lockKept fx v
  · rw [regWrite_fixed h h']
    exact .refl fx

theorem writeMasked_lockKept (fx : Fixed) (p : Path) (off o : Nat) (w : Writer) (mask v : W64) (m : Mach) :
    LockKept fx (writeMasked fx p off o w mask v m).1 := by
  rw [writeMasked]
  split
  · exact .refl fx
  · exact .refl fx
  · exact regWrite_lockKept ..

theorem write4_lockKept (fx : Fixed) (p : Path) (off : Nat) (d : W32) (wl : Option (BitVec 16 × W32)) (m : Mach) :
    LockKept fx (write4 fx p off d wl m).1 := by
  rw [write4]
  cases regAt off with
  | none => exact .refl fx
  | some r =>
    obtain ⟨o, wide, w⟩ := r
    dsimp only
    split
    · exact writeMasked_lockKept ..
    split
    · split <;> exact .refl fx
    · split <;> exact writeMasked_lockKept ..

theorem winAccess_lockKept (fx : Fixed) (p : Path) (wr eight : Bool) (off : Nat) (data : W64) (m : Mach) :
    LockKept fx (winAccess fx p wr eight off data m).1 := by
  rw [winAccess]
  generalize (if eight = true then 8 else 4) = width
  split
  · exact .refl fx
  dsimp only
  split
  · split <;> exact .refl fx
  split
  · split
    · exact write4_lockKept ..
    · exact .refl fx
  split
  · split
    · exact writeMasked_lockKept ..
    · exact .refl fx
  · split
    · exact (write4_lockKept ..).trans (write4_lockKept ..)
    · exact .refl fx

theorem sbRead_lockKept (fx : Fixed) (site : Byte) (rsvd : BitVec 4) (off : BitVec 16) (data : W32) (m : Mach) :
    LockKept fx (sbRead fx site rsvd off data m).1 := by
  rw [sbRead]
  split
  · exact .refl fx
  dsimp only
  split
  · exact .refl fx
  · exact winAccess_lockKept ..

theorem sbWrite_lockKept (fx : Fixed) (site : Byte) (rsvd : BitVec 4) (off : BitVec 16) (data : W32) (m : Mach) :
    LockKept fx (sbWrite fx site rsvd off data m).1 := by
  rw [sbWrite]
  split
  · exact .refl fx
  dsimp only
  split
  · exact .refl fx
  · exact winAccess_lockKept ..

theorem windowPacket_lockKept (fx : Fixed) (stop : Stop) (peer : BitVec 16) (env : BitVec 44) (w0 w1 : W64) (m : Mach) :
    LockKept fx (windowPacket fx stop peer env w0 w1 m).1 := by
  rw [windowPacket]
  cases peerPath peer with
  | none => exact .refl fx
  | some p =>
    dsimp only
    split
    · exact .refl fx
    split
    · exact .refl fx
    split
    · exact .refl fx
    · exact winAccess_lockKept ..

theorem winWrite_lockKept (fx : Fixed) (p : Path) (eight : Bool) (off : Nat) (data : W64) (m : Mach) :
    LockKept fx (winWrite fx p eight off data m).1 := winAccess_lockKept ..

theorem pathWrite_lockKept (fx : Fixed) (p : Path) (eight : Bool) (off : Nat) (data : W64) (m : Mach) :
    LockKept fx (pathWrite fx p eight off data m).1 := by
  rw [pathWrite]
  split
  · exact (winWrite_lockKept ..).trans (winWrite_lockKept ..)
  · exact winWrite_lockKept ..

/-! ### A step -/

/-- Every row but COLD_RST_ASSERT keeps the lock: a warm reset leaves the fixed part alone, the rows that reach the control window
write it by R13, and every other row, with a control cycle or without, acts on the block alone. -/
theorem exec_lockKept {c : Instr} {s t : State} (hc : c ≠ .coldRstAssert) (h : exec c s = .next t) : LockKept s.fx t.fx := by
  cases c <;> rw [exec] at h
  case coldRstAssert => exact absurd rfl hc
  case warmRstAssert =>
    cases h
    exact .refl s.fx
  case sbRead => exact act_lockKept h (sbRead_lockKept ..)
  case sbWrite => exact act_lockKept h (sbWrite_lockKept ..)
  case windowAccess => exact act_lockKept h (windowPacket_lockKept ..)
  case registerWrite => exact act_lockKept h (winWrite_lockKept ..)
  case sliceIdWrite path mask data =>
    cases mask with
    | none => exact act_lockKept h (pathWrite_lockKept ..)
    | some n => exact act_lockKept h (pathWrite_lockKept ..)
  case cmdqCtlWrite | cmdqTailWrite | rplqHeadWrite | evqCtlWrite | evqHeadWrite | recovCtlHwfence | dbgPeekAddrWrite | pmcRdWrite |
      redCtlWrite | krtWrite | bootCtlWrite | hcAgentWrite => exact act_lockKept h (pathWrite_lockKept ..)
  case firmwareLoadTimeout | towlineForwardRetry | hopTimeout | waitTimeout | snoopTimeout | pilotLeaseExpiry | quarantineTimeout |
      sweepNoticeTimeout | jamEdgeExport | effWindowEnd | seasonWindowEnd | quiesceTimeout | dumpDue | viewRecordWrite |
      confidentialLatch | pmTlmWindowEnd | fwStageTimeout | fwActivateTimeout | pinPressureWindowEnd | teardownHoldExpiry |
      syncIndexHoldExpiry | hwFencePowerOff =>
    exact actAt_lockKept h
  all_goals exact actM_lockKept h

/-- A cold reset clears the level and the lock together. -/
theorem exec_coldRstAssert_unlocked {s t : State} (h : exec .coldRstAssert s = .next t) : t.fx.level = none ∧ t.fx.roLocked = false := by
  cases h
  exact ⟨rfl, rfl⟩

/-- Settles O11: the reset state has neither. -/
theorem resetLevelAndLock : Obligations.ResetLevelAndLock := ⟨rfl, rfl⟩

/-- Settles O9: the step takes the row at the front of the queue, and every row but the cold reset keeps the lock. -/
theorem lockedFieldsStay : Obligations.LockedFieldsStay := by
  intro s t c rest hp hc hr hl h
  rw [step, hp] at h
  exact (exec_lockKept hc h).frozen hr hl

/-- Settles O10, by the row at the front of the queue: a cold reset clears both, and every other row keeps their agreement. -/
theorem levelAndLockAgree : Obligations.LevelAndLockAgree := by
  intro s t e h
  cases hp : s.pending with
  | nil =>
    rw [step, hp] at h
    cases h
    exact e
  | cons c rest =>
    rw [step, hp] at h
    by_cases hc : c = .coldRstAssert
    · obtain ⟨hl, hr⟩ := exec_coldRstAssert_unlocked (hc ▸ h)
      rw [hl, hr]
      rfl
    · exact (exec_lockKept hc h).agree e

end Sys2Proof.Machine
end

section
/-! SUPPORT. The key bus (02_boundary.md R57, R58; 14_confidential_operation.md R365, R372 to R375): what the answer to a request for key
material does, by the command that waits for it, and that nothing is left to go on. -/

namespace Sys2Proof.Machine

/-! ### What a block at rest keeps -/

@[simp] theorem emit_keys (o : Out) (m : Mach) : (emit o m).keys = m.keys := by
  obtain ⟨l, h⟩ := emit_frame o m
  rw [h]

@[simp] theorem emit_running (o : Out) (m : Mach) : (emit o m).cmds.running = m.cmds.running := by
  obtain ⟨l, h⟩ := emit_frame o m
  rw [h]

@[simp] theorem logErr_running (fx : Fixed) (cls at_ loc : Nat) (m : Mach) : (logErr fx cls at_ loc m).cmds.running = m.cmds.running := by
  obtain ⟨e, p, q, l, h⟩ := logErr_frame fx cls at_ loc m
  rw [h]

/-- A domain that a step needs is found in its season, kept awake or asked for: of the block the seasons alone change. -/
theorem needDom_frame (i : Nat) (m : Mach) : ∃ x, (needDom i m).1 = { m with season := x } := by
  have stay : ∀ (j : Nat) (n : Mach), (∃ x, n = { m with season := x }) →
      ∃ x, (if (dom n j).entering = some .winter then setDom j { dom n j with entering := none } n else n) = { m with season := x } := by
    rintro j n ⟨x, rfl⟩
    split
    · exact ⟨_, rfl⟩
    · exact ⟨x, rfl⟩
  have up : ∃ x, stayUp i m = { m with season := x } := by
    simp only [stayUp]
    cases twinOf i with
    | none => exact stay i m ⟨m.season, rfl⟩
    | some j => exact stay i _ (stay j m ⟨m.season, rfl⟩)
  rw [needDom]
  split
  · exact ⟨m.season, rfl⟩
  split
  · split
    · obtain ⟨x, h⟩ := up
      exact ⟨_, by rw [h]; rfl⟩
    · exact ⟨_, rfl⟩
  split
  · exact ⟨m.season, rfl⟩
  · rw [queueThaw]
    split
    · exact ⟨m.season, rfl⟩
    · exact ⟨_, rfl⟩

/-- A request is answered in the commands that wait as it was asked in them. -/
theorem kreqRun_congr {m n : Mach} (q : KReq) (h : n.cmds.running = m.cmds.running) : kreqRun n q = kreqRun m q := by
  rw [kreqRun, kreqRun, h]

/-- A sweep that has lines left to pass waits for its own row. -/
theorem resting_addRot {r : Rot} {m : Mach} (h : resting m = true) (hr : (nextRun r.runs).isSome = true) :
    resting { m with keys := { m.keys with rots := m.keys.rots ++ [r] } } = true := by
  obtain ⟨k, l, w⟩ := (resting_iff m).mp h
  refine (resting_iff _).mpr ⟨⟨k.1, k.2, k.3, k.4, k.5, k.6, k.7, k.8, k.9, k.10, k.11, k.12, k.13, k.14, k.15, k.16, k.17, fun x hx => ?_,
    k.19, k.20, k.21, k.22, k.23⟩, l, w⟩
  rcases List.mem_append.mp hx with hx | hx
  · exact k.rots x hx
  · rw [List.mem_singleton.mp hx]
    exact hr

/-! ### KLOAD -/

theorem keyBusUp_on {m : Mach} (h : keyBusUp m = true) : m.life.st ≠ .off := by
  intro e
  simp [keyBusUp, e] at h

/-- A KLOAD in power does what the arrival of its key does. -/
theorem exec_kload {s : State} {k : BitVec 9} {g : Bool} {n : BitVec 16} {a b t : BitVec 256} {w : W64} {x y : Bool} {m : Mach}
    (up : keyBusUp s.m = true) (e : kloadArrive s.fx k g n ⟨a, b, t, w⟩ (x && y) s.m = m) (h : resting m = true) :
    exec (.kload k g n a b t w x y) s = .next (s.put m) := by
  rw [row_kload]
  exact actM_rest (by rw [if_pos up]; exact e) h

/-- Key material that no outstanding request asked for is rejected. -/
theorem kloadArrive_unasked {fx : Fixed} {k : BitVec 9} {g : Bool} {n : BitVec 16} {key : KeyMat} {ok : Bool} {m : Mach}
    (on : m.life.st ≠ .off) (hq : m.keys.reqs.find? (·.num = n) = none) :
    kloadArrive fx k g n key ok m = emit (.kackRejected n) m := by
  rw [kloadArrive, if_neg on, hq]

/-- Key material whose parity, check word, slot or generation is wrong is rejected, and its request fails. -/
theorem kloadArrive_bad {fx : Fixed} {k : BitVec 9} {g : Bool} {n : BitVec 16} {key : KeyMat} {ok : Bool} {m : Mach} {q : KReq}
    (on : m.life.st ≠ .off) (hq : m.keys.reqs.find? (·.num = n) = some q) (bad : ok = false ∨ q.slot ≠ k ∨ q.gen ≠ g) :
    kloadArrive fx k g n key ok m = kreqFails fx q (emit (.kackRejected n) m) := by
  have e : (!ok || decide (q.slot ≠ k) || decide (q.gen ≠ g)) = true := by simpa [or_assoc] using bad
  rw [kloadArrive, if_neg on, hq]
  exact if_pos e

/-- Key material that is right goes to the command that asked for it, the cipher's domain being awake or asked for. -/
theorem kloadArrive_good {fx : Fixed} {k : BitVec 9} {g : Bool} {n : BitVec 16} {key : KeyMat} {ok : Bool} {m : Mach} {q : KReq} {run : Run}
    (on : m.life.st ≠ .off) (hq : m.keys.reqs.find? (·.num = n) = some q) (good : ¬ (ok = false ∨ q.slot ≠ k ∨ q.gen ≠ g))
    (hr : kreqRun m q = some run) :
    kloadArrive fx k g n key ok m = keyGranted fx run q key (dropKreq n (needDom dCipher m).1) := by
  have e : ¬ (!ok || decide (q.slot ≠ k) || decide (q.gen ≠ g)) = true := by simpa [or_assoc] using good
  obtain ⟨x, hx⟩ := needDom_frame dCipher m
  have hr' : kreqRun (dropKreq n (needDom dCipher m).1) q = some run := by rw [hx, ← hr]; rfl
  rw [kloadArrive, if_neg on, hq]
  dsimp only
  rw [if_neg e, hr']

/-- A request that has failed less than twice is sent again. -/
theorem kreqFails_again {fx : Fixed} {q : KReq} {m : Mach} (h : q.fails < 2) :
    kreqFails fx q m = sendKreq { q with fails := q.fails + 1 }
      { m with keys := { m.keys with reqs := m.keys.reqs.map fun o => if o.num = q.num then { q with fails := q.fails + 1 } else o } } :=
  if_pos h

/-- The third failure is logged and ends the command that asked. -/
theorem kreqFails_last {fx : Fixed} {q : KReq} {m : Mach} {run : Run} (h : 2 ≤ q.fails) (hr : kreqRun m q = some run) :
    kreqFails fx q m = complete fx run.cmd csBusy [] (logErr fx 0x38 0 (locO 7 q.slot.toNat) (dropKreq q.num m)) := by
  have hr' : kreqRun (logErr fx 0x38 0 (locO 7 q.slot.toNat) (dropKreq q.num m)) q = some run := by
    rw [← hr]
    exact kreqRun_congr q (logErr_running ..)
  rw [kreqFails, if_neg (by omega)]
  simp only [hr']

/-! ### The command that asked is granted its key -/

/-- The block as CTX_OPEN leaves it before it completes (14 R365): a slot that held nothing holds the key, and the context is open. -/
def keyOpened (c : Rec) (q : KReq) (key : KeyMat) (m : Mach) : Mach :=
  openCtx c (markErased q.slot false false
    (setSlot q.slot { KeySlot.free with kind := 1, v0 := true, owner := q.ctx, ogen := q.cgen, g0 := key } m))

/-- The slot's generation that KEY_ROTATE asked for holds the key and is current (14 R372). -/
def keyTurned (q : KReq) (key : KeyMat) (m : Mach) : Mach :=
  markErased q.slot q.gen false (setSlot q.slot { putGen q.gen key (kslot m q.slot) with cur := q.gen, sweep := true } m)

/-- The block as KEY_ROTATE leaves it before it completes: its sweep has all the slot's lines before it. -/
def keyRotated (c : Rec) (q : KReq) (key : KeyMat) (m : Mach) : Mach :=
  let t := keyTurned q key m
  { t with keys := { t.keys with rots := t.keys.rots ++ [⟨q.slot, BitVec.ofNat 16 (fld c.pkt.p0 31 16), slotRuns t q.slot, false⟩] } }

/-- The block as KEY_BIND of an empty slot leaves it before it completes (14 R375). -/
def keyBound (c : Rec) (q : KReq) (key : KeyMat) (m : Mach) : Mach :=
  putGrant q.slot q.ctx (cFlag c 1)
    (markErased q.slot false false (setSlot q.slot { KeySlot.free with kind := 2, v0 := true, bindh := q.bindh, g0 := key } m))

theorem keyGranted_open {fx : Fixed} {run : Run} {q : KReq} {key : KeyMat} {m : Mach} (op : run.cmd.opcode = 0x10)
    (empty : slotHolds (kslot m q.slot) = false) (h : resting (keyOpened run.cmd q key m) = true) :
    keyGranted fx run q key m = complete fx run.cmd csDone [] (keyOpened run.cmd q key m) := by
  have e : keyGranted fx run q key m = complete fx run.cmd csDone [] (pump fx (keyOpened run.cmd q key m)) := by
    rw [keyGranted, if_pos op, empty, if_neg Bool.false_ne_true, keyOpened]
  rw [e, pump_rest h]

theorem resting_keyRotated {c : Rec} {q : KReq} {key : KeyMat} {m : Mach} (h : resting m = true)
    (hs : (nextRun (slotRuns (keyTurned q key m) q.slot)).isSome = true) : resting (keyRotated c q key m) = true :=
  resting_addRot (m := keyTurned q key m) h hs

theorem keyGranted_rotate {fx : Fixed} {run : Run} {q : KReq} {key : KeyMat} {m : Mach} (op : run.cmd.opcode = 0x81)
    (h : resting (keyRotated run.cmd q key m) = true) :
    keyGranted fx run q key m = complete fx run.cmd csDone [] (keyRotated run.cmd q key m) := by
  have other : ¬ run.cmd.opcode = 0x10 := by rw [op]; decide
  have e : keyGranted fx run q key m = complete fx run.cmd csDone [] (pump fx (keyRotated run.cmd q key m)) := by
    rw [keyGranted, if_neg other, if_pos op, keyRotated, keyTurned]
  rw [e, pump_rest h]

/-- A KEY_BIND, which asks for a grant in a table that may have filled meanwhile (14 R375). -/
theorem keyGranted_bind {fx : Fixed} {run : Run} {q : KReq} {key : KeyMat} {m : Mach} (op : run.cmd.opcode = 0x80) :
    keyGranted fx run q key m =
      if !grantRoom m q.slot q.ctx then complete fx run.cmd csNoSpace [] m
      else if (kslot m q.slot).kind = 2 && (kslot m q.slot).v0 then
        (if key.check = (kslot m q.slot).g0.check then complete fx run.cmd csDone [] (putGrant q.slot q.ctx (cFlag run.cmd 1) m)
         else complete fx run.cmd csDenied [] m)
      else complete fx run.cmd csDone [] (pump fx (keyBound run.cmd q key m)) := by
  have other : ¬ run.cmd.opcode = 0x10 := by rw [op]; decide
  have other' : ¬ run.cmd.opcode = 0x81 := by rw [op]; decide
  rw [keyGranted, if_neg other, if_neg other', keyBound]

theorem keyGranted_full {fx : Fixed} {run : Run} {q : KReq} {key : KeyMat} {m : Mach} (op : run.cmd.opcode = 0x80)
    (full : grantRoom m q.slot q.ctx = false) : keyGranted fx run q key m = complete fx run.cmd csNoSpace [] m := by
  rw [keyGranted_bind op, if_pos (by rw [full]; rfl)]

/-- A shared slot that holds a key: the check words decide. -/
theorem keyGranted_shared {fx : Fixed} {run : Run} {q : KReq} {key : KeyMat} {m : Mach} (op : run.cmd.opcode = 0x80)
    (room : grantRoom m q.slot q.ctx = true) (kind : (kslot m q.slot).kind = 2) (held : (kslot m q.slot).v0 = true) :
    keyGranted fx run q key m = if key.check = (kslot m q.slot).g0.check
      then complete fx run.cmd csDone [] (putGrant q.slot q.ctx (cFlag run.cmd 1) m) else complete fx run.cmd csDenied [] m := by
  rw [keyGranted_bind op, if_neg (by rw [room]; decide), if_pos (by rw [held, decide_eq_true kind]; rfl)]

theorem resting_keyBound {c : Rec} {q : KReq} {key : KeyMat} {m : Mach} (h : resting m = true) : resting (keyBound c q key m) = true := h

theorem resting_putGrant {k : BitVec 9} {c : Ctx} {load : Bool} {m : Mach} (h : resting m = true) : resting (putGrant k c load m) = true := h

/-- A slot that holds no shared key takes the key, and the grant is given. -/
theorem keyGranted_fill {fx : Fixed} {run : Run} {q : KReq} {key : KeyMat} {m : Mach} (op : run.cmd.opcode = 0x80)
    (room : grantRoom m q.slot q.ctx = true) (free : (kslot m q.slot).kind ≠ 2 ∨ (kslot m q.slot).v0 = false) (h : resting m = true) :
    keyGranted fx run q key m = complete fx run.cmd csDone [] (keyBound run.cmd q key m) := by
  have free' : ¬ (decide ((kslot m q.slot).kind = 2) && (kslot m q.slot).v0) = true := by
    rw [Bool.and_eq_true, decide_eq_true_eq, not_and_or, Bool.not_eq_true]
    exact free
  rw [keyGranted_bind op, if_neg (by rw [room]; decide), if_neg free', pump_rest (resting_keyBound h)]

/-! ### KNACK, KERASE, and the end of a retirement -/

/-- A KNACK of a command's request refuses the command, with its reason. -/
theorem knackArrive_asked {fx : Fixed} {n : BitVec 16} {r : Byte} {m : Mach} {q : KReq} {run : Run}
    (hq : m.keys.reqs.find? (·.num = n) = some q) (hr : kreqRun m q = some run) :
    knackArrive fx n r m = complete fx run.cmd csDenied [r.zeroExtend 64] (dropKreq n m) := by
  have hr' : kreqRun (dropKreq n m) q = some run := hr
  rw [knackArrive, hq]
  simp only [hr']

/-- With one retirement in progress, whose last read is in, the row of its slot ends it. -/
theorem retireDrained_one {fx : Fixed} {k : BitVec 9} {c : Rec} {m : Mach} (h : m.cmds.running = [⟨c, .retire k []⟩]) :
    retireDrained fx k m = finishRetire fx c k m := by
  rw [retireDrained, h]
  simp only [List.foldl_cons, List.foldl_nil, if_true]

theorem resting_finishRetire {fx : Fixed} {c : Rec} {k : BitVec 9} {m : Mach} (hb : byRing c.pkt = false) (h : resting m = true) :
    resting (finishRetire fx c k m) = true := resting_complete hb (resting_emit h)

/-! ### The sweep of a rotation -/

/-- A rotation sweep's step passes the next line of the first sweep, or leaves it next. -/
theorem rotStep_first {fx : Fixed} {m : Mach} {r : Rot} {rest : List Rot} {l : LineNo} {runs : List (Nat × Nat)} (hr : m.keys.rots = r :: rest)
    (run : scrubsRun m = true) (hn : nextRun r.runs = some (l, runs)) :
    let x := sweepLine fx (whoRot r.slot.toNat) l r.snooped { m with keys := { m.keys with rots := rest } }
    rotStep fx m = { x.1 with keys := { x.1.keys with rots := x.1.keys.rots ++
      [if x.2.1 then { r with runs := runs, snooped := false } else { r with snooped := x.2.2 }] } } := by
  simp only [rotStep, hr, run, hn, Bool.not_true, Bool.false_eq_true, if_false]

/-- With no sweep on, or with no scrubs running, it changes nothing. -/
theorem rotStep_still {fx : Fixed} {m : Mach} (h : m.keys.rots = [] ∨ scrubsRun m = false) : rotStep fx m = m := by
  rw [rotStep]
  split
  · rfl
  · rename_i r rest hr
    rcases h with h | h
    · rw [h] at hr; cases hr
    · rw [h]; rfl

/-! ### The obligation -/

/-- An accepted KLOAD ends the command that asked as its key is granted. -/
theorem exec_kload_granted {s : State} {k : BitVec 9} {g : Bool} {n : BitVec 16} {a b t : BitVec 256} {w : W64} {x y : Bool} {m : Mach} {q : KReq}
    {run : Run} {st : Nat} (up : keyBusUp s.m = true) (hq : s.m.keys.reqs.find? (·.num = n) = some q)
    (good : ¬ ((x && y) = false ∨ q.slot ≠ k ∨ q.gen ≠ g)) (hr : kreqRun s.m q = some run) (ring : byRing run.cmd.pkt = false)
    (e : keyGranted s.fx run q ⟨a, b, t, w⟩ (dropKreq n (needDom dCipher s.m).1) = complete s.fx run.cmd st [] m) (h : resting m = true) :
    exec (.kload k g n a b t w x y) s = .next (s.put (complete s.fx run.cmd st [] m)) :=
  exec_kload up ((kloadArrive_good (keyBusUp_on up) hq good hr).trans e) (resting_complete ring h)

/-- With the bus out of power nothing that comes by it is taken. -/
theorem keyBus_down {s : State} {i : Instr} {f : Fixed → Mach → Mach} (row : exec i s = actM s fun fx m => if keyBusUp m then f fx m else m)
    (h : resting s.m = true) (down : keyBusUp s.m = false) : exec i s = .next s :=
  row.trans (actM_rest (if_neg (by rw [down]; decide)) h)

/-- Settles O28, row by row: a KLOAD by its request and by the command that asked, then KNACK, KERASE, the end of a retirement, and the
sweep's step. -/
theorem keyBusRows : Obligations.KeyBusRows := by
  intro s h m
  refine ⟨fun down k g n a b t w x y r l =>
      ⟨keyBus_down (row_kload ..) h down, keyBus_down (row_knack ..) h down, keyBus_down (row_kerase ..) h down⟩,
    fun up => ⟨fun k g n a b t w x y => ⟨fun hq => ?unasked, fun q hq => ?asked⟩,
      fun n r => ⟨fun hq => ?knackUnasked, fun q run hq hr ring => ?knack⟩, fun k l => ⟨fun hl => ?keraseNothing, fun hl => ?kerase⟩⟩,
    fun k c hc ring => ?retired, fun hn => ?noSweep, fun r rest l runs hr run hn => ?sweep⟩
  case unasked => exact exec_kload up (kloadArrive_unasked (keyBusUp_on up) hq) (resting_emit h)
  case asked =>
    intro bad took z
    refine ⟨fun hb hf => ?again, fun run hr ring => ⟨fun hb hf => ?last, fun good rest op empty ht => ?opens, fun good rest op hn => ?rotate,
      fun good rest op => ⟨fun full => ?full, fun room => ⟨fun kind held ne => ?differ, fun kind held eq => ?agree, fun free => ?fill⟩⟩⟩⟩
    case again =>
      refine exec_kload up ?_ (resting_sendKreq (resting_emit h))
      rw [kloadArrive_bad (keyBusUp_on up) hq hb, kreqFails_again hf, emit_keys]
    case last =>
      refine exec_kload up ?_ (resting_complete ring (resting_logErr (resting_emit h)))
      rw [kloadArrive_bad (keyBusUp_on up) hq hb, kreqFails_last hf ((kreqRun_congr q (emit_running ..)).trans hr)]
    all_goals
      obtain rfl : q.slot = k := not_not.mp fun e => good (.inr (.inl e))
      obtain rfl : q.gen = g := not_not.mp fun e => good (.inr (.inr e))
    case opens => exact exec_kload_granted up hq good hr ring (keyGranted_open op empty ht) ht
    case rotate =>
      have ht := resting_keyRotated (c := run.cmd) rest hn
      exact exec_kload_granted up hq good hr ring (keyGranted_rotate op ht) ht
    case full => exact exec_kload_granted up hq good hr ring (keyGranted_full op full) rest
    case differ => exact exec_kload_granted up hq good hr ring ((keyGranted_shared op room kind held).trans (if_neg ne)) rest
    case agree =>
      have e := (keyGranted_shared (fx := s.fx) (key := ⟨a, b, t, w⟩) op room kind held).trans (if_pos eq)
      exact exec_kload_granted up hq good hr ring e (resting_putGrant rest)
    case fill => exact exec_kload_granted up hq good hr ring (keyGranted_fill op room free rest) (resting_keyBound rest)
  case knackUnasked =>
    rw [row_knack]
    exact actM_rest (by rw [if_pos up, knackArrive, hq]) h
  case knack =>
    rw [row_knack]
    exact actM_rest (by rw [if_pos up]; exact knackArrive_asked hq hr) (resting_complete ring h)
  case keraseNothing =>
    rw [row_kerase]
    exact actM_rest (by rw [if_pos up, kerase, if_neg (keyBusUp_on up), if_pos hl]) (resting_emit h)
  case kerase =>
    obtain ⟨rest, erased⟩ := eraseSlot_rest s.fx k (l.getLsbD 0) (l.getLsbD 1) s.m h
    rw [row_kerase]
    exact ⟨actM_rest (by rw [if_pos up, kerase, if_neg (keyBusUp_on up), if_neg hl]) rest, erased⟩
  case retired =>
    rw [row_keyRetireReadsDrained]
    exact actM_rest (retireDrained_one hc) (resting_finishRetire ring h)
  case noSweep =>
    rw [row_rotationSweepStep]
    exact actM_rest (rotStep_still hn) h
  case sweep =>
    rw [row_rotationSweepStep]
    exact actM_goes (rotStep_first hr run hn)

end Sys2Proof.Machine
end

section
/-! SUPPORT. The pins, the resets, the phases of start-up and the test registers (02_boundary.md R56, R61 to R64;
17_startup_and_levels.md R440 to R448): what each row makes of a block at rest, and that nothing is left to go on. -/

namespace Sys2Proof.Machine

/-! ### What a block at rest keeps -/

/-- The slice's own state, its pins and its start-up play no part in what can go on; a chosen level would. -/
theorem resting_life {m : Mach} {l : Life} (h : resting m = true) (k : l.lockTo = m.life.lockTo) : resting { m with life := l } = true := by
  obtain ⟨c, lock, w⟩ := (resting_iff m).mp h
  exact (resting_iff _).mpr ⟨⟨c.1, c.2, c.3, c.4, c.5, c.6, c.7, c.8, c.9, c.10, c.11, c.12, c.13, c.14, c.15, c.16, c.17, c.18, c.19, c.20,
    c.21, c.22, c.23⟩, k.trans lock, w⟩

/-- Nor do the firmware banks. -/
theorem resting_fw {m : Mach} {f : FwSt} (h : resting m = true) : resting { m with fw := f } = true := h

/-- With the key table gone no rotation sweeps. -/
theorem resting_loseKeys {m : Mach} (h : resting m = true) : resting (loseKeys m) = true := by
  obtain ⟨c, lock, w⟩ := (resting_iff m).mp h
  exact (resting_iff _).mpr ⟨⟨c.1, c.2, c.3, c.4, c.5, c.6, c.7, c.8, c.9, c.10, c.11, c.12, c.13, c.14, c.15, c.16, c.17,
    fun r hr => absurd hr List.not_mem_nil, c.19, c.20, c.21, c.22, c.23⟩, lock, w⟩

/-- What a command in progress waits for depends on the block for a sweep alone. -/
theorem runRests_of_noSweep (m n : Mach) {p : Prog} (h : isSweepRun p = false) : runRests m p = runRests n p := by
  cases p with
  | sweepRun todo sent acked lost before => cases h
  | stage b lines got asked since => cases asked <;> rfl
  | activate b held since => cases held <;> rfl
  | _ => rfl

/-! ### The supply and the release of the resets -/

/-- The supply is removed, and with it what the switched domains hold (02 R56). -/
theorem dropSupply_keeps (b : Bool) (m : Mach) :
    (dropSupply b m).life = { m.life with vddSw := false } ∧ (dropSupply b m).cache.tags = [] ∧ (dropSupply b m).cache.data = [] ∧
    (dropSupply b m).dir.ents = [] ∧ (dropSupply b m).red.acc = [] ∧ (b = false → (dropSupply b m).keys = m.keys) ∧
    (b = true → (dropSupply b m).keys.slots = [] ∧ (dropSupply b m).keys.grants = []) ∧ (dropSupply b m).pmc = m.pmc ∧
    (dropSupply b m).regs = m.regs ∧ (dropSupply b m).ctxs = m.ctxs := by
  cases b <;> simp [dropSupply, loseKeys]

theorem resting_dropSupply {b : Bool} {m : Mach} (h : resting m = true) : resting (dropSupply b m) = true := by
  have kept : ∀ n, resting n = true → resting { n with
      life := { n.life with vddSw := false }
      cache := { n.cache with
        tags := [], data := [], sets := n.cache.sets.map (fun x => (x.1, { x.2 with plru := 0, pin := 0 })) |>.filter (fun x => x.2 ≠ ⟨0, 0, 0⟩)
        errs := .none }
      dir := { n.dir with ents := [] }
      red := { n.red with acc := [] } } = true := fun n hn => hn
  cases b with
  | false => exact kept m h
  | true => exact kept _ (resting_loseKeys h)

theorem powerGood_released (m : Mach) : powerGood m =
    { m with life := { m.life with pwrOk := true, released := m.life.st = .off && !m.life.coldRst && !m.life.warmRst } } := by
  simp [powerGood, countRelease]

theorem releaseReset_released (m : Mach) : releaseReset m =
    { m with life := { m.life with coldRst := false, warmRst := false, vddSw := true, released := m.life.st = .off && m.life.pwrOk } } := by
  simp [releaseReset, countRelease]

/-- OFF is left for INIT once the release has been counted, and no scan is or was on (02 R62, 17 R448). -/
theorem leaveOff_counted {m : Mach} (r : m.life.released = true) (d : m.life.scanned = false) (e : m.life.scanEn = false) :
    leaveOff m = { m with life := { m.life with st := .init, phase := 0, released := false }, cyc := 16 } := by
  rw [leaveOff, if_pos (by simp [r, d, e])]

theorem leaveOff_held {m : Mach} (h : m.life.released = false ∨ m.life.scanned = true ∨ m.life.scanEn = true) : leaveOff m = m := by
  rw [leaveOff, if_neg]
  rcases h with h | h | h <;> simp [h]

/-! ### Firmware -/

/-- Beats written change the firmware's banks alone. -/
theorem putBeats_frame (b : Bool) (ws : List W64) : ∀ (i : Nat) (m : Mach), ∃ f, putBeats b i ws m = { m with fw := f } := by
  induction ws with
  | nil => exact fun i m => ⟨m.fw, rfl⟩
  | cons w t ih =>
    intro i m
    exact ih (i + 1) { m with fw := { m.fw with sram := tset 0 m.fw.sram (b2n b * 2 ^ 15 + i) w } }

/-- Where a FWLOAD may write: in INIT into bank A under request 0 while the image is awaited, later where a stage asked for it (log 26). -/
def loadDue (m : Mach) (n : BitVec 16) (b : Bool) : Bool :=
  if m.life.st = .init then decide (m.life.phase = 0) && decide (n = 0) && !b else decide ((stageOf m n).map (·.2) = some b)

theorem fwLoad_on {m : Mach} (n : BitVec 16) (b : Bool) (o : BitVec 18) (ws : List W64) (ok : Bool) (on : m.life.st ≠ .off) :
    fwLoad n b o ws ok m = if ok && loadDue m n b && decide (o.toNat / 8 + ws.length ≤ 24576) then putBeats b (o.toNat / 8) ws m
      else emit (.kackRejected n) m := by
  have due : (if m.life.st = .init then initLoads m && decide (n = 0) && !b && decide (o.toNat / 8 + ws.length ≤ 24576)
      else decide ((stageOf m n).map (·.2) = some b) && decide (o.toNat / 8 + ws.length ≤ 24576)) =
      (loadDue m n b && decide (o.toNat / 8 + ws.length ≤ 24576)) := by
    rw [loadDue]
    split
    · rename_i init
      rw [initLoads, init, decide_eq_true rfl, Bool.true_and]
    · rfl
  rw [fwLoad, if_neg on]
  dsimp only
  rw [due, Bool.and_assoc]

theorem resting_putBeats {b : Bool} {i : Nat} {ws : List W64} {m : Mach} (h : resting m = true) : resting (putBeats b i ws m) = true := by
  obtain ⟨f, e⟩ := putBeats_frame b ws i m
  rw [e]
  exact resting_fw h

/-- FWDONE with a bad beat. -/
theorem fwDone_bad {fx : Fixed} {n : BitVec 16} {r : Byte} {v : W32} {m : Mach} (on : m.life.st ≠ .off) :
    fwDone fx n r v false m = emit (.kackRejected n) m := by
  rw [fwDone, if_neg on]
  rfl

/-- FWDONE in INIT (17 R441): ignored where it is not awaited; else it ends phase 0, or fails start-up. -/
theorem fwDone_init {fx : Fixed} {n : BitVec 16} {r : Byte} {v : W32} {m : Mach} (init : m.life.st = .init) :
    fwDone fx n r v true m =
      if m.life.phase ≠ 0 ∨ n ≠ 0 then m
      else if r = 0 then { m with
        fw := { setBank false true v m.fw with okB := false, verB := 0, bankB := false }, life := { m.life with phase := 1, fwResult := 0 } }
      else { m with life := { m.life with phase := 7, fail := 1, fwResult := r } } := by
  simp [fwDone, init, initLoads]

/-- FWDONE later: nothing awaits it. -/
theorem fwDone_unasked {fx : Fixed} {n : BitVec 16} {r : Byte} {v : W32} {m : Mach} (on : m.life.st ≠ .off) (init : m.life.st ≠ .init)
    (h : stageOf m n = none) : fwDone fx n r v true m = m := by
  rw [fwDone, if_neg on, if_neg (by decide), if_neg init, h]

/-- FWDONE later (14 R390): the stage that awaits it completes. -/
theorem fwDone_stage {fx : Fixed} {n : BitVec 16} {r : Byte} {v : W32} {m : Mach} {run : Run} {b : Bool} (on : m.life.st ≠ .off)
    (init : m.life.st ≠ .init) (h : stageOf m n = some (run, b)) :
    fwDone fx n r v true m =
      if r = 0 then complete fx run.cmd csDone [v.zeroExtend 64] { m with fw := setBank b (decide (r = 0)) v m.fw }
      else complete fx run.cmd csWarn [r.zeroExtend 64, 0] { m with fw := setBank b (decide (r = 0)) v m.fw } := by
  rw [fwDone, if_neg on, if_neg (by decide), if_neg init, h]

/-! ### The phases -/

/-- A phase's row out of its phase. -/
theorem startController_other {m : Mach} (h : m.life.st ≠ .init ∨ m.life.phase ≠ 1) : startController m = m := by
  rw [startController, if_neg (by tauto)]

theorem runBist_other {f : BistFindings} {m : Mach} (h : m.life.st ≠ .selftest ∨ m.life.phase ≠ 2) : runBist f m = m := by
  rw [runBist, if_neg (by tauto)]

theorem loadRepairs_other {fx : Fixed} {m : Mach} (h : m.life.st ≠ .selftest ∨ m.life.phase ≠ 4) : loadRepairs fx m = m := by
  rw [loadRepairs, if_neg (by tauto)]

theorem invalidate_other {m : Mach} (h : m.life.st ≠ .selftest ∨ m.life.phase ≠ 5) : invalidate m = m := by
  rw [invalidate, if_neg (by tauto)]

/-- A march test that finds what cannot be repaired (17 R443). -/
theorem runBist_fails {f : BistFindings} {m : Mach} (st : m.life.st = .selftest) (ph : m.life.phase = 2) (bad : bistRepairable f = false) :
    runBist f m = { m with life := { m.life with
      bistRows := f.rows, bistBanks := f.banks, bistUnit := f.unit, st := .fenced, phase := 7, fail := 3 } } := by
  rw [runBist, if_pos ⟨st, ph⟩, bad, if_neg Bool.false_ne_true]

/-- One whose findings can be: phase 3 lasts while HOLD is set. -/
theorem runBist_passes {f : BistFindings} {m : Mach} (st : m.life.st = .selftest) (ph : m.life.phase = 2) (good : bistRepairable f = true) :
    runBist f m = { m with
      life := { m.life with bistRows := f.rows, bistBanks := f.banks, bistUnit := f.unit, phase := if m.life.hold then 3 else 4 }
      cache := { m.cache with spareBad := (List.range 4).filter fun q => 16 ∈ badBanks f q } } := by
  rw [runBist, if_pos ⟨st, ph⟩, good, if_pos rfl, endHold]
  cases hold : m.life.hold <;> simp [st, hold]

/-- A site whose column is failed is fenced (17 R442). -/
theorem loadRepairs_failed {fx : Fixed} {m : Mach} (st : m.life.st = .selftest) (ph : m.life.phase = 4) (bad : columnFailed fx m = true) :
    loadRepairs fx m = { m with life := { m.life with st := .fenced, phase := 7, fail := 4 } } := by
  rw [loadRepairs, if_pos ⟨st, ph⟩, if_pos bad]

/-- Any other is numbered and repaired, and phase 4 is over. -/
theorem loadRepairs_phase {fx : Fixed} {m : Mach} (st : m.life.st = .selftest) (ph : m.life.phase = 4) (good : columnFailed fx m = false) :
    (loadRepairs fx m).life.phase = 5 := by
  rw [loadRepairs, if_pos ⟨st, ph⟩, good, if_neg Bool.false_ne_true]

/-- Phase 5 (04 R141): the slice is READY, the cache, the directory and the accumulators are empty, and the data banks are kept. -/
theorem invalidate_clears {m : Mach} (st : m.life.st = .selftest) (ph : m.life.phase = 5) :
    (invalidate m).life = { m.life with st := .ready, phase := 6 } ∧ (invalidate m).cache.tags = [] ∧
    (invalidate m).cache.data = m.cache.data ∧ (invalidate m).dir.ents = [] ∧ (invalidate m).dir.snoops = [] ∧ (invalidate m).red.acc = [] ∧
    (invalidate m).regs = m.regs ∧ (invalidate m).keys = m.keys := by
  rw [invalidate, if_pos ⟨st, ph⟩]
  exact ⟨rfl, rfl, rfl, rfl, rfl, rfl, rfl, rfl⟩

/-- No access is left, and no command waits for one but a sweep. -/
theorem resting_invalidate {m : Mach} (h : resting m = true) (ns : m.cmds.running.any (fun r => isSweepRun r.prog) = false) :
    resting (invalidate m) = true := by
  obtain ⟨c, lock, w⟩ := (resting_iff m).mp h
  rw [invalidate]
  split
  · refine (resting_iff _).mpr ⟨⟨rfl, rfl, rfl, rfl, fun _ ht => absurd ht List.not_mem_nil, fun _ hw => absurd hw List.not_mem_nil, c.7,
      c.8, ⟨rfl, rfl⟩, fun r hr => ?_, c.11, c.12, c.13, c.14, c.15, c.16,
      c.17, c.18, c.19, c.20, c.21, c.22, c.23⟩, lock, w⟩
    have hs : isSweepRun r.prog = false := by simpa using List.any_eq_false.mp ns r hr
    exact (runRests_of_noSweep _ m hs).trans (c.runs r hr)
  · exact h

/-! ### The test registers -/

theorem resting_setScan {b : Bool} {m : Mach} (h : resting m = true) : resting (setScan b m) = true := by
  rw [setScan]
  split
  · cases b with
    | false => exact resting_life h rfl
    | true => exact resting_life (resting_loseKeys h) rfl
  · exact h

/-- A scan chain is shifted: its bits leave, and nothing can go on that could not before. -/
theorem resting_shiftChain {bs : List Bool} {m : Mach} (h : resting m = true) : resting (shiftChain bs m) = true := by
  rw [shiftChain]
  split
  · dsimp only
    split
    · exact resting_emit h
    · exact resting_life (resting_emit h) rfl
  · exact h

theorem shiftChain_none {m : Mach} (en : m.life.scanEn = true) (free : confPresent m = false) :
    shiftChain [] m = emit (.scan []) m := by
  rw [shiftChain, if_pos (by rw [en, free]; rfl)]
  rfl

@[simp] theorem emit_freeN (o : Out) (m : Mach) : (emit o m).freeN = m.freeN := by
  obtain ⟨l, e⟩ := emit_frame o m
  rw [e]

theorem shiftChain_some {bs : List Bool} {m : Mach} (en : m.life.scanEn = true) (free : confPresent m = false) (bits : bs ≠ []) :
    let t := emit (.scan ((List.range bs.length).map fun i => Config.freeBit (m.freeN + i))) m
    shiftChain bs m = { t with
      life := { t.life with scanned := true, bistCtl := (Config.freeWord (m.freeN + bs.length)).extractLsb' 0 32 }
      freeN := m.freeN + bs.length + 1 } := by
  intro t
  have e : t.freeN = m.freeN := emit_freeN ..
  rw [shiftChain, if_pos (by rw [en, free]; rfl)]
  dsimp only
  rw [if_neg (by simpa using bits)]
  simp only [emit_freeN, t]

theorem shiftChain_off {bs : List Bool} {m : Mach} (h : m.life.scanEn = false ∨ confPresent m = true) : shiftChain bs m = m := by
  rw [shiftChain, if_neg]
  rcases h with h | h <;> simp [h]

theorem setScan_off {b : Bool} {m : Mach} (h : (m.life.coldRst || m.life.warmRst) = false ∨ confPresent m = true) : setScan b m = m := by
  rw [setScan, if_neg]
  rcases h with h | h <;> simp [h]

theorem setScan_on {b : Bool} {m : Mach} (rst : (m.life.coldRst || m.life.warmRst) = true) (free : confPresent m = false) :
    setScan b m = { (if b then loseKeys m else m) with life := { m.life with scanEn := b } } := by
  rw [setScan, if_pos (by rw [rst, free]; rfl)]
  cases b <;> rfl

/-! ### The obligation -/

/-- Settles O32, row by row in the order of the statement: the resets act at once, and every other row leaves a block at rest. -/
theorem powerAndStartupRows : Obligations.PowerAndStartupRows := by
  intro s keepsReset
  refine ⟨⟨_, rfl, rfl, rfl, rfl, rfl, rfl, rfl, rfl, rfl, rfl⟩, fun run => ⟨_, row_warmRstAssert s, ?warm, rfl, rfl⟩,
    fun held => ?warmHeld, fun h => ?_⟩
  case warm =>
    show warmReset s.m = _
    rw [warmReset, if_neg (by rw [run]; decide)]
    rfl
  case warmHeld =>
    rw [row_warmRstAssert, warmReset, if_pos held]
  intro m l
  refine ⟨?pwrOk, ?release, fun r d e => ?leave, fun no => ?stay, fun b => ?iso, fun b => ?supply, fun n b o ws ok => ?fwload, fun n r v => ?fwdone,
    fun cyc => ?late, fun st ph => ?start, fun no => ?noStart, fun f => ⟨fun no => ?noBist, fun st ph bad => ?bistFails, fun st ph good => ?bist⟩,
    fun no => ?noRepair, fun st ph bad => ?failed, fun st ph good => ?repair, fun no => ?noInvalidate, fun st ph ns => ?invalidate,
    fun v => ?fuses, fun v f => ?bistCtl, fun b => ⟨fun no => ?noScanEn, fun rst free => ?scanEn⟩,
    fun k bs => ⟨fun no => ?noScan, fun en free => ⟨fun empty => ?scanNone, fun bits => ?scan⟩⟩, ?alive, ?stops⟩
  case pwrOk =>
    rw [row_pwrOkRise]
    exact actM_rest (powerGood_released m) (resting_life h rfl)
  case release =>
    rw [row_resetRelease]
    exact actM_rest (releaseReset_released m) (resting_life h rfl)
  case leave =>
    rw [row_leaveOffForInit]
    exact actM_rest (leaveOff_counted r d e) (resting_life (m := { m with cyc := 16 }) h rfl)
  case stay =>
    rw [row_leaveOffForInit]
    exact actM_rest (leaveOff_held no) h
  case iso =>
    rw [row_isoNChange]
    exact actM_rest rfl (resting_life h rfl)
  case supply =>
    rw [row_vddSwRemoval]
    exact ⟨_, actM_rest rfl (resting_dropSupply h), dropSupply_keeps b m⟩
  case fwload =>
    intro fits due
    rw [row_fwload]
    refine ⟨fun off => actM_rest (if_pos off) h, fun on good => actM_rest ?_ (resting_putBeats h), fun on bad => actM_rest ?_ (resting_emit h)⟩
    · exact (fwLoad_on n b o ws ok on).trans (if_pos good)
    · exact (fwLoad_on n b o ws ok on).trans (if_neg (by rw [← Bool.not_eq_false, not_not]; exact bad))
  case fwdone =>
    simp only [row_fwdone]
    refine ⟨fun ok off => actM_rest (if_pos off) h, fun on => actM_rest (fwDone_bad on) (resting_emit h), fun init no => ?_,
      fun init ph hn hr => ?_, fun init ph hn hr => ?_, fun on init unasked => actM_rest (fwDone_unasked on init unasked) h,
      fun run b on init asked ring => ⟨fun hr => ?_, fun hr => ?_⟩⟩
    · exact actM_rest ((fwDone_init init).trans (if_pos no)) h
    · have due : ¬ (l.phase ≠ 0 ∨ n ≠ 0) := fun no => no.elim (· ph) (· hn)
      exact actM_rest ((fwDone_init init).trans ((if_neg due).trans (if_pos hr))) (resting_life (resting_fw h) rfl)
    · have due : ¬ (l.phase ≠ 0 ∨ n ≠ 0) := fun no => no.elim (· ph) (· hn)
      exact actM_rest ((fwDone_init init).trans ((if_neg due).trans (if_neg hr))) (resting_life h rfl)
    · exact actM_rest ((fwDone_stage on init asked).trans (if_pos hr)) (resting_complete ring (resting_fw h))
    · exact actM_rest ((fwDone_stage on init asked).trans (if_neg hr)) (resting_complete ring (resting_fw h))
  case late =>
    intro n
    have rest : resting n = true := resting_advance h
    rw [row_firmwareLoadTimeout]
    refine ⟨fun due => actAt_rest (if_pos due) (resting_life rest rfl), fun no => actAt_rest (if_neg ?_) rest⟩
    rw [no]
    decide
  case start =>
    rw [row_controllerStart]
    exact actM_rest (if_pos ⟨st, ph⟩) (resting_life h rfl)
  case noStart =>
    rw [row_controllerStart]
    exact actM_rest (startController_other no) h
  case noBist =>
    rw [row_arrayBist]
    exact actM_rest (runBist_other no) h
  case bistFails =>
    rw [row_arrayBist]
    exact actM_rest (runBist_fails st ph bad) (resting_life h rfl)
  case bist =>
    rw [row_arrayBist]
    exact actM_rest (runBist_passes st ph good) (resting_life (m := { m with cache := _ }) h rfl)
  case noRepair =>
    rw [row_repairLoad]
    exact actM_rest (loadRepairs_other no) h
  case failed =>
    rw [row_repairLoad]
    exact actM_rest (loadRepairs_failed st ph bad) (resting_life h rfl)
  case repair =>
    rw [row_repairLoad]
    exact ⟨loadRepairs_phase st ph good, actM_goes rfl⟩
  case noInvalidate =>
    rw [row_hardwareInvalidate]
    exact actM_rest (invalidate_other no) h
  case invalidate =>
    rw [row_hardwareInvalidate]
    exact ⟨_, actM_rest rfl (resting_invalidate h ns), invalidate_clears st ph⟩
  case fuses =>
    rw [row_tapFuseRepairShift]
    refine actM_rest rfl ?_
    split
    · exact resting_life h rfl
    · exact h
  case bistCtl =>
    rw [row_tapBistCtlWrite]
    refine actM_rest rfl ?_
    split
    · exact resting_life h rfl
    · exact h
  case noScanEn =>
    rw [row_tapScanEnWrite]
    exact actM_rest (setScan_off no) h
  case scanEn =>
    rw [row_tapScanEnWrite]
    exact actM_rest (setScan_on rst free) (setScan_on rst free ▸ resting_setScan h)
  case noScan =>
    rw [row_tapScanChainAccess]
    exact actM_rest (shiftChain_off no) h
  case scanNone =>
    subst empty
    rw [row_tapScanChainAccess]
    exact actM_rest (shiftChain_none en free) (resting_emit h)
  case scan =>
    rw [row_tapScanChainAccess]
    exact actM_rest (shiftChain_some en free bits) (shiftChain_some en free bits ▸ resting_shiftChain h)
  case alive =>
    rw [row_sliceAliveToggle]
    refine actM_rest rfl ?_
    split
    · exact resting_life h rfl
    · exact h
  case stops =>
    rw [row_controllerStops]
    exact actM_rest rfl (resting_life h rfl)

end Sys2Proof.Machine
end

section
/-! SUPPORT. The transports (02_boundary.md R48, R49, R59, R60, R483): accesses to the control window by the sideband and by VC2, packets that
are discarded; and the rows of the rings, the lease and the pressure window (03_command_channel.md R71, R89; 19_control_window.md R475;
05_berths_and_allocator.md R162). -/

namespace Sys2Proof.Machine

/-! ### What a block at rest keeps -/

/-- Registers play no part in what can go on. -/
theorem resting_regs {m : Mach} {r : Regs} (h : resting m = true) : resting { m with regs := r } = true := h

theorem count_life (ev : Nat) (m : Mach) : (count ev m).life = m.life := by
  obtain ⟨p, e⟩ := countN_frame ev none none 1 m
  rw [count, e]

/-- A read of four bytes changes the latches alone. -/
theorem read4_frame (fx : Fixed) (p : Path) (off : Nat) (rl : Option (BitVec 16 × W32)) (m : Mach) :
    ∃ r, (read4 fx p off rl m).1 = { m with regs := r } := by
  rw [read4]
  cases regAt off with
  | none => exact ⟨m.regs, rfl⟩
  | some x =>
    obtain ⟨o, wide, w⟩ := x
    dsimp only
    split
    · exact ⟨m.regs, rfl⟩
    split
    · exact ⟨_, rfl⟩
    · exact ⟨m.regs, rfl⟩

theorem resting_read4 {fx : Fixed} {p : Path} {off : Nat} {rl : Option (BitVec 16 × W32)} {m : Mach} (h : resting m = true) :
    resting (read4 fx p off rl m).1 = true := by
  obtain ⟨r, e⟩ := read4_frame fx p off rl m
  rw [e]
  exact resting_regs h

/-! ### Four bytes of the window -/

/-- An aligned read of four bytes, outside OFF, ends the path's latches and reads. -/
theorem winAccess_read4 {fx : Fixed} {p : Path} {off : Nat} {d : W64} {m : Mach} (on : m.life.st ≠ .off) (al : off % 4 = 0) :
    winAccess fx p false false off d m =
      let x := read4 fx p off (tget none m.regs.rlatch (pathNo p)) (clearLatches p m)
      (fx, x.1, x.2.zeroExtend 64, true) := by
  have fits : ¬ (off % (if false = true then 8 else 4) ≠ 0 ∨ (false = true ∧ p = .sideband)) := by simp [al]
  rw [winAccess, if_neg on]
  dsimp only
  rw [if_neg fits]
  rfl

/-- An aligned write of four bytes. -/
theorem winAccess_write4 {fx : Fixed} {p : Path} {off : Nat} {d : W64} {m : Mach} (on : m.life.st ≠ .off) (al : off % 4 = 0) :
    winAccess fx p true false off d m =
      let x := write4 fx p off (d.extractLsb' 0 32) (tget none m.regs.wlatch (pathNo p)) (clearLatches p m)
      (x.1, x.2.1, 0, x.2.2) := by
  have fits : ¬ (off % (if false = true then 8 else 4) ≠ 0 ∨ (false = true ∧ p = .sideband)) := by simp [al]
  rw [winAccess, if_neg on]
  dsimp only
  rw [if_neg fits]
  rfl

/-- A word of 32 bits widened and cut down again. -/
theorem extract_zeroExtend (x : W32) : (x.zeroExtend 64 : W64).extractLsb' 0 32 = x := by
  apply BitVec.eq_of_toNat_eq
  simp only [BitVec.extractLsb'_toNat, BitVec.truncate_eq_setWidth, BitVec.toNat_setWidth, Nat.shiftRight_zero]
  omega

/-! ### The sideband -/

theorem sbRead_away {fx : Fixed} {site : Byte} {rs : BitVec 4} {o : BitVec 16} {d : W32} {m : Mach} (h : site ≠ fx.siteId ∨ m.life.st = .off) :
    sbRead fx site rs o d m = (fx, m) := if_pos h

theorem sbWrite_away {fx : Fixed} {site : Byte} {rs : BitVec 4} {o : BitVec 16} {d : W32} {m : Mach} (h : site ≠ fx.siteId ∨ m.life.st = .off) :
    sbWrite fx site rs o d m = (fx, m) := if_pos h

/-- The word that answers a sideband read of this site, and the one that acknowledges a write. -/
def sbWord (fx : Fixed) (o : BitVec 16) (v : W32) : W64 :=
  BitVec.ofNat 64 (8 * 2 ^ 60 + fx.siteId.toNat * 2 ^ 52 + o.toNat * 2 ^ 32 + v.toNat)
def sbAck (fx : Fixed) (o : BitVec 16) : Out := .sb (BitVec.ofNat 64 (9 * 2 ^ 60 + fx.siteId.toNat * 2 ^ 52 + o.toNat * 2 ^ 32))

section
variable {fx : Fixed} {site : Byte} {rs : BitVec 4} {o : BitVec 16} {d : W32} {m : Mach}

theorem sbRead_malformed (here : site = fx.siteId) (on : m.life.st ≠ .off) (bad : rs ≠ 0 ∨ o.toNat % 4 ≠ 0 ∨ d ≠ 0) :
    sbRead fx site rs o d m = (fx, emit (.sb (sbWord fx o 0)) (rejectOnly m)) := by
  rw [sbRead, if_neg (not_or.mpr ⟨not_not.mpr here, on⟩)]
  exact if_pos bad

theorem sbRead_answers (here : site = fx.siteId) (on : m.life.st ≠ .off) (hr : rs = 0) (al : o.toNat % 4 = 0) (hd : d = 0) :
    let x := read4 fx .sideband o.toNat (tget none m.regs.rlatch 0) (clearLatches .sideband m)
    sbRead fx site rs o d m = (fx, emit (.sb (sbWord fx o x.2)) x.1) := by
  intro x
  have good : ¬ (rs ≠ 0 ∨ o.toNat % 4 ≠ 0 ∨ d ≠ 0) := by simp [hr, al, hd]
  rw [sbRead, if_neg (not_or.mpr ⟨not_not.mpr here, on⟩)]
  dsimp only
  rw [if_neg good, winAccess_read4 on al]
  dsimp only
  rw [extract_zeroExtend]
  rfl

theorem sbWrite_malformed (here : site = fx.siteId) (on : m.life.st ≠ .off) (bad : rs ≠ 0 ∨ o.toNat % 4 ≠ 0) :
    sbWrite fx site rs o d m = (fx, emit (sbAck fx o) (rejectOnly m)) := by
  rw [sbWrite, if_neg (not_or.mpr ⟨not_not.mpr here, on⟩)]
  exact if_pos bad

theorem sbWrite_writes (here : site = fx.siteId) (on : m.life.st ≠ .off) (hr : rs = 0) (al : o.toNat % 4 = 0) :
    let x := write4 fx .sideband o.toNat d (tget none m.regs.wlatch 0) (clearLatches .sideband m)
    sbWrite fx site rs o d m = (x.1, emit (sbAck fx o) x.2.1) := by
  intro x
  have good : ¬ (rs ≠ 0 ∨ o.toNat % 4 ≠ 0) := by simp [hr, al]
  rw [sbWrite, if_neg (not_or.mpr ⟨not_not.mpr here, on⟩)]
  dsimp only
  rw [if_neg good, winAccess_write4 on al]
  dsimp only
  rw [extract_zeroExtend]
  rfl

end

/-- SB_CMD is the row of the command that it carries (02 R59). -/
theorem exec_sbCmd_packet {s : State} {i : Instr} {q : CmdPkt} (h : packetOf s.fx i = some q) (hq : q.path = .sideband) :
    exec (.sbCmd s.fx.siteId q) s = exec i s := by
  have here : packetOf s.fx (.sbCmd s.fx.siteId q) = some q := by
    rw [packetOf, if_pos rfl, ← hq]
  rw [exec_packet here, exec_packet h]

/-! ### The window by VC2 -/

/-- An access of KIND 4 with a field that must be zero and is not (02 R49, R483). -/
def winMalformed (env : BitVec 44) (a b : W64) : Bool :=
  decide (env ≠ 0) || decide (fld a 53 48 ≠ 0) || decide (fld a 15 0 ≠ 0) || (!bit a 63 && decide (b ≠ 0)) ||
    (bit a 63 && !bit a 62 && decide (fld b 63 32 ≠ 0))

theorem winMalformed_iff (env : BitVec 44) (a b : W64) : winMalformed env a b = true ↔
    (env ≠ 0 ∨ fld a 53 48 ≠ 0 ∨ fld a 15 0 ≠ 0 ∨ (bit a 63 = false ∧ b ≠ 0) ∨ (bit a 63 = true ∧ bit a 62 = false ∧ fld b 63 32 ≠ 0)) := by
  simp only [winMalformed, Bool.or_eq_true, Bool.and_eq_true, decide_eq_true_eq, Bool.not_eq_true', or_assoc, and_assoc]

/-- The answer to an access of KIND 4 (02 Table PORT-20). -/
def winReply (stop : Stop) (peer : BitVec 16) (a : W64) (st : Nat) (v : W64) : Out :=
  .win stop peer (BitVec.ofNat 64 (fld a 63 54 * 2 ^ 54 + fld a 47 16 * 2 ^ 16 + st)) v

section
variable {fx : Fixed} {stop : Stop} {peer : BitVec 16} {env : BitVec 44} {a b : W64} {m : Mach} {q : Path}

theorem windowPacket_stray (h : peerPath peer = none ∨ fld a 61 54 ≠ fx.siteId.toNat) :
    windowPacket fx stop peer env a b m = (fx, count 0x010 (count 0x040 m)) := by
  rw [windowPacket]
  cases hp : peerPath peer with
  | none => rfl
  | some p =>
    have away : fld a 61 54 ≠ fx.siteId.toNat := h.resolve_left (by rw [hp]; simp)
    exact if_pos away

theorem windowPacket_here (hp : peerPath peer = some q) (here : fld a 61 54 = fx.siteId.toNat) :
    windowPacket fx stop peer env a b m =
      if m.life.st = .off then (fx, emit (winReply stop peer a 0 0) (count 0x040 m))
      else if winMalformed env a b then (fx, emit (winReply stop peer a 4 0) (rejectOnly (count 0x040 m)))
      else
        let x := winAccess fx q (bit a 63) (bit a 62) (fld a 47 32) b (count 0x040 m)
        (x.1, emit (winReply stop peer a (if x.2.2.2 then 0 else 4) x.2.2.1) x.2.1) := by
  rw [windowPacket, hp]
  dsimp only
  rw [if_neg (not_not.mpr here), count_life]
  rfl

end

/-! ### VC2 packets that are discarded -/

theorem vc2Strays_reserved {fx : Fixed} {k : BitVec 4} {peer : BitVec 16} {env : BitVec 44} {body : List W64} (h : 5 ≤ k.toNat) :
    vc2Strays fx k peer env body = true := by
  obtain ⟨j, hj⟩ := Nat.exists_eq_add_of_le' h
  rw [vc2Strays, hj]
  rfl

/-- A stray packet is counted as accepted and as denied. -/
theorem discardVc2_stray {fx : Fixed} {k : BitVec 4} {peer : BitVec 16} {env : BitVec 44} {body : List W64} {m : Mach}
    (h : vc2Strays fx k peer env body = true) :
    discardVc2 fx k peer env body m = countN 0x010 (if k = 1 then wordCtx (body.getD 1 0) else none) none 1 (count 0x040 m) := if_pos h

/-- A KIND 3 packet with a zero envelope is counted as accepted alone. -/
theorem discardVc2_three {fx : Fixed} {peer : BitVec 16} {body : List W64} {m : Mach} : discardVc2 fx 3 peer 0 body m = count 0x040 m := rfl

/-- A notice's acknowledgement that no sweep awaits is counted as denied. -/
theorem discardVc2_ack {fx : Fixed} {peer : BitVec 16} {body : List W64} {m : Mach} (len : body.length = 4) (on : m.life.st ≠ .off)
    (idle : m.cmds.running = []) : discardVc2 fx 2 peer 0 body m = count 0x010 (count 0x040 m) := by
  have own : vc2Strays fx 2 peer 0 body = false := by simp [vc2Strays, len]
  have noSweep : runningCmd (count 0x040 m) isSweepRun = none := by
    rw [runningCmd, count, countN_cmds, idle]
    rfl
  rw [discardVc2, own, if_neg Bool.false_ne_true, count_life, if_pos ⟨rfl, on⟩, ackNotice, noSweep]

/-! ### The lease and the event ring -/

theorem leaseExpire_held {fx : Fixed} {m : Mach} (h : m.pilot.master = 0 ∨ m.cyc < m.pilot.leaseFrom + 268435456) : leaseExpire fx m = m := by
  rw [leaseExpire, if_neg]
  rintro ⟨pilot, ended⟩
  exact h.elim pilot (Nat.not_lt.mpr ended)

/-- The pilot whose lease is over is gone, and PILOT_CHANGE says so. -/
theorem leaseExpire_over {fx : Fixed} {m : Mach} (pilot : m.pilot.master ≠ 0) (ended : m.pilot.leaseFrom + 268435456 ≤ m.cyc) :
    leaseExpire fx m = post fx 0x02 (BitVec.ofNat 64 (m.pilot.epoch.toNat * 2 ^ 32 + 3)) { m with pilot := { m.pilot with master := 0, priority := 0 } } := by
  rw [leaseExpire, if_pos ⟨pilot, ended⟩, pilotChange, if_neg (Ne.symm pilot)]
  have gone : (0 : BitVec 16).toNat * 2 ^ 16 = 0 := rfl
  dsimp only
  rw [gone, Nat.add_zero]

theorem eventWrite_idle {fx : Fixed} {m : Mach} (h : m.evq.pend = [] ∨ m.evq.en = false ∨ m.evq.writing = true ∨
    2 ^ m.evq.size.toNat ≤ (m.evq.tail - m.evq.head).toNat) : eventWrite fx m = m := by
  rw [eventWrite]
  cases hp : m.evq.pend with
  | nil => rfl
  | cons e t =>
    have h := h.resolve_left (by rw [hp]; simp)
    exact if_pos (by simpa [or_assoc] using h)

/-! ### The obligation -/

/-- The rows of the sideband. -/
theorem sideband_rows {s : State} (site : Byte) (rs : BitVec 4) (o : BitVec 16) (d : W32) (h : resting s.m = true) :
    (site ≠ s.fx.siteId ∨ s.m.life.st = .off → exec (.sbRead site rs o d) s = .next s ∧ exec (.sbWrite site rs o d) s = .next s) ∧
    (site = s.fx.siteId → s.m.life.st ≠ .off →
      (rs ≠ 0 ∨ o.toNat % 4 ≠ 0 ∨ d ≠ 0 → exec (.sbRead site rs o d) s = .next (s.put (emit (.sb (sbWord s.fx o 0)) (rejectOnly s.m)))) ∧
      (rs = 0 → o.toNat % 4 = 0 → d = 0 →
        let x := read4 s.fx .sideband o.toNat (tget none s.m.regs.rlatch 0) (clearLatches .sideband s.m)
        exec (.sbRead site rs o d) s = .next (s.put (emit (.sb (sbWord s.fx o x.2)) x.1))) ∧
      (rs ≠ 0 ∨ o.toNat % 4 ≠ 0 → exec (.sbWrite site rs o d) s = .next (s.put (emit (sbAck s.fx o) (rejectOnly s.m)))) ∧
      (rs = 0 → o.toNat % 4 = 0 →
        let x := write4 s.fx .sideband o.toNat d (tget none s.m.regs.wlatch 0) (clearLatches .sideband s.m)
        resting x.2.1 = true → exec (.sbWrite site rs o d) s = .next { s with fx := x.1, m := emit (sbAck s.fx o) x.2.1 })) := by
  simp only [row_sbRead, row_sbWrite]
  refine ⟨fun away => ⟨act_rest (sbRead_away away) h, act_rest (sbWrite_away away) h⟩, fun here on => ⟨fun bad => ?_, fun hr al hd => ?_, fun bad => ?_,
    fun hr al rest => ?_⟩⟩
  · exact act_rest (sbRead_malformed here on bad) (resting_emit (resting_regs h))
  · exact act_rest (sbRead_answers here on hr al hd) (resting_emit (resting_read4 (resting_regs h)))
  · exact act_rest (sbWrite_malformed here on bad) (resting_emit (resting_regs h))
  · exact act_rest (sbWrite_writes here on hr al) (resting_emit rest)

/-- Settles O34: the transports first, then the rows of the rings, the lease, the pressure window and the event ring. -/
theorem transportRows : Obligations.TransportRows := by
  refine ⟨fun s site rs o d h => ?_, fun s i q hi hq => exec_sbCmd_packet hi hq⟩
  intro word ack bad
  obtain ⟨away, here⟩ := sideband_rows site rs o d h
  have accepted : resting (count 0x040 s.m) = true := resting_countN h
  have denied : resting (count 0x010 (count 0x040 s.m)) = true := resting_countN accepted
  refine ⟨away, here, fun k => ⟨fun at_ hk => ?reserved, fun no => ?notOurs⟩, fun p no => ?cmdAway, fun p c m b op => ?cmdNop,
    fun stop peer env a b => ?window, fun k peer env body => ?discard, fun f no => ?noFetch, fun f => ?fetch, fun cyc => ?timed, fun idle => ?noEvent, ?event⟩
  case reserved =>
    rw [row_sbTransferIgnored]
    exact actM_rest (if_pos ⟨at_, hk⟩) (resting_countN h)
  case notOurs =>
    rw [row_sbTransferIgnored]
    exact actM_rest (if_neg fun ⟨at_, hk⟩ => no.elim (· at_) (Nat.not_le.mpr hk)) h
  case cmdAway =>
    rw [row_sbCmd]
    exact actM_rest (if_neg no) h
  case cmdNop =>
    have run : startCmd s.fx c false m = complete s.fx c csDone [] m := by simp [startCmd, startLow, op, Machine.cmdNop]
    exact begins_finish b run (resting_complete b.byRing b.resting)
  case window =>
    intro row m reply malformed
    simp only [row, row_windowAccess]
    refine ⟨fun stray => act_rest (windowPacket_stray stray) denied, fun q hp here => ⟨fun off => ?_, fun on bad => ?_, fun on good => ?_⟩⟩
    · exact act_rest ((windowPacket_here hp here).trans (if_pos off)) (resting_emit accepted)
    · have bad := (winMalformed_iff env a b).mpr bad
      exact act_rest ((windowPacket_here hp here).trans ((if_neg on).trans (if_pos bad))) (resting_emit (resting_regs accepted))
    · have good := fun bad => good ((winMalformed_iff env a b).mp bad)
      intro rest
      exact act_rest ((windowPacket_here hp here).trans ((if_neg on).trans (if_neg good))) (resting_emit rest)
  case discard =>
    intro row m
    simp only [row, row_vc2PacketDiscard]
    refine ⟨fun hk => actM_rest ?_ denied, fun hk he => ?_, fun hk he => ?_, fun hk form => ?_, fun hk len he on idle => ?_, fun hk no => ?_⟩
    · have other : k ≠ 1 := by rintro rfl; exact absurd hk (by decide)
      exact (discardVc2_stray (vc2Strays_reserved hk)).trans (by rw [if_neg other]; rfl)
    · subst hk
      exact actM_rest (discardVc2_stray (by simpa [vc2Strays] using he)) denied
    · subst hk he
      exact actM_rest discardVc2_three accepted
    · subst hk
      exact actM_rest (discardVc2_stray (by simpa [vc2Strays] using form)) denied
    · subst hk he
      exact actM_rest (discardVc2_ack len on idle) denied
    · subst hk
      exact actM_rest (discardVc2_stray (by simpa [vc2Strays] using no)) (resting_countN accepted)
  case noFetch =>
    rw [row_ringFetch]
    exact actM_rest (by rw [ringFetch, no]; rfl) h
  case fetch =>
    rw [row_ringFetch]
    exact actM_goes rfl
  case timed =>
    intro n
    have rest : resting n = true := resting_advance h
    rw [row_pilotLeaseExpiry, row_pinPressureWindowEnd]
    exact ⟨fun no => actAt_rest (leaseExpire_held no) rest,
      fun pilot ended => actAt_rest (leaseExpire_over pilot ended) (resting_post (m := { n with pilot := { n.pilot with master := 0, priority := 0 } }) rest),
      rfl, actAt_goes rfl⟩
  case noEvent =>
    rw [row_eventRecordWrite]
    exact actM_rest (eventWrite_idle idle) h
  case event =>
    rw [row_eventRecordWrite]
    exact actM_goes rfl

end Sys2Proof.Machine
end

section
/-! SUPPORT. The steps of the memory port and of the sync unit (02_boundary.md R50, R51, R64; 04_cache.md R118, R121, R130; 06 R196, R202;
15 R395; 16 R421, R438): what each row does by what it finds. -/

namespace Sys2Proof.Machine

/-! ### A read of the memory port returns -/

/-- Counting leaves the cache as it is. -/
theorem count_cache (ev : Nat) (m : Mach) : (count ev m).cache = m.cache := by
  obtain ⟨p, e⟩ := countN_frame ev none none 1 m
  rw [count, e]

theorem readReturn_down {fx : Fixed} {n : BitVec 10} {d : Line} {md : Meta} {ue : Bool} {m : Mach} (down : memDown m = true) :
    readReturn fx n d md ue m = m := if_pos down

/-- A return for no issued ticket. -/
theorem readReturn_unasked {fx : Fixed} {n : BitVec 10} {d : Line} {md : Meta} {ue : Bool} {m : Mach}
    (unasked : m.cache.tickets.find? (fun t => t.num = n && t.issued) = none) : readReturn fx n d md ue m = m := by
  rw [readReturn, unasked]
  exact ite_self m

/-- A return for a ticket: what it does to the ticket, and no retirement waits for it unless it is read again. -/
theorem readReturn_asked {fx : Fixed} {n : BitVec 10} {d : Line} {md : Meta} {ue : Bool} {m : Mach} {t : Ticket} (up : memDown m = false)
    (asked : m.cache.tickets.find? (fun t => t.num = n && t.issued) = some t) :
    let x := memReturn fx t d md ue m
    readReturn fx n d md ue m =
      if x.cache.tickets.any (fun u => u.num = n && u.line = t.line && u.kind = t.kind && decide (t.attempts < u.attempts)) then x
      else readBack n x := by
  intro x
  rw [readReturn, if_neg (by rw [up]; decide), asked]

/-- A read that installs nothing is a plain line's. -/
theorem memReturn_noAlloc {fx : Fixed} {t : Ticket} {d : Line} {md : Meta} {ue : Bool} {m : Mach} (k : t.kind = .noAlloc) :
    memReturn fx t d md ue m = portReturn fx t d md ue m := by
  rw [memReturn, k]

/-- A device read of one sector has no early part: its sector leaves with its response (04 R110). -/
theorem sendEarlies_one {d : Line} {z : BitVec 4} {a : Access} {m : Mach} (one : a.sect = oneSect a.crit) {op : BitVec 6} {r : Req}
    (src : a.src = .dp op r) : sendEarlies d z false [a] m = (m, [a]) := by
  simp [sendEarlies, src, one]

/-- A device read of one sector served: one response, with its words. -/
theorem serveRead_one {a : Access} {op : BitVec 6} {r : Req} {d : Line} {z : BitVec 4} {m : Mach} (src : a.src = .dp op r)
    (one : a.sect = oneSect a.crit) (early : a.early = false) (sparse again : Bool) :
    serveRead a d z false sparse again m = respond r op stOk a.sect (readInfo (a.op = .readVol) z a.sect) (wordsOf d a.sect) m := by
  simp [serveRead, src, early, finalRead, sendEarly, one]

/-- The one waiter of a loose line, a device read of one sector, where no host holds anything and nothing of its line is before it. -/
theorem serveLoose_one {fx : Fixed} {a : Access} {op : BitVec 6} {r : Req} {d : Line} {z : BitVec 4} {m : Mach} (src : a.src = .dp op r)
    (one : a.sect = oneSect a.crit) (early : a.early = false) (read : isRead a.op = true) (first : waitsBefore m (placed m a) = false)
    (ents : m.dir.ents = []) (recalls : m.dir.recalls = []) (reclaim : m.dir.reclaim = none) :
    serveLoose fx d z false false false false [a] m =
      respond r op stOk a.sect (readInfo (a.op = .readVol) z a.sect) (wordsOf d a.sect) m := by
  have src' : (placed m a).src = .dp op r := src
  have read' : (false || !isRead (placed m a).op) = false := by
    rw [show (placed m a).op = a.op from rfl, read]
    rfl
  have served := serveRead_one (a := placed m a) (d := d) (z := z) (m := m) src one early false false
  rw [serveLoose]
  dsimp only
  rw [read', if_neg Bool.false_ne_true, first, if_neg Bool.false_ne_true, src']
  dsimp only
  rw [dirGate_empty fx _ _ _ _ _ ents recalls reclaim]
  dsimp only
  rw [served, serveLoose]
  rfl

/-- A line that passes its check answers the one device read that waits for it. -/
theorem memReturn_good {fx : Fixed} {t : Ticket} {d : Line} {md : Meta} {ue : Bool} {m : Mach} {a : Access} {op : BitVec 6} {r : Req} {e : Line}
    {z : BitVec 4} {f : BitVec 2} {g : Bool} (k : t.kind = .noAlloc) (once : t.attempts = 1) (ws : t.waiters = [a]) (src : a.src = .dp op r)
    (read : isRead a.op = true) (early : a.early = false) (one : a.sect = oneSect a.crit) (ents : m.dir.ents = [])
    (recalls : m.dir.recalls = []) (reclaim : m.dir.reclaim = none) (first : waitsBefore (dropTicket t.num m) (placed (dropTicket t.num m) a) = false)
    (good : checkLine fx m t.range t.line d md ue 0 = .good e z f g false) :
    memReturn fx t d md ue m =
      respond r op stOk a.sect (readInfo (a.op = .readVol) z a.sect) (wordsOf e a.sect) (dropTicket t.num m) := by
  have fmt : ticketFmt t.kind = 0 := by rw [k]; rfl
  have notAgain : ¬ 1 < t.attempts := by omega
  rw [memReturn_noAlloc k, portReturn, fmt, good]
  simp only [k, ws, sendEarlies_one one src, finishFill, notAgain, decide_false, Bool.false_eq_true, if_false]
  exact serveLoose_one src one early read first ents recalls reclaim

/-- A line that fails its check for the first or second time is counted and read again (15 R395). -/
theorem memReturn_mismatch {fx : Fixed} {t : Ticket} {d e : Line} {md : Meta} {ue : Bool} {m : Mach} (k : t.kind = .noAlloc)
    (few : t.attempts < 3) (ws : t.waiters = []) (bad : checkLine fx m t.range t.line d md ue 0 = .mismatch e) :
    memReturn fx t d md ue m = reissue fx t (count 0x020 m) := by
  have fmt : ticketFmt t.kind = 0 := by rw [k]; rfl
  have same : { t with waiters := [] } = t := by rw [← ws]
  rw [memReturn_noAlloc k, portReturn, fmt, bad]
  simp only [k, ws, sendEarlies, few, if_true]
  rw [← k, same]

/-! ### An acknowledgement of the memory port -/

/-- An acknowledged write that nothing waits for. -/
theorem portAck_alone {fx : Fixed} {w : PWrite} {m : Mach} (alone : w.also = []) (h : w.after = .none ∨ w.after = .slip) :
    portAck fx w m = pump fx (payOwed fx (dropWrite w.index m)) := by
  rcases h with h | h <;> simp [portAck, alone, h]

/-- One that a WR_THRU waits for. -/
theorem portAck_thru {fx : Fixed} {w : PWrite} {m : Mach} {a : Access} {op : BitVec 6} {r : Req} (alone : w.also = [])
    (h : w.after = .thruMiss a) (src : a.src = .dp op r) :
    portAck fx w m = pump fx (payOwed fx (answerOk r op (dropWrite w.index m))) := by
  simp [portAck, alone, h, finishThru, src]

/-! ### A parked request tried again -/

theorem retryParked_none {fx : Fixed} {q pos : Nat} {m : Mach} (empty : replayAt q 0 pos m.cache.replay = none) : retryParked fx q pos m = m := by
  rw [retryParked, empty]

/-- The queue without the request that is tried. -/
def pulled (i : Nat) (m : Mach) : Mach := { m with cache := { m.cache with replay := m.cache.replay.eraseIdx i } }

section
variable {fx : Fixed} {q pos i : Nat} {m : Mach} {p : Parked} (found : replayAt q 0 pos m.cache.replay = some (i, p))
include found

theorem retryParked_behind (behind : behindSame m i p.acc = true) : retryParked fx q pos m = m := by
  rw [retryParked, found]
  exact if_pos behind

theorem retryParked_done (first : behindSame m i p.acc = false) (done : (tryParked fx p.acc (pulled i m)).2.1 = .done) :
    retryParked fx q pos m = (tryParked fx p.acc (pulled i m)).1 := by
  rcases h : tryParked fx p.acc (pulled i m) with ⟨n, got, a⟩
  obtain rfl : got = .done := by rw [h] at done; exact done
  rw [pulled] at h
  rw [retryParked, found]
  dsimp only
  rw [first, if_neg Bool.false_ne_true, h]

theorem retryParked_waits (first : behindSame m i p.acc = false) (wait : (tryParked fx p.acc (pulled i m)).2.1 = .wait) :
    let x := tryParked fx p.acc (pulled i m)
    retryParked fx q pos m = { x.1 with cache := { x.1.cache with
      replay := x.1.cache.replay.insertIdx (min i x.1.cache.replay.length) { p with acc := x.2.2, thaw := false } } } := by
  intro x
  rcases h : tryParked fx p.acc (pulled i m) with ⟨n, got, a⟩
  obtain rfl : got = .wait := by rw [h] at wait; exact wait
  have hx : x = (n, .wait, a) := h
  rw [hx]
  rw [pulled] at h
  rw [retryParked, found]
  dsimp only
  rw [first, if_neg Bool.false_ne_true, h]
  rfl

end

/-! ### Counts and notifies -/

/-- A coalescer entry drains to the unit, and what waits for room is taken up. -/
theorem drainCoal_some {o : BitVec 14} {m : Mach} {c : Count} (h : m.sync.coal.find? (·.obj = o) = some c) :
    drainCoal o m = m.sync.coalWait.foldl (fun m x => tally x m)
      { m with sync := { m.sync with coal := m.sync.coal.filter (·.obj ≠ o), counts := m.sync.counts ++ [c], coalWait := [] } } := by
  rw [drainCoal, h]

theorem drainCoal_none {o : BitVec 14} {m : Mach} (h : m.sync.coal.find? (·.obj = o) = none) : drainCoal o m = m := by
  rw [drainCoal, h]

theorem countArrives_none {fx : Fixed} {o : BitVec 14} {m : Mach} (h : m.sync.counts.find? (·.obj = o) = none)
    (h' : m.sync.coal.find? (·.obj = o) = none) : countArrives fx o m = m := by
  simp only [countArrives, drainCoal_none h', ite_self, h]

/-- The oldest count of a manifest leaves the queue and arrives, the sync unit being awake. -/
theorem countArrives_some {fx : Fixed} {o : BitVec 14} {m : Mach} {c : Count} (h : m.sync.counts.find? (·.obj = o) = some c)
    (up : awake m [dSync] = true) :
    countArrives fx o m = applyCount fx c { m with sync := { m.sync with counts := m.sync.counts.eraseP (·.obj = o) } } := by
  have has : m.sync.counts.any (·.obj = o) = true := by
    rw [List.any_eq_true]
    exact ⟨c, List.mem_of_find?_eq_some h, by simpa using List.find?_some h⟩
  simp only [countArrives, has, if_true, h, needDom_awake up (List.mem_singleton_self dSync)]

theorem applyCount_stale {fx : Fixed} {c : Count} {m : Mach} (ok : sound m = true)
    (h : (syncObj m c.obj).valid = false ∨ (syncObj m c.obj).gen ≠ c.gen) : applyCount fx c m = m := by
  rw [applyCount, scanSync_sound fx c.obj ok]
  exact if_pos (by rcases h with h | h <;> simp [h])

theorem applyCount_adds {fx : Fixed} {c : Count} {m : Mach} (ok : sound m = true) (valid : (syncObj m c.obj).valid = true)
    (gen : (syncObj m c.obj).gen = c.gen) (err : (syncObj m c.obj).err = false) :
    applyCount fx c m = updateSync c.obj ((syncObj m c.obj).value + BitVec.ofNat 64 c.sum) c.scope m := by
  rw [applyCount, scanSync_sound fx c.obj ok]
  simp [valid, gen, err]

theorem notifyArrives_none {fx : Fixed} {q : BitVec 10} {m : Mach} (h : m.sync.notifies.find? (·.queue = q) = none) :
    notifyArrives fx q m = m := by
  rw [notifyArrives, h]

theorem notifyArrives_some {fx : Fixed} {q : BitVec 10} {m : Mach} {n : Notify} (h : m.sync.notifies.find? (·.queue = q) = some n)
    (up : awake m [dSync] = true) :
    notifyArrives fx q m = applyNotify fx n { m with sync := { m.sync with notifies := m.sync.notifies.eraseP (·.queue = q) } } := by
  simp only [notifyArrives, h, needDom_awake up (List.mem_singleton_self dSync)]

theorem applyNotify_refused {fx : Fixed} {n : Notify} {m : Mach} (ok : sound m = true)
    (h : (syncObj m n.obj).valid = false ∨ (syncObj m n.obj).gen ≠ n.gen ∨ mayUse m n.obj n.ctx (ctxOf m n.ctx).gen = false) :
    applyNotify fx n m = countN 0x01A (some n.ctx) (some n.tc) 1 m := by
  rw [applyNotify, scanSync_sound fx n.obj ok]
  exact if_pos (by rcases h with h | h | h <;> simp [h])

theorem applyNotify_error {fx : Fixed} {n : Notify} {m : Mach} (ok : sound m = true) (valid : (syncObj m n.obj).valid = true)
    (gen : (syncObj m n.obj).gen = n.gen) (may : mayUse m n.obj n.ctx (ctxOf m n.ctx).gen = true) (err : (syncObj m n.obj).err = true) :
    applyNotify fx n m = m := by
  rw [applyNotify, scanSync_sound fx n.obj ok]
  simp [valid, gen, may, err]

theorem applyNotify_adds {fx : Fixed} {n : Notify} {m : Mach} (ok : sound m = true) (valid : (syncObj m n.obj).valid = true)
    (gen : (syncObj m n.obj).gen = n.gen) (may : mayUse m n.obj n.ctx (ctxOf m n.ctx).gen = true) (err : (syncObj m n.obj).err = false) :
    applyNotify fx n m = updateSync n.obj ((syncObj m n.obj).value + 1) n.scope m := by
  rw [applyNotify, scanSync_sound fx n.obj ok]
  simp [valid, gen, may, err]

/-! ### Rows of the sync unit that come at a time -/

/-- The control cycle moves on with no stored word touched. -/
theorem sound_advance {m : Mach} {cyc : Nat} (h : sound m = true) : sound (advance cyc m) = true := by
  obtain ⟨p, e⟩ := advance_frame cyc m
  rw [e]
  exact h

/-- A parked wait whose tick has come. -/
def waitDue (source : BitVec 16) (tag : BitVec 12) (m : Mach) : Wait → Bool := fun w =>
  w.source = source && w.tag = tag && decide (w.expire ≠ 0) && decide (w.expire ≤ tickOf m.cyc) && !waitFrozen m w && !w.late

theorem waitExpires_none {fx : Fixed} {source : BitVec 16} {tag : BitVec 12} {m : Mach} (h : m.sync.waits.find? (waitDue source tag m) = none) :
    waitExpires fx source tag m = m := by
  unfold waitDue at h
  rw [waitExpires]
  dsimp only
  rw [h]

theorem waitExpires_some {fx : Fixed} {source : BitVec 16} {tag : BitVec 12} {m : Mach} {w : Wait} (up : awake m [dSync] = true)
    (ok : sound m = true) (h : m.sync.waits.find? (waitDue source tag m) = some w) :
    waitExpires fx source tag m = wake w stRetry 0 [(syncObj m w.obj).value] m := by
  have here : m.sync.waits.any (sameWait w) = true :=
    List.any_eq_true.mpr ⟨w, List.mem_of_find?_eq_some h, by simp [sameWait]⟩
  unfold waitDue at h
  rw [waitExpires]
  dsimp only
  rw [h]
  dsimp only
  rw [needDom_awake up (List.mem_singleton_self dSync)]
  dsimp only
  rw [expireWait, scanSync_sound fx w.obj ok]
  exact if_pos here

/-- An index whose hold is over is free again (16 R438). -/
theorem releaseIndex_held {o : BitVec 14} {m : Mach} (h : m.sync.heldIdx.any (fun x => x.1 = o && decide (x.2 ≤ tickOf m.cyc)) = false) :
    releaseIndex o m = m := by
  rw [releaseIndex, h]
  rfl

theorem scanEdges_sound {fx : Fixed} {m : Mach} (ok : sound m = true) : scanEdges fx m = m := by
  rw [scanEdges, if_pos (by rw [sound_errs ok]; rfl)]

theorem jamTick_off {fx : Fixed} {m : Mach} (ok : sound m = true) (en : m.sync.jamEn = false) : jamTick fx m = markQuiet m := by
  rw [jamTick, scanEdges_sound ok]
  exact if_pos (by rw [show (markQuiet m).sync.jamEn = m.sync.jamEn from rfl, en]; rfl)

theorem jamTick_on {fx : Fixed} {m : Mach} (ok : sound m = true) (en : m.sync.jamEn = true) :
    let x := (exportEdges fx tickEdge true (markQuiet m)).1
    jamTick fx m = { x with sync := { x.sync with jamFresh := false } } := by
  rw [jamTick, scanEdges_sound ok]
  exact if_neg (by rw [show (markQuiet m).sync.jamEn = m.sync.jamEn from rfl, en]; decide)

/-! ### The obligation -/

/-- Settles O42, row by row in the order of the statement. -/
theorem memoryAndSyncStepRows : Obligations.MemoryAndSyncStepRows := by
  intro s
  refine ⟨fun t h => after_resting h, fun num d md ue => ?returns, fun index => ?ack, ?issue, fun ht hw => pump_issued s.fx ht hw,
    fun quad pos => ?replay, fun o => ?manifest, fun q => ?notify, fun cyc => ?timed⟩
  case returns =>
    have goes : ∀ {m}, readReturn s.fx num d md ue s.m = m → exec (.memReadReturn num d md ue) s = .next (s.after m) :=
      fun e => (row_memReadReturn ..).trans (actM_goes e)
    refine ⟨fun down => goes (readReturn_down down), fun unasked => goes (readReturn_unasked unasked), fun t asked =>
      ⟨fun up => goes (readReturn_asked up asked), fun a op r e z f g k once ws src read early one ents recalls reclaim _ first good =>
        memReturn_good k once ws src read early one ents recalls reclaim first good, fun e k few ws bad => ?_⟩⟩
    exact (memReturn_mismatch k few ws bad).trans (by rw [reissue, count_cache])
  case ack =>
    have goes : ∀ {w m}, s.m.cache.writes.find? (fun w => w.index = index && w.issued) = some w → portAck s.fx w s.m = m →
        exec (.memWriteAck index) s = .next (s.after m) :=
      fun asked e => (row_memWriteAck ..).trans (actM_goes (by rw [asked]; exact e))
    exact ⟨fun unasked => (row_memWriteAck ..).trans (actM_goes (by rw [show s.m.cache.writes.find? _ = _ from unasked])),
      fun w asked alone => ⟨fun h => goes asked (portAck_alone alone h), fun a op r h src => goes asked (portAck_thru alone h src)⟩⟩
  case issue => exact (row_slipwayIssue s).trans (actM_goes rfl)
  case replay =>
    have goes : ∀ {m}, retryParked s.fx quad.toNat pos s.m = m → exec (.replayRetry quad pos) s = .next (s.after m) :=
      fun e => (row_replayRetry ..).trans (actM_goes e)
    exact ⟨fun empty => goes (retryParked_none empty), fun i p found => ⟨fun behind => goes (retryParked_behind found (by simpa using behind)),
      fun first done => goes (retryParked_done found (by simpa using first) done),
      fun first wait => goes (retryParked_waits found (by simpa using first) wait)⟩⟩
  case manifest =>
    have drains : ∀ {m}, drainCoal o s.m = m → exec (.manifestCoalescerDrain o) s = .next (s.after m) :=
      fun e => (row_manifestCoalescerDrain ..).trans (actM_goes e)
    have arrives : ∀ {m}, countArrives s.fx o s.m = m → exec (.manifestCount o) s = .next (s.after m) :=
      fun e => (row_manifestCount ..).trans (actM_goes e)
    refine ⟨fun empty => drains (drainCoal_none empty), fun c found => drains (drainCoal_some found),
      fun empty empty' => arrives (countArrives_none empty empty'), fun c found => ?_⟩
    intro out x up ok
    have ok' : sound out = true := ok
    exact ⟨fun stale => arrives ((countArrives_some found up).trans (applyCount_stale ok' stale)),
      fun valid gen err => arrives ((countArrives_some found up).trans (applyCount_adds ok' valid gen err))⟩
  case notify =>
    have arrives : ∀ {m}, notifyArrives s.fx q s.m = m → exec (.queueNotify q) s = .next (s.after m) :=
      fun e => (row_queueNotify ..).trans (actM_goes e)
    refine ⟨fun empty => arrives (notifyArrives_none empty), fun n found => ?_⟩
    intro out x may up ok
    have ok' : sound out = true := ok
    exact ⟨fun no => arrives ((notifyArrives_some found up).trans (applyNotify_refused ok' no)),
      fun valid gen may err => arrives ((notifyArrives_some found up).trans (applyNotify_error ok' valid gen may err)),
      fun valid gen may err => arrives ((notifyArrives_some found up).trans (applyNotify_adds ok' valid gen may err))⟩
  case timed =>
    intro n
    have expires : ∀ {source tag m}, waitExpires s.fx source tag n = m → exec (.waitTimeout source tag cyc) s = .next (s.after m) :=
      fun e => (row_waitTimeout ..).trans (actAt_goes e)
    have releases : ∀ {o m}, releaseIndex o n = m → exec (.syncIndexHoldExpiry o cyc) s = .next (s.after m) :=
      fun e => (row_syncIndexHoldExpiry ..).trans (actAt_goes e)
    have ticks : ∀ {m}, jamTick s.fx n = m → exec (.jamEdgeExport cyc) s = .next (s.after m) :=
      fun e => (row_jamEdgeExport ..).trans (actAt_goes e)
    exact ⟨fun source tag => ⟨fun noneDue => expires (waitExpires_none noneDue),
        fun w due up ok => expires (waitExpires_some up (sound_advance ok) due)⟩,
      fun o => ⟨fun no => releases (releaseIndex_held no), fun due => releases (if_pos due)⟩,
      fun ok en => ticks (jamTick_off (sound_advance ok) en), fun ok en => ticks (jamTick_on (sound_advance ok) en)⟩

end Sys2Proof.Machine
end

section
/-! SUPPORT. The command channel (03_command_channel.md R73 to R99): what reset leaves, the words of the state and of a reply, and the checks
before an opcode's own. -/

namespace Sys2Proof.Machine

/-! ### Fields of a word -/

/-- A field of a word given as a number. -/
theorem fld_ofNat {n : Nat} (h : n < 2 ^ 64) (hi lo : Nat) : fld (BitVec.ofNat 64 n) hi lo = n / 2 ^ lo % 2 ^ (hi + 1 - lo) := by
  rw [fld, BitVec.toNat_ofNat, Nat.mod_eq_of_lt h]

theorem fld_lt (w : W64) (hi lo : Nat) : fld w hi lo < 2 ^ (hi + 1 - lo) := Nat.mod_lt _ (Nat.two_pow_pos _)

theorem cTag_lt (c : Rec) : cTag c < 2 ^ 16 := fld_lt c.pkt.w0 31 16

/-! ### The state word -/

theorem levelNum_none {fx : Fixed} (h : fx.level = none) : levelNum fx = 0 := by rw [levelNum, h]

theorem levelNum_some {fx : Fixed} {l : BitVec 2} (h : fx.level = some l) : levelNum fx = l.toNat := by rw [levelNum, h]

theorem levelNum_lt (fx : Fixed) : levelNum fx < 4 := by
  cases h : fx.level with
  | none => rw [levelNum_none h]; decide
  | some l => rw [levelNum_some h]; exact l.isLt

theorem stateCode_le (st : SliceState) : stateCode st ≤ 8 := by cases st <;> decide

/-- The fields of the state word (R84), none of which reaches into the next. -/
theorem stateWord_fields (fx : Fixed) (m : Mach) :
    fld (stateWord fx m) 63 32 = m.pilot.epoch.toNat ∧ fld (stateWord fx m) 31 16 = m.pilot.master.toNat ∧
    fld (stateWord fx m) 15 8 = levelNum fx ∧ fld (stateWord fx m) 7 0 = stateCode m.life.st := by
  have epoch := m.pilot.epoch.isLt
  have master := m.pilot.master.isLt
  have level := levelNum_lt fx
  have state := stateCode_le m.life.st
  rw [stateWord]
  refine ⟨?_, ?_, ?_, ?_⟩ <;> (rw [fld_ofNat (by omega)]; omega)

/-! ### A command that starts at once -/

/-- One that completes as it starts, from a block where nothing can go on. -/
theorem begins_completes {s : State} {i : Instr} {c : Rec} {m n : Mach} {st : Nat} {res : List W64} (b : Begins s i c m)
    (e : startCmd s.fx c false m = complete s.fx c st res n) (h : resting n = true) : exec i s = .next (s.put (complete s.fx c st res n)) :=
  begins_finish b e (resting_complete b.byRing h)

/-- STATE_QUERY answers the state word and changes nothing (R84). -/
theorem exec_stateQuery {s : State} {p : CmdPkt} {c : Rec} {m : Mach} (b : Begins s (.stateQuery p) c m) :
    exec (.stateQuery p) s = .next (s.put (complete s.fx c csDone [stateWord s.fx m] m)) :=
  begins_completes b (start_stateQuery b) b.resting

/-! ### A reply -/

/-- A reply that is not for a ring leaves by the path of its command (R75). -/
theorem sendReply_emits {c : Rec} (h : byRing c.pkt = false) (st : Nat) (res : List W64) (m : Mach) :
    sendReply c st res m = emit (.reply c.pkt.path (replyWord c st res.length) (res.getD 0 0) (res.getD 1 0) (res.getD 2 0)) m := by
  rw [byRing] at h
  rw [sendReply]
  cases path : c.pkt.path with
  | ring f => rw [path] at h; cases h
  | sideband => rfl
  | vc2 stop peer => rfl

/-- The fields of a reply's first word (Table CMD-4). -/
theorem replyWord_fields (c : Rec) {st n : Nat} (hs : st < 2 ^ 16) (hn : n ≤ 3) :
    let w := replyWord c st n
    fld w 63 48 = c.master.toNat ∧ fld w 47 44 = 0 ∧ fld w 43 40 = n ∧ fld w 39 32 = c.opcode.toNat ∧ fld w 31 16 = cTag c ∧ fld w 15 0 = st := by
  have master := c.master.isLt
  have opcode := c.opcode.isLt
  have tag := cTag_lt c
  intro w
  simp only [w, replyWord]
  refine ⟨?_, ?_, ?_, ?_, ?_, ?_⟩ <;> (rw [fld_ofNat (by omega)]; omega)

/-! ### The checks before an opcode's own (R76), in their order -/

section
variable {fx : Fixed} {m : Mach} {c : Rec}

theorem opRow_none (h : rowOf? c.opcode.toNat opTable = none) : opRow c = none := by rw [opRow, h]; rfl

theorem startStop_opcode (h : opRow c = none) : startStop fx m c = some (csBadOpcode, []) := by rw [startStop, h]

variable {r : OpRow} (row : opRow c = some r)
include row

theorem startStop_bits (bits : bitsOk c r = false) : startStop fx m c = some (csBadParam, []) := by
  simp only [startStop, row, bits, Bool.not_false, if_true]

variable (bits : bitsOk c r = true)
include bits

theorem startStop_authority {a : Nat} (auth : authority m c r = some a) : startStop fx m c = some (a, []) := by
  simp only [startStop, row, bits, Bool.not_true, Bool.false_eq_true, if_false, auth]

variable (auth : authority m c r = none)
include auth

theorem startStop_state (legal : legalNow m c r = false) : startStop fx m c = some (csBadState, [stateWord fx m]) := by
  simp only [startStop, row, bits, Bool.not_true, Bool.false_eq_true, if_false, auth, legal, Bool.not_false, if_true]

variable (legal : legalNow m c r = true)
include legal

theorem startStop_level (level : levelHas fx c = false) : startStop fx m c = some (csLevel, []) := by
  simp only [startStop, row, bits, Bool.not_true, Bool.false_eq_true, if_false, auth, legal, level, Bool.not_false, if_true]

/-- With all of them passed the context's is the last. -/
theorem startStop_context (level : levelHas fx c = true) : startStop fx m c = (ctxStop m c r).map fun a => (a, []) := by
  simp only [startStop, row, bits, Bool.not_true, Bool.false_eq_true, if_false, auth, legal, level]

end

/-- A command stopped by one of them is answered, and nothing else happens. -/
theorem arrives_refused {s : State} {i : Instr} {c : Rec} {m : Mach} {st : Nat} {res : List W64} (b : Arrives s i c m)
    (h : startStop s.fx (waits c m) c = some (st, res)) : exec i s = .next (s.put (complete s.fx c st res m)) :=
  refused_finish b h (resting_complete b.byRing b.resting)

/-! ### The obligations -/

/-- Settles O3: each value is what the reset state's fields hold, the table of contexts being empty. -/
theorem resetValues : Obligations.ResetValues := by
  refine ⟨rfl, rfl, rfl, rfl, rfl, rfl, rfl, rfl, rfl, rfl, rfl, rfl, rfl, rfl, rfl, rfl, rfl, rfl, rfl, rfl, rfl, rfl, rfl, rfl, fun c => rfl,
    rfl, rfl, rfl, rfl, rfl⟩

/-- Settles O4, by the word's fields and by what STATE_QUERY does. -/
theorem stateWordFields : Obligations.StateWordFields := by
  intro fx m
  obtain ⟨epoch, master, level, state⟩ := stateWord_fields fx m
  refine ⟨epoch, master, level, levelNum_none, fun l => levelNum_some, state, fun s p c b e => ?_⟩
  subst e
  exact exec_stateQuery b

/-- Settles O6: the first word's fields, the reply on the command's own path, and the words beyond the results. -/
theorem replyWords : Obligations.ReplyWords := by
  refine ⟨fun c st n hs hn => replyWord_fields c hs hn, fun fx c st res m ring => ?_,
    fun res => ⟨List.getD_eq_default res 0, List.getD_eq_default res 0, List.getD_eq_default res 0⟩⟩
  intro gone said
  rw [complete, sendReply_emits ring]

/-- Settles O8, by the order of the checks; a row with no entry in the table is stopped by the first. -/
theorem refusalsAtTheStart : Obligations.RefusalsAtTheStart := by
  refine ⟨fun s i c m st res b h => arrives_refused b h, fun s op p c m b unknown => ?_,
    fun fx m c => ⟨startStop_opcode, fun r row => ⟨startStop_bits row, fun bits => ⟨fun a => startStop_authority row bits, fun auth =>
      ⟨startStop_state row bits auth, startStop_level row bits auth, fun legal level => ?_⟩⟩⟩⟩⟩
  · have op' : c.opcode = op := (b.opcode (p := withOp op p) rfl).trans (opcode_withOp op p)
    exact arrives_refused b (startStop_opcode (opRow_none (by rw [op']; exact unknown)))
  · have last := startStop_context (fx := fx) row bits auth legal level
    exact ⟨fun a h => by rw [last, h]; rfl, fun h => by rw [last, h]; rfl⟩

end Sys2Proof.Machine
end

section
/-! SUPPORT. The commands on the slice as a whole, the pilot and the level (03_command_channel.md R79 to R89, R99; 17_startup_and_levels.md
R446): what each does to a block at rest. -/

namespace Sys2Proof.Machine

/-- The lease and the pilot play no part in what can go on. -/
theorem resting_pilot {m : Mach} {p : Pilot} (h : resting m = true) : resting { m with pilot := p } = true := h

/-! ### A change of pilot -/

/-- The event of a change of pilot (R89) says nothing of the pilot itself. -/
theorem pilotChange_frame (fx : Fixed) (old : BitVec 16) (kind : Nat) (m : Mach) :
    ∃ q l, pilotChange fx old kind m = { m with evq := q, out := l } := by
  rw [pilotChange]
  split
  · exact ⟨m.evq, m.out, rfl⟩
  · exact post_frame ..

theorem resting_pilotChange {fx : Fixed} {old : BitVec 16} {kind : Nat} {m : Mach} (h : resting m = true) :
    resting (pilotChange fx old kind m) = true := by
  obtain ⟨q, l, e⟩ := pilotChange_frame fx old kind m
  rw [e]; exact h

theorem stateWord_pilotChange (fx : Fixed) (old : BitVec 16) (kind : Nat) (m : Mach) :
    stateWord fx (pilotChange fx old kind m) = stateWord fx m := by
  obtain ⟨q, l, e⟩ := pilotChange_frame fx old kind m
  rw [e]; rfl

/-! ### PILOT_RELEASE (R87) -/

/-- The block as PILOT_RELEASE leaves it before it completes. -/
def pilotReleased (fx : Fixed) (m : Mach) : Mach :=
  pilotChange fx m.pilot.master 2 { m with pilot := { m.pilot with master := 0, priority := 0 } }

theorem pilotReleased_pilot (fx : Fixed) (m : Mach) : (pilotReleased fx m).pilot = { m.pilot with master := 0, priority := 0 } := by
  obtain ⟨q, l, e⟩ := pilotChange_frame fx m.pilot.master 2 { m with pilot := { m.pilot with master := 0, priority := 0 } }
  rw [pilotReleased, e]

/-- It posts PILOT_CHANGE where there was a pilot. -/
theorem pilotReleased_posts (fx : Fixed) (m : Mach) : pilotReleased fx m =
    if m.pilot.master = 0 then { m with pilot := { m.pilot with master := 0, priority := 0 } }
    else post fx 0x02 (BitVec.ofNat 64 (m.pilot.epoch.toNat * 2 ^ 32 + 2)) { m with pilot := { m.pilot with master := 0, priority := 0 } } := by
  have gone : (0 : BitVec 16).toNat * 2 ^ 16 = 0 := rfl
  rw [pilotReleased, pilotChange]
  dsimp only
  rw [gone, Nat.add_zero]
  exact if_congr eq_comm rfl rfl

theorem exec_pilotRelease {s : State} {p : CmdPkt} {c : Rec} {m : Mach} (b : Begins s (.pilotRelease p) c m) :
    exec (.pilotRelease p) s = .next (s.put (complete s.fx c csDone [] (pilotReleased s.fx m))) :=
  begins_completes b (start_pilotRelease b) (resting_pilotChange (resting_pilot b.resting))

/-- A command's arrival says nothing of the pilot. -/
theorem Arrives.pilot {s : State} {i : Instr} {c : Rec} {m : Mach} (b : Arrives s i c m) : m.pilot = s.m.pilot := by
  obtain ⟨p, -, -, -, -, e⟩ := b.row
  rw [e, atStart]
  split
  · obtain ⟨q, h⟩ := countN_frame 0x040 (if bit p.w1 20 then some (BitVec.ofNat 12 (fld p.w1 11 0)) else none) none 1 s.m
    rw [h]
  · rfl

/-! ### PILOT_CLAIM and PILOT_HANDOVER (R85, R86) -/

/-- Whether a claim of an epoch and a priority is accepted. -/
def Claims (p : Pilot) (ep : W32) (pr : Byte) : Prop :=
  (p.master = 0 ∧ p.epoch ≤ ep) ∨ p.epoch < ep ∨ (ep = p.epoch ∧ p.priority < pr)

/-- The pilot that a claim makes. -/
def claimant (c : Rec) (m : Mach) : Pilot :=
  { epoch := BitVec.ofNat 32 (fld c.pkt.p0 63 32), master := c.master, priority := BitVec.ofNat 8 (fld c.pkt.p0 7 0), leaseFrom := m.cyc }

section
variable {fx : Fixed} {c : Rec} {m : Mach}

theorem claim_test (p : Pilot) (ep : W32) (pr : Byte) :
    ((p.master = 0 && decide (p.epoch.toNat ≤ ep.toNat)) || decide (p.epoch.toNat < ep.toNat) ||
      (ep = p.epoch && decide (p.priority.toNat < pr.toNat))) = true ↔ Claims p ep pr := by
  simp only [Bool.or_eq_true, Bool.and_eq_true, decide_eq_true_eq, or_assoc]
  rfl

theorem cmdPilotClaim_accepts (h : Claims m.pilot (claimant c m).epoch (claimant c m).priority) : cmdPilotClaim fx c m =
    complete fx c csDone [stateWord fx { m with pilot := claimant c m }] (pilotChange fx m.pilot.master 0 { m with pilot := claimant c m }) := by
  rw [cmdPilotClaim]
  dsimp only
  rw [if_pos, stateWord_pilotChange]
  · rfl
  · exact (claim_test m.pilot (claimant c m).epoch (claimant c m).priority).mpr h

theorem cmdPilotClaim_denies (h : ¬ Claims m.pilot (claimant c m).epoch (claimant c m).priority) :
    cmdPilotClaim fx c m = complete fx c csDenied [stateWord fx m] m := by
  rw [cmdPilotClaim]
  exact if_neg (mt (claim_test ..).mp h)

/-- The master that a handover names is one that may be pilot, and not its sender. -/
def HandsOver (c : Rec) (t : BitVec 16) : Prop := (t = 1 ∨ t = 2 ∨ t = 3) ∧ t ≠ c.master

/-- The pilot that a handover makes. -/
def successor (c : Rec) (m : Mach) : Pilot :=
  { m.pilot with master := BitVec.ofNat 16 (fld c.pkt.p0 15 0), priority := BitVec.ofNat 8 (fld c.pkt.p0 23 16), leaseFrom := m.cyc }

theorem handover_test (t : BitVec 16) : (!(t = 1 || t = 2 || t = 3) || t = c.master) = true ↔ ¬ HandsOver c t := by
  simp only [HandsOver, Bool.or_eq_true, Bool.not_eq_true', Bool.or_eq_false_iff, decide_eq_false_iff_not, decide_eq_true_eq]
  tauto

theorem cmdPilotHandover_accepts (h : HandsOver c (BitVec.ofNat 16 (fld c.pkt.p0 15 0))) : cmdPilotHandover fx c m =
    complete fx c csDone [] (pilotChange fx m.pilot.master 1 { m with pilot := successor c m }) := by
  rw [cmdPilotHandover]
  exact if_neg fun e => (handover_test _).mp e h

theorem cmdPilotHandover_refuses (h : ¬ HandsOver c (BitVec.ofNat 16 (fld c.pkt.p0 15 0))) :
    cmdPilotHandover fx c m = complete fx c csBadParam [] m := by
  rw [cmdPilotHandover]
  exact if_pos ((handover_test _).mpr h)

end

/-! ### LEVEL_LOCK (R99) -/

/-- The block in service under its level, as LEVEL_LOCK leaves READY. -/
def entersService (m : Mach) : Mach := { m with life := { m.life with st := serviceState m } }

/-- The block with a level chosen, which is fixed as the step ends. -/
def chooses (l : BitVec 2) (m : Mach) : Mach := { m with life := { m.life with lockTo := some l } }

section
variable {fx : Fixed} {c : Rec} {m : Mach} {l : BitVec 2}

theorem finishLock_ready (st : m.life.st = .ready) :
    finishLock fx c m = complete fx c csDone [stateWord (lockFixed fx m) (entersService m)] (entersService m) := by
  rw [finishLock]
  simp only [st, true_or, if_true, reduceCtorEq, if_false]
  rfl

/-- A LEVEL_LOCK in READY with no level locked and no format map to clear chooses its level. -/
theorem cmdLevelLock_ready (st : m.life.st = .ready) (unlocked : fx.level = none) (asked : fld c.pkt.p0 7 0 = l.toNat) (level : l ≠ 0)
    (map : l = 3 ∧ fx.fmapEn ∧ ¬ fx.fmapKeep → False) : cmdLevelLock fx c m = finishLock fx c (chooses l m) := by
  have asked' : BitVec.ofNat 2 l.toNat = l := BitVec.eq_of_toNat_eq (by rw [BitVec.toNat_ofNat, Nat.mod_eq_of_lt l.isLt])
  have nonzero : ¬ l.toNat = 0 := fun e => level (BitVec.eq_of_toNat_eq e)
  have keeps : ¬ (decide (l = 3) && fx.fmapEn && !fx.fmapKeep) = true := by simpa using map
  rw [cmdLevelLock]
  dsimp only
  rw [asked, asked', if_neg nonzero, if_neg (by rw [st]; decide), if_neg (by rw [unlocked]; simp), if_neg keeps]
  rfl

theorem lockFixed_chooses (unlocked : fx.level = none) : lockFixed fx (chooses l m) = { fx with level := some l, roLocked := true } := by
  simp only [lockFixed, chooses, unlocked, Option.getD_none]

theorem noLock_chooses (lock : m.life.lockTo = none) : noLock (entersService (chooses l m)) = entersService m := by
  rw [noLock, ← lock]
  rfl

theorem complete_lockTo (ring : byRing c.pkt = false) (st : Nat) (res : List W64) : (complete fx c st res m).life.lockTo = m.life.lockTo := by
  obtain ⟨q, o, h⟩ := complete_frame fx c st res m ring
  rw [h]

end

/-- The choice takes effect as the step ends. -/
theorem exec_levelLock {s : State} {p : CmdPkt} {c : Rec} {m : Mach} {l : BitVec 2} (b : Begins s (.levelLock p) c m)
    (st : m.life.st = .ready) (unlocked : s.fx.level = none) (asked : fld c.pkt.p0 7 0 = l.toNat) (level : l ≠ 0)
    (map : l = 3 ∧ s.fx.fmapEn ∧ ¬ s.fx.fmapKeep → False) :
    let fx := { s.fx with level := some l, roLocked := true }
    exec (.levelLock p) s = .next { s with fx := fx, m := complete s.fx c csDone [stateWord fx (entersService m)] (entersService m) } := by
  intro fx
  have lock : m.life.lockTo = none := ((resting_iff m).mp b.resting).2.1
  have e : startCmd s.fx c false m =
      complete s.fx c csDone [stateWord fx (entersService (chooses l m))] (entersService (chooses l m)) := by
    rw [start_levelLock b, cmdLevelLock_ready st unlocked asked level map, finishLock_ready (m := chooses l m) st, lockFixed_chooses unlocked]
  have ends : noLock (complete s.fx c csDone [stateWord fx (entersService (chooses l m))] (entersService (chooses l m))) =
      complete s.fx c csDone [stateWord fx (entersService m)] (entersService m) := by
    rw [complete_noLock, noLock_chooses lock]
    rfl
  have rest : resting (complete s.fx c csDone [stateWord fx (entersService m)] (entersService m)) = true :=
    resting_complete b.byRing (resting_life b.resting rfl)
  rw [begins_lock b e (complete_lockTo b.byRing ..) (by rw [ends]; exact rest), ends, unlocked]
  rfl

/-! ### The obligations -/

/-- Settles O5: what PILOT_RELEASE completes from has no pilot, and completing says nothing of the pilot. -/
theorem pilotReleaseKeepsEpoch : Obligations.PilotReleaseKeepsEpoch := by
  intro s p c m b
  obtain ⟨q, l, e⟩ := complete_frame s.fx c csDone [] (pilotReleased s.fx m) b.byRing
  refine ⟨_, exec_pilotRelease b, ?_⟩
  rw [State.put, e, pilotReleased_pilot, ← b.pilot]
  exact ⟨rfl, rfl⟩

/-- Settles O12, command by command: each completes as it starts. -/
theorem smallCommandsComplete : Obligations.SmallCommandsComplete := by
  refine fun s p c m => ⟨fun b => ?nop, fun b => ?identify, exec_stateQuery, fun b => ?release, fun b => ?renew⟩
  case nop => exact begins_completes b (start_nop b) b.resting
  case identify => exact begins_completes b (start_identify b) b.resting
  case release =>
    rw [← pilotReleased_posts]
    exact exec_pilotRelease b
  case renew => exact begins_completes b (start_leaseRenew b) (resting_pilot b.resting)

/-- Settles O13: each command by the test that decides it. -/
theorem pilotClaimsAndHandover : Obligations.PilotClaimsAndHandover := by
  refine fun s p c m => ⟨fun b => ⟨fun h => ?accepts, fun h => ?denies⟩, fun b => ⟨fun h => ?hands, fun h => ?refuses⟩,
    fun b st unlocked l asked level map => exec_levelLock b st unlocked asked level map⟩
  case accepts =>
    exact begins_completes b ((start_pilotClaim b).trans (cmdPilotClaim_accepts h)) (resting_pilotChange (resting_pilot b.resting))
  case denies => exact begins_completes b ((start_pilotClaim b).trans (cmdPilotClaim_denies h)) b.resting
  case hands =>
    exact begins_completes b ((start_pilotHandover b).trans (cmdPilotHandover_accepts h)) (resting_pilotChange (resting_pilot b.resting))
  case refuses => exact begins_completes b ((start_pilotHandover b).trans (cmdPilotHandover_refuses h)) b.resting

end Sys2Proof.Machine
end

section
/-! SUPPORT. The commands on a context's record (03_command_channel.md R90 to R93; 16_recovery.md R437). -/

namespace Sys2Proof.Machine

/-- The table of contexts plays no part in what can go on. -/
theorem resting_setCtx {x : Ctx} {e : CtxEntry} {m : Mach} (h : resting m = true) : resting (setCtx x e m) = true := h

section
variable {fx : Fixed} {c : Rec} {m : Mach}

/-! ### CTX_OPEN (R90) -/

theorem cmdCtxOpen_taken (h : (ctxOf m (cCtx c)).opened = true ∨ (ctxOf m (cCtx c)).gen = cGen c) :
    cmdCtxOpen fx c m = complete fx c csBadParam [(ctxOf m (cCtx c)).gen.zeroExtend 64] m := by
  rw [cmdCtxOpen]
  exact if_pos (by simpa using h)

variable (closed : (ctxOf m (cCtx c)).opened = false) (fresh : (ctxOf m (cCtx c)).gen ≠ cGen c)
include closed fresh

theorem ctxSlot_free : ¬ ((ctxOf m (cCtx c)).opened || decide ((ctxOf m (cCtx c)).gen = cGen c)) = true := by simp [closed, fresh]

/-- The teardown hold runs. -/
theorem cmdCtxOpen_held (hold : tickOf m.cyc < (ctxOf m (cCtx c)).holdTick) :
    cmdCtxOpen fx c m = complete fx c csBusy [BitVec.ofNat 64 ((ctxOf m (cCtx c)).holdTick - tickOf m.cyc)] m := by
  rw [cmdCtxOpen]
  dsimp only
  rw [if_neg (ctxSlot_free closed fresh), if_pos hold]

/-- The hold has ended, and no key is asked for. -/
theorem cmdCtxOpen_opens (ended : (ctxOf m (cCtx c)).holdTick ≤ tickOf m.cyc) (key : bit c.pkt.p0 21 = false) :
    cmdCtxOpen fx c m = complete fx c csDone [] (openCtx c m) := by
  rw [cmdCtxOpen]
  dsimp only
  rw [if_neg (ctxSlot_free closed fresh), if_neg (Nat.not_lt.mpr ended), if_pos (by rw [key]; rfl)]

end

/-- A context opened with no key. -/
theorem openCtx_keyless {c : Rec} {m : Mach} (key : bit c.pkt.p0 21 = false) : openCtx c m = setCtx (cCtx c) { CtxEntry.closed with
    gen := cGen c, opened := true, perm := BitVec.ofNat 8 (fld c.pkt.p0 11 4), cls := BitVec.ofNat 4 (fld c.pkt.p0 3 0) } m := by
  rw [openCtx, key]
  rfl

/-! ### CTX_CLOSE (R93) -/

section
variable {fx : Fixed} {c : Rec} {m : Mach}

theorem cmdCtxClose_busy (h : ownedCount m (cCtx c) (ctxOf m (cCtx c)).gen ≠ 0 ∨ (ctxOf m (cCtx c)).conf = true) :
    cmdCtxClose fx c m = complete fx c csBusy [BitVec.ofNat 64 (ownedCount m (cCtx c) (ctxOf m (cCtx c)).gen)] m := by
  rw [cmdCtxClose]
  exact if_pos (by simpa using h)

/-- A slot closed whose context is a member of nothing. -/
theorem closeCtx_bare {x : Ctx} {g : Gen} (h : Bare m x g) : closeCtx fx x g m = setCtx x
    { CtxEntry.closed with gen := g, holdTick := tickOf m.cyc + max 1 m.regs.holdTicks.toNat }
    { m with keys := { m.keys with grants := m.keys.grants.filter (·.ctx ≠ x) }
             pmc := { m.pmc with permits := m.pmc.permits.filter (·.ctx ≠ x) } } := by
  rw [closeCtx, h.dropMemberships]

theorem cmdCtxClose_closes (h : Bare m (cCtx c) (ctxOf m (cCtx c)).gen) (plain : (ctxOf m (cCtx c)).conf = false)
    (found : (ctxOf m (cCtx c)).lost = false) :
    cmdCtxClose fx c m = complete fx c csDone [] (closeCtx fx (cCtx c) (ctxOf m (cCtx c)).gen m) := by
  have free : ¬ (decide (ownedCount m (cCtx c) (ctxOf m (cCtx c)).gen ≠ 0) || (ctxOf m (cCtx c)).conf) = true := by simp [h.owned, plain]
  rw [cmdCtxClose, if_neg free, found]
  rfl

theorem resting_closeCtx {x : Ctx} {g : Gen} (h : Bare m x g) (rest : resting m = true) : resting (closeCtx fx x g m) = true := by
  rw [closeCtx_bare h]
  exact rest

end

/-! ### The obligation -/

/-- Settles O14, command by command: each completes as it starts, with the record that its checks allow. -/
theorem contextRecords : Obligations.ContextRecords := by
  refine fun s p c m => ⟨fun b => ⟨fun taken => ?taken, fun closed fresh => ⟨fun hold => ?held, fun ended key => ?opens⟩⟩, fun b => ?cls,
    fun b => ?suspend, fun b => ?resume, fun b => ⟨fun busy => ?busy, fun owns plain found => ?closes⟩⟩
  case taken => exact begins_completes b ((start_ctxOpen b).trans (cmdCtxOpen_taken taken)) b.resting
  case held => exact begins_completes b ((start_ctxOpen b).trans (cmdCtxOpen_held closed fresh hold)) b.resting
  case opens =>
    rw [← openCtx_keyless key]
    exact begins_completes b ((start_ctxOpen b).trans (cmdCtxOpen_opens closed fresh ended key)) (resting_setCtx b.resting)
  case cls => exact begins_completes b (start_ctxSetClass b) (resting_setCtx b.resting)
  case suspend => exact begins_completes b (start_ctxSuspend b) (resting_setCtx b.resting)
  case resume => exact begins_completes b (start_ctxResume b) (resting_setCtx b.resting)
  case busy => exact begins_completes b ((start_ctxClose b).trans (cmdCtxClose_busy busy)) b.resting
  case closes =>
    have owns := bare_iff.mp owns
    rw [← closeCtx_bare owns]
    exact begins_completes b ((start_ctxClose b).trans (cmdCtxClose_closes owns plain found)) (resting_closeCtx owns b.resting)

end Sys2Proof.Machine
end

section
/-! SUPPORT. The fences of a slice and the controller's firmware (03_command_channel.md R100; 15_integrity_and_sparing.md R418;
14_confidential_operation.md R390 to R392; 16_recovery.md R431): what each command starts, and what ends it. -/

namespace Sys2Proof.Machine

/-! ### SLICE_FENCE (R100) -/

section
variable {fx : Fixed} {c : Rec} {m : Mach}

/-- The block quiesced. -/
def quieted (m : Mach) : Mach := { m with life := { m.life with st := .quiesced } }

theorem resting_quieted (h : resting m = true) : resting (quieted m) = true := resting_life h rfl

theorem cmdFence1_discards (h : cFlag c 0 = true) : cmdFence1 fx c m = complete fx c csBadParam [] m := by
  rw [cmdFence1, if_pos h]

/-- A quiesce completes where nothing admitted is left, and else waits for it. -/
theorem cmdFence1_quiets (h : cFlag c 0 = false) : cmdFence1 fx c m =
    if (quiesceKeys (quieted m)).isEmpty then complete fx c csDone [] (quieted m)
    else runOn c (.quiesce m.cyc (quiesceKeys (quieted m))) (quieted m) := by
  rw [cmdFence1, h]
  rfl

/-- Either row of SLICE_FENCE is the mode that P0 names. -/
theorem start_sliceFence {s : State} {row : Instr} {p : CmdPkt} (h : row = .sliceFenceMode0 p ∨ row = .sliceFenceMode1 p)
    (b : Begins s row c m) : startCmd s.fx c false m = if bit c.pkt.p0 0 then cmdFence1 s.fx c m else cmdFence0 s.fx c m := by
  rcases h with rfl | rfl
  · exact start_sliceFenceMode0 b
  · exact start_sliceFenceMode1 b

/-! ### What ends a quiesce -/

theorem quiesceEnd_none (h : m.cmds.running = []) : quiesceEnd fx m = m := by rw [quiesceEnd, h]; rfl

/-- The one quiesce that is running ends once nothing it waits for is left. -/
theorem quiesceEnd_one {f : Nat} {ks : List (BitVec 16 × BitVec 12)} (h : m.cmds.running = [⟨c, .quiesce f ks⟩]) :
    quiesceEnd fx m = if quiesceOut m ks then m else complete fx c csDone [] m := by
  rw [quiesceEnd, h]
  cases out : quiesceOut m ks with
  | true => simp [out]
  | false => simp [out]

theorem quiesceExpire_none (h : m.cmds.running = []) : quiesceExpire fx m = m := by rw [quiesceExpire, h]; rfl

theorem resting_quiesceReply {n : Nat} (ring : byRing c.pkt = false) (h : resting m = true) : resting (quiesceReply fx c n m) = true :=
  resting_ite (resting_complete ring h) (resting_complete ring h)

/-! ### FW_STAGE (R390) -/

/-- What is wrong with the length or the address of a stage. -/
def StageBad (c : Rec) : Prop :=
  fld c.pkt.p0 6 0 ≠ 0 ∨ fld c.pkt.p1 31 0 % 128 ≠ 0 ∨ fld c.pkt.p1 31 0 < 1024 ∨ 262144 < fld c.pkt.p1 31 0

/-- The first of the checks of a stage that it fails. -/
def stageStop (fx : Fixed) (c : Rec) (m : Mach) : Option Nat :=
  let n := fld c.pkt.p1 31 0
  let bad := decide (fld c.pkt.p0 6 0 ≠ 0) || decide (n % 128 ≠ 0) || decide (n < 1024) || decide (262144 < n)
  firstStop [stopIf bad csBadParam, stopIf (!rangeHomed fx m c.pkt.p0 n) csMishomed,
    stopIf (mapMeets fx (rangeRuns fx m c.pkt.p0 n)) csBadParam, stopIf (staging m) csBusy]

/-- A stage of the inactive bank begun: its mark is gone, and its first line is asked for. -/
def stageBegun (fx : Fixed) (c : Rec) (m : Mach) : Mach :=
  askImage fx c 0 (runOn c (.stage (!m.fw.bankB) (fld c.pkt.p1 31 0 / 128) [] none m.cyc)
    { m with fw := setBank (!m.fw.bankB) false (fwVersion m (!m.fw.bankB)) m.fw })

theorem cmdFwStage_stops {x : Nat} (h : stageStop fx c m = some x) : cmdFwStage fx c m = complete fx c x [] m := by
  rw [stageStop] at h
  rw [cmdFwStage]
  dsimp only at h ⊢
  rw [h]

theorem cmdFwStage_begins (h : stageStop fx c m = none) : cmdFwStage fx c m = stageBegun fx c m := by
  rw [stageStop] at h
  rw [cmdFwStage]
  dsimp only at h ⊢
  rw [h]
  rfl

theorem stageBad_iff : (decide (fld c.pkt.p0 6 0 ≠ 0) || decide (fld c.pkt.p1 31 0 % 128 ≠ 0) || decide (fld c.pkt.p1 31 0 < 1024) ||
    decide (262144 < fld c.pkt.p1 31 0)) = true ↔ StageBad c := by
  simp only [StageBad, Bool.or_eq_true, decide_eq_true_eq, or_assoc]

theorem stageStop_bad (h : StageBad c) : stageStop fx c m = some csBadParam := by
  rw [stageStop, stageBad_iff.mpr h]
  rfl

variable (good : ¬ StageBad c)
include good

theorem stageStop_good : stageStop fx c m = firstStop [stopIf (!rangeHomed fx m c.pkt.p0 (fld c.pkt.p1 31 0)) csMishomed,
    stopIf (mapMeets fx (rangeRuns fx m c.pkt.p0 (fld c.pkt.p1 31 0))) csBadParam, stopIf (staging m) csBusy] := by
  rw [stageStop, Bool.eq_false_iff.mpr (mt stageBad_iff.mp good)]
  rfl

theorem stageStop_abroad (home : rangeHomed fx m c.pkt.p0 (fld c.pkt.p1 31 0) = false) : stageStop fx c m = some csMishomed := by
  rw [stageStop_good good, home]
  rfl

variable (home : rangeHomed fx m c.pkt.p0 (fld c.pkt.p1 31 0) = true)
include home

theorem stageStop_map (map : mapMeets fx (rangeRuns fx m c.pkt.p0 (fld c.pkt.p1 31 0)) = true) : stageStop fx c m = some csBadParam := by
  rw [stageStop_good good, home, map]
  rfl

variable (map : mapMeets fx (rangeRuns fx m c.pkt.p0 (fld c.pkt.p1 31 0)) = false)
include map

theorem stageStop_busy (busy : staging m = true) : stageStop fx c m = some csBusy := by
  rw [stageStop_good good, home, map, busy]
  rfl

theorem stageStop_none (free : staging m = false) : stageStop fx c m = none := by
  rw [stageStop_good good, home, map, free]
  rfl

end

/-! ### FW_ACTIVATE (R391) -/

section
variable {fx : Fixed} {c : Rec} {m : Mach}

theorem cmdFwActivate_refuses (h : bit c.pkt.p0 0 = m.fw.bankB ∨ bankOk m (bit c.pkt.p0 0) = false) :
    cmdFwActivate fx c m = complete fx c csBadParam [] m := by
  rw [cmdFwActivate]
  exact if_pos (by simpa using h)

/-- With no other command in progress the controller restarts from the bank at once. -/
theorem cmdFwActivate_restarts (other : bit c.pkt.p0 0 ≠ m.fw.bankB) (ok : bankOk m (bit c.pkt.p0 0) = true) (idle : m.cmds.running = []) :
    cmdFwActivate fx c m = runOn c (.activate (bit c.pkt.p0 0) true m.cyc) { m with fw := { m.fw with paused := true, bankB := bit c.pkt.p0 0 } } := by
  have good : ¬ (decide (bit c.pkt.p0 0 = m.fw.bankB) || !bankOk m (bit c.pkt.p0 0)) = true := by simp [other, ok]
  rw [cmdFwActivate]
  dsimp only
  rw [if_neg good, pumpActivate]
  simp [runOn, setProg, idle]

theorem activating_none (h : m.cmds.running = []) : activating m = none := by rw [activating, h]; rfl

theorem activating_one {b : Bool} {f : Nat} (h : m.cmds.running = [⟨c, .activate b true f⟩]) : activating m = some (c, b, f) := by
  rw [activating, h]; rfl

theorem activateReady_none (h : m.cmds.running = []) : activateReady fx m = m := by rw [activateReady, activating_none h]

/-- The one activation that waits completes, and the pause is over. -/
theorem activateReady_one {b : Bool} {f : Nat} (h : m.cmds.running = [⟨c, .activate b true f⟩]) : activateReady fx m =
    complete fx c csDone [(fwVersion m b).zeroExtend 64, (fwVersion m (!b)).zeroExtend 64] { m with fw := { m.fw with paused := false } } := by
  rw [activateReady, activating_one h]

theorem activateExpire_none (h : m.cmds.running = []) : activateExpire fx m = m := by rw [activateExpire, activating_none h]

/-- The controller back on its former bank, the new one's mark gone. -/
def fellBack (b : Bool) (m : Mach) : Mach :=
  { m with fw := { setBank b false (fwVersion m b) m.fw with bankB := !b, paused := false } }

theorem activateExpire_one {b : Bool} {f : Nat} (h : m.cmds.running = [⟨c, .activate b true f⟩]) : activateExpire fx m =
    if m.cyc < f + 65536 then m else complete fx c csWarn
      [(fwVersion (fellBack b m) (!b)).zeroExtend 64, (fwVersion (fellBack b m) b).zeroExtend 64] (fellBack b m) := by
  rw [activateExpire, activating_one h]
  rfl

theorem stageExpire_none (h : m.cmds.running = []) : stageExpire fx m = m := by rw [stageExpire, h]; rfl

end

/-! ### The hardware fence (16 R431) -/

theorem hwFenceOff_none {m : Mach} (h : m.life.hwFence = none) : hwFenceOff m = m := by rw [hwFenceOff, h]

theorem hwFenceOff_some {m : Mach} {t : Nat} (h : m.life.hwFence = some t) : hwFenceOff m = if t ≤ m.cyc then switchOff m else m := by
  rw [hwFenceOff, h]

theorem resting_switchOff {m : Mach} (h : resting m = true) : resting (switchOff m) = true := resting_life (resting_loseKeys h) rfl

/-! ### The obligation -/

/-- The rows that end what a fence or the firmware's commands wait for, and that carry no time. -/
theorem exec_ends_untimed {s : State} {c : Rec} (h : resting s.m = true) (ring : byRing c.pkt = false) :
    (s.m.cmds.running = [] → exec .quiesceDrained s = .next s ∧ exec .fwActivateReady s = .next s) ∧
    (∀ f ks, s.m.cmds.running = [⟨c, .quiesce f ks⟩] →
      (quiesceOut s.m ks = true → exec .quiesceDrained s = .next s) ∧
      (quiesceOut s.m ks = false → exec .quiesceDrained s = .next (s.put (complete s.fx c csDone [] s.m)))) ∧
    (∀ b f, s.m.cmds.running = [⟨c, .activate b true f⟩] → exec .fwActivateReady s = .next (s.put (complete s.fx c csDone
      [(fwVersion s.m b).zeroExtend 64, (fwVersion s.m (!b)).zeroExtend 64] { s.m with fw := { s.m.fw with paused := false } }))) := by
  simp only [row_quiesceDrained, row_fwActivateReady]
  refine ⟨fun idle => ⟨actM_rest (quiesceEnd_none idle) h, actM_rest (activateReady_none idle) h⟩,
    fun f ks one => ⟨fun out => actM_rest ?_ h, fun drained => actM_rest ?_ (resting_complete ring h)⟩,
    fun b f one => actM_rest (activateReady_one one) (resting_complete ring (resting_fw h))⟩
  · rw [quiesceEnd_one one, if_pos out]
  · rw [quiesceEnd_one one, drained, if_neg Bool.false_ne_true]

/-- The rows of their timeouts with nothing in progress. -/
theorem exec_expires_idle {s : State} {cyc : Nat} (h : resting s.m = true) (idle : (advance cyc s.m).cmds.running = []) :
    exec (.quiesceTimeout cyc) s = .next (s.put (advance cyc s.m)) ∧ exec (.fwStageTimeout cyc) s = .next (s.put (advance cyc s.m)) ∧
    exec (.fwActivateTimeout cyc) s = .next (s.put (advance cyc s.m)) := by
  rw [row_quiesceTimeout, row_fwStageTimeout, row_fwActivateTimeout]
  exact ⟨actAt_rest (quiesceExpire_none idle) (resting_advance h), actAt_rest (stageExpire_none idle) (resting_advance h),
    actAt_rest (activateExpire_none idle) (resting_advance h)⟩

/-- Settles O31: the commands in the order of the statement, then the rows that end them, then the hardware fence. -/
theorem fenceAndFirmwareRows : Obligations.FenceAndFirmwareRows := by
  intro s p c m ends
  refine ⟨fun row which b => ?fence, fun b => ?stage, fun b => ?activate, fun b => ?query, fun h ring => ?ends⟩
  case fence =>
    have start := start_sliceFence which b
    refine ⟨fun one discard => ?discards, fun one keep => ?quiesces, fun zero => ?fences⟩
    case discards =>
      rw [one, if_pos rfl, cmdFence1_discards discard] at start
      exact begins_completes b start b.resting
    case quiesces =>
      rw [one, if_pos rfl, cmdFence1_quiets keep] at start
      exact ⟨fun idle => begins_completes b (start.trans (if_pos (List.isEmpty_iff.mpr idle))) (resting_quieted b.resting),
        fun left => begins_finish b (start.trans (if_neg (mt List.isEmpty_iff.mp left))) (resting_runOn (resting_quieted b.resting) rfl)⟩
    case fences =>
      rw [zero, if_neg Bool.false_ne_true] at start
      exact ⟨begins_onward b start, begins_finish b start⟩
  case stage =>
    intro n bad
    have stops : ∀ {x}, stageStop s.fx c m = some x → ends (.fwStage p) x [] m :=
      fun e => begins_completes b ((start_fwStage b).trans (cmdFwStage_stops e)) b.resting
    exact ⟨fun wrong => stops (stageStop_bad wrong), fun good abroad => stops (stageStop_abroad good abroad),
      fun good home map => stops (stageStop_map good home map), fun good home map busy => stops (stageStop_busy good home map busy),
      fun good home map free => begins_onward b ((start_fwStage b).trans (cmdFwStage_begins (stageStop_none good home map free)))⟩
  case activate =>
    exact ⟨fun no => begins_completes b ((start_fwActivate b).trans (cmdFwActivate_refuses no)) b.resting, fun other ok idle =>
      begins_finish b ((start_fwActivate b).trans (cmdFwActivate_restarts other ok idle)) (resting_runOn (resting_fw b.resting) rfl)⟩
  case query => exact begins_completes b (start_fwQuery b) b.resting
  case ends =>
    obtain ⟨idle, quiesces, activates⟩ := exec_ends_untimed (c := c) h ring
    refine ⟨idle, quiesces, activates, fun cyc => ?_⟩
    intro n
    have rest : resting n = true := resting_advance h
    refine ⟨exec_expires_idle h, fun f ks one => ?quiesce, fun b k i r f one => ?stageLate, fun b f one => ?activate, fun off => ?noFence, fun t on => ?fence⟩
    case quiesce =>
      rw [row_quiesceTimeout]
      have e := quiesceExpire_one s.fx n c f ks one
      exact ⟨fun early => actAt_rest (e.trans (if_neg (Nat.not_le.mpr early))) rest,
        fun late => actAt_rest (e.trans (if_pos late)) (resting_quiesceReply ring rest)⟩
    case stageLate =>
      rw [row_fwStageTimeout]
      have e := stageExpire_one s.fx n c b k i r f one
      exact ⟨fun early => actAt_rest (e.trans (if_neg (Nat.not_le.mpr early))) rest,
        fun late => actAt_rest (e.trans (if_pos late)) (resting_complete ring rest)⟩
    case activate =>
      rw [row_fwActivateTimeout]
      have e := activateExpire_one (fx := s.fx) one
      exact ⟨fun early => actAt_rest (e.trans (if_pos early)) rest,
        fun late => actAt_rest (e.trans (if_neg (Nat.not_lt.mpr late))) (resting_complete ring (resting_fw rest))⟩
    case noFence =>
      rw [row_hwFencePowerOff]
      exact actAt_rest (hwFenceOff_none off) rest
    case fence =>
      rw [row_hwFencePowerOff]
      have e := hwFenceOff_some on
      exact ⟨fun early => actAt_rest (e.trans (if_neg (Nat.not_le.mpr early))) rest,
        fun due => actAt_rest (e.trans (if_pos due)) (resting_switchOff rest)⟩

end Sys2Proof.Machine
end

section
/-! SUPPORT. The checks that every data-plane request meets first (03_command_channel.md R481; 16_recovery.md R435; 06_atomics_and_sync.md
R194): each answers what fails it, and what passes them all goes on to its opcode's own. -/

namespace Sys2Proof.Machine

/-! ### The gate, check by check -/

section
variable {op : BitVec 6} {r : Req} {own : Own} {fields level : Bool} {m : Mach}

theorem gate_fenced (fenced : fencedLike m = true) :
    gate op r own fields level m = .stop (if op = opPFHINT then m else bounce r op m) := by
  rw [gate, if_pos fenced]

variable (unfenced : fencedLike m = false)
include unfenced

theorem gate_denied : gate op r .denied fields level m = .stop (if op = opPFHINT then countR 0x010 r m else answer r op stDenied m) := by
  rw [gate, unfenced, if_neg Bool.false_ne_true, if_pos rfl]

theorem gate_mishomed : gate op r .mishomed fields level m = .stop (turnAway op r m) := by
  rw [gate, unfenced, if_neg Bool.false_ne_true, if_neg (by decide), if_pos rfl]

/-- The checks after that of the address, in their order. -/
theorem gate_owned : gate op r .ok fields level m =
    if fields = false then .stop (refuse op r m)
    else if effState m = .ready then .stop (answerQ op r stDenied m)
    else if effState m = .quiesced then .stop (answerQ op r stRetry m)
    else if level = false then .stop (refuse op r m)
    else if ¬ ((ctxOf m r.ctx).opened = true ∧ (ctxOf m r.ctx).purged = false ∧ (ctxOf m r.ctx).gen = r.gen) then .stop (orphan op r m)
    else if (ctxOf m r.ctx).suspended = true ∨ (ctxOf m r.ctx).frozen = true ∨ (ctxOf m r.ctx).lost = true then
      .stop (if op = opPFHINT then countR 0x010 r m else answer r op stRetry m)
    else if (ctxOf m r.ctx).perm.getLsbD (permBit op) = false then .stop (refuse op r m)
    else .pass := by
  rw [gate, unfenced]
  simp only [Bool.false_eq_true, if_false, reduceCtorEq, Bool.or_eq_true, or_assoc, Bool.not_eq_eq_eq_not, Bool.and_eq_true,
    decide_eq_true_eq, Bool.not_true, ← Bool.not_eq_true, and_assoc]

end

/-! ### What a stopped request leaves -/

theorem resting_noteOrphan {op : BitVec 6} {r : Req} {m : Mach} (h : resting m = true) : resting (noteOrphan op r m) = true := by
  have counted : resting (count 0x012 m) = true := resting_count h
  exact counted

theorem resting_refuse {op : BitVec 6} {r : Req} {m : Mach} (h : resting m = true) : resting (refuse op r m) = true :=
  resting_ite (resting_countR h) (resting_deny h)

theorem resting_turnAway {op : BitVec 6} {r : Req} {m : Mach} (h : resting m = true) : resting (turnAway op r m) = true :=
  resting_ite (resting_count h) (resting_bounce h)

theorem resting_answerQ {op : BitVec 6} {r : Req} {st : BitVec 4} {m : Mach} (h : resting m = true) : resting (answerQ op r st m) = true :=
  resting_ite h (resting_answer h)

/-- A request that the gate stops is answered as the gate says, and nothing else happens. -/
theorem Lands.stopped {s : State} {i : Instr} {op : BitVec 6} {r : Req} {m t : Mach} (h : Lands s i op r m)
    (e : gateFor s.fx op r m = .stop t) (rest : Machine.resting t = true) : exec i s = .next (s.put t) :=
  h.put (serveDp_stop none e) rest

/-- Its acceptance plays no part in whether the slice is as fenced. -/
theorem Lands.fencedLike_eq {s : State} {i : Instr} {op : BitVec 6} {r : Req} {m : Mach} (h : Lands s i op r m) :
    Machine.fencedLike m = Machine.fencedLike s.m := by
  obtain ⟨q, e⟩ := h.frame
  rw [e]
  rfl

/-! ### What the gate lets pass, and what it does not know -/

/-- A hint that it lets pass is carried out where its line lies. -/
theorem serveDp_hint {fx : Fixed} {r : Req} {m : Mach} {off : BitVec 35} (pass : gateFor fx opPFHINT r m = .pass)
    (home : memHome fx m r.address = .at off) : serveDp fx opPFHINT r none m = (runHint fx r off (taken m) m, true) := by
  have pass' : gate opPFHINT r (ownMem (memHome fx m r.address)) (memFields opPFHINT r) true m = .pass := pass
  rw [serveDp, if_pos rfl, serveHint, pass', home]

/-- An unassigned opcode names no space: of its address the processor alone is looked at (log 14). -/
theorem gateFor_unassigned {fx : Fixed} {op : BitVec 6} {r : Req} {m : Mach} (h : op ∉ dpOps) :
    gateFor fx op r m = gate op r (if fld r.address 63 48 = fx.procId.toNat then .ok else .mishomed) false true m := by
  have other : ∀ x ∈ dpOps, op ≠ x := fun x hx e => h (e ▸ hx)
  rw [gateFor, if_neg (not_or.mpr ⟨other _ (by decide), other _ (by decide)⟩),
    if_neg (not_or.mpr ⟨other _ (by decide), not_or.mpr ⟨other _ (by decide), other _ (by decide)⟩⟩),
    if_neg (not_or.mpr ⟨other _ (by decide), other _ (by decide)⟩), if_neg (not_or.mpr ⟨other _ (by decide), other _ (by decide)⟩), if_neg h]
  simp only [decide_eq_true_eq]

/-- A request whose manifest stops it is answered so (R194), whichever unit it was for. -/
theorem serveDp_manifest {fx : Fixed} {op : BitVec 6} {r : Req} {m : Mach} {x : BitVec 4} (pass : gateFor fx op r m = .pass)
    (hint : op ≠ opPFHINT) (signal : op ≠ opSIGNAL) (wait : op ≠ opWAIT) (assigned : op ∈ dpOps) (ok : sound m = true)
    (stop : manifestStop m r = some x) : serveDp fx op r none m = (answer r op x m, true) := by
  have sync : ¬ (op = opSIGNAL ∨ op = opWAIT) := not_or.mpr ⟨signal, wait⟩
  rw [gateFor, if_neg sync] at pass
  rw [serveDp, if_neg hint, if_neg sync]
  by_cases tile : op = opTCONTRIB ∨ op = opTCONTRIBW ∨ op = opTFOLD
  · rw [if_pos tile] at pass
    rw [if_pos tile, serveTile]
    simp only at pass ⊢
    simp only [pass, scanManifest_sound fx r ok, stop]
  rw [if_neg tile] at pass
  rw [if_neg tile]
  by_cases berth : op = opBRD ∨ op = opBWR
  · rw [if_pos berth] at pass
    rw [if_pos berth, serveBerth]
    simp only at pass ⊢
    simp only [pass, scanManifest_sound fx r ok, stop]
  rw [if_neg berth] at pass
  rw [if_neg berth]
  by_cases ferry : op = opQENQ ∨ op = opQDEQ
  · rw [if_pos ferry] at pass
    rw [if_pos ferry, serveFerry]
    simp only at pass ⊢
    simp only [pass, scanManifest_sound fx r ok, stop]
  rw [if_neg ferry, if_pos assigned] at pass
  rw [if_neg ferry, if_pos assigned, serveMem]
  simp only [pass, scanManifest_sound fx r ok, stop]

/-! ### The obligation -/

/-- Settles O35: the checks in their order, then the hint that passes them, the opcode that is not assigned, and the manifest's check. -/
theorem dataPlaneChecks : Obligations.DataPlaneChecks := by
  intro s i op r m h e st hint ends
  have rest : resting m = true := h.resting
  refine ⟨fun own fields level g => ?gate, ?hint, ?unassigned,
    fun pass nh ns nw assigned ok x stop => h.put (serveDp_manifest pass nh ns nw assigned ok stop) (resting_answer rest)⟩
  case gate =>
    obtain ⟨q, rfl⟩ := h.frame
    intro opened held
    refine ⟨fun fenced => h.stopped (g.trans (gate_fenced fenced)) (resting_ite rest (resting_bounce rest)),
      fun unfenced own' => ?denied, fun unfenced own' => ?mishomed, fun unfenced own' => ?fields, fun unfenced own' => ?later⟩
    all_goals subst own'
    case denied => exact h.stopped (g.trans (gate_denied unfenced)) (resting_ite (resting_countR rest) (resting_answer rest))
    case mishomed => exact h.stopped (g.trans (gate_mishomed unfenced)) (resting_turnAway rest)
    all_goals replace g := g.trans (gate_owned unfenced)
    case fields => exact fun wrong => h.stopped (g.trans (if_pos wrong)) (resting_refuse rest)
    case later =>
      intro right
      replace g := g.trans (if_neg (ne_false_of_eq_true right))
      refine ⟨fun ready => h.stopped (g.trans (if_pos ready)) (resting_answerQ rest), fun quiesced => ?_, fun nr nq => ?_⟩
      · have nr : st ≠ .ready := fun ready => by rw [ready] at quiesced; cases quiesced
        exact h.stopped ((g.trans (if_neg nr)).trans (if_pos quiesced)) (resting_answerQ rest)
      replace g := (g.trans (if_neg nr)).trans (if_neg nq)
      refine ⟨fun low => h.stopped (g.trans (if_pos low)) (resting_refuse rest), fun has => ?_⟩
      replace g := g.trans (if_neg (ne_false_of_eq_true has))
      refine ⟨fun gone => h.stopped (g.trans (if_pos gone)) (resting_noteOrphan (resting_ite rest (resting_answer rest))),
        fun live holds => ?_, fun live free no => ?_, fun live free may => ?_⟩
      all_goals replace g := g.trans (if_neg (not_not.mpr live))
      · exact h.stopped (g.trans (if_pos holds)) (resting_ite (resting_countR rest) (resting_answer rest))
      all_goals replace g := g.trans (if_neg free)
      · exact h.stopped (g.trans (if_pos no)) (resting_refuse rest)
      · exact g.trans (if_neg (ne_false_of_eq_true may))
  case hint =>
    rintro rfl pass off home
    obtain ⟨rfl, -⟩ := Prod.mk.inj (Option.some.inj h.row)
    exact h.after (serveDp_hint pass home)
  case unassigned =>
    rintro rfl unknown unfenced
    have g := gateFor_unassigned (fx := s.fx) (r := r) (m := m) unknown
    have loud : op ≠ opPFHINT := fun x => unknown (by rw [x]; decide)
    have unfenced' : fencedLike m = false := h.fencedLike_eq.trans unfenced
    refine ⟨fun other => ?_, fun here => ?_⟩
    · rw [if_neg other, gate_mishomed unfenced', turnAway, if_neg loud] at g
      exact h.stopped g (resting_bounce rest)
    · rw [if_pos here, gate_owned unfenced', if_pos rfl, refuse, if_neg loud] at g
      exact h.stopped g (resting_deny rest)

end Sys2Proof.Machine
end

section
/-! SUPPORT. Commands given to the maintenance engine: which it refuses, what it carries through at once, and the range commands
over one line (04_cache.md R136, R137, R140). -/

namespace Sys2Proof.Machine

/-! ### What the engine refuses, holds and carries through (R140) -/

/-- The opcode of a row that sets no flag. -/
theorem Arrives.opcode_plain {s : State} {i : Instr} {c : Rec} {m : Mach} (b : Arrives s i c m) {op : Byte} {p : CmdPkt}
    (h : packetOf s.fx i = some (withOp op p)) : c.opcode = op := (b.opcode h).trans (opcode_withOp op p)

/-- The opcode of a row that sets one. -/
theorem Arrives.opcode_flagged {s : State} {i : Instr} {c : Rec} {m : Mach} (b : Arrives s i c m) {op : Byte} {k : Nat} {p : CmdPkt}
    (h : packetOf s.fx i = some (withFlag k (withOp op p))) : c.opcode = op :=
  ((b.opcode h).trans (opcode_withFlag k _)).trans (opcode_withOp op p)

/-- No acknowledgement has come in where nothing under way can go on. -/
theorem done_resting {m : Mach} (h : resting m = true) : m.cache.done = [] := ((resting_iff m).mp h).1.done

section
variable {s : State} {i : Instr} {c : Rec} {m : Mach} {stop : Option Nat}

/-- A command that fails a check completes with that check's status, and the fifth with BUSY_RETRY. -/
theorem begins_refused (b : Begins s i c m) (start : startCmd s.fx c false m = holdMaint s.fx c stop m) :
    (∀ st, stop = some st → exec i s = .next (s.put (complete s.fx c st [] m))) ∧
    (stop = none → 4 ≤ (m.cmds.running.filter fun r => isMaint r.prog).length → exec i s = .next (s.put (complete s.fx c csBusy [] m))) := by
  refine ⟨?stopped, ?full⟩
  case stopped =>
    rintro st rfl
    exact begins_completes b start b.resting
  case full =>
    rintro rfl full
    exact begins_completes b (start.trans (hold_full full)) b.resting

/-- One behind one to three others is held. -/
theorem begins_held (b : Begins s i c m) (start : startCmd s.fx c false m = holdMaint s.fx c stop m) (h95 : c.opcode ≠ 0x95) :
    stop = none → 0 < (m.cmds.running.filter fun r => isMaint r.prog).length →
      (m.cmds.running.filter fun r => isMaint r.prog).length < 4 → exec i s = .next (s.put (runOn c .maintHeld m)) := by
  rintro rfl behind room
  exact begins_finish b (start.trans (hold_held behind room h95)) (resting_runOn b.resting rfl)

/-- One that the idle engine carries through at once: its steps leave the block as `n`, and it ends as its reply says. -/
theorem begins_carried (b : Begins s i c m) (start : startCmd s.fx c false m = holdMaint s.fx c none m) {n t : Mach} {p : MaintProg}
    {ds : List Nat} {st : Nat} {res : List W64} (idle : m.cmds.running = []) (op : c.opcode ≠ 0x38 ∧ c.opcode ≠ 0x95)
    (spare : c.opcode = 0x93 → spareTaken m c = false) (up : awake m ds = true) (engine : dEngine ∈ ds)
    (steps : ∀ q, maintSteps s.fx c (maintStart s.fx m c) (runOn c q m) = (runOn c q n, p, true)) (acked : p.left = 0)
    (ends : ∀ q, endMaint s.fx c p (runOn c q n) = complete s.fx c st res t) (settled : n.cache.done = []) (rest : resting t = true) :
    exec i s = .next (s.put (complete s.fx c st res t)) :=
  begins_completes b (start.trans ((hold_run s.fx c m n p idle op.1 op.2 (done_resting b.resting) settled ds up engine acked spare
    steps).trans (ends _))) rest

end

/-! ### A range command over one line -/

/-- A range of one line before the idle engine: nothing is held back, no host holds anything, and all that its step needs is awake. -/
structure OneLine (fx : Fixed) (c : Rec) (l : LineNo) (m : Mach) : Prop where
  length : c.pkt.p1 = 128
  runs : rangeRuns fx m c.pkt.p0 128 = [(l.toNat, 1)]
  idle : m.cmds.running = []
  ents : m.dir.ents = []
  reclaim : m.dir.reclaim = none
  sound : sound m = true
  first : waitsBefore m (placed m (ownWrite (.cmd c.id) .write l 0 0)) = false
  up : awake m [dEngine, dTag (quadOf l), dDir (quadOf l)] = true

/-- A line that lies in a way, and of which nothing is under way. -/
structure InWay (l : LineNo) (way : Nat) (m : Mach) : Prop where
  hit : hitWay m l = some way
  filling : way ∉ fillingWays m (setOf l)
  ticket : ticketFor m l = none
  slips : slipsOf m l = []
  fills : ¬ m.sparse.fills.any (fun f => f.line = l)

/-- A line that is absent, and of which nothing is under way. -/
structure Nowhere (l : LineNo) (m : Mach) : Prop where
  miss : hitWay m l = none
  slips : slipsOf m l = []
  ticket : ¬ m.cache.tickets.any (fun t => t.line = l && t.kind = .merge)
  merge : ¬ m.cache.writes.any (fun w => isMerge w.after && w.line = l)

section
variable {fx : Fixed} {c : Rec} {l : LineNo} {way : Nat} {p : MaintProg} {m : Mach} {q : Prog}

theorem dropWay_sound (h : sound m = true) (set : Nat) : dropWay set way m = setTag set way .free m :=
  clearWords_sound set way 0xF h

/-- With nothing of the line in the slipway there is nothing to wait for. -/
theorem awaitSlips_nil (h : slipsOf m l = []) (id : Nat) : awaitSlips l id p m = (m, p) := by
  rw [awaitSlips, h]
  rfl

/-- A line that needs no write back is left by RANGE_CLEAN, and discarded by RANGE_INVAL and RANGE_FLUSH (Table CACHE-10). -/
theorem rangeHit_discards (h : InWay l way m) (zero : c.opcode ≠ 0x35) (clean : (tagAt m (setOf l) way).d = 0 ∨ c.opcode = 0x33) :
    rangeHit fx c l way p m = .ok (if c.opcode = 0x32 then m else dropWay (setOf l) way m) { p with res1 := p.res1 + b2n (c.opcode ≠ 0x32) } := by
  have bank : c.opcode = 0x35 ∨ c.opcode = 0x33 ∨ (tagAt m (setOf l) way).d = 0 ∨ bankless (tagAt m (setOf l) way) = true :=
    clean.elim (fun d => .inr (.inr (.inl d))) fun inval => .inr (.inl inval)
  have noWrite : (decide ((tagAt m (setOf l) way).d = 0) || decide (c.opcode = 0x33)) = true := by simpa using clean
  simp only [rangeHit, h.filling, h.ticket, h.fills, Option.any_none, decide_false, Bool.or_self, Bool.false_eq_true, if_false, if_pos bank]
  simp only [Bool.not_true, Bool.false_eq_true, zero, if_false, noWrite, if_true, awaitSlips_nil h.slips]

/-- RANGE_ZERO makes every sector of the line Dirty zero, and leaves its data as they are. -/
theorem rangeHit_zeroes (h : InWay l way m) (ok : sound m = true) (zero : c.opcode = 0x35) :
    rangeHit fx c l way p m = .ok (setTag (setOf l) way { tagAt m (setOf l) way with
      v := 0xF, d := 0xF, z := 0xF, poison := false, cls := m.regs.maintTc } (markRewritten l m)) { p with res1 := p.res1 + 1 } := by
  simp only [rangeHit, h.filling, h.ticket, h.fills, Option.any_none, Bool.false_eq_true, if_false, zero, true_or, if_true,
    Bool.not_true, clearWords_sound _ _ _ ok]
  rfl

/-- RANGE_CLEAN, RANGE_INVAL and RANGE_FLUSH of an absent line do nothing. -/
theorem rangeMiss_nothing (h : Nowhere l m) (zero : c.opcode ≠ 0x35) : rangeMiss fx c l p m = .ok m p := by
  have drop : ((slipsOf m l).filter (!·.issued)).foldl (fun m w => discardSlip w m) m = m := by rw [h.slips]; rfl
  simp only [rangeMiss, h.ticket, h.merge, Bool.or_self, Bool.false_eq_true, zero, if_false, drop, ite_self, awaitSlips_nil h.slips]

/-- The command that runs has no part in what is found of a line. -/
theorem InWay.runOn (h : InWay l way m) : InWay l way (Machine.runOn c q m) := ⟨h.hit, h.filling, h.ticket, h.slips, h.fills⟩

theorem Nowhere.runOn (h : Nowhere l m) : Nowhere l (Machine.runOn c q m) := ⟨h.miss, h.slips, h.ticket, h.merge⟩

theorem resting_dropWay {set : Nat} (h : resting m = true) : resting (dropWay set way m) = true := resting_clearWords (resting_setTag h)

@[simp] theorem maintStart_res1 : (maintStart fx m c).res1 = 0 := rfl

/-- The line's step waits for nothing, and finds the line in a way or not. -/
theorem rangeLine_goes (one : OneLine fx c l m) (rest : resting m = true) (fresh : p.snooped = false) :
    rangeLine fx c l p (runOn c q m) =
      (hitWay m l).elim (rangeMiss fx c l p (runOn c q m)) fun way => rangeHit fx c l way p (runOn c q m) := by
  have up : waitDoms c.id [dTag (quadOf l), dDir (quadOf l)] (runOn c q m) = (runOn c q m, true) :=
    waitDoms_awake _ (show awake (runOn c q m) [dEngine, dTag (quadOf l), dDir (quadOf l)] = true from one.up) (by simp)
  have first : waitsBefore (runOn c q m) (placed (runOn c q m) (ownWrite (.cmd c.id) .write l 0 0)) = false := one.first
  have ok : sound (runOn c q m) = true := one.sound
  have recalls : (runOn c q m).dir.recalls = [] := ((resting_iff m).mp rest).1.recalls.1
  have same : ({ p with snooped := false } : MaintProg) = p := by rw [← fresh]
  have hit : hitWay (runOn c q m) l = hitWay m l := rfl
  simp only [rangeLine, up, first, Bool.not_true, Bool.or_self, Bool.false_eq_true, if_false, scanDir_sound fx l ok,
    dirGate_empty (m := runOn c q m) fx _ _ _ _ _ one.ents recalls one.reclaim, scanSet_sound fx _ ok, same, hit]
  cases hitWay m l <;> rfl

/-- What a range command over one line makes of the range at its start. -/
theorem maintStart_one (one : OneLine fx c l m) (op : 0x32 ≤ c.opcode.toNat ∧ c.opcode.toNat ≤ 0x35) :
    (maintStart fx m c).runs = [(l.toNat, 1)] := by
  show maintRuns fx m c = _
  rw [maintRuns, if_pos op, one.length]
  exact one.runs

/-- A range of one line is passed with that line's step. -/
theorem maintSteps_one {n : Mach} {k : Nat} (one : OneLine fx c l m) (op : 0x32 ≤ c.opcode.toNat ∧ c.opcode.toNat ≤ 0x35)
    (step : rangeLine fx c l (maintStart fx m c) (runOn c q m) = .ok (runOn c q n) { maintStart fx m c with res1 := k }) :
    maintSteps fx c (maintStart fx m c) (runOn c q m) = (runOn c q n, { maintStart fx m c with res1 := k, next := 1 }, true) := by
  have runs := maintStart_one one op
  have length : runsLen (maintStart fx m c).runs = 1 := by rw [runs]; rfl
  have next : (maintStart fx m c).next = 0 := by
    have other : c.opcode ≠ 0x94 := by rintro e; rw [e] at op; exact absurd op (by decide)
    exact if_neg other
  have start : rangeNext (runOn c q m) c (maintStart fx m c) = some (l, 1) := by
    rw [rangeNext, if_pos (.inr (by omega)), runs, next]
    simp [runsAt]
  have stop : rangeNext (runOn c q n) c { maintStart fx m c with res1 := k, next := 1, at_ := none } = none := by
    rw [rangeNext, if_pos (.inr (by show runsLen (maintStart fx m c).runs ≤ 4096; omega))]
    show (runsAt (maintStart fx m c).runs 1).map _ = none
    rw [runs]
    rfl
  rw [maintSteps, if_pos op, length, if_pos (.inr (by omega)), runRange, start]
  simp only [step]
  rw [runRange, stop]
  rfl

/-- The reply of a range command that met no poisoned line. -/
theorem endMaint_range (op : 0x32 ≤ c.opcode.toNat ∧ c.opcode.toNat ≤ 0x35) (clean : p.res2 = 0) (n : Mach) :
    endMaint fx c p n = complete fx c csDone [BitVec.ofNat 64 p.res0, BitVec.ofNat 64 p.res1, 0] n := by
  have other : ∀ x : Byte, 0x35 < x.toNat → c.opcode ≠ x := by rintro x above rfl; omega
  simp only [endMaint, other 0x36 (by decide), other 0x37 (by decide), other 0x95 (by decide), other 0x93 (by decide),
    other 0x94 (by decide), or_self, if_false, clean, ne_eq, not_true_eq_false]
  rfl

end

/-- A range command whose one step leaves the block as `n` completes with it, and answers what it counted. -/
theorem begins_ranged {s : State} {i : Instr} {c : Rec} {m n : Mach} {l : LineNo} {k : Nat} (b : Begins s i c m)
    (start : startCmd s.fx c false m = holdMaint s.fx c none m) (op : 0x32 ≤ c.opcode.toNat ∧ c.opcode.toNat ≤ 0x35)
    (one : OneLine s.fx c l m)
    (step : ∀ q, rangeLine s.fx c l (maintStart s.fx m c) (runOn c q m) = .ok (runOn c q n) { maintStart s.fx m c with res1 := k })
    (rest : resting n = true) : exec i s = .next (s.put (complete s.fx c csDone [0, BitVec.ofNat 64 k, 0] n)) := by
  have other : ∀ x : Byte, 0x35 < x.toNat → c.opcode ≠ x := by rintro x above rfl; omega
  refine begins_carried b start one.idle ⟨other 0x38 (by decide), other 0x95 (by decide)⟩ (fun e => absurd e (other 0x93 (by decide)))
    one.up (List.mem_cons_self ..) (fun q => maintSteps_one one op (step q)) rfl (fun q => ?_) (done_resting rest) rest
  rw [endMaint_range op rfl, complete_runOn]
  rfl

section
variable {s : State} {i : Instr} {c : Rec} {m : Mach} {l : LineNo} {way : Nat}

/-- RANGE_CLEAN, RANGE_INVAL and RANGE_FLUSH over one line that needs no write back, or is absent. -/
theorem begins_rangeKept (b : Begins s i c m) (start : startCmd s.fx c false m = holdMaint s.fx c none m)
    (op : 0x32 ≤ c.opcode.toNat ∧ c.opcode.toNat ≤ 0x34) (one : OneLine s.fx c l m) :
    (InWay l way m → (tagAt m (setOf l) way).d = 0 ∨ c.opcode = 0x33 → exec i s = .next (s.put (complete s.fx c csDone
      [0, BitVec.ofNat 64 (b2n (c.opcode ≠ 0x32)), 0] (if c.opcode = 0x32 then m else dropWay (setOf l) way m)))) ∧
    (Nowhere l m → exec i s = .next (s.put (complete s.fx c csDone [0, 0, 0] m))) := by
  have zero : c.opcode ≠ 0x35 := by rintro e; rw [e] at op; exact absurd op (by decide)
  have range : 0x32 ≤ c.opcode.toNat ∧ c.opcode.toNat ≤ 0x35 := ⟨op.1, op.2.trans (by decide)⟩
  refine ⟨fun hit clean => ?hit, fun miss => ?miss⟩
  case hit =>
    refine begins_ranged b start range one (fun q => ?_) (resting_ite b.resting (resting_dropWay b.resting))
    rw [rangeLine_goes one b.resting rfl, hit.hit, Option.elim_some, rangeHit_discards hit.runOn zero clean,
      dropWay_sound (m := runOn c q m) one.sound, dropWay_sound one.sound, apply_ite (runOn c q), maintStart_res1, Nat.zero_add]
    rfl
  case miss =>
    refine begins_ranged (k := 0) b start range one (fun q => ?_) b.resting
    rw [rangeLine_goes one b.resting rfl, miss.miss, Option.elim_none, rangeMiss_nothing miss.runOn zero]
    rfl

/-- RANGE_ZERO over one line that lies in a way. -/
theorem begins_rangeZeroed (b : Begins s i c m) (start : startCmd s.fx c false m = holdMaint s.fx c none m) (zero : c.opcode = 0x35)
    (one : OneLine s.fx c l m) (hit : InWay l way m) : exec i s = .next (s.put (complete s.fx c csDone [0, 1, 0]
      (setTag (setOf l) way { tagAt m (setOf l) way with v := 0xF, d := 0xF, z := 0xF, poison := false, cls := m.regs.maintTc }
        (markRewritten l m)))) := by
  refine begins_ranged (k := 1) b start (by rw [zero]; decide) one (fun q => ?_) (resting_setTag (resting_markRewritten b.resting))
  rw [rangeLine_goes one b.resting rfl, hit.hit, Option.elim_some, rangeHit_zeroes hit.runOn one.sound zero]
  rfl

end

/-- Settles O19, command by command: what the engine refuses, then the one line in a way or absent. -/
theorem rangeCommands : Obligations.RangeCommands := by
  intro s p c m l way one t hit miss ends full
  have oneLine : one → OneLine s.fx c l m := fun ⟨length, runs, idle, ents, reclaim, ok, first, up⟩ =>
    ⟨length, runs, idle, ents, reclaim, ok, first, up⟩
  have inWay : hit → InWay l way m := fun ⟨found, filling, ticket, slips, fills⟩ => ⟨found, filling, ticket, slips, fills⟩
  have nowhere : miss → Nowhere l m := fun ⟨absent, slips, ticket, merge⟩ => ⟨absent, slips, ticket, merge⟩
  have refused : ∀ {i : Instr}, Begins s i c m → startCmd s.fx c false m = holdMaint s.fx c (rangeStop s.fx m c false) m → full i :=
    fun b start => (begins_refused b start).symm
  refine ⟨fun b => ?clean, fun b => ?inval, fun b => ?flush, fun b => ?zero⟩
  case clean =>
    have start := start_rangeClean b
    have op : c.opcode = 0x32 := b.opcode_plain rfl
    refine ⟨refused b start, fun pass h => ?_⟩
    rw [cmdRangeClean, pass] at start
    have kept := begins_rangeKept (way := way) b start (by rw [op]; decide) (oneLine h)
    rw [op] at kept
    exact ⟨fun here clean => kept.1 (inWay here) (.inl clean), fun gone => kept.2 (nowhere gone)⟩
  case inval =>
    have start := start_rangeInval b
    have op : c.opcode = 0x33 := b.opcode_plain rfl
    refine ⟨refused b start, fun pass h => ?_⟩
    rw [cmdRangeInval, pass] at start
    have kept := begins_rangeKept (way := way) b start (by rw [op]; decide) (oneLine h)
    rw [op] at kept
    exact ⟨fun here => kept.1 (inWay here) (.inr rfl), fun gone => kept.2 (nowhere gone)⟩
  case flush =>
    have start := start_rangeFlush b
    have op : c.opcode = 0x34 := b.opcode_plain rfl
    refine ⟨refused b start, fun pass h => ?_⟩
    rw [cmdRangeFlush, pass] at start
    have kept := begins_rangeKept (way := way) b start (by rw [op]; decide) (oneLine h)
    rw [op] at kept
    exact ⟨fun here clean => kept.1 (inWay here) (.inl clean), fun gone => kept.2 (nowhere gone)⟩
  case zero =>
    have start := start_rangeZero b
    refine ⟨refused b start, fun pass h here => ?_⟩
    rw [cmdRangeZero, pass] at start
    exact begins_rangeZeroed b start (b.opcode_plain rfl) (oneLine h) (inWay here)

end Sys2Proof.Machine
end

section
/-! SUPPORT. The other commands of the maintenance engine: SPARSE_PACK and SPARSE_UNPACK as they start, BANK_SPARE, WAY_DISABLE and
DIR_RECLAIM (09_sparse_data.md R276; 11_host_coherence.md R325, R326; 15_integrity_and_sparing.md R414 to R417). -/

namespace Sys2Proof.Machine

theorem stopIf_none {b : Bool} {st : Nat} : stopIf b st = none ↔ b = false := by cases b <;> simp [stopIf]

/-! ### The repair log (15 R414) -/

/-- An entry kept changes the log alone. -/
theorem appendRepair_frame (w : W32) (m : Mach) : ∃ log, appendRepair w m = { m with life := { m.life with softRepair := log } } := by
  rw [appendRepair]
  split
  · exact ⟨_, rfl⟩
  · exact ⟨m.life.softRepair, rfl⟩

theorem resting_appendRepair {w : W32} {m : Mach} (h : resting m = true) : resting (appendRepair w m) = true := by
  obtain ⟨log, e⟩ := appendRepair_frame w m
  rw [e]
  exact resting_life h rfl

theorem resting_appendRepairs (entry : Nat → W32) (ws : List Nat) {m : Mach} (h : resting m = true) :
    resting (ws.foldl (fun m w => appendRepair (entry w) m) m) = true := by
  induction ws generalizing m with
  | nil => exact h
  | cons w ws ih => exact ih (resting_appendRepair h)

/-- The commands in progress play no part in it. -/
theorem appendRepair_runOn (w : W32) (c : Rec) (p : Prog) (m : Mach) : appendRepair w (runOn c p m) = runOn c p (appendRepair w m) := by
  have same : repairSlot (runOn c p m) = repairSlot m := rfl
  rw [appendRepair, appendRepair, same]
  cases repairSlot m <;> rfl

/-! ### BANK_SPARE (15 R415) -/

/-- A sound line of a bank that is copied stays as it is. -/
theorem scanCopied_sound {m : Mach} (ok : sound m = true) (fx : Fixed) (set way : Nat) : scanCopied fx set way m = m := by
  rw [scanCopied]
  split
  case isTrue =>
    cases berthAt m set way with
    | none => rfl
    | some x => simp only [scanBerth_sound fx _ _ _ _ _ ok, Bool.false_eq_true, if_false]
  case isFalse => simp only [scanWay_sound fx _ _ _ ok]

/-- Of a sound bank no line comes out poisoned. -/
theorem scanBank_sound {m : Mach} (ok : sound m = true) (fx : Fixed) (q b : Nat) : scanBank fx q b m = (m, 0) := by
  rw [scanBank]
  refine foldl_keeps _ _ _ fun k _ => ?_
  simp only [scanCopied_sound ok, Bool.not_and_self]
  rfl

theorem spareBank_runOn (q b : Nat) (c : Rec) (p : Prog) (m : Mach) : spareBank q b (runOn c p m) = runOn c p (spareBank q b m) := by
  rw [spareBank, spareBank, ← appendRepair_runOn]
  rfl

/-- A bank replaced is frozen, so that nothing that waits for it can go on. -/
theorem resting_spareBank {q b : Nat} {m : Mach} (h : resting m = true) : resting (spareBank q b m) = true :=
  resting_appendRepair (resting_setDom (resting_life h rfl) (fun _ _ _ => rfl) fun _ _ _ => rfl)

section
variable {fx : Fixed} {c : Rec} {m : Mach} {p : MaintProg}

theorem maintSteps_spare (op : c.opcode = 0x93) : maintSteps fx c p m = runSpare fx c p m := by simp [maintSteps, op]

theorem endMaint_spare (op : c.opcode = 0x93) : endMaint fx c p m = complete fx c (if p.res1 ≠ 0 then csPoisoned else csDone)
    [BitVec.ofNat 64 p.res0, BitVec.ofNat 64 p.res1] (logErr fx 0x33 0 (locB (fld c.pkt.p0 1 0) (fld c.pkt.p0 5 2) 0) m) := by
  simp [endMaint, op]

/-- A frozen bank is replaced with nothing copied. -/
theorem runSpare_frozen {ds : List Nat} (up : awake m ds = true) (spare : dBank (fld c.pkt.p0 1 0) 16 ∈ ds)
    (frozen : bankFrozen m (dBank (fld c.pkt.p0 1 0) (fld c.pkt.p0 5 2)) = true) :
    runSpare fx c p m = (spareBank (fld c.pkt.p0 1 0) (fld c.pkt.p0 5 2) m, p, true) := by
  simp only [runSpare, waitDom_awake _ up spare, Bool.not_true, Bool.false_eq_true, if_false, frozen, if_true]

/-- A sound bank is copied row by row, and replaced. -/
theorem runSpare_copied {ds : List Nat} (up : awake m ds = true) (spare : dBank (fld c.pkt.p0 1 0) 16 ∈ ds)
    (bank : dBank (fld c.pkt.p0 1 0) (fld c.pkt.p0 5 2) ∈ ds)
    (warm : bankFrozen m (dBank (fld c.pkt.p0 1 0) (fld c.pkt.p0 5 2)) = false) (ok : sound m = true) :
    runSpare fx c p m = (spareBank (fld c.pkt.p0 1 0) (fld c.pkt.p0 5 2) m, { p with res0 := 2048, res1 := 0 }, true) := by
  simp only [runSpare, waitDom_awake _ up spare, waitDom_awake _ up bank, Bool.not_true, Bool.false_eq_true, if_false, warm,
    scanBank_sound ok]

end

/-- A BANK_SPARE whose steps end with the spare in the bank's place is answered with the rows copied. -/
theorem begins_spared {s : State} {i : Instr} {c : Rec} {m : Mach} {ds : List Nat} {k : Nat} (b : Begins s i c m) (op : c.opcode = 0x93)
    (start : startCmd s.fx c false m = holdMaint s.fx c none m) (free : spareTaken m c = false) (idle : m.cmds.running = [])
    (up : awake m ds = true) (engine : dEngine ∈ ds)
    (steps : ∀ q, runSpare s.fx c (maintStart s.fx m c) (runOn c q m) = (spareBank (fld c.pkt.p0 1 0) (fld c.pkt.p0 5 2) (runOn c q m),
      { maintStart s.fx m c with res0 := k, res1 := 0 }, true)) :
    exec i s = .next (s.put (complete s.fx c csDone [BitVec.ofNat 64 k, 0] (logErr s.fx 0x33 0
      (locB (fld c.pkt.p0 1 0) (fld c.pkt.p0 5 2) 0) (spareBank (fld c.pkt.p0 1 0) (fld c.pkt.p0 5 2) m)))) := by
  have other : c.opcode ≠ 0x38 ∧ c.opcode ≠ 0x95 := by rw [op]; decide
  have rest := resting_spareBank (q := fld c.pkt.p0 1 0) (b := fld c.pkt.p0 5 2) b.resting
  refine begins_carried (p := { maintStart s.fx m c with res0 := k, res1 := 0 }) b start idle other (fun _ => free) up engine
    (fun q => ?_) rfl (fun q => ?_) (done_resting rest) (resting_logErr rest)
  · rw [maintSteps_spare op, steps, spareBank_runOn]
  · rw [endMaint_spare op, logErr_runOn, complete_runOn]
    rfl

/-! ### WAY_DISABLE (15 R416, R417) -/

theorem resting_stateAgain {m : Mach} (h : resting m = true) : resting (stateAgain m) = true := resting_life h rfl

theorem resting_degrade {m : Mach} (h : resting m = true) : resting (degrade m) = true := resting_stateAgain (by exact h)

theorem resting_putSetSt {set : Nat} {x : SetSt} {m : Mach} (h : resting m = true) : resting (putSetSt set x m) = true := h

/-- The entries of restored ways leave the repair log. -/
def dropRepairs (c : Rec) (m : Mach) : Mach :=
  { m with life := { m.life with softRepair := m.life.softRepair.filter fun x => !decide (x.2 ∈ (waysOf (wayMask c)).map (wayEntry c)) } }

/-- With no way left in RETIRED the slice is degraded no more. -/
def undegraded (m : Mach) : Mach := { m with err := { m.err with degraded := false } }

section
variable {c : Rec} {m : Mach}

theorem endWays_restores (restore : cFlag c 0 = true) : endWays c m = stateAgain
    (if (m.cache.sets.all fun x => x.2.retired = 0) && !m.err.fatal then undegraded (dropRepairs c m) else dropRepairs c m) := by
  rw [endWays, if_pos restore]
  rfl

theorem endWays_retires (retire : cFlag c 0 = false) :
    endWays c m = degrade ((waysOf (wayMask c)).foldl (fun m w => appendRepair (wayEntry c w) m) m) := by
  rw [endWays, if_neg (ne_true_of_eq_false retire)]

theorem resting_undegraded (h : resting m = true) : resting (undegraded m) = true := h

theorem resting_dropRepairs (h : resting m = true) : resting (dropRepairs c m) = true := by
  rw [dropRepairs]
  exact resting_life h rfl

theorem resting_endWays (h : resting m = true) : resting (endWays c m) = true := by
  cases flag : cFlag c 0 with
  | true =>
    rw [endWays_restores flag]
    exact resting_stateAgain (resting_ite (resting_undegraded (resting_dropRepairs h)) (resting_dropRepairs h))
  | false =>
    rw [endWays_retires flag]
    exact resting_degrade (resting_appendRepairs (wayEntry c) _ h)

/-- The commands in progress play no part in the log and the state afterwards. -/
theorem endWays_runOn (c : Rec) (p : Prog) (m : Mach) : endWays c (runOn c p m) = runOn c p (endWays c m) := by
  cases flag : cFlag c 0 with
  | true =>
    have same : (((runOn c p m).cache.sets.all fun x => decide (x.2.retired = 0)) && !(runOn c p m).err.fatal) =
        ((m.cache.sets.all fun x => decide (x.2.retired = 0)) && !m.err.fatal) := rfl
    rw [endWays_restores flag, endWays_restores flag, same]
    split <;> rfl
  | false =>
    rw [endWays_retires flag, endWays_retires flag, List.foldl_hom (runOn c p) fun n w => appendRepair_runOn (wayEntry c w) c p n]
    rfl

end

section
variable {fx : Fixed} {c : Rec} {m n : Mach} {p : MaintProg}

theorem scanTag_sound (ok : sound m = true) (set way : Nat) : scanTag fx set way m = m := by
  simp [scanTag, sound_errs ok, ArrErr.none]

/-- A clean line that leaves its way is dropped. -/
theorem freeWay_clean {set way : Nat} {also : List Nat} (ok : sound m = true) (clean : (tagAt m set way).d = 0) :
    freeWay fx set way also m = .now (setTag set way .free m) := by
  rw [freeWay, scanTag_sound ok, if_pos clean, dropWay_sound ok]

/-- The one way that is to be emptied holds a clean line, which no fill comes to. -/
theorem emptyWays_one {set way id : Nat} (ok : sound m = true) (settled : way ∉ fillingWays m set) (clean : (tagAt m set way).d = 0) :
    emptyWays fx set id [way] p m = .ok (setTag set way .free m) p := by
  simp only [emptyWays, settled, if_false, scanTag_sound ok, clean, true_or, if_true, Bool.not_true, Bool.false_eq_true, freeWay_clean ok clean]
  rfl

theorem runWays_past (h : wayLast c < p.next) (k : Nat) : runWays fx c k p m = (m, p, true) := by
  cases k with
  | zero => rw [runWays, decide_eq_true h]
  | succ k => rw [runWays, if_pos h]

/-- The last set of a retirement: its named ways emptied, and put into RETIRED. -/
theorem runWays_retires (k : Nat) (last : wayLast c = p.next) (retire : cFlag c 0 = false)
    (empty : emptyWays fx p.next c.id ((waysOf (wayMask c &&& ~~~(setStOf m p.next).retired)).filter fun w =>
      !(setStOf m p.next).pin.getLsbD w) p m = .ok n p) :
    runWays fx c (k + 1) p m = (degrade (putSetSt p.next { setStOf n p.next with retired := (setStOf n p.next).retired ||| wayMask c } n),
      { p with next := p.next + 1, res1 := p.res1 + b2n ((setStOf n p.next).retired ||| wayMask c ≠ (setStOf n p.next).retired) }, true) := by
  rw [runWays, if_neg (by omega)]
  simp only [retire, Bool.false_eq_true, if_false, empty]
  exact runWays_past (by show wayLast c < p.next + 1; omega) k

/-- The last set of a restoration: its named ways taken out of RETIRED. -/
theorem runWays_restores (k : Nat) (last : wayLast c = p.next) (restore : cFlag c 0 = true) :
    runWays fx c (k + 1) p m = (putSetSt p.next { setStOf m p.next with retired := (setStOf m p.next).retired &&& ~~~wayMask c } m,
      { p with next := p.next + 1, res1 := p.res1 + b2n ((setStOf m p.next).retired &&& ~~~wayMask c ≠ (setStOf m p.next).retired) }, true) := by
  rw [runWays, if_neg (by omega)]
  simp only [restore, if_true]
  exact runWays_past (by show wayLast c < p.next + 1; omega) k

/-- Where no floor of a bank is broken, or with RESTORE, the sets are walked at once. -/
theorem maintSteps_ways (op : c.opcode = 0x94) (floor : cFlag c 0 = true ∨ floorBanks m c = []) :
    maintSteps fx c p m = runWays fx c (wayLast c + 1) p m := by
  have banks : (if cFlag c 0 || decide (p.next ≠ wayFirst c) then [] else floorBanks m c) = [] := by
    obtain h | h := floor <;> simp [h]
  simp only [maintSteps, banks, waitDoms_nil, Bool.not_true, Bool.false_eq_true, if_false]
  simp [op]

theorem endMaint_ways (op : c.opcode = 0x94) :
    endMaint fx c p m = complete fx c csDone [BitVec.ofNat 64 p.res0, BitVec.ofNat 64 p.res1] (endWays c m) := by
  simp [endMaint, op]

theorem maintStart_next (op : c.opcode = 0x94) : (maintStart fx m c).next = wayFirst c := if_pos op

end

/-- A WAY_DISABLE whose walk of the sets leaves the block as `n` is answered with the sets that it changed. -/
theorem begins_walked {s : State} {i : Instr} {c : Rec} {m n : Mach} {ds : List Nat} {next k : Nat} (b : Begins s i c m) (op : c.opcode = 0x94)
    (start : startCmd s.fx c false m = holdMaint s.fx c none m) (idle : m.cmds.running = []) (up : awake m ds = true) (engine : dEngine ∈ ds)
    (floor : cFlag c 0 = true ∨ floorBanks m c = [])
    (walk : ∀ q, runWays s.fx c (wayLast c + 1) (maintStart s.fx m c) (runOn c q m) =
      (runOn c q n, { maintStart s.fx m c with next := next, res1 := k }, true)) (rest : resting n = true) :
    exec i s = .next (s.put (complete s.fx c csDone [0, BitVec.ofNat 64 k] (endWays c n))) := by
  have other : c.opcode ≠ 0x38 ∧ c.opcode ≠ 0x95 := by rw [op]; decide
  refine begins_carried (p := { maintStart s.fx m c with next := next, res1 := k }) b start idle other
    (fun e => absurd (op.symm.trans e) (by decide)) up engine (fun q => ?_) rfl (fun q => ?_) (done_resting rest) (resting_endWays rest)
  · rw [maintSteps_ways (m := runOn c q m) op floor, walk]
  · rw [endMaint_ways op, endWays_runOn, complete_runOn]
    rfl

/-! ### DIR_RECLAIM (11 R325, R326) -/

/-- The agent that a DIR_RECLAIM names is disabled as the engine takes the command. -/
def agentOff (c : Rec) (m : Mach) : Mach :=
  { m with dir := { m.dir with en := m.dir.en &&& ~~~((1 : BitVec 16) <<< fld c.pkt.p0 3 0) } }

section
variable {fx : Fixed} {c : Rec} {m : Mach}

theorem resting_agentOff (h : resting m = true) : resting (agentOff c m) = true := h

theorem holdMaint_reclaim (op : c.opcode = 0x95) (room : (m.cmds.running.filter fun r => isMaint r.prog).length < 4) :
    holdMaint fx c none m = if (m.cmds.running.filter fun r => isMaint r.prog).length = 0
      then startMaint fx (runOn c .maintHeld (agentOff c m)) else runOn c .maintHeld (agentOff c m) := by
  simp only [holdMaint, op, if_true, if_neg (Nat.not_le.mpr room), ge_iff_le]
  rfl

/-- With no entry in the directory there is nothing to walk. -/
theorem maintSteps_reclaim {p : MaintProg} (op : c.opcode = 0x95) (ents : m.dir.ents = []) : maintSteps fx c p m = (m, p, true) := by
  have walk : maintSteps fx c p m = runReclaim fx c.id (BitVec.ofNat 4 (fld c.pkt.p0 3 0)) (m.dir.ents.length + 1) p m := by
    simp [maintSteps, op]
  rw [walk, ents, runReclaim, ents]
  rfl

/-- No snoop to the agent is out, or owed. -/
theorem endSnoopsOf_none {a : BitVec 4} (owing : m.dir.owing = []) (snoops : m.dir.snoops.filter (·.agent = a) = []) :
    endSnoopsOf fx a m = (m, 0) := by
  simp only [endSnoopsOf, snoops, owing, List.filter_nil, List.foldl_nil, List.length_nil]

theorem endMaint_reclaim {p : MaintProg} (op : c.opcode = 0x95) {n : Mach} {k : Nat}
    (ended : endSnoopsOf fx (BitVec.ofNat 4 (fld c.pkt.p0 3 0)) m = (n, k)) :
    endMaint fx c p m = complete fx c (if p.res1 ≠ 0 then csWarn else csDone)
      [BitVec.ofNat 64 p.res0, BitVec.ofNat 64 p.res1, BitVec.ofNat 64 (p.res2 + k)] n := by
  simp [endMaint, op, ended]

/-- A DIR_RECLAIM of an agent that the idle engine finds named nowhere. -/
theorem startMaint_reclaim (rest : resting m = true) (op : c.opcode = 0x95) (idle : m.cmds.running = []) (up : awake m [dEngine] = true)
    (ents : m.dir.ents = []) (snoops : m.dir.snoops.filter (·.agent = BitVec.ofNat 4 (fld c.pkt.p0 3 0)) = []) :
    startMaint fx (runOn c .maintHeld m) = complete fx c csDone [0, 0, 0] m := by
  have settled := done_resting rest
  have other : c.opcode ≠ 0x38 ∧ c.opcode ≠ 0x93 := by rw [op]; decide
  have owing : m.dir.owing = [] := ((resting_iff m).mp rest).1.recalls.2
  rw [start_run fx c m m (maintStart fx m c) idle other.1 settled settled [dEngine] up (List.mem_cons_self ..) rfl
    (fun e => absurd e other.2) fun q => maintSteps_reclaim (m := runOn c q m) op ents,
    endMaint_reclaim op (endSnoopsOf_none (m := runOn c (.maintRun (maintStart fx m c)) m) owing snoops), complete_runOn]
  rfl

end

/-! ### The obligation -/

/-- Settles O20, command by command: what the engine refuses and holds, then what it carries through at once. -/
theorem engineCommands : Obligations.EngineCommands := by
  intro s p c m held refuses holds q k set x off
  refine ⟨fun b => ?pack, fun b => ?unpack, fun b => ?spare, fun b retire => ?disable, fun b => ?restore, fun b => ?reclaim⟩
  case pack =>
    have op : c.opcode = 0x36 := b.opcode_plain rfl
    have start : startCmd s.fx c false m = holdMaint s.fx c (sparseStop s.fx m c) m := start_sparsePack b
    exact ⟨begins_refused b start, begins_held b start (by rw [op]; decide)⟩
  case unpack =>
    have op : c.opcode = 0x37 := b.opcode_plain rfl
    have start : startCmd s.fx c false m = holdMaint s.fx c (sparseStop s.fx m c) m := start_sparseUnpack b
    exact ⟨begins_refused b start, begins_held b start (by rw [op]; decide)⟩
  case spare =>
    intro stop
    have op : c.opcode = 0x93 := b.opcode_plain rfl
    have start : startCmd s.fx c false m = holdMaint s.fx c stop m := start_bankSpare b
    refine ⟨begins_refused b start, begins_held b start (by rw [op]; decide), fun pass idle up frozen => ?_, fun pass idle up warm ok => ?_⟩
    all_goals
      have free : spareTaken m c = false := stopIf_none.mp pass
      rw [pass] at start
    · exact begins_spared (k := 0) b op start free idle up (.head _) fun i => runSpare_frozen (m := runOn c i m) up (.tail _ (.head _)) frozen
    · exact begins_spared (k := 2048) b op start free idle up (.head _) fun i =>
        runSpare_copied (m := runOn c i m) up (.tail _ (.head _)) (.tail _ (.tail _ (.head _))) warm ok
  case disable =>
    have op : c.opcode = 0x94 := b.opcode_plain rfl
    have start : startCmd s.fx c false m = holdMaint s.fx c (wayStop m c) m :=
      (start_wayDisable b).trans (if_neg (ne_true_of_eq_false retire))
    refine ⟨begins_refused b start, begins_held b start (by rw [op]; decide), fun w pass idle last floor named settled clean ok up => ?_⟩
    rw [pass] at start
    have next : (maintStart s.fx m c).next = set := maintStart_next op
    have empty : ∀ i, emptyWays s.fx set c.id ((waysOf (wayMask c &&& ~~~x.retired)).filter fun w => !x.pin.getLsbD w)
        (maintStart s.fx m c) (runOn c i m) = .ok (setTag set w .free (runOn c i m)) (maintStart s.fx m c) := fun i => by
      rw [named]
      exact emptyWays_one (m := runOn c i m) ok settled clean
    refine begins_walked (next := set + 1) b op start idle up (.head _) (.inr floor) (fun i => ?_)
      (resting_degrade (resting_putSetSt (resting_setTag b.resting)))
    rw [runWays_retires (n := setTag set w .free (runOn c i m)) _ (last.trans next.symm) retire (by rw [next]; exact empty i), next,
      maintStart_res1, Nat.zero_add]
    rfl
  case restore =>
    intro stop
    have op : c.opcode = 0x94 := b.opcode_flagged rfl
    have restore : cFlag c 0 = true := b.flag (by decide) rfl
    have start : startCmd s.fx c false m = holdMaint s.fx c stop m := start_wayRestore b
    refine ⟨begins_refused b start, begins_held b start (by rw [op]; decide), fun pass idle last up => ?_⟩
    rw [pass] at start
    have next : (maintStart s.fx m c).next = set := maintStart_next op
    refine begins_walked (next := set + 1) b op start idle up (.head _) (.inl restore) (fun i => ?_) (resting_putSetSt b.resting)
    rw [runWays_restores _ (last.trans next.symm) restore, next, maintStart_res1, Nat.zero_add]
    rfl
  case reclaim =>
    have op : c.opcode = 0x95 := b.opcode_plain rfl
    have start : startCmd s.fx c false m = holdMaint s.fx c none m := start_dirReclaim b
    refine ⟨begins_refused b start, fun behind room => ?_, fun idle up ents snoops => ?_⟩
    · refine begins_finish b (start.trans ?_) (resting_runOn (resting_agentOff b.resting) rfl)
      rw [holdMaint_reclaim op room, if_neg (by omega)]
      rfl
    · refine begins_completes (n := agentOff c m) b (start.trans ?_) (resting_agentOff b.resting)
      have alone : (m.cmds.running.filter fun r => isMaint r.prog).length = 0 := by rw [idle]; rfl
      rw [holdMaint_reclaim op (by omega), if_pos alone]
      exact startMaint_reclaim (m := agentOff c m) (resting_agentOff b.resting) op idle up ents snoops

end Sys2Proof.Machine
end

section
/-! SUPPORT. Reads and writes of memory space that meet their line, and memory requests as their access has them (04_cache.md R110,
R112, R119, R121; 02_boundary.md R482; 09_sparse_data.md R282). -/

namespace Sys2Proof.Machine

/-! ### What is found of a way -/

theorem tagAt_setTag {set way : Nat} {t : Tag} (m : Mach) (h : t ≠ .free) : tagAt (setTag set way t m) set way = t := tget_tset_ne _ _ _ _ h

theorem hitWay_valid {m : Mach} {l : LineNo} {way : Nat} (h : hitWay m l = some way) : (tagAt m (setOf l) way).v ≠ 0 := by
  have found := List.find?_some h
  simp only [Bool.and_eq_true, decide_eq_true_eq] at found
  exact found.1.1

/-- Counting leaves the ways as they are. -/
theorem tagAt_countR (ev : Nat) (r : Req) (m : Mach) (set way : Nat) : tagAt (countR ev r m) set way = tagAt m set way := by
  obtain ⟨p, e⟩ := countN_frame ev (some r.ctx) (some r.tc) 1 m
  rw [countR, e]
  rfl

theorem wayData_countR (ev : Nat) (r : Req) (m : Mach) (set way : Nat) : wayData (countR ev r m) set way = wayData m set way := by
  obtain ⟨p, e⟩ := countN_frame ev (some r.ctx) (some r.tc) 1 m
  rw [countR, e]
  rfl

/-- A touched way holds what it held. -/
theorem wayData_touch {m : Mach} {set way : Nat} (valid : (tagAt m set way).v ≠ 0) : wayData (touch set way m) set way = wayData m set way := by
  simp only [touch]
  split
  case isFalse => rfl
  case isTrue =>
    have held : ({ tagAt m set way with pf := false } : Tag) ≠ .free := fun e => valid (congrArg Tag.v e)
    generalize hn : setTag set way { tagAt m set way with pf := false } _ = n
    have tag : (tagAt n set way).z = (tagAt m set way).z := by rw [← hn, tagAt_setTag _ held]
    have raw : rawData n set way = rawData m set way := by rw [← hn]; rfl
    obtain ⟨p, e⟩ := countN_frame 0x04F none none 1 n
    rw [count, e]
    show dropSect (rawData n set way) (tagAt n set way).z = _
    rw [tag, raw]
    rfl

/-! ### A request given to its access -/

/-- The opcodes whose requests make an access to memory. -/
def memOps : List (BitVec 6) := [opRD, opRDVOL, opRDSTREAM, opWR, opWRTHRU, opWRFULL, opATOM, opATOMRET, opLRED, opSCATTER]

theorem memAccess_src (op : BitVec 6) (r : Req) (off : BitVec 35) : (memAccess op r off).src = .dp op r := by
  simp only [memAccess]
  split_ifs <;> rfl

/-- Such an opcode is no other unit's. -/
theorem memOps_apart {op : BitVec 6} (mem : op ∈ memOps) : op ≠ opPFHINT ∧ ¬ (op = opSIGNAL ∨ op = opWAIT) ∧
    ¬ (op = opTCONTRIB ∨ op = opTCONTRIBW ∨ op = opTFOLD) ∧ ¬ (op = opBRD ∨ op = opBWR) ∧ ¬ (op = opQENQ ∨ op = opQDEQ) ∧ op ∈ dpOps := by
  revert op
  decide

/-- A request of these opcodes is served at memory. -/
theorem serveDp_memOps {op : BitVec 6} (mem : op ∈ memOps) (fx : Fixed) (r : Req) (t : Option Taken) (m : Mach) :
    serveDp fx op r t m = (serveMem fx op r t m).elim (m, false) fun n => (n, true) := by
  obtain ⟨hint, sync, tile, berth, ferry, assigned⟩ := memOps_apart mem
  rw [serveDp, if_neg hint, if_neg sync, if_neg tile, if_neg berth, if_neg ferry, if_pos assigned]
  cases serveMem fx op r t m <;> rfl

/-- A read without PFE trains nothing. -/
theorem train_off {r : Req} (h : r.aux.getLsbD 7 = false) (fx : Fixed) (t : Taken) (off : BitVec 35) (m : Mach) : train fx r t off m = m := by
  rw [train, h, if_pos (by simp)]

section
variable {s : State} {i : Instr} {op : BitVec 6} {r : Req} {m : Mach} {off : BitVec 35} {way : Nat}

/-- What is left of a request that passes its checks: a scatter's own, and its access. -/
theorem Passes.serveMem_eq (b : Passes s i op r m) (mem : op ∈ memOps) (home : memHome s.fx m r.address = .at off) (ok : sound m = true) :
    serveMem s.fx op r none m =
      if op = opSCATTER ∧ (scatCheck m r).isSome then
        some (answer r op ((scatCheck m r).getD 0) (setScat (r.aux.toNat % 256)
          { scatOf m (r.aux.toNat % 256) with refused := satInc (scatOf m (r.aux.toNat % 256)).refused } m))
      else (submit s.fx (memAccess op r off) m).map fun t =>
        if isRead (memAccess op r off).op && mayTrain s.fx m r (memAccess op r off).line then train s.fx r (taken t) off t else t := by
  obtain ⟨-, sync, tile, berth, ferry, assigned⟩ := memOps_apart mem
  have pass := b.passes
  rw [gateFor, if_neg sync, if_neg tile, if_neg berth, if_neg ferry, if_pos assigned, home] at pass
  rw [serveMem, home]
  simp only [pass, scanManifest_sound s.fx r ok, b.manifest, memAccess_ctl]
  rfl

/-- A request whose access finds no place stays at its landing. -/
theorem Passes.stays (b : Passes s i op r m) (mem : op ∈ memOps) (home : memHome s.fx m r.address = .at off)
    (scatter : op = opSCATTER → scatCheck m r = none) (ok : sound m = true) (full : submit s.fx (memAccess op r off) m = none) :
    exec i s = .next (s.after (keepHeld r.stop (.dp op r none) m)) := by
  refine b.toLands.stays ?_
  have checked : ¬ (op = opSCATTER ∧ (scatCheck m r).isSome = true) := fun h => by simp [scatter h.1] at h
  rw [serveDp_memOps mem, b.serveMem_eq mem home ok, if_neg checked, full]
  rfl

/-- A scatter-reduce that fails its checks is answered, and counted in its descriptor (09 R282). -/
theorem Passes.scatterRefused (b : Passes s i opSCATTER r m) (home : memHome s.fx m r.address = .at off) (ok : sound m = true)
    {x : BitVec 4} (bad : scatCheck m r = some x) : exec i s = .next (s.put (answer r opSCATTER x (setScat (r.aux.toNat % 256)
      { scatOf m (r.aux.toNat % 256) with refused := satInc (scatOf m (r.aux.toNat % 256)).refused } m))) := by
  refine b.toLands.put ?_ (resting_answer (resting_setScat b.resting))
  have mem : opSCATTER ∈ memOps := by decide
  rw [serveDp_memOps mem, b.serveMem_eq mem home ok, if_pos ⟨rfl, by rw [bad]; rfl⟩, bad]
  rfl

/-- A request that meets its line is performed there. -/
theorem Passes.performed (b : Passes s i op r m) (mem : op ∈ memOps) (home : memHome s.fx m r.address = .at off)
    (scatter : op = opSCATTER → scatCheck m r = none) (meets : Meets s.fx (placed m (memAccess op r off)) way m)
    (room : (memAccess op r off).op = .writeThru → writeRoom m = true) (enables : writesNothing (placed m (memAccess op r off)) = false)
    {t : Mach} (e : perform s.fx (placed m (memAccess op r off)) (setOf (memAccess op r off).line) way false
      (noteHit (placed m (memAccess op r off)) m) = t) :
    exec i s = .next (s.after
      (if isRead (memAccess op r off).op && mayTrain s.fx m r (memAccess op r off).line then train s.fx r (taken t) off t else t)) := by
  subst e
  exact b.toLands.after (serveDp_mem b mem home scatter meets.sound (submit_hit meets (memAccess_src op r off) b.manifest room enables))

end

/-! ### Reads (04 R110, R112) -/

/-- An access that a read of memory makes, before anything of it has gone out. -/
structure ReadOf (op : BitVec 6) (r : Req) (a : Access) : Prop where
  src : a.src = .dp op r
  kind : (a.op = .read ∧ op = opRD) ∨ (a.op = .readVol ∧ op = opRDVOL) ∨ (a.op = .readStream ∧ op = opRDSTREAM)
  sect : a.sect = r.sect
  early : a.early = false
  again : a.again = false
  counted : a.counted = false

theorem readOps_mem {op : BitVec 6} (h : op = opRD ∨ op = opRDVOL ∨ op = opRDSTREAM) : op ∈ memOps ∧ op ≠ opSCATTER := by
  rcases h with rfl | rfl | rfl <;> decide

theorem memAccess_readOf {op : BitVec 6} (h : op = opRD ∨ op = opRDVOL ∨ op = opRDSTREAM) (r : Req) (off : BitVec 35) (m : Mach) :
    ReadOf op r (placed m (memAccess op r off)) := by
  rcases h with rfl | rfl | rfl
  · exact ⟨rfl, .inl ⟨rfl, rfl⟩, rfl, rfl, rfl, rfl⟩
  · exact ⟨rfl, .inr (.inl ⟨rfl, rfl⟩), rfl, rfl, rfl, rfl⟩
  · exact ⟨rfl, .inr (.inr ⟨rfl, rfl⟩), rfl, rfl, rfl, rfl⟩

section
variable {op : BitVec 6} {r : Req} {a : Access}

theorem ReadOf.isRead (h : ReadOf op r a) : isRead a.op = true := by
  rcases h.kind with ⟨e, -⟩ | ⟨e, -⟩ | ⟨e, -⟩ <;> rw [e] <;> rfl

theorem ReadOf.vol (h : ReadOf op r a) : decide (a.op = .readVol) = decide (op = opRDVOL) := by
  rcases h.kind with ⟨e, e'⟩ | ⟨e, e'⟩ | ⟨e, e'⟩ <;> rw [e, e'] <;> rfl

theorem ReadOf.writesNothing (h : ReadOf op r a) : writesNothing a = false := by
  rcases h.kind with ⟨e, -⟩ | ⟨e, -⟩ | ⟨e, -⟩ <;> rw [Machine.writesNothing, e] <;> rfl

theorem ReadOf.noteHit (h : ReadOf op r a) (m : Mach) : noteHit a m = countR 0x041 r m := by
  rw [Machine.noteHit, h.src]
  simp [h.isRead, h.counted]

/-- A read is served from its way, which it touches; RD_STREAM touches a prefetched line only (R128). -/
theorem ReadOf.perform {fx : Fixed} {set way : Nat} {n : Mach} (h : ReadOf op r a) (valid : (tagAt n set way).v ≠ 0) :
    perform fx a set way false n = serveRead a (wayData n set way) (tagAt n set way).z (tagAt n set way).poison
      (decide ((tagAt n set way).fmt ≠ 0)) false (if op = opRDSTREAM ∧ (tagAt n set way).pf = false then n else touch set way n) := by
  have source : a.src ≠ .scrub := by rw [h.src]; exact fun e => nomatch e
  rcases h.kind with ⟨e, rfl⟩ | ⟨e, rfl⟩ | ⟨e, rfl⟩
  case inl => simp only [Machine.perform, e, source, if_false, show opRD ≠ opRDSTREAM by decide, false_and]
  case inr.inl => simp only [Machine.perform, e, source, if_false, show opRDVOL ≠ opRDSTREAM by decide, false_and]
  case inr.inr =>
    simp only [Machine.perform, e, true_and]
    cases (tagAt n set way).pf
    case false => rfl
    case true => simp only [if_true, Bool.true_eq_false, if_false, wayData_touch valid]

section
variable {d : Line} {z : BitVec 4} {sparse : Bool} {n : Mach}

theorem ReadOf.poisoned (h : ReadOf op r a) : serveRead a d z true sparse false n = answer r op stPoison n := by
  rw [serveRead, h.src]
  rfl

/-- One sector is answered at once. -/
theorem ReadOf.single (h : ReadOf op r a) (one : r.sect = oneSect a.crit) : serveRead a d z false sparse false n =
    respond r op stOk (oneSect a.crit) (readInfo (op = opRDVOL) z (oneSect a.crit)) (wordsOf d (oneSect a.crit)) n := by
  have sect : a.sect = oneSect a.crit := h.sect.trans one
  simp only [serveRead, h.src, h.early, Bool.false_eq_true, if_false, sendEarly, finalRead, sect, decide_true, Bool.true_or, if_true, h.vol]

/-- Of several the critical one goes first, and the others follow. -/
theorem ReadOf.split (h : ReadOf op r a) (many : r.sect ≠ oneSect a.crit) : serveRead a d z false sparse false n =
    respond r op stOk (r.sect &&& ~~~oneSect a.crit) (readInfo (op = opRDVOL) z (r.sect &&& ~~~oneSect a.crit))
      (wordsOf d (r.sect &&& ~~~oneSect a.crit))
      (sendResp r op stOk (oneSect a.crit) true (readInfo (op = opRDVOL) z (oneSect a.crit)) (wordsOf d (oneSect a.crit)) n) := by
  simp only [serveRead, h.src, h.early, Bool.false_eq_true, if_false, sendEarly, finalRead, h.sect, many, decide_false, Bool.or_false,
    h.again, h.vol]

end
end

theorem resting_sendResp {r : Req} {op : BitVec 6} {st sect : BitVec 4} {more : Bool} {info : BitVec 16} {ws : List W64} {m : Mach}
    (h : resting m = true) : resting (sendResp r op st sect more info ws m) = true := resting_emit h

/-- A read that meets its line does what serving it from its way does, and trains the prefetcher with PFE. -/
theorem Passes.reads {s : State} {i : Instr} {op : BitVec 6} {r : Req} {m : Mach} {off : BitVec 35} {way : Nat} (b : Passes s i op r m)
    (home : memHome s.fx m r.address = .at off) (kind : op = opRD ∨ op = opRDVOL ∨ op = opRDSTREAM)
    (meets : Meets s.fx (placed m (memAccess op r off)) way m) {u : Mach}
    (e : perform s.fx (placed m (memAccess op r off)) (setOf (memAccess op r off).line) way false (countR 0x041 r m) = u)
    (rest : resting u = true) :
    exec i s = .next (s.after (if mayTrain s.fx m r (memAccess op r off).line then train s.fx r (taken u) off u else u)) ∧
    (r.aux.getLsbD 7 = false → exec i s = .next (s.put u)) := by
  have read := memAccess_readOf kind r off m
  obtain ⟨mem, plain⟩ := readOps_mem kind
  have notThru : (memAccess op r off).op ≠ .writeThru := by rcases kind with rfl | rfl | rfl <;> exact fun h => nomatch h
  have isRead : isRead (memAccess op r off).op = true := read.isRead
  have go := b.performed mem home (fun h => absurd h plain) meets (fun h => absurd h notThru) read.writesNothing
    (t := u) (by rw [read.noteHit]; exact e)
  rw [isRead, Bool.true_and] at go
  refine ⟨go, fun off7 => ?_⟩
  rw [go, train_off off7, ite_self, after_resting rest]

/-! ### Writes (04 R119, R121; 02 R482) -/

/-- An access that a write of memory makes. -/
structure WriteOf (op : BitVec 6) (r : Req) (a : Access) : Prop where
  src : a.src = .dp op r
  kind : (a.op = .write ∧ op ≠ opWRTHRU) ∨ (a.op = .writeThru ∧ op = opWRTHRU)
  bytes : a.bytes = if r.maskmode = 1 then r.bmask else sectMask r.sect
  data : a.data = placeSect r.payload r.sect
  psn : a.psn = false

theorem writeOps_mem {op : BitVec 6} (h : op = opWR ∨ op = opWRFULL ∨ op = opWRTHRU) : op ∈ memOps ∧ op ≠ opSCATTER := by
  rcases h with rfl | rfl | rfl <;> decide

theorem memAccess_writeOf {op : BitVec 6} (h : op = opWR ∨ op = opWRFULL ∨ op = opWRTHRU) (r : Req) (off : BitVec 35) (m : Mach) :
    WriteOf op r (placed m (memAccess op r off)) := by
  rcases h with rfl | rfl | rfl
  · exact ⟨rfl, .inl ⟨rfl, by decide⟩, rfl, rfl, rfl⟩
  · exact ⟨rfl, .inl ⟨rfl, by decide⟩, rfl, rfl, rfl⟩
  · exact ⟨rfl, .inr ⟨rfl, rfl⟩, rfl, rfl, rfl⟩

section
variable {op : BitVec 6} {r : Req} {a : Access}

theorem WriteOf.isRead (h : WriteOf op r a) : isRead a.op = false := by
  rcases h.kind with ⟨e, -⟩ | ⟨e, -⟩ <;> rw [e] <;> rfl

theorem WriteOf.noteHit (h : WriteOf op r a) (m : Mach) : noteHit a m = m := by
  rw [Machine.noteHit, h.src]
  simp [h.isRead]

theorem WriteOf.whole (h : WriteOf op r a) : wholeWrite a = decide (r.maskmode = 0) := by rw [wholeWrite, h.src]

theorem WriteOf.writesNothing (h : WriteOf op r a) : writesNothing a = decide (a.bytes = 0) := by
  rcases h.kind with ⟨e, -⟩ | ⟨e, -⟩ <;> rw [Machine.writesNothing, e] <;> rfl

/-- Its effect counted and answered OK, or waiting for room in the coalescer (06 R195, R196). -/
theorem WriteOf.served (h : WriteOf op r a) (sparse : Bool) (m : Mach) :
    serveWrite a sparse m = tally ⟨op, r, false, 0, []⟩ (countR 0x044 r m) := by
  rw [serveWrite, h.src]
  rfl

/-- The bytes that it enables, written into the way. -/
def writtenWay (set way : Nat) (a : Access) (r : Req) (m : Mach) : Mach :=
  writeWay set way (r.maskmode = 0) a.bytes a.data r.tc (touch set way m)

theorem WriteOf.perform (h : WriteOf op r a) (back : op ≠ opWRTHRU) (fx : Fixed) (set way : Nat) (m : Mach) :
    perform fx a set way false m = tally ⟨op, r, false, 0, []⟩ (countR 0x044 r (writtenWay set way a r m)) := by
  obtain ⟨e, -⟩ | ⟨-, e⟩ := h.kind
  case inr => exact absurd e back
  simp only [Machine.perform, e, h.psn, Bool.false_eq_true, if_false, h.served, h.whole, h.src]
  rfl

theorem WriteOf.perform_thru (h : WriteOf op r a) (thru : op = opWRTHRU) (fx : Fixed) (set way : Nat) (m : Mach) :
    Machine.perform fx a set way false m = countR 0x044 r ((queueWrite fx { writeOfWay (writtenWay set way a r m) set way false
      (.thruHit (BitVec.ofNat 12 set) (BitVec.ofNat 5 way) a) [] with due := a.due } (writtenWay set way a r m)).getD
        (writtenWay set way a r m)) := by
  obtain ⟨-, e⟩ | ⟨e, -⟩ := h.kind
  case inl => exact absurd thru e
  simp only [Machine.perform, e, h.whole, h.src]
  rfl

end

theorem tally_unsaid (op : BitVec 6) (r : Req) (m : Mach) : tally ⟨op, r, false, 0, []⟩ m =
    if coalRoom m r then answer r op stOk (arrival r m)
    else { m with sync := { m.sync with coalWait := m.sync.coalWait ++ [⟨op, r, false, 0, []⟩] } } := rfl

section
variable {s : State} {i : Instr} {op : BitVec 6} {r : Req} {m : Mach} {off : BitVec 35} {way : Nat}

/-- A write that enables no byte, with nothing of its line waiting. -/
theorem Passes.writesNone (b : Passes s i op r m) (home : memHome s.fx m r.address = .at off)
    (kind : op = opWR ∨ op = opWRFULL ∨ op = opWRTHRU) (meets : Meets s.fx (placed m (memAccess op r off)) way m)
    (empty : (placed m (memAccess op r off)).bytes = 0) (free : lineFree m (memAccess op r off).line = true) :
    exec i s = .next (s.put (tally ⟨op, r, false, 0, []⟩ (countR 0x044 r m))) := by
  have write := memAccess_writeOf kind r off m
  obtain ⟨mem, plain⟩ := writeOps_mem kind
  have noRead : isRead (memAccess op r off).op = false := write.isRead
  refine b.toLands.put ?_ (resting_tally (resting_countR b.resting))
  rw [serveDp_mem b mem home (fun h => absurd h plain) meets.sound (submit_none meets (memAccess_src op r off) b.manifest
    (by rw [write.writesNothing]; simpa using empty) free), noRead, Bool.false_and, if_neg Bool.false_ne_true, write.served]

/-- One that enables some does what performing it on its way does. -/
theorem Passes.writes (b : Passes s i op r m) (home : memHome s.fx m r.address = .at off)
    (kind : op = opWR ∨ op = opWRFULL ∨ op = opWRTHRU) (meets : Meets s.fx (placed m (memAccess op r off)) way m)
    (enables : (placed m (memAccess op r off)).bytes ≠ 0) (room : op = opWRTHRU → writeRoom m = true) :
    exec i s = .next (s.after (perform s.fx (placed m (memAccess op r off)) (setOf (memAccess op r off).line) way false m)) := by
  have write := memAccess_writeOf kind r off m
  obtain ⟨mem, plain⟩ := writeOps_mem kind
  have noRead : isRead (memAccess op r off).op = false := write.isRead
  have room' : (memAccess op r off).op = .writeThru → writeRoom m = true := by
    obtain ⟨e, -⟩ | ⟨-, e⟩ := write.kind
    · exact fun h => absurd (e.symm.trans h) (by decide)
    · exact fun _ => room e
  have go := b.performed mem home (fun h => absurd h plain) meets room' (by rw [write.writesNothing]; simpa using enables) (by rw [write.noteHit])
  rwa [noRead, Bool.false_and, if_neg Bool.false_ne_true] at go

end

/-! ### The obligation -/

/-- Settles O37: reads, then writes, then what any memory request does, and the scatter-reduce that fails its checks. -/
theorem memoryReadsAndWrites : Obligations.MemoryReadsAndWrites := by
  intro s i op r m off b home a0 a done set ends
  refine ⟨fun kind way meets => ?reads, fun kind way meets => ?writes,
    fun mem scatter ok => ⟨fun u given => b.toLands.after (serveDp_mem b mem home scatter ok given), b.stays mem home scatter ok⟩,
    fun row ok x bad => ?scatter⟩
  case reads =>
    intro t d c n info both
    have kind : op = opRD ∨ op = opRDVOL ∨ op = opRDSTREAM := kind.imp And.right (Or.imp And.right And.right)
    have read := memAccess_readOf kind r off m
    have tag : tagAt (countR 0x041 r m) set way = t := tagAt_countR ..
    have data : wayData (countR 0x041 r m) set way = d := wayData_countR ..
    have served := read.perform (fx := s.fx) (set := set) (way := way) (n := countR 0x041 r m) (by rw [tag]; exact hitWay_valid meets.hit)
    rw [tag, data] at served
    have rest : resting n = true := resting_ite (resting_countR b.resting) (resting_touch (resting_countR b.resting))
    refine ⟨fun bad => ?poisoned, fun good one => ?single, fun good many => ?split⟩
    case poisoned =>
      rw [bad, read.poisoned] at served
      exact b.reads home kind meets served (resting_answer rest)
    case single =>
      rw [good, read.single one] at served
      exact b.reads home kind meets served (resting_respond rest)
    case split =>
      rw [good, read.split many] at served
      exact b.reads home kind meets served (resting_respond (resting_sendResp rest))
  case writes =>
    intro bytes u
    have kind : op = opWR ∨ op = opWRFULL ∨ op = opWRTHRU := kind.imp And.right (Or.imp And.right And.right)
    have write := memAccess_writeOf kind r off m
    have enabled : a.bytes = bytes := write.bytes
    have written : writtenWay (setOf (memAccess op r off).line) way (placed m (memAccess op r off)) r m = u := by
      rw [writtenWay, enabled, write.data]
      rfl
    refine ⟨fun empty free => b.writesNone home kind meets (enabled.trans empty) free, fun enables back => ?back, fun enables thru room => ?thru⟩
    case back =>
      have go := b.writes home kind meets (by rwa [enabled]) (fun h => absurd h back)
      rw [write.perform back, written, after_resting (resting_tally (resting_countR (resting_writeWay (resting_touch b.resting))))] at go
      exact go
    case thru =>
      have go := b.writes home kind meets (by rwa [enabled]) fun _ => room
      rw [write.perform_thru thru, written] at go
      exact go
  case scatter =>
    subst row
    obtain ⟨rfl, -⟩ := Prod.mk.inj (Option.some.inj b.row)
    exact b.scatterRefused home ok bad

end Sys2Proof.Machine
end

section
/-! SUPPORT. The allocator's commands on berths (05_berths_and_allocator.md R155 to R160): which refuses, and what each leaves. -/

namespace Sys2Proof.Machine

/-- The berth table plays no part in what can go on. -/
theorem resting_setBerth {i : Nat} {x : Berth} {m : Mach} (h : resting m = true) : resting (setBerth i x m) = true := h

theorem heldBerth_index {m : Mach} {x : Ctx} {h : W64} {i : Nat} (held : heldBerth m x h = some i) : hIdx h = i := by
  simp only [heldBerth, Option.ite_none_right_eq_some, Option.some.injEq] at held
  exact held.2

section
variable {fx : Fixed} {c : Rec} {m : Mach} {i n : Nat}

/-! ### BERTH_ALLOC (R155, R156) -/

theorem cmdBerthAlloc_unhomed (h : m.regs.lv = false) : cmdBerthAlloc fx c m = complete fx c csMishomed [] m := by
  rw [cmdBerthAlloc, h]
  rfl

theorem cmdBerthAlloc_sized (home : m.regs.lv = true) (low : 0 < fld c.pkt.p0 31 0) (high : fld c.pkt.p0 31 0 ≤ 2097152) :
    cmdBerthAlloc fx c m = allocBerth fx c ((fld c.pkt.p0 31 0 + 4095) / 4096) m := by
  have size : ¬ (fld c.pkt.p0 31 0 = 0 ∨ fld c.pkt.p0 31 0 > 2097152) := by omega
  rw [cmdBerthAlloc, home]
  exact if_neg size

/-- A berth of n granules entered in the berth table and in the map from entry e on; its ways are still to be pinned. -/
def berthEntered (c : Rec) (i n e : Nat) (gs : List Nat) (m : Mach) : Mach :=
  putRun e (gs.map (· + 1)) (setBerth i { Berth.free with
      valid := true, ctx := cCtx c, size := BitVec.ofNat 9 (n - 1), mapbase := BitVec.ofNat 12 e, gen := (berthOf m i).gen, moving := true }
    { m with berth := { m.berth with berthQ := fqPop 4096 m.berth.berthQ } })

theorem allocBerth_enters {gs : List Nat} {m1 : Mach} {e : Nat} (index : fqPeek 4096 m.berth.berthQ = some i) (room : mapUsed m + n ≤ 3072)
    (budget : ctxPinned m (cCtx c) + n ≤ (ctxOf m (cCtx c)).pinCap.toNat) (chosen : chooseGranules m n (pinnedGranules m) = some gs)
    (place : mapPlace n m = (m1, some e)) :
    allocBerth fx c n m = pumpPin fx c (BitVec.ofNat 12 i) (gs.flatMap granuleKeys)
      (runOn c (.pin (BitVec.ofNat 12 i) (gs.flatMap granuleKeys)) (berthEntered c i n e gs m1)) := by
  simp only [allocBerth, index, gt_iff_lt, if_neg (Nat.not_lt.mpr room), if_neg (Nat.not_lt.mpr budget), chosen, place]
  rfl

/-- An allocation that has pinned all its ways answers its berth. -/
theorem pumpPin_answers {todo : List Nat} {m3 : Mach} (op : c.opcode = 0x20) (small : i < 4096) (pinned : pinWays fx c.id todo m = (m3, [])) :
    pumpPin fx c (BitVec.ofNat 12 i) todo m = complete fx c csDone [handleOf 0 (berthOf m3 i).gen i, berthAddr fx m3 i (berthOf m3 i).gen 0,
      BitVec.ofNat 64 (((berthOf m3 i).size.toNat + 1) * 4096)] (setBerth i { berthOf m3 i with moving := false } m3) := by
  have index : (BitVec.ofNat 12 i).toNat = i := Nat.mod_eq_of_lt small
  simp only [pumpPin, pinned, index, op, if_true]
  rfl

/-! ### BERTH_FREE (R158, R159) -/

theorem cmdBerthFree_stale (none_ : heldBerth m (cCtx c) c.pkt.p0 = none) : cmdBerthFree fx c m = complete fx c csStale [] m := by
  rw [cmdBerthFree, none_]

theorem cmdBerthFree_busy (held : heldBerth m (cCtx c) c.pkt.p0 = some i) (queue : (berthOf m i).qheld = true) :
    cmdBerthFree fx c m = complete fx c csBusy [1] m := by
  rw [cmdBerthFree, held]
  exact if_pos queue

theorem cmdBerthFree_marks (held : heldBerth m (cCtx c) c.pkt.p0 = some i) (free : (berthOf m i).qheld = false) :
    cmdBerthFree fx c m = complete fx c csDone [BitVec.ofNat 64 (berthRefs (markFreeing i (cEvent c) m) i)] (markFreeing i (cEvent c) m) := by
  rw [cmdBerthFree, held]
  exact if_neg (ne_true_of_eq_false free)

/-- With no command in progress or waiting there is none to stop. -/
theorem cancelAll_idle (pick : Rec → Bool) (idle : m.cmds.running = []) (wait : m.cmds.waiting = []) : cancelAll fx pick m = (m, 0) := by
  rw [cancelAll, idle, wait]
  rfl

theorem dropDest_none (tiles : m.red.tiles = []) : dropDest i m = m := by
  rw [dropDest, tiles]
  rfl

/-- An ABORT with nothing to stop and nothing that refers to the berth releases it before it answers. -/
theorem cmdBerthAbort_releases (held : heldBerth m (cCtx c) c.pkt.p0 = some i) (free : (berthOf m i).qheld = false) (idle : m.cmds.running = [])
    (wait : m.cmds.waiting = []) (hops : m.red.hops = []) (tiles : m.red.tiles = [])
    (refs : berthRefs (runOn c (.drainRefs 0) (markFreeing i (cEvent c) m)) i = 0) :
    cmdBerthAbort fx c m = complete fx c csDone [0] (releaseIfDone fx i (runOn c (.drainRefs 0) (markFreeing i (cEvent c) m))) := by
  have drained : cmdBerthAbort fx c m = pumpAbort fx c 0 (runOn c (.drainRefs 0) (markFreeing i (cEvent c) m)) := by
    simp only [cmdBerthAbort, held, free, Bool.false_eq_true, if_false, cancelAll_idle _ idle wait, hops, idle, List.filter_nil,
      List.foldl_nil, List.length_nil, dropDest_none tiles]
  rw [drained, pumpAbort, heldBerth_index held]
  exact if_neg (by simp [refs])

/-! ### BERTH_RESIZE (R160) -/

/-- A berth cut to its first n granules: those beyond are unpinned, their map entries freed, and it has no source any more. -/
def berthCut (i n : Nat) (m : Mach) : Mach :=
  setBerth i { berthOf m i with size := BitVec.ofNat 9 (n - 1), srcv := false }
    (dropRun ((berthOf m i).mapbase.toNat + n) ((berthOf m i).size.toNat + 1 - n)
      (unpinGranules (((berthRun m (berthOf m i)).drop n).map (· - 1)) m))

theorem cmdBerthResize_shrinks (held : heldBerth m (cCtx c) c.pkt.p0 = some i) (found : lostObj m 1 i = false)
    (size : 0 < fld c.pkt.p1 31 0) (fewer : (fld c.pkt.p1 31 0 + 4095) / 4096 ≤ (berthOf m i).size.toNat + 1)
    (inside : ((berthQueues m i).all fun x => x.2.base.toNat * 128 + ferryBytes x.2 ≤ (fld c.pkt.p1 31 0 + 4095) / 4096 * 4096) = true) :
    cmdBerthResize fx c m = complete fx c csDone [] (berthCut i ((fld c.pkt.p1 31 0 + 4095) / 4096) m) := by
  have wide : ¬ (fld c.pkt.p1 31 0 = 0 ∨ (fld c.pkt.p1 31 0 + 4095) / 4096 > 512) := by
    have := (berthOf m i).size.isLt
    omega
  have queues : ((berthQueues m i).any fun x => x.2.base.toNat * 128 + ferryBytes x.2 > (fld c.pkt.p1 31 0 + 4095) / 4096 * 4096) = false := by
    simpa using inside
  simp only [cmdBerthResize, held, found, if_neg wide, if_pos fewer, queues, Bool.false_eq_true, if_false]
  rfl

/-! ### BERTH_GRANULES_RELEASE (R158) -/

theorem releaseIfDone_done (freeing : (berthOf m i).freeing = true) (refs : berthRefs m i = 0) : releaseIfDone fx i m =
    if (berthOf m i).event then post fx 0x04 (handleOf 0 ((berthOf m i).gen - 1) i) (releaseBerth i (unlose 1 i m))
    else releaseBerth i (unlose 1 i m) := by
  rw [releaseIfDone]
  exact if_pos (by simp [freeing, refs])

theorem releaseIfDone_waits (h : (berthOf m i).freeing = false ∨ berthRefs m i ≠ 0) : releaseIfDone fx i m = m := by
  rw [releaseIfDone]
  exact if_neg (by obtain h | h := h <;> simp [h])

end

/-- A BERTH_FREE without ABORT whose handle is a berth's. -/
theorem start_berthFree_plain {s : State} {p : CmdPkt} {c : Rec} {m : Mach} (b : Begins s (.berthFree p) c m) (kind : hKind c.pkt.p0 = 0)
    (plain : cFlag c 0 = false) : startCmd s.fx c false m = cmdBerthFree s.fx c m := by
  rw [start_berthFree b, if_neg (by rw [kind]; decide), plain, if_neg Bool.false_ne_true]

/-! ### The obligation -/

/-- Settles O16, command by command; the block that an allocation, an ABORT or a resize leaves is at rest by the statement's premise. -/
theorem berthCommands : Obligations.BerthCommands := by
  refine fun s p c m i => ⟨fun b berth => ⟨fun unhomed => ?unhomed, fun home low high => ?alloc⟩,
    fun b kind plain => ⟨fun none_ => ?stale, fun held => ⟨fun queue => ?busy, fun free => ?marks⟩⟩,
    fun b kind held free idle hops tiles => ?abort, fun b held found => ?resize,
    fun k => ⟨fun freeing refs => ?done, fun waits => ?waits⟩⟩
  case unhomed => exact begins_completes b ((start_berthAlloc b).trans ((if_pos berth).trans (cmdBerthAlloc_unhomed unhomed))) b.resting
  case alloc =>
    intro n index room budget gs m1 e m3 chosen place pinned small x t rest
    refine begins_finish b ((start_berthAlloc b).trans ((if_pos berth).trans ?_)) rest
    rw [cmdBerthAlloc_sized home low high, allocBerth_enters index room budget chosen place]
    exact pumpPin_answers (b.opcode_plain rfl) small pinned
  case stale => exact begins_completes b ((start_berthFree_plain b kind plain).trans (cmdBerthFree_stale none_)) b.resting
  case busy => exact begins_completes b ((start_berthFree_plain b kind plain).trans (cmdBerthFree_busy held queue)) b.resting
  case marks => exact begins_completes b ((start_berthFree_plain b kind plain).trans (cmdBerthFree_marks held free)) (resting_setBerth b.resting)
  case abort =>
    intro f refs t rest
    have start : startCmd s.fx c false m = cmdBerthAbort s.fx c m := (start_berthFreeAbort b).trans (if_neg (by rw [kind]; decide))
    exact begins_finish b (start.trans (cmdBerthAbort_releases held free idle b.waiting hops tiles refs)) rest
  case resize =>
    intro x n size fewer inside t rest
    exact begins_finish b ((start_berthResize b).trans (cmdBerthResize_shrinks held found size fewer inside)) rest
  case done =>
    rw [row_berthGranulesRelease]
    exact actM_goes (releaseIfDone_done freeing refs)
  case waits =>
    rw [row_berthGranulesRelease]
    exact actM_goes (releaseIfDone_waits waits)

end Sys2Proof.Machine
end

section
/-! SUPPORT. The allocator's commands on arenas, arena objects, ferry queues and the pin budget (05_berths_and_allocator.md R161 to R166,
R170, R174; 15_integrity_and_sparing.md R400). -/

namespace Sys2Proof.Machine

section
variable {fx : Fixed} {c : Rec} {m : Mach} {i j : Nat}

/-! ### Arenas (R163, R166) -/

/-- The arena that ARENA_GRANT enters. -/
def grantedArena (fx : Fixed) (c : Rec) (i : Nat) (m : Mach) : Arena :=
  { valid := true, gen := (arenaOf m i).gen, ctx := cCtx c, start := c.pkt.p0
    base := BitVec.ofNat 35 (((lineAt fx m c.pkt.p0).elim 0 (·.toNat)) * 128), length := c.pkt.p1.toNat }

/-- The checks of R163: a homed range of a power of two from 1 MiB to 256 MiB, aligned, which meets neither the format map nor a live
arena, within the limits of number and sum. -/
structure Grantable (fx : Fixed) (c : Rec) (m : Mach) : Prop where
  home : m.regs.lv = true
  power : ∃ k < 9, c.pkt.p1.toNat = 1048576 * 2 ^ k
  aligned : c.pkt.p0.toNat % c.pkt.p1.toNat = 0
  homed : rangeHomed fx m c.pkt.p0 c.pkt.p1.toNat = true
  noMap : mapMeets fx (rangeRuns fx m c.pkt.p0 c.pkt.p1.toNat) = false
  apart : ∀ a ∈ liveArenas m, runsMeet (rangeRuns fx m a.start a.length) (rangeRuns fx m c.pkt.p0 c.pkt.p1.toNat) = false
  few : (liveArenas m).length < 64
  sum : ((liveArenas m).map (·.length)).sum + c.pkt.p1.toNat ≤ 268435456

theorem cmdArenaGrant_grants (h : Grantable fx c m) (index : fqPeek 64 m.berth.arenaQ = some i) :
    cmdArenaGrant fx c m = complete fx c csDone [handleOf 1 (arenaOf m i).gen i] { m with berth := { m.berth with
      arenaQ := fqPop 64 m.berth.arenaQ, arenas := tset .free m.berth.arenas i (grantedArena fx c i m) } } := by
  have size : (!((List.range 9).any fun k => decide (c.pkt.p1.toNat = 1048576 * 2 ^ k)) ||
      decide (c.pkt.p0.toNat % c.pkt.p1.toNat ≠ 0)) = false := by
    simpa [h.aligned] using h.power
  have apart : ((liveArenas m).any fun a => runsMeet (rangeRuns fx m a.start a.length) (rangeRuns fx m c.pkt.p0 c.pkt.p1.toNat)) = false := by
    simpa using h.apart
  have limits : ¬ ((liveArenas m).length ≥ 64 ∨ ((liveArenas m).map (·.length)).sum + c.pkt.p1.toNat > 268435456) := by
    have := h.few
    have := h.sum
    omega
  simp only [cmdArenaGrant, h.home, size, h.homed, h.noMap, apart, if_neg limits, index, Bool.not_true, Bool.false_eq_true, if_false]
  rfl

theorem cmdArenaRevoke_stale (gone : heldArena m (cCtx c) c.pkt.p0 = none) : cmdArenaRevoke fx c m = complete fx c csStale [] m := by
  rw [cmdArenaRevoke, gone]

/-- An arena with no object in it is removed. -/
theorem dropArena_empty (objs : arenaObjs m i = []) : dropArena i m = { m with
    err := { m.err with lost := m.err.lost.filter (· ≠ 8 * 16384 + i) }
    berth := { m.berth with
      arenas := tset .free m.berth.arenas i { Arena.free with gen := (arenaOf m i).gen + 1 }
      arenaQ := fqPush i m.berth.arenaQ } } := by
  rw [dropArena, objs]
  rfl

section
variable (held : heldArena m (cCtx c) c.pkt.p0 = some i)
include held

theorem cmdArenaRevoke_lost (lost : lostObj m 8 i = true) (plain : cFlag c 0 = false) : cmdArenaRevoke fx c m = complete fx c csDenied [] m := by
  rw [cmdArenaRevoke, held]
  exact if_pos (by simp [lost, plain])

theorem cmdArenaRevoke_busy (found : lostObj m 8 i = false) (objs : arenaObjs m i ≠ []) (plain : cFlag c 0 = false) :
    cmdArenaRevoke fx c m = complete fx c csBusy [BitVec.ofNat 64 (arenaObjs m i).length] m := by
  simp [cmdArenaRevoke, held, found, objs, plain]

theorem cmdArenaRevoke_drops (may : lostObj m 8 i = false ∨ cFlag c 0 = true) (objs : arenaObjs m i = []) :
    cmdArenaRevoke fx c m = complete fx c csDone [] (dropArena i m) := by
  obtain found | force := may
  · simp [cmdArenaRevoke, held, found, objs]
  · simp [cmdArenaRevoke, held, force]

end

/-! ### Arena objects (R164, R165) -/

theorem cmdObjAlloc_takes {off : Nat} (home : m.regs.lv = true) (held : heldArena m (cCtx c) c.pkt.p1 = some i) (found : lostObj m 8 i = false)
    (small : pow2Up (fld c.pkt.p0 31 0) 24 256 ≤ 64 * 1048576) (fits : pow2Up (fld c.pkt.p0 31 0) 24 256 ≤ (arenaOf m i).length)
    (block : buddyPick m i (pow2Up (fld c.pkt.p0 31 0) 24 256) = some off) (index : fqPeek 16384 m.berth.objQ = some j) :
    cmdObjAlloc fx c m = complete fx c csDone
      [handleOf 2 (objOf m j).gen j, (arenaOf m i).start + BitVec.ofNat 64 off, BitVec.ofNat 64 (pow2Up (fld c.pkt.p0 31 0) 24 256)]
      { m with berth := { m.berth with
          objQ := fqPop 16384 m.berth.objQ
          objs := tset .free m.berth.objs j { valid := true, gen := (objOf m j).gen, ctx := cCtx c, arena := BitVec.ofNat 6 i, offset := off
                                              size := pow2Up (fld c.pkt.p0 31 0) 24 256 } } } := by
  have size : ¬ (pow2Up (fld c.pkt.p0 31 0) 24 256 > 64 * 1048576 ∨ pow2Up (fld c.pkt.p0 31 0) 24 256 > (arenaOf m i).length) :=
    not_or.mpr ⟨Nat.not_lt.mpr small, Nat.not_lt.mpr fits⟩
  simp only [cmdObjAlloc, home, held, found, if_neg size, block, index, Bool.not_true, Bool.false_eq_true, if_false]

theorem cmdObjFree_stale (gone : heldObj m (cCtx c) c.pkt.p0 = none) : cmdObjFree fx c m = complete fx c csStale [] m := by
  rw [cmdObjFree, gone]

theorem cmdObjFree_frees (held : heldObj m (cCtx c) c.pkt.p0 = some i) (plain : cFlag c 0 = false) :
    cmdObjFree fx c m = complete fx c csDone [] (freeObj i (unlose 9 i m)) := by
  rw [cmdObjFree, held]
  exact if_neg (ne_true_of_eq_false plain)

/-! ### Ferry queues (R170, R174) -/

theorem cmdQueueCreate_stale (home : m.regs.lv = true) (gone : heldBerth m (cCtx c) c.pkt.p0 = none) :
    cmdQueueCreate fx c m = complete fx c csStale [] m := by
  rw [cmdQueueCreate, home, gone]
  rfl

/-- The record that QUEUE_CREATE writes, with the fields of P1. -/
def createdFerry (c : Rec) (i j : Nat) (m : Mach) : Ferry :=
  { valid := true, gen := (ferryOf m j).gen, ctx := cCtx c, berth := BitVec.ofNat 12 i
    base := BitVec.ofNat 14 (fld c.pkt.p1 63 50), esize := BitVec.ofNat 3 (fld c.pkt.p1 49 47)
    depth := BitVec.ofNat 5 (fld c.pkt.p1 46 42), notifyV := bit c.pkt.p1 41
    ngen := BitVec.ofNat 8 (fld c.pkt.p1 40 33), notify := BitVec.ofNat 14 (fld c.pkt.p1 32 19), head := 0, tail := 0, closing := false }

theorem cmdQueueCreate_creates (home : m.regs.lv = true) (held : heldBerth m (cCtx c) c.pkt.p0 = some i) (found : lostObj m 1 i = false)
    (good : queueBad m c i = false) (index : fqPeek 1024 m.berth.ferryQ = some j) :
    cmdQueueCreate fx c m = complete fx c csDone [handleOf 3 (ferryOf m j).gen j] { m with berth := { m.berth with
      ferryQ := fqPop 1024 m.berth.ferryQ
      ferries := tset .free m.berth.ferries j (createdFerry c i j m)
      berths := tset .free m.berth.berths i { berthOf m i with qheld := true } } } := by
  simp only [cmdQueueCreate, home, held, found, good, index, Bool.not_true, Bool.false_eq_true, if_false]
  rfl

theorem heldQueue_index {x : Ctx} {h : W64} (held : heldQueue m x h = some i) : hIdx h = i := by
  simp only [heldQueue, Option.ite_none_right_eq_some, Option.some.injEq] at held
  exact held.2

/-- A queue whose QUEUE_DESTROY has started: its handle is refused from now on. -/
def queueClosing (i : Nat) (m : Mach) : Mach := setFerry i { ferryOf m i with gen := (ferryOf m i).gen + 1, closing := true } m

theorem cmdQueueDestroy_stale (gone : heldQueue m (cCtx c) c.pkt.p0 = none) : cmdQueueDestroy fx c m = complete fx c csStale [] m := by
  rw [cmdQueueDestroy, gone]

theorem cmdQueueDestroy_closes (held : heldQueue m (cCtx c) c.pkt.p0 = some i) :
    cmdQueueDestroy fx c m = pumpQueue fx c (runOn c (.drainRefs 0) (queueClosing i m)) := by
  rw [cmdQueueDestroy, held]
  rfl

/-- A record that is closing is not a free one. -/
theorem ferryClosing_live {f : Ferry} {g : Gen} : ({ f with gen := g, closing := true } : Ferry) ≠ .free :=
  fun e => Bool.noConfusion (congrArg Ferry.closing e)

theorem ferryOf_queueClosing : ferryOf (queueClosing i m) i = { ferryOf m i with gen := (ferryOf m i).gen + 1, closing := true } :=
  tget_tset_ne _ _ _ _ ferryClosing_live

/-- A queue's index freed, with a record left there. -/
def queueFreed (i : Nat) (f : Ferry) (m : Mach) : Mach := { m with
  err := { m.err with lost := m.err.lost.filter (· ≠ 2 * 16384 + i) }
  berth := { m.berth with ferries := tset .free m.berth.ferries i f, ferryQ := fqPush i m.berth.ferryQ } }

/-- A berth that no queue lies in any more is held by none. -/
def berthUnheld (k : Nat) (m : Mach) : Mach := if berthQueues m k = [] then setBerth k { berthOf m k with qheld := false } m else m

theorem berthUnheld_runOn (k : Nat) (p : Prog) (m : Mach) : berthUnheld k (runOn c p m) = runOn c p (berthUnheld k m) := by
  have queues : berthQueues (runOn c p m) k = berthQueues m k := rfl
  rw [berthUnheld, berthUnheld, queues]
  split <;> rfl

theorem dropQueue_frees : dropQueue i m = berthUnheld (ferryOf m i).berth.toNat
    (queueFreed i { Ferry.free with gen := if (ferryOf m i).closing then (ferryOf m i).gen else (ferryOf m i).gen + 1 } m) := rfl

/-- The record that the queue had as it closed is written over. -/
theorem queueFreed_queueClosing {f : Ferry} {p : Prog} : queueFreed i f (runOn c p (queueClosing i m)) = runOn c p (queueFreed i f m) := by
  have ferries : tset .free (runOn c p (queueClosing i m)).berth.ferries i f = tset .free m.berth.ferries i f :=
    tset_tset _ _ _ _ _ ferryClosing_live
  rw [queueFreed, ferries]
  rfl

/-- The generation has advanced as the queue began to close, and does not again as its index is freed. -/
theorem dropQueue_closing {p : Prog} : dropQueue i (runOn c p (queueClosing i m)) = runOn c p
    (berthUnheld (ferryOf m i).berth.toNat (queueFreed i { Ferry.free with gen := (ferryOf m i).gen + 1 } m)) := by
  have record : ferryOf (runOn c p (queueClosing i m)) i = { ferryOf m i with gen := (ferryOf m i).gen + 1, closing := true } :=
    ferryOf_queueClosing
  rw [dropQueue_frees, record, if_pos rfl, queueFreed_queueClosing, berthUnheld_runOn]

theorem cmdQueueDestroy_waits (held : heldQueue m (cCtx c) c.pkt.p0 = some i) (parked : queueParked m i = true) :
    cmdQueueDestroy fx c m = runOn c (.drainRefs 0) (queueClosing i m) := by
  have parked' : queueParked (runOn c (.drainRefs 0) (queueClosing i m)) i = true := parked
  rw [cmdQueueDestroy_closes held, pumpQueue, heldQueue_index held]
  exact if_pos parked'

theorem cmdQueueDestroy_frees (held : heldQueue m (cCtx c) c.pkt.p0 = some i) (idle : queueParked m i = false) :
    cmdQueueDestroy fx c m = complete fx c csDone [BitVec.ofNat 64 (ferryOcc (ferryOf m i))]
      (berthUnheld (ferryOf m i).berth.toNat (queueFreed i { Ferry.free with gen := (ferryOf m i).gen + 1 } m)) := by
  have idle' : queueParked (runOn c (.drainRefs 0) (queueClosing i m)) i = false := idle
  have record : ferryOf (runOn c (.drainRefs 0) (queueClosing i m)) i = { ferryOf m i with gen := (ferryOf m i).gen + 1, closing := true } :=
    ferryOf_queueClosing
  rw [cmdQueueDestroy_closes held, pumpQueue, heldQueue_index held]
  simp only [idle', Bool.false_eq_true, if_false, record, dropQueue_closing, complete_runOn]
  rfl

theorem resting_queueFreed {f : Ferry} (h : resting m = true) : resting (queueFreed i f m) = true := h

theorem resting_berthUnheld {k : Nat} (h : resting m = true) : resting (berthUnheld k m) = true := resting_ite (resting_setBerth h) h

/-! ### PIN_BUDGET (R161) -/

theorem cmdPinBudget_bad (h : 3072 < fld c.pkt.p0 11 0) : cmdPinBudget fx c m = complete fx c csBadParam [] m := by
  rw [cmdPinBudget]
  exact if_pos h

theorem cmdPinBudget_sets (h : fld c.pkt.p0 11 0 ≤ 3072) : cmdPinBudget fx c m = complete fx c csDone [BitVec.ofNat 64 (ctxPinned m (cCtx c))]
    (setCtx (cCtx c) { ctxOf m (cCtx c) with pinCap := BitVec.ofNat 12 (fld c.pkt.p0 11 0) } m) := by
  rw [cmdPinBudget]
  exact if_neg (Nat.not_lt.mpr h)

/-- A change of the allocator's tables alone leaves a block at rest. -/
theorem resting_allocator {arenas : Tbl Arena} {objs : Tbl ArenaObj} {ferries : Tbl Ferry} {berths : Tbl Berth} {aq oq fq : FreeQ} {e : ErrSt}
    (h : resting m = true) : resting { m with err := e, berth := { m.berth with
      arenas := arenas, objs := objs, ferries := ferries, berths := berths, arenaQ := aq, objQ := oq, ferryQ := fq } } = true := h

end

/-! ### The obligation -/

/-- A BERTH_FREE without ABORT whose handle is an arena object's. -/
theorem start_arenaObjectFree_plain {s : State} {p : CmdPkt} {c : Rec} {m : Mach} (b : Begins s (.arenaObjectFree p) c m)
    (kind : hKind c.pkt.p0 = 2) : startCmd s.fx c false m = cmdObjFree s.fx c m := (start_arenaObjectFree b).trans (if_pos kind)

/-- Settles O17, command by command. -/
theorem arenaAndQueueCommands : Obligations.ArenaAndQueueCommands := by
  refine fun s p c m i j => ⟨fun b home => ?grant,
    fun b => ⟨fun gone => ?revokeStale, fun held lost plain => ?revokeLost, fun held found objs plain => ?revokeBusy,
      fun held may objs => ?revoke⟩,
    fun b arena home held found => ?alloc,
    fun b kind plain => ⟨fun gone => ?freeStale, fun held => ?free⟩,
    fun b => ⟨fun home gone => ?createStale, fun home held found good index => ?create⟩,
    fun b => ⟨fun gone => ?destroyStale, fun held => ⟨fun parked => ?destroyWaits, fun idle => ?destroy⟩⟩,
    fun b => ⟨fun large => ?pinBad, fun small => ?pin⟩⟩
  case grant =>
    intro n power aligned homed noMap apart few sum index
    exact begins_completes b ((start_arenaGrant b).trans (cmdArenaGrant_grants ⟨home, power, aligned, homed, noMap, apart, few, sum⟩ index))
      (resting_allocator b.resting)
  case revokeStale => exact begins_completes b ((start_arenaRevoke b).trans (cmdArenaRevoke_stale gone)) b.resting
  case revokeLost => exact begins_completes b ((start_arenaRevoke b).trans (cmdArenaRevoke_lost held lost plain)) b.resting
  case revokeBusy => exact begins_completes b ((start_arenaRevoke b).trans (cmdArenaRevoke_busy held found objs plain)) b.resting
  case revoke =>
    rw [← dropArena_empty objs]
    exact begins_completes b ((start_arenaRevoke b).trans (cmdArenaRevoke_drops held may objs))
      (by rw [dropArena_empty objs]; exact resting_allocator b.resting)
  case alloc =>
    intro size small fits off block index
    exact begins_completes b ((start_arenaObjectAlloc b).trans ((if_neg arena).trans (cmdObjAlloc_takes home held found small fits block index)))
      (resting_allocator b.resting)
  case freeStale => exact begins_completes b ((start_arenaObjectFree_plain b kind).trans (cmdObjFree_stale gone)) b.resting
  case free => exact begins_completes b ((start_arenaObjectFree_plain b kind).trans (cmdObjFree_frees held plain)) (resting_allocator b.resting)
  case createStale => exact begins_completes b ((start_queueCreate b).trans (cmdQueueCreate_stale home gone)) b.resting
  case create =>
    exact begins_completes b ((start_queueCreate b).trans (cmdQueueCreate_creates home held found good index)) (resting_allocator b.resting)
  case destroyStale => exact begins_completes b ((start_queueDestroy b).trans (cmdQueueDestroy_stale gone)) b.resting
  case destroyWaits => exact begins_onward b ((start_queueDestroy b).trans (cmdQueueDestroy_waits held parked))
  case destroy =>
    exact begins_completes b ((start_queueDestroy b).trans (cmdQueueDestroy_frees held idle)) (resting_berthUnheld (resting_queueFreed b.resting))
  case pinBad => exact begins_completes b ((start_pinBudget b).trans (cmdPinBudget_bad large)) b.resting
  case pin => exact begins_completes b ((start_pinBudget b).trans (cmdPinBudget_sets small)) (resting_setCtx b.resting)

end Sys2Proof.Machine
end

section
/-! SUPPORT. COPY and COPY_MEASURE of one line from berth to berth, and the engine that holds them (05_berths_and_allocator.md R167 to R169;
14_confidential_operation.md R379). -/

namespace Sys2Proof.Machine

/-! ### A berth line written -/

theorem resting_writeBerthWay {set way : Nat} {b : BitVec 128} {d : Line} {m : Mach} (h : resting m = true) :
    resting (writeBerthWay set way b d m) = true :=
  resting_ite h (resting_clearWords (resting_setTag h))

theorem reloads_resting {m : Mach} (h : resting m = true) : m.berth.reloads = [] := ((resting_iff m).mp h).1.reloads

/-! ### The commands and the key unit play no part in what a copy writes -/

/-- The block with its commands and its key unit replaced. -/
def aside (g : Cmds → Cmds) (k : KeySt → KeySt) (m : Mach) : Mach := { m with cmds := g m.cmds, keys := k m.keys }

section
variable (g : Cmds → Cmds) (k : KeySt → KeySt)

theorem writeBerthWay_aside (set way : Nat) (b : BitVec 128) (d : Line) (m : Mach) :
    writeBerthWay set way b d (aside g k m) = aside g k (writeBerthWay set way b d m) := by
  by_cases none_ : b = 0
  · rw [writeBerthWay, writeBerthWay, if_pos none_, if_pos none_]
  by_cases words : m.cache.errs.word = []
  all_goals
    simp only [writeBerthWay, if_neg none_, clearWords, setTag, setData, aside, words, if_true, if_false]
    rfl

theorem unmarkSource_aside {m : Mach} (reloads : m.berth.reloads = []) (i : Nat) :
    unmarkSource i (aside g k m) = aside g k (unmarkSource i m) := by
  have entry : berthOf (aside g k m) i = berthOf m i := rfl
  rw [unmarkSource_none (m := aside g k m) reloads, unmarkSource_none reloads, entry]
  split <;> rfl

end

/-! ### One line from berth to berth -/

/-- Where the line that a copy reads lies, and the one that it writes. -/
def copyFrom (c : Rec) (m : Mach) : Nat × Nat := berthPlace m (berthOf m (bIdx c.pkt.p0)) (bOff c.pkt.p0)
def copyTo (c : Rec) (m : Mach) : Nat × Nat := berthPlace m (berthOf m (bIdx c.pkt.p1)) (bOff c.pkt.p1)

/-- The line that a copy reads, and its poison. -/
def copyData (c : Rec) (m : Mach) : Line := wayData m (copyFrom c m).1 (copyFrom c m).2
def copyPoison (c : Rec) (m : Mach) : Bool := (tagAt m (copyFrom c m).1 (copyFrom c m).2).poison

/-- The destination's line written, with no source any more. -/
def lineWritten (c : Rec) (m : Mach) : Mach :=
  unmarkSource (bIdx c.pkt.p1) (writeBerthWay (copyTo c m).1 (copyTo c m).2 (BitVec.allOnes 128) (copyData c m) m)

/-- The line copied, with its poison. -/
def lineCopied (c : Rec) (m : Mach) : Mach :=
  setTag (copyTo c m).1 (copyTo c m).2 { tagAt (lineWritten c m) (copyTo c m).1 (copyTo c m).2 with poison := copyPoison c m } (lineWritten c m)

/-- A copy of one line from berth to berth, whose berth lines are ready and sound. -/
structure BerthLine (c : Rec) (m : Mach) : Prop where
  fromBerth : cFlag c 0 = true
  toBerth : cFlag c 1 = true
  length : copyLen c = 128
  sound : sound m = true
  up : awake m [dEngine, dTag ((copyFrom c m).1 % 4), dWay m (copyFrom c m).1 (copyFrom c m).2,
    dTag ((copyTo c m).1 % 4), dWay m (copyTo c m).1 (copyTo c m).2] = true

theorem resting_lineCopied {c : Rec} {m : Mach} (h : resting m = true) : resting (lineCopied c m) = true :=
  resting_setTag (resting_unmark (resting_writeBerthWay h))

theorem writeBerthWay_berth {set way : Nat} {b : BitVec 128} {d : Line} (m : Mach) : (writeBerthWay set way b d m).berth = m.berth := by
  rw [writeBerthWay]
  split
  · rfl
  · simp only [clearWords]
    split <;> rfl

theorem lineCopied_aside {c : Rec} {m : Mach} (reloads : m.berth.reloads = []) (g : Cmds → Cmds) (k : KeySt → KeySt) :
    lineCopied c (aside g k m) = aside g k (lineCopied c m) := by
  have written : lineWritten c (aside g k m) = aside g k (lineWritten c m) := by
    rw [lineWritten, writeBerthWay_aside]
    exact unmarkSource_aside g k (by rw [writeBerthWay_berth]; exact reloads) _
  rw [lineCopied, written]
  rfl

theorem measureLine_setProg (c : Rec) (d : Line) (x : Bool) (id : Nat) (p : Prog) (m : Mach) :
    measureLine c d x (setProg id p m) = setProg id p (measureLine c d x m) := by
  have digest : digestOf (setProg id p m) (copySlot c) = digestOf m (copySlot c) := rfl
  simp only [measureLine, digest]
  split
  · split <;> rfl
  · rfl

/-- A program's progress plays no part in its end. -/
theorem complete_setProg (fx : Fixed) (c : Rec) (p : Prog) (st : Nat) (res : List W64) (m : Mach) :
    complete fx c st res (setProg c.id p m) = complete fx c st res m := by
  have others : (setProg c.id p m).cmds.running.filter (·.cmd.id ≠ c.id) = m.cmds.running.filter (·.cmd.id ≠ c.id) := by
    simp only [setProg]
    induction m.cmds.running with
    | nil => rfl
    | cons r t ih =>
      by_cases own : r.cmd.id = c.id
      · simpa [own] using ih
      · simpa [own] using ih
  rw [complete, others]
  rfl

/-! ### The engine (R169) -/

section
variable {fx : Fixed} {c : Rec} {m : Mach}

/-- A copy of one line at its start, with its line read, and past it. -/
def lineStart : CopyProg := { next := 0, lines := 1, poisoned := 0, held := none, waiting := false }
def lineHeld (c : Rec) (m : Mach) : CopyProg := { lineStart with held := some (copyData c m, copyPoison c m) }
def linePast (c : Rec) (m : Mach) : CopyProg := { lineStart with next := 1, poisoned := b2n (copyPoison c m) }

theorem copyRead_line (line : BerthLine c m) : copyRead fx c lineStart m = (m, lineHeld c m, true) := by
  have up : waitDoms c.id [dTag ((copyFrom c m).1 % 4), dWay m (copyFrom c m).1 (copyFrom c m).2] m = (m, true) :=
    waitDoms_awake _ line.up (by simp)
  have place : berthPlace m (berthOf m (bIdx c.pkt.p0)) (bOff c.pkt.p0 + lineStart.next * 128) = copyFrom c m := rfl
  simp only [copyRead, if_pos line.fromBerth, place, up, Bool.not_true, Bool.false_eq_true, if_false, scanBerth_sound fx _ _ _ _ _ line.sound]
  rfl

theorem copyWrite_line (line : BerthLine c m) : copyWrite fx c (lineHeld c m) (copyData c m) (copyPoison c m) m =
    (measureLine c (copyData c m) (copyPoison c m) (lineCopied c m), linePast c m, true) := by
  have up : waitDoms c.id [dTag ((copyTo c m).1 % 4), dWay m (copyTo c m).1 (copyTo c m).2] m = (m, true) :=
    waitDoms_awake _ line.up (by simp)
  have place : berthPlace m (berthOf m (bIdx c.pkt.p1)) (bOff c.pkt.p1 + (lineHeld c m).next * 128) = copyTo c m := rfl
  have past : { lineHeld c m with next := (lineHeld c m).next + 1, held := none, waiting := false
                                  poisoned := (lineHeld c m).poisoned + b2n (copyPoison c m) } = linePast c m := by
    show ({ next := 0 + 1, lines := 1, poisoned := 0 + b2n (copyPoison c m), held := none, waiting := false } : CopyProg) = _
    rw [Nat.zero_add, Nat.zero_add]
    rfl
  simp only [copyWrite, if_pos line.toBerth, place, up, Bool.not_true, Bool.false_eq_true, if_false, past]
  rfl

/-- A line read, written, and past: then there is none left. -/
theorem runCopy_line (line : BerthLine c m) (n : Nat) : runCopy fx c (n + 3) lineStart m =
    (measureLine c (copyData c m) (copyPoison c m) (lineCopied c m), linePast c m) := by
  have read : runCopy fx c (n + 3) lineStart m = runCopy fx c (n + 2) (lineHeld c m) m := by
    have left : ¬ lineStart.next ≥ lineStart.lines := by decide
    rw [runCopy, if_neg (by decide), if_neg left]
    simp only [show lineStart.held = none from rfl, copyRead_line line, if_true]
  have write : runCopy fx c (n + 2) (lineHeld c m) m =
      runCopy fx c (n + 1) (linePast c m) (measureLine c (copyData c m) (copyPoison c m) (lineCopied c m)) := by
    have going : ¬ (lineHeld c m).waiting = true := Bool.false_ne_true
    have left : ¬ (lineHeld c m).next ≥ (lineHeld c m).lines := Nat.not_succ_le_zero 0
    rw [runCopy, if_neg going, if_neg left]
    simp only [show (lineHeld c m).held = some (copyData c m, copyPoison c m) from rfl, copyWrite_line line, if_true]
  have going : ¬ (linePast c m).waiting = true := Bool.false_ne_true
  have past : (linePast c m).next ≥ (linePast c m).lines := Nat.le_refl 1
  rw [read, write, runCopy, if_neg going, if_pos past]

theorem pumpCopy_line (line : BerthLine c m) (run : runningCmd m isCopyRun = some ⟨c, .copyRun lineStart⟩) :
    pumpCopy fx m = complete fx c (if copyPoison c m then csPoisoned else csDone) [BitVec.ofNat 64 128, BitVec.ofNat 64 (b2n (copyPoison c m))]
      (measureLine c (copyData c m) (copyPoison c m) (lineCopied c m)) := by
  have unmarked : ∀ p n, markSource c p n = n := fun p n => by
    rw [markSource]
    exact if_neg (by simp [line.fromBerth])
  have status : (if b2n (copyPoison c m) = 0 then csDone else csPoisoned) = if copyPoison c m then csPoisoned else csDone := by
    cases copyPoison c m <;> rfl
  rw [pumpCopy, run]
  simp only [waitDom_awake c.id line.up (List.mem_cons_self ..), Bool.not_true, Bool.false_eq_true, if_false]
  have past : (linePast c m).next ≥ (linePast c m).lines := Nat.le_refl 1
  rw [show 4 * (lineStart.lines - lineStart.next) + 4 = 5 + 3 from rfl, runCopy_line line]
  simp only [unmarked, if_pos past]
  rw [← status]
  rfl

/-- The engine takes the one copy that it holds, and carries it through. -/
theorem startCopy_line (line : BerthLine c m) (reloads : m.berth.reloads = []) (held : m.cmds.running = [⟨c, .copyHeld⟩]) :
    startCopy fx m = complete fx c (if copyPoison c m then csPoisoned else csDone)
      [BitVec.ofNat 64 128, BitVec.ofNat 64 (b2n (copyPoison c m))] (measureLine c (copyData c m) (copyPoison c m) (lineCopied c m)) := by
  have begun : startCopy fx m = pumpCopy fx (setProg c.id (.copyRun lineStart) m) := by
    have lines : copyLen c / 128 = 1 := by rw [line.length]
    simp only [startCopy, runningCmd, held, List.find?, isCopyRun, Option.isSome_none, Bool.false_eq_true, if_false, decide_true, lines]
    rfl
  have run : runningCmd (setProg c.id (.copyRun lineStart) m) isCopyRun = some ⟨c, .copyRun lineStart⟩ := by
    simp [runningCmd, setProg, held, isCopyRun]
  have line' : BerthLine c (setProg c.id (.copyRun lineStart) m) := ⟨line.fromBerth, line.toBerth, line.length, line.sound, line.up⟩
  have copied : lineCopied c (setProg c.id (.copyRun lineStart) m) = setProg c.id (.copyRun lineStart) (lineCopied c m) :=
    lineCopied_aside reloads (fun x => { x with running := x.running.map fun r =>
      if r.cmd.id = c.id then { r with prog := .copyRun lineStart } else r }) id
  rw [begun, pumpCopy_line line' run, copied, measureLine_setProg, complete_setProg]
  rfl

/-! ### A copy accepted (R167, R169) -/

/-- The number of copies that the engine holds or runs. -/
def copiesHeld (m : Mach) : Nat := (m.cmds.running.filter fun r => isCopy r.prog).length

theorem acceptCopy_full (stop : copyStop fx m c false = none) (full : 8 ≤ copiesHeld m) : acceptCopy fx c false m = complete fx c csBusy [] m := by
  rw [acceptCopy, stop]
  exact if_pos full

/-- A copy behind others is held. -/
theorem acceptCopy_held (op : c.opcode ≠ 0x31) (stop : copyStop fx m c false = none) (behind : 0 < copiesHeld m) (room : copiesHeld m < 8) :
    acceptCopy fx c false m = runOn c .copyHeld m := by
  have room' : ¬ copiesHeld m ≥ 8 := Nat.not_le.mpr room
  rw [copiesHeld] at behind room'
  simp only [acceptCopy, stop, if_neg room', op, false_and, if_false, if_neg (Nat.pos_iff_ne_zero.mp behind)]

/-- The digest that a COPY_MEASURE with START opens. -/
def digestOpened (c : Rec) : Digest :=
  { st := 1, taint := false, owner := cCtx c, ogen := cGen c, bytes := 0, h := shaPack sha384Init }

/-- A copy that the idle engine takes at once. -/
theorem acceptCopy_starts (stop : copyStop fx m c false = none) (idle : m.cmds.running = []) : acceptCopy fx c false m =
    startCopy fx (runOn c .copyHeld (if c.opcode = 0x31 ∧ cFlag c 3 then setDigest (copySlot c) (digestOpened c) m else m)) := by
  have none_ : (m.cmds.running.filter fun r => isCopy r.prog).length = 0 := by rw [idle]; rfl
  simp only [acceptCopy, stop, none_, if_true]
  rfl

theorem acceptCopy_copies (op : c.opcode ≠ 0x31) (stop : copyStop fx m c false = none) (idle : m.cmds.running = [])
    (reloads : m.berth.reloads = []) (line : BerthLine c m) :
    acceptCopy fx c false m = complete fx c (if copyPoison c m then csPoisoned else csDone)
      [BitVec.ofNat 64 128, BitVec.ofNat 64 (b2n (copyPoison c m))] (lineCopied c m) := by
  have held : (runOn c .copyHeld m).cmds.running = [⟨c, .copyHeld⟩] := by simp [runOn, idle]
  have line' : BerthLine c (runOn c .copyHeld m) := ⟨line.fromBerth, line.toBerth, line.length, line.sound, line.up⟩
  have copied : lineCopied c (runOn c .copyHeld m) = runOn c .copyHeld (lineCopied c m) :=
    lineCopied_aside reloads (fun x => { x with running := x.running ++ [⟨c, .copyHeld⟩] }) id
  rw [acceptCopy_starts stop idle, if_neg fun h => op h.1, startCopy_line line' reloads held, measureLine, if_neg op, copied, complete_runOn]
  rfl

/-- The digest that has taken in the line, or zeros for a poisoned one. -/
def lineMeasured (c : Rec) (m : Mach) : Digest := { digestOpened c with
  h := shaLine (digestOpened c).h (if copyPoison c m then 0 else copyData c m), bytes := 128, taint := copyPoison c m }

theorem acceptCopy_measures (op : c.opcode = 0x31) (start : cFlag c 3 = true) (stop : copyStop fx m c false = none)
    (idle : m.cmds.running = []) (reloads : m.berth.reloads = []) (line : BerthLine c m) :
    acceptCopy fx c false m = complete fx c (if copyPoison c m then csPoisoned else csDone)
      [BitVec.ofNat 64 128, BitVec.ofNat 64 (b2n (copyPoison c m))]
      (setDigest (copySlot c) (lineMeasured c m) (setDigest (copySlot c) (digestOpened c) (lineCopied c m))) := by
  let n := runOn c .copyHeld (setDigest (copySlot c) (digestOpened c) m)
  have held : n.cmds.running = [⟨c, .copyHeld⟩] := by simp [n, runOn, setDigest, idle]
  have line' : BerthLine c n := ⟨line.fromBerth, line.toBerth, line.length, line.sound, line.up⟩
  have copied : lineCopied c n = runOn c .copyHeld (setDigest (copySlot c) (digestOpened c) (lineCopied c m)) :=
    lineCopied_aside reloads (fun x => { x with running := x.running ++ [⟨c, .copyHeld⟩] })
      (fun x => { x with digests := tset .empty x.digests (copySlot c) (digestOpened c) })
  have digest : digestOf (runOn c .copyHeld (setDigest (copySlot c) (digestOpened c) (lineCopied c m))) (copySlot c) = digestOpened c :=
    tget_tset_ne _ _ _ _ fun e => absurd (show (1 : BitVec 2) = 0 from congrArg Digest.st e) (by decide)
  have measured : measureLine c (copyData c m) (copyPoison c m) (lineCopied c n) = runOn c .copyHeld
      (setDigest (copySlot c) (lineMeasured c m) (setDigest (copySlot c) (digestOpened c) (lineCopied c m))) := by
    rw [copied, measureLine, if_pos op, digest]
    rfl
  rw [acceptCopy_starts stop idle, if_pos ⟨op, start⟩]
  refine (startCopy_line line' reloads held).trans ?_
  show complete fx c _ _ (measureLine c (copyData c m) (copyPoison c m) (lineCopied c n)) = _
  rw [measured, complete_runOn]
  rfl

end

/-! ### The obligation -/

/-- Settles O18: what the idle engine carries through at once, then what it holds, what it refuses, and the copy that it held. -/
theorem copyCommands : Obligations.CopyCommands := by
  intro s p c m oneLine from_ data bad copied held
  have lineOf : ∀ c m, oneLine c m → BerthLine c m := fun c m ⟨fromBerth, toBerth, length, ok, up⟩ => ⟨fromBerth, toBerth, length, ok, up⟩
  refine ⟨fun b stop => ⟨fun line idle => ?copies, fun behind room => ?holds, fun full => ?copyFull⟩,
    fun b stop => ⟨fun line idle start => ?measures, fun full => ?measureFull⟩, fun rest run ring op line => ?starts⟩
  case copies =>
    have op : c.opcode ≠ 0x31 := by rw [b.opcode_plain (op := 0x30) rfl]; decide
    exact begins_completes b ((start_copy b).trans (acceptCopy_copies op stop idle (reloads_resting b.resting) (lineOf c m line)))
      (resting_lineCopied b.resting)
  case holds =>
    have op : c.opcode ≠ 0x31 := by rw [b.opcode_plain (op := 0x30) rfl]; decide
    exact begins_finish b ((start_copy b).trans (acceptCopy_held op stop behind room)) (resting_runOn b.resting rfl)
  case copyFull => exact begins_completes b ((start_copy b).trans (acceptCopy_full stop full)) b.resting
  case measures =>
    exact begins_completes b ((start_copyMeasure b).trans (acceptCopy_measures (b.opcode_plain rfl) start stop idle (reloads_resting b.resting)
      (lineOf c m line))) (resting_lineCopied b.resting)
  case measureFull => exact begins_completes b ((start_copyMeasure b).trans (acceptCopy_full stop full)) b.resting
  case starts =>
    have other : c.opcode ≠ 0x31 := by rw [op]; decide
    rw [row_copyEngineStart]
    refine actM_rest ?_ (resting_complete ring (resting_lineCopied rest))
    rw [startCopy_line (lineOf c s.m line) (reloads_resting rest) run, measureLine, if_neg other]
    rfl

end Sys2Proof.Machine
end


section
/-! SUPPORT. Requests to berths and to ferry queues (05_berths_and_allocator.md R146, R147, R153, R154, R171 to R173;
06_atomics_and_sync.md R195, R196; 09_sparse_data.md R263; 15_integrity_and_sparing.md R400). -/

namespace Sys2Proof.Machine

/-! ### A request given to its unit -/

section
variable {fx : Fixed} {op : BitVec 6} {r : Req} {m n : Mach}

/-- One behind which no earlier request of its kind waits is served as its unit serves it. -/
theorem submitBerth_done {try_ : Access → Mach → Mach × Got} {a : Access} (first : waitsSame m a = false) (e : try_ a m = (n, .done)) :
    submitBerth try_ a m = (n, true) := by
  rw [submitBerth, first, if_neg Bool.false_ne_true, e]

/-- What a berth request does that passes the first checks. -/
theorem serveDp_berth (unit : op = opBRD ∨ op = opBWR) (t : Option Taken) : serveDp fx op r t m = serveBerth fx op r m := by
  have apart : ∀ x : BitVec 6, x = opBRD ∨ x = opBWR → x ≠ opPFHINT ∧ ¬ (x = opSIGNAL ∨ x = opWAIT) ∧
      ¬ (x = opTCONTRIB ∨ x = opTCONTRIBW ∨ x = opTFOLD) := by decide
  obtain ⟨hint, sync, tile⟩ := apart op unit
  rw [serveDp, if_neg hint, if_neg sync, if_neg tile, if_pos unit]

theorem gateFor_berth (unit : op = opBRD ∨ op = opBWR) :
    gateFor fx op r m = gate op r (if berthHome fx m r.address then .ok else .mishomed) (berthFields op r) true m := by
  have apart : ∀ x : BitVec 6, x = opBRD ∨ x = opBWR → ¬ (x = opSIGNAL ∨ x = opWAIT) ∧
      ¬ (x = opTCONTRIB ∨ x = opTCONTRIBW ∨ x = opTFOLD) := by decide
  obtain ⟨sync, tile⟩ := apart op unit
  rw [gateFor, if_neg sync, if_neg tile, if_pos unit]

theorem serveDp_ferry (unit : op = opQENQ ∨ op = opQDEQ) (t : Option Taken) : serveDp fx op r t m = serveFerry fx op r m := by
  have apart : ∀ x : BitVec 6, x = opQENQ ∨ x = opQDEQ → x ≠ opPFHINT ∧ ¬ (x = opSIGNAL ∨ x = opWAIT) ∧
      ¬ (x = opTCONTRIB ∨ x = opTCONTRIBW ∨ x = opTFOLD) ∧ ¬ (x = opBRD ∨ x = opBWR) := by decide
  obtain ⟨hint, sync, tile, berth⟩ := apart op unit
  rw [serveDp, if_neg hint, if_neg sync, if_neg tile, if_neg berth, if_pos unit]

theorem gateFor_ferry (unit : op = opQENQ ∨ op = opQDEQ) :
    gateFor fx op r m = gate op r (if syncHome fx m r.address then .ok else .mishomed) (ferryFields op r) true m := by
  have apart : ∀ x : BitVec 6, x = opQENQ ∨ x = opQDEQ → ¬ (x = opSIGNAL ∨ x = opWAIT) ∧
      ¬ (x = opTCONTRIB ∨ x = opTCONTRIBW ∨ x = opTFOLD) ∧ ¬ (x = opBRD ∨ x = opBWR) := by decide
  obtain ⟨sync, tile, berth⟩ := apart op unit
  rw [gateFor, if_neg sync, if_neg tile, if_neg berth, if_pos unit]

end

/-! ### Berth requests (R153) -/

/-- The access that a berth request makes of its line. -/
def berthAccess (op : BitVec 6) (r : Req) (x : Nat × Nat) : Access :=
  { op := if op = opBRD then .brd else .bwr, src := .dp op r, line := berthKey x.1 x.2, sect := r.sect, crit := r.address.extractLsb' 5 2
    bytes := if op = opBWR then (if r.maskmode = 1 then r.bmask else sectMask r.sect) else 0, data := placeSect r.payload r.sect
    early := false, acked := false, snooped := false, counted := true }

section
variable {s : State} {i : Instr} {op : BitVec 6} {r : Req} {m : Mach}

/-- What is left of a berth request that passes its checks: its translation, and its line. -/
theorem Passes.serveBerth_eq (b : Passes s i op r m) (unit : op = opBRD ∨ op = opBWR) (ok : sound m = true) :
    serveDp s.fx op r none m = (berthLook m r).elim (fun st => (answer r op st m, true))
      fun x => submitBerth (tryBerth s.fx) (berthAccess op r x) m := by
  have pass := b.passes
  rw [gateFor_berth unit] at pass
  rw [serveDp_berth unit, serveBerth, pass]
  simp only [scanManifest_sound s.fx r ok, b.manifest]
  cases berthLook m r <;> rfl

/-- A request whose translation stops it is answered so. -/
theorem Passes.berthStopped (b : Passes s i op r m) (unit : op = opBRD ∨ op = opBWR) (ok : sound m = true) {st : BitVec 4}
    (look : berthLook m r = .inl st) : exec i s = .next (s.put (answer r op st m)) :=
  b.toLands.put (by rw [b.serveBerth_eq unit ok, look]; rfl) (resting_answer b.resting)

/-- One that its unit serves at its line. -/
theorem Passes.berthServed (b : Passes s i op r m) (unit : op = opBRD ∨ op = opBWR) (ok : sound m = true) {x : Nat × Nat} {n : Mach}
    (look : berthLook m r = .inr x) (first : waitsSame m (berthAccess op r x) = false)
    (e : tryBerth s.fx (berthAccess op r x) m = (n, .done)) (rest : resting n = true) : exec i s = .next (s.put n) :=
  b.toLands.put (by rw [b.serveBerth_eq unit ok, look]; exact submitBerth_done first e) rest

end

section
variable {m : Mach} {r : Req}

/-- A berth that a request's address no longer names: freed, being freed, or of another generation. -/
abbrev BerthGone (m : Mach) (r : Req) : Prop :=
  (berthOf m (bIdx r.address)).valid = false ∨ (berthOf m (bIdx r.address)).freeing = true ∨ (berthOf m (bIdx r.address)).gen ≠ bGen r.address

/-- A berth of another context, or an offset past the berth's end. -/
abbrev BerthBarred (m : Mach) (r : Req) : Prop :=
  (berthOf m (bIdx r.address)).ctx ≠ r.ctx ∨ (berthOf m (bIdx r.address)).size.toNat < bOff r.address / 4096

theorem berthLook_lost (lost : lostObj m 1 (bIdx r.address) = true) : berthLook m r = .inl stPoison := by
  rw [berthLook]
  exact if_pos lost

variable (found : lostObj m 1 (bIdx r.address) = false)
include found

/-- The checks of a berth whose record is not lost, in their order. -/
theorem berthLook_found : berthLook m r =
    if BerthGone m r then .inl stStale else if BerthBarred m r then .inl stDenied
    else if (berthOf m (bIdx r.address)).moving then .inl stRetry else .inr (berthPlace m (berthOf m (bIdx r.address)) (bOff r.address)) := by
  have gone : (!(berthOf m (bIdx r.address)).valid || (berthOf m (bIdx r.address)).freeing ||
      decide ((berthOf m (bIdx r.address)).gen ≠ bGen r.address)) = true ↔ BerthGone m r := by
    simp [BerthGone, or_assoc]
  simp only [berthLook, found, Bool.false_eq_true, if_false, gone, gt_iff_lt]
  by_cases other : (berthOf m (bIdx r.address)).ctx ≠ r.ctx
  · simp [BerthBarred, other]
  · simp [BerthBarred, other]

end

section
variable {fx : Fixed} {op : BitVec 6} {r : Req} {m : Mach} {x : Nat × Nat}

/-- The key of a line gives its set and way back. -/
theorem berthKey_set (set : x.1 < 4096) (way : x.2 < 32) : (berthKey x.1 x.2).toNat % 4096 = x.1 ∧ (berthKey x.1 x.2).toNat / 4096 % 32 = x.2 := by
  have key : (berthKey x.1 x.2).toNat = x.2 * 4096 + x.1 := Nat.mod_eq_of_lt (by omega)
  omega

/-- A berth line that still stands and whose request's manifest lets it go, with the domains that it needs awake: a read of sectors that
are all zero needs no bank (09 R263). -/
structure LineReady (op : BitVec 6) (r : Req) (x : Nat × Nat) (m : Mach) : Prop where
  sound : sound m = true
  manifest : manifestStop m r = none
  stands : lineStands m r x.1 x.2 = true
  set : x.1 < 4096
  way : x.2 < 32
  up : (op = opBRD ∧ r.sect &&& ~~~(tagAt m x.1 x.2).z = 0 ∧ awake m [dTag (x.1 % 4)] = true) ∨ awake m [dTag (x.1 % 4), dWay m x.1 x.2] = true

theorem LineReady.doms (h : LineReady op r x m) :
    needDoms (dTag (x.1 % 4) :: (if decide ((berthAccess op r x).op = .brd) && decide (r.sect &&& ~~~(tagAt m x.1 x.2).z = 0) then []
      else [dWay m x.1 x.2])) m = (m, true) := by
  obtain ⟨read, zero, tag⟩ | both := h.up
  · have none_ : (decide ((berthAccess op r x).op = .brd) && decide (r.sect &&& ~~~(tagAt m x.1 x.2).z = 0)) = true := by
      simp [berthAccess, read, zero]
    rw [if_pos none_]
    exact needDoms_awake tag fun _ hi => hi
  · refine needDoms_awake both fun j hj => ?_
    rcases List.mem_cons.mp hj with e | e
    · simp [e]
    · split at e
      · cases e
      · simp_all

/-- What a berth access does whose line is ready. -/
theorem tryBerth_ready (h : LineReady op r x m) : tryBerth fx (berthAccess op r x) m =
    if (berthAccess op r x).op = .brd then
      if (tagAt m x.1 x.2).poison then (answer r op stPoison m, .done)
      else (finalRead r op (berthAccess op r x) (wayData m x.1 x.2) (tagAt m x.1 x.2).z false
        (sendEarly (berthAccess op r x) (wayData m x.1 x.2) (tagAt m x.1 x.2).z m), .done)
    else (answerOk r op (countR 0x044 r (writeBerthWay x.1 x.2 (berthAccess op r x).bytes (berthAccess op r x).data
      (if (berthAccess op r x).bytes = 0 then m else unmarkSource (bIdx r.address) m))), .done) := by
  obtain ⟨set, way⟩ := berthKey_set h.set h.way
  have line : (berthAccess op r x).line = berthKey x.1 x.2 := rfl
  have src : (berthAccess op r x).src = .dp op r := rfl
  have sect : (berthAccess op r x).sect = r.sect := rfl
  simp only [tryBerth, src, line, set, way, sect, scanManifest_sound fx r h.sound, h.manifest, Option.isSome_none, h.stands, h.doms,
    Bool.not_true, Bool.false_eq_true, if_false, scanBerth_sound fx _ _ _ _ _ h.sound]

/-- A read of one sector is answered at once. -/
theorem berthRead_single {d : Line} {z : BitVec 4} (one : r.sect = oneSect (r.address.extractLsb' 5 2)) :
    finalRead r opBRD (berthAccess opBRD r x) d z false (sendEarly (berthAccess opBRD r x) d z m) =
      respond r opBRD stOk (oneSect (r.address.extractLsb' 5 2)) (readInfo false z (oneSect (r.address.extractLsb' 5 2)))
        (wordsOf d (oneSect (r.address.extractLsb' 5 2))) m := by
  have early : sendEarly (berthAccess opBRD r x) d z m = m := if_pos one
  have sect : (berthAccess opBRD r x).sect = oneSect (berthAccess opBRD r x).crit := one
  simp only [early, finalRead, sect, decide_true, Bool.true_or, if_true]
  rfl

/-- Of several the critical one goes first, and the others follow. -/
theorem berthRead_split {d : Line} {z : BitVec 4} (many : r.sect ≠ oneSect (r.address.extractLsb' 5 2)) :
    finalRead r opBRD (berthAccess opBRD r x) d z false (sendEarly (berthAccess opBRD r x) d z m) =
      respond r opBRD stOk (r.sect &&& ~~~oneSect (r.address.extractLsb' 5 2))
        (readInfo false z (r.sect &&& ~~~oneSect (r.address.extractLsb' 5 2))) (wordsOf d (r.sect &&& ~~~oneSect (r.address.extractLsb' 5 2)))
        (sendResp r opBRD stOk (oneSect (r.address.extractLsb' 5 2)) true (readInfo false z (oneSect (r.address.extractLsb' 5 2)))
          (wordsOf d (oneSect (r.address.extractLsb' 5 2))) m) := by
  have early : sendEarly (berthAccess opBRD r x) d z m = sendResp r opBRD stOk (oneSect (r.address.extractLsb' 5 2)) true
      (readInfo false z (oneSect (r.address.extractLsb' 5 2))) (wordsOf d (oneSect (r.address.extractLsb' 5 2))) m := if_neg many
  have sect : ¬ (berthAccess opBRD r x).sect = oneSect (berthAccess opBRD r x).crit := many
  simp only [early, finalRead, sect, decide_false, Bool.false_or, show (berthAccess opBRD r x).again = false from rfl,
    Bool.false_eq_true, if_false]
  rfl

theorem waitsSame_berth : waitsSame m (berthAccess op r x) =
    m.cache.replay.any fun p => p.acc.line = berthKey x.1 x.2 && (p.acc.op = .brd || p.acc.op = .bwr) := by
  have kind : (berthAccess op r x).op ≠ .queue := by
    simp only [berthAccess]
    split <;> decide
  rw [waitsSame]
  simp only [if_neg kind]
  rfl

end

/-! ### Queue requests (R171 to R173) -/

/-- The access that a queue request makes of its queue. -/
def queueAccess (op : BitVec 6) (r : Req) : Access :=
  { op := .queue, src := .dp op r, line := BitVec.ofNat 28 (fld r.address 9 0), sect := 0, crit := 0, bytes := 0, data := 0
    early := false, acked := false, snooped := false, counted := true }

/-- The queue that a request names, and the berth in which it lies. -/
def reqFerry (m : Mach) (r : Req) : Ferry := ferryOf m (fld r.address 9 0)
def ferryBerth (m : Mach) (r : Req) : Berth := berthOf m (reqFerry m r).berth.toNat

/-- A queue that a request's address no longer names: freed, closing, or of another generation. -/
abbrev QueueGone (m : Mach) (r : Req) : Prop :=
  (reqFerry m r).valid = false ∨ (reqFerry m r).closing = true ∨ (reqFerry m r).gen ≠ BitVec.ofNat 8 (fld r.address 28 21)

/-- The entries that a QENQ may find taken up (R172). -/
def ferryCap (m : Mach) (r : Req) : Nat :=
  if r.subop = 1 then min r.aux.toNat (2 ^ (reqFerry m r).depth.toNat) else 2 ^ (reqFerry m r).depth.toNat

/-- Where a queue's request does not pass, the block as it is answered. -/
def queueStop (op : BitVec 6) (r : Req) (m : Mach) : Option Mach :=
  if lostObj m 2 (fld r.address 9 0) then some (answer r op stPoison m)
  else if QueueGone m r then some (answer r op stStale m)
  else if (reqFerry m r).ctx ≠ r.ctx then some (answer r op stDenied m)
  else if op = opQENQ ∧ r.plen.toNat * 8 ≠ eBytes (reqFerry m r) then some (deny r op m)
  else if op = opQENQ ∧ ferryCap m r ≤ ferryOcc (reqFerry m r) then some (respond r op stQfull 0 (BitVec.ofNat 16 (ferryOcc (reqFerry m r))) [] m)
  else if op = opQDEQ ∧ ferryOcc (reqFerry m r) = 0 then some (answer r op stQempty m)
  else none

/-- The berth offsets that an operation touches, and the domains of their lines. -/
def ferrySlots (op : BitVec 6) (m : Mach) (r : Req) : List Nat := opSlots op r (reqFerry m r)
def slotDoms (op : BitVec 6) (m : Mach) (r : Req) : List Nat := (ferrySlots op m r).flatMap fun o =>
  [dTag ((berthPlace m (ferryBerth m r) o).1 % 4), dWay m (berthPlace m (ferryBerth m r) o).1 (berthPlace m (ferryBerth m r) o).2]

/-- Set, way and offset of each slot. -/
def slotPlaces (op : BitVec 6) (m : Mach) (r : Req) : List (Nat × Nat × Nat) :=
  ((ferrySlots op m r).map fun o => (berthPlace m (ferryBerth m r) o, o)).map fun x => (x.1.1, x.1.2, x.2)

/-- The entry written at the tail, which advances. -/
def entryWritten (m : Mach) (r : Req) : Mach :=
  let f := reqFerry m r
  let o := slotOff f f.tail.toNat
  setFerry (fld r.address 9 0) { f with tail := f.tail + 1 } (unmarkSource f.berth.toNat
    (writeBerthWay (berthPlace m (ferryBerth m r) o).1 (berthPlace m (ferryBerth m r) o).2 (spanMask (o % 128) (eBytes f))
      (BitVec.ofNat 1024 (catWords r.payload * 2 ^ (8 * (o % 128)))) m))

/-- Its notify waits for the sync object, where the queue has one. -/
def notifyWaits (f : Ferry) (r : Req) (m : Mach) : Mach :=
  if f.notifyV then { m with sync := { m.sync with
    notifies := m.sync.notifies ++ [⟨BitVec.ofNat 10 (fld r.address 9 0), f.notify, f.ngen, r.scope, f.ctx, r.tc, false⟩] } }
  else m

/-- A QENQ that passes its checks. -/
def enqueued (m : Mach) (r : Req) : Mach :=
  tally ⟨opQENQ, r, false, BitVec.ofNat 16 (reqFerry m r).tail.toNat, []⟩ (countR 0x052 r (notifyWaits (reqFerry m r) r (entryWritten m r)))

theorem tally_unanswered (x : CoalWait) (m : Mach) (unsaid : x.said = false) : tally x m =
    if coalRoom m x.r then respond x.r x.op stOk 0 x.info x.payload (arrival x.r m)
    else { m with sync := { m.sync with coalWait := m.sync.coalWait ++ [x] } } := by
  rw [tally, unsaid, if_neg Bool.false_ne_true]

/-- A QDEQ that passes its checks: a poisoned entry is left where it is (log 15). -/
def dequeued (m : Mach) (r : Req) : Mach :=
  let f := reqFerry m r
  let slots := ferrySlots opQDEQ m r
  if slots.any fun o => (tagAt m (berthPlace m (ferryBerth m r) o).1 (berthPlace m (ferryBerth m r) o).2).poison then answer r opQDEQ stPoison m
  else respond r opQDEQ stOk 0 (BitVec.ofNat 16 f.head.toNat)
    (wordsFrom (readSlots m (ferryBerth m r) (eBytes f) slots) (slots.length * eBytes f / 8))
    (countR 0x052 r (setFerry (fld r.address 9 0) { f with head := f.head + BitVec.ofNat 17 slots.length } m))

section
variable {m : Mach} {r : Req}

theorem dequeued_poisoned (bad : ((ferrySlots opQDEQ m r).any fun o =>
    (tagAt m (berthPlace m (ferryBerth m r) o).1 (berthPlace m (ferryBerth m r) o).2).poison) = true) :
    dequeued m r = answer r opQDEQ stPoison m := if_pos bad

theorem dequeued_sound (good : ((ferrySlots opQDEQ m r).any fun o =>
    (tagAt m (berthPlace m (ferryBerth m r) o).1 (berthPlace m (ferryBerth m r) o).2).poison) = false) :
    dequeued m r = respond r opQDEQ stOk 0 (BitVec.ofNat 16 (reqFerry m r).head.toNat)
      (wordsFrom (readSlots m (ferryBerth m r) (eBytes (reqFerry m r)) (ferrySlots opQDEQ m r))
        ((ferrySlots opQDEQ m r).length * eBytes (reqFerry m r) / 8))
      (countR 0x052 r (setFerry (fld r.address 9 0)
        { reqFerry m r with head := (reqFerry m r).head + BitVec.ofNat 17 (ferrySlots opQDEQ m r).length } m)) := by
  rw [dequeued, good, if_neg Bool.false_ne_true]

end

/-- The block as a queue's request leaves it, once its slots' domains are awake. -/
def queueServed (op : BitVec 6) (r : Req) (m : Mach) : Mach :=
  (queueStop op r m).getD (if op = opQENQ then enqueued m r else dequeued m r)

section
variable {fx : Fixed} {op : BitVec 6} {r : Req} {m : Mach}

/-- One check of a list of them: it answers, or those behind it decide. -/
theorem ite_getD_done {p q : Prop} [Decidable p] [Decidable q] {x w : Mach} {t : Option Mach} {u : Mach × Got} (h : q ↔ p)
    (next : ¬ p → u = (t.getD w, .done)) : (if q then (x, Got.done) else u) = ((if p then some x else t).getD w, Got.done) := by
  by_cases hp : p
  · rw [if_pos (h.mpr hp), if_pos hp, Option.getD_some]
  · rw [if_neg (mt h.mp hp), if_neg hp, next hp]

theorem decide_and_iff (p q : Prop) [Decidable p] [Decidable q] : (decide p && decide q) = true ↔ p ∧ q := by
  rw [Bool.and_eq_true, decide_eq_true_iff, decide_eq_true_iff]

/-- What the queue unit does with a request of a queue that is not closing, or is lost. -/
theorem tryFerry_serves (unit : op = opQENQ ∨ op = opQDEQ) (ok : sound m = true) (manifest : manifestStop m r = none)
    (live : (reqFerry m r).closing = false ∨ lostObj m 2 (fld r.address 9 0) = true)
    (up : queueStop op r m = none → awake m (slotDoms op m r) = true) :
    tryFerry fx (queueAccess op r) m = (queueServed op r m, .done) := by
  have pass : ¬ (manifestStop m r).isSome = true := by simp [manifest]
  rw [tryFerry, queueServed]
  dsimp -zeta only [queueAccess]
  rw [scanManifest_sound fx r ok]
  rw [queueStop] at up ⊢
  refine (if_neg pass).trans ?_
  refine ite_getD_done Iff.rfl fun lost => ?_
  have live : (reqFerry m r).closing = false := live.resolve_right lost
  refine ite_getD_done (q := (!(reqFerry m r).valid || decide ((reqFerry m r).gen ≠ BitVec.ofNat 8 (fld r.address 28 21) +
      (if (reqFerry m r).closing then 1 else 0))) = true) (by simp [QueueGone, live]) fun gone => ?_
  refine ite_getD_done Iff.rfl fun other => ?_
  refine ite_getD_done (decide_and_iff ..) fun size => ?_
  refine ite_getD_done (decide_and_iff ..) fun full => ?_
  refine ite_getD_done (decide_and_iff ..) fun empty => ?_
  have up := up (by rw [if_neg lost, if_neg gone, if_neg other, if_neg size, if_neg full, if_neg empty])
  have doms : needDoms ((slotPlaces op m r).flatMap fun p => [dTag (p.1 % 4), dWay m p.1 p.2.1]).dedup m = (m, true) :=
    needDoms_awake up fun i hi => by simpa [slotPlaces, slotDoms, List.flatMap_map] using List.mem_dedup.mp hi
  have poisoned : ((slotPlaces op m r).any fun p => (tagAt m p.1 p.2.1).poison) = (ferrySlots op m r).any fun o =>
      (tagAt m (berthPlace m (ferryBerth m r) o).1 (berthPlace m (ferryBerth m r) o).2).poison := by
    simp [slotPlaces, Function.comp_def]
  simp only [slotPlaces, ferrySlots, ferryBerth, reqFerry] at doms poisoned
  simp only [doms, Bool.not_true, Bool.false_eq_true, if_false]
  rw [foldl_keeps _ (m, false) _ fun p _ => by simp only [scanBerth_sound fx _ _ _ _ _ ok, Bool.or_false, Bool.false_eq_true, if_false]]
  simp only [Bool.false_eq_true, if_false, poisoned]
  rcases unit with rfl | rfl
  · rfl
  · have dequeue : opQDEQ ≠ opQENQ := by decide
    rw [Option.getD_none, if_neg dequeue, if_neg dequeue, dequeued]
    exact (apply_ite (fun n => (n, Got.done)) ..).symm

/-- A queue's answer, where a check has one. -/
theorem resting_getD {p : Prop} [Decidable p] {x w : Mach} {t : Option Mach} (stop : resting x = true) (next : resting (t.getD w) = true) :
    resting ((if p then some x else t).getD w) = true := by
  split
  · exact stop
  · exact next

theorem resting_setFerry {k : Nat} {f : Ferry} (h : resting m = true) : resting (setFerry k f m) = true := h

theorem resting_entryWritten (h : resting m = true) : resting (entryWritten m r) = true := by
  rw [entryWritten]
  exact resting_setFerry (resting_unmark (resting_writeBerthWay h))

theorem resting_notifyWaits {f : Ferry} (h : resting m = true) : resting (notifyWaits f r m) = true :=
  resting_ite h h

theorem resting_enqueued (h : resting m = true) : resting (enqueued m r) = true :=
  resting_tally (resting_countR (resting_notifyWaits (resting_entryWritten h)))

theorem resting_dequeued (h : resting m = true) : resting (dequeued m r) = true :=
  resting_ite (resting_answer h) (resting_respond (resting_countR h))

theorem resting_queueServed (h : resting m = true) : resting (queueServed op r m) = true := by
  rw [queueServed, queueStop]
  refine resting_getD (resting_answer h) (resting_getD (resting_answer h) (resting_getD (resting_answer h) (resting_getD (resting_deny h)
    (resting_getD (resting_respond h) (resting_getD (resting_answer h) ?_)))))
  exact resting_ite (resting_enqueued h) (resting_dequeued h)

/-- A queue that is closing answers as its checks do, unless its record is lost. -/
theorem queueServed_closing (closing : (reqFerry m r).closing = true) (found : lostObj m 2 (fld r.address 9 0) = false) :
    queueServed op r m = answer r op stStale m := by
  rw [queueServed, queueStop, found, if_neg Bool.false_ne_true, if_pos (.inr (.inl closing)), Option.getD_some]

theorem waitsSame_queue : waitsSame m (queueAccess op r) =
    m.cache.replay.any fun p => p.acc.line = BitVec.ofNat 28 (fld r.address 9 0) && p.acc.op = .queue := rfl

variable {s : State} {i : Instr}

/-- What is left of a queue request that passes the first checks, with no earlier one of its queue waiting. -/
theorem Passes.serveFerry_eq (b : Passes s i op r m) (unit : op = opQENQ ∨ op = opQDEQ) (ok : sound m = true)
    (first : waitsSame m (queueAccess op r) = false) (up : queueStop op r m = none → awake m (slotDoms op m r) = true) :
    serveDp s.fx op r none m = (queueServed op r m, true) := by
  have pass := b.passes
  rw [gateFor_ferry unit] at pass
  rw [serveDp_ferry unit, serveFerry, pass]
  simp only [scanManifest_sound s.fx r ok, b.manifest]
  by_cases closing : ((reqFerry m r).closing && !lostObj m 2 (fld r.address 9 0)) = true
  · obtain ⟨shut, found⟩ := Bool.and_eq_true_iff.mp closing
    exact (if_pos closing).trans (by rw [queueServed_closing shut (Bool.not_eq_true' _ ▸ found)])
  · have live : (reqFerry m r).closing = false ∨ lostObj m 2 (fld r.address 9 0) = true := by
      rwa [Bool.and_eq_true, Bool.not_eq_true', not_and_or, Bool.not_eq_true, Bool.not_eq_false] at closing
    exact (if_neg closing).trans (submitBerth_done first (tryFerry_serves unit ok b.manifest live up))

theorem Passes.queueEnds (b : Passes s i op r m) (unit : op = opQENQ ∨ op = opQDEQ) (ok : sound m = true)
    (first : waitsSame m (queueAccess op r) = false) (up : queueStop op r m = none → awake m (slotDoms op m r) = true) :
    exec i s = .next (s.put (queueServed op r m)) :=
  b.toLands.put (b.serveFerry_eq unit ok first up) (resting_queueServed b.resting)

/-- A request that a check of the queue stops. -/
theorem Passes.queueStopped (b : Passes s i op r m) (unit : op = opQENQ ∨ op = opQDEQ) (ok : sound m = true)
    (first : waitsSame m (queueAccess op r) = false) {t : Mach} (stop : queueStop op r m = some t) : exec i s = .next (s.put t) := by
  have go := b.queueEnds unit ok first fun none_ => absurd (stop.symm.trans none_) (Option.some_ne_none t)
  rwa [queueServed, stop, Option.getD_some] at go

/-- One that all of them pass. -/
theorem Passes.queuePassed (b : Passes s i op r m) (unit : op = opQENQ ∨ op = opQDEQ) (ok : sound m = true)
    (first : waitsSame m (queueAccess op r) = false) (pass : queueStop op r m = none) (up : awake m (slotDoms op m r) = true) :
    exec i s = .next (s.put (if op = opQENQ then enqueued m r else dequeued m r)) := by
  have go := b.queueEnds unit ok first fun _ => up
  rwa [queueServed, pass, Option.getD_none] at go

/-- The checks behind those of the queue's record. -/
theorem queueStop_own (found : lostObj m 2 (fld r.address 9 0) = false) (live : ¬ QueueGone m r) (own : (reqFerry m r).ctx = r.ctx) :
    queueStop op r m =
      if op = opQENQ ∧ r.plen.toNat * 8 ≠ eBytes (reqFerry m r) then some (deny r op m)
      else if op = opQENQ ∧ ferryCap m r ≤ ferryOcc (reqFerry m r) then some (respond r op stQfull 0 (BitVec.ofNat 16 (ferryOcc (reqFerry m r))) [] m)
      else if op = opQDEQ ∧ ferryOcc (reqFerry m r) = 0 then some (answer r op stQempty m)
      else none := by
  rw [queueStop, found, if_neg Bool.false_ne_true, if_neg live, if_neg (not_not_intro own)]

end

/-! ### The obligation -/

section
variable {s : State} {i : Instr} {op : BitVec 6} {r : Req} {m : Mach}

/-- A BRD or a BWR whose line is ready, with no earlier request for it waiting. -/
theorem Passes.berthReady (b : Passes s i op r m) (unit : op = opBRD ∨ op = opBWR) {x : Nat × Nat} (look : berthLook m r = .inr x)
    (ready : LineReady op r x m) (first : waitsSame m (berthAccess op r x) = false) :
    (op = opBRD → (tagAt m x.1 x.2).poison = true → exec i s = .next (s.put (answer r op stPoison m))) ∧
    (op = opBRD → (tagAt m x.1 x.2).poison = false → ∀ n, finalRead r op (berthAccess op r x) (wayData m x.1 x.2) (tagAt m x.1 x.2).z false
      (sendEarly (berthAccess op r x) (wayData m x.1 x.2) (tagAt m x.1 x.2).z m) = n → resting n = true → exec i s = .next (s.put n)) ∧
    (op = opBWR → exec i s = .next (s.put (answerOk r op (countR 0x044 r (writeBerthWay x.1 x.2 (berthAccess op r x).bytes (placeSect r.payload r.sect)
      (if (berthAccess op r x).bytes = 0 then m else unmarkSource (bIdx r.address) m)))))) := by
  have served := tryBerth_ready (fx := s.fx) ready
  refine ⟨?poisoned, ?read, ?write⟩
  case poisoned =>
    rintro rfl bad
    rw [if_pos (show (berthAccess opBRD r x).op = .brd from rfl), if_pos bad] at served
    exact b.berthServed unit ready.sound look first served (resting_answer b.resting)
  case read =>
    rintro rfl good n rfl rest
    rw [if_pos (show (berthAccess opBRD r x).op = .brd from rfl), good, if_neg Bool.false_ne_true] at served
    exact b.berthServed unit ready.sound look first served rest
  case write =>
    rintro rfl
    have write : (berthAccess opBWR r x).op = .bwr := rfl
    rw [write, if_neg (show AccOp.bwr ≠ .brd by decide)] at served
    exact b.berthServed unit ready.sound look first served
      (resting_tally (resting_countR (resting_writeBerthWay (resting_ite b.resting (resting_unmark b.resting)))))

end

/-- Settles O39: the berth requests by what their translation finds, then the queue requests by the checks of their queue. -/
theorem berthAndQueueRequests : Obligations.BerthAndQueueRequests := by
  intro s r m ok j bb crit q f qb done
  refine ⟨fun row op kind b => ?berth, fun row op kind b first => ?queue⟩
  case berth =>
    intro ends gone beyond
    have unit : op = opBRD ∨ op = opBWR := kind.imp And.right And.right
    refine ⟨fun lost => ?lost, fun found gone => ?gone, fun found live bar => ?barred, fun found live open_ moving => ?moving,
      fun found live open_ still => ?line⟩
    case lost => exact b.berthStopped unit ok (berthLook_lost lost)
    case gone => exact b.berthStopped unit ok ((berthLook_found found).trans (if_pos gone))
    case barred => exact b.berthStopped unit ok (by rw [berthLook_found found, if_neg live]; exact if_pos bar)
    case moving => exact b.berthStopped unit ok (by rw [berthLook_found found, if_neg live, if_neg open_]; exact if_pos moving)
    case line =>
      intro x t d c z bytes set way up first
      have look : berthLook m r = .inr x := by
        rw [berthLook_found found, if_neg live, if_neg open_]
        exact if_neg (Bool.not_eq_true _ ▸ still)
      have stands : lineStands m r x.1 x.2 = true := by
        have inside : bOff r.address / 4096 ≤ bb.size.toNat := not_lt.mp fun h => open_ (.inr h)
        simp only [lineStands, Bool.and_eq_true, decide_eq_true_eq]
        exact ⟨inside, rfl⟩
      obtain ⟨poisoned, read, write⟩ := b.berthReady unit look ⟨ok, b.manifest, stands, set, way, up⟩ (waitsSame_berth.trans first)
      refine ⟨poisoned, fun brd good one => ?single, fun brd good many => ?split, fun bwr => ?write⟩
      case single =>
        refine read brd good _ ?_ (resting_respond b.resting)
        subst brd
        exact berthRead_single one
      case split =>
        refine read brd good _ ?_ (resting_respond (resting_sendResp b.resting))
        subst brd
        exact berthRead_split many
      case write =>
        have go := write bwr
        subst bwr
        exact go
  case queue =>
    intro ends gone occ cap slots place
    have unit : op = opQENQ ∨ op = opQDEQ := kind.imp And.right And.right
    have first : waitsSame m (queueAccess op r) = false := first
    have stopped {t : Mach} (stop : queueStop op r m = some t) : ends t := b.queueStopped unit ok first stop
    refine ⟨fun lost => ?lost, fun found gone => ?gone, fun found live other => ?other, fun found live own => ?own⟩
    case lost => exact stopped (if_pos lost)
    case gone => exact stopped (by rw [queueStop, found, if_neg Bool.false_ne_true]; exact if_pos gone)
    case other =>
      have live : ¬ QueueGone m r := live
      exact stopped (by rw [queueStop, found, if_neg Bool.false_ne_true, if_neg live]; exact if_pos other)
    case own =>
      have checks := queueStop_own (op := op) found live own
      have apart : ∀ x : BitVec 6, x = opQENQ → x ≠ opQDEQ := by decide
      have dequeues (deq : op = opQDEQ) (some_ : occ ≠ 0) (up : awake m (slotDoms op m r) = true) : ends (dequeued m r) := by
        have none_ : op ≠ opQENQ := fun enq => apart op enq deq
        have pass : queueStop op r m = none := by
          rw [checks, if_neg fun h => none_ h.1, if_neg fun h => none_ h.1, if_neg fun h => some_ h.2]
        have go := b.queuePassed unit ok first pass up
        rwa [if_neg none_] at go
      refine ⟨fun enq size => ?size, fun enq size full => ?full, fun deq empty => ?empty, fun up =>
        ⟨fun enq size room => ?enqueue, fun deq some_ bad => ?poisoned, fun deq some_ good => ?dequeue⟩⟩
      case size => exact stopped (checks.trans (if_pos ⟨enq, size⟩))
      case full => exact stopped (by rw [checks, if_neg fun h => h.2 size]; exact if_pos ⟨enq, full⟩)
      case empty =>
        have none_ : op ≠ opQENQ := fun enq => apart op enq deq
        exact stopped (by rw [checks, if_neg fun h => none_ h.1, if_neg fun h => none_ h.1]; exact if_pos ⟨deq, empty⟩)
      case enqueue =>
        have pass : queueStop op r m = none := by
          rw [checks, if_neg fun h => h.2 size, if_neg fun h => absurd h.2 (not_le.mpr room), if_neg fun h => apart op enq h.1]
        have go := b.queuePassed unit ok first pass up
        rw [if_pos enq] at go
        subst enq
        intro o u v
        have written : u = entryWritten m r := rfl
        have notified : v = notifyWaits (reqFerry m r) r u := rfl
        rw [enqueued, ← written, ← notified, tally_unanswered _ _ rfl] at go
        exact go
      case poisoned =>
        subst deq
        have go := dequeues rfl some_ up
        rw [dequeued_poisoned (m := m) (r := r) bad] at go
        exact go
      case dequeue =>
        subst deq
        have go := dequeues rfl some_ up
        rw [dequeued_sound (m := m) (r := r) good] at go
        exact go

end Sys2Proof.Machine
end

section
/-! SUPPORT. Atomics, line reductions and scatter-reduces that meet their line (06_atomics_and_sync.md R178 to R180, R196;
08_towlines_and_line_reductions.md R258; 09_sparse_data.md R283). -/

namespace Sys2Proof.Machine

/-! ### A request performed on its way -/

/-- The opcodes that combine an operand with what a line holds. -/
def redOps : List (BitVec 6) := [opATOM, opATOMRET, opLRED, opSCATTER]

theorem redOps_access {op : BitVec 6} (red : op ∈ redOps) (r : Req) (off : BitVec 35) (m : Mach) : op ∈ memOps ∧
    isRead (memAccess op r off).op = false ∧ (memAccess op r off).op ≠ .writeThru ∧ writesNothing (placed m (memAccess op r off)) = false := by
  simp only [redOps, List.mem_cons, List.not_mem_nil, or_false] at red
  rcases red with rfl | rfl | rfl | rfl <;> exact ⟨by decide, rfl, (fun h => nomatch h), rfl⟩

/-- One that meets its line does there what its access does. -/
theorem Passes.reduces {s : State} {i : Instr} {op : BitVec 6} {r : Req} {m t : Mach} {off : BitVec 35} {way : Nat} (b : Passes s i op r m)
    (red : op ∈ redOps) (home : memHome s.fx m r.address = .at off) (scatter : op = opSCATTER → scatCheck m r = none)
    (meets : Meets s.fx (placed m (memAccess op r off)) way m)
    (e : perform s.fx (placed m (memAccess op r off)) (setOf (memAccess op r off).line) way false m = t) (rest : resting t = true) :
    exec i s = .next (s.put t) := by
  obtain ⟨mem, noRead, back, writes⟩ := redOps_access red r off m
  have hit : noteHit (placed m (memAccess op r off)) m = m := by
    have noRead' : isRead (placed m (memAccess op r off)).op = false := noRead
    rw [noteHit, show (placed m (memAccess op r off)).src = _ from memAccess_src op r off]
    simp [noRead']
  have go := b.performed mem home scatter meets (fun h => absurd h back) writes (t := t) (by rw [hit, e])
  rwa [noRead, Bool.false_and, if_neg Bool.false_ne_true, after_resting rest] at go

theorem memAccess_line (op : BitVec 6) (r : Req) (off : BitVec 35) : (memAccess op r off).line = lineOfOff off := by
  simp only [memAccess]
  split_ifs <;> rfl

/-- On a poisoned line every one but ATOM is answered POISON, and writes nothing. -/
theorem Passes.reducesPoisoned {s : State} {i : Instr} {op : BitVec 6} {r : Req} {m : Mach} {off : BitVec 35} {way : Nat}
    (b : Passes s i op r m) (told : op = opATOMRET ∨ op = opLRED ∨ op = opSCATTER) (home : memHome s.fx m r.address = .at off)
    (scatter : op = opSCATTER → scatCheck m r = none) (meets : Meets s.fx (placed m (memAccess op r off)) way m)
    (bad : (tagAt m (setOf (lineOfOff off)) way).poison = true) : exec i s = .next (s.put (answer r op stPoison m)) := by
  rcases told with rfl | rfl | rfl <;> exact b.reduces (by decide) home scatter meets (if_pos bad) (resting_answer b.resting)

/-! ### Atomics (06 R178 to R180) -/

/-- The operand of an atomic as its way holds it. -/
def atomOld (set way : Nat) (r : Req) (m : Mach) : Nat :=
  (wayData m set way).toNat / 2 ^ (8 * fld r.address 6 0) % 2 ^ (8 * atomSize (r.aux.toNat % 16))

/-- The result of an atomic written over its operand, and counted. -/
def atomDone (set way : Nat) (r : Req) (m : Mach) : Mach :=
  countR 0x045 r (writeWay set way false (spanMask (fld r.address 6 0) (atomSize (r.aux.toNat % 16)))
    (BitVec.ofNat 1024 ((atomResult r (atomOld set way r m)).1 * 2 ^ (8 * fld r.address 6 0))) r.tc (touch set way m))

/-- What an ATOM_RET answers of its operand. -/
def atomWords (set way : Nat) (r : Req) (m : Mach) : List W64 :=
  if atomSize (r.aux.toNat % 16) = 16 then [BitVec.ofNat 64 (atomOld set way r m), BitVec.ofNat 64 (atomOld set way r m / 2 ^ 64)]
  else [BitVec.ofNat 64 (atomOld set way r m)]

section
variable {fx : Fixed} {set way : Nat} {r : Req} {off : BitVec 35} {m k : Mach}

theorem resting_atomDone (h : resting m = true) : resting (atomDone set way r m) = true :=
  resting_countR (resting_writeWay (resting_touch h))

variable (valid : (tagAt m set way).v ≠ 0)
include valid

/-- A touch leaves the operand as it is. -/
theorem atomOld_touch : atomOld set way r (touch set way m) = atomOld set way r m := by
  rw [atomOld, wayData_touch valid]
  rfl

theorem atomWay_silent (op : BitVec 6) :
    atomWay set way false false op r (touch set way m) = tally ⟨op, r, false, 0, []⟩ (atomDone set way r m) := by
  rw [atomDone, ← atomOld_touch valid]
  rfl

theorem atomWay_returns (op : BitVec 6) : atomWay set way true false op r (touch set way m) =
    tally ⟨op, r, false, BitVec.ofNat 16 (b2n (atomResult r (atomOld set way r m)).2), atomWords set way r m⟩ (atomDone set way r m) := by
  rw [atomDone, atomWords, ← atomOld_touch valid]
  rfl

theorem perform_atom : perform fx (placed k (memAccess opATOM r off)) set way false m =
    tally ⟨opATOM, r, false, 0, []⟩ (atomDone set way r m) := atomWay_silent valid opATOM

theorem perform_atomRet (good : (tagAt m set way).poison = false) : perform fx (placed k (memAccess opATOMRET r off)) set way false m =
    tally ⟨opATOMRET, r, false, BitVec.ofNat 16 (b2n (atomResult r (atomOld set way r m)).2), atomWords set way r m⟩
      (atomDone set way r m) := by
  rw [← atomWay_returns valid opATOMRET]
  exact if_neg (ne_true_of_eq_false good)

end

/-! ### Line reductions and scatter-reduces (08 R258, 09 R283) -/

/-- The elements that an LRED leaves in its named sectors, and those that a SCATTER_RED leaves. -/
def lredLine (r : Req) (d : Line) : Line :=
  redLine (lredElem r.subop.toNat (r.aux.toNat / 16 % 16) (r.aux.toNat % 16)) (if r.aux.toNat / 16 % 16 = 2 then 8 else 4)
    (inBytes (r.aux.toNat % 16)) r.sect r.payload d
def scatLine (sc : Scatter) (r : Req) (d : Line) : Line :=
  redLine (scatElem sc.op.toNat sc.scale r.subop.toNat) 4 (inBytes r.subop.toNat) r.sect r.payload d

/-- The named sectors of a way replaced by their combined elements. -/
def sectsWritten (set way : Nat) (r : Req) (e : Line) (m : Mach) : Mach :=
  writeWay set way false (sectMask r.sect) e r.tc (touch set way m)

/-- A SCATTER_RED's elements written, and the request counted in its descriptor and in the counters. -/
def scatDone (set way : Nat) (r : Req) (m : Mach) : Mach :=
  let j := r.aux.toNat % 256
  countR 0x046 r (setScat j { scatOf m j with applied := satInc (scatOf m j).applied }
    (sectsWritten set way r (scatLine (scatOf m j) r (wayData m set way)) m))

section
variable {fx : Fixed} {set way : Nat} {r : Req} {off : BitVec 35} {m k : Mach}

theorem resting_sectsWritten {e : Line} (h : resting m = true) : resting (sectsWritten set way r e m) = true :=
  resting_writeWay (resting_touch h)

theorem perform_lred (good : (tagAt m set way).poison = false) : perform fx (placed k (memAccess opLRED r off)) set way false m =
    tally ⟨opLRED, r, false, 0, []⟩ (countR 0x046 r (sectsWritten set way r (lredLine r (wayData m set way)) m)) :=
  if_neg (ne_true_of_eq_false good)

theorem perform_scatter (good : (tagAt m set way).poison = false) : perform fx (placed k (memAccess opSCATTER r off)) set way false m =
    tally ⟨opSCATTER, r, false, 0, []⟩ (scatDone set way r m) :=
  if_neg (ne_true_of_eq_false good)

end

/-! ### The result of an atomic as arithmetic (06 R178, R179) -/

/-- A SUBOP below 9 is an integer operation of the type's width. -/
theorem atomResult_int {r : Req} {k : Nat} (sub : r.subop.toNat = k) (int : k < 9) (old : Nat) :
    atomResult r old = (intOp k (8 * atomSize (r.aux.toNat % 16)) old (atomArgs r).1, false) := by
  have notAdd : r.subop ≠ 10 := fun e => by rw [e] at sub; exact absurd int (by rw [← sub]; decide)
  have notCas : r.subop ≠ 9 := fun e => by rw [e] at sub; exact absurd int (by rw [← sub]; decide)
  simp only [atomResult, if_neg notAdd, if_neg notCas, sub]

theorem atomResult_fadd {r : Req} (sub : r.subop.toNat = 10) (old : Nat) :
    atomResult r old = (fadd (atomFmt (r.aux.toNat % 16)) old (atomArgs r).1, false) := by
  have add : r.subop = 10 := BitVec.eq_of_toNat_eq sub
  simp only [atomResult, if_pos add]

theorem atomResult_cas {r : Req} (sub : r.subop.toNat = 9) (old : Nat) :
    atomResult r old = if old = (atomArgs r).1 then ((atomArgs r).2, true) else (old, false) := by
  have cas : r.subop = 9 := BitVec.eq_of_toNat_eq sub
  simp only [atomResult, cas, if_true, show (9 : BitVec 4) ≠ 10 by decide, if_false]

theorem intOp_umin (w s a : Nat) : intOp 3 w s a = min a s := by
  show (if a < s then a else s) = min a s
  split <;> omega

theorem intOp_umax (w s a : Nat) : intOp 4 w s a = max a s := by
  show (if s < a then a else s) = max a s
  split <;> omega

/-! ### What a write of a way leaves (04 R119) -/

theorem clearWords_frame (set way : Nat) (x : BitVec 4) (m : Mach) :
    ∃ errs, clearWords set way x m = { m with cache := { m.cache with errs := errs } } := by
  rw [clearWords]
  split
  · exact ⟨m.cache.errs, rfl⟩
  · exact ⟨_, rfl⟩

/-- The tag of the way that is written, and the bytes that its bank then holds. -/
theorem writeWay_frame (set way : Nat) (whole : Bool) (b : BitVec 128) (d : Line) (cls : BitVec 4) (m : Mach) : ∃ t k errs ws,
    t.v = (tagAt m set way).v ||| touchedSect b ∧ writeWay set way whole b d cls m = { m with cache := { m.cache with
      tags := tset .free m.cache.tags (wayKey set way) t, data := tset 0 m.cache.data (wayKey set way) k, errs := errs, writes := ws } } := by
  unfold writeWay
  extract_lets t s z new full t' keep
  obtain ⟨errs, e⟩ := clearWords_frame set way s (setTag set way t' (setData set way keep m))
  rw [e]
  exact ⟨t', keep, errs, _, rfl, rfl⟩

/-- A write of a way that holds a line leaves every other way as it was. -/
theorem writeWay_others {set way set' way' : Nat} {whole : Bool} {b : BitVec 128} {d : Line} {cls : BitVec 4} {m : Mach}
    (other : wayKey set' way' ≠ wayKey set way) (valid : (tagAt m set way).v ≠ 0) (wf : twf 0 m.cache.data = true) :
    tagAt (writeWay set way whole b d cls m) set' way' = tagAt m set' way' ∧
    wayData (writeWay set way whole b d cls m) set' way' = wayData m set' way' := by
  obtain ⟨t, k, errs, ws, v, e⟩ := writeWay_frame set way whole b d cls m
  have held : t ≠ .free := by
    rintro rfl
    have none_ : (tagAt m set way).v ||| touchedSect b = 0 := v.symm
    exact valid (BitVec.or_eq_zero_iff.mp none_).1
  have tag : tagAt (writeWay set way whole b d cls m) set' way' = tagAt m set' way' := by
    rw [e]
    exact tget_tset_other _ _ _ _ _ held other
  have raw : rawData (writeWay set way whole b d cls m) set' way' = rawData m set' way' := by
    rw [e]
    exact tget_tset_others wf _ _ _ other
  exact ⟨tag, by rw [wayData, wayData, tag, raw]⟩

/-! ### The obligation -/

/-- Settles O38: the four requests on the way that they meet, the arithmetic of an atomic by its SUBOP, and the other ways. -/
theorem memoryAtomics : Obligations.MemoryAtomics := by
  refine ⟨fun s r m off way home => ?requests, fun r old => ?arithmetic, fun set way set' way' whole b d cls m => writeWay_others⟩
  case requests =>
    intro here done set t d n at_ k old x u
    have valid : ∀ {op}, here op → (tagAt m set way).v ≠ 0 := fun {op} h => by
      have := hitWay_valid h.hit
      rwa [show (placed m (memAccess op r off)).line = lineOfOff off from memAccess_line op r off] at this
    have served : ∀ (op : BitVec 6) (info : BitVec 16) (ws : List W64) (n : Mach), tally ⟨op, r, false, info, ws⟩ n = done op info ws n :=
      fun op info ws n => tally_unanswered _ n rfl
    refine ⟨fun b meets => ?atom, fun b meets => ⟨fun bad => ?retPoison, fun good => ?atomRet⟩, fun b meets => ?lred, fun b meets check => ?scatter⟩
    case atom =>
      rw [← served]
      exact b.reduces (by decide) home (fun h => absurd h (by decide)) meets (perform_atom (valid meets))
        (resting_tally (resting_atomDone b.resting))
    case retPoison => exact b.reducesPoisoned (.inl rfl) home (fun h => absurd h (by decide)) meets bad
    case atomRet =>
      rw [← served]
      exact b.reduces (by decide) home (fun h => absurd h (by decide)) meets (perform_atomRet (valid meets) good)
        (resting_tally (resting_atomDone b.resting))
    case lred =>
      intro tgt inc e
      refine ⟨b.reducesPoisoned (.inr (.inl rfl)) home (fun h => absurd h (by decide)) meets, fun good => ?_⟩
      rw [← served]
      exact b.reduces (by decide) home (fun h => absurd h (by decide)) meets (perform_lred good)
        (resting_tally (resting_countR (resting_sectsWritten b.resting)))
    case scatter =>
      intro j sc e
      refine ⟨b.reducesPoisoned (.inr (.inr rfl)) home (fun _ => check) meets, fun good => ?_⟩
      rw [← served]
      exact b.reduces (by decide) home (fun _ => check) meets (perform_scatter good)
        (resting_tally (resting_countR (resting_setScat (resting_sectsWritten b.resting))))
  case arithmetic =>
    intro w x gives
    have int : ∀ (k : Nat), k < 9 → gives k (intOp k w old x) := fun k int sub => atomResult_int sub int old
    refine ⟨int 0 (by decide), int 1 (by decide), int 2 (by decide), ?umin, ?umax, int 5 (by decide), int 6 (by decide), int 7 (by decide),
      int 8 (by decide), fun sub => atomResult_fadd sub old, fun sub => atomResult_cas sub old⟩
    case umin =>
      have := int 3 (by decide)
      rwa [intOp_umin] at this
    case umax =>
      have := int 4 (by decide)
      rwa [intOp_umax] at this

end Sys2Proof.Machine
end

section
/-! SUPPORT. The commands on sync objects and the jam detector (06_atomics_and_sync.md R184 to R189, R204; 16_recovery.md R420 to R424). -/

namespace Sys2Proof.Machine

/-! ### SYNC_CREATE (R187) -/

/-- A SYNC_CREATE that asks for a record that Table SYNC-3 does not have. -/
abbrev SyncBad (c : Rec) : Prop :=
  fld c.pkt.p1 63 62 = 3 ∨ (bit c.pkt.p1 61 = true ∧ fld c.pkt.p1 63 62 ≠ 2) ∨ (fld c.pkt.p1 63 62 = 1 ∧ bit c.pkt.p1 60 = false) ∨
    (bit c.pkt.p1 60 = false ∧ fld c.pkt.p1 59 44 ≠ 0)

theorem syncBad_iff (c : Rec) : (decide (fld c.pkt.p1 63 62 = 3) || (bit c.pkt.p1 61 && decide (fld c.pkt.p1 63 62 ≠ 2)) ||
    (decide (fld c.pkt.p1 63 62 = 1) && !bit c.pkt.p1 60) || (!bit c.pkt.p1 60 && decide (fld c.pkt.p1 59 44 ≠ 0))) = true ↔ SyncBad c := by
  simp only [SyncBad, Bool.or_eq_true, Bool.and_eq_true, decide_eq_true_eq, Bool.not_eq_true', or_assoc]

/-- The index that a SYNC_CREATE takes: the requested one, if it is free, or the next free one. -/
def createIndex (c : Rec) (m : Mach) : Option Nat :=
  if bit c.pkt.p1 43 then (if fqFree m.sync.objQ (fld c.pkt.p1 42 29) then some (fld c.pkt.p1 42 29) else none) else fqPeek 16384 m.sync.objQ

/-- The block with the new record written at an index (06 Table SYNC-3). -/
def syncCreated (c : Rec) (k : Nat) (m : Mach) : Mach :=
  let j : BitVec 14 := BitVec.ofNat 14 k
  setSync j
    { value := c.pkt.p0, valid := true, err := false, shared := false, orphan := false, kind := BitVec.ofNat 2 (fld c.pkt.p1 63 62)
      unit := bit c.pkt.p1 61, sigv := bit c.pkt.p1 60, sigq := BitVec.ofNat 16 (fld c.pkt.p1 59 44), errcode := 0
      owner := cCtx c, ogen := cGen c, gen := (syncObj m j).gen }
    (freshSync j { m with sync := { m.sync with objQ := if bit c.pkt.p1 43 then fqTake k m.sync.objQ else fqPop 16384 m.sync.objQ } })

section
variable {fx : Fixed} {c : Rec} {m : Mach}

theorem cmdSyncCreate_abroad (no : m.regs.lv = false) : cmdSyncCreate fx c m = complete fx c csMishomed [] m := by
  rw [cmdSyncCreate]
  exact if_pos (by rw [no]; rfl)

theorem resting_syncCreated {k : Nat} (h : resting m = true) : resting (syncCreated c k m) = true := resting_setSync (by exact h) rfl

variable (home : m.regs.lv = true)
include home

theorem cmdSyncCreate_bad (bad : SyncBad c) : cmdSyncCreate fx c m = complete fx c csBadParam [] m := by
  rw [cmdSyncCreate]
  dsimp only
  rw [if_neg (by rw [home]; decide), if_pos ((syncBad_iff c).mpr bad)]

/-- With its fields in order it takes an index, where there is one. -/
theorem cmdSyncCreate_good (good : ¬ SyncBad c) : cmdSyncCreate fx c m = (createIndex c m).elim (complete fx c csNoSpace [] m) fun k =>
    complete fx c csDone [syncAddr fx m k (syncObj m (BitVec.ofNat 14 k)).gen] (syncCreated c k m) := by
  rw [cmdSyncCreate]
  dsimp only
  rw [if_neg (by rw [home]; decide), if_neg (mt (syncBad_iff c).mp good), createIndex]
  split <;> rename_i e <;> rw [e] <;> rfl

end

/-! ### What a command on an object answers that names none (R186) -/

section
variable {fx : Fixed} {c : Rec} {m : Mach} {st : Nat} (stop : syncCmdStop fx m c.pkt.p0 = some st)
include stop

theorem cmdSyncDestroy_stops : cmdSyncDestroy fx c m = complete fx c st [] m := by rw [cmdSyncDestroy, stop]
theorem cmdSyncSet_stops : cmdSyncSet fx c m = complete fx c st [] m := by rw [cmdSyncSet, stop]
theorem cmdSyncQuery_stops : cmdSyncQuery fx c m = complete fx c st [] m := by rw [cmdSyncQuery, stop]
theorem cmdSyncShare_stops : cmdSyncShare fx c m = complete fx c st [] m := by rw [cmdSyncShare, stop]
theorem cmdSyncUnshare_stops : cmdSyncUnshare fx c m = complete fx c st [] m := by rw [cmdSyncUnshare, stop]

end

/-! ### What it does of a sound record (R188, R189, R204) -/

/-- An ERROR that is to be cleared at once, or whose code is none (R189). -/
abbrev SetBad (c : Rec) : Prop := cFlag c 1 = true ∧ (cFlag c 2 = true ∨ fld c.pkt.p2 23 16 < 1 ∨ 0x7F < fld c.pkt.p2 23 16)

theorem setBad_iff (c : Rec) : ((cFlag c 1 && cFlag c 2) ||
    (cFlag c 1 && !(decide (1 ≤ fld c.pkt.p2 23 16) && decide (fld c.pkt.p2 23 16 ≤ 0x7F)))) = true ↔ SetBad c := by
  rw [← Bool.and_or_distrib_left]
  simp only [SetBad, Bool.and_eq_true, Bool.or_eq_true, Bool.not_eq_true', Bool.and_eq_false_iff, decide_eq_false_iff_not, not_le]

/-- The members of the object that a command names. -/
def syncMembers (c : Rec) (m : Mach) : List (Ctx × Gen) := tget [] m.sync.members (sIdx c.pkt.p0).toNat

/-- The context of a command made a member of the object that it names. -/
def syncShared (c : Rec) (m : Mach) : Mach := setSync (sIdx c.pkt.p0) { syncObj m (sIdx c.pkt.p0) with shared := true }
  { m with sync := { m.sync with
    members := tset [] m.sync.members (sIdx c.pkt.p0).toNat (syncMembers c m ++ [(cCtx c, cGen c)]) } }

theorem resting_syncShared {c : Rec} {m : Mach} (h : resting m = true) : resting (syncShared c m) = true :=
  resting_setSync (by exact h) (resting_orphan h _)

section
variable {fx : Fixed} {c : Rec} {m : Mach} (pass : syncCmdStop fx m c.pkt.p0 = none)
include pass

theorem cmdSyncSet_bad (bad : SetBad c) : cmdSyncSet fx c m = complete fx c csBadParam [] m := by
  rw [cmdSyncSet, pass]
  exact if_pos ((setBad_iff c).mpr bad)

variable (ok : sound m = true)
include ok

theorem cmdSyncDestroy_frees : cmdSyncDestroy fx c m =
    complete fx c csDone [BitVec.ofNat 64 (waitsOn m (sIdx c.pkt.p0)).length]
      (freeSync (sIdx c.pkt.p0) (wakeAll 0x81 (waitsOn m (sIdx c.pkt.p0)) m)) := by
  rw [cmdSyncDestroy, pass]
  simp only [scanSync_sound fx _ ok]

theorem cmdSyncSet_sets (good : ¬ SetBad c) : cmdSyncSet fx c m =
    complete fx c csDone [(syncObj m (sIdx c.pkt.p0)).value] (syncSet (sIdx c.pkt.p0) c m) := by
  rw [cmdSyncSet, pass]
  dsimp only
  rw [if_neg (mt (setBad_iff c).mp good), scanSync_sound fx _ ok]

theorem cmdSyncQuery_reads : cmdSyncQuery fx c m = complete fx c csDone [(syncObj m (sIdx c.pkt.p0)).value, syncW1 (syncObj m (sIdx c.pkt.p0)),
    BitVec.ofNat 64 ((waitsOn m (sIdx c.pkt.p0)).length + (tget [] m.sync.members (sIdx c.pkt.p0).toNat).length * 2 ^ 16)] m := by
  rw [cmdSyncQuery, pass]
  simp only [scanSync_sound fx _ ok]

/-- The outcomes of adding a member, in the order of their checks; in a block at rest no object is an orphan. -/
theorem cmdSyncShare_adds (rest : resting m = true) : cmdSyncShare fx c m =
    if (syncObj m (sIdx c.pkt.p0)).owner = cCtx c ∧ (syncObj m (sIdx c.pkt.p0)).ogen = cGen c then complete fx c csBadParam [] m
    else if (cCtx c, cGen c) ∈ syncMembers c m then complete fx c csDone [] m
    else if 16 ≤ (syncMembers c m).length ∨ 4096 ≤ memberships m then complete fx c csNoSpace [] m
    else complete fx c csDone [] (syncShared c m) := by
  have owns : (!(syncObj m (sIdx c.pkt.p0)).orphan && decide ((syncObj m (sIdx c.pkt.p0)).owner = cCtx c) &&
      decide ((syncObj m (sIdx c.pkt.p0)).ogen = cGen c)) = true ↔
      (syncObj m (sIdx c.pkt.p0)).owner = cCtx c ∧ (syncObj m (sIdx c.pkt.p0)).ogen = cGen c := by
    simp [resting_orphan rest]
  rw [cmdSyncShare, pass]
  simp only [scanSync_sound fx _ ok, owns]
  rfl

theorem cmdSyncUnshare_removes (rest : resting m = true) : cmdSyncUnshare fx c m =
    if (cCtx c, cGen c) ∈ syncMembers c m then
      complete fx c csDone [BitVec.ofNat 64 ((syncMembers c m).length - 1)] (dropMember fx (sIdx c.pkt.p0) (cCtx c) m)
    else complete fx c csDone [BitVec.ofNat 64 (syncMembers c m).length] m := by
  rw [cmdSyncUnshare, pass]
  simp only [scanSync_sound fx _ ok, freeOrphan_rest (resting_dropMember rest ok)]
  rfl

end

/-! ### JAM_EXPORT (16 R424) -/

/-- JAM_CTL as a JAM_EXPORT leaves it. -/
def jamSet (c : Rec) (m : Mach) : Mach := { m with sync := { m.sync with
  jamFresh := bit c.pkt.p0 0 && (m.sync.jamFresh || !m.sync.jamEn)
  jamCollector := BitVec.ofNat 16 (fld c.pkt.p0 31 16), jamQuiet := BitVec.ofNat 12 (fld c.pkt.p0 15 4), jamEn := bit c.pkt.p0 0 } }

section
variable {fx : Fixed} {c : Rec} {m : Mach}

theorem cmdJamExport_bad (bad : 0xFEFF < fld c.pkt.p0 31 16 ∨ fld c.pkt.p0 15 4 = 0) :
    cmdJamExport fx c m = complete fx c csBadParam [] m := if_pos bad

variable (collector : fld c.pkt.p0 31 16 ≤ 0xFEFF) (quiet : fld c.pkt.p0 15 4 ≠ 0) (ok : sound m = true)
include collector quiet ok

theorem cmdJamExport_sets (later : cFlag c 0 = false) :
    cmdJamExport fx c m = complete fx c csDone [(jamCtl m).zeroExtend 64, 0] (jamSet c m) := by
  rw [cmdJamExport, if_neg (not_or.mpr ⟨Nat.not_lt.mpr collector, quiet⟩), scanEdges_sound ok, later]
  rfl

theorem cmdJamExport_exports (now : cFlag c 0 = true) : cmdJamExport fx c m =
    complete fx c csDone [(jamCtl m).zeroExtend 64, BitVec.ofNat 64 (exportEdges fx (fun _ _ => true) false (jamSet c m)).2]
      (exportEdges fx (fun _ _ => true) false (jamSet c m)).1 := by
  rw [cmdJamExport, if_neg (not_or.mpr ⟨Nat.not_lt.mpr collector, quiet⟩), scanEdges_sound ok, now]
  rfl

end

/-! ### The obligation -/

/-- Settles O24, command by command: each completes as it starts, with what its checks allow. -/
theorem syncObjectCommands : Obligations.SyncObjectCommands := by
  intro s p c m i o ms me ends stops passes
  refine ⟨fun b => ?create, fun b => ?destroy, fun b => ?set, fun b => ?query, fun b plain => ?share, fun b => ?remove, fun b => ?jam⟩
  case create =>
    intro kind bad asked index
    have goes : ∀ {st res n}, cmdSyncCreate s.fx c m = complete s.fx c st res n → resting n = true → ends (.syncCreate p) st res n :=
      fun e => begins_completes b ((start_syncCreate b).trans e)
    refine ⟨fun abroad => goes (cmdSyncCreate_abroad abroad) b.resting, fun home wrong => goes (cmdSyncCreate_bad home wrong) b.resting,
      fun home good full => goes ?_ b.resting, fun k home good found => goes ?_ (resting_syncCreated b.resting)⟩
    · rw [cmdSyncCreate_good home good, show createIndex c m = none from full]
      rfl
    · rw [cmdSyncCreate_good home good, show createIndex c m = some k from found]
      rfl
  case destroy =>
    have start := start_syncDestroy b
    exact ⟨fun st stop => begins_completes b (start.trans (cmdSyncDestroy_stops stop)) b.resting,
      fun pass ok => begins_completes b (start.trans (cmdSyncDestroy_frees pass ok)) (resting_freeSync (resting_wakeAll b.resting))⟩
  case set =>
    have start := start_syncSet b
    exact ⟨fun st stop => begins_completes b (start.trans (cmdSyncSet_stops stop)) b.resting,
      fun pass => ⟨fun bad => begins_completes b (start.trans (cmdSyncSet_bad pass bad)) b.resting,
        fun good ok => begins_completes b (start.trans (cmdSyncSet_sets pass ok good)) (resting_syncSet b.resting)⟩⟩
  case query =>
    have start := start_syncQuery b
    exact ⟨fun st stop => begins_completes b (start.trans (cmdSyncQuery_stops stop)) b.resting,
      fun pass ok => begins_completes b (start.trans (cmdSyncQuery_reads pass ok)) b.resting⟩
  case share =>
    have start : startCmd s.fx c false m = cmdSyncShare s.fx c m := (start_syncShare b).trans (if_neg (ne_true_of_eq_false plain))
    refine ⟨fun st stop => begins_completes b (start.trans (cmdSyncShare_stops stop)) b.resting, fun pass ok => ?_⟩
    have e := start.trans (cmdSyncShare_adds pass ok b.resting)
    refine ⟨fun own => begins_completes b (e.trans (if_pos own)) b.resting, fun other => ?_⟩
    have e := e.trans (if_neg other)
    refine ⟨fun already => begins_completes b (e.trans (if_pos already)) b.resting, fun new full => ?_, fun new here all => ?_⟩
    · exact begins_completes b ((e.trans (if_neg new)).trans (if_pos full)) b.resting
    · have room : ¬ (16 ≤ ms.length ∨ 4096 ≤ memberships m) := by omega
      exact begins_completes b ((e.trans (if_neg new)).trans (if_neg room)) (resting_syncShared b.resting)
  case remove =>
    have start := start_syncShareRemove b
    refine ⟨fun st stop => begins_completes b (start.trans (cmdSyncUnshare_stops stop)) b.resting, fun pass ok => ?_⟩
    have e := start.trans (cmdSyncUnshare_removes pass ok b.resting)
    exact ⟨fun member => begins_completes b (e.trans (if_pos member)) (resting_dropMember b.resting ok),
      fun stranger => begins_completes b (e.trans (if_neg stranger)) b.resting⟩
  case jam =>
    intro a m'
    have start := start_jamExport b
    have set : resting (jamSet c m) = true := b.resting
    exact ⟨fun bad => begins_completes b (start.trans (cmdJamExport_bad bad)) b.resting,
      fun collector quiet later ok => begins_completes b (start.trans (cmdJamExport_sets collector quiet ok later)) set,
      fun collector quiet now ok => begins_completes b (start.trans (cmdJamExport_exports collector quiet ok now))⟩

end Sys2Proof.Machine
end

section
/-! SUPPORT. SIGNAL and WAIT (06_atomics_and_sync.md R190, R191, R197 to R201; 16_recovery.md R432): the checks of their object, what each
does to it, and what an update does where no wait is parked. -/

namespace Sys2Proof.Machine

/-! ### The checks of the object (06 R190, R197; 16 R432) -/

/-- An address that no longer names its object: freed, or of another generation. -/
abbrev SyncGone (m : Mach) (r : Req) : Prop :=
  (syncObj m (sIdx r.address)).valid = false ∨ (syncObj m (sIdx r.address)).gen ≠ sGen r.address

/-- An object that is not the context's, or whose KIND does not permit the operation. -/
abbrev SyncBarred (m : Mach) (op : BitVec 6) (r : Req) : Prop :=
  mayUse m (sIdx r.address) r.ctx r.gen = false ∨ kindAllows op r.subop (syncObj m (sIdx r.address)).kind = false

section
variable {s : State} {fx : Fixed} {i : Instr} {op : BitVec 6} {r : Req} {m : Mach}

theorem syncCheck_eq : syncCheck m op r =
    if SyncGone m r then some stStale else if ownerFrozen m (sIdx r.address) r.ctx = true then some stRetry
    else if SyncBarred m op r then some stDenied else none := by
  have gone : (!(syncObj m (sIdx r.address)).valid || decide ((syncObj m (sIdx r.address)).gen ≠ sGen r.address)) = true ↔ SyncGone m r := by
    simp [SyncGone]
  rw [syncCheck]
  simp only [gone]
  by_cases may : mayUse m (sIdx r.address) r.ctx r.gen = false
  · simp [SyncBarred, may]
  · simp [SyncBarred, may]

/-- A SIGNAL or WAIT that passes the first checks reaches its unit at once where the unit is awake. -/
theorem Passes.serveSync_eq (b : Passes s i op r m) (unit : op = opSIGNAL ∨ op = opWAIT) (up : awake m [dSync] = true) (ok : sound m = true) :
    serveDp s.fx op r none m =
      ((syncCheck m op r).elim (if op = opSIGNAL then applySignal r m else applyWait r m) fun st => answer r op st m, true) := by
  have hint : op ≠ opPFHINT := by rcases unit with rfl | rfl <;> decide
  have free : m.sync.thawQ = [] := ((resting_iff m).mp b.resting).1.thawQ
  have pass := b.passes
  rw [gateFor, if_pos unit] at pass
  rw [serveDp, if_neg hint, if_pos unit, serveSync]
  simp only at pass
  rw [pass]
  simp only [needDom_awake up (List.mem_singleton_self dSync), free, Bool.true_and, decide_true, if_true, applySync, scanSync_sound s.fx _ ok]
  cases syncCheck m op r <;> rfl

/-- One whose object stops it is answered so. -/
theorem Passes.syncStopped (b : Passes s i op r m) (unit : op = opSIGNAL ∨ op = opWAIT) (up : awake m [dSync] = true) (ok : sound m = true)
    {st : BitVec 4} (check : syncCheck m op r = some st) : exec i s = .next (s.put (answer r op st m)) :=
  b.toLands.put (by rw [b.serveSync_eq unit up ok, check]; rfl) (resting_answer b.resting)

theorem Passes.signals (b : Passes s i opSIGNAL r m) (up : awake m [dSync] = true) (ok : sound m = true)
    (check : syncCheck m opSIGNAL r = none) {t : Mach} (e : applySignal r m = t) (rest : resting t = true) : exec i s = .next (s.put t) :=
  b.toLands.put (by rw [b.serveSync_eq (.inl rfl) up ok, check]; exact congrArg (·, true) e) rest

theorem Passes.waits (b : Passes s i opWAIT r m) (up : awake m [dSync] = true) (ok : sound m = true)
    (check : syncCheck m opWAIT r = none) {t : Mach} (e : applyWait r m = t) (rest : resting t = true) : exec i s = .next (s.put t) :=
  b.toLands.put (by rw [b.serveSync_eq (.inr rfl) up ok, check]; exact congrArg (·, true) e) rest

end

/-! ### SIGNAL (R190, R191) -/

section
variable {r : Req} {m : Mach}

theorem applySignal_error (sub : r.subop = 3) : applySignal r m = respond r opSIGNAL stOk 0 0 []
    (if (syncObj m (sIdx r.address)).err then m else putError (sIdx r.address) (r.aux.extractLsb' 0 8) (count 0x049 m)) := by
  rw [applySignal, sub]
  rfl

/-- Another than an error SIGNAL, on an object in error. -/
theorem applySignal_inError (sub : r.subop ≠ 3) (err : (syncObj m (sIdx r.address)).err = true) : applySignal r m =
    respond r opSIGNAL stSigErr 0 ((syncObj m (sIdx r.address)).errcode.zeroExtend 16) [] m := by
  rw [applySignal]
  dsimp only
  split
  case h_1 three => exact absurd (BitVec.eq_of_toNat_eq three) sub
  case h_2 => exact if_pos err

variable (whole : (syncObj m (sIdx r.address)).err = false)
include whole

theorem applySignal_add (sub : r.subop = 0) : applySignal r m =
    respond r opSIGNAL stOk 0 0 [] (updateSync (sIdx r.address) ((syncObj m (sIdx r.address)).value + operand r) r.scope m) := by
  rw [applySignal, sub]
  exact if_neg (ne_true_of_eq_false whole)

theorem applySignal_set (sub : r.subop = 1) : applySignal r m =
    respond r opSIGNAL stOk 0 0 [] (updateSync (sIdx r.address) (operand r) r.scope m) := by
  rw [applySignal, sub]
  exact if_neg (ne_true_of_eq_false whole)

/-- MAX keeps the larger value, and says so where that is the old one. -/
theorem applySignal_max (sub : r.subop = 2) : applySignal r m =
    if (syncObj m (sIdx r.address)).value.toNat < (operand r).toNat then
      respond r opSIGNAL stOk 0 0 [] (updateSync (sIdx r.address) (operand r) r.scope m)
    else respond r opSIGNAL stOk 0 1 []
      (updateSync (sIdx r.address) (syncObj m (sIdx r.address)).value r.scope (countR 0x01B r m)) := by
  rw [applySignal, sub]
  exact if_neg (ne_true_of_eq_false whole)

end

/-! ### WAIT (R197 to R201) -/

/-- The value satisfies the condition of a WAIT. -/
abbrev WaitHolds (m : Mach) (r : Req) : Prop :=
  if r.subop = 1 then (syncObj m (sIdx r.address)).value = operand r
  else (operand r).toNat ≤ (syncObj m (sIdx r.address)).value.toNat

/-- The waits of the table with one more. -/
def waitsWith (w : Wait) (m : Mach) : Mach := { m with sync := { m.sync with waits := m.sync.waits ++ [w] } }

/-- A WAIT as it is parked. -/
def parkedWait (r : Req) (m : Mach) : Wait :=
  { obj := sIdx r.address, cond := r.subop, n := operand r, source := r.source, tag := r.tag, ctx := r.ctx, gen := r.gen, tc := r.tc
    scope := r.scope, stop := r.stop, acq := r.aux.getLsbD 0
    expire := if r.aux.toNat / 16 = 0 then 0 else tickOf m.cyc + r.aux.toNat / 16
    left := if (ctxOf m r.ctx).frozen && (ctxOf m r.ctx).gen = r.gen then r.aux.toNat / 16 else 0
    parkCyc := m.cyc, parkTick := tickOf m.cyc, quiet := false, exported := none, late := false }

section
variable {r : Req} {m : Mach}

theorem applyWait_inError (err : (syncObj m (sIdx r.address)).err = true) : applyWait r m =
    respond r opWAIT stSigErr 0 ((syncObj m (sIdx r.address)).errcode.zeroExtend 16) [] m := if_pos err

variable (whole : (syncObj m (sIdx r.address)).err = false)
include whole

/-- One that is satisfied on arrival; an MREACH consumes its operand. -/
theorem applyWait_satisfied (holds : WaitHolds m r) : applyWait r m = respond r opWAIT stOk 0 1 [(syncObj m (sIdx r.address)).value]
    (if r.subop = 2 then evalConsumed (sIdx r.address) r.scope (count 0x049 (setSync (sIdx r.address)
      { syncObj m (sIdx r.address) with value := (syncObj m (sIdx r.address)).value - operand r } m)) else m) :=
  (if_neg (ne_true_of_eq_false whole)).trans (if_pos holds)

/-- One that is not is answered at once with NOPARK or where the table is full, and else parks at its end. -/
theorem applyWait_unsatisfied (no : ¬ WaitHolds m r) : applyWait r m =
    if r.aux.getLsbD 1 then respond r opWAIT stOk 0 0 [(syncObj m (sIdx r.address)).value] m
    else if 8192 ≤ m.sync.waits.length then respond r opWAIT stRetry 0 0 [(syncObj m (sIdx r.address)).value] (countR 0x01D r m)
    else countR 0x04A r (waitsWith (parkedWait r m) m) :=
  (if_neg (ne_true_of_eq_false whole)).trans (if_neg no)

end

/-! ### What a block at rest keeps -/

theorem resting_wakeHits {scope : BitVec 3} {hit : List (Nat × W64)} {ws : List (Nat × Wait)} {m : Mach} (h : resting m = true) :
    resting (wakeHits scope hit ws m) = true := by
  rw [wakeHits]
  induction ws generalizing m with
  | nil => exact h
  | cons x t ih =>
    rw [List.foldl_cons]
    refine ih ?_
    split
    · exact h
    · exact resting_wake (resting_ite (resting_countN h) h)

theorem resting_evalConsumed {i : BitVec 14} {scope : BitVec 3} {m : Mach} (h : resting m = true) :
    resting (evalConsumed i scope m) = true := resting_wakeHits h

/-- A parked wait whose time is not over waits for others to go on. -/
theorem resting_waitsWith {w : Wait} {m : Mach} (early : w.late = false) (h : resting m = true) : resting (waitsWith w m) = true := by
  obtain ⟨k, l, v⟩ := (resting_iff m).mp h
  refine (resting_iff _).mpr ⟨⟨k.1, k.2, k.3, k.4, k.5, k.6, k.7, k.8, k.9, k.10, k.11, k.12, k.13, k.14, k.15, k.16, k.17, k.18, k.19, k.20, k.21,
    ?_, k.23⟩, l, v⟩
  intro x hx
  rcases List.mem_append.mp hx with hx | hx
  · exact k.late x hx
  · rw [List.mem_singleton.mp hx, early]

/-! ### Where no wait is parked on an object -/

section
variable {i : BitVec 14} {m : Mach} (alone : waitsOn m i = [])
include alone

theorem evalConsumed_alone (scope : BitVec 3) : evalConsumed i scope m = m := by
  rw [evalConsumed, alone]
  rfl

theorem putError_alone (code : BitVec 8) (whole : (syncObj m i).err = false) :
    putError i code m = setSync i { syncObj m i with err := true, errcode := code } m := by
  rw [putError]
  dsimp only
  rw [whole, alone]
  rfl

end

/-- An evaluation with no wait counts no consumption, and writes the record back. -/
theorem evalWaits_alone {i : BitVec 14} {m : Mach} (alone : waitsOn m i = []) (scope : BitVec 3) (only : Wait → Bool) :
    evalWaits i scope only m = countN 0x049 none none 0 (setSync i (syncObj m i) m) := by
  rw [evalWaits, alone]
  rfl

/-- The record of a valid object, written, is read back, and one written over it replaces it. -/
theorem setSync_again {i : BitVec 14} {o : SyncObj} (valid : o.valid = true) (m : Mach) :
    syncObj (setSync i o m) i = o ∧ ∀ o', setSync i o' (setSync i o m) = setSync i o' m := by
  have held : o ≠ .free := by
    rintro rfl
    exact absurd valid (by decide)
  refine ⟨tget_tset_ne _ _ _ _ held, fun o' => ?_⟩
  simp only [setSync, tset_tset _ _ _ _ _ held]

/-- An update changes the value and the counters alone. -/
theorem updateSync_alone {i : BitVec 14} {m : Mach} (alone : waitsOn m i = []) (valid : (syncObj m i).valid = true) (v : W64) (scope : BitVec 3) :
    ∃ p, updateSync i v scope m = { setSync i { syncObj m i with value := v } m with pmc := p } := by
  obtain ⟨same, again⟩ := setSync_again (i := i) (o := { syncObj m i with value := v }) valid m
  obtain ⟨p, counted⟩ := countN_frame 0x049 none none 1 (setSync i { syncObj m i with value := v } m)
  have written : setSync i (syncObj (setSync i { syncObj m i with value := v } m) i)
      { setSync i { syncObj m i with value := v } m with pmc := p } = { setSync i { syncObj m i with value := v } m with pmc := p } := by
    rw [same]
    exact congrArg (fun n : Mach => { n with pmc := p }) (again _)
  obtain ⟨q, e⟩ := countN_frame 0x049 none none 0 { setSync i { syncObj m i with value := v } m with pmc := p }
  refine ⟨q, ?_⟩
  rw [updateSync, count, counted, evalWaits_alone (m := { setSync i { syncObj m i with value := v } m with pmc := p }) alone]
  exact (congrArg (countN 0x049 none none 0) written).trans e

/-! ### The obligation -/

/-- Settles O36: the checks of the object, then what each request does to it, and what an update does where nothing is parked. -/
theorem signalAndWait : Obligations.SignalAndWait := by
  refine ⟨fun s r m up ok => ?requests, fun i v scope m alone =>
    ⟨fun valid => updateSync_alone alone valid v scope, evalConsumed_alone alone scope, fun code whole => putError_alone alone code whole⟩⟩
  case requests =>
    intro i o n answered stale retry denied
    have gone : ∀ {op}, stale → syncCheck m op r = some stStale := fun h => syncCheck_eq.trans (if_pos h)
    have frozen : ∀ {op}, ¬ stale → retry → syncCheck m op r = some stRetry := fun live h =>
      syncCheck_eq.trans ((if_neg live).trans (if_pos h))
    have barred : ∀ {op}, ¬ stale → ¬ retry → denied op → syncCheck m op r = some stDenied := fun live thawed h =>
      syncCheck_eq.trans ((if_neg live).trans ((if_neg thawed).trans (if_pos h)))
    have passes : ∀ {op}, ¬ stale → ¬ retry → ¬ denied op → syncCheck m op r = none := fun live thawed may =>
      syncCheck_eq.trans ((if_neg live).trans ((if_neg thawed).trans (if_neg may)))
    refine ⟨fun b => ?signal, fun b => ?wait⟩
    case signal =>
      have rest := b.resting
      refine ⟨fun h => b.syncStopped (.inl rfl) up ok (gone h), fun live h => b.syncStopped (.inl rfl) up ok (frozen live h),
        fun live thawed h => b.syncStopped (.inl rfl) up ok (barred live thawed h), fun live thawed may => ?_⟩
      have goes : ∀ {t}, applySignal r m = t → resting t = true → exec (.signal r) s = .next (s.put t) :=
        b.signals up ok (passes live thawed may)
      refine ⟨fun sub err => goes ?_ (resting_respond rest), fun sub whole => goes ?_ (resting_respond (resting_putError (resting_count rest))),
        fun sub err => goes (applySignal_inError sub err) (resting_respond rest),
        fun sub whole => goes (applySignal_add whole sub) (resting_respond (resting_updateSync rest)),
        fun sub whole => goes (applySignal_set whole sub) (resting_respond (resting_updateSync rest)),
        fun sub whole below => goes ((applySignal_max whole sub).trans (if_pos below)) (resting_respond (resting_updateSync rest)),
        fun sub whole above => goes ((applySignal_max whole sub).trans (if_neg (Nat.not_lt.mpr above)))
          (resting_respond (resting_updateSync (resting_countR rest)))⟩
      · rw [applySignal_error sub, if_pos err]
      · rw [applySignal_error sub, if_neg (ne_true_of_eq_false whole)]
    case wait =>
      intro holds w
      have rest := b.resting
      refine ⟨fun h => b.syncStopped (.inr rfl) up ok (gone h), fun live h => b.syncStopped (.inr rfl) up ok (frozen live h),
        fun live thawed h => b.syncStopped (.inr rfl) up ok (barred live thawed h), fun live thawed may => ?_⟩
      have goes : ∀ {t}, applyWait r m = t → resting t = true → exec (.wait r) s = .next (s.put t) :=
        b.waits up ok (passes live thawed may)
      refine ⟨fun err => goes (applyWait_inError err) (resting_respond rest), fun whole sat sub => goes ?plain (resting_respond rest),
        fun whole sat sub => goes ?consumes (resting_respond (resting_evalConsumed (resting_count (resting_setSync rest (resting_orphan rest i))))),
        fun whole no nopark => goes ?nopark (resting_respond rest), fun whole no park full => goes ?full (resting_respond (resting_countR rest)),
        fun whole no park room => goes ?parks (resting_countR (resting_waitsWith rfl rest))⟩
      case plain => rw [applyWait_satisfied whole sat, if_neg sub]
      case consumes => rw [applyWait_satisfied whole sat, if_pos sub]
      case nopark => exact (applyWait_unsatisfied whole no).trans (if_pos nopark)
      case full => exact (applyWait_unsatisfied whole no).trans ((if_neg (ne_true_of_eq_false park)).trans (if_pos full))
      case parks =>
        exact (applyWait_unsatisfied whole no).trans ((if_neg (ne_true_of_eq_false park)).trans (if_neg (Nat.not_le.mpr room)))

end Sys2Proof.Machine
end

section
/-! SUPPORT. The commands on tiles (07_reduction_engine.md R214, R215, R231, R232, R238, R239; 15_integrity_and_sparing.md R400): which each refuses,
and what it leaves. -/

namespace Sys2Proof.Machine

/-! ### What the updates of a tile leave as it was -/

section
variable {m : Mach} {i : Nat} {t : Tile}

theorem resting_setTile (h : resting m = true) : resting (setTile i t m) = true := h

/-- The free indices of tiles replaced. -/
def withTileQ (q : FreeQ) (m : Mach) : Mach := { m with red := { m.red with tileQ := q } }

theorem resting_withTileQ {q : FreeQ} (h : resting m = true) : resting (withTileQ q m) = true := h

/-- A tile to which no hop is bound keeps every hop record. -/
theorem unbind_unbound (bare : hopOfTile m i (tileOf m i).gen = none) : unbind i m = m := by rw [unbind, bare]

/-- The free indices of tiles have no part in what frees a hop record. -/
theorem unbind_tileQ : withTileQ m.red.tileQ (unbind i m) = unbind i m := by
  rw [unbind]
  cases hopOfTile m i (tileOf m i).gen <;> rfl

/-- In a block at rest no fold names a tile. -/
theorem foldHolds_resting {fx : Fixed} (h : resting m = true) : foldHolds fx m i = false := by
  rw [foldHolds, ((resting_iff m).mp h).1.folds]
  rfl

theorem dropFolds_resting (h : resting m = true) : dropFolds i m = m := by
  rw [dropFolds, ((resting_iff m).mp h).1.folds]
  rfl

theorem resting_freeTile (h : resting m = true) : resting (freeTile i m) = true := h

/-- A tile with no hop, discarded in a block at rest, is freed and no more. -/
theorem discardTile_unbound {fx : Fixed} (h : resting m = true) (bare : hopOfTile m i (tileOf m i).gen = none) :
    discardTile fx i m = freeTile i m := by
  rw [discardTile, bare]
  exact (congrArg (stepHops fx ∘ freeTile i) (dropFolds_resting h)).trans (stepHops_calm fx ((resting_iff _).mp (resting_freeTile h)).1)

end

section
variable {fx : Fixed} {c : Rec} {m : Mach} {st b : Nat}

/-! ### TILE_OPEN (R214, R215) -/

/-- The index that a TILE_OPEN asks for. -/
abbrev askedIndex (c : Rec) : Nat := fld c.pkt.p0 62 50

/-- A TILE_OPEN asks for the index of a tile that there is. -/
abbrev reusesTile (c : Rec) (m : Mach) : Bool := bit c.pkt.p0 63 && (tileOf m (askedIndex c)).valid

/-- The first of the checks of R215 that a TILE_OPEN fails; the block is the lowest free one (log 23). -/
def openStop (fx : Fixed) (c : Rec) (m : Mach) : Option Nat :=
  let t := tileAsked c
  firstStop (
    [stopIf (!m.regs.lv) csMishomed,
     stopIf (t.dstBerth && (!berthHome fx m t.dst || (t.auxdst ≠ 0 && !berthHome fx m t.auxdst))) csMishomed,
     stopIf (openBad t) csBadParam, openIndexStop m c,
     stopIf ((accPick m (blockSize t)).isNone || (!reusesTile c m && !bit c.pkt.p0 63 && (fqPeek 8192 m.red.tileQ).isNone)) csNoSpace] ++
    (tileRanges t).map (tileRangeStop fx m (cCtx c)) ++
    [stopIf (mapMeets fx (tileWrites fx m t ++ tileReads fx m t)) csBadParam,
     stopIf (!confDest m (cCtx c) false (tileWrites fx m t)) csDenied])

/-- The tile asked for, opened at an index under a generation, in the block at b. -/
def tileOpened (c : Rec) (i b : Nat) (g : Gen) (m : Mach) : Mach := setTile i { tileAsked c with gen := g, base := BitVec.ofNat 15 b } m

/-- What a TILE_OPEN does that passes its checks, by whether it reuses its index and by the block found. -/
def openTile (fx : Fixed) (c : Rec) (reuse : Bool) (place : Option Nat) (m : Mach) : Mach :=
  let i := if bit c.pkt.p0 63 then askedIndex c else (fqPeek 8192 m.red.tileQ).getD 0
  let q := if reuse then m.red.tileQ else if bit c.pkt.p0 63 then fqTake i m.red.tileQ else fqPop 8192 m.red.tileQ
  let g := if reuse then (tileOf m i).gen + 1 else (tileOf m i).gen
  let n := if reuse then unbind i m else m
  complete fx c csDone [tileAddr fx n i g, BitVec.ofNat 64 (place.getD 0)] (tileOpened c i (place.getD 0) g (withTileQ q n))

theorem cmdTileOpen_eq : cmdTileOpen fx c m =
    (openStop fx c m).elim (openTile fx c (reusesTile c m) (accPick m (blockSize (tileAsked c))) m) fun st => complete fx c st [] m := by
  cases check : openStop fx c m <;>
  · rw [openStop] at check
    rw [cmdTileOpen]
    dsimp only at check ⊢
    rw [check]
    rfl

theorem cmdTileOpen_stops (stop : openStop fx c m = some st) : cmdTileOpen fx c m = complete fx c st [] m := by
  rw [cmdTileOpen_eq, stop, Option.elim_some]

variable (stop : openStop fx c m = none) (place : accPick m (blockSize (tileAsked c)) = some b)
include stop place

/-- A fresh tile keeps its index's generation. -/
theorem cmdTileOpen_fresh (fresh : reusesTile c m = false) :
    let i := if bit c.pkt.p0 63 then askedIndex c else (fqPeek 8192 m.red.tileQ).getD 0
    let q := if bit c.pkt.p0 63 then fqTake i m.red.tileQ else fqPop 8192 m.red.tileQ
    let g := (tileOf m i).gen
    cmdTileOpen fx c m = complete fx c csDone [tileAddr fx m i g, BitVec.ofNat 64 b] (tileOpened c i b g (withTileQ q m)) := by
  rw [cmdTileOpen_eq, stop, Option.elim_none, place, fresh]
  rfl

/-- A tile reused takes its index's next generation, and loses the hop record that was bound to it. -/
theorem cmdTileOpen_reuses (reuse : reusesTile c m = true) :
    let i := askedIndex c
    let g := (tileOf m i).gen + 1
    cmdTileOpen fx c m = complete fx c csDone [tileAddr fx (unbind i m) i g, BitVec.ofNat 64 b] (tileOpened c i b g (unbind i m)) := by
  have asked : bit c.pkt.p0 63 = true := (Bool.and_eq_true_iff.mp reuse).1
  rw [cmdTileOpen_eq, stop, Option.elim_none, place, reuse, openTile]
  simp only [asked, if_true, unbind_tileQ, Option.getD_some]

end

/-! ### TILE_CLOSE (R231, R232) -/

section
variable {fx : Fixed} {c : Rec} {m : Mach} {st : Nat}

/-- A close of a tile as it takes its cut-off. -/
def closeTaken (i : Nat) (t : Tile) : CloseProg :=
  { tile := BitVec.ofNat 13 i, buf := t.epoch, late := 0, draining := false, bias := [], made := false
    todo := [], left := 0, bytes := 0, poisoned := false, exp := bufExp t t.epoch, ovf := bufOvf t t.epoch }

/-- A tile cut off: its buffers swap, or it becomes CLOSING. -/
def tileCutOff (i : Nat) (m : Mach) : Mach :=
  let t := tileOf m i
  if t.dbuf then setTile i { t with epoch := !t.epoch } m
  else if t.st = .opened then setTile i { t with st := .closing } m else m

theorem resting_tileCutOff {i : Nat} (h : resting m = true) : resting (tileCutOff i m) = true :=
  resting_ite (resting_setTile h) (resting_ite (resting_setTile h) h)

theorem hopOfTile_tileCutOff {i k : Nat} {g : Gen} : hopOfTile (tileCutOff i m) k g = hopOfTile m k g := by
  rw [tileCutOff]
  cases (tileOf m i).dbuf
  · cases (tileOf m i).st <;> rfl
  · rfl

theorem closeRes2_uncaused (p : CloseProg) : closeRes2 p 0 = BitVec.ofNat 64 (p.exp.toNat * 2 ^ 56 + b2n p.ovf) := by
  rw [closeRes2, show (0 : BitVec 8).toNat * 2 ^ 8 = 0 from rfl, Nat.add_zero]

theorem cmdTileClose_stops (stop : closeStop fx m c false = some st) : cmdTileClose fx c false m = complete fx c st [] m := by
  rw [cmdTileClose, stop]

variable (stop : closeStop fx m c false = none) (bare : hopOfTile m (tIdx c.pkt.p0) (tileOf m (tIdx c.pkt.p0)).gen = none)
include stop bare

/-- A lost descriptor ends the close at once (15 R400). -/
theorem cmdTileClose_lost (lost : (tileOf m (tIdx c.pkt.p0)).lost = true) :
    let t := tileOf m (tIdx c.pkt.p0)
    cmdTileClose fx c false m = complete fx c csPoisoned
      [0, 0, BitVec.ofNat 64 ((bufExp t t.epoch).toNat * 2 ^ 56 + b2n (bufOvf t t.epoch))] m := by
  rw [cmdTileClose, stop]
  simp only [lost, if_true, unbind_unbound bare, closeRes2_uncaused]

/-- Otherwise the close waits for its drain. -/
theorem cmdTileClose_waits (found : (tileOf m (tIdx c.pkt.p0)).lost = false) :
    let i := tIdx c.pkt.p0
    cmdTileClose fx c false m = runOn c (.close (closeTaken i (tileOf m i))) (tileCutOff i m) := by
  have cut := (hopOfTile_tileCutOff (i := tIdx c.pkt.p0)).trans bare
  rw [tileCutOff] at cut
  rw [cmdTileClose, stop]
  dsimp only
  rw [if_neg (ne_true_of_eq_false found), cut]
  rfl

end

/-! ### TILE_DISCARD and TILE_QUERY (R238, R239) -/

section
variable {fx : Fixed} {c : Rec} {m : Mach} {st : Nat}

/-- The first of the checks that a TILE_DISCARD fails; INIT and LINE come after the handle's (log 137). -/
def discardStop (fx : Fixed) (c : Rec) (m : Mach) : Option Nat :=
  firstStop [tileCmdStop fx m c.pkt.p0, stopIf (!tileBare c.pkt.p0) csBadParam, stopIf (tileForeign m c c.pkt.p0) csTileBusy]

theorem cmdTileDiscard_stops (stop : discardStop fx c m = some st) : cmdTileDiscard fx c m = complete fx c st [] m := by
  rw [discardStop] at stop
  rw [cmdTileDiscard, stop]

theorem cmdTileDiscard_frees (stop : discardStop fx c m = none) (rest : resting m = true)
    (bare : hopOfTile m (tIdx c.pkt.p0) (tileOf m (tIdx c.pkt.p0)).gen = none) :
    cmdTileDiscard fx c m = complete fx c csDone [(tileOf m (tIdx c.pkt.p0)).late.zeroExtend 64] (freeTile (tIdx c.pkt.p0) m) := by
  rw [discardStop] at stop
  rw [cmdTileDiscard, stop]
  dsimp only
  rw [foldHolds_resting rest, discardTile_unbound rest bare]
  rfl

/-- The first of the checks that a TILE_QUERY fails; INIT and LINE come after the handle's (log 137). -/
def queryStop (fx : Fixed) (c : Rec) (m : Mach) : Option Nat :=
  firstStop [tileCmdStop fx m c.pkt.p0, stopIf (!tileBare c.pkt.p0) csBadParam]

theorem cmdTileQuery_stops (stop : queryStop fx c m = some st) : cmdTileQuery fx c m = complete fx c st [] m := by
  rw [queryStop] at stop
  rw [cmdTileQuery, stop]

theorem cmdTileQuery_answers (stop : queryStop fx c m = none) :
    let t := tileOf m (tIdx c.pkt.p0)
    cmdTileQuery fx c m = complete fx c csDone [tileW0 t, tileW1 t, bufTouch t t.epoch] m := by
  rw [queryStop] at stop
  rw [cmdTileQuery, stop]

end

/-! ### The obligation -/

/-- Settles O22, command by command: each refusal and each effect but a close's completes as it starts, and a close waits. -/
theorem tileCommands : Obligations.TileCommands := by
  refine fun s p c m => ⟨fun b => ?opened, fun b => ?closed, fun b => ?discarded, fun b => ?asked⟩
  case opened =>
    refine ⟨fun st stop => ?_, fun k stop place => ⟨fun fresh => ?_, fun reuse => ?_⟩⟩
    · exact begins_completes b ((start_tileOpen b).trans (cmdTileOpen_stops stop)) b.resting
    · exact begins_completes b ((start_tileOpen b).trans (cmdTileOpen_fresh stop place fresh)) (resting_setTile (resting_withTileQ b.resting))
    · intro g m' rest
      exact begins_completes b ((start_tileOpen b).trans (cmdTileOpen_reuses stop place reuse)) rest
  case closed =>
    refine ⟨fun st stop => ?_, fun stop bare => ⟨fun lost => ?_, fun found => ?_⟩⟩
    · exact begins_completes b ((start_tileClose b).trans (cmdTileClose_stops stop)) b.resting
    · exact begins_completes b ((start_tileClose b).trans (cmdTileClose_lost stop bare lost)) b.resting
    · exact begins_finish b ((start_tileClose b).trans (cmdTileClose_waits stop bare found)) (resting_runOn (resting_tileCutOff b.resting) rfl)
  case discarded =>
    refine ⟨fun st stop => ?_, fun stop bare => ?_⟩
    · exact begins_completes b ((start_tileDiscard b).trans (cmdTileDiscard_stops stop)) b.resting
    · exact begins_completes b ((start_tileDiscard b).trans (cmdTileDiscard_frees stop b.resting bare)) (resting_freeTile b.resting)
  case asked =>
    intro t stop
    cases check : stop with
    | some st => exact begins_completes b ((start_tileQuery b).trans (cmdTileQuery_stops check)) b.resting
    | none => exact begins_completes b ((start_tileQuery b).trans (cmdTileQuery_answers check)) b.resting

end Sys2Proof.Machine
end

section
/-! SUPPORT. The rows of the drain and of the hops (07_reduction_engine.md R233; 08_towlines_and_line_reductions.md R245, R250 to R252, R256): when
a drain begins, which line a hop forwards, and what the answer to a forward and its absence do. -/

namespace Sys2Proof.Machine

/-! ### TILE_DRAIN (R233) -/

/-- A bound hop that lets its tile drain: the last one, whole, cut off, and with every incoming line retired (08 R252). -/
abbrev HopDrains (m : Mach) (h : Hop) : Prop := h.broken = false ∧ h.cut = true ∧ h.hop = h.last ∧ hopFed m h = true

/-- The bias vector of a tile asked for, if it has one. -/
def biasAsked (fx : Fixed) (tile : BitVec 13) (m : Mach) : Mach × List (Nat × Line × Bool) :=
  let t := tileOf m tile.toNat
  if t.dstv = true ∧ t.biasmode = 2 then askBias fx tile (List.range (tileLines t)) m else (m, [])

/-- A close whose drain has begun. -/
def drainBegun (fx : Fixed) (run : Run) (c : CloseProg) (m : Mach) : Mach :=
  let t := tileOf m c.tile.toNat
  let x := biasAsked fx c.tile m
  setProg run.cmd.id (.close { c with draining := true, exp := bufExp t c.buf, ovf := bufOvf t c.buf, bias := x.2 }) x.1

section
variable {fx : Fixed} {m : Mach} {i j : Nat} {run : Run} {c : CloseProg}

theorem beginDrain_unclosed (close : closeOf m i = none) : beginDrain fx i m = m := by rw [beginDrain, close]

theorem beginDrain_unbound (close : closeOf m i = some (run, c)) (bare : hopOfTile m i (tileOf m i).gen = none) :
    beginDrain fx i m = startDrain fx run c m := by rw [beginDrain, close, bare]

theorem beginDrain_held (close : closeOf m i = some (run, c)) (bound : hopOfTile m i (tileOf m i).gen = some j) (no : ¬ HopDrains m (hopOf m j)) :
    beginDrain fx i m = m := by
  rw [beginDrain, close, bound]
  exact if_neg (by simpa [and_assoc] using no)

/-- Contributions in flight to the buffer hold the drain back. -/
theorem startDrain_busy (busy : bufInfl (tileOf m c.tile.toNat) c.buf ≠ 0) : startDrain fx run c m = m := by
  rw [startDrain]
  exact if_pos (by rw [decide_eq_true busy, Bool.or_true, Bool.true_or])

theorem startDrain_begins (fresh : c.draining = false) (unread : m.red.folds.any (fun f => f.src = c.tile) = false)
    (idle : bufInfl (tileOf m c.tile.toNat) c.buf = 0) (up : awake m (tileDoms (tileOf m c.tile.toNat)) = true) :
    startDrain fx run c m = drainBegun fx run c m := by
  have free : ¬ (c.draining || decide (bufInfl (tileOf m c.tile.toNat) c.buf ≠ 0) || m.red.folds.any fun f => f.src = c.tile) = true := by
    simp [fresh, idle, unread]
  rw [startDrain]
  dsimp only
  rw [if_neg free, waitDoms_awake run.cmd.id up fun _ hi => hi]
  rfl

end

/-! ### A segment of the slice's own leaves -/

section
variable {r : Req} {w : SegOf} {m : Mach}

theorem sendOwn_full (full : segRoom m r.stop = false ∨ 4096 ≤ m.red.segs.length) : sendOwn r w m = none := by
  rw [sendOwn]
  exact if_pos (by simpa using full)

theorem sendOwn_leaves (room : segRoom m r.stop = true) (tags : m.red.segs.length < 4096) : sendOwn r w m =
    some (emit (.request 0 r.stop opTFOLD { r with tag := segTag m })
      { m with red := { m.red with segs := m.red.segs ++ [⟨r.stop, segTag m, w, 0⟩] } }) := by
  rw [sendOwn]
  exact if_neg (by simpa [room] using tags)

end

/-! ### TOWLINE_FORWARD (R250) -/

/-- The segment by which a hop forwards a line: its sectors where the line was touched, and none where it was not. -/
def forwardSegment (fx : Fixed) (m : Mach) (h : Hop) (l : Nat) : Req :=
  let t := tileOf m h.tile.toNat
  let has := touched t false l
  ownFold fx 1 t.ctx t.cgen (defaultClass m t.ctx) (lineAddr h.next false l) (if has then 0xF else 0)
    (segAux true t.kind t.exp0 h.hop.toNat) (if has then segWords t.kind.toNat (bufLine m t false l) else [])

/-- The line that a hop would forward is poisoned. -/
abbrev forwardPoisoned (m : Mach) (h : Hop) (l : Nat) : Bool :=
  touched (tileOf m h.tile.toNat) false l && (accLine m (bufBase (tileOf m h.tile.toNat) false + l)).poison

/-- A hop with one more forward out. -/
def hopForwards (m : Mach) (h : Hop) : Hop := { h with outst := h.outst + 1, tick := if hopWaits m h then h.tick else hopNow m h }

/-- A hop that has sent a line for the first time. -/
def hopSends (m : Mach) (h : Hop) (l : Nat) : Hop :=
  { hopForwards m h with sent := h.sent ||| ((1 : W64) <<< l), full := h.full + b2n (touched (tileOf m h.tile.toNat) false l) }

section
variable {fx : Fixed} {m : Mach} {j l : Nat}

theorem forwardLine_idle (none_ : readyLine m (hopOf m j) = none) : forwardLine fx j m = m := by
  rw [forwardLine]
  dsimp only
  rw [none_]

variable (ready : readyLine m (hopOf m j) = some l)
include ready

theorem forwardLine_windowed (full : towWindow m ≤ (hopOf m j).outst.toNat) : forwardLine fx j m = m := by
  rw [forwardLine]
  dsimp only
  rw [ready]
  exact if_pos full

variable (window : (hopOf m j).outst.toNat < towWindow m) (up : awake m (tileDoms (tileOf m (hopOf m j).tile.toNat)) = true) (ok : sound m = true)
include window up ok

/-- A line with a place in the window leaves, unless it is poisoned or finds no room on the mesh. -/
theorem forwardLine_ready : forwardLine fx j m =
    if forwardPoisoned m (hopOf m j) l then breakHop fx j 5 m
    else (sendOwn (forwardSegment fx m (hopOf m j) l) (.hop (BitVec.ofNat 10 j) (BitVec.ofNat 6 l)) m).elim m
      (setHop j (hopSends m (hopOf m j) l)) := by
  rw [forwardLine]
  dsimp only
  rw [ready]
  dsimp only
  rw [if_neg (Nat.not_le.mpr window), waitDoms_awake (whoHop j) up fun _ hi => hi]
  simp only [scanAcc_sound fx _ ok, ite_self, Bool.not_true, Bool.false_eq_true, if_false]
  split
  · rfl
  · rw [← forwardSegment]
    cases sendOwn (forwardSegment fx m (hopOf m j) l) (.hop (BitVec.ofNat 10 j) (BitVec.ofNat 6 l)) m <;> rfl

/-- That a poisoned line breaks its hop with cause 5 is the model's choice (log 99). -/
theorem forwardLine_poisoned (bad : forwardPoisoned m (hopOf m j) l = true) : forwardLine fx j m = breakHop fx j 5 m := by
  rw [forwardLine_ready ready window up ok, if_pos bad]

variable (good : forwardPoisoned m (hopOf m j) l = false)
include good

theorem forwardLine_stays (full : segRoom m (forwardSegment fx m (hopOf m j) l).stop = false ∨ 4096 ≤ m.red.segs.length) :
    forwardLine fx j m = m := by
  rw [forwardLine_ready ready window up ok, good, if_neg Bool.false_ne_true, sendOwn_full full, Option.elim_none]

theorem forwardLine_sends (room : segRoom m (forwardSegment fx m (hopOf m j) l).stop = true) (tags : m.red.segs.length < 4096) :
    let r := forwardSegment fx m (hopOf m j) l
    forwardLine fx j m = setHop j (hopSends m (hopOf m j) l) (emit (.request 0 r.stop opTFOLD { r with tag := segTag m })
      { m with red := { m.red with segs := m.red.segs ++ [⟨r.stop, segTag m, .hop (BitVec.ofNat 10 j) (BitVec.ofNat 6 l), 0⟩] } }) := by
  rw [forwardLine_ready ready window up ok, good, if_neg Bool.false_ne_true, sendOwn_leaves room tags, Option.elim_some]

end

/-! ### TOWLINE_FORWARD_RETRY (R251) -/

/-- A forward of a hop's line that was answered RETRY, whose 1,024 cycles are over. -/
def retryDue (j : Nat) (line : BitVec 6) (m : Mach) : Seg → Bool := fun x =>
  x.what = .hop (BitVec.ofNat 10 j) line && decide (x.retryAt ≠ 0) && decide (x.retryAt ≤ m.cyc)

section
variable {fx : Fixed} {m : Mach} {j : Nat} {line : BitVec 6}

theorem forwardAgain_none (none_ : m.red.segs.find? (retryDue j line m) = none) : forwardAgain fx j line m = m := by
  unfold retryDue at none_
  rw [forwardAgain]
  dsimp only
  rw [none_]

variable {x : Seg} (due : m.red.segs.find? (retryDue j line m) = some x)
include due

theorem forwardAgain_waits (full : segRoom m x.stop = false ∨ towWindow m ≤ (hopOf m j).outst.toNat) : forwardAgain fx j line m = m := by
  unfold retryDue at due
  rw [forwardAgain]
  dsimp only
  rw [due]
  exact if_pos (by simpa using full)

/-- It leaves again under its tag, from the line as it then is. -/
theorem forwardAgain_sends (room : segRoom m x.stop = true) (window : (hopOf m j).outst.toNat < towWindow m) : forwardAgain fx j line m =
    setHop j (hopForwards m (hopOf m j)) (emit (.request 0 x.stop opTFOLD { forwardSegment fx m (hopOf m j) line.toNat with tag := x.tag })
      { m with red := { m.red with segs := m.red.segs.map fun y => if y = x then { y with retryAt := 0 } else y } }) := by
  unfold retryDue at due
  rw [forwardAgain]
  dsimp only
  rw [due]
  exact if_neg (by simpa [room] using window)

end

/-! ### SEGMENT_RESPONSE (R245, R251) -/

/-- A request of the slice's own that is out by a stop under a tag. -/
def segOut (stop : Stop) (tag : BitVec 12) : Seg → Bool := fun x => x.stop = stop && x.tag = tag && decide (x.retryAt = 0)

/-- A request of the slice's own gives up its place. -/
def segDropped (x : Seg) (m : Mach) : Mach := { m with red := { m.red with segs := m.red.segs.filter (· ≠ x) } }

/-- A hop with one forward less out. -/
def hopAnswered (m : Mach) (j : Nat) : Hop := { hopOf m j with outst := (hopOf m j).outst - 1, tick := hopNow m (hopOf m j) }

section
variable {fx : Fixed} {m : Mach} {stop : Stop} {tag : BitVec 12} {status : BitVec 4}

theorem segAnswer_unasked (none_ : m.red.segs.find? (segOut stop tag) = none) : segAnswer fx stop tag status m = m := by
  unfold segOut at none_
  rw [segAnswer, none_]

variable {x : Seg} (out : m.red.segs.find? (segOut stop tag) = some x)
include out

theorem segAnswer_notice (what : x.what = .notice) : segAnswer fx stop tag status m = segDropped x m := by
  unfold segOut at out
  rw [segAnswer, out]
  dsimp only
  rw [what]
  rfl

theorem segAnswer_fold {id : Nat} {line : BitVec 6} (what : x.what = .fold id line) :
    segAnswer fx stop tag status m = foldLine id line status (segDropped x m) := by
  unfold segOut at out
  rw [segAnswer, out]
  dsimp only
  rw [what]
  rfl

variable {i : BitVec 10} {line : BitVec 6} (what : x.what = .hop i line)
include what

/-- What the answer to a forward does, by its hop and its status. -/
theorem segAnswer_hop : segAnswer fx stop tag status m =
    let h := hopAnswered m i.toNat
    if h.broken then setHop i.toNat h (segDropped x m)
    else if status = stOk then setHop i.toNat { h with acked := h.acked ||| ((1 : W64) <<< line.toNat) } (segDropped x m)
    else if status = stRetry then setHop i.toNat h { m with red := { m.red with
      segs := m.red.segs.map fun y => if y = x then { y with retryAt := m.cyc + 1024 } else y } }
    else breakHop fx i.toNat 1 (setHop i.toNat h (segDropped x m)) := by
  unfold segOut at out
  rw [segAnswer, out]
  dsimp only
  rw [what]
  rfl

theorem segAnswer_broken (broken : (hopAnswered m i.toNat).broken = true) :
    segAnswer fx stop tag status m = setHop i.toNat (hopAnswered m i.toNat) (segDropped x m) :=
  (segAnswer_hop out what).trans (if_pos broken)

variable (whole : (hopAnswered m i.toNat).broken = false)
include whole

theorem segAnswer_acked (st : status = stOk) : segAnswer fx stop tag status m =
    setHop i.toNat { hopAnswered m i.toNat with acked := (hopAnswered m i.toNat).acked ||| ((1 : W64) <<< line.toNat) } (segDropped x m) :=
  (segAnswer_hop out what).trans ((if_neg (ne_true_of_eq_false whole)).trans (if_pos st))

theorem segAnswer_retry (st : status = stRetry) : segAnswer fx stop tag status m =
    setHop i.toNat (hopAnswered m i.toNat) { m with red := { m.red with
      segs := m.red.segs.map fun y => if y = x then { y with retryAt := m.cyc + 1024 } else y } } := by
  have other : status ≠ stOk := by rw [st]; decide
  exact (segAnswer_hop out what).trans ((if_neg (ne_true_of_eq_false whole)).trans ((if_neg other).trans (if_pos st)))

theorem segAnswer_breaks (nok : status ≠ stOk) (nretry : status ≠ stRetry) :
    segAnswer fx stop tag status m = breakHop fx i.toNat 1 (setHop i.toNat (hopAnswered m i.toNat) (segDropped x m)) :=
  (segAnswer_hop out what).trans ((if_neg (ne_true_of_eq_false whole)).trans ((if_neg nok).trans (if_neg nretry)))

end

/-! ### HOP_TIMEOUT (R256) -/

section
variable {fx : Fixed} {m : Mach} {j : Nat}

/-- A hop, cut off and whole, that has waited HOP_TIMEOUT ticks, its context not frozen. -/
abbrev HopLate (m : Mach) (h : Hop) : Prop :=
  h.valid = true ∧ h.cut = true ∧ h.broken = false ∧ hopWaits m h = true ∧
  ¬ ((ctxOf m (tileOf m h.tile.toNat).ctx).frozen = true ∧ (ctxOf m (tileOf m h.tile.toNat).ctx).gen = (tileOf m h.tile.toNat).cgen) ∧
  m.regs.hopTimeout ≠ 0 ∧ h.tick + m.regs.hopTimeout.toNat ≤ tickOf m.cyc

theorem hopExpire_eq : hopExpire fx j m =
    if HopLate m (hopOf m j) then (if (waitDom (whoHop j) (dAcc 0) m).2 then breakHop fx j 2 (waitDom (whoHop j) (dAcc 0) m).1
      else (waitDom (whoHop j) (dAcc 0) m).1) else m := by
  rw [hopExpire]
  exact if_congr (by simp only [HopLate, ← Bool.not_eq_true, Bool.not_eq_true', Bool.and_eq_true, decide_eq_true_eq, and_assoc]) rfl rfl

theorem hopExpire_late (late : HopLate m (hopOf m j)) (up : awake m [dAcc 0] = true) : hopExpire fx j m = breakHop fx j 2 m := by
  rw [hopExpire_eq, if_pos late, waitDom_awake (whoHop j) up (List.mem_singleton_self (dAcc 0))]
  rfl

theorem hopExpire_early (early : ¬ HopLate m (hopOf m j)) : hopExpire fx j m = m := by rw [hopExpire_eq, if_neg early]

end

/-! ### The obligation -/

/-- Settles O41, row by row in the order of the statement. -/
theorem reductionStepRows : Obligations.ReductionStepRows := by
  intro s
  refine ⟨fun t h => after_resting h, fun tile => ?drain, fun hop => ?forward, fun hop line cyc => ?again, fun stop tag status => ?answer,
    fun hop cyc => ?timeout⟩
  case drain =>
    have goes : ∀ {m}, beginDrain s.fx tile.toNat s.m = m → exec (.tileDrain tile) s = .next (s.after m) :=
      fun e => (row_tileDrain ..).trans (actM_goes e)
    refine ⟨fun close => goes (beginDrain_unclosed close), fun run c close =>
      ⟨fun j bound no => goes (beginDrain_held close bound no), fun bare own fresh unread => ?_⟩⟩
    subst own
    have starts := fun {m} => goes (m := m) ∘ (beginDrain_unbound close bare).trans
    exact ⟨fun busy => starts (startDrain_busy busy), fun idle up => starts (startDrain_begins fresh unread idle up)⟩
  case forward =>
    have goes : ∀ {m}, forwardLine s.fx hop.toNat s.m = m → exec (.towlineForward hop) s = .next (s.after m) :=
      fun e => (row_towlineForward ..).trans (actM_goes e)
    exact ⟨fun none_ => goes (forwardLine_idle none_), fun l ready => ⟨fun full => goes (forwardLine_windowed ready full), fun window up ok =>
      ⟨fun bad => goes (forwardLine_poisoned ready window up ok bad), fun good full => goes (forwardLine_stays ready window up ok good full),
        fun good room tags => goes (forwardLine_sends ready window up ok good room tags)⟩⟩⟩
  case again =>
    intro n
    have goes : ∀ {m}, forwardAgain s.fx hop.toNat line n = m → exec (.towlineForwardRetry hop line cyc) s = .next (s.after m) :=
      fun e => (row_towlineForwardRetry ..).trans (actAt_goes e)
    exact ⟨fun none_ => goes (forwardAgain_none none_), fun x due => ⟨fun full => goes (forwardAgain_waits due full),
      fun room window => goes (forwardAgain_sends due room window)⟩⟩
  case answer =>
    have goes : ∀ {m}, segAnswer s.fx stop tag status s.m = m → exec (.segmentResponse stop tag status) s = .next (s.after m) :=
      fun e => (row_segmentResponse ..).trans (actM_goes e)
    exact ⟨fun none_ => goes (segAnswer_unasked none_), fun x out => ⟨fun what => goes (segAnswer_notice out what),
      fun id line what => goes (segAnswer_fold out what), fun i line what => ⟨fun broken => goes (segAnswer_broken out what broken),
        fun whole st => goes (segAnswer_acked out what whole st), fun whole st => goes (segAnswer_retry out what whole st),
        fun whole nok nretry => goes (segAnswer_breaks out what whole nok nretry)⟩⟩⟩
  case timeout =>
    intro n
    have goes : ∀ {m}, hopExpire s.fx hop.toNat n = m → exec (.hopTimeout hop cyc) s = .next (s.after m) :=
      fun e => (row_hopTimeout ..).trans (actAt_goes e)
    exact ⟨fun late up => goes (hopExpire_late late up), fun early => goes (hopExpire_early early)⟩

end Sys2Proof.Machine
end

section
/-! SUPPORT. Requests on tile space (07_reduction_engine.md R218, R220, R221, R225, R229; 08_towlines_and_line_reductions.md R240, R241, R243, R255):
what stops one at its tile, which wait in a contribution queue, and what an admission of one contribution does. -/

namespace Sys2Proof.Machine

/-! ### What stops a request at its tile (R218) -/

section
variable {m : Mach} {op : BitVec 6} {r : Req}

/-- A SEGMENT of another KIND than its tile's, or with EXPQ where KIND is not SUM_F32 (08 R241). -/
abbrev SegmentBarred (m : Mach) (op : BitVec 6) (r : Req) : Prop :=
  isSegment op r = true ∧ (((tileOf m (tIdx r.address)).valid = true ∧ segKind r ≠ (tileOf m (tIdx r.address)).kind) ∨ (segExpq r ≠ 0 ∧ segKind r ≠ 0))

/-- A tile that a request's address no longer names: free, or of another generation. -/
abbrev TileGone (m : Mach) (r : Req) : Prop :=
  (tileOf m (tIdx r.address)).valid = false ∨ (tileOf m (tIdx r.address)).gen ≠ tGen r.address

theorem segmentBarred_iff : (isSegment op r && (((tileOf m (tIdx r.address)).valid && decide (segKind r ≠ (tileOf m (tIdx r.address)).kind)) ||
    (decide (segExpq r ≠ 0) && decide (segKind r ≠ 0)))) = true ↔ SegmentBarred m op r := by
  simp only [SegmentBarred, Bool.and_eq_true, Bool.or_eq_true, decide_eq_true_eq]

theorem tileGone_iff : (!(tileOf m (tIdx r.address)).valid || decide ((tileOf m (tIdx r.address)).gen ≠ tGen r.address)) = true ↔ TileGone m r := by
  simp only [TileGone, Bool.or_eq_true, Bool.not_eq_true', decide_eq_true_eq]

theorem tileStop_barred (bad : SegmentBarred m op r) : tileStop m op r = .other stDenied := by
  rw [tileStop]
  exact if_pos (segmentBarred_iff.mpr bad)

variable (good : ¬ SegmentBarred m op r)
include good

theorem tileStop_gone (gone : TileGone m r) : tileStop m op r = .other stStale := by
  rw [tileStop]
  exact (if_neg (mt segmentBarred_iff.mp good)).trans (if_pos (tileGone_iff.mpr gone))

theorem tileStop_foreign (here : ¬ TileGone m r) (other : (tileOf m (tIdx r.address)).ctx ≠ r.ctx ∨ (tileOf m (tIdx r.address)).cgen ≠ r.gen) :
    tileStop m op r = .busy := by
  rw [tileStop]
  exact (if_neg (mt segmentBarred_iff.mp good)).trans ((if_neg (mt tileGone_iff.mp here)).trans (if_pos (by simpa using other)))

end

/-! ### The contribution queues (R212, R220) -/

section
variable {m : Mach}

/-- A block with longer contribution queues is at rest as it was. -/
theorem resting_redQs {qN qS : List QEnt} {n : Nat} (h : resting m = true) (north : m.red.qN ⊆ qN) (south : m.red.qS ⊆ qS) :
    resting { m with red := { m.red with qN := qN, qS := qS, nextEnt := n } } = true := by
  obtain ⟨k, l, w⟩ := (resting_iff m).mp h
  refine (resting_iff _).mpr ⟨⟨k.1, k.2, k.3, k.4, k.5, k.6, k.7, k.8, k.9, fun r hr => runRests_mono ?_ (k.10 r hr), k.11, k.12, k.13, k.14, k.15, k.16,
    k.17, k.18, k.19, k.20, k.21, k.22, k.23⟩, l, w⟩
  intro k hk
  simp only [unperformed, List.mem_map, List.mem_filter] at hk ⊢
  obtain ⟨y, ⟨hy, hc⟩, rfl⟩ := hk
  refine ⟨y, ⟨?_, hc⟩, rfl⟩
  simp only [underWay, List.mem_append, List.mem_filterMap] at hy ⊢
  exact hy.imp_left (Or.imp_left (Or.imp_left (Or.imp_right fun ⟨e, he, h⟩ => ⟨e, he.imp (north ·) (south ·), h⟩)))

theorem resting_pushEnt {st : Stop} {op : BitVec 6} {r : Req} {f : Option Nat} (h : resting m = true) : resting (pushEnt st op r f m) = true := by
  let e : QEnt := ⟨op, r, f, false, m.red.nextEnt⟩
  cases st
  · exact resting_redQs (m := m) (n := m.red.nextEnt + 1) (qN := m.red.qN ++ [e]) (qS := m.red.qS) h (List.subset_append_left _ _) (List.Subset.refl _)
  · exact resting_redQs (m := m) (n := m.red.nextEnt + 1) (qN := m.red.qN) (qS := m.red.qS ++ [e]) h (List.Subset.refl _) (List.subset_append_left _ _)

theorem tileOf_setRedQ (st : Stop) (q : List QEnt) (i : Nat) : tileOf (setRedQ st q m) i = tileOf m i := by cases st <;> rfl

theorem tileStop_setRedQ (st : Stop) (q : List QEnt) (op : BitVec 6) (r : Req) : tileStop (setRedQ st q m) op r = tileStop m op r := by
  cases st <;> rfl

theorem manifestStop_setRedQ (st : Stop) (q : List QEnt) (r : Req) : manifestStop (setRedQ st q m) r = manifestStop m r := by
  cases st <;> rfl

theorem sound_setRedQ {st : Stop} {q : List QEnt} (h : sound m = true) : sound (setRedQ st q m) = true := by
  cases st <;> exact h

/-- A queue replaced by itself. -/
theorem setRedQ_same {st : Stop} {q : List QEnt} (h : redQ m st = q) : setRedQ st q m = m := by
  subst h
  cases st <;> rfl

end

/-! ### A tile request at its landing (R220, R240, R255) -/

/-- What a request meets at the contribution queue of its tile's stop. -/
def tileMet (op : BitVec 6) (r : Req) (m : Mach) : Mach × Bool :=
  let st := tileStopOf (tIdx r.address)
  if 32 ≤ (redQ m st).length then (m, false)
  else if tileStop m op r = .pass then (pushEnt st op r none m, true)
  else (entryStop ⟨op, r, none, false, 0⟩ (tileStop m op r) m, true)

/-- What refuses a FOLD before its tile; no other form meets it. -/
def foldRefusal (fx : Fixed) (op : BitVec 6) (r : Req) : Option Bool := if isFold op r then foldStop fx r else none

section
variable {fx : Fixed} {op : BitVec 6} {r : Req} {m : Mach}

theorem serveDp_tile (unit : op = opTCONTRIB ∨ op = opTCONTRIBW ∨ op = opTFOLD) (t : Option Taken) : serveDp fx op r t m = serveTile fx op r m := by
  have apart : ∀ x : BitVec 6, x = opTCONTRIB ∨ x = opTCONTRIBW ∨ x = opTFOLD → x ≠ opPFHINT ∧ ¬ (x = opSIGNAL ∨ x = opWAIT) := by decide
  obtain ⟨hint, sync⟩ := apart op unit
  rw [serveDp, if_neg hint, if_neg sync, if_pos unit]

theorem gateFor_tile (unit : op = opTCONTRIB ∨ op = opTCONTRIBW ∨ op = opTFOLD) : gateFor fx op r m =
    gate op r (if berthHome fx m r.address then .ok else .mishomed) (if op = opTFOLD then foldFields r else contribFields m op r) (tileLevel fx op r) m := by
  have apart : ∀ x : BitVec 6, x = opTCONTRIB ∨ x = opTCONTRIBW ∨ x = opTFOLD → ¬ (x = opSIGNAL ∨ x = opWAIT) := by decide
  rw [gateFor, if_neg (apart op unit), if_pos unit]

/-- A contribution is none of the forms of TFOLD. -/
theorem contrib_forms (contrib : op = opTCONTRIB ∨ op = opTCONTRIBW) : isFold op r = false ∧ isSegment op r = false ∧ isAbort op r = false := by
  rcases contrib with rfl | rfl <;> exact ⟨rfl, rfl, rfl⟩

end

section
variable {s : State} {i : Instr} {op : BitVec 6} {r : Req} {m : Mach}
variable (b : Passes s i op r m) (unit : op = opTCONTRIB ∨ op = opTCONTRIBW ∨ op = opTFOLD) (ok : sound m = true) (up : awake m [dAcc 0] = true)
include b unit ok up

/-- What is left of a tile request that passes its checks: what refuses a FOLD, an ABORT's hop, and the queue. -/
theorem Passes.serveTile_eq : serveDp s.fx op r none m = (foldRefusal s.fx op r).elim
    (if isAbort op r then (serveAbort s.fx op r m, true) else tileMet op r m)
    fun counted => (if counted then deny r op m else answer r op stDenied m, true) := by
  have pass := b.passes
  rw [gateFor_tile unit] at pass
  rw [serveDp_tile unit, serveTile]
  dsimp only
  rw [pass]
  simp only [scanManifest_sound s.fx r ok, b.manifest, needDom_awake up (List.mem_singleton_self (dAcc 0)), Bool.and_true, if_true]
  rw [← foldRefusal]
  cases foldRefusal s.fx op r with
  | some counted => rfl
  | none =>
    rw [Option.elim_none, tileMet]
    dsimp only
    cases tileStop m op r <;> rfl

theorem Passes.foldRefused {counted : Bool} (h : foldRefusal s.fx op r = some counted) :
    exec i s = .next (s.put (if counted then deny r op m else answer r op stDenied m)) :=
  b.toLands.put (by rw [b.serveTile_eq unit ok up, h]; rfl) (resting_ite (resting_deny b.resting) (resting_answer b.resting))

variable (free : foldRefusal s.fx op r = none)
include free

theorem Passes.aborts (abort : isAbort op r = true) : exec i s = .next (s.after (serveAbort s.fx op r m)) :=
  b.toLands.after (by rw [b.serveTile_eq unit ok up, free, Option.elim_none, if_pos abort])

variable (form : isAbort op r = false)
include form

theorem Passes.serveTile_met : serveDp s.fx op r none m = tileMet op r m := by
  rw [b.serveTile_eq unit ok up, free, Option.elim_none, form, if_neg Bool.false_ne_true]

theorem Passes.tileFull (full : 32 ≤ (redQ m (tileStopOf (tIdx r.address))).length) : exec i s = .next (s.after (keepHeld r.stop (.dp op r none) m)) :=
  b.toLands.stays ((b.serveTile_met unit ok up free form).trans (if_pos full))

variable (room : (redQ m (tileStopOf (tIdx r.address))).length < 32)
include room

theorem Passes.tileQueued (pass : tileStop m op r = .pass) : exec i s = .next (s.put (pushEnt (tileStopOf (tIdx r.address)) op r none m)) :=
  b.toLands.put ((b.serveTile_met unit ok up free form).trans ((if_neg (Nat.not_le.mpr room)).trans (if_pos pass))) (resting_pushEnt b.resting)

/-- One that its tile stops is answered so, and none waits. -/
theorem Passes.serveTile_stopped {x : TStop} (stop : tileStop m op r = x) (no : x ≠ .pass) :
    serveDp s.fx op r none m = (entryStop ⟨op, r, none, false, 0⟩ x m, true) := by
  subst stop
  exact (b.serveTile_met unit ok up free form).trans ((if_neg (Nat.not_le.mpr room)).trans (if_neg no))

end

/-- What a request meets at its tile's queue, case by case (R218, R220). -/
theorem Passes.tileQueues {s : State} {i : Instr} {op : BitVec 6} {r : Req} {m : Mach} (b : Passes s i op r m)
    (unit : op = opTCONTRIB ∨ op = opTCONTRIBW ∨ op = opTFOLD) (ok : sound m = true) (up : awake m [dAcc 0] = true)
    (free : foldRefusal s.fx op r = none) (form : isAbort op r = false) :
    let st := tileStopOf (tIdx r.address)
    let room := (redQ m st).length < 32
    (room → tileStop m op r = .pass → exec i s = .next (s.put (pushEnt st op r none m))) ∧
    (room → tileStop m op r = .busy → exec i s = .next (s.put (countR 0x016 r (answer r op stDenied m)))) ∧
    (room → tileStop m op r = .late → exec i s = .next (s.after (countR 0x015 r (bumpLate (tIdx r.address) (answer r op stLate m))))) ∧
    (∀ x, room → tileStop m op r = .other x → exec i s = .next (s.put (answer r op x m))) ∧
    (32 ≤ (redQ m st).length → exec i s = .next (s.after (keepHeld r.stop (.dp op r none) m))) := by
  refine ⟨b.tileQueued unit ok up free form, fun room busy => ?_, fun room late => ?_, fun x room other => ?_, b.tileFull unit ok up free form⟩
  · exact b.toLands.put (b.serveTile_stopped unit ok up free form room busy (by decide)) (resting_countR (resting_answer b.resting))
  · exact b.toLands.after (b.serveTile_stopped unit ok up free form room late (by decide))
  · exact b.toLands.put (b.serveTile_stopped unit ok up free form room other (by simp)) (resting_answer b.resting)

/-! ### CONTRIB_ADMIT (R229) -/

section
variable {fx : Fixed} {m : Mach} {st : Stop} {e : QEnt}

theorem isContrib_iff : isContrib e = true ↔ e.opcode = opTCONTRIB ∨ e.opcode = opTCONTRIBW := by
  rw [isContrib, Bool.or_eq_true, decide_eq_true_eq, decide_eq_true_eq]

theorem admitBatch_empty (empty : redQ m st = []) : admitBatch fx st m = m := by
  rw [admitBatch, empty, startFolds, empty, nextBatch]
  exact setRedQ_same empty

/-- The one contribution of a queue, which nothing holds back, is a batch of its own. -/
theorem nextBatch_one (rest : resting m = true) (contrib : isContrib e = true) (free : foldWaits fx m e = false)
    (up : awake m (tileDoms (tileOf m (tIdx e.r.address))) = true) : nextBatch fx [] [e] m = (m, [e], []) := by
  have unheld : entryHeld fx m [] e = false := by
    rw [entryHeld, foldHolds_resting rest, free, List.any_nil]
    exact Bool.and_false _
  rw [nextBatch, (contrib_forms (isContrib_iff.mp contrib)).1, unheld, List.any_nil, if_neg (by decide), needDoms_awake up fun _ hi => hi]
  simp only [Bool.not_true, Bool.false_eq_true, if_false, gather, List.append_nil, ite_self]

theorem admitBatch_one (rest : resting m = true) (one : redQ m st = [e]) (contrib : isContrib e = true)
    (free : foldWaits fx m e = false) (up : awake m (tileDoms (tileOf m (tIdx e.r.address))) = true) :
    admitBatch fx st m = runBatch fx [e] (setRedQ st [] m) := by
  have unstarted : startFolds fx st [] [e] m = m := by
    rw [startFolds, (contrib_forms (isContrib_iff.mp contrib)).1, if_neg Bool.false_ne_true, startFolds]
  rw [admitBatch, one, unstarted, one, nextBatch_one rest contrib free up]

/-- One admitted contribution counted in flight to its buffer. -/
def oneAdmitted (e : QEnt) (m : Mach) : Mach :=
  let i := tIdx e.r.address
  let u := (tileOf m i).epoch
  countR 0x047 e.r (setTile i (setInfl u (bufInfl (tileOf m i) u + 1) (tileOf m i)) m)

/-- A contribution of no sector and no INIT passes the accumulate over: it is answered OK, and stores nothing. -/
theorem runBatch_bare (ok : sound m = true) (contrib : isContrib e = true) (ext : e.fold = none) (plain : tInit e.r.address = false)
    (sect : e.r.sect = 0) (manifest : manifestStop m e.r = none) (pass : tileStop m e.opcode e.r = .pass) :
    let i := tIdx e.r.address
    let u := (tileOf m i).epoch
    let n := oneAdmitted e m
    runBatch fx [e] m = answerOk e.r e.opcode (setTile i (setInfl u (bufInfl (tileOf n i) u - 1) (tileOf n i)) n) := by
  obtain ⟨-, segment, abort⟩ := contrib_forms (r := e.r) (isContrib_iff.mp contrib)
  have admitted : [e].foldl (admitMember fx) (m, []) = (m, [e]) := by
    simp [admitMember, scanManifest_sound fx e.r ok, manifest, abort, pass]
  rw [runBatch, admitted]
  simp [sect, plain, segment, ext, retireEntry, oneAdmitted]

end

/-! ### The adders of a SUM_I32 tile (R221, R225) -/

/-- What leaves an adder of a SUM_I32 tile, nothing counting as 0, is a sum modulo 2^32, with no overflow. -/
def SumsTo (v : Option Nat × Bool) (n : Nat) : Prop := v.2 = false ∧ v.1.getD 0 ≡ n [MOD 2 ^ 32]

theorem SumsTo.tAdd {a b : Option Nat × Bool} {x y : Nat} (ha : SumsTo a x) (hb : SumsTo b y) : SumsTo (tAdd 3 a b) (x + y) := by
  obtain ⟨a, o⟩ := a
  obtain ⟨b, o'⟩ := b
  obtain ⟨rfl, hu⟩ := ha
  obtain ⟨rfl, hv⟩ := hb
  have sum := hu.add hv
  cases a with
  | none => exact ⟨by cases b <;> rfl, by simpa [Machine.tAdd] using sum⟩
  | some u =>
    cases b with
    | none => exact ⟨rfl, sum⟩
    | some v => exact ⟨rfl, (Nat.mod_modEq _ _).trans sum⟩

/-- An adder gives something where either input is present. -/
theorem tAdd_isSome (a b : Option Nat × Bool) : (tAdd 3 a b).1.isSome = (a.1.isSome || b.1.isSome) := by
  obtain ⟨a, o⟩ := a
  obtain ⟨b, o'⟩ := b
  cases a <;> cases b <;> rfl

section
variable {p : Nat → Option Nat}

theorem tree8_isSome : (tree8 3 fun j => (p j, false)).1.isSome = (List.range 8).any fun j => (p j).isSome := by
  simp [tree8, tAdd_isSome, List.range_succ, Bool.or_assoc]

/-- The tree with nothing present gives nothing. -/
theorem tree8_absent (absent : ∀ j, j < 8 → p j = none) : (tree8 3 fun j => (p j, false)).1 = none := by
  rw [← Option.not_isSome_iff_eq_none, tree8_isSome]
  simpa using absent

/-- The tree adds what is present. -/
theorem tree8_sums : SumsTo (tree8 3 fun j => (p j, false)) ((List.range 8).map fun j => (p j).getD 0).sum := by
  have slot : ∀ j, SumsTo (p j, false) ((p j).getD 0) := fun j => ⟨rfl, rfl⟩
  have tree := (((slot 0).tAdd (slot 1)).tAdd ((slot 2).tAdd (slot 3))).tAdd (((slot 4).tAdd (slot 5)).tAdd ((slot 6).tAdd (slot 7)))
  simpa [tree8, List.range_succ, Nat.add_assoc] using tree

/-- With anything present it gives a number. -/
theorem tree8_present {j : Nat} (hj : j < 8) (present : p j ≠ none) : ∃ x, (tree8 3 fun j => (p j, false)).1 = some x := by
  rw [← Option.isSome_iff_exists, tree8_isSome, List.any_eq_true]
  exact ⟨j, List.mem_range.mpr hj, Option.isSome_iff_ne_none.mpr present⟩

end

theorem accum_absent (stored : Nat) : accum 3 false none stored none = (stored, false) := rfl

theorem accum_present {x n : Nat} (h : x ≡ n [MOD 2 ^ 32]) (stored : Nat) : accum 3 false none stored (some x) = ((stored + n) % 2 ^ 32, false) :=
  congrArg (·, false) (h.add_left stored)

/-! ### The obligation -/

/-- Settles O40: the requests in the order of the statement, then the admission, then the adders. -/
theorem tileRequests : Obligations.TileRequests := by
  refine ⟨fun s i op r m b ok up => ?requests, fun s st rest => ?admission, fun p stored => ?adders⟩
  case requests =>
    refine ⟨fun contrib => ?contrib, fun p segment => ?segment, fun p fold => ?fold, fun p abort => ?abort, tileStop_barred,
      fun good gone => tileStop_gone good gone, fun good valid gen other => tileStop_foreign good (by simp [valid, gen]) other⟩
    case contrib =>
      have unit : op = opTCONTRIB ∨ op = opTCONTRIBW := by
        rcases contrib with rfl | rfl
        · exact .inl (Prod.mk.inj (Option.some.inj b.row)).1.symm
        · exact .inr (Prod.mk.inj (Option.some.inj b.row)).1.symm
      obtain ⟨nofold, -, noabort⟩ := contrib_forms (r := r) unit
      exact b.tileQueues (unit.imp_right .inl) ok up (by rw [foldRefusal, nofold]; rfl) noabort
    case segment =>
      subst segment
      obtain ⟨rfl, rfl⟩ := Prod.mk.inj (Option.some.inj b.row)
      exact b.tileQueues (.inr (.inr rfl)) ok up rfl rfl
    case fold =>
      subst fold
      obtain ⟨rfl, rfl⟩ := Prod.mk.inj (Option.some.inj b.row)
      exact ⟨fun bad => b.foldRefused (.inr (.inr rfl)) ok up bad, fun own => b.foldRefused (.inr (.inr rfl)) ok up own,
        fun free => b.tileQueues (.inr (.inr rfl)) ok up free rfl⟩
    case abort =>
      subst abort
      obtain ⟨rfl, rfl⟩ := Prod.mk.inj (Option.some.inj b.row)
      have aborts := b.aborts (.inr (.inr rfl)) ok up rfl rfl
      rw [serveAbort] at aborts
      refine ⟨fun j cause hop => ?_, fun none_ => ?_⟩
      · rw [aborts, hop]
      · rw [aborts, none_, after_resting (resting_answer b.resting)]
  case admission =>
    have goes : ∀ {m}, admitBatch s.fx st s.m = m → exec (.contribAdmit st) s = .next (s.after m) :=
      fun e => (row_contribAdmit ..).trans (actM_goes e)
    refine ⟨fun empty => (goes (admitBatch_empty empty)).trans (by rw [after_resting rest]), fun e one contrib ext free plain up => ?_⟩
    have admits := admitBatch_one rest one contrib free up
    refine ⟨goes admits, fun sect ok manifest pass => goes (admits.trans ?_)⟩
    have bare := runBatch_bare (fx := s.fx) (m := setRedQ st [] s.m) (sound_setRedQ ok) contrib ext plain sect
      ((manifestStop_setRedQ ..).trans manifest) ((tileStop_setRedQ ..).trans pass)
    simp only [oneAdmitted, tileOf_setRedQ] at bare
    exact bare
  case adders =>
    intro sum t
    refine ⟨fun absent => ?_, fun j hj present => ?_⟩
    · rw [show t.1 = none from tree8_absent absent]
      exact accum_absent stored
    · obtain ⟨exact_, sums⟩ : SumsTo t sum := tree8_sums
      obtain ⟨x, hx⟩ : ∃ x, t.1 = some x := tree8_present hj present
      rw [hx] at sums ⊢
      exact ⟨exact_, accum_present sums stored, x, rfl, sums⟩

end Sys2Proof.Machine
end

section
/-! SUPPORT. TOWLINE_SET and SCATTER_DESC (08_towlines_and_line_reductions.md R247; 09_sparse_data.md R279, R280, R284): which each refuses, and
what it leaves. -/

namespace Sys2Proof.Machine

/-! ### A hop record written -/

theorem hopOf_setHop_same {m : Mach} {j : Nat} {h : Hop} (bound : h ≠ .free) : hopOf (setHop j h m) j = h := tget_tset_ne _ _ _ _ bound

theorem hopOf_setHop_other {m : Mach} {j k : Nat} {h : Hop} (bound : h ≠ .free) (other : k ≠ j) : hopOf (setHop j h m) k = hopOf m k :=
  tget_tset_other _ _ _ _ _ bound other

/-- A bound hop that does not go on leaves a block at rest so. -/
theorem resting_setHop {m : Mach} {j : Nat} {h : Hop} (rest : resting m = true) (bound : h ≠ .free) (still : hopRests h = true) :
    resting (setHop j h m) = true := by
  obtain ⟨k, l, w⟩ := (resting_iff m).mp rest
  refine (resting_iff _).mpr ⟨⟨k.1, k.2, k.3, k.4, k.5, k.6, k.7, k.8, k.9, k.10, k.11, k.12, k.13, k.14, ?hops, k.16, k.17, k.18, k.19, k.20,
    k.21, k.22, k.23⟩, l, w⟩
  intro x hx
  by_cases here : x.1 = j
  · rw [here, hopOf_setHop_same bound, still]
  · rw [hopOf_setHop_other bound here]
    rcases mem_tset hx with old | new
    · exact k.hops x old
    · exact absurd (congrArg Prod.fst new) here

/-! ### TOWLINE_SET (08 R247) -/

/-- The first of the checks of R247 that a TOWLINE_SET fails. -/
def towSetStop (fx : Fixed) (c : Rec) (m : Mach) : Option Nat :=
  let i := tIdx c.pkt.p0
  let t := tileOf m i
  let hop := fld c.pkt.p3 13 8
  let last := fld c.pkt.p3 5 0
  firstStop [tileCmdStop fx m c.pkt.p0, stopIf (tileForeign m c c.pkt.p0) csTileBusy,
    stopIf (t.st ≠ .opened || t.dbuf || (hopOfTile m i t.gen).isSome || decide (last < hop) ||
      (decide (c.pkt.p2 = 0) != decide (hop = 0)) || (decide (c.pkt.p1 = 0) != decide (hop = last)) || !towBare c) csBadParam,
    stopIf (fqPeek 1024 m.red.hopQ).isNone csNoSpace]

/-- The hop record that a TOWLINE_SET writes. -/
def hopAsked (c : Rec) (m : Mach) : Hop :=
  let i := tIdx c.pkt.p0
  { Hop.free with
    valid := true, hop := BitVec.ofNat 6 (fld c.pkt.p3 13 8), last := BitVec.ofNat 6 (fld c.pkt.p3 5 0), tile := BitVec.ofNat 13 i
    tgen := (tileOf m i).gen, next := c.pkt.p1, prev := c.pkt.p2, chain := BitVec.ofNat 32 (fld c.pkt.p3 63 32) }

/-- The block with the tile bound by the record at an index, which the free indices lose. -/
def hopBound (c : Rec) (j : Nat) (m : Mach) : Mach :=
  setHop j (hopAsked c m) { m with red := { m.red with hopQ := fqPop 1024 m.red.hopQ } }

/-- The first of the checks that a TOWLINE_SET with RELEASE fails before it looks for the tile's hop. -/
def towReleaseStop (fx : Fixed) (c : Rec) (m : Mach) : Option Nat :=
  firstStop [tileCmdStop fx m c.pkt.p0, stopIf (tileForeign m c c.pkt.p0) csTileBusy]

section
variable {fx : Fixed} {c : Rec} {m : Mach} {st j : Nat}

theorem hopAsked_bound : hopAsked c m ≠ .free := fun free => Bool.noConfusion (show true = false from congrArg Hop.valid free)

theorem resting_hopBound (rest : resting m = true) : resting (hopBound c j m) = true :=
  resting_setHop (by exact rest) hopAsked_bound rfl

theorem cmdTowSet_stops (stop : towSetStop fx c m = some st) : cmdTowSet fx c m = complete fx c st [] m := by
  rw [towSetStop] at stop
  rw [cmdTowSet]
  dsimp only at stop ⊢
  rw [stop]

theorem cmdTowSet_binds (stop : towSetStop fx c m = none) (next : fqPeek 1024 m.red.hopQ = some j) :
    cmdTowSet fx c m = complete fx c csDone [BitVec.ofNat 64 j] (hopBound c j m) := by
  rw [towSetStop] at stop
  rw [cmdTowSet]
  dsimp only at stop ⊢
  rw [stop, next]
  rfl

theorem cmdTowRelease_stops (stop : towReleaseStop fx c m = some st) : cmdTowRelease fx c m = complete fx c st [] m := by
  rw [towReleaseStop] at stop
  rw [cmdTowRelease, stop]

/-- Past its checks a release goes by the tile's hop, and by whether that has taken its cut-off. -/
theorem cmdTowRelease_passes (stop : towReleaseStop fx c m = none) : cmdTowRelease fx c m =
    (hopOfTile m (tIdx c.pkt.p0) (tileOf m (tIdx c.pkt.p0)).gen).elim (complete fx c csBadParam [] m) fun j =>
      if (hopOf m j).cut then complete fx c csBusy [] m else complete fx c csDone [] (freeHop j m) := by
  rw [towReleaseStop] at stop
  rw [cmdTowRelease, stop]
  cases hopOfTile m (tIdx c.pkt.p0) (tileOf m (tIdx c.pkt.p0)).gen <;> rfl

end

/-! ### SCATTER_DESC that creates (09 R279) -/

/-- The index that a creation takes: the requested one, if it is free, or the next free one. -/
def scatPlace (c : Rec) (m : Mach) : Option Nat :=
  if cFlag c 2 then (if fqFree m.sparse.scatQ (fld c.pkt.p2 7 0) then some (fld c.pkt.p2 7 0) else none) else fqPeek 256 m.sparse.scatQ

/-- The block with the new descriptor written at an index (09 Table SPARSE-8). -/
def scatCreated (c : Rec) (k : Nat) (m : Mach) : Mach :=
  setScat k
    { valid := true, op := BitVec.ofNat 2 (fld c.pkt.p1 3 2), gen := (scatOf m k).gen, ctx := cCtx c, cgen := cGen c
      scale := BitVec.ofNat 32 (fld c.pkt.p2 63 32), table := c.pkt.p0, rows := BitVec.ofNat 32 (fld c.pkt.p1 63 32)
      stride := BitVec.ofNat 16 (fld c.pkt.p1 31 16), rowlines := BitVec.ofNat 12 (fld c.pkt.p1 15 4), applied := 0, refused := 0 }
    { m with sparse := { m.sparse with scatQ := if cFlag c 2 then fqTake k m.sparse.scatQ else fqPop 256 m.sparse.scatQ } }

section
variable {fx : Fixed} {c : Rec} {m : Mach}

theorem resting_scatCreated {k : Nat} (rest : resting m = true) : resting (scatCreated c k m) = true := resting_setScat (by exact rest)

theorem cmdScatCreate_abroad (no : m.regs.lv = false) : cmdScatCreate fx c m = complete fx c csMishomed [] m := by
  rw [cmdScatCreate]
  exact if_pos (by rw [no]; rfl)

variable (home : m.regs.lv = true)
include home

theorem cmdScatCreate_bad (bad : scatBad fx m c = true) : cmdScatCreate fx c m = complete fx c csBadParam [] m := by
  rw [cmdScatCreate]
  dsimp only
  rw [if_neg (by rw [home]; decide), if_pos bad]

/-- With its fields in order it takes an index, where there is one. -/
theorem cmdScatCreate_good (good : scatBad fx m c = false) : cmdScatCreate fx c m =
    (scatPlace c m).elim (complete fx c csNoSpace [] m) fun k =>
      complete fx c csDone [BitVec.ofNat 64 ((scatOf m k).gen.toNat * 256 + k)] (scatCreated c k m) := by
  rw [cmdScatCreate]
  dsimp only
  rw [if_neg (by rw [home]; decide), if_neg (ne_true_of_eq_false good), scatPlace]
  split <;> rename_i e <;> rw [e] <;> rfl

end

/-! ### SCATTER_DESC with RELEASE and with QUERY (09 R280, R284) -/

/-- A descriptor as its release leaves it until its requests have been answered: under the next generation. -/
def scatReleased (k : Nat) (m : Mach) : Mach := setScat k { scatOf m k with valid := false, gen := (scatOf m k).gen + 1 } m

section
variable {fx : Fixed} {c : Rec} {m : Mach} {k : Nat}

theorem resting_dropScat {g : Gen} (rest : resting m = true) : resting (dropScat k g m) = true := rest

theorem dropScat_runOn {g : Gen} {p : Prog} : dropScat k g (runOn c p m) = runOn c p (dropScat k g m) := rfl

/-- A descriptor with rows is read back as its release leaves it. -/
theorem scatOf_scatReleased (rows : (scatOf m k).rows ≠ 0) :
    scatOf (scatReleased k m) k = { scatOf m k with valid := false, gen := (scatOf m k).gen + 1 } :=
  tget_tset_ne _ _ _ _ fun free => rows (congrArg Scatter.rows free)

theorem heldScat_index (held : heldScat m c = some k) : fld c.pkt.p0 7 0 = k := by
  rw [heldScat] at held
  exact Option.some.inj (Option.ite_none_right_eq_some.mp held).2

theorem cmdScatRelease_stale (none_ : heldScat m c = none) : cmdScatRelease fx c m = complete fx c csStale [] m := by
  rw [cmdScatRelease, none_]

theorem cmdScatRelease_waits (held : heldScat m c = some k) :
    cmdScatRelease fx c m = pumpScat fx c (runOn c (.drainRefs 0) (scatReleased k m)) := by
  rw [cmdScatRelease, held]
  rfl

/-- With no request out the release ends as it starts, and frees the index under the next generation. -/
theorem cmdScatRelease_frees (held : heldScat m c = some k) (rows : (scatOf m k).rows ≠ 0) (idle : scatOut m k = false) :
    cmdScatRelease fx c m = complete fx c csDone [(scatOf m k).applied.zeroExtend 64]
      (dropScat k ((scatOf m k).gen + 1) (scatReleased k m)) := by
  have idle' : scatOut (runOn c (.drainRefs 0) (scatReleased k m)) k = false := idle
  have record : scatOf (runOn c (.drainRefs 0) (scatReleased k m)) k = _ := scatOf_scatReleased rows
  rw [cmdScatRelease_waits held, pumpScat, heldScat_index held]
  simp only [idle', Bool.false_eq_true, if_false, record, dropScat_runOn, complete_runOn]

theorem cmdScatQuery_stale (none_ : heldScat m c = none) : cmdScatQuery fx c m = complete fx c csStale [] m := by
  rw [cmdScatQuery, none_]

/-- A query of a lost descriptor is DENIED; another answers the descriptor's words. -/
theorem cmdScatQuery_held (held : heldScat m c = some k) : cmdScatQuery fx c m =
    if lostObj m 3 k then complete fx c csDenied [] m else complete fx c csDone (scatWords (scatOf m k)) m := by
  rw [cmdScatQuery, held]

end

/-! ### The obligation -/

/-- Settles O23, command by command: each completes as it starts, with what its checks allow. -/
theorem towlineAndScatterCommands : Obligations.TowlineAndScatterCommands := by
  intro s p c m ends a i t
  refine ⟨fun b plain => ?set, fun b => ?release, fun pass j hop cut => ?busy, fun b plain noquery => ?create,
    fun b => ?free, fun b plain => ?query⟩
  case set =>
    have start : startCmd s.fx c false m = cmdTowSet s.fx c m := (start_towlineSet b).trans (if_neg (ne_true_of_eq_false plain))
    exact ⟨fun st stop => begins_completes b (start.trans (cmdTowSet_stops stop)) b.resting,
      fun j pass next => begins_completes b (start.trans (cmdTowSet_binds pass next)) (resting_hopBound b.resting)⟩
  case release =>
    have start := start_towlineRelease b
    refine ⟨fun st stop => begins_completes b (start.trans (cmdTowRelease_stops stop)) b.resting,
      fun pass => ⟨fun unbound => begins_completes b (start.trans ?_) b.resting,
        fun j hop whole rest => begins_completes b (start.trans ?_) rest⟩⟩
    · rw [cmdTowRelease_passes pass, unbound, Option.elim_none]
    · rw [cmdTowRelease_passes pass, hop, Option.elim_some, if_neg (ne_true_of_eq_false whole)]
  case busy => rw [cmdTowRelease_passes pass, hop, Option.elim_some, if_pos cut]
  case create =>
    have start : startCmd s.fx c false m = cmdScatCreate s.fx c m := (start_scatterDescCreate b).trans
      ((if_neg (ne_true_of_eq_false plain)).trans (if_neg (ne_true_of_eq_false noquery)))
    refine ⟨fun abroad => begins_completes b (start.trans (cmdScatCreate_abroad abroad)) b.resting,
      fun home bad => begins_completes b (start.trans (cmdScatCreate_bad home bad)) b.resting,
      fun home good full => begins_completes b (start.trans ?_) b.resting,
      fun k home good found => begins_completes b (start.trans ?_) (resting_scatCreated b.resting)⟩
    · rw [cmdScatCreate_good home good, show scatPlace c m = none from full, Option.elim_none]
    · rw [cmdScatCreate_good home good, show scatPlace c m = some k from found, Option.elim_some]
      rfl
  case free =>
    have start := start_scatterDescRelease b
    exact ⟨fun none_ => begins_completes b (start.trans (cmdScatRelease_stale none_)) b.resting,
      fun k held rows idle => begins_completes b (start.trans (cmdScatRelease_frees held rows idle))
        (resting_dropScat (resting_setScat b.resting))⟩
  case query =>
    have start : startCmd s.fx c false m = cmdScatQuery s.fx c m := (start_scatterDescQuery b).trans (if_neg (ne_true_of_eq_false plain))
    refine ⟨fun none_ => begins_completes b (start.trans (cmdScatQuery_stale none_)) b.resting, fun k held => ?_⟩
    have reads := start.trans (cmdScatQuery_held held)
    exact ⟨fun lost => begins_completes b (reads.trans (if_pos lost)) b.resting,
      fun whole => begins_completes b (reads.trans (if_neg (ne_true_of_eq_false whole))) b.resting⟩

end Sys2Proof.Machine
end

section
/-! SUPPORT. A page as a list of its nonzero sectors, and the lines of its packed form (09_sparse_data.md R263, R264, R276 step 5). -/

namespace Sys2Proof.Machine

/-! ### Digits and bits of a sum -/

/-- A number of n digits in base B lies below B^n. -/
theorem sum_digits_lt {B : Nat} {a : Nat → Nat} (small : ∀ i, a i < B) (n : Nat) :
    ((List.range n).map fun i => a i * B ^ i).sum < B ^ n := by
  induction n with
  | zero => simp
  | succ n ih =>
    rw [List.range_succ, List.map_append, List.sum_append, List.map_singleton, List.sum_singleton]
    calc _ < B ^ n + a n * B ^ n := by omega
      _ = (a n + 1) * B ^ n := by ring
      _ ≤ B * B ^ n := Nat.mul_le_mul_right _ (small n)
      _ = B ^ (n + 1) := by ring

/-- Each digit can be read back. -/
theorem sum_digits_digit {B : Nat} {a : Nat → Nat} (small : ∀ i, a i < B) {n i : Nat} (h : i < n) :
    ((List.range n).map fun i => a i * B ^ i).sum / B ^ i % B = a i := by
  have pos : 0 < B ^ i := Nat.pow_pos (Nat.zero_lt_of_lt (small 0))
  induction n with
  | zero => omega
  | succ n ih =>
    rw [List.range_succ, List.map_append, List.sum_append, List.map_singleton, List.sum_singleton]
    obtain lower | rfl := Nat.lt_succ_iff_lt_or_eq.mp h
    · have higher : B ^ n = B ^ i * (B * B ^ (n - (i + 1))) := by rw [← pow_succ', ← pow_add]; congr 1; omega
      rw [higher, Nat.mul_left_comm, Nat.mul_left_comm (a n), Nat.add_mul_div_left _ _ pos, Nat.add_mul_mod_self_left, ih lower]
    · rw [Nat.add_mul_div_right _ _ pos, Nat.div_eq_of_lt (sum_digits_lt small i), Nat.zero_add, Nat.mod_eq_of_lt (small i)]

/-- Some bits of a number, as a number. -/
theorem extract_ofNat {n x : Nat} (fits : x < 2 ^ n) (k w : Nat) : ((BitVec.ofNat n x).extractLsb' k w).toNat = x / 2 ^ k % 2 ^ w := by
  rw [BitVec.extractLsb'_toNat, BitVec.toNat_ofNat, Nat.mod_eq_of_lt fits, Nat.shiftRight_eq_div_pow]

/-- The bits of a sum of powers of two whose exponents rise. -/
theorem testBit_sum_two_pow {l : List Nat} (rising : l.Pairwise (· < ·)) (k : Nat) :
    (l.map fun i => 2 ^ i).sum.testBit k = decide (k ∈ l) := by
  have bits := Nat.bitIndices_sum_map_two_pow rising.sortedLT
  rw [Bool.eq_iff_iff, decide_eq_true_iff, ← Nat.mem_bitIndices, bits]

/-! ### The nonzero sectors of a page -/

section
variable {g : Nat} {buf : List (LineNo × Line × Bool)}

/-- A line of a page as read. -/
def lineRead (buf : List (LineNo × Line × Bool)) (g i : Nat) : Line := ((buf.find? fun x => x.1.toNat = g * 32 + i).map (·.2.1)).getD 0

/-- A sector of a page as read. -/
def sectorRead (buf : List (LineNo × Line × Bool)) (g k : Nat) : BitVec 256 := sector (lineRead buf g (k / 4)) (k % 4)

theorem pageSectors_eq : pageSectors buf g =
    (List.range 128).filterMap fun k => if sectorRead buf g k = 0 then none else some (k, sectorRead buf g k) := by
  rw [pageSectors]
  congr 1
  funext k
  rw [sectorRead, lineRead]
  cases buf.find? fun (x : LineNo × Line × Bool) => decide (x.1.toNat = g * 32 + k / 4) <;> rfl

/-- They are listed in ascending order. -/
theorem pageSectors_rise : (pageSectors buf g).Pairwise (fun x y => x.1 < y.1) := by
  rw [pageSectors_eq, List.pairwise_filterMap]
  refine List.pairwise_lt_range.imp ?_
  intro i j lt x hx y hy
  simp only [Option.ite_none_left_eq_some, Option.some.injEq] at hx hy
  obtain ⟨-, rfl⟩ := hx
  obtain ⟨-, rfl⟩ := hy
  exact lt

/-- Those that are not zero are listed, and no others. -/
theorem mem_pageSectors {k : Nat} {d : BitVec 256} : (k, d) ∈ pageSectors buf g ↔ k < 128 ∧ d ≠ 0 ∧ d = sectorRead buf g k := by
  simp only [pageSectors_eq, List.mem_filterMap, List.mem_range, Option.ite_none_left_eq_some, Option.some.injEq, Prod.mk.injEq]
  constructor
  · rintro ⟨i, lt, nonzero, rfl, rfl⟩
    exact ⟨lt, nonzero, rfl⟩
  · rintro ⟨lt, nonzero, rfl⟩
    exact ⟨k, lt, nonzero, rfl, rfl⟩

/-- The numbers of the nonzero sectors rise, and are below 128. -/
theorem pageSectors_numbers : ((pageSectors buf g).map (·.1)).Pairwise (· < ·) := List.pairwise_map.mpr pageSectors_rise

theorem pageSectors_below {k : Nat} (h : k ∈ (pageSectors buf g).map (·.1)) : k < 128 := by
  obtain ⟨⟨j, d⟩, mem, rfl⟩ := List.mem_map.mp h
  exact (mem_pageSectors.mp mem).1

theorem pageSectors_length : (pageSectors buf g).length ≤ 128 := by
  rw [pageSectors_eq]
  exact (List.length_filterMap_le _ _).trans (by rw [List.length_range])

/-! ### The header (Table SPARSE-1) -/

/-- The header's BITMAP as a number. -/
theorem bitmap_testBit (k : Nat) :
    ((pageSectors buf g).map fun (x : Nat × BitVec 256) => 2 ^ x.1).sum.testBit k = decide (k ∈ (pageSectors buf g).map (·.1)) := by
  rw [← testBit_sum_two_pow pageSectors_numbers, List.map_map]
  rfl

theorem bitmap_lt : ((pageSectors buf g).map fun (x : Nat × BitVec 256) => 2 ^ x.1).sum < 2 ^ 128 := by
  refine Nat.lt_pow_two_of_testBit _ fun k above => ?_
  rw [bitmap_testBit, decide_eq_false_iff_not]
  exact fun mem => absurd (pageSectors_below mem) (by omega)

/-- BITMAP has a bit for each nonzero sector. -/
theorem headerLine_bitmap {k : Nat} (h : k < 128) :
    (headerLine (pageSectors buf g)).getLsbD k = decide (k ∈ (pageSectors buf g).map (·.1)) := by
  have fields : ∀ b n : Nat, b + n * 2 ^ 128 + 2 ^ 144 = 2 ^ 128 * (n + 2 ^ 16) + b := fun b n => by ring
  rw [headerLine, BitVec.getLsbD_ofNat, fields, Nat.testBit_two_pow_mul_add _ bitmap_lt, if_pos h, bitmap_testBit,
    decide_eq_true (by omega), Bool.true_and]

/-- COUNT is their number. -/
theorem headerLine_count : ((headerLine (pageSectors buf g)).extractLsb' 128 16).toNat = (pageSectors buf g).length := by
  have bitmap := bitmap_lt (buf := buf) (g := g)
  have few := pageSectors_length (buf := buf) (g := g)
  rw [headerLine, BitVec.extractLsb'_toNat, BitVec.toNat_ofNat, Nat.shiftRight_eq_div_pow]
  omega

end

/-! ### The packed lines -/

/-- What slot i of packed line q holds, as a number. -/
def packedSlot (ss : List (Nat × BitVec 256)) (q i : Nat) : Nat := ((((ss.drop (4 * q)).take 4)[i]?).map (·.2.toNat)).getD 0

theorem packedLine_data (ss : List (Nat × BitVec 256)) (q : Nat) :
    (packedLine ss q).1 = BitVec.ofNat 1024 (((List.range 4).map fun i => packedSlot ss q i * (2 ^ 256) ^ i).sum) := by
  simp only [← pow_mul]
  rfl

theorem packedSlot_lt (ss : List (Nat × BitVec 256)) (q i : Nat) : packedSlot ss q i < 2 ^ 256 := by
  rw [packedSlot]
  cases ((ss.drop (4 * q)).take 4)[i]? with
  | none => exact Nat.two_pow_pos 256
  | some y => exact y.2.isLt

/-- A slot of a packed line is read back. -/
theorem sector_packedLine (ss : List (Nat × BitVec 256)) (q : Nat) {i : Nat} (h : i < 4) :
    (sector (packedLine ss q).1 i).toNat = packedSlot ss q i := by
  have fits : ((List.range 4).map fun i => packedSlot ss q i * (2 ^ 256) ^ i).sum < 2 ^ (256 * 4) := by
    rw [pow_mul]
    exact sum_digits_lt (packedSlot_lt ss q) 4
  rw [sector, packedLine_data, extract_ofNat (n := 256 * 4) fits, pow_mul, sum_digits_digit (packedSlot_lt ss q) h]

/-- The j-th nonzero sector stands in slot j mod 4 of packed line j / 4. -/
theorem sector_packedLine_rank {ss : List (Nat × BitVec 256)} {j : Nat} {x : Nat × BitVec 256} (h : ss[j]? = some x) :
    sector (packedLine ss (j / 4)).1 (j % 4) = x.2 := by
  have low : j % 4 < 4 := Nat.mod_lt _ (by decide)
  apply BitVec.eq_of_toNat_eq
  rw [sector_packedLine _ _ low, packedSlot, List.getElem?_take_of_lt low, List.getElem?_drop, Nat.div_add_mod, h]
  rfl

/-! ### The writes of a page's new form (R276 step 5) -/

section
variable (g : Nat) (buf : List (LineNo × Line × Bool))

theorem pageWrites_pack_lines : (pageWrites true g buf).map (·.line) =
    (List.range (((pageSectors buf g).length + 3) / 4)).map (fun j => BitVec.ofNat 28 (g * 32 + 1 + j)) ++ [BitVec.ofNat 28 (g * 32)] := by
  rw [pageWrites, if_pos rfl, List.map_append, List.map_map]
  rfl

theorem pageWrites_unpack_lines : (pageWrites false g buf).map (·.line) =
    ((List.range 31).map fun i => BitVec.ofNat 28 (g * 32 + (i + 1))) ++ [BitVec.ofNat 28 (g * 32)] := by
  rw [pageWrites, if_neg Bool.false_ne_true, List.map_map, List.map_append, List.map_map]
  rfl

/-- An unpack writes each line of the page dense, as it was read. -/
theorem pageWrites_unpack_dense {i : Nat} (h : i < 32) : ∃ x ∈ pageWrites false g buf, x.line = BitVec.ofNat 28 (g * 32 + i) ∧ x.fmt = 0 ∧
    (x.data, x.poison) = ((buf.find? fun y => y.1.toNat = g * 32 + i).map (·.2)).getD (0, false) := by
  have named : i ∈ (List.range 31).map (· + 1) ++ [0] := by
    simp only [List.mem_append, List.mem_map, List.mem_range, List.mem_singleton]
    cases i with
    | zero => exact .inr rfl
    | succ i => exact .inl ⟨i, by omega, rfl⟩
  rw [pageWrites, if_neg Bool.false_ne_true]
  refine ⟨_, List.mem_map.mpr ⟨i, named, rfl⟩, rfl, rfl, ?_⟩
  cases buf.find? fun y => decide (y.1.toNat = g * 32 + i) <;> rfl

end

end Sys2Proof.Machine
end

section
/-! SUPPORT. What one step of a pack or an unpack leaves: the map word and the page header in their caches, and the page's tags
(09_sparse_data.md R269, R276 steps 4 to 7). -/

namespace Sys2Proof.Machine

/-! ### The caches of the map words and of the page headers -/

section
variable {α : Type} {k : Nat} {a : α} {l t : List (Nat × α)}

/-- An entry found stays to be found. -/
theorem lruFind_front (h : lruFind k l = some (a, t)) : t ≠ [] ∧ (lruFind k t).map (·.1) = some a := by
  rw [lruFind] at h
  cases found : l.find? (·.1 = k) with
  | none => simp [found] at h
  | some e =>
    rw [found] at h
    cases h
    have key : e.1 = k := by simpa using List.find?_some found
    exact ⟨List.cons_ne_nil _ _, by rw [lruFind, List.find?_cons_of_pos (by simpa using key)]; rfl⟩

/-- An entry put is found. -/
theorem lruFind_lruPut (k : Nat) (a : α) (l : List (Nat × α)) : (lruFind k (lruPut k a l)).map (·.1) = some a := by
  rw [lruFind, lruPut, List.take_succ_cons, List.find?_cons_of_pos (by simp)]
  rfl

theorem lruPut_ne_nil (k : Nat) (a : α) (l : List (Nat × α)) : lruPut k a l ≠ [] := List.cons_ne_nil _ _

end

/-- The map word of a granule, if the format cache holds it. -/
def cachedWord (g : Nat) (m : Mach) : Option W64 := (lruFind (g / 64) (tget [] m.sparse.fcache (g / 64 % 256))).map (·.1)

/-- A map word with a granule's bit set by a pack, cleared by an unpack. -/
def movedWord (pack : Bool) (g : Nat) (v : W64) : W64 := if pack then v ||| ((1 : W64) <<< (g % 64)) else v &&& ~~~((1 : W64) <<< (g % 64))

section
variable {fx : Fixed} {g : Nat} {m : Mach} {v : W64}

theorem mapWordOf_eq (pack : Bool) : mapWordOf g pack m = (cachedWord g m).map (movedWord pack g) := by
  rw [cachedWord, Option.map_map]
  rfl

theorem cachedWord_fcachePut (v : W64) : cachedWord g (fcachePut (g / 64) v m) = some v := by
  rw [cachedWord, fcachePut]
  simp only [tget_tset_ne _ _ _ _ (lruPut_ne_nil _ _ _), lruFind_lruPut]

/-- With the word at hand, a look-up needs nothing. -/
theorem mapReady_cached (h : cachedWord g m = some v) : mapReady fx g m = (m, true) := by
  have here : (lruFind (g / 64) (tget [] m.sparse.fcache (g / 64 % 256))).isSome = true := by
    rw [← Option.isSome_map, show Option.map _ _ = some v from h]
    rfl
  rw [mapReady]
  simp only [here, Bool.or_true, if_true]

/-- A map word that has been looked up is at the front of its set, and is the same; nothing else of the block changes that a page's step
looks at. -/
structure LookedUp (g : Nat) (m n : Mach) : Prop where
  cache : n.cache = m.cache
  locked : n.sparse.locked = m.sparse.locked
  word : cachedWord g n = cachedWord g m

theorem fmapLook_cached (on : fmapOn fx = true) (h : cachedWord g m = some v) :
    ∃ n, LookedUp g m n ∧ fmapLook fx g m = if v.getLsbD (g % 64) then .sparse n else .dense n := by
  obtain ⟨⟨w, t⟩, found, rfl⟩ := Option.map_eq_some_iff.mp h
  obtain ⟨full, front⟩ := lruFind_front found
  refine ⟨{ m with sparse := { m.sparse with fcache := tset [] m.sparse.fcache (g / 64 % 256) t } }, ⟨rfl, rfl, ?_⟩, ?_⟩
  · rw [h, cachedWord]
    simp only [tget_tset_ne _ _ _ _ full, front]
  · simp only [fmapLook, on, Bool.not_true, Bool.false_eq_true, if_false, found]

/-- A page's header is put in its cache by a pack and dropped by an unpack; no other part of the block changes. -/
theorem putHeader_frame (pack : Bool) (ss : List (Nat × BitVec 256)) :
    ∃ t, putHeader pack g ss m = { m with sparse := { m.sparse with hcache := t } } := by
  cases pack with
  | true => exact ⟨_, rfl⟩
  | false => exact ⟨_, rfl⟩

theorem cachedWord_putHeader (pack : Bool) (ss : List (Nat × BitVec 256)) : cachedWord g (putHeader pack g ss m) = cachedWord g m := by
  obtain ⟨t, e⟩ := putHeader_frame (g := g) (m := m) pack ss
  rw [e]
  rfl

theorem hcacheGet_putHeader (ss : List (Nat × BitVec 256)) :
    hcacheGet (putHeader true g ss m) g = some ⟨BitVec.ofNat 128 (ss.map fun x => 2 ^ x.1).sum, ss.length, false⟩ := by
  rw [hcacheGet, putHeader, if_pos rfl, hcachePut]
  simp only [tget_tset_ne _ _ _ _ (lruPut_ne_nil _ _ _), lruFind_lruPut]

end

/-! ### The tags of a page's lines (R276 step 6) -/

/-- A way's tag, Clean in the page's new form. -/
def newTag (pack : Bool) (buf : List (LineNo × Line × Bool)) (m : Mach) (l : LineNo) (w : Nat) : Tag :=
  { tagAt m (setOf l) w with
    d := 0
    fmt := if pack then 1 else 0
    z := zeroBits (((buf.find? (·.1 = l)).map (·.2.1)).getD 0) &&& (tagAt m (setOf l) w).v
    kgen := (tagAt m (setOf l) w).keyv && (kslot m (tagAt m (setOf l) w).keyslot).cur }

/-- A line's tag in the new form, if the line is valid. -/
def retagLine (pack : Bool) (buf : List (LineNo × Line × Bool)) (m : Mach) (l : LineNo) : Mach :=
  (hitWay m l).elim m fun w => setTag (setOf l) w (newTag pack buf m l w) m

section
variable {pack : Bool} {g : Nat} {buf : List (LineNo × Line × Bool)} {m n : Mach} {l : LineNo} {w : Nat}

theorem retagPage_eq : retagPage pack g buf m = (pageLines g).foldl (retagLine pack buf) m := by
  rw [retagPage]
  congr 1
  funext m l
  rw [retagLine]
  cases hitWay m l with
  | none => rfl
  | some w => cases found : buf.find? (·.1 = l) <;> simp only [newTag, found] <;> rfl

theorem hitWay_lt (h : hitWay m l = some w) : w < 32 := List.mem_range.mp (List.mem_of_find?_eq_some h)

/-- The way that holds a line is found by the tags of its set and by its pinned ways. -/
theorem hitWay_congr (sets : n.cache.sets = m.cache.sets) (tags : ∀ w, w < 32 → tagAt n (setOf l) w = tagAt m (setOf l) w) :
    hitWay n l = hitWay m l := by
  rw [hitWay, hitWay, setStOf, setStOf, sets]
  exact List.find?_congr fun w mem => by simp only [tags w (List.mem_range.mp mem)]

theorem newTag_ne_free (h : hitWay m l = some w) : newTag pack buf m l w ≠ .free :=
  fun e => hitWay_valid h (congrArg Tag.v e)

/-- A line's new tag changes the tags alone. -/
theorem retagLine_frame : ∃ t, retagLine pack buf m l = { m with cache := { m.cache with tags := t } } := by
  rw [retagLine]
  cases hitWay m l with
  | none => exact ⟨_, rfl⟩
  | some w => exact ⟨_, rfl⟩

/-- Of them it changes those of its own set alone. -/
theorem tagAt_retagLine_other {s : Nat} (other : s ≠ setOf l) (h : w < 32) : tagAt (retagLine pack buf m l) s w = tagAt m s w := by
  rw [retagLine]
  cases hit : hitWay m l with
  | none => rfl
  | some w' =>
    have low := hitWay_lt hit
    exact tget_tset_other _ _ _ _ _ (newTag_ne_free hit) (by simp only [wayKey]; omega)

theorem tagAt_retagLine_same (h : hitWay m l = some w) : tagAt (retagLine pack buf m l) (setOf l) w = newTag pack buf m l w := by
  rw [retagLine, h, Option.elim_some, tagAt_setTag m (newTag_ne_free h)]

/-- Retagged lines change the tags alone. -/
theorem retagLines_frame (ls : List LineNo) : ∃ t, ls.foldl (retagLine pack buf) m = { m with cache := { m.cache with tags := t } } := by
  induction ls generalizing m with
  | nil => exact ⟨_, rfl⟩
  | cons l ls ih =>
    obtain ⟨t, one⟩ := retagLine_frame (pack := pack) (buf := buf) (m := m) (l := l)
    rw [List.foldl_cons, one]
    exact ih

theorem tagAt_retagLines_other {ls : List LineNo} {s : Nat} (other : ∀ l ∈ ls, s ≠ setOf l) (h : w < 32) :
    tagAt (ls.foldl (retagLine pack buf) m) s w = tagAt m s w := by
  induction ls generalizing m with
  | nil => rfl
  | cons l ls ih =>
    obtain ⟨first, rest⟩ := List.forall_mem_cons.mp other
    rw [List.foldl_cons, ih rest, tagAt_retagLine_other first h]

/-- Lines of different sets are retagged each as it stood. -/
theorem tagAt_retagLines {ls : List LineNo} (apart : ls.Pairwise fun a b => setOf a ≠ setOf b) (mem : l ∈ ls) (h : hitWay m l = some w) :
    tagAt (ls.foldl (retagLine pack buf) m) (setOf l) w = newTag pack buf m l w := by
  induction ls generalizing m with
  | nil => cases mem
  | cons a ls ih =>
    obtain ⟨first, rest⟩ := List.pairwise_cons.mp apart
    rw [List.foldl_cons]
    obtain rfl | later := List.mem_cons.mp mem
    · rw [tagAt_retagLines_other first (hitWay_lt h), tagAt_retagLine_same h]
    · have kept : ∀ w, w < 32 → tagAt (retagLine pack buf m a) (setOf l) w = tagAt m (setOf l) w :=
        fun w low => tagAt_retagLine_other (first l later).symm low
      obtain ⟨t, one⟩ := retagLine_frame (pack := pack) (buf := buf) (m := m) (l := a)
      have hit : hitWay (retagLine pack buf m a) l = some w := (hitWay_congr (by rw [one]) kept).trans h
      rw [ih rest later hit, newTag, newTag, kept w (hitWay_lt h), one]
      rfl

/-- The lines of a page lie in different sets. -/
theorem pageLines_apart (g : Nat) : (pageLines g).Pairwise fun a b => setOf a ≠ setOf b := by
  rw [pageLines, List.pairwise_map]
  refine List.Pairwise.imp_of_mem (fun {i j} hi hj lt => ?_) (List.pairwise_lt_range (n := 32))
  rw [List.mem_range] at hi hj
  simp only [setOf, BitVec.toNat_ofNat]
  omega

theorem tagAt_retagPage (mem : l ∈ pageLines g) (h : hitWay m l = some w) :
    tagAt (retagPage pack g buf m) (setOf l) w = newTag pack buf m l w := by
  rw [retagPage_eq]
  exact tagAt_retagLines (pageLines_apart g) mem h

theorem retagPage_sparse : (retagPage pack g buf m).sparse = m.sparse := by
  obtain ⟨t, e⟩ := retagLines_frame (pack := pack) (buf := buf) (m := m) (pageLines g)
  rw [retagPage_eq, e]

/-- Its tags tell nothing of what the caches of map words and headers hold. -/
theorem cachedWord_retagPage (k : Nat) : cachedWord k (retagPage pack g buf m) = cachedWord k m := by rw [cachedWord, retagPage_sparse, cachedWord]

theorem hcacheGet_retagPage (k : Nat) : hcacheGet (retagPage pack g buf m) k = hcacheGet m k := by rw [hcacheGet, retagPage_sparse, hcacheGet]

end

end Sys2Proof.Machine
end

section
/-! SUPPORT. SPARSE_PACK and SPARSE_UNPACK, page by page: how they start, what each step of a page does, and how they end
(09_sparse_data.md R276, R278). -/

namespace Sys2Proof.Machine

/-! ### A page's steps from its judgement on (R276 steps 4 to 7) -/

section
variable {fx : Fixed} {c : Rec} {g : Nat} {p : MaintProg} {m n : Mach} {v : W64}

/-- A page whose word shows it sparse is skipped by a pack, and given back its dense form by an unpack. -/
theorem pageStep_sparse (at_ : p.stepNo = 35) (ready : mapReady fx g m = (m, true)) (look : fmapLook fx g m = .sparse n) :
    pageStep fx c g p m =
      if decide (c.opcode = 0x36) then pageEnd { p with res1 := p.res1 + 1 } n else .ok n { p with stepNo := 36, left := 0 } := by
  simp [pageStep, at_, ready, look]

/-- A page whose word shows it dense is skipped by an unpack, and by a pack that finds it poisoned or too full. -/
theorem pageStep_dense (at_ : p.stepNo = 35) (ready : mapReady fx g m = (m, true)) (look : fmapLook fx g m = .dense n) :
    pageStep fx c g p m =
      if !decide (c.opcode = 0x36) then pageEnd { p with res1 := p.res1 + 1 } n
      else if p.buf.any (·.2.2) || decide (packLimit c < (pageSectors p.buf g).length) then
        pageEnd { p with res1 := p.res1 + 1, flag := p.flag || p.buf.any (·.2.2) } n
      else .ok n { p with stepNo := 36, left := 0 } := by
  simp [pageStep, at_, ready, look]

/-- The new form is given to memory write by write, each as soon as the queue takes it, and then waits for the acknowledgements. -/
theorem pageStep_writes (low : 36 ≤ p.stepNo) (high : p.stepNo < 100) : pageStep fx c g p m =
    ((pageWrites (decide (c.opcode = 0x36)) g p.buf)[p.stepNo - 36]?).elim (.ok m { p with stepNo := 100 }) fun x =>
      (pageWrite fx c x m).elim (.wait m p) fun n => .ok n { p with stepNo := p.stepNo + 1, left := p.left + 1 } := by
  obtain ⟨recalls, lock, asks, gathers, judges⟩ :
    ¬ p.stepNo < 32 ∧ p.stepNo ≠ 32 ∧ p.stepNo ≠ 33 ∧ p.stepNo ≠ 34 ∧ p.stepNo ≠ 35 := by omega
  simp only [pageStep, recalls, lock, asks, gathers, judges, if_false, high, if_true]
  cases (pageWrites (decide (c.opcode = 0x36)) g p.buf)[p.stepNo - 36]? with
  | none => rfl
  | some x =>
    simp only [Option.elim_some]
    cases pageWrite fx c x m <;> rfl

/-- It does not go on while an acknowledgement is out. -/
theorem pageStep_unacknowledged (at_ : p.stepNo = 100) (out : p.left ≠ 0) : ∃ n, pageStep fx c g p m = .wait n p := by
  refine ⟨(mapReady fx g m).1, ?_⟩
  simp [pageStep, at_, out]

/-- With all of them in, and nothing of the page in the slipway, the map word is written. -/
theorem pageStep_mapWrite (at_ : p.stepNo = 100) (acked : p.left = 0)
    (slips : (m.cache.writes.any fun w => granOf w.line = g && w.slip) = false) (ready : mapReady fx g m = (m, true))
    (look : fmapLook fx g m = .sparse n ∨ fmapLook fx g m = .dense n) (word : cachedWord g n = some v) :
    pageStep fx c g p m =
      .ok (doOwn fx (mapWrite fx n c.id g (movedWord (decide (c.opcode = 0x36)) g v)) n) { p with stepNo := 101 } := by
  obtain look | look := look <;> simp [pageStep, at_, acked, slips, ready, look, mapWordOf_eq, word]

/-- A taken end of an access leaves the others. -/
theorem takeDone_frame {is : Src → Bool} {d : Done} (h : takeDone is m = (n, some d)) : ∃ l, n = { m with cache := { m.cache with done := l } } := by
  simp only [takeDone] at h
  split at h
  · cases h
  · cases h
    exact ⟨_, rfl⟩

/-- The page is unlocked. -/
def unlocked (m : Mach) : Mach := { m with sparse := { m.sparse with locked := none } }

section
variable (m : Mach)

theorem cachedWord_unlocked (g : Nat) : cachedWord g (unlocked m) = cachedWord g m := rfl
theorem hcacheGet_unlocked (g : Nat) : hcacheGet (unlocked m) g = hcacheGet m g := rfl
theorem tagAt_unlocked (set way : Nat) : tagAt (unlocked m) set way = tagAt m set way := rfl

end

/-- The page's last step leaves this: the word and the header in their caches, the tags in the new form, and the page unlocked. -/
def pageMoved (c : Rec) (g : Nat) (buf : List (LineNo × Line × Bool)) (v : W64) (m : Mach) : Mach :=
  let pack := decide (c.opcode = 0x36)
  unlocked (retagPage pack g buf (putHeader pack g (pageSectors buf g) (fcachePut (g / 64) (movedWord pack g v) m)))

theorem pageStep_moved {d : Done} (at_ : p.stepNo = 101) (done : takeDone (· = .cmd c.id) m = (n, some d)) (word : cachedWord g n = some v) :
    pageStep fx c g p m = .ok (pageMoved c g p.buf v n) { p with
      next := p.next + 1, stepNo := 0, snooped := false, left := 0, buf := [], res0 := p.res0 + 1
      res2 := p.res2 + (if decide (c.opcode = 0x36) then (pageSectors p.buf g).length else 0) } := by
  simp [pageStep, at_, done, mapWordOf_eq, word, pageMoved, pageEnd, unlocked]

end

/-! ### A page's steps up to its reads (R276 steps 1 to 3) -/

/-- A page that no host holds, whose domains are on and whose arrays are sound, when the engine comes to it. -/
structure PageFree (g : Nat) (m : Mach) : Prop where
  up : awake m (dEngine :: (pageLines g).flatMap fun l => [dTag (quadOf l), dDir (quadOf l)]) = true
  sound : sound m = true
  ents : m.dir.ents = []
  recalls : m.dir.recalls = []
  reclaim : m.dir.reclaim = none

section
variable {fx : Fixed} {c : Rec} {g : Nat} {p : MaintProg} {q : Prog} {m : Mach}

theorem PageFree.runOn (h : PageFree g m) : PageFree g (Machine.runOn c q m) := ⟨h.up, h.sound, h.ents, h.recalls, h.reclaim⟩

/-- A line of the page that no host holds has no copy to recall. -/
theorem pageStep_recall (free : PageFree g m) (at_ : p.stepNo < 32) (fresh : p.snooped = false) :
    pageStep fx c g p m = .ok m { p with stepNo := p.stepNo + 1 } := by
  have line : BitVec.ofNat 28 (g * 32 + p.stepNo) ∈ pageLines g := List.mem_map.mpr ⟨_, List.mem_range.mpr at_, rfl⟩
  have up := waitDoms_awake c.id free.up fun i mem => List.mem_cons_of_mem _ (List.mem_flatMap.mpr ⟨_, line, mem⟩)
  have same : ({ p with stepNo := p.stepNo + 1, snooped := false } : MaintProg) = { p with stepNo := p.stepNo + 1 } := by rw [← fresh]
  simp only [pageStep, at_, if_true, up, Bool.not_true, Bool.false_eq_true, if_false, scanDir_sound fx _ free.sound,
    dirGate_empty fx _ _ _ _ _ free.ents free.recalls free.reclaim, same]

theorem pageStep_lock (at_ : p.stepNo = 32) : pageStep fx c g p m = .ok (lockPage g m) { p with stepNo := 33 } := by
  simp [pageStep, at_]

/-- Locked, and free of what came before its lock, a page has its lines asked for. -/
theorem pageStep_ask (at_ : p.stepNo = 33) (idle : pageBusy m g = false) (ents : m.dir.ents = []) :
    pageStep fx c g p m = .ok ((pageLines g).foldl (fun m l => doOwn fx (ownRead .maint .read l) m) m)
      { p with stepNo := 34, left := 32, buf := [] } := by
  have unheld : pageHeld m g = false := List.any_eq_false.mpr fun l _ => by rw [dirFind_nil ents]; exact Bool.false_ne_true
  simp [pageStep, at_, idle, unheld]

theorem pageStep_gather (at_ : p.stepNo = 34) (none_ : m.cache.done = []) : pageStep fx c g p m = .wait m p := by
  simp [pageStep, at_, takeDone_calm none_]

/-- A step that is done is followed by the next. -/
theorem runPages_step {x : Nat × Nat} {n : Mach} {r : MaintProg} (here : p.runs[p.next]? = some x)
    (step : pageStep fx c (x.1 / 32) p m = .ok n r) (k : Nat) : runPages fx c (k + 1) p m = runPages fx c k r n := by
  rw [runPages, here]
  simp only [step]

theorem runPages_wait {x : Nat × Nat} {n : Mach} {r : MaintProg} (here : p.runs[p.next]? = some x)
    (step : pageStep fx c (x.1 / 32) p m = .wait n r) (k : Nat) : runPages fx c (k + 1) p m = (n, r, false) := by
  rw [runPages, here]
  simp only [step]

/-- The lines of such a page are passed one by one with nothing recalled. -/
theorem runPages_recalls {x : Nat × Nat} (here : p.runs[p.next]? = some x) (free : PageFree (x.1 / 32) m) (begun : p.stepNo = 0)
    (fresh : p.snooped = false) {i : Nat} (low : i ≤ 32) (k : Nat) :
    runPages fx c (k + i) p m = runPages fx c k { p with stepNo := i } m := by
  induction i generalizing k with
  | zero =>
    have same : ({ p with stepNo := 0 } : MaintProg) = p := by rw [← begun]
    rw [same]
    rfl
  | succ i ih =>
    rw [show k + (i + 1) = k + 1 + i by omega, ih (by omega)]
    exact runPages_step (p := { p with stepNo := i }) here (pageStep_recall free (by show i < 32; omega) fresh) k

/-- The first page locked and its lines asked for, as a pack or unpack begins. -/
def pageAsked (fx : Fixed) (g : Nat) (m : Mach) : Mach := (pageLines g).foldl (fun m l => doOwn fx (ownRead .maint .read l) m) (lockPage g m)

theorem lockPage_runOn : lockPage g (runOn c q m) = runOn c q (lockPage g m) := by
  have same : (runOn c q m).sparse = m.sparse := rfl
  rw [lockPage, lockPage, same, apply_ite (runOn c q)]
  rfl

theorem lockPage_dir : (lockPage g m).dir = m.dir := by
  rw [lockPage]
  split <;> rfl

/-- With none of its lines at hand, the engine waits for them. -/
theorem runPages_asks {x : Nat × Nat} (here : p.runs[p.next]? = some x) (free : PageFree (x.1 / 32) m) (begun : p.stepNo = 0)
    (fresh : p.snooped = false) (empty : p.buf = []) (idle : pageBusy (lockPage (x.1 / 32) m) (x.1 / 32) = false)
    (none_ : (pageAsked fx (x.1 / 32) m).cache.done = []) (k : Nat) :
    runPages fx c (k + 35) p m = (pageAsked fx (x.1 / 32) m, { p with stepNo := 34, left := 32 }, false) := by
  have ents : (lockPage (x.1 / 32) m).dir.ents = [] := by rw [lockPage_dir]; exact free.ents
  have ask := pageStep_ask (fx := fx) (c := c) (p := { p with stepNo := 33 }) rfl idle ents
  have unread : ({ p with stepNo := 34, left := 32, buf := [] } : MaintProg) = { p with stepNo := 34, left := 32 } := by rw [← empty]
  calc runPages fx c (k + 35) p m
      = runPages fx c (k + 3) { p with stepNo := 32 } m := runPages_recalls here free begun fresh le_rfl (k + 3)
    _ = runPages fx c (k + 2) { p with stepNo := 33 } (lockPage (x.1 / 32) m) :=
      runPages_step (p := { p with stepNo := 32 }) here (pageStep_lock rfl) _
    _ = runPages fx c (k + 1) { p with stepNo := 34, left := 32 } (pageAsked fx (x.1 / 32) m) := by
      rw [runPages_step (p := { p with stepNo := 33 }) here ask, ← unread]
      rfl
    _ = _ := runPages_wait (p := { p with stepNo := 34, left := 32 }) here (pageStep_gather rfl none_) k

end

/-! ### Their start -/

section
variable {fx : Fixed} {c : Rec} {p : MaintProg} {m n : Mach}

/-- The idle engine takes a pack or unpack at once. -/
theorem holdMaint_pages (op : c.opcode = 0x36 ∨ c.opcode = 0x37) (idle : m.cmds.running = []) :
    holdMaint fx c none m = pumpMaint fx (runOn c (.maintRun (maintStart fx m c)) m) := by
  obtain ⟨h95, h38, h93⟩ : c.opcode ≠ 0x95 ∧ c.opcode ≠ 0x38 ∧ c.opcode ≠ 0x93 := by obtain e | e := op <;> rw [e] <;> decide
  have held : (runOn c .maintHeld m).cmds.running = [⟨c, .maintHeld⟩] := by rw [runOn, idle]; rfl
  have begun : setProg c.id (.maintRun (maintStart fx (runOn c .maintHeld m) c)) (runOn c .maintHeld m) =
      runOn c (.maintRun (maintStart fx m c)) m := by
    simp only [setProg, runOn, idle, List.nil_append, List.map_cons, List.map_nil, if_true]
    rfl
  have free : ((runOn c .maintHeld m).cmds.running.any fun r => isMaintRun r.prog || isSweepRun r.prog) = false := by rw [held]; rfl
  have oldest : (runOn c .maintHeld m).cmds.running.find? (fun r => decide (r.prog = .maintHeld)) = some ⟨c, .maintHeld⟩ := by
    rw [held]
    rfl
  simp only [holdMaint, idle, List.filter_nil, List.length_nil, h95, if_false, if_true]
  rw [if_neg (by decide), startMaint, if_neg (ne_true_of_eq_false free), oldest]
  simp only [h38, h93, if_false, decide_false, Bool.false_and, Bool.false_eq_true, begun]

/-- The engine carries one on as far as its steps go. -/
theorem pumpMaint_waits (op : c.opcode = 0x36 ∨ c.opcode = 0x37) (runs : runningCmd m isMaintRun = some ⟨c, .maintRun p⟩)
    (settled : m.cache.done = []) (up : waitDom c.id dEngine m = (m, true)) (early : p.stepNo < 36) {r : MaintProg}
    (steps : runPages fx c (p.runs.length * 220 + 1) p m = (n, r, false)) (none_ : n.cache.done = []) :
    pumpMaint fx m = setProg c.id (.maintRun r) n := by
  have pages : maintSteps fx c p m = (n, r, false) := by
    rw [maintSteps, if_neg (by obtain e | e := op <;> rw [e] <;> decide), if_pos op, steps]
  have range : 0x36 ≤ c.opcode.toNat ∧ c.opcode.toNat ≤ 0x37 ∧ p.stepNo < 36 := by
    obtain e | e := op <;> exact ⟨by rw [e]; decide, by rw [e]; decide, early⟩
  rw [pumpMaint, runs]
  simp only [takeAcks_nil _ _ settled, if_pos range, up, Bool.not_true, Bool.false_eq_true, if_false, pages, takeAcks_nil _ _ none_,
    Bool.false_and, Nat.sub_zero]

/-- A pack or unpack that meets no host's copy on its first page locks it, asks for its lines, and waits for them. -/
theorem holdMaint_asks {x : Nat × Nat} {t : List (Nat × Nat)} (op : c.opcode = 0x36 ∨ c.opcode = 0x37) (idle : m.cmds.running = [])
    (settled : m.cache.done = []) (first : (maintStart fx m c).runs = x :: t) (free : PageFree (x.1 / 32) m)
    (quiet : pageBusy (lockPage (x.1 / 32) m) (x.1 / 32) = false)
    (none_ : (pageAsked fx (x.1 / 32) (runOn c (.maintRun (maintStart fx m c)) m)).cache.done = []) :
    holdMaint fx c none m = setProg c.id (.maintRun { maintStart fx m c with stepNo := 34, left := 32 })
      (pageAsked fx (x.1 / 32) (runOn c (.maintRun (maintStart fx m c)) m)) := by
  have next : (maintStart fx m c).next = 0 := if_neg (by obtain e | e := op <;> rw [e] <;> decide)
  have here : (maintStart fx m c).runs[(maintStart fx m c).next]? = some x := by rw [next, first]; rfl
  have fuel : (maintStart fx m c).runs.length * 220 + 1 = t.length * 220 + 186 + 35 := by rw [first, List.length_cons]; omega
  have runs : runningCmd (runOn c (.maintRun (maintStart fx m c)) m) isMaintRun = some ⟨c, .maintRun (maintStart fx m c)⟩ := by
    simp [runningCmd, runOn, idle, isMaintRun]
  have busy : pageBusy (lockPage (x.1 / 32) (runOn c (.maintRun (maintStart fx m c)) m)) (x.1 / 32) = false := by
    rw [lockPage_runOn]
    exact quiet
  rw [holdMaint_pages op idle]
  refine pumpMaint_waits op runs settled (waitDom_awake _ (PageFree.runOn free).up (List.mem_cons_self ..)) (show 0 < 36 by decide) ?_ none_
  rw [fuel]
  exact runPages_asks here free.runOn rfl rfl rfl busy none_ _

end

/-! ### The obligation -/

section
variable {fx : Fixed} {c : Rec} {g : Nat} {p : MaintProg} {m : Mach} {v : W64}

/-- Whether a page is skipped at its judgement: in the new form already, or by a pack poisoned or too full. -/
def pageSkipped (c : Rec) (g : Nat) (buf : List (LineNo × Line × Bool)) (v : W64) : Bool :=
  let pack := decide (c.opcode = 0x36)
  decide (v.getLsbD (g % 64) = pack) || (pack && (buf.any (·.2.2) || decide (packLimit c < (pageSectors buf g).length)))

/-- The judgement of a page whose map word is at hand (R276 step 4). -/
theorem pageStep_judges (on : fmapOn fx = true) (at_ : p.stepNo = 35) (word : cachedWord g m = some v) :
    ∃ n, LookedUp g m n ∧ pageStep fx c g p m = if pageSkipped c g p.buf v then
      pageEnd { p with res1 := p.res1 + 1, flag := p.flag || (decide (c.opcode = 0x36) && !v.getLsbD (g % 64) && p.buf.any (·.2.2)) } n
      else .ok n { p with stepNo := 36, left := 0 } := by
  obtain ⟨n, same, look⟩ := fmapLook_cached on word
  refine ⟨n, same, ?_⟩
  have ready := mapReady_cached (fx := fx) word
  cases is : v.getLsbD (g % 64) with
  | true =>
    rw [is, if_pos rfl] at look
    rw [pageStep_sparse at_ ready look, pageSkipped, is]
    cases decide (c.opcode = 0x36) <;> simp
  | false =>
    rw [is, if_neg Bool.false_ne_true] at look
    rw [pageStep_dense at_ ready look, pageSkipped, is]
    cases decide (c.opcode = 0x36) <;> simp

/-! What the page's last step leaves (R276 steps 6 and 7) -/

theorem pageMoved_locked (buf : List (LineNo × Line × Bool)) : (pageMoved c g buf v m).sparse.locked = none := rfl

theorem pageMoved_word (buf : List (LineNo × Line × Bool)) :
    cachedWord g (pageMoved c g buf v m) = some (movedWord (decide (c.opcode = 0x36)) g v) := by
  rw [pageMoved, cachedWord_unlocked, cachedWord_retagPage, cachedWord_putHeader, cachedWord_fcachePut]

theorem pageMoved_header (buf : List (LineNo × Line × Bool)) (pack : c.opcode = 0x36) :
    hcacheGet (pageMoved c g buf v m) g =
      some ⟨BitVec.ofNat 128 ((pageSectors buf g).map fun x => 2 ^ x.1).sum, (pageSectors buf g).length, false⟩ := by
  rw [pageMoved, hcacheGet_unlocked, hcacheGet_retagPage, decide_eq_true pack, hcacheGet_putHeader]

theorem pageMoved_tags (buf : List (LineNo × Line × Bool)) {l : LineNo} {w : Nat} (mem : l ∈ pageLines g) (h : hitWay m l = some w) :
    tagAt (pageMoved c g buf v m) (setOf l) w = newTag (decide (c.opcode = 0x36)) buf m l w := by
  obtain ⟨t, e⟩ := putHeader_frame (g := g) (m := fcachePut (g / 64) (movedWord (decide (c.opcode = 0x36)) g v) m)
    (decide (c.opcode = 0x36)) (pageSectors buf g)
  rw [pageMoved, e, tagAt_unlocked]
  exact tagAt_retagPage mem h

/-- Accesses that have come in play no part in where a line is found, or in its new tag. -/
theorem hitWay_done (ds : List Done) (l : LineNo) : hitWay { m with cache := { m.cache with done := ds } } l = hitWay m l := rfl

theorem newTag_done (ds : List Done) (pack : Bool) (buf : List (LineNo × Line × Bool)) (l : LineNo) (w : Nat) :
    newTag pack buf { m with cache := { m.cache with done := ds } } l w = newTag pack buf m l w := rfl

end

/-- Settles O45: the start, the steps of a page, the writes of its new form, the reply, and the packed form, in the statement's order. -/
theorem sparsePages : Obligations.SparsePages := by
  refine ⟨fun s p c m i x t row b => ?starts, fun fx c g p m on => ⟨?judges, ?gives, ?waits, ?maps, ?moves⟩,
    fun g buf => ⟨pageWrites_pack_lines g buf, pageWrites_unpack_lines g buf, fun i low => pageWrites_unpack_dense g buf low⟩,
    fun fx c p m op => if_pos op, fun g buf => ⟨pageSectors_rise, fun k d => mem_pageSectors, fun j x h => sector_packedLine_rank h,
      fun k low => headerLine_bitmap low, headerLine_count⟩⟩
  case starts =>
    intro g p0 asked pass idle first up ok ents recalls reclaim quiet none_
    have asks : asked = pageAsked s.fx (x.1 / 32) (runOn c (.maintRun (maintStart s.fx m c)) m) := rfl
    rw [asks] at none_ ⊢
    have start : (c.opcode = 0x36 ∨ c.opcode = 0x37) ∧ startCmd s.fx c false m = holdMaint s.fx c (sparseStop s.fx m c) m := by
      obtain rfl | rfl := row
      · exact ⟨.inl (b.opcode_plain rfl), start_sparsePack b⟩
      · exact ⟨.inr (b.opcode_plain rfl), start_sparseUnpack b⟩
    obtain ⟨op, start⟩ := start
    rw [pass] at start
    exact begins_onward b (start.trans (holdMaint_asks op idle (done_resting b.resting) first ⟨up, ok, ents, recalls, reclaim⟩ quiet none_))
  case judges =>
    intro at_ v word
    obtain ⟨n, same, step⟩ := pageStep_judges (c := c) on at_ word
    refine ⟨fun skip => ⟨_, _, step.trans (if_pos skip), same.cache, rfl, same.word.trans word, rfl, rfl, rfl, rfl, rfl, rfl⟩,
      fun keep => ⟨n, step.trans (if_neg (ne_true_of_eq_false keep)), same.cache, same.locked⟩⟩
  case gives =>
    intro low high
    have step := pageStep_writes (fx := fx) (c := c) (g := g) (m := m) low high
    refine ⟨fun x next => ⟨fun full => ?full, fun n taken => ?taken⟩, fun all => ?given⟩
    case full => rw [step, next, Option.elim_some, full, Option.elim_none]
    case taken => rw [step, next, Option.elim_some, taken, Option.elim_some]
    case given => rw [step, List.getElem?_eq_none all, Option.elim_none]
  case waits => exact fun at_ out => pageStep_unacknowledged at_ out
  case maps =>
    intro at_ acked slips v word
    obtain ⟨n, same, look⟩ := fmapLook_cached on word
    have either : fmapLook fx g m = .sparse n ∨ fmapLook fx g m = .dense n := by
      rw [look]
      exact ite_eq_or_eq ..
    exact ⟨n, same.cache, same.word.trans word, pageStep_mapWrite at_ acked slips (mapReady_cached word) either (same.word.trans word)⟩
  case moves =>
    intro at_ v word d n0 done
    obtain ⟨l, rfl⟩ := takeDone_frame done
    refine ⟨_, _, pageStep_moved at_ done word, pageMoved_locked p.buf, pageMoved_word p.buf,
      fun pack => pageMoved_header p.buf (of_decide_eq_true pack),
      fun l mem w hit => (pageMoved_tags p.buf mem ((hitWay_done _ l).trans hit)).trans (newTag_done ..),
      rfl, rfl, rfl, rfl, rfl, rfl⟩

end Sys2Proof.Machine
end

section
/-! SUPPORT. ACQUIRE_SWEEP (10_ordering.md R300 to R304, Table ORDER-4): how one starts, how its notices leave, and how each is acknowledged or
given up, until none is left. -/

namespace Sys2Proof.Machine

/-! ### A sweep as the one command in progress -/

section
variable {fx : Fixed} {c : Rec} {m : Mach} {p : Prog} {todo : List (BitVec 7)} {sent : List (BitVec 7 × Nat)} {acked lost : List (BitVec 7)}
  {before : List (BitVec 16 × BitVec 12)}

/-- The block with a sweep as its one command in progress, which waits for no write admitted before it. -/
def sweeping (c : Rec) (todo : List (BitVec 7)) (sent : List (BitVec 7 × Nat)) (acked lost : List (BitVec 7)) (m : Mach) : Mach :=
  { m with cmds := { m.cmds with running := [⟨c, .sweepRun todo sent acked lost []⟩] } }

/-- A sweep with these notices left completes when there are none, with its result words (R304), and goes on otherwise. -/
def sweepGoes (fx : Fixed) (c : Rec) (todo : List (BitVec 7)) (sent : List (BitVec 7 × Nat)) (acked lost : List (BitVec 7)) (m : Mach) : Mach :=
  if todo = [] ∧ sent = [] then
    complete fx c (if lost = [] then csDone else csWarn) [BitVec.ofNat 64 acked.length, (maskWords lost).1, (maskWords lost).2] m
  else sweeping c todo sent acked lost m

theorem sweepGoes_left (left : todo ≠ [] ∨ sent ≠ []) : sweepGoes fx c todo sent acked lost m = sweeping c todo sent acked lost m :=
  if_neg (not_and_or.mpr left)

theorem setProg_alone {q : Prog} (alone : m.cmds.running = [⟨c, p⟩]) :
    setProg c.id q m = { m with cmds := { m.cmds with running := [⟨c, q⟩] } } := by
  simp [setProg, alone]

theorem setProg_sweeping (alone : m.cmds.running = [⟨c, p⟩]) :
    setProg c.id (.sweepRun todo sent acked lost []) m = sweeping c todo sent acked lost m := setProg_alone alone

theorem runningCmd_sweep (alone : m.cmds.running = [⟨c, .sweepRun todo sent acked lost before⟩]) :
    runningCmd m isSweepRun = some ⟨c, .sweepRun todo sent acked lost before⟩ := by
  rw [runningCmd, alone]
  rfl

/-- The only command in progress leaves none behind, whatever it had come to. -/
theorem complete_sweeping {st : Nat} {res : List W64} (alone : m.cmds.running = [⟨c, p⟩]) :
    complete fx c st res (sweeping c todo sent acked lost m) = complete fx c st res m := by
  simp [complete, sweeping, alone]

/-- Notices leave while no request of the cut-off is unperformed (R301 step 2). -/
theorem sweepReady_performed (alone : m.cmds.running = [⟨c, .sweepRun todo sent acked lost []⟩]) :
    sweepReady m = some (c, todo, sent, acked, lost) := by
  simp [sweepReady, runningCmd_sweep alone]

theorem endSweep_sweeping (alone : m.cmds.running = [⟨c, p⟩]) :
    endSweep fx (sweeping c todo sent acked lost m) = sweepGoes fx c todo sent acked lost m := by
  have running : (sweeping c todo sent acked lost m).cmds.running = [⟨c, .sweepRun todo sent acked lost []⟩] := rfl
  have kept : pruneSweep (sweeping c todo sent acked lost m) = sweeping c todo sent acked lost m := by
    rw [pruneSweep, runningCmd_sweep running]
    rfl
  simp only [endSweep, kept, sweepReady_performed running, sweepGoes]
  cases todo with
  | cons k rest => simp
  | nil =>
    cases sent with
    | cons x rest => simp
    | nil => simp [complete_sweeping alone]

theorem resting_sweeping (rest : resting m = true) (left : todo ≠ [] ∨ sent ≠ []) : resting (sweeping c todo sent acked lost m) = true := by
  refine resting_running rest fun r hr => ?_
  rw [List.mem_singleton.mp hr]
  simpa [runRests] using left

theorem resting_sweepGoes (ring : byRing c.pkt = false) (rest : resting m = true) : resting (sweepGoes fx c todo sent acked lost m) = true := by
  rw [sweepGoes]
  split
  case isTrue => exact resting_complete ring rest
  case isFalse left => exact resting_sweeping rest (not_and_or.mp left)

end

/-! ### Its start (R300, R301 step 1) -/

section
variable {fx : Fixed} {c : Rec} {m : Mach}

/-- The block as the idle engine takes a sweep: the next number, and the requests unperformed now as its cut-off. -/
def sweepBegun (c : Rec) (m : Mach) : Mach :=
  { m with cmds := { m.cmds with
      sweepSeq := m.cmds.sweepSeq + 1, running := [⟨c, .sweepRun (sweepClusters c) [] [] [] (unperformed m)⟩] } }

/-- A mask bit that is set names its cluster. -/
theorem sweepClusters_named (named : c.pkt.p0 ≠ 0 ∨ c.pkt.p1 ≠ 0) : sweepClusters c ≠ [] := by
  have bitSet : ∀ {w : W64}, w ≠ 0 → ∃ i < 64, w.getLsbD i = true := by
    intro w nonzero
    by_contra none_
    push Not at none_
    exact nonzero (BitVec.eq_of_getLsbD_eq fun i hi => by simpa using none_ i hi)
  have member : ∀ {i}, i < 128 → (if i < 64 then c.pkt.p0.getLsbD i else c.pkt.p1.getLsbD (i - 64)) = true → sweepClusters c ≠ [] :=
    fun low on => List.ne_nil_of_mem (List.mem_map_of_mem (List.mem_filter.mpr ⟨List.mem_range.mpr low, on⟩))
  obtain first | second := named
  · obtain ⟨i, low, on⟩ := bitSet first
    exact member (i := i) (by omega) (by rw [if_pos low, on])
  · obtain ⟨i, low, on⟩ := bitSet second
    exact member (i := i + 64) (by omega) (by rw [if_neg (by omega), Nat.add_sub_cancel, on])

theorem resting_sweepBegun (rest : resting m = true) (named : c.pkt.p0 ≠ 0 ∨ c.pkt.p1 ≠ 0) : resting (sweepBegun c m) = true := by
  have numbered : resting { m with cmds := { m.cmds with sweepSeq := m.cmds.sweepSeq + 1 } } = true := rest
  refine resting_running numbered fun r hr => ?_
  rw [List.mem_singleton.mp hr]
  simp [runRests, sweepClusters_named named]

/-- The engine takes nothing while a command runs (04 R140). -/
theorem startMaint_busy (busy : m.cmds.running.any (fun r => isMaintRun r.prog || isSweepRun r.prog) = true) : startMaint fx m = m := if_pos busy

theorem startMaint_sweep (alone : m.cmds.running = [⟨c, .maintHeld⟩]) (op : c.opcode = 0x38) : startMaint fx m = sweepBegun c m := by
  have free : m.cmds.running.any (fun r => isMaintRun r.prog || isSweepRun r.prog) = false := by
    rw [alone]
    rfl
  have oldest : m.cmds.running.find? (fun r => decide (r.prog = .maintHeld)) = some ⟨c, .maintHeld⟩ := by
    rw [alone]
    rfl
  rw [startMaint, if_neg (ne_true_of_eq_false free), oldest]
  simp only [if_pos op]
  rw [setProg_alone (p := .maintHeld) (by exact alone)]
  rfl

theorem holdMaint_sweep (op : c.opcode = 0x38) (idle : m.cmds.running = []) : holdMaint fx c none m = sweepBegun c m := by
  have held : (runOn c .maintHeld m).cmds.running = [⟨c, .maintHeld⟩] := by
    rw [runOn, idle]
    rfl
  have other : c.opcode ≠ 0x95 := by
    rw [op]
    decide
  simp only [holdMaint, idle, List.filter_nil, List.length_nil, other, if_false, if_true]
  rw [if_neg (by decide), startMaint_sweep held op]
  rfl

/-- A scope that is none, or no cluster named. -/
def sweepBad (c : Rec) : Bool := decide (fld c.pkt.p2 2 0 < 2) || decide (5 < fld c.pkt.p2 2 0) || (c.pkt.p0 = 0 && c.pkt.p1 = 0)

theorem sweepBad_iff : sweepBad c = true ↔ ¬ (2 ≤ fld c.pkt.p2 2 0 ∧ fld c.pkt.p2 2 0 ≤ 5 ∧ (c.pkt.p0 ≠ 0 ∨ c.pkt.p1 ≠ 0)) := by
  simp only [sweepBad, Bool.or_eq_true, Bool.and_eq_true, decide_eq_true_eq, not_and_or, not_le, not_or, ne_eq, not_not, or_assoc]

end

section
variable {s : State} {p : CmdPkt} {c : Rec} {m : Mach}

theorem starts_sweep (b : Begins s (.acquireSweep p) c m) :
    startCmd s.fx c false m = holdMaint s.fx c (stopIf (sweepBad c) csBadParam) m := start_acquireSweep b

theorem acquireSweep_refused (b : Begins s (.acquireSweep p) c m) (bad : sweepBad c = true) :
    exec (.acquireSweep p) s = .next (s.put (complete s.fx c csBadParam [] m)) :=
  (begins_refused b (starts_sweep b)).1 _ (if_pos bad)

theorem acquireSweep_taken (b : Begins s (.acquireSweep p) c m) (named : c.pkt.p0 ≠ 0 ∨ c.pkt.p1 ≠ 0) (good : sweepBad c = false)
    (idle : m.cmds.running = []) : exec (.acquireSweep p) s = .next (s.put (sweepBegun c m)) := by
  have op : c.opcode = 0x38 := b.opcode_plain rfl
  have start := starts_sweep b
  rw [stopIf_none.mpr good] at start
  exact begins_finish b (start.trans (holdMaint_sweep op idle)) (resting_sweepBegun b.resting named)

end

/-! ### Its notices (R301 step 2, R302) -/

section
variable {fx : Fixed} {c : Rec} {m : Mach} {k : BitVec 7} {todo rest : List (BitVec 7)} {sent : List (BitVec 7 × Nat)}
  {acked lost : List (BitVec 7)}

/-- The stop by which a cluster's notice leaves. -/
def noticeStop (k : BitVec 7) : Stop := if k.toNat % 2 = 0 then .north else .south

/-- A cluster's notice, with the words of R302. -/
def noticeOf (fx : Fixed) (c : Rec) (m : Mach) (k : BitVec 7) : Out :=
  .notice (noticeStop k) (BitVec.ofNat 16 (0xFF00 + k.toNat))
    (BitVec.ofNat 64 (c.master.toNat * 2 ^ 48 + 1 * 2 ^ 40 + 0x38 * 2 ^ 32 + (m.cmds.sweepSeq - 1).toNat * 2 ^ 16))
    (BitVec.ofNat 64 (fx.procId.toNat * 2 ^ 48 + m.regs.logical.toNat * 2 ^ 40 + fld c.pkt.p2 2 0)) 0 0

/-- Nothing leaves while a request of the cut-off, which a block at rest keeps to those not yet performed, is left. -/
theorem sendNotice_unperformed {x : BitVec 16 × BitVec 12} {before : List (BitVec 16 × BitVec 12)} (still : resting m = true)
    (alone : m.cmds.running = [⟨c, .sweepRun todo sent acked lost (x :: before)⟩]) : sendNotice fx m = m := by
  have waits : x ∈ unperformed m := by
    have runs := ((resting_iff m).mp still).1.runs _ (alone ▸ List.mem_singleton_self _)
    simp only [runRests, Bool.and_eq_true, List.all_eq_true, decide_eq_true_eq] at runs
    exact runs.1 x List.mem_cons_self
  have out : (unperformed m).any (fun k => decide (k ∈ x :: before)) = true :=
    List.any_eq_true.mpr ⟨x, waits, decide_eq_true List.mem_cons_self⟩
  have notReady : sweepReady m = none := by
    rw [sweepReady, runningCmd_sweep alone]
    exact if_pos out
  rw [sendNotice, notReady]

theorem sendNotice_next (alone : m.cmds.running = [⟨c, .sweepRun (k :: rest) sent acked lost []⟩]) :
    sendNotice fx m = if segRoom m (noticeStop k) = false then m
      else emit (noticeOf fx c m k) (sweepGoes fx c rest (sent ++ [(k, m.cyc)]) acked lost m) := by
  rw [sendNotice, sweepReady_performed alone, runningCmd_sweep alone, sweepGoes_left (.inr (by simp))]
  simp only [setProg_sweeping alone, Bool.not_eq_true', noticeStop, noticeOf, Nat.one_mul]

/-! ### Their acknowledgements (R302) and their timeouts (R301) -/

theorem clusterOf_peer : BitVec.ofNat 7 (BitVec.ofNat 16 (0xFF00 + k.toNat)).toNat = k := by
  bv_omega

/-- The PEER of a cluster is one of those of R302, so TAG and an outstanding notice decide. -/
theorem ackNotice_of_peer {w0 : W64} (alone : m.cmds.running = [⟨c, .sweepRun todo sent acked lost []⟩]) :
    ackNotice fx (BitVec.ofNat 16 (0xFF00 + k.toNat)) w0 m =
      if sent.any (·.1 = k) = true ∧ fld w0 31 16 = (m.cmds.sweepSeq - 1).toNat then
        sweepGoes fx c todo (sent.filter (·.1 ≠ k)) (acked ++ [k]) lost m
      else count 0x010 m := by
  have value : (BitVec.ofNat 16 (0xFF00 + k.toNat)).toNat = 0xFF00 + k.toNat := by bv_omega
  have low : 0xFF00 ≤ (BitVec.ofNat 16 (0xFF00 + k.toNat)).toNat := by omega
  have high : (BitVec.ofNat 16 (0xFF00 + k.toNat)).toNat < 0xFF80 := by have := k.isLt; omega
  rw [ackNotice, runningCmd_sweep alone]
  simp only [clusterOf_peer, low, high, decide_true, Bool.true_and, Bool.and_eq_true, decide_eq_true_eq, setProg_sweeping alone,
    endSweep_sweeping alone]

/-- A packet with a nonzero envelope acknowledges nothing either. -/
theorem sweepReply_of_peer {env : BitVec 44} {w0 : W64} (on : m.life.st ≠ .off)
    (alone : m.cmds.running = [⟨c, .sweepRun todo sent acked lost []⟩]) :
    sweepReply fx (BitVec.ofNat 16 (0xFF00 + k.toNat)) env w0 m =
      if env = 0 ∧ sent.any (·.1 = k) = true ∧ fld w0 31 16 = (m.cmds.sweepSeq - 1).toNat then
        sweepGoes fx c todo (sent.filter (·.1 ≠ k)) (acked ++ [k]) lost (count 0x040 m)
      else count 0x010 (count 0x040 m) := by
  have cmds : (count 0x040 m).cmds = m.cmds := countN_cmds ..
  have ack := ackNotice_of_peer (fx := fx) (k := k) (w0 := w0) ((congrArg Cmds.running cmds).trans alone)
  rw [cmds] at ack
  simp only [sweepReply, count_life, if_neg on, ack]
  by_cases plain : env = 0
  · rw [if_neg (not_not.mpr plain)]
    simp only [plain, true_and]
  · rw [if_pos plain, if_neg fun own => plain own.1]

theorem advance_cmds (cyc : Nat) (m : Mach) : (advance cyc m).cmds = m.cmds := by
  obtain ⟨p, e⟩ := advance_frame cyc m
  rw [e]

theorem advance_cyc (cyc : Nat) (m : Mach) : (advance cyc m).cyc = max cyc m.cyc := by
  obtain ⟨p, e⟩ := advance_frame cyc m
  rw [e]

theorem expireNotice_sweep (alone : m.cmds.running = [⟨c, .sweepRun todo sent acked lost []⟩]) :
    expireNotice fx k m =
      if sent.any (fun x => x.1 = k && decide (x.2 + 1048576 ≤ m.cyc)) = true then
        sweepGoes fx c todo (sent.filter (·.1 ≠ k)) acked (lost ++ [k]) m
      else m := by
  rw [expireNotice, runningCmd_sweep alone]
  simp only [setProg_sweeping alone, endSweep_sweeping alone]

end

/-! ### Their rows -/

section
variable {s : State} {c : Rec} {k : BitVec 7} {todo rest : List (BitVec 7)} {sent : List (BitVec 7 × Nat)} {acked lost : List (BitVec 7)}

theorem sweepNoticeSend_full (still : resting s.m = true) (alone : s.m.cmds.running = [⟨c, .sweepRun (k :: rest) sent acked lost []⟩])
    (full : segRoom s.m (noticeStop k) = false) : exec .sweepNoticeSend s = .next s :=
  actM_rest ((sendNotice_next alone).trans (if_pos full)) still

theorem sweepNoticeSend_leaves (ring : byRing c.pkt = false) (still : resting s.m = true) (alone : s.m.cmds.running = [⟨c, .sweepRun (k :: rest) sent acked lost []⟩])
    (room : segRoom s.m (noticeStop k) = true) : exec .sweepNoticeSend s =
      .next (s.put (emit (noticeOf s.fx c s.m k) (sweepGoes s.fx c rest (sent ++ [(k, s.m.cyc)]) acked lost s.m))) :=
  actM_rest ((sendNotice_next alone).trans (if_neg (by rw [room]; decide))) (resting_emit (resting_sweepGoes ring still))

theorem sweepAck_of_peer (env : BitVec 44) (w0 w1 w2 w3 : W64) (ring : byRing c.pkt = false) (still : resting s.m = true)
    (on : s.m.life.st ≠ .off) (alone : s.m.cmds.running = [⟨c, .sweepRun todo sent acked lost []⟩]) :
    exec (.sweepAck (BitVec.ofNat 16 (0xFF00 + k.toNat)) env w0 w1 w2 w3) s = .next (s.put
      (if env = 0 ∧ sent.any (·.1 = k) = true ∧ fld w0 31 16 = (s.m.cmds.sweepSeq - 1).toNat then
        sweepGoes s.fx c todo (sent.filter (·.1 ≠ k)) (acked ++ [k]) lost (count 0x040 s.m)
      else count 0x010 (count 0x040 s.m))) := by
  have counted : resting (count 0x040 s.m) = true := resting_count still
  exact (row_sweepAck ..).trans (actM_rest (sweepReply_of_peer on alone) (resting_ite (resting_sweepGoes ring counted) (resting_count counted)))

theorem sweepNoticeTimeout_of_sent (cyc : Nat) (ring : byRing c.pkt = false) (still : resting s.m = true)
    (alone : s.m.cmds.running = [⟨c, .sweepRun todo sent acked lost []⟩]) :
    exec (.sweepNoticeTimeout k cyc) s = .next (s.put
      (if sent.any (fun x => x.1 = k && decide (x.2 + 1048576 ≤ max cyc s.m.cyc)) = true then
        sweepGoes s.fx c todo (sent.filter (·.1 ≠ k)) acked (lost ++ [k]) (advance cyc s.m)
      else advance cyc s.m)) := by
  have moved : resting (advance cyc s.m) = true := resting_advance still
  have expires := expireNotice_sweep (fx := s.fx) (k := k) ((congrArg Cmds.running (advance_cmds cyc s.m)).trans alone)
  rw [advance_cyc] at expires
  exact (row_sweepNoticeTimeout ..).trans (actAt_rest expires (resting_ite (resting_sweepGoes ring moved) moved))

end

/-! ### The obligation -/

/-- Settles O21, row by row: a sweep that the engine takes waits for its cut-off, and each of its notices leaves, is acknowledged or is
given up, until `sweepGoes` completes it. -/
theorem acquireSweeps : Obligations.AcquireSweeps := by
  unfold Obligations.AcquireSweeps
  intro s c
  refine ⟨fun p m b => ⟨fun bad => ?refused, fun good idle => ?taken⟩, fun still => ⟨fun busy => ?busy, fun alone op named => ?held,
    fun todo sent acked lost => ⟨fun x before alone => ?early, fun alone ring => ⟨fun k rest next => ?notice, fun k env w0 w1 w2 w3 on => ?ack,
      fun k cyc => ?timeout⟩⟩⟩⟩
  case refused => exact acquireSweep_refused b (sweepBad_iff.mpr bad)
  case taken =>
    have ok : sweepBad c = false := Bool.eq_false_iff.mpr fun bad => sweepBad_iff.mp bad good
    rw [acquireSweep_taken b good.2.2 ok idle, runOn, idle]
    rfl
  case busy => exact actM_rest (startMaint_busy busy) still
  case held => exact actM_rest (startMaint_sweep alone op) (resting_sweepBegun still named)
  case early => exact actM_rest (sendNotice_unperformed still alone) still
  case notice =>
    subst next
    exact ⟨sweepNoticeSend_full still alone, sweepNoticeSend_leaves ring still alone⟩
  case ack =>
    have row := sweepAck_of_peer (k := k) env w0 w1 w2 w3 ring still on alone
    exact ⟨fun own => row.trans (by rw [if_pos own, sweepGoes]; rfl), fun stray => row.trans (by rw [if_neg stray])⟩
  case timeout =>
    have row := sweepNoticeTimeout_of_sent (k := k) cyc ring still alone
    exact ⟨fun late => row.trans (by rw [if_pos late]; rfl), fun early => row.trans (by rw [if_neg (ne_true_of_eq_false early)])⟩

end Sys2Proof.Machine
end

section
/-! SUPPORT. Messages of hosts at their landing (11_host_coherence.md R306, R308, R310; 01_slice_in_the_processor.md R33): how one that comes
to a block at rest is taken in, and what the checks of each kind come to. -/

namespace Sys2Proof.Machine

/-! ### What a block at rest keeps -/

theorem resting_departed {tc : BitVec 4} {d : Nat} {ctx : Option Ctx} {st : BitVec 4} {m : Mach} (h : resting m = true) :
    resting (departed tc d ctx st m) = true := by
  obtain ⟨p, q, n, e⟩ := departed_frame tc d ctx st m
  rw [e]; exact h

theorem resting_ndr {h : HostMsg} {msg st : BitVec 4} {m : Mach} (r : resting m = true) : resting (ndr h msg st m) = true :=
  resting_departed (resting_emit r)

theorem resting_hostStray {fx : Fixed} {h : HostMsg} {m : Mach} (r : resting m = true) : resting (hostStray fx h m) = true :=
  resting_count (resting_logErr r)

/-- A fence does not rest before it ends, so none walks the directory. -/
theorem fenceWalks_resting {m : Mach} (r : resting m = true) : fenceWalks m = false := by
  obtain ⟨calm, -, -⟩ := (resting_iff m).mp r
  rw [fenceWalks, List.any_eq_false]
  intro run mem
  have rests := calm.runs run mem
  cases prog : run.prog with
  | fence p => rw [prog] at rests; cases rests
  | _ => simp

/-! ### Its arrival -/

/-- A block that keeps no trace counts the acceptance of a host message, and that is all. -/
theorem countAccept_host {cls msg : BitVec 4} {h : HostMsg} {t : Option Taken} {m : Mach} (off : m.dbg.trace = false) :
    countAccept (.host cls msg h t) m = countN 0x040 none (some m.regs.hostTc) 1 m := by
  have untraced : (countN 0x040 none (some m.regs.hostTc) 1 m).dbg.trace = false := by
    obtain ⟨p, e⟩ := countN_frame 0x040 none (some m.regs.hostTc) 1 m
    rw [e]; exact off
  simp only [countAccept, untraced, Bool.false_eq_true, if_false]

section
variable {fx : Fixed} {cls msg : BitVec 4} {h : HostMsg} {m n t : Mach}

/-- The strap leaves it at its router (02 R64). -/
theorem arriveHost_held (strap : heldByStrap fx .vc0 m = true) : arriveHost fx cls msg h m = m := if_pos strap

/-- On another channel than its own it is discarded, where the landing lets anything in (R306). -/
theorem arriveHost_stray (free : heldByStrap fx .vc0 m = false) (wrong : h.rightChannel = false) :
    arriveHost fx cls msg h m = if landingClamped m then m else hostStray fx h m := by
  rw [arriveHost, free, wrong]
  rfl

/-- One that is served as it comes: a BIConflict that passes what is held is served as one at the head of its landing is. -/
theorem arriveHost_served (free : heldByStrap fx .vc0 m = false) (right : h.rightChannel = true) (rest : resting m = true)
    (e : serveMsg fx cls msg h none (countAccept (.host cls msg h none) m) = (t, true)) : arriveHost fx cls msg h m = t := by
  simp only [arriveHost, free, right, Bool.false_eq_true, if_false, Bool.not_true]
  split
  case isTrue hit =>
    obtain ⟨rfl, rfl, -⟩ := hit
    exact congrArg Prod.fst e
  case isFalse => exact arrive_served rfl (countAccept_resting rest) e

/-- One that cannot be served yet stays at its landing. -/
theorem arriveHost_stays (free : heldByStrap fx .vc0 m = false) (right : h.rightChannel = true) (rest : resting m = true)
    (e : serveMsg fx cls msg h none (countAccept (.host cls msg h none) m) = (t, false)) :
    arriveHost fx cls msg h m = keepHeld h.stop (.host cls msg h none) t := by
  simp only [arriveHost, free, right, Bool.false_eq_true, if_false, Bool.not_true]
  split
  case isTrue hit =>
    obtain ⟨rfl, rfl, -⟩ := hit
    cases e
  case isFalse => exact arrive_stays rfl (countAccept_resting rest) e

end

/-- A host message on its own channel comes to a block at rest, and the strap does not hold it at its router. -/
structure HostLands (s : State) (i : Instr) (cls msg : BitVec 4) (h : HostMsg) : Prop where
  still : resting s.m = true
  row : exec i s = actM s fun fx m => arriveHost fx cls msg h m
  free : heldByStrap s.fx .vc0 s.m = false
  right : h.rightChannel = true

section
variable {s : State} {i : Instr} {cls msg : BitVec 4} {h : HostMsg} {t : Mach}

/-- The block as the message meets it: its acceptance is counted. -/
def hostMet (s : State) (cls msg : BitVec 4) (h : HostMsg) : Mach := countAccept (.host cls msg h none) s.m

theorem HostLands.resting (b : HostLands s i cls msg h) : resting (hostMet s cls msg h) = true := countAccept_resting b.still

theorem HostLands.after (b : HostLands s i cls msg h) (e : serveMsg s.fx cls msg h none (hostMet s cls msg h) = (t, true)) :
    exec i s = .next (s.after t) :=
  b.row.trans (actM_goes (arriveHost_served b.free b.right b.still e))

theorem HostLands.put (b : HostLands s i cls msg h) (e : serveMsg s.fx cls msg h none (hostMet s cls msg h) = (t, true))
    (rest : Machine.resting t = true) : exec i s = .next (s.put t) := by
  rw [b.after e, after_resting rest]

theorem HostLands.stays (b : HostLands s i cls msg h) (e : serveMsg s.fx cls msg h none (hostMet s cls msg h) = (t, false)) :
    exec i s = .next (s.after (keepHeld h.stop (.host cls msg h none) t)) :=
  b.row.trans (actM_goes (arriveHost_stays b.free b.right b.still e))

theorem hostMessage_held (row : exec i s = actM s fun fx m => arriveHost fx cls msg h m) (still : Machine.resting s.m = true)
    (strap : heldByStrap s.fx .vc0 s.m = true) : exec i s = .next (s.put s.m) :=
  row.trans (actM_rest (arriveHost_held strap) still)

section
variable (row : exec i s = actM s fun fx m => arriveHost fx cls msg h m) (still : Machine.resting s.m = true)
  (free : heldByStrap s.fx .vc0 s.m = false) (wrong : h.rightChannel = false)
include row still free wrong

/-- One on another channel is not let in by a clamped landing, and is discarded by an open one. -/
theorem hostMessage_clamped (clamped : landingClamped s.m = true) : exec i s = .next (s.put s.m) :=
  row.trans (actM_rest ((arriveHost_stray free wrong).trans (if_pos clamped)) still)

theorem hostMessage_stray (up : landingClamped s.m = false) : exec i s = .next (s.put (hostStray s.fx h s.m)) :=
  row.trans (actM_rest ((arriveHost_stray free wrong).trans (if_neg (ne_true_of_eq_false up))) (resting_hostStray still))

end
end

/-! ### The checks of a request that the slice handles (R308, R310) -/

section
variable {fx : Fixed} {cls msg : BitVec 4} {h : HostMsg} {m : Mach}

theorem hostAccess_src (cls msg : BitVec 4) (h : HostMsg) (l : LineNo) : (hostAccess cls msg h l).src = .host cls msg h := by
  simp only [hostAccess]
  split_ifs <;> rfl

/-- A request's access is made as the request is met: no control value is kept with it. -/
theorem hostAccess_ctl (cls msg : BitVec 4) (h : HostMsg) (l : LineNo) : { hostAccess cls msg h l with ctl := none } = hostAccess cls msg h l := by
  simp only [hostAccess]
  split_ifs <;> rfl

theorem serveMsg_handled (handled : hostHandled cls msg = true) (t : Option Taken) :
    serveMsg fx cls msg h t m = (serveHost fx cls msg h t m).elim (m, false) fun n => (n, true) := by
  have notSpec : ¬ (cls = 0 ∧ msg = 5) := by rintro ⟨rfl, rfl⟩; cases handled
  have notConflict : ¬ (cls = 0 ∧ msg = 8) := by rintro ⟨rfl, rfl⟩; cases handled
  rw [serveMsg, if_neg notSpec, if_neg notConflict, if_pos handled]
  cases serveHost fx cls msg h t m <;> rfl

section
variable (walk : fenceWalks m = false) (t : Option Taken)
include walk

theorem serveHost_mishomed (away : fencedLike m = true ∨ memHome fx m h.address = .mishomed) :
    serveHost fx cls msg h t m = some (count 0x011 (ndr h 0 stMishomed m)) := by
  simp only [serveHost, walk, Bool.false_and, Bool.not_false, Bool.and_true]
  split
  · rfl
  · rename_i here
    rw [away.resolve_left here]

variable (here : fencedLike m = false)
include here

theorem serveHost_denied (home : memHome fx m h.address = .denied) : serveHost fx cls msg h t m = some (count 0x010 (ndr h 0 stDenied m)) := by
  simp only [serveHost, walk, here, home, Bool.false_and, Bool.false_eq_true, if_false]

variable {off : BitVec 35} (home : memHome fx m h.address = .at off)
include home

/-- The checks of one that is at home here, in their order. -/
theorem serveHost_home : serveHost fx cls msg h t m =
    if hostFields h = false then some (count 0x010 (ndr h 0 stDenied m))
    else if m.regs.hostEn = false then some (ndr h 0 stDenied m)
    else if cls = 1 ∧ m.dir.en.getLsbD h.agent.toNat = false then some (ndr h 0 stDenied (logErr fx 0x39 0 (hostLoc h) m))
    else if cls = 0 ∧ msg = 7 ∧ crosses m (lineOfOff off) h = true then some (crossEvict h (lineOfOff off) m)
    else submit fx { hostAccess cls msg h (lineOfOff off) with ctl := t } m := by
  simp only [serveHost, walk, here, home, Bool.false_and, Bool.false_eq_true, if_false, Bool.not_eq_true', Bool.and_eq_true,
    decide_eq_true_eq, and_assoc]

theorem serveHost_malformed (bad : hostFields h = false) : serveHost fx cls msg h t m = some (count 0x010 (ndr h 0 stDenied m)) := by
  rw [serveHost_home walk t here home, if_pos bad]

variable (good : hostFields h = true)
include good

theorem serveHost_disabled (off : m.regs.hostEn = false) : serveHost fx cls msg h t m = some (ndr h 0 stDenied m) := by
  rw [serveHost_home walk t here home]
  simp only [good, off, Bool.true_eq_false, if_false, if_true]

variable (on : m.regs.hostEn = true)
include on

theorem serveHost_unknown (write : cls = 1) (unknown : m.dir.en.getLsbD h.agent.toNat = false) :
    serveHost fx cls msg h t m = some (ndr h 0 stDenied (logErr fx 0x39 0 (hostLoc h) m)) := by
  rw [serveHost_home walk t here home]
  simp only [good, on, Bool.true_eq_false, if_false, write, unknown, and_self, if_true]

/-- One that passes every check crosses a snoop, or makes its access. -/
theorem serveHost_admitted (may : cls = 1 → m.dir.en.getLsbD h.agent.toNat = true) : serveHost fx cls msg h t m =
    if cls = 0 ∧ msg = 7 ∧ crosses m (lineOfOff off) h = true then some (crossEvict h (lineOfOff off) m)
    else submit fx { hostAccess cls msg h (lineOfOff off) with ctl := t } m := by
  have known : ¬ (cls = 1 ∧ m.dir.en.getLsbD h.agent.toNat = false) := fun e => absurd (may e.1) (by rw [e.2]; exact Bool.false_ne_true)
  rw [serveHost_home walk t here home]
  simp only [good, on, Bool.true_eq_false, if_false, known]

end

/-! ### The answers to what it does not handle (R308) -/

theorem serveRefused_away (away : fencedLike m = true ∨ memHome fx m h.address = .mishomed) :
    serveRefused fx h m = count 0x011 (ndr h 0 stMishomed m) := by
  rw [serveRefused]
  split
  · rfl
  · rename_i unfenced
    rw [away.resolve_left unfenced]

theorem serveRefused_here (here : fencedLike m = false) (home : memHome fx m h.address ≠ .mishomed) :
    serveRefused fx h m = count 0x010 (ndr h 0 stDenied m) := by
  rw [serveRefused, here, if_neg Bool.false_ne_true]
  split
  · rename_i e; exact absurd e home
  · rfl

/-- A message that is refused: MemSpecRd with a reserved bit set, or one that no other kind is. -/
theorem serveMsg_refused (refused : (cls = 0 ∧ msg = 5 ∧ hostFields h = false) ∨
    (hostHandled cls msg = false ∧ ¬ (cls = 0 ∧ (msg = 5 ∨ msg = 8)))) (t : Option Taken) :
    serveMsg fx cls msg h t m = (serveRefused fx h m, true) := by
  rcases refused with ⟨rfl, rfl, bad⟩ | ⟨unhandled, other⟩
  · rw [serveMsg, if_pos ⟨rfl, rfl⟩, bad]
    rfl
  · rw [serveMsg, if_neg fun e => other ⟨e.1, .inl e.2⟩, if_neg fun e => other ⟨e.1, .inr e.2⟩, unhandled]
    rfl

/-! ### BIConflict (R322) -/

theorem serveConflict_away (away : fencedLike m = true ∨ memHome fx m h.address = .mishomed) :
    serveConflict fx h m = count 0x011 (ndr h 0 stMishomed m) := by
  rw [serveConflict]
  split
  · rfl
  · rename_i unfenced
    rw [away.resolve_left unfenced]

theorem serveConflict_denied (here : fencedLike m = false) (home : memHome fx m h.address = .denied) :
    serveConflict fx h m = count 0x010 (ndr h 0 stDenied m) := by
  rw [serveConflict, here, if_neg Bool.false_ne_true, home]

theorem serveConflict_home {off : BitVec 35} (here : fencedLike m = false) (home : memHome fx m h.address = .at off) :
    serveConflict fx h m =
      if hostFields h = false then count 0x010 (ndr h 0 stDenied m)
      else if m.regs.hostEn = false then ndr h 0 stDenied m
      else count 0x051 (departed m.regs.hostTc 0 none stOk (emit (.ndr (((m.dir.snoops.find? fun x =>
        x.line = lineOfOff off && x.half = hostHalf h && x.agent = h.agent).map (·.stop)).getD h.stop) 4 h.agent h.ctag stOk) m)) := by
  simp only [serveConflict, here, home, Bool.false_eq_true, if_false, Bool.not_eq_true']

end

end Sys2Proof.Machine
end

section
/-! SUPPORT. A host request that meets its line, dense and held by no host (11_host_coherence.md R314, R315, R320, Table COH-5): the directory
lets it go, and it is performed at once. -/

namespace Sys2Proof.Machine

/-! ### The directory, where no host holds anything -/

section
variable {fx : Fixed} {cls msg : BitVec 4} {h : HostMsg} {a : Access} {m : Mach} {way : Nat}

/-- A free entry is at hand. -/
theorem dirSpare_isSome (ents : m.dir.ents = []) (claims : m.dir.claims = []) (l : LineNo) : ∃ k, dirSpare m l = some k := by
  refine Option.isSome_iff_exists.mp (List.find?_isSome.mpr ⟨dirSet l * 16 + 0, List.mem_map.mpr ⟨0, by simp, rfl⟩, ?_⟩)
  have free : dirEnt m (dirSet l * 16 + 0) = .free := by rw [dirEnt, ents]; rfl
  rw [free, claimed, claims]
  rfl

theorem hostGate_empty (uncrossed : a.cross = false) (ents : m.dir.ents = []) (recalls : m.dir.recalls = []) (reclaim : m.dir.reclaim = none)
    (claims : m.dir.claims = []) (sp : Bool) : hostGate fx a cls msg h sp m = (m, .done, a) := by
  obtain ⟨k, spare⟩ := dirSpare_isSome ents claims a.line
  have room : dirRoom fx a.line h m = (m, some k) := by rw [dirRoom, claims, List.find?_nil, spare]
  have open_ : dirSetHeld m a.line = false := by simp [dirSetHeld, recalls, reclaim]
  simp only [hostGate, uncrossed, Bool.false_and, open_, Bool.false_eq_true, if_false, dirFind_nil ents, room, ite_self]

/-! ### The access -/

theorem placed_uncrossed (snoops : m.dir.snoops = []) (a : Access) : (placed m a).cross = a.cross := by
  have none_ : crossing m a = false := by
    rw [crossing]
    split
    · rw [snoops, List.any_nil, Bool.and_false]
    · rfl
  show (a.cross || crossing m a) = a.cross
  rw [none_, Bool.or_false]

theorem hostAccess_uncrossed (cls msg : BitVec 4) (h : HostMsg) (l : LineNo) : (hostAccess cls msg h l).cross = false := by
  simp only [hostAccess]
  split_ifs <;> rfl

theorem hostAccess_line (cls msg : BitVec 4) (h : HostMsg) (l : LineNo) : (hostAccess cls msg h l).line = l := by
  simp only [hostAccess]
  split_ifs <;> rfl

theorem hostAccess_read (rd : cls = 0) (kind : msg = 1 ∨ msg = 2) (l : LineNo) : (hostAccess cls msg h l).op = .hostRead := by
  subst rd
  rcases kind with rfl | rfl <;> rfl

theorem hostAccess_inv (rd : cls = 0) (kind : msg = 0 ∨ msg = 6 ∨ msg = 7) (l : LineNo) : (hostAccess cls msg h l).op = .hostInv := by
  subst rd
  rcases kind with rfl | rfl | rfl <;> rfl

theorem hostAccess_write (wr : cls = 1) (l : LineNo) : (hostAccess cls msg h l).op = .hostWrite := by
  subst wr
  rfl

/-- A host request has none of the data plane's counts of hits. -/
theorem noteHit_host (src : a.src = .host cls msg h) (m : Mach) : noteHit a m = m := by rw [noteHit, src]

/-- It is performed, and the entry that its grant may need is kept. -/
theorem tryHost_hit (meets : Meets fx a way m) (src : a.src = .host cls msg h) (notThru : a.op ≠ .writeThru) (uncrossed : a.cross = false)
    (range : a.range = none) (claims : m.dir.claims = []) {u : Mach} (e : perform fx a (setOf a.line) way false m = u) :
    tryHost fx a cls msg h m = (keepEntry a (grantOf cls msg h false (u.dir.en.getLsbD h.agent.toNat)) h u, .done, a) := by
  obtain ⟨ents, recalls, reclaim⟩ := meets.hosts
  have up : needDoms [dTag (quadOf a.line), dDir (quadOf a.line)] m = (m, true) := needDoms_awake meets.awake (by simp)
  have dense : sparseMet fx a.line m = .dense m := by rw [sparseMet, meets.hit]; simp [meets.dense]
  have array := arrayPart_hit (fx := fx) (a := a) false meets fun thru => absurd thru notThru
  rw [noteHit_host src, e] at array
  rw [tryHost, up]
  simp only [scanSet_sound fx _ meets.sound, scanDir_sound fx _ meets.sound, meets.outside, meets.open_, meets.hit, range, hostBarred, dense,
    Bool.not_true, Bool.false_eq_true, if_false, Option.isSome_some, if_true, Bool.false_and,
    hostGate_empty uncrossed ents recalls reclaim claims, array]

/-- The access of a host request to a line in a way, dense, that no host holds and none has an entry kept for. -/
structure HostHit (fx : Fixed) (cls msg : BitVec 4) (h : HostMsg) (l : LineNo) (a : Access) (way : Nat) (m : Mach) : Prop where
  meets : Meets fx (placed m a) way m
  src : a.src = .host cls msg h
  line : a.line = l
  uncrossed : a.cross = false
  range : (placed m a).range = none
  snoops : m.dir.snoops = []
  claims : m.dir.claims = []

theorem hostAccess_hit {l : LineNo} (meets : Meets fx (placed m (hostAccess cls msg h l)) way m)
    (range : (placed m (hostAccess cls msg h l)).range = none) (snoops : m.dir.snoops = []) (claims : m.dir.claims = []) :
    HostHit fx cls msg h l (hostAccess cls msg h l) way m :=
  ⟨meets, hostAccess_src .., hostAccess_line .., hostAccess_uncrossed .., range, snoops, claims⟩

/-! ### What it does -/

/-- A request done: the directory has what it grants, and its requester is told (Table COH-5). -/
def hostDone (cls msg : BitVec 4) (h : HostMsg) (l : LineNo) (m : Mach) : Mach :=
  count 0x051 (hostNdr cls msg h false (hostGrant cls msg h l false false m))

/-- An entry is kept for a grant that found none (R320). -/
def hostKept (cls msg : BitVec 4) (h : HostMsg) (a : Access) (m : Mach) : Mach :=
  keepEntry a (grantOf cls msg h false (m.dir.en.getLsbD h.agent.toNat)) h m

/-- The bytes of a host's write put into the way, poisoned if they came so (R315). -/
def hostWritten (set way : Nat) (a : Access) (h : HostMsg) (m : Mach) : Mach :=
  let u := writeWay set way (wholeWrite a) a.bytes a.data m.regs.hostTc (touch set way m)
  if h.psn then setTag set way { tagAt u set way with poison := true } u else u

section
variable (src : a.src = .host cls msg h) (uncrossed : a.cross = false) {set : Nat} (dense : (tagAt m set way).fmt = 0)
include src uncrossed dense

theorem perform_hostRead (op : a.op = .hostRead) : perform fx a set way false m =
    hostDone cls msg h a.line (memData h (wayData m set way) (tagAt m set way).poison (touch set way m)) := by
  simp only [perform, op, serveRead, src, uncrossed, dense, ne_eq, not_true_eq_false, decide_false]
  rfl

theorem perform_hostInv (op : a.op = .hostInv) : perform fx a set way false m = hostDone cls msg h a.line m := by
  simp only [perform, op, serveWrite, src, uncrossed, dense, ne_eq, not_true_eq_false, decide_false]
  rfl

theorem perform_hostWrite (op : a.op = .hostWrite) : perform fx a set way false m =
    hostDone cls msg h a.line (hostWritten set way a h m) := by
  simp only [perform, op, serveWrite, src, uncrossed, dense, ne_eq, not_true_eq_false, decide_false, classOf, Bool.false_eq_true, if_false]
  rfl

end

section
variable {l : LineNo}

theorem HostHit.placed_uncrossed (hit : HostHit fx cls msg h l a way m) : (placed m a).cross = false :=
  (Machine.placed_uncrossed hit.snoops a).trans hit.uncrossed

theorem HostHit.dense (hit : HostHit fx cls msg h l a way m) : (tagAt m (setOf l) way).fmt = 0 := by
  obtain rfl := hit.line
  exact hit.meets.dense

theorem HostHit.submit (hit : HostHit fx cls msg h l a way m) (notThru : a.op ≠ .writeThru) {v : Mach}
    (e : perform fx (placed m a) (setOf l) way false m = hostDone cls msg h l v) :
    submit fx a m = some (hostKept cls msg h (placed m a) (hostDone cls msg h l v)) := by
  obtain rfl := hit.line
  have src : (placed m a).src = .host cls msg h := hit.src
  have tried := tryHost_hit hit.meets src notThru hit.placed_uncrossed hit.range hit.claims e
  rw [Machine.submit, tryAccess, tryPlaced, hit.meets.first, if_neg Bool.false_ne_true, src]
  simp only [tried]
  rfl

/-- A read is answered with the half, as the way holds it (R315). -/
theorem HostHit.read (hit : HostHit fx cls msg h l a way m) (op : a.op = .hostRead) : Machine.submit fx a m = some (hostKept cls msg h (placed m a)
    (hostDone cls msg h l (memData h (wayData m (setOf l) way) (tagAt m (setOf l) way).poison (touch (setOf l) way m)))) := by
  refine hit.submit (by rw [op]; decide) ?_
  rw [perform_hostRead (a := placed m a) hit.src hit.placed_uncrossed hit.dense op, show (placed m a).line = l from hit.line]

/-- An invalidation or an eviction touches no way. -/
theorem HostHit.inv (hit : HostHit fx cls msg h l a way m) (op : a.op = .hostInv) :
    Machine.submit fx a m = some (hostKept cls msg h (placed m a) (hostDone cls msg h l m)) := by
  refine hit.submit (by rw [op]; decide) ?_
  rw [perform_hostInv (a := placed m a) hit.src hit.placed_uncrossed hit.dense op, show (placed m a).line = l from hit.line]

/-- A write is put into the way. -/
theorem HostHit.write (hit : HostHit fx cls msg h l a way m) (op : a.op = .hostWrite) : Machine.submit fx a m = some (hostKept cls msg h (placed m a)
    (hostDone cls msg h l (hostWritten (setOf l) way (placed m a) h m))) := by
  refine hit.submit (by rw [op]; decide) ?_
  rw [perform_hostWrite (a := placed m a) hit.src hit.placed_uncrossed hit.dense op, show (placed m a).line = l from hit.line]

end
end

end Sys2Proof.Machine
end

section
/-! SUPPORT. The requests of hosts (11_host_coherence.md R306, R308, R310, R314, R315, R322): the checks of one at its landing, and what it
does at a line that no host holds. -/

namespace Sys2Proof.Machine

/-- The rows of the host requests, each with its CLASS and MSG; a MemInvNT is named by its number alone (Table COH-3). -/
def HostRequest (i : Instr) (cls msg : BitVec 4) (h : HostMsg) : Prop :=
  (i = .hostMemrd h ∧ cls = 0 ∧ msg = 1) ∨ (i = .hostMemrddata h ∧ cls = 0 ∧ msg = 2) ∨ (i = .hostMeminv h ∧ cls = 0 ∧ msg = 0) ∨
    (i = .hostMsgRefused 0 6 h ∧ cls = 0 ∧ msg = 6) ∨ (i = .hostMemclnevct h ∧ cls = 0 ∧ msg = 7) ∨ (i = .hostMemwr h ∧ cls = 1 ∧ msg = 0) ∨
    (i = .hostMemwrptl h ∧ cls = 1 ∧ msg = 1)

section
variable {s : State} {i : Instr} {cls msg : BitVec 4} {h : HostMsg}

theorem HostRequest.row (req : HostRequest i cls msg h) : exec i s = actM s fun fx m => arriveHost fx cls msg h m := by
  rcases req with ⟨rfl, rfl, rfl⟩ | ⟨rfl, rfl, rfl⟩ | ⟨rfl, rfl, rfl⟩ | ⟨rfl, rfl, rfl⟩ | ⟨rfl, rfl, rfl⟩ | ⟨rfl, rfl, rfl⟩ | ⟨rfl, rfl, rfl⟩
  · exact row_hostMemrd ..
  · exact row_hostMemrddata ..
  · exact row_hostMeminv ..
  · exact row_hostMsgRefused ..
  · exact row_hostMemclnevct ..
  · exact row_hostMemwr ..
  · exact row_hostMemwrptl ..

theorem HostRequest.handled (req : HostRequest i cls msg h) : hostHandled cls msg = true := by
  rcases req with ⟨-, rfl, rfl⟩ | ⟨-, rfl, rfl⟩ | ⟨-, rfl, rfl⟩ | ⟨-, rfl, rfl⟩ | ⟨-, rfl, rfl⟩ | ⟨-, rfl, rfl⟩ | ⟨-, rfl, rfl⟩ <;> rfl

/-! ### One that is served, or stays -/

section
variable (b : HostLands s i cls msg h) (handled : hostHandled cls msg = true)
include b handled

theorem HostLands.served {t : Mach} (e : serveHost s.fx cls msg h none (hostMet s cls msg h) = some t) : exec i s = .next (s.after t) :=
  b.after (by rw [serveMsg_handled handled, e]; rfl)

theorem HostLands.answered {t : Mach} (e : serveHost s.fx cls msg h none (hostMet s cls msg h) = some t) (rest : Machine.resting t = true) :
    exec i s = .next (s.put t) :=
  b.put (by rw [serveMsg_handled handled, e]; rfl) rest

theorem HostLands.waits (e : serveHost s.fx cls msg h none (hostMet s cls msg h) = none) :
    exec i s = .next (s.after (keepHeld h.stop (.host cls msg h none) (hostMet s cls msg h))) :=
  b.stays (by rw [serveMsg_handled handled, e]; rfl)

end
end

/-! ### The obligation -/

/-- Settles O43: where it comes from, then the checks in their order, then the line that it meets. -/
theorem hostRequests : Obligations.HostRequests := by
  unfold Obligations.HostRequests
  intro s i cls msg h (req : HostRequest i cls msg h) still n ends goes
  refine ⟨hostMessage_held req.row still, countAccept_host,
    fun free wrong => ⟨hostMessage_clamped req.row still free wrong, hostMessage_stray req.row still free wrong⟩, fun free right => ?lands⟩
  case lands =>
    have b : HostLands s i cls msg h := ⟨still, req.row, free, right⟩
    have rest : resting n = true := b.resting
    have walk : fenceWalks n = false := fenceWalks_resting rest
    have served : ∀ {t : Mach}, serveHost s.fx cls msg h none n = some t → goes t := b.served req.handled
    have answered : ∀ {t : Mach}, serveHost s.fx cls msg h none n = some t → resting t = true → ends t := b.answered req.handled
    refine ⟨fun away => ?away, fun here home => ?denied, fun off here home => ?home⟩
    case away => exact answered (serveHost_mishomed walk none away) (resting_count (resting_ndr rest))
    case denied => exact answered (serveHost_denied walk none here home) (resting_count (resting_ndr rest))
    case home =>
      intro l a0 a crossed known
      refine ⟨fun bad => ?malformed, fun good off => ?disabled, fun good on write unknown => ?unknown, fun good on may => ?admitted⟩
      case malformed => exact answered (serveHost_malformed walk none here home bad) (resting_count (resting_ndr rest))
      case disabled => exact answered (serveHost_disabled walk none here home good off) (resting_ndr rest)
      case unknown => exact answered (serveHost_unknown walk none here home good on write unknown) (resting_ndr (resting_logErr rest))
      case admitted =>
        have admits := serveHost_admitted (msg := msg) walk none here home good on may
        rw [hostAccess_ctl] at admits
        refine ⟨fun evict => served (admits.trans (if_pos evict)), fun plain full => b.waits req.handled ((admits.trans (if_neg plain)).trans full),
          fun plain u given => served ((admits.trans (if_neg plain)).trans given), fun plain snoops claims range way meets => ?meets⟩
        intro done t w u
        have asks := admits.trans (if_neg plain)
        have hit : HostHit s.fx cls msg h l a0 way n := hostAccess_hit meets range snoops claims
        refine ⟨fun read kind => ?read, fun read kind => ?inv, fun write clean => ?write, fun write bad => ?poisoned⟩
        case read => exact served (asks.trans (hit.read (hostAccess_read read kind l)))
        case inv => exact served (asks.trans (hit.inv (hostAccess_inv read kind l)))
        case write =>
          have written : hostWritten (setOf l) way a h n = u := by rw [hostWritten, clean]; rfl
          rw [hit.write (hostAccess_write write l), written] at asks
          exact served asks
        case poisoned =>
          have written : hostWritten (setOf l) way a h n = setTag (setOf l) way { tagAt u (setOf l) way with poison := true } u := by
            rw [hostWritten, bad]; rfl
          rw [hit.write (hostAccess_write write l), written] at asks
          exact served asks

end Sys2Proof.Machine
end

section
/-! SUPPORT. The other messages of hosts (11_host_coherence.md R308, R310, R318, R322, R324; 01_slice_in_the_processor.md R33): those that ask
for nothing, conflicts, the answers to snoops, and snoops that are not answered in time. -/

namespace Sys2Proof.Machine

/-! ### MemSpecRd -/

section
variable {fx : Fixed} {h : HostMsg} {m : Mach} (good : hostFields h = true) (t : Option Taken)
include good

/-- It is ignored, but by a slice that is as fenced. -/
theorem serveMsg_spec (here : fencedLike m = false) : serveMsg fx 0 5 h t m = (m, true) := by
  rw [serveMsg, if_pos ⟨rfl, rfl⟩, good, here]
  rfl

theorem serveMsg_spec_away (away : fencedLike m = true) : serveMsg fx 0 5 h t m = (serveRefused fx h m, true) := by
  rw [serveMsg, if_pos ⟨rfl, rfl⟩, good, away]
  rfl

end

/-- A message that is refused is answered MISHOMED where it is not at home here, else DENIED. -/
theorem HostLands.refused {s : State} {i : Instr} {cls msg : BitVec 4} {h : HostMsg} (b : HostLands s i cls msg h)
    (e : serveMsg s.fx cls msg h none (hostMet s cls msg h) = (serveRefused s.fx h (hostMet s cls msg h), true)) :
    (fencedLike (hostMet s cls msg h) = true ∨ memHome s.fx (hostMet s cls msg h) h.address = .mishomed →
      exec i s = .next (s.put (count 0x011 (ndr h 0 stMishomed (hostMet s cls msg h))))) ∧
    (fencedLike (hostMet s cls msg h) = false → memHome s.fx (hostMet s cls msg h) h.address ≠ .mishomed →
      exec i s = .next (s.put (count 0x010 (ndr h 0 stDenied (hostMet s cls msg h))))) :=
  ⟨fun away => b.put (by rw [e, serveRefused_away away]) (resting_count (resting_ndr b.resting)),
   fun here home => b.put (by rw [e, serveRefused_here here home]) (resting_count (resting_ndr b.resting))⟩

/-- A BIConflict is answered as its checks say, whether it passes what is held or not. -/
theorem HostLands.conflict {s : State} {i : Instr} {h : HostMsg} {t : Mach} (b : HostLands s i 0 8 h)
    (e : serveConflict s.fx h (hostMet s 0 8 h) = t) (rest : Machine.resting t = true) : exec i s = .next (s.put t) :=
  b.put (Prod.ext e rfl) rest

/-! ### Answers to snoops (R308, R310, R318) -/

section
variable {fx : Fixed} {msg : BitVec 4} {h : HostMsg} {m : Mach}

theorem serveBirsp_off (off : m.life.st = .off) : serveBirsp fx msg h m = m := if_pos off

/-- The snoop that an answer names, by agent and tag. -/
def snoopNamed (m : Mach) (h : HostMsg) : Option Snoop := m.dir.snoops.find? fun x => x.agent = h.agent && x.ctag = h.ctag

theorem serveBirsp_stray (on : m.life.st ≠ .off) (stray : snoopNamed m h = none ∨ h.rightChannel = false ∨ 2 < msg.toNat) :
    serveBirsp fx msg h m = hostStray fx h m := by
  cases met : snoopNamed m h with
  | none =>
    rw [snoopNamed] at met
    rw [serveBirsp, if_neg on, met]
  | some x =>
    have unfit : h.rightChannel = false ∨ 2 < msg.toNat := stray.resolve_left (by rw [met]; exact Option.some_ne_none x)
    rw [snoopNamed] at met
    simp only [serveBirsp, on, if_false, met]
    exact if_pos (by simpa using unfit)

variable {x : Snoop} (on : m.life.st ≠ .off) (met : snoopNamed m h = some x) (right : h.rightChannel = true) (low : msg.toNat ≤ 2)
include on met right low

theorem serveBirsp_unknown (unknown : m.dir.en.getLsbD h.agent.toNat = false) : serveBirsp fx msg h m = logErr fx 0x39 0 (hostLoc h) m := by
  rw [snoopNamed] at met
  simp only [serveBirsp, on, if_false, met, right, Nat.not_lt.mpr low, unknown, Bool.not_true, Bool.not_false, decide_false, Bool.or_self,
    Bool.false_eq_true, if_true]

/-- A stronger answer than a snoop allows, logged. -/
def oddAnswer (fx : Fixed) (h : HostMsg) (x : Snoop) (m : Mach) : Mach := logErr fx 0x39 0 (h.agent.toNat * 2 ^ 52 + locM x.line) m

/-- What an answer does that is taken, by its snoop. -/
def answerTaken (fx : Fixed) (msg : BitVec 4) (h : HostMsg) (x : Snoop) (m : Mach) : Mach :=
  if x.taken then endSnoop fx x 0 m
  else if x.kind = 2 then endSnoop fx x 0 (if msg = 0 then m
    else post fx 0x09 (BitVec.ofNat 64 (msg.toNat * 2 ^ 12 + h.agent.toNat)) (oddAnswer fx h x m))
  else if x.kind = 1 then endSnoop fx x (min 1 msg.toNat) (if msg = 2 then oddAnswer fx h x m else m)
  else endSnoop fx x msg.toNat m

theorem serveBirsp_taken (known : m.dir.en.getLsbD h.agent.toNat = true) (up : awake m [dDir (quadOf x.line)] = true) :
    serveBirsp fx msg h m = answerTaken fx msg h x m := by
  rw [snoopNamed] at met
  simp only [serveBirsp, on, if_false, met, right, Nat.not_lt.mpr low, known, needDom_awake up (List.mem_singleton_self _), Bool.not_true,
    decide_false, Bool.or_self, Bool.false_eq_true]
  rfl

end

/-! What each snoop lets its answer set; 0 is I, 1 S, 2 A (R318, R322). -/

section
variable {fx : Fixed} {msg : BitVec 4} {h : HostMsg} {x : Snoop} {m : Mach}

/-- One that an eviction crossed counts as I. -/
theorem answerTaken_crossed (crossed : x.taken = true) : answerTaken fx msg h x m = endSnoop fx x 0 m := if_pos crossed

variable (plain : x.taken = false)
include plain

theorem answerTaken_inv (inv : x.kind = 2) (weak : msg = 0) : answerTaken fx msg h x m = endSnoop fx x 0 m := by
  rw [answerTaken, plain, if_neg Bool.false_ne_true, if_pos inv, if_pos weak]

theorem answerTaken_inv_odd (inv : x.kind = 2) (strong : msg ≠ 0) : answerTaken fx msg h x m =
    endSnoop fx x 0 (post fx 0x09 (BitVec.ofNat 64 (msg.toNat * 2 ^ 12 + h.agent.toNat)) (oddAnswer fx h x m)) := by
  rw [answerTaken, plain, if_neg Bool.false_ne_true, if_pos inv, if_neg strong]

theorem answerTaken_data (data : x.kind = 1) (low : msg.toNat ≤ 2) (weak : msg ≠ 2) : answerTaken fx msg h x m = endSnoop fx x msg.toNat m := by
  have le : msg.toNat ≤ 1 := by
    have ne : msg.toNat ≠ 2 := fun e => weak (BitVec.eq_of_toNat_eq e)
    omega
  rw [answerTaken, plain, if_neg Bool.false_ne_true, if_neg (by rw [data]; decide), if_pos data, if_neg weak, Nat.min_eq_right le]

theorem answerTaken_data_odd (data : x.kind = 1) (strong : msg = 2) : answerTaken fx msg h x m = endSnoop fx x 1 (oddAnswer fx h x m) := by
  subst strong
  rw [answerTaken, plain, if_neg Bool.false_ne_true, if_neg (by rw [data]; decide), if_pos data, if_pos rfl]
  rfl

theorem answerTaken_cur (notData : x.kind ≠ 1) (notInv : x.kind ≠ 2) : answerTaken fx msg h x m = endSnoop fx x msg.toNat m := by
  rw [answerTaken, plain, if_neg Bool.false_ne_true, if_neg notInv, if_neg notData]

end

/-! ### Snoops that are not answered in time (R324) -/

section
variable {fx : Fixed} {ctag : BitVec 16} {m : Mach}

/-- No fence walks the directory of a block at rest. -/
theorem snoopLate_resting (rest : resting m = true) : snoopLate fx ctag m = snoopExpire fx ctag m := by
  have walk : fenceWalks m = false := fenceWalks_resting rest
  simp only [snoopLate]
  split
  · rename_i walks
    exact absurd (walks.symm.trans walk) (by decide)
  · rfl

theorem snoopExpire_none (gone : m.dir.snoops.find? (·.ctag = ctag) = none) : snoopExpire fx ctag m = m := by
  rw [snoopExpire, gone]

/-- A snoop has been out for SNOOP_TIMEOUT ticks, and its agent is not marked yet. -/
def snoopDue (m : Mach) (x : Snoop) : Prop :=
  m.regs.snoopTimeout ≠ 0 ∧ x.tick + m.regs.snoopTimeout.toNat ≤ tickOf m.cyc ∧ m.dir.hung.getLsbD x.agent.toNat = false

/-- The agent marked hung, and the event of it posted. -/
def markHung (fx : Fixed) (a : BitVec 4) (m : Mach) : Mach :=
  post fx 0x08 (a.zeroExtend 64) { m with dir := { m.dir with hung := m.dir.hung ||| ((1 : BitVec 16) <<< a.toNat) } }

theorem resting_markHung {a : BitVec 4} (rest : resting m = true) : resting (markHung fx a m) = true := resting_post (by exact rest)

variable {x : Snoop} (met : m.dir.snoops.find? (·.ctag = ctag) = some x)
include met

theorem snoopExpire_early (early : ¬ snoopDue m x) : snoopExpire fx ctag m = m := by
  rw [snoopExpire, met]
  refine if_pos ?_
  simp only [snoopDue, not_and_or, not_not, Nat.not_le, Bool.not_eq_false] at early
  simpa only [Bool.or_eq_true, decide_eq_true_eq, or_assoc] using early

theorem snoopExpire_due (due : snoopDue m x) : snoopExpire fx ctag m = markHung fx x.agent m := by
  obtain ⟨set, late, unmarked⟩ := due
  rw [snoopExpire, met]
  simp only [set, Nat.not_lt.mpr late, unmarked, decide_false, Bool.or_self, Bool.false_eq_true, if_false]
  rfl

end

/-! ### The obligation -/

/-- Settles O44: what is refused, MemSpecRd, BIConflict, the answers to snoops, and the snoops without one. -/
theorem hostAnswers : Obligations.HostAnswers := by
  unfold Obligations.HostAnswers
  intro s still
  refine ⟨fun i h cls msg kind free => ?refused, fun h free right good => ?spec, fun h free => ?conflict, fun i msg h kind => ?answers,
    fun ctag cyc => ?timeout⟩
  case refused =>
    have row : exec i s = actM s fun fx m => arriveHost fx cls msg h m := by
      rcases kind with ⟨rfl, rfl, rfl, -⟩ | ⟨rfl, other, -⟩
      · exact row_hostMemspecrd ..
      · exact (row_hostMsgRefused ..).trans (by simp only [other, if_false])
    have refused := serveMsg_refused (fx := s.fx) (m := hostMet s cls msg h) (kind.imp And.right fun k => k.2.2) none
    have b : h.rightChannel = true → HostLands s i cls msg h := fun right => ⟨still, row, free, right⟩
    exact ⟨hostMessage_stray row still free, fun right => ((b right).refused refused).1, fun right => ((b right).refused refused).2⟩
  case spec =>
    have b : HostLands s (.hostMemspecrd h) 0 5 h := ⟨still, row_hostMemspecrd .., free, right⟩
    exact ⟨fun here => b.put (serveMsg_spec good none here) b.resting, fun away => (b.refused (serveMsg_spec_away good none away)).1 (.inl away)⟩
  case conflict =>
    intro i n away home
    have row : exec i s = actM s fun fx m => arriveHost fx 0 8 h m := row_hostBiconflict ..
    have b : h.rightChannel = true → HostLands s i 0 8 h := fun right => ⟨still, row, free, right⟩
    have rest : resting n = true := countAccept_resting still
    refine ⟨hostMessage_stray row still free, fun right away => (b right).conflict (serveConflict_away away) (resting_count (resting_ndr rest)),
      fun right here denied => (b right).conflict (serveConflict_denied here denied) (resting_count (resting_ndr rest)),
      fun off right here at_ => ?_⟩
    have checks := serveConflict_home here at_
    have accepted := fun good : hostFields h = true => checks.trans (if_neg (ne_false_of_eq_true good))
    exact ⟨fun bad => (b right).conflict (checks.trans (if_pos bad)) (resting_count (resting_ndr rest)),
      fun good closed => (b right).conflict ((accepted good).trans (if_pos closed)) (resting_ndr rest),
      fun good on => (b right).conflict ((accepted good).trans (if_neg (ne_false_of_eq_true on))) (resting_count (resting_departed (resting_emit rest)))⟩
  case answers =>
    intro met known
    have row : exec i s = actM s fun fx m => serveBirsp fx msg h m := by
      rcases kind with rfl | rfl
      · exact row_hostBirsp ..
      · exact row_hostMsgRefused ..
    refine ⟨fun off => row.trans (actM_rest (serveBirsp_off off) still),
      fun on stray => row.trans (actM_rest (serveBirsp_stray on stray) (resting_hostStray still)), fun x on named right low up => ?named⟩
    intro odd set
    have taken : ∀ {n : Mach}, known = true → answerTaken s.fx msg h x s.m = n → exec i s = .next (s.after n) := fun enabled e =>
      row.trans (actM_goes ((serveBirsp_taken on named right low enabled up).trans e))
    exact ⟨fun unknown => row.trans (actM_rest (serveBirsp_unknown on named right low unknown) (resting_logErr still)),
      fun enabled crossed => taken enabled (answerTaken_crossed crossed),
      fun enabled plain inv => ⟨fun weak => taken enabled (answerTaken_inv plain inv weak), fun strong => taken enabled (answerTaken_inv_odd plain inv strong)⟩,
      fun enabled plain data => ⟨fun weak => taken enabled (answerTaken_data plain data low weak),
        fun strong => taken enabled (answerTaken_data_odd plain data strong)⟩,
      fun enabled plain notData notInv => taken enabled (answerTaken_cur plain notData notInv)⟩
  case timeout =>
    intro m due met
    have row : ∀ {n : Mach}, snoopExpire s.fx ctag m = n → resting n = true → exec (.snoopTimeout ctag cyc) s = .next (s.put n) := fun e rest =>
      (row_snoopTimeout ..).trans (actAt_rest ((snoopLate_resting (resting_advance still)).trans e) rest)
    have rest : resting m = true := resting_advance still
    exact ⟨fun gone => row (snoopExpire_none gone) rest, fun x named => ⟨fun early => row (snoopExpire_early named early) rest,
      fun late => row (snoopExpire_due named late) (resting_markHung rest)⟩⟩

end Sys2Proof.Machine
end

section
/-! SUPPORT. A step and the queue of commands that wait (log 1): which row is taken, and that performing any row leaves the queue alone. -/

namespace Sys2Proof.Machine

/-- What a row answers is a next state with the same commands waiting. -/
def KeepsQueue (s : State) (o : Host.Outcome State Fault Refusal) : Prop := ∃ t, o = .next t ∧ t.pending = s.pending

theorem act_keepsQueue (s : State) (f : Fixed → Mach → Fixed × Mach) : KeepsQueue s (act s f) := ⟨_, rfl, rfl⟩

theorem actM_keepsQueue (s : State) (f : Fixed → Mach → Mach) : KeepsQueue s (actM s f) := act_keepsQueue s _

theorem actAt_keepsQueue (s : State) (cyc : Nat) (f : Fixed → Mach → Mach) : KeepsQueue s (actAt s cyc f) := actM_keepsQueue s _

/-- Settles O1: the queue's front is what `step` matches on. -/
theorem stepTakesTheFront : Obligations.StepTakesTheFront :=
  ⟨fun _ _ _ => rfl, fun s empty => by rw [step, empty]⟩

/-- Settles O2: the two resets replace the block at once, the rows that reach the control window act on the fixed part too, and every other row,
with a control cycle or without, acts on the block alone. -/
theorem everyRowCompletes : Obligations.EveryRowCompletes := by
  intro i s
  show KeepsQueue s (exec i s)
  cases i <;> rw [exec]
  case coldRstAssert | warmRstAssert => exact ⟨_, rfl, rfl⟩
  case sbRead | sbWrite | windowAccess | registerWrite | sliceIdWrite | cmdqCtlWrite | cmdqTailWrite | rplqHeadWrite | evqCtlWrite |
      evqHeadWrite | recovCtlHwfence | dbgPeekAddrWrite | pmcRdWrite | redCtlWrite | krtWrite | bootCtlWrite | hcAgentWrite =>
    exact act_keepsQueue ..
  case firmwareLoadTimeout | towlineForwardRetry | hopTimeout | waitTimeout | snoopTimeout | pilotLeaseExpiry | quarantineTimeout |
      sweepNoticeTimeout | jamEdgeExport | effWindowEnd | seasonWindowEnd | quiesceTimeout | dumpDue | viewRecordWrite |
      confidentialLatch | pmTlmWindowEnd | fwStageTimeout | fwActivateTimeout | pinPressureWindowEnd | teardownHoldExpiry |
      syncIndexHoldExpiry | hwFencePowerOff =>
    exact actAt_keepsQueue ..
  all_goals exact actM_keepsQueue ..

end Sys2Proof.Machine
end

section
/-! SUPPORT. Events and the error log (15_integrity_and_sparing.md R404, R405; 19_control_window.md R475, R476): what a posted event makes of
the event ring, and what an error makes of the log. -/

namespace Sys2Proof.Machine

/-! ### An event -/

section
variable {fx : Fixed} {code : BitVec 8} {d : W64} {m : Mach}

/-- The event ring with an event posted: it joins the pending buffer last while there is room, and is counted lost otherwise (R475). -/
def ringed (code : BitVec 8) (d : W64) (cyc : Nat) (q : Evq) : Evq :=
  if q.pend.length < 64 then { q with pend := q.pend ++ [⟨code, q.seq, BitVec.ofNat 32 cyc, d⟩], seq := q.seq + 1 }
  else { q with lost := if q.lost = 0xFFFF then q.lost else q.lost + 1, seq := q.seq + 1 }

theorem ringed_seq (cyc : Nat) (q : Evq) : (ringed code d cyc q).seq = q.seq + 1 := by
  rw [ringed]
  split <;> rfl

theorem ringed_room {cyc : Nat} {q : Evq} (room : q.pend.length < 64) : (ringed code d cyc q).pend = q.pend ++ [⟨code, q.seq, BitVec.ofNat 32 cyc, d⟩] ∧
    (ringed code d cyc q).lost = q.lost := by
  rw [ringed, if_pos room]
  exact ⟨rfl, rfl⟩

theorem ringed_full {cyc : Nat} {q : Evq} (full : 64 ≤ q.pend.length) : (ringed code d cyc q).pend = q.pend ∧
    (ringed code d cyc q).lost = if q.lost = 0xFFFF then q.lost else q.lost + 1 := by
  rw [ringed, if_neg (Nat.not_lt.mpr full)]
  exact ⟨rfl, rfl⟩

theorem emit_evq (o : Out) (m : Mach) : (emit o m).evq = m.evq := by
  obtain ⟨l, e⟩ := emit_frame o m
  rw [e]

/-- The ring is all that an event changes in the block, and its mirror (R476) leaves it so. -/
theorem post_evq : (post fx code d m).evq = ringed code d m.cyc m.evq := by
  simp only [post]
  split
  · exact emit_evq _ _
  · rfl

theorem post_mirrored : post fx code d m =
    if m.evq.sbmir then emit (.sb (BitVec.ofNat 64 (11 * 2 ^ 60 + fx.siteId.toNat * 2 ^ 52 + code.toNat * 2 ^ 24 + m.evq.seq.toNat)))
      { m with evq := ringed code d m.cyc m.evq }
    else { m with evq := ringed code d m.cyc m.evq } := rfl

end

/-! ### An error -/

section
variable {fx : Fixed} {cls at_ loc : Nat} {m : Mach}

/-- The entry that an error makes in the log (15 Table ECC-4). -/
def errEntry (cls at_ loc : Nat) (m : Mach) : W64 × W64 :=
  (BitVec.ofNat 64 (cls * 2 ^ 56 + sevOf cls * 2 ^ 53 + at_ * 2 ^ 48 + m.err.next.toNat * 2 ^ 32 + m.cyc % 2 ^ 32), BitVec.ofNat 64 (loc % 2 ^ 56))

/-- The error repeats the newest entry's class and place (R405). -/
def repeats (cls loc : Nat) (w : W64 × W64) : Prop := fld w.1 63 56 = cls ∧ fld w.2 55 0 = loc % 2 ^ 56

/-- The counters of errors count, and nothing else changes. -/
theorem counted_frame (sev : Nat) (m : Mach) :
    ∃ p, { count (0x023 + sev) m with pmc := addFix 7 1 (count (0x023 + sev) m).pmc } = { m with pmc := p } := by
  obtain ⟨p, e⟩ := countN_frame (0x023 + sev) none none 1 m
  rw [count, e]
  exact ⟨_, rfl⟩

/-- A repetition that REPEAT can no longer count changes nothing. -/
theorem logErr_saturated {w : W64 × W64} (newest : m.err.log.getLast? = some w) (same : repeats cls loc w) (full : fld w.2 63 56 = 0xFF) :
    logErr fx cls at_ loc m = m := by
  obtain ⟨c, l⟩ := same
  simp only [logErr, newest, c, l, and_self, if_true, full]

/-- Any other repetition adds one to REPEAT, and posts no event. -/
theorem logErr_repeated {w : W64 × W64} (newest : m.err.log.getLast? = some w) (same : repeats cls loc w) (room : fld w.2 63 56 ≠ 0xFF) :
    ∃ p, logErr fx cls at_ loc m =
      { m with err := { m.err with log := m.err.log.dropLast ++ [(w.1, w.2 + BitVec.ofNat 64 (2 ^ 56))] }, pmc := p } := by
  obtain ⟨c, l⟩ := same
  simp only [logErr, newest, c, l, and_self, if_true, room, if_false]
  exact counted_frame ..

/-- The log with a new entry: it is the newest, and pushes out the oldest of 1,024 (R404). -/
def logged (cls at_ loc : Nat) (m : Mach) : ErrSt :=
  { m.err with
    log := (if 1024 ≤ m.err.log.length then m.err.log.drop 1 else m.err.log) ++ [errEntry cls at_ loc m]
    next := m.err.next + 1
    overwritten := if 1024 ≤ m.err.log.length ∧ m.err.overwritten ≠ 0xFFFF then m.err.overwritten + 1 else m.err.overwritten }

/-- An error that repeats nothing is logged anew, and posts ERROR where it is severe. -/
theorem logErr_fresh (other : ∀ w, m.err.log.getLast? = some w → ¬ repeats cls loc w) : ∃ p,
    logErr fx cls at_ loc m = if 2 ≤ sevOf cls
      then post fx 0x06 (BitVec.ofNat 64 (cls * 2 ^ 56 + m.err.next.toNat * 2 ^ 32)) { m with err := logged cls at_ loc m, pmc := p }
      else { m with err := logged cls at_ loc m, pmc := p } := by
  obtain ⟨p, e⟩ := counted_frame (sevOf cls) { m with err := logged cls at_ loc m }
  refine ⟨p, ?_⟩
  show _ = if 2 ≤ sevOf cls then post fx 0x06 _ { ({ m with err := logged cls at_ loc m } : Mach) with pmc := p }
    else { ({ m with err := logged cls at_ loc m } : Mach) with pmc := p }
  rw [← e, logErr]
  cases newest : m.err.log.getLast? with
  | none => rfl
  | some w => exact if_neg (other w newest)

end

/-! ### The obligation -/

/-- Settles O7: the ring's part of an event, then an error that repeats the newest entry, and one that does not. -/
theorem eventsAndErrors : Obligations.EventsAndErrors := by
  refine ⟨fun fx code d m => ?event, fun fx cls at_ loc m => ⟨fun w0 w1 newest c l => ?repeated, fun other => ?fresh⟩⟩
  case event =>
    simp only [post_evq]
    exact ⟨ringed_seq .., ringed_room, ringed_full, post_mirrored⟩
  case repeated =>
    by_cases full : fld w1 63 56 = 0xFF
    · have e : logErr fx cls at_ loc m = m := logErr_saturated newest ⟨c, l⟩ full
      simp only [e]
      exact ⟨trivial, trivial, fun _ => trivial, fun room => absurd full room⟩
    · obtain ⟨p, e⟩ := logErr_repeated (fx := fx) (at_ := at_) newest ⟨c, l⟩ full
      simp only [e]
      exact ⟨trivial, trivial, fun h => absurd h full, fun _ => trivial⟩
  case fresh =>
    obtain ⟨p, e⟩ := logErr_fresh (fx := fx) (at_ := at_) fun w h => other w.1 w.2 h
    by_cases severe : 2 ≤ sevOf cls
    · rw [if_pos severe] at e
      obtain ⟨q, l, frame⟩ := post_frame fx 0x06 (BitVec.ofNat 64 (cls * 2 ^ 56 + m.err.next.toNat * 2 ^ 32))
        { m with err := logged cls at_ loc m, pmc := p }
      have err : (logErr fx cls at_ loc m).err = logged cls at_ loc m := by rw [e, frame]
      simp only [err]
      refine ⟨rfl, rfl, fun mild => absurd severe (Nat.not_le.mpr mild), fun _ => ?_⟩
      rw [e, post_evq, post_evq]
    · rw [if_neg severe] at e
      simp only [e]
      exact ⟨rfl, rfl, fun _ => trivial, fun h => absurd h severe⟩

end Sys2Proof.Machine
end

section
/-! SUPPORT. Traffic classes, reservations and the memory port's measured bandwidth (12_bandwidth_and_latency.md R329, R337 to R341): what each
command answers, and that nothing is left to go on. -/

namespace Sys2Proof.Machine

/-- The classes play no part in what can go on. -/
theorem resting_qos {m : Mach} {q : QosSt} (h : resting m = true) : resting { m with qos := q } = true := h

theorem resting_setCls {i : Nat} {k : Cls} {m : Mach} (h : resting m = true) : resting (setCls i k m) = true := resting_qos h

section
variable {fx : Fixed} {c : Rec} {m : Mach}

/-! ### CLASS_SET (R329) -/

/-- A TARGET that no class may have. -/
def targetBad (t : Nat) : Prop := (1 ≤ t ∧ t ≤ 49) ∨ 65000 < t

theorem cmdClassSet_refuses (bad : targetBad (fld c.pkt.p0 31 16)) : cmdClassSet fx c m = complete fx c csBadParam [] m := by
  have stop : ((1 ≤ fld c.pkt.p0 31 16 && decide (fld c.pkt.p0 31 16 ≤ 49)) || decide (fld c.pkt.p0 31 16 > 65000)) = true := by
    simpa [targetBad] using bad
  simp only [cmdClassSet, stop, if_true]

theorem cmdClassSet_sets (good : ¬ targetBad (fld c.pkt.p0 31 16)) : cmdClassSet fx c m =
    (let i := fld c.pkt.p0 3 0
     let n := setCls i { clsOf m i with target := BitVec.ofNat 16 (fld c.pkt.p0 31 16), base := BitVec.ofNat 3 (fld c.pkt.p0 10 8) } m
     complete fx c csDone [(clsWord m i).zeroExtend 64] (regrant fx (shedMask n) n)) := by
  have pass : ((1 ≤ fld c.pkt.p0 31 16 && decide (fld c.pkt.p0 31 16 ≤ 49)) || decide (fld c.pkt.p0 31 16 > 65000)) = false := by
    rw [Bool.eq_false_iff]
    simpa [targetBad] using good
  simp only [cmdClassSet, pass, Bool.false_eq_true, if_false]

/-! ### RESERVE_BW (R339) -/

/-- What the other classes have reserved. -/
def reservedElse (i : Nat) (m : Mach) : Nat := (((List.range 16).filter (· ≠ i)).map fun j => (clsOf m j).resv.toNat).sum

theorem cmdReserve_refuses (bad : fld c.pkt.p0 28 16 = 0 ∨ 4000 < fld c.pkt.p0 28 16) : cmdReserve fx c m = complete fx c csBadParam [] m :=
  if_pos bad

theorem cmdReserve_within (some_ : 0 < fld c.pkt.p0 28 16) (most : fld c.pkt.p0 28 16 ≤ 4000) : cmdReserve fx c m =
    (let i := fld c.pkt.p0 3 0
     let sum := reservedElse i m + fld c.pkt.p0 28 16
     let n := regrant fx (shedMask m) (setCls i { clsOf m i with resv := BitVec.ofNat 13 (fld c.pkt.p0 28 16) } m)
     if limitOf m.qos.eff < sum then complete fx c csNoBw [BitVec.ofNat 64 (limitOf m.qos.eff - reservedElse i m)] m
     else complete fx c csDone [(clsOf n i).grant.zeroExtend 64, BitVec.ofNat 64 (limitOf m.qos.eff - sum)] n) :=
  if_neg (by omega)

/-! ### The port's window and its tokens (R337, R338) -/

theorem tokenRefill_rest {i : Nat} (h : resting m = true) : tokenRefill fx i m =
    if (clsOf m i).grant = 0 then m else setCls i { clsOf m i with tokens := min 64 ((clsOf m i).tokens + 1) } m := by
  simp only [tokenRefill, pump_rest (resting_setCls h)]

theorem resting_credited {lines cycles : Nat} (h : resting m = true) : resting { m with
    cache := { m.cache with credits := m.cache.credits + lines }
    qos := { m.qos with winC := m.qos.winC + cycles, winN := m.qos.winN + lines } } = true := h

end

/-! ### The obligation -/

/-- Settles O25, row by row; grants that are recomputed let nothing go on. -/
theorem bandwidthRows : Obligations.BandwidthRows := by
  intro s p c m ends i k
  refine ⟨fun b => ⟨fun bad => ?classBad, fun good => ?classSet⟩,
    fun b => ⟨fun bad => ?reserveBad, fun low high beyond => ?reserveOver, fun low high fits => ?reserve⟩,
    fun b => ?release, fun still => ⟨fun cyc => ?window, fun cls => ?refill, fun lines cycles => ?credit⟩⟩
  case classBad => exact begins_completes b ((start_classSet b).trans (cmdClassSet_refuses bad)) b.resting
  case classSet => exact begins_completes b ((start_classSet b).trans (cmdClassSet_sets good)) (resting_regrant (resting_setCls b.resting))
  case reserveBad => exact begins_completes b ((start_reserveBw b).trans (cmdReserve_refuses bad)) b.resting
  case reserveOver =>
    exact begins_completes b ((start_reserveBw b).trans ((cmdReserve_within low high).trans (if_pos beyond))) b.resting
  case reserve =>
    exact begins_completes b ((start_reserveBw b).trans ((cmdReserve_within low high).trans (if_neg (Nat.not_lt.mpr fits))))
      (resting_regrant (resting_setCls b.resting))
  case release => exact begins_completes b (start_releaseBw b) (resting_regrant (resting_setCls b.resting))
  case window => exact (row_effWindowEnd ..).trans (actAt_rest rfl (resting_regrant (resting_qos (resting_advance still))))
  case refill =>
    exact (row_reservationTokenRefill ..).trans (actM_rest (tokenRefill_rest still) (resting_ite still (resting_setCls still)))
  case credit =>
    exact (row_memoryPortCredit ..).trans (actM_rest (pump_rest (resting_credited still)) (resting_credited still))

end Sys2Proof.Machine
end

section
/-! SUPPORT. The teardown of a context with nothing at the slice (16_recovery.md R426 to R428, R432, R433, R437): what each step of a purge, a
freeze and a release finds, which is nothing. -/

namespace Sys2Proof.Machine

/-! ### No request waits -/

/-- No request waits in a replay queue, on a ticket, on a fill, in a contribution queue or for the sync store's thaw. -/
structure Unheld (m : Mach) : Prop where
  replay : m.cache.replay = []
  tickets : m.cache.tickets = []
  fills : m.sparse.fills = []
  qN : m.red.qN = []
  qS : m.red.qS = []
  thawQ : m.sync.thawQ = []

section
variable {m : Mach} (h : Unheld m)
include h

theorem Unheld.keepAccs (keep : Access → Bool) : keepAccs keep m = m := by
  have replay : (m.cache.replay.filter fun p => keep p.acc) = m.cache.replay := by rw [h.replay]; rfl
  have tickets : (m.cache.tickets.map fun t => { t with waiters := t.waiters.filter keep }) = m.cache.tickets := by rw [h.tickets]; rfl
  have fills : (m.sparse.fills.map fun f => { f with waiters := f.waiters.filter keep }) = m.sparse.fills := by rw [h.fills]; rfl
  simp only [Machine.keepAccs, replay, tickets, fills]

theorem Unheld.waiting : waitingAccs m = [] := by rw [waitingAccs, h.replay, h.tickets, h.fills]; rfl

theorem Unheld.pullAccs (pick : BitVec 6 → Req → Bool) (ans : Access → BitVec 6 → Req → Mach → Mach) : pullAccs pick ans m = (m, 0) := by
  simp only [Machine.pullAccs, h.waiting, List.flatMap_nil, List.foldl_nil, List.length_nil, h.keepAccs]

theorem Unheld.pullHosts (ans : HostMsg → Mach → Mach) : pullHosts ans m = m := by
  simp only [Machine.pullHosts, h.waiting, List.flatMap_nil, List.foldl_nil, h.keepAccs]

theorem Unheld.pullQueues (pick : QEnt → Bool) (ans : QEnt → Mach → Mach) : pullQueues pick ans m = (m, 0) := by
  have got : (m.red.qN ++ m.red.qS).filter pick = [] := by rw [h.qN, h.qS]; rfl
  have north : m.red.qN.filter (!pick ·) = m.red.qN := by rw [h.qN]; rfl
  have south : m.red.qS.filter (!pick ·) = m.red.qS := by rw [h.qS]; rfl
  simp only [Machine.pullQueues, got, north, south, List.filter_nil, List.foldl_nil, List.length_nil]

theorem Unheld.pullThaws (pick : Req → Bool) (ans : BitVec 6 → Req → Mach → Mach) : pullThaws pick ans m = (m, 0) := by
  simp only [Machine.pullThaws, h.thawQ, List.filter_nil, List.foldl_nil, List.length_nil]
  rw [← h.thawQ]

end

/-! ### Nothing of the context at the slice -/

/-- No request is held anywhere, and the context owns no object and is a member of none; of the commands in progress nothing is said, since a
purge is one itself. -/
structure Vacant (m : Mach) (c : Ctx) (g : Gen) : Prop where
  replay : m.cache.replay = []
  tickets : m.cache.tickets = []
  writes : m.cache.writes = []
  own : m.cache.own = []
  done : m.cache.done = []
  fills : m.sparse.fills = []
  qN : m.red.qN = []
  qS : m.red.qS = []
  folds : m.red.folds = []
  thawQ : m.sync.thawQ = []
  counts : m.sync.coalWait = []
  members : ∀ x ∈ m.sync.members, x.2.any (·.1 = c) = false
  objs : ∀ x ∈ m.sync.objs, ((syncObj m (BitVec.ofNat 14 x.1)).valid && !(syncObj m (BitVec.ofNat 14 x.1)).orphan &&
    decide ((syncObj m (BitVec.ofNat 14 x.1)).owner = c) && decide ((syncObj m (BitVec.ofNat 14 x.1)).ogen = g)) = false
  berths : (m.berth.berths.filter fun x => (x.2.valid || x.2.freeing) && decide (x.2.ctx = c)) = []
  arenas : (m.berth.arenas.filter fun x => x.2.valid && decide (x.2.ctx = c)) = []
  ferries : (m.berth.ferries.filter fun x => x.2.valid && decide (x.2.ctx = c)) = []
  tiles : (m.red.tiles.filter fun x => x.2.valid && decide (x.2.ctx = c)) = []
  scat : (m.sparse.scat.filter fun x => x.2.valid && decide (x.2.ctx = c)) = []

theorem Bare.vacant {m : Mach} {c : Ctx} {g : Gen} (h : Bare m c g) (still : resting m = true) : Vacant m c g := by
  obtain ⟨calm, -, -⟩ := (resting_iff m).mp still
  obtain ⟨berths, arenas, ferries, tiles, scat, -⟩ := h.none
  exact ⟨h.replay, h.tickets, h.writes, calm.own, calm.done, h.fills, h.qN, h.qS, calm.folds, calm.thawQ, h.counts, h.members, h.objs,
    berths, arenas, ferries, tiles, scat⟩

/-- The context's own record and the commands in progress play no part in it. -/
theorem Vacant.with {m : Mach} {c : Ctx} {g : Gen} (h : Vacant m c g) (x : Tbl CtxEntry) (k : Cmds) :
    Vacant { m with ctxs := x, cmds := k } c g :=
  ⟨h.1, h.2, h.3, h.4, h.5, h.6, h.7, h.8, h.9, h.10, h.11, h.12, h.13, h.14, h.15, h.16, h.17, h.18⟩

/-- The context's grants and permits ended (R427). -/
def endRights (c : Ctx) (g : Gen) (m : Mach) : Mach :=
  { m with keys := { m.keys with grants := m.keys.grants.filter fun k => !(k.ctx = c && k.gen = g) }
           pmc := { m.pmc with permits := m.pmc.permits.filter (·.ctx ≠ c) } }

section
variable {m : Mach} {c : Ctx} {g : Gen} (h : Vacant m c g)
include h

/-! ### Withdrawal and release (R426, R427) -/

theorem Vacant.unheld : Unheld m := ⟨h.replay, h.tickets, h.fills, h.qN, h.qS, h.thawQ⟩

theorem Vacant.withdraw : withdraw c g m = (m, 0) := by
  simp only [Machine.withdraw, h.unheld.pullAccs, h.unheld.pullQueues, h.unheld.pullThaws]

theorem Vacant.purgeObjects (fx : Fixed) : purgeObjects fx c g m = m := by
  rw [Machine.purgeObjects]
  exact foldl_keeps _ _ _ fun x hx => by simp only [h.objs x hx, Bool.false_eq_true, if_false]

theorem Vacant.dropMemberships (fx : Fixed) : dropMemberships fx c m = m := by
  rw [Machine.dropMemberships]
  exact foldl_keeps _ _ _ fun x hx => by simp [h.members x hx]

theorem Vacant.releaseObjs (fx : Fixed) : releaseObjs fx c m = m := by
  simp only [Machine.releaseObjs, keysOf, h.ferries, h.berths, h.scat, h.arenas, List.map_nil, List.foldl_nil]

/-- A purge's release finds nothing: it ends the grants and permits, and posts its event. -/
theorem Vacant.releaseCtx (fx : Fixed) : releaseCtx fx c g m = (post fx 0x0C (BitVec.ofNat 64 (g.toNat * 4096 + c.toNat))
    (endRights c g m), 0, 0) := by
  have dropped : ∀ (k : KeySt) (p : PmcSt), dropOwn (· = .view c) { m with keys := k, pmc := p } = { m with keys := k, pmc := p } := by
    intro k p
    simp only [dropOwn, h.own, h.tickets, h.writes, h.done, h.fills, List.filter_nil, List.map_nil]
    rw [← h.own, ← h.tickets, ← h.writes, ← h.done, ← h.fills]
  simp only [Machine.releaseCtx, h.withdraw, h.purgeObjects, h.dropMemberships, keysOf, h.tiles, List.map_nil, List.foldl_nil, h.releaseObjs,
    ite_self, dropped, Nat.sub_self, endRights]

/-- No request of the context is out (R432). -/
theorem Vacant.ctxOut (x : Ctx) (y : Gen) : ctxOut m x y = 0 := by
  have none_ : admitted m = [] := by
    simp only [admitted, underWay, h.replay, h.tickets, h.fills, h.writes, h.qN, h.qS, h.folds, h.thawQ, h.counts, List.flatMap_nil,
      List.append_nil, List.filterMap_nil, List.map_nil]
  rw [Machine.ctxOut, none_]
  rfl

end

/-! ### CTX_PURGE (R426, R428) -/

section
variable {fx : Fixed} {c : Rec} {m : Mach}

/-- The block as a purge that finds nothing leaves it before it completes. -/
def purged (fx : Fixed) (x : Ctx) (g : Gen) (m : Mach) : Mach :=
  post fx 0x0C (BitVec.ofNat 64 (g.toNat * 4096 + x.toNat))
    (endRights x g (setCtx x { ctxOf m x with purged := true, frozen := false, gen := g } m))

/-- No purge of the context has completed in this control cycle, and none runs: a new one is carried out (log 68). -/
theorem cmdCtxPurge_starts (idle : m.cmds.running = []) (wait : m.cmds.waiting = [])
    (last : ∀ q, m.cmds.purge = some q → q.1 = cCtx c → q.2.2.1 ≠ m.cyc) : cmdCtxPurge fx c m =
    (let objs := ownedCount m (cCtx c) (cGen c) + orphansOf m (cCtx c) (cGen c)
     pumpPurge fx c 0 objs (runOn c (.purge 0 objs) (setCtx (cCtx c) { ctxOf m (cCtx c) with purged := true, frozen := false, gen := cGen c } m))) := by
  have fresh : (m.cmds.purge.filter fun p => p.1 = cCtx c && p.2.1 = cGen c && decide (p.2.2.1 = m.cyc) && (ctxOf m (cCtx c)).purged) = none := by
    cases q : m.cmds.purge with
    | none => rfl
    | some q' =>
      have new : ¬ (q'.1 = cCtx c ∧ q'.2.2.1 = m.cyc) := fun ⟨same, now⟩ => last q' q same now
      refine Option.filter_eq_none_iff.mpr fun p hp => ?_
      cases hp
      simp only [Bool.and_eq_true, decide_eq_true_eq]
      rintro ⟨⟨⟨same, -⟩, now⟩, -⟩
      exact new ⟨same, now⟩
  have cut := cancelAll_idle (fx := fx) (m := setCtx (cCtx c) { ctxOf m (cCtx c) with purged := true, frozen := false, gen := cGen c } m)
    (fun x => decide (x.id ≠ c.id) && namesCtx fx m (cCtx c) (cGen c) x) idle wait
  simp only [cmdCtxPurge, idle, List.find?_nil, fresh, cutCtx, cut]

/-- A purge in progress whose domains are awake and that finds nothing is over. -/
theorem pumpPurge_vacant {n : Mach} {objs : Nat} (empty : Vacant n (cCtx c) (cGen c))
    (doms : purgeDoms n (cCtx c) = [] ∨ awake n (purgeDoms n (cCtx c)) = true) (left : objs = orphansOf n (cCtx c) (cGen c)) :
    pumpPurge fx c 0 objs n = endPurge fx c csDone [0, 0, 0] (releaseCtx fx (cCtx c) (cGen c) n).1 := by
  have up : waitDoms c.id (purgeDoms n (cCtx c)) n = (n, true) := by
    rcases doms with none_ | awake
    · rw [none_, waitDoms_nil]
    · exact waitDoms_awake _ awake fun _ hi => hi
  have same : orphansOf (releaseCtx fx (cCtx c) (cGen c) n).1 (cCtx c) (cGen c) = orphansOf n (cCtx c) (cGen c) := by
    rw [empty.releaseCtx]
    obtain ⟨q, l, e⟩ := post_frame fx 0x0C (BitVec.ofNat 64 ((cGen c).toNat * 4096 + (cCtx c).toNat))
      (endRights (cCtx c) (cGen c) n)
    simp only [e]
    rfl
  have none_ : (releaseCtx fx (cCtx c) (cGen c) n).2 = (0, 0) := by rw [empty.releaseCtx]
  simp only [pumpPurge, up, Bool.not_true, Bool.false_eq_true, if_false, none_, if_true, same, left, Nat.zero_mul, Nat.add_zero, Nat.sub_self]
  rfl

theorem post_runOn (code : BitVec 8) (d : W64) (p : Prog) : post fx code d (runOn c p m) = runOn c p (post fx code d m) := by
  obtain ⟨q, l, e⟩ := post_frame fx code d m
  rw [runOn, post_cmds, runOn, e]

/-- A purge that no other has joined completes alone. -/
theorem endPurge_alone {st nc objs now : Nat} {res : List W64} (idle : m.cmds.running = []) (cyc : m.cyc = now) :
    endPurge fx c st res (runOn c (.purge nc objs) m) =
      complete fx c st res { m with cmds := { m.cmds with purge := some (cCtx c, cGen c, now, st, res) } } := by
  have running : (runOn c (.purge nc objs) m).cmds.running = [⟨c, .purge nc objs⟩] := by
    rw [runOn, idle]
    rfl
  subst cyc
  rw [endPurge, running]
  exact complete_runOn fx c (.purge nc objs) st res { m with cmds := { m.cmds with purge := some (cCtx c, cGen c, m.cyc, st, res) } }

theorem purged_frame (fx : Fixed) (x : Ctx) (g : Gen) (m : Mach) :
    ∃ q l t k p, purged fx x g m = { m with ctxs := t, keys := k, pmc := p, evq := q, out := l } := by
  obtain ⟨q, l, e⟩ := post_frame fx 0x0C (BitVec.ofNat 64 (g.toNat * 4096 + x.toNat))
    (endRights x g (setCtx x { ctxOf m x with purged := true, frozen := false, gen := g } m))
  exact ⟨q, l, _, _, _, e⟩

theorem resting_purged {x : Ctx} {g : Gen} (h : resting m = true) : resting (purged fx x g m) = true := resting_post h

theorem resting_purge {p : Option (Ctx × Gen × Nat × Nat × List W64)} (h : resting m = true) :
    resting { m with cmds := { m.cmds with purge := p } } = true := h

/-- The release of a purge in progress, whose context has been cut off. -/
theorem releaseCtx_running {x : Ctx} {g : Gen} {p : Prog}
    (empty : Vacant (runOn c p (setCtx x { ctxOf m x with purged := true, frozen := false, gen := g } m)) x g) :
    (releaseCtx fx x g (runOn c p (setCtx x { ctxOf m x with purged := true, frozen := false, gen := g } m))).1 = runOn c p (purged fx x g m) := by
  rw [empty.releaseCtx]
  exact post_runOn (m := endRights x g (setCtx x { ctxOf m x with purged := true, frozen := false, gen := g } m)) _ _ p

/-- CTX_PURGE with nothing of the context at the slice. -/
theorem cmdCtxPurge_vacant (idle : m.cmds.running = []) (wait : m.cmds.waiting = [])
    (last : ∀ q, m.cmds.purge = some q → q.1 = cCtx c → q.2.2.1 ≠ m.cyc)
    (doms : purgeDoms m (cCtx c) = [] ∨ awake m (purgeDoms m (cCtx c)) = true) (empty : Vacant m (cCtx c) (cGen c))
    (owned : ownedCount m (cCtx c) (cGen c) = 0) : cmdCtxPurge fx c m =
    (let n := purged fx (cCtx c) (cGen c) m
     complete fx c csDone [0, 0, 0] { n with cmds := { n.cmds with purge := some (cCtx c, cGen c, m.cyc, csDone, [0, 0, 0]) } }) := by
  obtain ⟨q, l, t, k, p, frame⟩ := purged_frame fx (cCtx c) (cGen c) m
  have idle' : (purged fx (cCtx c) (cGen c) m).cmds.running = [] := by rw [frame]; exact idle
  have cyc : (purged fx (cCtx c) (cGen c) m).cyc = m.cyc := by rw [frame]
  have empty' : Vacant (runOn c (.purge 0 (orphansOf m (cCtx c) (cGen c))) (setCtx (cCtx c)
      { ctxOf m (cCtx c) with purged := true, frozen := false, gen := cGen c } m)) (cCtx c) (cGen c) := empty.with _ _
  rw [cmdCtxPurge_starts idle wait last, owned, Nat.zero_add]
  refine (pumpPurge_vacant empty' doms rfl).trans ?_
  rw [releaseCtx_running empty']
  exact endPurge_alone idle' cyc

/-! ### CTX_QUARANTINE (R432) and its release (R433) -/

theorem ctxHops_none (hops : m.red.hops = []) (x : Ctx) (g : Gen) : ctxHops m x g = [] := by
  rw [ctxHops, keysOf, hops]
  rfl

/-- With no hop bound and no wait parked no time is held or resumed. -/
theorem holdTimes_none (hops : m.red.hops = []) (waits : m.sync.waits = []) (x : Ctx) (g : Gen) : holdTimes x g m = m := by
  simp only [holdTimes, ctxHops_none hops, List.foldl_nil, waits, List.map_nil]
  rw [← waits]

theorem resumeTimes_none (hops : m.red.hops = []) (waits : m.sync.waits = []) (x : Ctx) (g : Gen) : resumeTimes x g m = m := by
  simp only [resumeTimes, ctxHops_none hops, List.foldl_nil, waits, List.map_nil]
  rw [← waits]

theorem frozenEvent_freezes : frozenEvent fx c false m = post fx 0x0D (BitVec.ofNat 64 ((cGen c).toNat * 4096 + (cCtx c).toNat)) m := by
  rw [frozenEvent, show b2n false = 0 from rfl, Nat.zero_mul, Nat.zero_add]

theorem frozenEvent_releases :
    frozenEvent fx c true m = post fx 0x0D (BitVec.ofNat 64 (2 ^ 32 + (cGen c).toNat * 4096 + (cCtx c).toNat)) m := by
  rw [frozenEvent, show b2n true = 1 from rfl, Nat.one_mul]

theorem cmdQuarantine_frozen (frozen : (ctxOf m (cCtx c)).frozen = true) : cmdQuarantine fx c m = complete fx c csDone [] m := if_pos frozen

/-- A freeze with nothing of the context at the slice completes at once. -/
theorem cmdQuarantine_vacant (free : (ctxOf m (cCtx c)).frozen = false) (hops : m.red.hops = []) (waits : m.sync.waits = [])
    (empty : Vacant m (cCtx c) (cGen c)) : cmdQuarantine fx c m =
      complete fx c csDone [] (post fx 0x0D (BitVec.ofNat 64 ((cGen c).toNat * 4096 + (cCtx c).toNat))
        (setCtx (cCtx c) { ctxOf m (cCtx c) with frozen := true } m)) := by
  have out : ctxOut (runOn c (.quarantine m.cyc) (post fx 0x0D (BitVec.ofNat 64 ((cGen c).toNat * 4096 + (cCtx c).toNat))
      (setCtx (cCtx c) { ctxOf m (cCtx c) with frozen := true } m))) (cCtx c) (cGen c) = 0 := by
    obtain ⟨q, l, e⟩ := post_frame fx 0x0D (BitVec.ofNat 64 ((cGen c).toNat * 4096 + (cCtx c).toNat))
      (setCtx (cCtx c) { ctxOf m (cCtx c) with frozen := true } m)
    rw [e]
    exact empty.ctxOut _ _
  simp only [cmdQuarantine, free, Bool.false_eq_true, if_false, holdTimes_none hops waits, frozenEvent_freezes]
  rw [pumpQuarantine, if_pos out, complete_runOn]

theorem cmdQuarantineRelease_free (free : (ctxOf m (cCtx c)).frozen = false) : cmdQuarantineRelease fx c m = complete fx c csDone [0] m := by
  rw [cmdQuarantineRelease]
  exact if_pos (by rw [free]; rfl)

theorem cmdQuarantineRelease_vacant (frozen : (ctxOf m (cCtx c)).frozen = true) (hops : m.red.hops = []) (waits : m.sync.waits = []) :
    cmdQuarantineRelease fx c m =
      complete fx c csDone [0] (post fx 0x0D (BitVec.ofNat 64 (2 ^ 32 + (cGen c).toNat * 4096 + (cCtx c).toNat))
        (setCtx (cCtx c) { ctxOf m (cCtx c) with frozen := false } m)) := by
  have resumed : ∀ x g, resumeTimes x g (setCtx (cCtx c) { ctxOf m (cCtx c) with frozen := false } m) =
      setCtx (cCtx c) { ctxOf m (cCtx c) with frozen := false } m := resumeTimes_none hops waits
  have none_ : (setCtx (cCtx c) { ctxOf m (cCtx c) with frozen := false } m).sync.waits = [] := waits
  simp only [cmdQuarantineRelease, frozen, Bool.not_true, Bool.false_eq_true, if_false, resumed, none_, List.filter_nil, List.map_nil,
    List.dedup_nil, releasePass, withPlace, List.foldl_nil, List.length_nil, frozenEvent_releases]
  rfl

/-! ### Their timers (R432, R437) -/

theorem quarantineExpire_none {x : Ctx} (none_ : ∀ r ∈ m.cmds.running, ∀ f, r.prog ≠ .quarantine f) : quarantineExpire fx x m = m := by
  rw [quarantineExpire]
  split
  · rename_i r found
    split
    · rename_i f freeze
      exact absurd freeze (none_ r (List.mem_of_find?_eq_some found) f)
    · rfl
  · rfl

theorem quarantineExpire_late {d : Rec} {f : Nat} (alone : m.cmds.running = [⟨d, .quarantine f⟩]) (late : f + 262144 ≤ m.cyc) :
    quarantineExpire fx (cCtx d) m = complete fx d csWarn [0, BitVec.ofNat 64 (ctxOut m (cCtx d) (cGen d))] m := by
  simp only [quarantineExpire, alone, List.find?_cons, decide_true]
  exact if_neg (Nat.not_lt.mpr late)

theorem cyc_advance (cyc : Nat) (m : Mach) : (advance cyc m).cyc = max cyc m.cyc := by
  obtain ⟨p, e⟩ := advance_frame cyc m
  rw [e]

theorem ctxOf_advance (cyc : Nat) (m : Mach) (x : Ctx) : ctxOf (advance cyc m) x = ctxOf m x := by
  obtain ⟨p, e⟩ := advance_frame cyc m
  rw [e, ctxOf, ctxOf]

theorem holdEnds_eq {x : Ctx} : holdEnds x m =
    if (ctxOf m x).holdTick ≠ 0 ∧ (ctxOf m x).holdTick ≤ m.cyc / 65536 then setCtx x { ctxOf m x with holdTick := 0 } m else m := rfl

end

/-! ### The obligation -/

/-- Settles O15, command by command, and then the two timers. -/
theorem contextTeardown : Obligations.ContextTeardown := by
  intro s p c m
  refine ⟨fun b empty last doms => ?purge, fun b freeze => ⟨fun frozen => ?again, fun free empty => ?freeze⟩,
    fun b => ⟨fun free => ?none, fun frozen empty => ?release⟩, fun x cyc => ⟨fun none_ => ?quiet, fun r f alone freeze same late => ?late, ?hold⟩⟩
  case purge =>
    have nothing := bare_iff.mp empty
    exact begins_completes b ((start_ctxPurge b).trans
      (cmdCtxPurge_vacant nothing.running b.waiting last doms (nothing.vacant b.resting) nothing.owned)) (resting_purge (resting_purged b.resting))
  case again =>
    exact begins_completes b ((start_ctxQuarantine b).trans ((if_neg (ne_true_of_eq_false freeze)).trans (cmdQuarantine_frozen frozen))) b.resting
  case freeze =>
    have nothing := bare_iff.mp empty
    exact begins_completes b ((start_ctxQuarantine b).trans ((if_neg (ne_true_of_eq_false freeze)).trans
      (cmdQuarantine_vacant free nothing.hops nothing.waits (nothing.vacant b.resting)))) (resting_post (resting_setCtx b.resting))
  case none => exact begins_completes b ((start_ctxQuarantineRelease b).trans (cmdQuarantineRelease_free free)) b.resting
  case release =>
    have nothing := bare_iff.mp empty
    exact begins_completes b ((start_ctxQuarantineRelease b).trans (cmdQuarantineRelease_vacant frozen nothing.hops nothing.waits))
      (resting_post (resting_setCtx b.resting))
  case quiet =>
    obtain ⟨p', e⟩ := advance_frame cyc s.m
    exact (row_quarantineTimeout ..).trans (actAt_goes (quarantineExpire_none (by rw [e]; exact none_)))
  case late =>
    obtain ⟨p', e⟩ := advance_frame cyc s.m
    obtain ⟨d, prog⟩ := r
    subst freeze same
    exact (row_quarantineTimeout ..).trans (actAt_goes (quarantineExpire_late (by rw [e]; exact alone) (by rw [e]; exact late)))
  case hold =>
    refine (row_teardownHoldExpiry ..).trans (actAt_goes (holdEnds_eq.trans ?_))
    rw [ctxOf_advance, cyc_advance]

end Sys2Proof.Machine
end

section
/-! SUPPORT. The commands on keys, attachment and measurement, and SCRUB_CONTEXT (14_confidential_operation.md R372 to R384): each command's own
refusals in their order, and what is left when it passes them. -/

namespace Sys2Proof.Machine

section
variable {fx : Fixed} {c : Rec} {m : Mach}

/-- The slot that a command on keys names. -/
def namedSlot (c : Rec) : BitVec 9 := BitVec.ofNat 9 (fld c.pkt.p0 8 0)

/-- A command that asks for key material waits for its answer. -/
theorem resting_asks {q : KReq} {n : BitVec 16} (h : resting m = true) :
    resting (runOn c (.key n) (sendKreq q { m with keys := { m.keys with reqs := m.keys.reqs ++ [q] } })) = true :=
  resting_runOn (resting_sendKreq h) rfl

/-! ### KEY_BIND and its REVOKE (R375) -/

/-- The slot is another's, or bound under another handle. -/
def bindBad (c : Rec) (m : Mach) : Prop :=
  ((kslot m (namedSlot c)).kind ≠ 0 ∧ (kslot m (namedSlot c)).kind ≠ 2) ∨
    ((kslot m (namedSlot c)).kind = 2 ∧ (kslot m (namedSlot c)).bindh ≠ BitVec.ofNat 16 (fld c.pkt.p0 31 16))

/-- Another context holds the slot's grant to load. -/
def loadHeld (c : Rec) (m : Mach) : Bool := m.keys.grants.any fun g => g.slot = namedSlot c && g.load && g.ctx ≠ cCtx c

/-- The table of grants is full, and holds none of this context and slot. -/
def grantsFull (c : Rec) (m : Mach) : Bool :=
  decide (1024 ≤ m.keys.grants.length) && !m.keys.grants.any fun g => g.slot = namedSlot c && g.ctx = cCtx c

theorem not_grantRoom : (!grantRoom m (namedSlot c) (cCtx c)) = grantsFull c m := by
  rw [grantRoom, grantsFull, Bool.not_or]
  congr 1
  rw [← decide_not]
  exact decide_eq_decide.mpr Nat.not_lt

theorem bindBad_iff : (((kslot m (namedSlot c)).kind ≠ 0 && (kslot m (namedSlot c)).kind ≠ 2) ||
    ((kslot m (namedSlot c)).kind = 2 && (kslot m (namedSlot c)).bindh ≠ BitVec.ofNat 16 (fld c.pkt.p0 31 16))) = true ↔ bindBad c m := by
  simp [bindBad]

theorem cmdKeyBind_bad (bad : bindBad c m) : cmdKeyBind fx c m = complete fx c csBadParam [] m := if_pos (bindBad_iff.mpr bad)

theorem cmdKeyBind_checked (good : ¬ bindBad c m) : cmdKeyBind fx c m =
    if cFlag c 1 && loadHeld c m then complete fx c csBusy [] m
    else if grantsFull c m then complete fx c csNoSpace [] m
    else runOn c (.key (newKreq (namedSlot c) false true (BitVec.ofNat 16 (fld c.pkt.p0 31 16)) (cCtx c) (cGen c) (some c.id) m).2)
      (newKreq (namedSlot c) false true (BitVec.ofNat 16 (fld c.pkt.p0 31 16)) (cCtx c) (cGen c) (some c.id) m).1 := by
  rw [← not_grantRoom]
  exact if_neg (mt bindBad_iff.mp good)

theorem cmdKeyUnbind_eq : cmdKeyUnbind fx c m = if cFlag c 1 then complete fx c csBadParam [] m else
    complete fx c csDone [] { m with keys := { m.keys with grants := m.keys.grants.filter fun g => !(g.slot = namedSlot c && g.ctx = cCtx c) } } := rfl

/-! ### KEY_ROTATE (R372) and KEY_RETIRE (R374) -/

theorem cmdKeyRotate_bad (bad : fld c.pkt.p0 31 16 = 0 ∨ (kslot m (namedSlot c)).kind ≠ 1) :
    cmdKeyRotate fx c m = complete fx c csBadParam [] m := if_pos (by simpa [namedSlot] using bad)

theorem cmdKeyRotate_checked (rate : fld c.pkt.p0 31 16 ≠ 0) (kind : (kslot m (namedSlot c)).kind = 1) : cmdKeyRotate fx c m =
    if (kslot m (namedSlot c)).v0 && (kslot m (namedSlot c)).v1 then complete fx c csBusy [1] m
    else
      let x := kslot m (namedSlot c)
      let r := newKreq (namedSlot c) (!x.cur) false 0 x.owner x.ogen (some c.id) m
      runOn c (.key r.2) r.1 := if_neg (by simpa [namedSlot] using ⟨rate, kind⟩)

/-- Issued reads whose line is under the slot that a retirement names. -/
def readsUnder (c : Rec) (m : Mach) : List (BitVec 10) :=
  (m.cache.tickets.filter fun t => t.issued && t.range.any fun r => r.keyslot = namedSlot c).map (·.num)

theorem cmdKeyRetire_bad (bad : ((kslot m (namedSlot c)).v0 && (kslot m (namedSlot c)).v1) = false) :
    cmdKeyRetire fx c m = complete fx c csBadParam [] m := if_pos ((Bool.not_eq_true' _).mpr bad)

theorem cmdKeyRetire_checked (v0 : (kslot m (namedSlot c)).v0 = true) (v1 : (kslot m (namedSlot c)).v1 = true) : cmdKeyRetire fx c m =
    if (kslot m (namedSlot c)).sweep then complete fx c csBusy [BitVec.ofNat 64 (rotLeft m (namedSlot c))] m
    else if readsUnder c m = [] then finishRetire fx c (namedSlot c) m else runOn c (.retire (namedSlot c) (readsUnder c m)) m := by
  have both : ((kslot m (namedSlot c)).v0 && (kslot m (namedSlot c)).v1) = true := Bool.and_eq_true_iff.mpr ⟨v0, v1⟩
  exact if_neg fun left => absurd both (ne_true_of_eq_false ((Bool.not_eq_true' _).mp left))

/-! ### CONF_ATTACH (R376) -/

/-- The context and the slot as CONF_ATTACH leaves them. -/
def attached (c : Rec) (m : Mach) : Mach :=
  setCtx (cCtx c) { ctxOf m (cCtx c) with conf := true } (setSlot (namedSlot c) { kslot m (namedSlot c) with conf := true } m)

/-- The first confidential context starts the power window and the latch period (R386, R387). -/
def startConf (m n : Mach) : Mach :=
  { n with
    life := { m.life with pmTlm := round8 m.freeN }
    freeN := m.freeN + 2
    pmc := { m.pmc with nextDue := if m.pmc.interval = 0 then m.cyc + 67108864 else m.pmc.nextDue } }

theorem cmdConfAttach_bad (bad : (ctxOf m (cCtx c)).keyv = false ∨ (ctxOf m (cCtx c)).keyslot ≠ namedSlot c) :
    cmdConfAttach fx c m = complete fx c csBadParam [] m := if_pos (by simpa [namedSlot] using bad)

theorem cmdConfAttach_checked (key : (ctxOf m (cCtx c)).keyv = true) (slot : (ctxOf m (cCtx c)).keyslot = namedSlot c) : cmdConfAttach fx c m =
    if (ctxOf m (cCtx c)).conf then complete fx c csDone [] m
    else if ownedCount m (cCtx c) (cGen c) ≠ 0 then complete fx c csBusy [BitVec.ofNat 64 (ownedCount m (cCtx c) (cGen c))] m
    else complete fx c csDone [] (if confPresent m then attached c m else startConf m (attached c m)) := by
  refine (if_neg (by simpa [namedSlot] using ⟨key, slot⟩)).trans ?_
  cases confPresent m <;> rfl

/-! ### MEASURE_READ (R380) -/

/-- The digest in its final form. -/
def finalDigest (d : Digest) : Digest := if d.st = 1 then { d with st := 2, h := shaFinal d.h d.bytes.toNat } else d

theorem cmdMeasureRead_eq : cmdMeasureRead fx c m =
    (let i := fld c.pkt.p0 3 0
     let f := finalDigest (digestOf m i)
     let y := shaDigest f.h
     if (digestOf m i).st = 0 then complete fx c csBadParam [] m
     else complete fx c (if f.taint then csPoisoned else csDone) [f.bytes.zeroExtend 64, y.extractLsb' 0 64, y.extractLsb' 64 64]
       (emit (.kdigest (BitVec.ofNat 4 i) f.taint f.owner f.ogen f.bytes y) (setDigest i f m))) := rfl

/-! ### SCRUB_CONTEXT (R384) -/

/-- The context's slot still holds key material. -/
def keyLeft (c : Rec) (m : Mach) : Bool := (ctxOf m (cCtx c)).keyv && slotHolds (kslot m (ctxOf m (cCtx c)).keyslot)

/-- A request or a command of the context is under way. -/
def ctxBusy (c : Rec) (m : Mach) : Bool := decide (ctxOut m (cCtx c) (ctxOf m (cCtx c)).gen ≠ 0) || ctxStarted m (cCtx c) c.id

theorem cmdScrubContext_plain (plain : (ctxOf m (cCtx c)).conf = false) : cmdScrubContext fx c m = complete fx (quiet c) csBadParam [] m :=
  if_pos (by show (!_) = true; rw [plain]; rfl)

theorem cmdScrubContext_conf (conf : (ctxOf m (cCtx c)).conf = true) : cmdScrubContext fx c m =
    if keyLeft c m then complete fx (quiet c) csBusy [1] m
    else if ctxBusy c m then complete fx (quiet c) csBusy [2] m
    else
      let r := scrubCtx fx (cCtx c) c.id m
      complete fx (quiet c) csDone [BitVec.ofNat 64 r.2.1, BitVec.ofNat 64 (r.2.2.1 * 2 ^ 32 + r.2.2.2.1), BitVec.ofNat 64 r.2.2.2.2] r.1 :=
  if_neg (by show ¬ (!_) = true; rw [conf]; decide)

theorem byRing_quiet : byRing (quiet c).pkt = byRing c.pkt := rfl

/-- SCRUB_CONTEXT completes with no event (Table CONF-9). -/
theorem begins_completesQuietly {s : State} {i : Instr} {n : Mach} {st : Nat} {res : List W64} (b : Begins s i c m)
    (e : startCmd s.fx c false m = complete s.fx (quiet c) st res n) (h : resting n = true) :
    exec i s = .next (s.put (complete s.fx (quiet c) st res n)) :=
  begins_finish b e (resting_complete (byRing_quiet.trans b.byRing) h)

end

/-! ### The obligation -/

/-- Settles O27, command by command: its refusals in their order, then what it does. -/
theorem keyCommands : Obligations.KeyCommands := by
  intro s p c m ends k x e n asks
  refine ⟨fun b plain => ?bind, fun b => ?revoke, fun b => ?rotate, fun b => ?retire, fun b => ?erase, fun b => ?attach, fun b => ?measure,
    fun b => ?scrub⟩
  case bind =>
    have start : startCmd s.fx c false m = cmdKeyBind s.fx c m := (start_keyBind b).trans (if_neg (ne_true_of_eq_false plain))
    have checked := fun good : ¬ bindBad c m => start.trans (cmdKeyBind_checked good)
    intro h other full bad
    refine ⟨fun wrong => begins_completes b (start.trans (cmdKeyBind_bad wrong)) b.resting, fun good load held => ?_, fun good free room => ?_,
      fun good free room => ?_⟩
    · exact begins_completes b ((checked good).trans (if_pos (by rw [load]; exact held))) b.resting
    · exact begins_completes b ((checked good).trans ((if_neg (ne_true_of_eq_false free)).trans (if_pos room))) b.resting
    · exact begins_finish b ((checked good).trans ((if_neg (ne_true_of_eq_false free)).trans (if_neg (ne_true_of_eq_false room))))
        (resting_asks b.resting)
  case revoke =>
    have start := (start_keyBindRevoke b).trans cmdKeyUnbind_eq
    exact ⟨fun load => begins_completes b (start.trans (if_pos load)) b.resting,
      fun plain => begins_completes b (start.trans (if_neg (ne_true_of_eq_false plain))) b.resting⟩
  case rotate =>
    intro rate
    have checked := fun (r : rate ≠ 0) (kind : x.kind = 1) => (start_keyRotate b).trans (cmdKeyRotate_checked (fx := s.fx) r kind)
    exact ⟨fun bad => begins_completes b ((start_keyRotate b).trans (cmdKeyRotate_bad bad)) b.resting,
      fun r kind v0 v1 => begins_completes b ((checked r kind).trans (if_pos (Bool.and_eq_true_iff.mpr ⟨v0, v1⟩))) b.resting,
      fun r kind one => begins_finish b ((checked r kind).trans (if_neg (ne_true_of_eq_false one))) (resting_asks b.resting)⟩
  case retire =>
    intro reads
    have checked := fun (v0 : x.v0 = true) (v1 : x.v1 = true) => (start_keyRetire b).trans (cmdKeyRetire_checked (fx := s.fx) v0 v1)
    have swept := fun (v0 : x.v0 = true) (v1 : x.v1 = true) (sweep : x.sweep = false) => (checked v0 v1).trans (if_neg (ne_true_of_eq_false sweep))
    exact ⟨fun bad => begins_completes b ((start_keyRetire b).trans (cmdKeyRetire_bad bad)) b.resting,
      fun v0 v1 sweep => begins_completes b ((checked v0 v1).trans (if_pos sweep)) b.resting,
      fun v0 v1 sweep => ⟨fun some_ => begins_finish b ((swept v0 v1 sweep).trans (if_neg some_)) (resting_runOn b.resting rfl),
        fun none_ => begins_completes b ((swept v0 v1 sweep).trans (if_pos none_)) (resting_emit b.resting)⟩⟩
  case erase =>
    obtain ⟨rest, erased⟩ := eraseSlot_rest s.fx k true true m b.resting
    refine ⟨begins_completes b (start_keyErase b) rest, fun wf => ?_⟩
    obtain ⟨first, second⟩ := erased wf
    exact ⟨(first rfl).1, (second rfl).1, (first rfl).2, (second rfl).2⟩
  case attach =>
    intro owned m'
    have checked := fun (key : e.keyv = true) (slot : e.keyslot = k) => (start_confAttach b).trans (cmdConfAttach_checked (fx := s.fx) key slot)
    have fresh := fun (key : e.keyv = true) (slot : e.keyslot = k) (plain : e.conf = false) =>
      (checked key slot).trans (if_neg (ne_true_of_eq_false plain))
    refine ⟨fun bad => begins_completes b ((start_confAttach b).trans (cmdConfAttach_bad bad)) b.resting, fun key slot =>
      ⟨fun conf => begins_completes b ((checked key slot).trans (if_pos conf)) b.resting,
       fun plain holds => begins_completes b ((fresh key slot plain).trans (if_pos holds)) b.resting, fun plain none_ others => ?_,
       fun plain none_ first => ?_⟩⟩
    · exact begins_completes b ((fresh key slot plain).trans ((if_neg (not_not_intro none_)).trans (by rw [if_pos others]; rfl))) b.resting
    · exact begins_completes b ((fresh key slot plain).trans ((if_neg (not_not_intro none_)).trans (by rw [if_neg (ne_true_of_eq_false first)]; rfl)))
        b.resting
  case measure =>
    intro i d f y
    have start := (start_measureRead b).trans cmdMeasureRead_eq
    exact ⟨fun none_ => begins_completes b (start.trans (if_pos none_)) b.resting,
      fun some_ => begins_completes b (start.trans (if_neg some_)) (resting_emit b.resting)⟩
  case scrub =>
    intro silent held out
    have checked := fun conf : e.conf = true => (start_scrubContext b).trans (cmdScrubContext_conf (fx := s.fx) conf)
    have unkeyed := fun (conf : e.conf = true) (gone : held = false) => (checked conf).trans (if_neg (ne_true_of_eq_false gone))
    exact ⟨fun plain => begins_completesQuietly b ((start_scrubContext b).trans (cmdScrubContext_plain plain)) b.resting,
      fun conf left => begins_completesQuietly b ((checked conf).trans (if_pos left)) b.resting,
      fun conf gone busy => begins_completesQuietly b ((unkeyed conf gone).trans (if_pos busy)) b.resting,
      fun conf gone free => begins_completesQuietly b ((unkeyed conf gone).trans (if_neg (ne_true_of_eq_false free)))⟩

end Sys2Proof.Machine
end

section
/-! SUPPORT. The seasons of the domains (13_seasons.md R344 to R356): the commands on tolerance and thaws, and the steps by which a domain enters
a season and leaves it. -/

namespace Sys2Proof.Machine

/-! ### What a block at rest keeps -/

/-- The tolerance and the tokens play no part in what can go on. -/
theorem resting_tolerance {m : Mach} {tol : BitVec 24} {tokens : BitVec 8} (h : resting m = true) :
    resting { m with season := { m.season with tol := tol, tokens := tokens } } = true := h

/-- Nothing waits for a domain that is up: a block at rest holds no thaw for it, and no step waits for it. -/
theorem resting_upDom {i : Nat} {d : Dom} {m : Mach} (h : resting m = true) (season : (dom m i).season = .summer ∨ (dom m i).season = .autumn)
    (entering : (dom m i).entering = none) : resting (setDom i d m) = true := by
  obtain ⟨k, -, -⟩ := (resting_iff m).mp h
  refine resting_setDom h (fun t ht e => ?_) (fun x hx e => ?_)
  · have wanted := k.thaws t ht
    rw [thawRests, e, entering] at wanted
    rcases season with s | s <;> (rw [s] at wanted; cases wanted)
  · have asleep := k.asleep x hx
    rw [domReady, e, entering] at asleep
    rcases season with s | s <;> (rw [s] at asleep; cases asleep)

/-- A domain that sleeps or thaws is still wanted by whatever waits for it. -/
theorem resting_asleepDom {i : Nat} {d : Dom} {m : Mach} (h : resting m = true) (summer : d.season ≠ .summer) (autumn : d.season ≠ .autumn) :
    resting (setDom i d m) = true := by
  have asleep : (decide (d.season = .summer) || decide (d.season = .autumn)) = false := by rw [decide_eq_false summer, decide_eq_false autumn]; rfl
  exact resting_setDom h (fun t _ _ => by rw [asleep]; rfl) (fun x _ _ => by rw [asleep]; rfl)

/-- Thaws that leave the queue leave nothing to go on. -/
theorem resting_thawQueue {m : Mach} {p : Thaw → Bool} (h : resting m = true) :
    resting { m with season := { m.season with queue := m.season.queue.filter p } } = true := by
  obtain ⟨k, l, w⟩ := (resting_iff m).mp h
  exact (resting_iff _).mpr ⟨⟨k.1, k.2, k.3, k.4, k.5, k.6, k.7, k.8, k.9, k.10, k.11, k.12, k.13, k.14, k.15, k.16,
    fun t ht => k.17 t (List.mem_of_mem_filter ht), k.18, k.19, k.20, k.21, k.22, k.23⟩, l, w⟩

/-- The contents that a domain loses play no part in it. -/
theorem resting_loseContents {d : Nat} {m : Mach} (h : resting m = true) : resting (loseContents d m) = true := by
  simp only [loseContents]
  split
  · exact h
  · split
    · exact h
    · split
      · exact resting_loseKeys h
      · exact h

/-! ### LATENCY_TOLERANCE (R352) -/

section
variable {fx : Fixed} {c : Rec} {m : Mach}

/-- The block with the tolerance that the command sets. -/
def tolerant (c : Rec) (m : Mach) : Mach := { m with season := { m.season with tol := BitVec.ofNat 24 (fld c.pkt.p0 23 0) } }

theorem cmdTolerance_raises (up : m.season.tol.toNat ≤ fld c.pkt.p0 23 0) :
    cmdTolerance fx c m = complete fx c csDone [m.season.tol.zeroExtend 64, 0] (tolerant c m) := if_pos up

/-- With no domain too deep for it no thaw is queued, and the command completes as the lighter ones wake. -/
theorem cmdTolerance_lowers (down : fld c.pkt.p0 23 0 < m.season.tol.toNat) (none_ : tooDeep (tolerant c m) (fld c.pkt.p0 23 0) = []) :
    cmdTolerance fx c m = complete fx c csDone [m.season.tol.zeroExtend 64, BitVec.ofNat 64 (tooLight (tolerant c m) (fld c.pkt.p0 23 0))]
      ((List.range 82).foldl (fun m d => wakeLight (fld c.pkt.p0 23 0) d m) (tolerant c m)) := by
  rw [tolerant] at none_
  simp only [cmdTolerance, if_neg (Nat.not_le.mpr down), none_, List.foldl_nil, List.length_nil, Nat.zero_add, pumpLatency, List.any_nil,
    Bool.false_eq_true, if_false, complete_runOn]
  rfl

/-! ### Entries (R345 to R351) -/

theorem autumnEnter_eq (d : Nat) : autumnEnter d m =
    if 5 ≤ m.season.tol.toNat ∧ (dom m d).season = .summer ∧ (dom m d).entering.isNone ∧
        (m.life.st ≠ .off ∧ m.life.st ≠ .init ∧ m.life.st ≠ .selftest ∧ m.life.domainsOff = false) then
      setDom d { dom m d with season := .autumn } m else m := by
  simp only [autumnEnter, ne_eq, Bool.and_eq_true, decide_eq_true_eq, Bool.not_eq_true', and_assoc]

theorem frostEnter_eq {d : Nat} (entering : (dom m d).entering = some .frost) (asleep : (dom m d).season ≠ .spring) : frostEnter fx d m =
    if !seasonsRun m || !mayFrost m d then giveUp d m else
    (let x := if d < 68 then evacuate fx (bankKeys m d) m else (m, true)
     if x.2 && !(decide (d < 68) && x.1.cache.writes.any fun w => decide (0 ∈ w.also)) then
       loseContents d (setDom d { dom x.1 d with season := .frost, entering := none } x.1) else x.1) :=
  if_pos ⟨entering, asleep⟩

theorem frostEnter_barred {d : Nat} (entering : (dom m d).entering = some .frost) (asleep : (dom m d).season ≠ .spring)
    (barred : (seasonsRun m && mayFrost m d) = false) : frostEnter fx d m = giveUp d m := by
  rw [frostEnter_eq entering asleep, ← Bool.not_and, barred]
  rfl

/-- A Frost entry with nothing left to write back is complete. -/
theorem frostEnter_complete {d : Nat} (entering : (dom m d).entering = some .frost) (asleep : (dom m d).season ≠ .spring)
    (may : (seasonsRun m && mayFrost m d) = true)
    (empty : d < 68 → bankKeys m d = [] ∧ ¬ m.cache.writes.any (fun w => decide (0 ∈ w.also)) = true) :
    frostEnter fx d m = loseContents d (setDom d { dom m d with season := .frost, entering := none } m) := by
  have gone : (if d < 68 then evacuate fx (bankKeys m d) m else (m, true)) = (m, true) := by
    split
    · rename_i bank
      rw [(empty bank).1]
      rfl
    · rfl
  have left : (decide (d < 68) && m.cache.writes.any fun w => decide (0 ∈ w.also)) = false := by
    by_cases bank : d < 68
    · rw [Bool.eq_false_iff.mpr (empty bank).2, Bool.and_false]
    · rw [decide_eq_false bank, Bool.false_and]
  rw [frostEnter_eq entering asleep, ← Bool.not_and, may]
  simp only [gone, left, Bool.not_true, Bool.not_false, Bool.and_self, Bool.false_eq_true, if_false, if_true]

/-! ### Thaws (R345, R353, R354) -/

theorem thawBegin_none (none_ : nextThaw m = none) : thawBegin m = m := by rw [thawBegin, none_]

theorem thawBegin_some {t : Thaw} (next : nextThaw m = some t) : thawBegin m =
    if 4 + m.season.tokens.toNat < springWeight m + seasonWeight (dom m t.dom).season then m
    else setDom t.dom { dom m t.dom with season := .spring, left := (dom m t.dom).season
                                         entering := if t.target = .winter then some .winter else none }
      { m with season := { m.season with queue := m.season.queue.filter (·.dom ≠ t.dom) } } := by
  rw [thawBegin, next]

theorem thawEnd_spring {d : Nat} (spring : (dom m d).season = .spring) : thawEnd d m =
    setDom d { season := if (dom m d).entering = some .winter then .winter else .summer, entering := none, left := .summer, idle := 0, used := true }
      (if d = dRed ∧ (dom m d).left = .frost then { m with red := { m.red with lanes := lanesOf m.red.seed } } else m) := by
  simp only [thawEnd, spring, if_true, Bool.and_eq_true, decide_eq_true_eq]

end

/-! ### The obligation -/

/-- Settles O26: the three commands, the entries and the thaw of each domain, and the row of a season window's end. -/
theorem seasonRows : Obligations.SeasonRows := by
  intro s p c m ends
  refine ⟨fun b => ⟨fun up => ?raised, fun down none_ rest => ?lowered⟩, fun b => ?query, fun b => ?grant,
    fun still d => ⟨?autumn, fun out => ?noWinter, fun entering asleep => ?winter, fun out => ?noFrost,
      fun entering asleep => ⟨fun barred rest => ?barred, fun may empty => ?frost⟩, fun asleep => ?noThaw, fun spring => ?thawed⟩,
    fun still => ⟨fun none_ => ?idle, fun t next => ⟨fun heavy => ?heavy, fun light within => ?starts⟩, fun cyc => ?window⟩⟩
  case raised => exact begins_completes b ((start_latencyTolerance b).trans (cmdTolerance_raises up)) (resting_tolerance b.resting)
  case lowered => exact begins_completes b ((start_latencyTolerance b).trans (cmdTolerance_lowers down none_)) rest
  case query => exact begins_completes b (start_seasonQuery b) b.resting
  case grant => exact begins_completes b (start_thawGrant b) (resting_tolerance b.resting)
  case autumn =>
    refine (row_autumnEntry ..).trans (actM_rest (autumnEnter_eq d.val) ?_)
    split
    · rename_i may
      obtain ⟨-, summer, entering, -⟩ := may
      exact resting_upDom still (.inl summer) (Option.isNone_iff_eq_none.mp entering)
    · exact still
  case noWinter => exact (row_winterEntryComplete ..).trans (actM_rest (if_neg out) still)
  case winter => exact fun rest => (row_winterEntryComplete ..).trans (actM_rest (if_pos ⟨entering, asleep⟩) rest)
  case noFrost => exact (row_frostEntryComplete ..).trans (actM_rest (if_neg out) still)
  case barred => exact (row_frostEntryComplete ..).trans (actM_rest (frostEnter_barred entering asleep barred) rest)
  case frost =>
    exact (row_frostEntryComplete ..).trans (actM_rest (frostEnter_complete entering asleep may empty)
      (resting_loseContents (resting_asleepDom still nofun nofun)))
  case noThaw => exact (row_thawComplete ..).trans (actM_rest (if_neg asleep) still)
  case thawed => exact fun rest => (row_thawComplete ..).trans (actM_rest (thawEnd_spring spring) rest)
  case idle => exact (row_thawStart ..).trans (actM_rest (thawBegin_none none_) still)
  case heavy => exact (row_thawStart ..).trans (actM_rest ((thawBegin_some next).trans (if_pos heavy)) still)
  case starts =>
    exact (row_thawStart ..).trans (actM_rest ((thawBegin_some next).trans (if_neg (Nat.not_lt.mpr light)))
      (resting_asleepDom (resting_thawQueue still) nofun nofun))
  case window => exact (row_seasonWindowEnd ..).trans (actAt_goes rfl)

end Sys2Proof.Machine
end

section
/-! SUPPORT. Counters, dumps, permits and debug access (18_counters_and_debug.md R454 to R465; 14_confidential_operation.md R386 to R388). -/

namespace Sys2Proof.Machine

/-! ### What a block at rest keeps -/

/-- The counters play no part in what can go on. -/
theorem resting_pmc {m : Mach} {p : PmcSt} (h : resting m = true) : resting { m with pmc := p } = true := h

/-- The debug facilities and the counter of free values play none either. -/
theorem resting_dbg {m : Mach} {d : DbgSt} {n : Nat} (h : resting m = true) : resting { m with dbg := d, freeN := n } = true := h

section
variable {p : Src → Bool} (own : ∀ op r, p (.dp op r) = false)
include own

/-- An access whose source is called off serves no request, if no request is named. -/
theorem openReq_orphaned (a : Access) : openReq (orphaned p a) = openReq a := by
  rw [orphaned]
  split
  · rename_i named
    have other : accReq a = [] := by
      rw [accReq]
      split
      · rename_i op r src
        rw [src, own] at named
        cases named
      · rfl
    rw [openReq, openReq, other]
    rfl
  · rfl

theorem unperformed_dropOwn (m : Mach) : unperformed (dropOwn p m) = unperformed m := by
  have after : ∀ w : WAfter, writeReqs openReq (orphanedAfter p w) = writeReqs openReq w := by
    intro w
    cases w with
    | thruHit set way a => exact openReq_orphaned own a
    | thruMiss a => exact openReq_orphaned own a
    | merge a => exact openReq_orphaned own a
    | _ => rfl
  simp only [unperformed, underWay, dropOwn, List.flatMap_map, openReq_orphaned own, after]

/-- Accesses of the slice's own called off leave nothing to go on. -/
theorem resting_dropOwn {m : Mach} (h : resting m = true) : resting (dropOwn p m) = true := by
  obtain ⟨k, l, w⟩ := (resting_iff m).mp h
  have none_ : (dropOwn p m).cache.done = [] := by rw [dropOwn, k.done]; rfl
  have own_ : (dropOwn p m).cache.own = [] := by rw [dropOwn, k.own]; rfl
  refine (resting_iff _).mpr ⟨⟨none_, own_, k.3, k.4, fun t ht => ?_, fun v hv => ?_, k.7, k.8, k.9,
    fun r hr => runRests_mono (fun x hx => by rw [unperformed_dropOwn own]; exact hx) (k.10 r hr),
    k.11, k.12, k.13, k.14, k.15, k.16, k.17, k.18, k.19, k.20, k.21, k.22, k.23⟩, l, w⟩
  · obtain ⟨t', ht', rfl⟩ := List.mem_map.mp ht
    exact k.tickets t' ht'
  · obtain ⟨v', hv', rfl⟩ := List.mem_map.mp hv
    exact k.writes v' hv'

end

theorem resting_endPermit {x : Ctx} {m : Mach} (h : resting m = true) : resting (endPermit x m) = true :=
  resting_dropOwn (fun _ _ => rfl) (resting_pmc h)

theorem not_bnot_of_true {b : Bool} (h : b = true) : ¬ (!b) = true := by rw [h]; decide

section
variable {fx : Fixed} {c : Rec} {m : Mach}

/-! ### PMC_CONFIG (18 R454) -/

/-- The counters with the named one programmed, and the counts cleared that the flags name. -/
def configured (c : Rec) (p : PmcSt) : PmcSt :=
  let n := fld c.pkt.p1 3 0
  let q := { p with ctl := tset 0 p.ctl n c.pkt.p0 }
  let q := if cFlag c 0 then { q with cnt := tset 0 q.cnt n 0 } else q
  if cFlag c 1 then { q with fixed := [] } else q

theorem cmdPmcConfig_bad (bad : pmcBad c.pkt.p0 = true) : cmdPmcConfig fx c m = complete fx c csBadParam [] m := if_pos bad

theorem cmdPmcConfig_sets (good : pmcBad c.pkt.p0 = false) : cmdPmcConfig fx c m =
    complete fx c csDone [tget 0 m.pmc.ctl (fld c.pkt.p1 3 0), ((shown m).prog.getD (fld c.pkt.p1 3 0) 0).zeroExtend 64]
      { m with pmc := configured c m.pmc } := if_neg (ne_true_of_eq_false good)

/-! ### PMC_DUMP_SET (18 R457) -/

/-- The size, in bytes, of the ring that PMC_DUMP_SET places. -/
def dumpBytes (c : Rec) : Nat := 256 * 2 ^ fld c.pkt.p1 4 0

/-- A ring that no dump may have: of no size, out of place, or over a key range or the format map. -/
def dumpBad (fx : Fixed) (c : Rec) (m : Mach) : Prop :=
  (fld c.pkt.p1 4 0 < 4 ∨ fld c.pkt.p1 4 0 > 16 ∨ c.pkt.p0.toNat % dumpBytes c ≠ 0) ∨
    (!runsAll (fun l => (rangeOf m l).isNone) (rangeRuns fx m c.pkt.p0 (dumpBytes c)) || mapMeets fx (rangeRuns fx m c.pkt.p0 (dumpBytes c))) = true

theorem cmdPmcDumpSet_bad (bad : dumpBad fx c m) : cmdPmcDumpSet fx c false m = complete fx c csBadParam [] m := by
  rcases bad with place | range
  · exact if_pos place
  · by_cases place : fld c.pkt.p1 4 0 < 4 ∨ fld c.pkt.p1 4 0 > 16 ∨ c.pkt.p0.toNat % dumpBytes c ≠ 0
    · exact if_pos place
    · exact (if_neg place).trans (if_pos range)

theorem cmdPmcDumpSet_checked (good : ¬ dumpBad fx c m) : cmdPmcDumpSet fx c false m =
    if !rangeHomed fx m c.pkt.p0 (dumpBytes c) then complete fx c csMishomed [] m
    else complete fx c csDone [m.pmc.base, m.pmc.seq.zeroExtend 64] { m with pmc := { m.pmc with
      base := c.pkt.p0
      size := BitVec.ofNat 5 (fld c.pkt.p1 4 0)
      interval := BitVec.ofNat 24 (fld c.pkt.p1 63 40)
      wr := 0
      rd := 0
      nextDue := if fld c.pkt.p1 63 40 = 0 then m.cyc + 67108864 else m.cyc + fld c.pkt.p1 63 40 * 1024 } } := by
  obtain ⟨place, range⟩ := not_or.mp good
  exact (if_neg place).trans (if_neg range)

/-! ### PMC_PERMIT (18 R461) -/

theorem cmdPmcPermit_unaligned (bad : c.pkt.p0.toNat % 256 ≠ 0) : cmdPmcPermit fx c false m = complete fx c csBadParam [] m := if_pos bad

theorem cmdPmcPermit_ends (aligned : c.pkt.p0.toNat % 256 = 0) (ends : cFlag c 0 = true) : cmdPmcPermit fx c false m =
    complete fx c csDone [BitVec.ofNat 64 (endPermit (cCtx c) m).pmc.permits.length] (endPermit (cCtx c) m) :=
  (if_neg (not_not_intro aligned)).trans (if_pos ends)

/-- The block with the context's one permit for the view named. -/
def permitted (c : Rec) (m : Mach) : Mach :=
  { m with pmc := { m.pmc with permits := m.pmc.permits.filter (·.ctx ≠ cCtx c) ++ [⟨cCtx c, cGen c, c.pkt.p0⟩] } }

theorem cmdPmcPermit_checks (aligned : c.pkt.p0.toNat % 256 = 0) (gives : cFlag c 0 = false) : cmdPmcPermit fx c false m =
    (let rs := rangeRuns fx m c.pkt.p0 256
     if mapMeets fx rs then complete fx c csBadParam [] m
     else if !(m.pmc.permits.any fun p => p.ctx = cCtx c) && decide (16 ≤ m.pmc.permits.length) then complete fx c csNoSpace [] m
     else if !rangeHomed fx m c.pkt.p0 256 then complete fx c csMishomed [] m
     else if !ctxReach m (cCtx c) true rs || !confDest m (cCtx c) false rs then complete fx c csDenied [] m
     else complete fx c csDone [BitVec.ofNat 64 (permitted c m).pmc.permits.length] (permitted c m)) :=
  (if_neg (not_not_intro aligned)).trans (if_neg (ne_true_of_eq_false gives))

theorem endPermit_all (x : Ctx) (m : Mach) : ((endPermit x m).pmc.permits.all fun q => q.ctx ≠ x) = true := by
  have kept : (endPermit x m).pmc.permits = m.pmc.permits.filter (·.ctx ≠ x) := rfl
  rw [kept, List.all_eq_true]
  exact fun q hq => (List.mem_filter.mp hq).2

/-! ### DEBUG_OPEN (18 R462) -/

/-- The block in DEBUG with the facilities that are asked for. -/
def debugging (fac : Nat) (m : Mach) : Mach :=
  { m with life := { m.life with dbgFrom := m.life.st, st := .debug }, dbg := { m.dbg with trace := fac % 2 = 1, peek := fac / 2 = 1 } }

theorem cmdDebugOpen_eq : cmdDebugOpen fx c m = if fld c.pkt.p0 1 0 = 0 then complete fx c csBadParam [] m else
    complete fx c csDone [BitVec.ofNat 64 (keysOf m.ctxs fun e => e.opened && e.conf).length]
      (debugging (fld c.pkt.p0 1 0) (eraseTenants fx c.id m)) := rfl

/-! ### Dumps and views (18 R459 to R461) -/

theorem dumpDue_early (early : m.pmc.interval = 0 ∨ m.cyc < m.pmc.nextDue) : dumpDue fx m = m := if_pos early

/-- The block with its next dump an interval later. -/
def dueNext (m : Mach) : Mach := { m with pmc := { m.pmc with nextDue := m.pmc.nextDue + m.pmc.interval.toNat * 1024 } }

theorem dumpDue_due (on : m.pmc.interval ≠ 0) (due : m.pmc.nextDue ≤ m.cyc) : dumpDue fx m =
    if scrubRunning m then { dueNext m with lateDumps := m.lateDumps + 1 } else takeDump fx false (dueNext m) :=
  if_neg (by rw [not_or]; exact ⟨on, Nat.not_lt.mpr due⟩)

theorem sendViews_none {missed : Nat} {late : Bool} (none_ : m.pmc.permits = []) : sendViews fx missed late m = m := by
  rw [sendViews, none_]
  rfl

/-- A dump with no view to write and no room in its ring is missed. -/
theorem takeDump_full {late : Bool} (none_ : m.pmc.permits = []) (full : (m.pmc.wr - m.pmc.rd).toNat = 2 ^ m.pmc.size.toNat ∨ m.pmc.left ≠ 0) :
    takeDump fx late m = { m with pmc := { m.pmc with snap := liveSnap m, seq := m.pmc.seq + 1, missed := m.pmc.missed + 1 } } := by
  have views : ∀ missed, sendViews fx missed late (latch m) = latch m := fun _ => sendViews_none (m := latch m) none_
  have no_room : (decide (((latch m).pmc.wr - (latch m).pmc.rd).toNat = 2 ^ (latch m).pmc.size.toNat) || decide ((latch m).pmc.left ≠ 0)) = true := by
    rw [Bool.or_eq_true, decide_eq_true_eq, decide_eq_true_eq]
    exact full
  simp only [takeDump, no_room, views, if_true]
  rfl

theorem viewTick_none (none_ : m.pmc.interval ≠ 0 ∨ m.pmc.permits = []) : viewTick fx m = m := by
  rw [viewTick]
  split
  · rename_i off
    exact sendViews_none (none_.resolve_left (not_not_intro off))
  · rfl

/-! ### The confidential latch and the power window (14 R386 to R388) -/

theorem confLatch_holds (h : confPresent m = false ∨ m.pmc.interval ≠ 0 ∨ m.cyc < m.pmc.nextDue) : confLatch m = m := by
  refine if_neg ?_
  rintro ⟨conf, off, due⟩
  rcases h with plain | on | early
  · exact absurd conf (ne_true_of_eq_false plain)
  · exact on off
  · exact absurd due (Nat.not_le.mpr early)

theorem confLatch_latches (conf : confPresent m = true) (off : m.pmc.interval = 0) (due : m.pmc.nextDue ≤ m.cyc) :
    confLatch m = { m with pmc := { m.pmc with snap := liveSnap m, nextDue := m.pmc.nextDue + 67108864 } } := if_pos ⟨conf, off, due⟩

theorem pmTlmWindow_quiet {sum k : Nat} (h : confPresent m = false ∨ k = 0) : pmTlmWindow sum k m = m := by
  refine if_pos ?_
  rw [Bool.or_eq_true, Bool.not_eq_true', decide_eq_true_eq]
  exact h

theorem pmTlmWindow_shows {sum k : Nat} (conf : confPresent m = true) (some_ : k ≠ 0) : pmTlmWindow sum k m =
    if (sum + 4 * k) / (8 * k) * 8 < 4096 then { m with life := { m.life with pmTlm := BitVec.ofNat 12 ((sum + 4 * k) / (8 * k) * 8) } }
    else { m with life := { m.life with pmTlm := Config.freePower m.freeN }, freeN := m.freeN + 1 } := by
  refine if_neg ?_
  rw [Bool.or_eq_true, Bool.not_eq_true', decide_eq_true_eq, not_or]
  exact ⟨ne_false_of_eq_true conf, some_⟩

/-! ### A peek (18 R464) -/

theorem peekResult_idle (idle : peekPend m = false) : peekResult m = m := if_pos (by rw [idle]; rfl)

theorem peekResult_word {w : W64} {k : BitVec 8} (pend : peekPend m = true) (word : peekAt m m.dbg.peekAddr = some (w, k)) :
    peekResult m = { m with dbg := { m.dbg with data0 := w, data1 := BitVec.ofNat 64 (2 ^ 63 + k.toNat) }, freeN := m.freeN + 1 } := by
  rw [peekResult, pend, word]
  rfl

theorem peekResult_none (pend : peekPend m = true) (none_ : peekAt m m.dbg.peekAddr = none) :
    peekResult m = { m with dbg := { m.dbg with data1 := 0 } } := by
  rw [peekResult, pend, none_]
  rfl

end

/-! ### The obligation -/

/-- Settles O30: the commands one by one, then the rows that come at a time, then the peek. -/
theorem counterAndDebugRows : Obligations.CounterAndDebugRows := by
  intro s p c m ends
  refine ⟨fun b => ?config, fun b => ?dumpSet, fun b => ?permit, fun b => ?debug, fun b => ?close,
    fun still => ⟨fun cyc => ?timed, fun idle => ?noPeek, fun pend => ⟨fun w k word => ?peeked, fun none_ => ?nothing⟩⟩⟩
  case config =>
    exact ⟨fun bad => begins_completes b ((start_pmcConfig b).trans (cmdPmcConfig_bad bad)) b.resting,
      fun good => begins_completes b ((start_pmcConfig b).trans (cmdPmcConfig_sets good)) (resting_pmc b.resting)⟩
  case dumpSet =>
    have checked := fun good : ¬ dumpBad s.fx c m => (start_pmcDumpSet b).trans (cmdPmcDumpSet_checked good)
    exact ⟨fun bad => begins_completes b ((start_pmcDumpSet b).trans (cmdPmcDumpSet_bad bad)) b.resting,
      fun good away => begins_completes b ((checked good).trans (if_pos ((Bool.not_eq_true' _).mpr away))) b.resting,
      fun good home => begins_completes b ((checked good).trans (if_neg (not_bnot_of_true home))) (resting_pmc b.resting)⟩
  case permit =>
    intro row view x rs has gone held
    refine ⟨fun bad => begins_completes b ((start_pmcPermit b).trans (cmdPmcPermit_unaligned bad)) b.resting,
      fun aligned ended => ⟨begins_completes b ((start_pmcPermit b).trans (cmdPmcPermit_ends aligned ended)) (resting_endPermit b.resting),
        endPermit_all x m⟩, fun aligned gives => ?_⟩
    have start := (start_pmcPermit b).trans (cmdPmcPermit_checks (fx := s.fx) aligned gives)
    have clear := fun clear : mapMeets s.fx rs = false => start.trans (if_neg (ne_true_of_eq_false clear))
    refine ⟨fun map => begins_completes b (start.trans (if_pos map)) b.resting, fun free none_ full =>
      begins_completes b ((clear free).trans (if_pos (by rw [show (m.pmc.permits.any fun p => p.ctx = cCtx c) = false from none_, decide_eq_true full]; rfl)))
        b.resting, fun free room => ?_⟩
    have roomy : ¬ (!has && decide (16 ≤ m.pmc.permits.length)) = true := by
      rw [Bool.and_eq_true, Bool.not_eq_true', decide_eq_true_eq]
      rintro ⟨none_, full⟩
      rcases room with some_ | less
      · exact absurd some_ (ne_true_of_eq_false none_)
      · exact absurd full (Nat.not_le.mpr less)
    have placed := (clear free).trans (if_neg roomy)
    have homed := fun home : rangeHomed s.fx m view 256 = true =>
      placed.trans (if_neg (not_bnot_of_true home))
    refine ⟨fun away => begins_completes b (placed.trans (if_pos ((Bool.not_eq_true' _).mpr away))) b.resting, fun home barred => ?_,
      fun home reach => ?_⟩
    · exact begins_completes b ((homed home).trans (if_pos (by rw [← Bool.not_and]; exact (Bool.not_eq_true' _).mpr barred))) b.resting
    · exact begins_completes b ((homed home).trans (if_neg (by rw [← Bool.not_and]; exact not_bnot_of_true reach)))
        (resting_pmc b.resting)
  case debug =>
    intro fac
    have start := (start_debugOpen b).trans cmdDebugOpen_eq
    exact ⟨fun none_ => begins_completes b (start.trans (if_pos none_)) b.resting,
      fun some_ => begins_completes b (start.trans (if_neg some_))⟩
  case close => exact begins_completes b (start_debugClose b) (resting_dbg (resting_life b.resting rfl))
  case timed =>
    intro n
    have rest : resting n = true := resting_advance still
    refine ⟨fun early => (row_dumpDue ..).trans (actAt_rest (dumpDue_early early) rest), fun on due => ?due,
      fun none_ => (row_viewRecordWrite ..).trans (actAt_rest (viewTick_none none_) rest),
      fun off => (row_viewRecordWrite ..).trans (actAt_goes (if_pos off)),
      fun holds => (row_confidentialLatch ..).trans (actAt_rest (confLatch_holds holds) rest),
      fun conf off due => (row_confidentialLatch ..).trans (actAt_rest (confLatch_latches conf off due) (resting_pmc rest)),
      fun sum k => ⟨fun quiet => (row_pmTlmWindowEnd ..).trans (actAt_rest (pmTlmWindow_quiet quiet) rest), fun conf some_ => ⟨fun fits => ?_, fun past => ?_⟩⟩⟩
    case due =>
      intro full
      have e := dumpDue_due (fx := s.fx) on due
      exact ⟨fun scrub => (row_dumpDue ..).trans (actAt_goes (e.trans (if_pos scrub))),
        fun free no_room none_ => (row_dumpDue ..).trans (actAt_rest (e.trans ((if_neg (ne_true_of_eq_false free)).trans
          (takeDump_full (m := dueNext n) none_ no_room))) (resting_pmc rest)),
        (row_dumpDue ..).trans (actAt_goes rfl)⟩
    · exact (row_pmTlmWindowEnd ..).trans (actAt_rest ((pmTlmWindow_shows conf some_).trans (if_pos fits)) (resting_life rest rfl))
    · exact (row_pmTlmWindowEnd ..).trans (actAt_rest ((pmTlmWindow_shows conf some_).trans (if_neg (Nat.not_lt.mpr past)))
        (resting_dbg (resting_life rest rfl)))
  case noPeek => exact (row_peekResult ..).trans (actM_rest (peekResult_idle idle) still)
  case peeked => exact (row_peekResult ..).trans (actM_rest (peekResult_word pend word) (resting_dbg still))
  case nothing => exact (row_peekResult ..).trans (actM_rest (peekResult_none pend none_) (resting_dbg still))

end Sys2Proof.Machine
end

section
/-! SUPPORT. Writes of the control window's registers (19_control_window.md): what an access brings to a register, who may write it, and
what each register does with the value. -/

namespace Sys2Proof.Machine

/-! ### An access brings its value to the register (R467 to R469) -/

theorem winWrite_off {fx : Fixed} {p : Path} {eight : Bool} {off : Nat} {d : W64} {m : Mach} (e : m.life.st = .off) :
    winWrite fx p eight off d m = (fx, m) := by
  rw [winWrite, winAccess, if_pos e]

/-- Four bytes written to a register of 32 bits. -/
theorem winWrite_narrow {fx : Fixed} {p : Path} {o : Nat} {d : W32} {w : Writer} {m : Mach} (on : m.life.st ≠ .off) (al : o % 4 = 0)
    (at_ : regAt o = some (o, false, w)) : winWrite fx p false o (d.zeroExtend 64) m =
      let x := writeMasked fx p o o w 0xFFFFFFFF (d.zeroExtend 64) (clearLatches p m)
      (x.1, x.2.1) := by
  rw [winWrite, winAccess_write4 on al, extract_zeroExtend]
  simp only [write4, at_, Bool.not_false, ↓reduceIte]

/-- Eight bytes written to a register of 64 bits, by another path than the sideband. -/
theorem winWrite_wide {fx : Fixed} {p : Path} {o : Nat} {d : W64} {w : Writer} {m : Mach} (on : m.life.st ≠ .off) (al : o % 8 = 0)
    (path : p ≠ .sideband) (at_ : regAt o = some (o, true, w)) : winWrite fx p true o d m =
      let x := writeMasked fx p o o w (BitVec.allOnes 64) d (clearLatches p m)
      (x.1, x.2.1) := by
  have fits : ¬ (o % (if true = true then 8 else 4) ≠ 0 ∨ (true = true ∧ p = .sideband)) := by simp [al, path]
  rw [winWrite, winAccess, if_neg on]
  dsimp only
  rw [if_neg fits, at_]
  rfl

/-- An access that is not aligned to its size, or of eight bytes by the sideband (R467). -/
theorem winWrite_unfit {fx : Fixed} {p : Path} {eight : Bool} {o : Nat} {d : W64} {m : Mach} (on : m.life.st ≠ .off)
    (bad : (eight = true ∧ p = .sideband) ∨ o % (if eight then 8 else 4) ≠ 0) : winWrite fx p eight o d m =
      (fx, if (clearLatches p m).life.st = .init then clearLatches p m else rejectOnly (clearLatches p m)) := by
  rw [winWrite, winAccess, if_neg on]
  dsimp only
  rw [if_pos bad.symm]
  by_cases init : (clearLatches p m).life.st = .init
  · rw [if_pos init, if_pos (by simpa using init)]
  · rw [if_neg init, if_neg (by simpa using init)]

/-- The latches are no register. -/
theorem regVal_clearLatches (fx : Fixed) (p : Path) (m : Mach) (o : Nat) : regVal fx (clearLatches p m) o = regVal fx m o := rfl

/-- A write of every bit leaves nothing of the old value. -/
theorem merge_allOnes (a d : W64) : (a &&& ~~~BitVec.allOnes 64) ||| (d &&& BitVec.allOnes 64) = d := by
  rw [BitVec.not_allOnes, BitVec.and_zero, BitVec.zero_or, BitVec.and_allOnes]

/-- A row that brings a value to a register: what each answer of `writeGate` makes of it. -/
theorem written {s : State} {row : Instr} {path : Path} {o : Nat} {w : Writer} {mask d v : W64} {f : Fixed → Mach → Fixed × Mach}
    (e : exec row s = act s f) (off : s.m.life.st = .off → f s.fx s.m = (s.fx, s.m))
    (on : s.m.life.st ≠ .off → f s.fx s.m =
      let x := writeMasked s.fx path o o w mask d (clearLatches path s.m)
      (x.1, x.2.1))
    (hv : (regVal s.fx (clearLatches path s.m) o &&& ~~~mask) ||| (d &&& mask) = v) (still : resting s.m = true) :
    let m := clearLatches path s.m
    let x := regWrite s.fx path o o v m
    (s.m.life.st = .off → exec row s = .next s) ∧
    (s.m.life.st ≠ .off → writeGate m path o w = .quiet_ → exec row s = .next (s.put m)) ∧
    (s.m.life.st ≠ .off → writeGate m path o w = .reject → exec row s = .next (s.put (rejectAt o m))) ∧
    (s.m.life.st ≠ .off → writeGate m path o w = .go → resting x.2.1 = true → exec row s = .next { s with fx := x.1, m := x.2.1 }) := by
  intro m x
  refine ⟨fun h => e.trans (act_rest (off h) still), fun h gate => e.trans (act_rest ((on h).trans ?_) (resting_regs still)),
    fun h gate => e.trans (act_rest ((on h).trans ?_) (resting_regs still)), fun h gate rest => e.trans (act_rest ((on h).trans ?_) rest)⟩
  · simp only [writeMasked, gate, m]
  · simp only [writeMasked, gate, m]
  · simp only [writeMasked, gate, m, x, hv]

/-! ### Who may write (R469) -/

section
variable {m : Mach} {p : Path} {o : Nat} {w : Writer}

theorem writeGate_reject (st : m.life.st ≠ .init) (h : w = .none ∨ w = .pilot ∧ pilotPath m p = false) : writeGate m p o w = .reject := by
  rcases h with rfl | ⟨rfl, no⟩ <;> simp [writeGate, *]

theorem writeGate_go (st : m.life.st ≠ .init)
    (h : w = .pilot ∧ pilotPath m p = true ∨ w = .aperture ∧ p = .aperture ∨ w = .inband ∧ p = .inband) (trace : o ≠ 0x3000)
    (peek : o ≠ 0x3008) : writeGate m p o w = .go := by
  rcases h with ⟨rfl, yes⟩ | ⟨rfl, rfl⟩ | ⟨rfl, rfl⟩ <;> simp [writeGate, *]

end

/-! ### What each register does with the value -/

section
variable (fx : Fixed) (p : Path) (off : Nat) (v : W64) (m : Mach)

theorem regWrite_ringCtl (f : Bool) : (regWrite fx p off (if f then 0x0140 else 0x0100) v m).2.1 = writeRingCtl fx f v m := by
  cases f <;> rfl

theorem regWrite_ringTail (f : Bool) : (regWrite fx p off (if f then 0x0160 else 0x0120) v m).2.1 = writeRingTail fx f v m := by
  cases f <;> rfl

theorem regWrite_replyHead (f : Bool) : (regWrite fx p off (if f then 0x016C else 0x012C) v m).2.1 = (writeReplyHead f off v m).1 := by
  cases f <;> rfl

theorem regWrite_evqCtl : (regWrite fx p off 0x0180 v m).2.1 = writeEvqCtl fx v m := rfl
theorem regWrite_evqHead : (regWrite fx p off 0x0194 v m).2.1 = (writeEvqHead off v m).1 := rfl
theorem regWrite_pmcRd : (regWrite fx p off 0x2554 v m).2.1 = (writePmcRd off v m).1 := rfl
theorem regWrite_redCtl : (regWrite fx p off 0x0208 v m).2.1 = writeRedCtl v m := rfl
theorem regWrite_peekAddr : (regWrite fx p off 0x3008 v m).2.1 = (writePeekAddr off v m).1 := rfl
theorem regWrite_bootCtl : (regWrite fx p off 0x0250 v m).2.1 = writeBootCtl v m := rfl
theorem regWrite_recov : (regWrite fx p off 0x0230 v m).2.1 = writeRecov p v m := rfl
theorem regWrite_sliceId : (regWrite fx p off 0x0010 v m).2.1 = (writeSliceId fx v m).2 := rfl

theorem regWrite_krt (n : BitVec 6) : (regWrite fx p off (0x2000 + 8 * n.toNat) v m).2.1 = writeKrt n.toNat v m := by
  have index : (0x2000 + 8 * n.toNat - 0x2000) / 8 = n.toNat := by omega
  simp (disch := omega) only [regWrite, if_neg, if_pos, index]

theorem regWrite_agent (n : BitVec 4) : (regWrite fx p off (0x0280 + 4 * n.toNat) v m).2.1 = (writeAgent n.toNat off v m).1 := by
  have index : (0x0280 + 4 * n.toNat - 0x0280) / 4 = n.toNat := by omega
  simp (disch := omega) only [regWrite, if_neg, if_pos, index]

end

/-! ### The control registers of the rings (R470, R473, R474; 03 R69, R70, R72) -/

section
variable (fx : Fixed) (f : Bool) (v : W64) (m : Mach)

theorem writeRingTail_disabled (h : (ringOf m f).en = false) : writeRingTail fx f v m = m := by
  rw [writeRingTail]
  exact if_pos ((Bool.not_eq_true' _).mpr h)

theorem writeRingTail_within (h : (ringOf m f).en = true)
    (fits : ((v.extractLsb' 0 16 : BitVec 16) - (ringOf m f).head).toNat ≤ 2 ^ (ringOf m f).size.toNat) :
    writeRingTail fx f v m = setRing f { ringOf m f with tail := v.extractLsb' 0 16 } m := by
  rw [writeRingTail]
  exact (if_neg (by simp [h])).trans (if_neg (Nat.not_lt.mpr fits))

theorem writeRingTail_past (h : (ringOf m f).en = true)
    (past : 2 ^ (ringOf m f).size.toNat < ((v.extractLsb' 0 16 : BitVec 16) - (ringOf m f).head).toNat) :
    writeRingTail fx f v m = ringError fx f 1 (setRing f { ringOf m f with tail := v.extractLsb' 0 16 } m) := by
  rw [writeRingTail]
  exact (if_neg (by simp [h])).trans (if_pos past)

/-- The rings of an enabled ring's registers lie where they may. -/
def ringFits (fx : Fixed) (m : Mach) (r : Ring) : Prop :=
  4 ≤ r.size.toNat ∧ r.size.toNat ≤ 12 ∧ r.base.toNat % (64 * 2 ^ r.size.toNat) = 0 ∧ r.rbase.toNat % (32 * 2 ^ r.size.toNat) = 0 ∧
    rangeHomed fx m r.base (64 * 2 ^ r.size.toNat) = true ∧ rangeHomed fx m r.rbase (32 * 2 ^ r.size.toNat) = true

theorem writeRingCtl_idle (h : (ringOf m f).en = bit v 31) : writeRingCtl fx f v m = m := by
  rw [writeRingCtl]
  cases hb : bit v 31 <;> simp [h, hb]

theorem writeRingCtl_disable (h : (ringOf m f).en = true) (hv : bit v 31 = false) :
    writeRingCtl fx f v m = setRing f { ringOf (dropFetch f m) f with en := false } (dropFetch f m) := by
  rw [writeRingCtl]
  exact (if_pos h).trans (if_neg (ne_true_of_eq_false hv))

theorem writeRingCtl_enable (h : (ringOf m f).en = false) (hv : bit v 31 = true) :
    (ringFits fx m (ringOf m f) →
      writeRingCtl fx f v m = setRing f { ringOf m f with en := true, err := false, tail := 0, head := 0, rtail := 0, rhead := 0 } m) ∧
    (¬ ringFits fx m (ringOf m f) → writeRingCtl fx f v m = setRing f { ringOf m f with err := true } m) := by
  rw [writeRingCtl]
  have on := ne_true_of_eq_false h
  have wants : ¬ (!bit v 31) = true := by simp [hv]
  refine ⟨fun fits => ?_, fun no => ?_⟩
  · refine (if_neg on).trans ((if_neg wants).trans (if_pos ?_))
    simpa [ringFits, and_assoc] using fits
  · refine (if_neg on).trans ((if_neg wants).trans (if_neg ?_))
    simpa [ringFits, and_assoc] using no

/-- The event ring of this size lies where it may. -/
def eventFits (fx : Fixed) (m : Mach) (size : BitVec 4) : Prop :=
  4 ≤ size.toNat ∧ size.toNat ≤ 12 ∧ m.evq.base.toNat % (16 * 2 ^ size.toNat) = 0 ∧
    rangeHomed fx m m.evq.base (16 * 2 ^ size.toNat) = true ∧
    runsAll (fun l => (rangeOf m l).isNone) (rangeRuns fx m m.evq.base (16 * 2 ^ size.toNat)) = true

theorem writeEvqCtl_plain (h : m.evq.en = true ∨ bit v 31 = false) : writeEvqCtl fx v m =
    { m with evq := { m.evq with sbmir := bit v 29, size := if m.evq.en then m.evq.size else v.extractLsb' 0 4, en := bit v 31 } } := by
  rw [writeEvqCtl]
  exact if_pos (by simpa using h)

theorem writeEvqCtl_enable (h : m.evq.en = false) (hv : bit v 31 = true) :
    (eventFits fx m (if m.evq.en then m.evq.size else v.extractLsb' 0 4) → writeEvqCtl fx v m =
      { m with evq := { m.evq with sbmir := bit v 29, size := if m.evq.en then m.evq.size else v.extractLsb' 0 4,
                                   en := true, err := false, tail := 0, head := 0 } }) ∧
    (¬ eventFits fx m (if m.evq.en then m.evq.size else v.extractLsb' 0 4) → writeEvqCtl fx v m =
      { m with evq := { m.evq with sbmir := bit v 29, size := if m.evq.en then m.evq.size else v.extractLsb' 0 4, err := true } }) := by
  rw [writeEvqCtl]
  have starts : ¬ (m.evq.en || !bit v 31) = true := by simp [h, hv]
  refine ⟨fun fits => (if_neg starts).trans ?_, fun no => (if_neg starts).trans ?_⟩
  · refine congrArg (fun q => { m with evq := q }) (if_pos ?_)
    simpa [eventFits, and_assoc] using fits
  · refine congrArg (fun q => { m with evq := q }) (if_neg ?_)
    simpa [eventFits, and_assoc] using no

end

/-! ### The other control registers -/

/-- A write of HC_AGENTn, on the state `c` that is left once HUNG is cleared where the value asks for it. -/
theorem writeAgent_on {n off : Nat} {v : W64} {m c : Mach}
    (hc : (if bit v 30 then { m with dir := { m.dir with hung := m.dir.hung &&& ~~~((1 : BitVec 16) <<< n) } } else m) = c) :
    (bit v 31 = false → (writeAgent n off v m).1 = { c with dir := { c.dir with en := c.dir.en &&& ~~~((1 : BitVec 16) <<< n) } }) ∧
    (bit v 31 = true → (writeAgent n off v m).1 =
      if reclaiming c n then rejectAt off c else { c with dir := { c.dir with en := c.dir.en ||| ((1 : BitVec 16) <<< n) } }) := by
  rw [writeAgent]
  dsimp only
  rw [hc]
  refine ⟨fun h => ?_, fun h => ?_⟩
  · rw [if_pos ((Bool.not_eq_true' _).mpr h)]
  · rw [if_neg (by simp [h]), apply_ite Prod.fst]

/-- A write of BOOT_CTL: phase 3 ends with HOLD. -/
theorem writeBootCtl_eq (v : W64) (m : Mach) : writeBootCtl v m = { m with life := { m.life with
    hold := bit v 31, rowHealth := v.extractLsb' 0 9
    phase := if m.life.st = .selftest ∧ m.life.phase = 3 ∧ bit v 31 = false then 4 else m.life.phase } } := by
  rw [writeBootCtl, endHold]
  by_cases h : m.life.st = .selftest ∧ m.life.phase = 3 ∧ bit v 31 = false
  · rw [if_pos h, if_pos ⟨h.1, h.2.1, (Bool.not_eq_true' _).mpr h.2.2⟩]
  · rw [if_neg h, if_neg fun g => h ⟨g.1, g.2.1, (Bool.not_eq_true' _).mp g.2.2⟩]

/-! ### The key ranges (14 R367) -/

/-- Two entries meet, and the other is locked. -/
def lockedClash (m : Mach) (r o : KRange) : Prop :=
  o.en = true ∧ krtLock m o = true ∧ r.base.toNat ≤ r.limit.toNat ∧ o.base.toNat ≤ o.limit.toNat ∧ r.base.toNat ≤ o.limit.toNat ∧
    o.base.toNat ≤ r.limit.toNat

section
variable (n : Nat) (v : W64) (m : Mach)

theorem writeKrt_locked (h : krtLock m (krt m n) = true) : writeKrt n v m = { m with keys := { m.keys with krtReject := true } } := by
  rw [writeKrt]
  exact if_pos h

theorem writeKrt_clashes (free : krtLock m (krt m n) = false) (en : (krtOf v).en = true)
    (h : ∃ j, j < 64 ∧ j ≠ n ∧ lockedClash m (krtOf v) (krt m j)) :
    writeKrt n v m = { m with keys := { m.keys with krtReject := true } } := by
  rw [writeKrt]
  refine (if_neg (ne_true_of_eq_false free)).trans (if_pos ?_)
  simpa [en, lockedClash, and_assoc] using h

theorem writeKrt_sets (free : krtLock m (krt m n) = false)
    (h : (krtOf v).en = true → ∀ j, j < 64 → j ≠ n → ¬ lockedClash m (krtOf v) (krt m j)) :
    writeKrt n v m = { m with keys := { m.keys with krt := tset .reset m.keys.krt n (krtOf v) } } := by
  rw [writeKrt]
  refine (if_neg (ne_true_of_eq_false free)).trans (if_neg ?_)
  simpa [lockedClash, and_assoc] using h

end

/-! ### The hardware fence with nothing outstanding (16 R431) -/

theorem hwFence_idle {m : Mach} (idle : Unheld m) (writes : m.cache.writes = []) (folds : m.red.folds = []) (counts : m.sync.coalWait = [])
    (waits : m.sync.waits = []) : hwFence m =
      { m with life := { m.life with st := .fenced, hwFence := some (m.cyc + 64) }, err := { m.err with fatal := true } } := by
  have idle' : Unheld { m with life := { m.life with st := .fenced }, err := { m.err with fatal := true } } := ⟨idle.1, idle.2, idle.3, idle.4, idle.5, idle.6⟩
  rw [hwFence]
  simp only [idle'.pullAccs, idle'.pullHosts, idle'.pullQueues, idle'.pullThaws, writes, folds, counts, waits, wakeParked, wakeAll,
    List.foldl_nil, List.flatMap_nil, List.filter_nil, List.map_nil, List.length_nil, max_self, Nat.add_zero]
  rw [← writes, ← folds, ← counts, ← waits]

/-! ### The rows -/

theorem row_bucketMaskWrite (path : Path) (n : BitVec 7) (data : W64) (s : State) :
    exec (.sliceIdWrite path (some n) data) s = act s fun fx m => pathWrite fx path false (0x0400 + 4 * n.toNat) data m := rfl

theorem row_sliceIdWrite (path : Path) (data : W64) (s : State) :
    exec (.sliceIdWrite path none data) s = act s fun fx m => pathWrite fx path true 0x0010 data m := rfl

/-- The rows of 32-bit registers bring four bytes to their register. -/
theorem exec_narrow {s : State} {row : Instr} {path : Path} {o : Nat} {d : W32}
    (h : (∃ f, row = .cmdqCtlWrite path f d ∧ o = if f then 0x0140 else 0x0100) ∨
      (∃ f, row = .cmdqTailWrite path f d ∧ o = if f then 0x0160 else 0x0120) ∨
      (∃ f, row = .rplqHeadWrite path f d ∧ o = if f then 0x016C else 0x012C) ∨ (row = .evqCtlWrite path d ∧ o = 0x0180) ∨
      (row = .evqHeadWrite path d ∧ o = 0x0194) ∨ (row = .recovCtlHwfence path d ∧ o = 0x0230) ∨ (row = .pmcRdWrite path d ∧ o = 0x2554) ∨
      (row = .redCtlWrite path d ∧ o = 0x0208) ∨ (row = .bootCtlWrite path d ∧ o = 0x0250) ∨
      (∃ n : BitVec 4, row = .hcAgentWrite path n d ∧ o = 0x0280 + 4 * n.toNat) ∨
      (∃ n : BitVec 7, row = .sliceIdWrite path (some n) (d.zeroExtend 64) ∧ o = 0x0400 + 4 * n.toNat) ∨
      (row = .registerWrite path false (BitVec.ofNat 16 o) (d.zeroExtend 64) ∧ o < 2 ^ 16)) :
    exec row s = act s fun fx m => winWrite fx path false o (d.zeroExtend 64) m := by
  have whole : ∀ fx o m, pathWrite fx path false o (d.zeroExtend 64) m = winWrite fx path false o (d.zeroExtend 64) m := fun _ _ _ => rfl
  rcases h with ⟨f, rfl, rfl⟩ | ⟨f, rfl, rfl⟩ | ⟨f, rfl, rfl⟩ | ⟨rfl, rfl⟩ | ⟨rfl, rfl⟩ | ⟨rfl, rfl⟩ | ⟨rfl, rfl⟩ | ⟨rfl, rfl⟩ | ⟨rfl, rfl⟩ |
    ⟨n, rfl, rfl⟩ | ⟨n, rfl, rfl⟩ | ⟨rfl, lt⟩
  · simp only [row_cmdqCtlWrite, whole]
  · simp only [row_cmdqTailWrite, whole]
  · simp only [row_rplqHeadWrite, whole]
  · simp only [row_evqCtlWrite, whole]
  · simp only [row_evqHeadWrite, whole]
  · simp only [row_recovCtlHwfence, whole]
  · simp only [row_pmcRdWrite, whole]
  · simp only [row_redCtlWrite, whole]
  · simp only [row_bootCtlWrite, whole]
  · simp only [row_hcAgentWrite, whole]
  · simp only [row_bucketMaskWrite, whole]
  · rw [row_registerWrite, BitVec.toNat_ofNat, Nat.mod_eq_of_lt lt]

/-- Those of 64-bit registers bring eight. -/
theorem exec_wide {s : State} {row : Instr} {path : Path} {o : Nat} {d : W64}
    (h : (row = .dbgPeekAddrWrite path d ∧ o = 0x3008) ∨ (∃ n : BitVec 6, row = .krtWrite path n d ∧ o = 0x2000 + 8 * n.toNat) ∨
      (row = .sliceIdWrite path none d ∧ o = 0x0010) ∨ (row = .registerWrite path true (BitVec.ofNat 16 o) d ∧ o < 2 ^ 16))
    (side : path ≠ .sideband) : exec row s = act s fun fx m => winWrite fx path true o d m := by
  have whole : ∀ fx o m, pathWrite fx path true o d m = winWrite fx path true o d m := fun fx o m => by
    rw [pathWrite, if_neg (by simp [side])]
  rcases h with ⟨rfl, rfl⟩ | ⟨n, rfl, rfl⟩ | ⟨rfl, rfl⟩ | ⟨rfl, lt⟩
  · simp only [row_dbgPeekAddrWrite, whole]
  · simp only [row_krtWrite, whole]
  · simp only [row_sliceIdWrite, whole]
  · rw [row_registerWrite, BitVec.toNat_ofNat, Nat.mod_eq_of_lt lt]

/-- Settles O33: each row brings its value to its register (`exec_narrow`, `exec_wide`), `writeGate` answers for the path (`written`), and
the register takes the value by the lemma of its write function. -/
theorem registerRows : Obligations.RegisterRows := by
  unfold Obligations.RegisterRows
  refine ⟨?narrow, ?wide, ?gate, ?effects, ?unfit⟩
  case narrow =>
    intro s row path o d w h al at_ still
    exact written (exec_narrow h) winWrite_off (fun on => winWrite_narrow on al at_) rfl still
  case wide =>
    intro s row path o d w h side al at_ still
    exact written (exec_wide h side) winWrite_off (fun on => winWrite_wide on al side at_) (merge_allOnes _ d) still
  case gate =>
    intro m p o w st
    refine ⟨fun e => writeGate_reject st (.inl e), fun e no => writeGate_reject st (.inr ⟨e, ?_⟩),
      fun e yes trace peek => writeGate_go st (.inl ⟨e, ?_⟩) trace peek, fun e ne => ?_, fun e ne => ?_⟩
    · cases p <;> exact decide_eq_false no
    · cases p <;> exact decide_eq_true yes
    · by_contra! h
      exact ne (writeGate_go st (.inr (.inl ⟨e, h.1⟩)) h.2.1 h.2.2)
    · by_contra! h
      exact ne (writeGate_go st (.inr (.inr ⟨e, h.1⟩)) h.2.1 h.2.2)
  case unfit =>
    intro s path eight o d bad lt on still
    rw [row_registerWrite, BitVec.toNat_ofNat, Nat.mod_eq_of_lt lt]
    refine act_rest (winWrite_unfit on bad) ?_
    split
    · exact resting_regs still
    · exact resting_regs still
  case effects =>
    intro fx p off v m
    refine ⟨fun f => ?ring, ?evqHead, ?pmcRd, regWrite_redCtl .., ?peek, fun n => ?krtOff, ⟨rfl, rfl⟩, fun n h31 h30 => ?agentOff,
      fun n h31 h30 => ?agentOn, fun n h30 => ?agentHung, fun n => ?krtOn, fun f => ?ringCtl, ?evqCtl, ?boot, ?recov⟩
    case ring =>
      simp only [regWrite_ringTail, regWrite_replyHead]
      refine ⟨writeRingTail_disabled fx f v m, writeRingTail_within fx f v m, writeRingTail_past fx f v m, fun fits => ?_, fun past => ?_⟩
      · exact congrArg Prod.fst (if_neg (Nat.not_lt.mpr fits))
      · exact congrArg Prod.fst (if_pos past)
    case evqHead =>
      exact ⟨fun fits => congrArg Prod.fst (if_neg (Nat.not_lt.mpr fits)), fun past => congrArg Prod.fst (if_pos past)⟩
    case pmcRd =>
      exact ⟨fun fits => congrArg Prod.fst (if_neg (Nat.not_lt.mpr fits)), fun past => congrArg Prod.fst (if_pos past)⟩
    case peek =>
      exact ⟨fun pend => congrArg Prod.fst (if_pos pend), fun none_ => congrArg Prod.fst (if_neg (ne_true_of_eq_false none_))⟩
    case krtOff =>
      simp only [regWrite_krt]
      exact ⟨writeKrt_locked n.toNat v m, fun free en => writeKrt_sets n.toNat v m free fun en' => absurd en' (ne_true_of_eq_false en)⟩
    case krtOn =>
      intro r clash free en
      rw [regWrite_krt]
      exact ⟨writeKrt_clashes n.toNat v m free en, fun none_ => writeKrt_sets n.toNat v m free fun _ => none_⟩
    case agentOff =>
      rw [regWrite_agent]
      exact (writeAgent_on (if_neg (ne_true_of_eq_false h30))).1 h31
    case agentOn =>
      rw [regWrite_agent]
      exact (writeAgent_on (if_neg (ne_true_of_eq_false h30))).2 h31
    case agentHung =>
      intro c
      rw [regWrite_agent]
      exact writeAgent_on (if_pos h30)
    case ringCtl =>
      intro r n fits t
      simp only [t, regWrite_ringCtl]
      exact ⟨fun en hv => writeRingCtl_idle fx f v m (en.trans hv.symm), writeRingCtl_disable fx f v m,
        fun dis hv => writeRingCtl_idle fx f v m (dis.trans hv.symm), fun dis hv => (writeRingCtl_enable fx f v m dis hv).1,
        fun dis hv => (writeRingCtl_enable fx f v m dis hv).2⟩
    case evqCtl =>
      exact ⟨writeEvqCtl_plain fx v m, fun dis hv => (writeEvqCtl_enable fx v m dis hv).1, fun dis hv => (writeEvqCtl_enable fx v m dis hv).2⟩
    case boot =>
      intro t
      rw [show t = _ from (regWrite_bootCtl ..).trans (writeBootCtl_eq v m)]
      refine ⟨rfl, rfl, fun st phase => ?_, fun no => if_neg fun h => ?_, rfl⟩
      · cases hv : bit v 31 <;> simp [st, phase]
      · exact no.elim (fun h' => h' h.1) (fun h' => h' h.2.1)
    case recov =>
      intro n t
      simp only [t, regWrite_recov]
      have frame : ∃ r, n = { m with regs := r } := by
        simp only [n]
        split
        · exact ⟨_, rfl⟩
        · exact ⟨m.regs, rfl⟩
      have fenced : p = .sideband → bit v 0 = true → writeRecov p v m = hwFence n := fun side hv => if_pos (by simp [side, hv])
      refine ⟨fun no => if_neg ?_, fun side hv => ⟨fenced side hv, fun replay tickets writes fills own qN qS folds thawQ counts waits => ?_⟩⟩
      · rcases no with side | hv
        · simp [side]
        · simp [hv]
      · obtain ⟨r, hr⟩ := frame
        rw [fenced side hv, hr]
        exact hwFence_idle ⟨replay, tickets, fills, qN, qS, thawQ⟩ writes folds counts waits

end Sys2Proof.Machine
end

section
/-! SUPPORT. The error commands and the scrubs (15_integrity_and_sparing.md R406 to R412; 16_recovery.md R430): what each command finds and
does. -/

namespace Sys2Proof.Machine

/-! ### Parts of the block in which nothing waits -/

theorem resting_err {m : Mach} {e : ErrSt} (h : resting m = true) : resting { m with err := e } = true := h

theorem rawFlip_frame (arr loc : Nat) (dx : W64) (cx : BitVec 8) (m : Mach) :
    ∃ e, rawFlip arr loc dx cx m = { m with cache := { m.cache with errs := e } } := by
  rw [rawFlip.eq_def]
  dsimp only
  split <;> (try split) <;> exact ⟨_, rfl⟩

theorem resting_rawFlip {arr loc : Nat} {dx : W64} {cx : BitVec 8} {m : Mach} (h : resting m = true) :
    resting (rawFlip arr loc dx cx m) = true := by
  obtain ⟨e, he⟩ := rawFlip_frame arr loc dx cx m
  rw [he]; exact h

/-! ### ERRLOG_READ (R406) -/

/-- The entries that an ERRLOG_READ finds. -/
def logEntries (c : Rec) (m : Mach) : List (W64 × W64) :=
  match logStart m (fld c.pkt.p0 15 0) with | some i => (m.err.log.drop i).take (fld c.pkt.p0 26 16) | none => []

theorem logEntries_none {c : Rec} {m : Mach} (h : logStart m (fld c.pkt.p0 15 0) = none) : logEntries c m = [] := by
  rw [logEntries, h]

theorem logEntries_some {c : Rec} {m : Mach} {i : Nat} (h : logStart m (fld c.pkt.p0 15 0) = some i) :
    logEntries c m = (m.err.log.drop i).take (fld c.pkt.p0 26 16) := by
  rw [logEntries, h]

/-- SEQ of the last of them, where CONSUME takes them out. -/
def logEaten (c : Rec) (m : Mach) : Option (BitVec 16) :=
  if cFlag c 0 then (logEntries c m).getLast?.map fun e => BitVec.ofNat 16 (fld e.1 47 32) else none

/-- The log with the entries up to it taken out. -/
def eaten (eat : Option (BitVec 16)) (m : Mach) : Mach := match eat with | some n => eatLog n m | none => m

theorem resting_eaten {eat : Option (BitVec 16)} {m : Mach} (h : resting m = true) : resting (eaten eat m) = true := by
  cases eat with
  | none => exact h
  | some n => exact resting_err h

/-- The numbers of the entries do not depend on the commands in progress. -/
theorem oldSeq_runOn (c : Rec) (p : Prog) (m : Mach) : oldSeq (runOn c p m) = oldSeq m := rfl

theorem eatLog_runOn (last : BitVec 16) (c : Rec) (p : Prog) (m : Mach) : eatLog last (runOn c p m) = runOn c p (eatLog last m) := by
  rw [eatLog, eatLog, oldSeq_runOn]
  generalize (last.toNat + 65536 - oldSeq m) % 65536 + 1 = n
  rfl

theorem eaten_runOn (eat : Option (BitVec 16)) (c : Rec) (p : Prog) (m : Mach) : eaten eat (runOn c p m) = runOn c p (eaten eat m) := by
  cases eat with
  | none => rfl
  | some n => exact eatLog_runOn n c p m

theorem seqWord_runOn (c : Rec) (p : Prog) (m : Mach) : seqWord (runOn c p m) = seqWord m := rfl

theorem endErrlog_eq (fx : Fixed) (c : Rec) (x y : W64) (eat : Option (BitVec 16)) (m : Mach) :
    endErrlog fx c x y eat m = complete fx c csDone [x, y, seqWord (eaten eat m)] (eaten eat m) := by
  cases eat with
  | none => simp only [endErrlog, eaten]
  | some n => simp only [endErrlog, eaten]

section
variable {fx : Fixed} {c : Rec} {m : Mach}

theorem cmdErrlogRead_entry {e : W64 × W64} (one : fld c.pkt.p0 26 16 = 1) (h : logEntries c m = [e]) :
    cmdErrlogRead fx c false m = complete fx c csDone [e.1, e.2, seqWord (eaten (logEaten c m) m)] (eaten (logEaten c m) m) := by
  rw [← endErrlog_eq, cmdErrlogRead, logEaten]
  rw [logEntries] at h ⊢
  generalize logStart m (fld c.pkt.p0 15 0) = start at h ⊢
  refine (if_neg (by omega)).trans ((if_pos one).trans ?_)
  cases start with
  | none => cases h
  | some i => simp only at h; simp only [h]

theorem cmdErrlogRead_empty (one : fld c.pkt.p0 26 16 = 1) (h : logEntries c m = []) :
    cmdErrlogRead fx c false m = complete fx c csDone [0, 0, seqWord m] m := by
  refine Eq.trans ?_ (endErrlog_eq fx c 0 0 none m)
  rw [cmdErrlogRead]
  rw [logEntries] at h
  generalize logStart m (fld c.pkt.p0 15 0) = start at h ⊢
  refine (if_neg (by omega)).trans ((if_pos one).trans ?_)
  cases start with
  | none => rfl
  | some i => simp only at h; simp only [h]

/-- A longer read, and what its range must be. -/
theorem cmdErrlogRead_longer (low : 2 ≤ fld c.pkt.p0 26 16) (high : fld c.pkt.p0 26 16 ≤ 1024) :
    cmdErrlogRead fx c false m =
      let homed := rangeHomed fx m c.pkt.p1 (fld c.pkt.p0 26 16 * 16)
      let rs := rangeRuns fx m c.pkt.p1 (fld c.pkt.p0 26 16 * 16)
      let as_ := logWrites fx m c.id c.pkt.p1 0 (logEntries c m)
      if fld c.pkt.p1 3 0 ≠ 0 ∨ (homed ∧ !runsAll (fun l => (rangeOf m l).isNone) rs) ∨ mapMeets fx rs then complete fx c csBadParam [] m
      else if !homed then complete fx c csMishomed [] m
      else pumpErrlog fx c as_.length (logEntries c m).length (logEaten c m)
        (as_.foldl (fun m a => doOwn fx a m) (runOn c (.errlog as_.length (logEntries c m).length (logEaten c m)) m)) := by
  rw [cmdErrlogRead, logEaten, logEntries]
  generalize logStart m (fld c.pkt.p0 15 0) = start
  refine (if_neg (by omega)).trans ((if_neg (by omega)).trans ?_)
  cases start <;> rfl

/-- A read that stores nothing has no acknowledgement to wait for. -/
theorem pumpErrlog_none (p : Prog) (n : Nat) (eat : Option (BitVec 16)) (done : m.cache.done = []) :
    pumpErrlog fx c 0 n eat (runOn c p m) =
      complete fx c csDone [BitVec.ofNat 64 n, 0, seqWord (eaten eat m)] (eaten eat m) := by
  have same : ∀ keep : Done → Bool, { runOn c p m with cache := { (runOn c p m).cache with done := (runOn c p m).cache.done.filter keep } } =
      runOn c p m := fun keep => by
    have : m.cache.done.filter keep = m.cache.done := by rw [done]; rfl
    simp only [runOn, this]
  rw [pumpErrlog]
  refine (if_pos (Nat.zero_le _)).trans ?_
  rw [same, endErrlog_eq]
  rw [eaten_runOn, seqWord_runOn, complete_runOn]

end

/-! ### SCRUB_RATE (R409) -/

/-- A range that no memory scrub can have. -/
def scrubBad (c : Rec) : Bool :=
  decide (cLen c = 4) && (decide (fld c.pkt.p2 6 0 ≠ 0) || decide (c.pkt.p3.toNat % 128 ≠ 0) || decide (c.pkt.p3.toNat < 128) ||
    decide (c.pkt.p3.toNat > 2 ^ 35))

/-- The old rates and the lines left. -/
def scrubWords (m : Mach) : List W64 :=
  [BitVec.ofNat 64 (m.err.mrate.toNat * 2 ^ 16 + m.err.rate.toNat), BitVec.ofNat 64 (m.err.mlines - m.err.mpos)]

section
variable {fx : Fixed} {c : Rec} {m : Mach}

theorem cmdScrubRate_short (short : decide (cLen c = 4) = false) : cmdScrubRate fx c m =
    complete fx c csDone (scrubWords m) { m with err := { m.err with rate := BitVec.ofNat 16 (fld c.pkt.p0 15 0) } } := by
  rw [cmdScrubRate, short]
  rfl

variable (good : ¬ scrubBad c = true) (long : decide (cLen c = 4) = true)
include good long

theorem cmdScrubRate_away (away : rangeHomed fx m c.pkt.p2 c.pkt.p3.toNat = false) :
    cmdScrubRate fx c m = complete fx c csMishomed [] m := by
  rw [scrubBad, long] at good
  rw [cmdScrubRate, long]
  exact (if_neg good).trans (if_pos ((Bool.not_eq_true' _).mpr away))

variable (home : rangeHomed fx m c.pkt.p2 c.pkt.p3.toNat = true)
include home

theorem cmdScrubRate_meets (map : mapMeets fx (rangeRuns fx m c.pkt.p2 c.pkt.p3.toNat) = true) :
    cmdScrubRate fx c m = complete fx c csBadParam [] m := by
  rw [scrubBad, long] at good
  rw [cmdScrubRate, long]
  exact (if_neg good).trans ((if_neg (not_bnot_of_true home)).trans (if_pos map))

theorem cmdScrubRate_ranged (map : mapMeets fx (rangeRuns fx m c.pkt.p2 c.pkt.p3.toNat) = false) : cmdScrubRate fx c m =
    complete fx c csDone (scrubWords m) { m with err := { m.err with
      rate := BitVec.ofNat 16 (fld c.pkt.p0 15 0), mrate := BitVec.ofNat 16 (fld c.pkt.p1 15 0), mrepeat := bit c.pkt.p1 16
      mstart := c.pkt.p2, mlines := c.pkt.p3.toNat / 128, mpos := 0 } } := by
  rw [scrubBad, long] at good
  rw [cmdScrubRate, long]
  exact (if_neg good).trans ((if_neg (not_bnot_of_true home)).trans (if_neg (ne_true_of_eq_false map)))

end

/-! ### INJECT (R411) -/

section
variable {fx : Fixed} {c : Rec} {m : Mach} {mode arr loc : Nat}

/-- The bits that INJECT changes in a stored word: none, those by which it differs from the operand, or those the operand names. -/
def injected (mode : Nat) (c : Rec) (d : W64) (k : BitVec 8) : W64 × BitVec 8 :=
  match mode with
  | 0 => (0, 0)
  | 1 => (d ^^^ c.pkt.p1, k ^^^ c.pkt.p2.extractLsb' 0 8)
  | _ => (c.pkt.p1, c.pkt.p2.extractLsb' 0 8)

theorem cmdInject_denied (h : confPresent m = true) : cmdInject fx c m = complete fx c csDenied [] m := if_pos h

variable (free : confPresent m = false) (hm : b2n (cFlag c 0) + 2 * b2n (cFlag c 1) = mode) (ha : fld c.pkt.p0 7 0 = arr)
  (hl : fld c.pkt.p0 63 8 = loc)
include free hm ha

theorem cmdInject_bad (h : mode = 3 ∨ 5 < arr) : cmdInject fx c m = complete fx c csBadParam [] m := by
  subst hm ha
  exact (if_neg (ne_true_of_eq_false free)).trans (if_pos h)

include hl

theorem cmdInject_badLine (known : mode ≠ 3) (line : arr = 5) (h : mode = 1 ∨ 2 ^ 35 ≤ loc ∨ loc % 128 ≠ 0 ∨ m.regs.lv = false) :
    cmdInject fx c m = complete fx c csBadParam [] m := by
  subst hm hl
  refine (if_neg (ne_true_of_eq_false free)).trans ((if_neg (by omega)).trans ((if_pos (ha.trans line)).trans (if_pos ?_)))
  simpa using h

theorem cmdInject_line (known : mode ≠ 3) (line : arr = 5) (h : ¬ (mode = 1 ∨ 2 ^ 35 ≤ loc ∨ loc % 128 ≠ 0 ∨ m.regs.lv = false)) :
    cmdInject fx c m =
      (let l : LineNo := BitVec.ofNat 28 (loc / 128)
       let f := if mode = 2 then some (c.pkt.p1, c.pkt.p2) else none
       pumpInject fx c l f false (runOn c (.inject l f false) m)) := by
  subst hm hl
  refine (if_neg (ne_true_of_eq_false free)).trans ((if_neg (by omega)).trans ((if_pos (ha.trans line)).trans (if_neg ?_)))
  simpa using h

theorem cmdInject_noWord (known : mode ≠ 3) (word : arr < 5) (h : rawGet m arr loc = none) :
    cmdInject fx c m = complete fx c csBadParam [] m := by
  subst hm ha hl
  refine (if_neg (ne_true_of_eq_false free)).trans ((if_neg (by omega)).trans ((if_neg (by omega)).trans ?_))
  rw [h]

theorem cmdInject_word (known : mode ≠ 3) (word : arr < 5) {d : W64} {k : BitVec 8} (h : rawGet m arr loc = some (d, k)) :
    cmdInject fx c m = complete fx c csDone [d, k.zeroExtend 64] (rawFlip arr loc (injected mode c d k).1 (injected mode c d k).2 m) := by
  subst hm ha hl
  refine (if_neg (ne_true_of_eq_false free)).trans ((if_neg (by omega)).trans ((if_neg (by omega)).trans ?_))
  rw [h]
  rfl

end

/-! ### POISON_CLEAR (R412) -/

theorem tagAt_runOn (set way : Nat) (c : Rec) (p : Prog) (m : Mach) : tagAt (runOn c p m) set way = tagAt m set way := rfl

theorem markRewritten_runOn (l : LineNo) (set way : Nat) (t : Tag) (c : Rec) (p : Prog) (m : Mach) :
    markRewritten l (setTag set way t (runOn c p m)) = runOn c p (markRewritten l (setTag set way t m)) := rfl

section
variable {fx : Fixed} {c : Rec} {m : Mach} {l : LineNo} {way : Nat} (free : (ticketFor m l).isSome = false) (fills : m.sparse.fills = [])
  (up : awake m [dTag (quadOf l), dWay m (setOf l) way] = true) (ok : sound m = true) (hit : hitWay m l = some way)
include free fills up ok hit

/-- A cached line without poison. -/
theorem pumpClear_clean (clean : (tagAt m (setOf l) way).poison = false) :
    pumpClear fx c l false false false m = complete fx c csDone [0] m := by
  rw [pumpClear]
  refine (if_neg (by simp [free, fills])).trans ?_
  rw [waitDoms_awake c.id up (by simp)]
  refine (if_neg (by simp)).trans ?_
  rw [scanSet_sound fx _ ok]
  dsimp only
  rw [hit]
  simp [clean]

/-- A poisoned line that is cached whole. -/
theorem pumpClear_poisoned (bad : (tagAt m (setOf l) way).poison = true) (whole : (tagAt m (setOf l) way).v = 0xF)
    (settled : way ∉ fillingWays m (setOf l)) : pumpClear fx c l false false false m =
      complete fx c csDone [1] (markRewritten l (setTag (setOf l) way { tagAt m (setOf l) way with v := 0xF, d := 0xF, poison := false } m)) := by
  rw [pumpClear]
  refine (if_neg (by simp [free, fills])).trans ?_
  rw [waitDoms_awake c.id up (by simp)]
  refine (if_neg (by simp)).trans ?_
  rw [scanSet_sound fx _ ok]
  dsimp only
  rw [hit]
  dsimp only
  rw [if_neg (by simp [bad]), waitDom_awake c.id up (by simp)]
  refine (if_neg (by simp [settled])).trans ((if_neg (not_not_intro whole)).trans ?_)
  rw [bad, ← whole]
  rfl

end

section
variable {fx : Fixed} {c : Rec} {m : Mach} (home : berthHome fx m c.pkt.p0 = true)
include home

theorem clearBerth_unaligned (odd : fld c.pkt.p0 6 0 ≠ 0) : clearBerth fx c m = complete fx c csBadParam [] m :=
  (if_neg (not_bnot_of_true home)).trans (if_pos odd)

variable (even : fld c.pkt.p0 6 0 = 0)
include even

theorem clearBerth_lost (lost : lostObj m 1 (bIdx c.pkt.p0) = true) : clearBerth fx c m = complete fx c csDenied [] m :=
  (if_neg (not_bnot_of_true home)).trans ((if_neg (not_not_intro even)).trans (if_pos lost))

/-- The place of the berth line at an address. -/
def berthSpot (m : Mach) (a : W64) : Nat × Nat := berthPlace m (berthOf m (bIdx a)) (bOff a)

variable (found : lostObj m 1 (bIdx c.pkt.p0) = false) (valid : (berthOf m (bIdx c.pkt.p0)).valid = true)
  (gen : (berthOf m (bIdx c.pkt.p0)).gen = bGen c.pkt.p0) (within : bOff c.pkt.p0 < ((berthOf m (bIdx c.pkt.p0)).size.toNat + 1) * 4096)
include found valid gen within

theorem clearBerth_clean (clean : (tagAt m (berthSpot m c.pkt.p0).1 (berthSpot m c.pkt.p0).2).poison = false) :
    clearBerth fx c m = complete fx c csDone [0] m :=
  (if_neg (not_bnot_of_true home)).trans ((if_neg (not_not_intro even)).trans ((if_neg (ne_true_of_eq_false found)).trans
    ((if_neg (by simp [valid, gen])).trans ((if_neg (Nat.not_le.mpr within)).trans (if_neg (ne_true_of_eq_false clean))))))

theorem clearBerth_poisoned (bad : (tagAt m (berthSpot m c.pkt.p0).1 (berthSpot m c.pkt.p0).2).poison = true) :
    clearBerth fx c m = complete fx c csDone [1] (setTag (berthSpot m c.pkt.p0).1 (berthSpot m c.pkt.p0).2
      { tagAt m (berthSpot m c.pkt.p0).1 (berthSpot m c.pkt.p0).2 with poison := false } m) :=
  (if_neg (not_bnot_of_true home)).trans ((if_neg (not_not_intro even)).trans ((if_neg (ne_true_of_eq_false found)).trans
    ((if_neg (by simp [valid, gen])).trans ((if_neg (Nat.not_le.mpr within)).trans (if_pos bad)))))

end

section
variable {fx : Fixed} {c : Rec} {m : Mach} (memory : cFlag c 0 = false) (even : fld c.pkt.p0 6 0 = 0)
include memory even

theorem cmdPoisonClear_nowhere (h : lineAt fx m c.pkt.p0 = none) : cmdPoisonClear fx c false m = complete fx c csMishomed [] m := by
  refine (if_neg (ne_true_of_eq_false memory)).trans ((if_neg (not_not_intro even)).trans ?_)
  rw [h]

variable {l : LineNo} (at_ : lineAt fx m c.pkt.p0 = some l)
include at_

theorem cmdPoisonClear_conf (h : ((rangeOf m l).any fun r => (kslot m r.keyslot).conf) = true) :
    cmdPoisonClear fx c false m = complete fx c csDenied [] m := by
  refine (if_neg (ne_true_of_eq_false memory)).trans ((if_neg (not_not_intro even)).trans ?_)
  rw [at_]
  exact (if_neg Bool.false_ne_true).trans (if_pos h)

theorem cmdPoisonClear_begins (h : ((rangeOf m l).any fun r => (kslot m r.keyslot).conf) = false) :
    cmdPoisonClear fx c false m = pumpClear fx c l false false false (runOn c (.poison l false false false) m) := by
  refine (if_neg (ne_true_of_eq_false memory)).trans ((if_neg (not_not_intro even)).trans ?_)
  rw [at_]
  exact (if_neg Bool.false_ne_true).trans (if_neg (ne_true_of_eq_false h))

variable (h : ((rangeOf m l).any fun r => (kslot m r.keyslot).conf) = false) {way : Nat} (free : (ticketFor m l).isSome = false)
  (fills : m.sparse.fills = []) (up : awake m [dTag (quadOf l), dWay m (setOf l) way] = true) (ok : sound m = true)
  (hit : hitWay m l = some way)
include h free fills up ok hit

theorem cmdPoisonClear_clean (clean : (tagAt m (setOf l) way).poison = false) : cmdPoisonClear fx c false m = complete fx c csDone [0] m :=
  (cmdPoisonClear_begins memory even at_ h).trans
    ((pumpClear_clean (m := runOn c (.poison l false false false) m) free fills up ok hit clean).trans (complete_runOn fx c _ csDone [0] m))

theorem cmdPoisonClear_clears (bad : (tagAt m (setOf l) way).poison = true) (whole : (tagAt m (setOf l) way).v = 0xF)
    (settled : way ∉ fillingWays m (setOf l)) : cmdPoisonClear fx c false m =
      complete fx c csDone [1] (markRewritten l (setTag (setOf l) way { tagAt m (setOf l) way with v := 0xF, d := 0xF, poison := false } m)) := by
  rw [cmdPoisonClear_begins memory even at_ h,
    pumpClear_poisoned (m := runOn c (.poison l false false false) m) free fills up ok hit bad whole settled, tagAt_runOn, markRewritten_runOn,
    complete_runOn]

end

/-! ### ENGINE_RESET (16 R430) -/

/-- The domain of an engine is in Frost. -/
def engineCold (m : Mach) (e : Nat) : Bool :=
  let frost := fun (d : Nat) => decide ((dom m d).season = .frost)
  (e = 0 && frost dRed) || ((e = 1 || e = 2) && frost dEngine) || (e = 4 && frost dCipher)

/-- What each engine gives up: items, commands, and what is left. -/
def engineGives (fx : Fixed) (m : Mach) : Nat → Nat × Nat × Mach
  | 0 => ((resetReduction fx m).2, 0, (resetReduction fx m).1)
  | 1 => (0, (cancelProgs fx isCopy dropDigest m).2, (cancelProgs fx isCopy dropDigest m).1)
  | 2 => (0, (cancelProgs fx isMaint (fun _ m => m) m).2, stopFrosts (cancelProgs fx isMaint (fun _ m => m) m).1)
  | 3 => ((pullAccs (fun op _ => decide (op ∈ atomicOps)) (closeOff stRetry) m).2, 0,
      (pullAccs (fun op _ => decide (op ∈ atomicOps)) (closeOff stRetry) m).1)
  | _ => (0, 0, m)

section
variable {fx : Fixed} {c : Rec} {m : Mach}

theorem cmdEngineReset_gives (warm : engineCold m (fld c.pkt.p0 2 0) = false) {e : Nat} (h : fld c.pkt.p0 2 0 = e) (known : e < 5) :
    cmdEngineReset fx c m = complete fx c csDone [BitVec.ofNat 64 (engineGives fx m e).1, BitVec.ofNat 64 (engineGives fx m e).2.1]
      (engineGives fx m e).2.2 := by
  rw [cmdEngineReset]
  refine (if_neg (by omega)).trans ((if_neg (ne_true_of_eq_false warm)).trans ?_)
  rw [h]
  interval_cases e <;> simp [engineGives]

theorem cancelProgs_idle {pick : Prog → Bool} {after : Rec → Mach → Mach} (idle : m.cmds.running = []) : cancelProgs fx pick after m = (m, 0) := by
  simp only [cancelProgs, idle, List.filter_nil, List.foldl_nil, List.length_nil]

end

/-! ### The scrubs (R407, R410) -/

section
variable {fx : Fixed} {m : Mach} (ok : sound m = true)
include ok

theorem scanDirEnt_sound (k : Nat) : scanDirEnt fx k m = m := by
  simp [scanDirEnt, sound_errs ok, ArrErr.none]

theorem scrubLine_sound (set way : Nat) : scrubLine fx set way m = m := by
  rw [scrubLine, scanWay_sound fx set way 0xF ok]
  split
  · rfl
  split
  · split
    · rw [scanBerth_sound fx set way 0xF _ _ ok]; rfl
    · rfl
  · exact ite_self m

/-- Where every stored word agrees with its code, the array scrub only moves on. -/
theorem scrubStep_sound (runs : scrubsRun m = true) (rate : m.err.rate ≠ 0) :
    scrubStep fx none m = { m with err := { m.err with scrubPos := (m.err.scrubPos + 1) % 131072 } } := by
  rw [scrubStep]
  refine (if_neg (by simp [runs])).trans ((if_neg rate).trans ?_)
  have dirs : ∀ (k : Nat) (l : List Nat),
      l.foldl (fun m j => if domReady m (dDir ((k + j) / 16 % 4)) then scanDirEnt fx (k + j) m else m) m = m := fun k =>
    List.foldl_fixed' fun j => by rw [scanDirEnt_sound ok, ite_self]
  simp only [scanTag_sound ok, scrubLine_sound ok, dirs, scanAcc_sound fx _ ok, scanSync_sound fx _ ok, ite_self]

end

section
variable {fx : Fixed} {m : Mach}

theorem scrubStep_off (u : Option Upset) (h : scrubsRun m = false) : scrubStep fx u m = m := if_pos (by simp [h])

theorem scrubStep_rateZero (h : m.err.rate = 0) : scrubStep fx none m = m := by
  rw [scrubStep]
  split
  · rfl
  · exact if_pos h

theorem scrubStep_upset {u : Upset} (runs : scrubsRun m = true) (rate : (disturb fx u m).err.rate = 0) :
    scrubStep fx (some u) m = disturb fx u m := (if_neg (by simp [runs])).trans (if_pos rate)

theorem memScrubStep_off (h : scrubsRun m = false ∨ m.err.mrate = 0 ∨ m.err.mlines ≤ m.err.mpos) : memScrubStep fx m = m :=
  if_pos (by simpa [or_assoc] using h)

/-- A dense line that is cached is passed; after the last the event is posted. -/
theorem memScrubStep_passes {l : LineNo} (runs : scrubsRun m = true) (rate : m.err.mrate ≠ 0) (left : m.err.mpos < m.err.mlines)
    (at_ : runsAt (scrubRuns fx m) m.err.mpos = some l) (ok : sound m = true) (unlocked : m.sparse.locked ≠ some (BitVec.ofNat 23 (granOf l)))
    (up : mapAwake fx l m = true) (dense : storedForm fx l m = .dense m) (hit : (hitWay m l).isSome = true) :
    memScrubStep fx m =
      if m.err.mpos + 1 < m.err.mlines then { m with err := { m.err with mpos := m.err.mpos + 1 } }
      else post fx 0x0E m.err.mstart
        (if m.err.mrepeat then { m with err := { m.err with mpos := 0 } } else { m with err := { m.err with mpos := m.err.mpos + 1 } }) := by
  rw [memScrubStep]
  refine (if_neg (by simpa [runs, left] using rate)).trans ?_
  rw [at_]
  refine (if_neg (by simp [pageLocked, unlocked, up])).trans ?_
  rw [scanSet_sound fx _ ok, ite_self, dense]
  exact if_pos hit

end

/-! ### Settled -/

/-- Settles O29: each command's own lemma carries it to its end or to what its engine does next, and each scrub's step to what it finds. -/
theorem errorCommands : Obligations.ErrorCommands := by
  unfold Obligations.ErrorCommands
  intro s p c m ends becomes
  refine ⟨fun b => ?errlog, fun b => ?rate, fun b => ?inject, fun b => ?poison, fun b => ?reset, fun n => onward_resting, fun still => ?scrub⟩
  case errlog =>
    generalize at_ : logStart m (fld c.pkt.p0 15 0) = start
    intro row cnt dest ents eat ate homed rs bad
    have entries : ents = logEntries c m := by
      cases start with
      | none => exact (logEntries_none at_).symm
      | some i => exact (logEntries_some at_).symm
    have last : eat = logEaten c m := by simp only [eat, entries, logEaten]
    have left : ate = eaten eat m := by
      cases which : eat <;> simp only [ate, which, eaten]
    clear_value ate eat ents
    subst left last entries
    have quiet : resting (eaten (logEaten c m) m) = true := resting_eaten b.resting
    refine ⟨fun h => begins_completes b ((start_errlogRead b).trans (if_pos h)) b.resting,
      fun one => ⟨fun e h => begins_completes b ((start_errlogRead b).trans (cmdErrlogRead_entry one h)) quiet,
        fun h => begins_completes b ((start_errlogRead b).trans (cmdErrlogRead_empty one h)) b.resting⟩, fun low high => ?_⟩
    have start := (start_errlogRead b).trans (cmdErrlogRead_longer (fx := s.fx) (m := m) low high)
    refine ⟨fun h => begins_completes b (start.trans (if_pos h)) b.resting,
      fun ok away => begins_completes b (start.trans ((if_neg ok).trans (if_pos ((Bool.not_eq_true' _).mpr away)))) b.resting,
      fun ok home => ?_⟩
    have stores := start.trans ((if_neg ok).trans (if_neg (not_bnot_of_true home)))
    refine ⟨fun none_ => begins_completes b (stores.trans ?_) quiet, begins_onward b stores⟩
    rw [none_]
    exact pumpErrlog_none _ _ _ (done_resting b.resting)
  case rate =>
    intro e n four bad e1
    refine ⟨fun h => begins_completes b ((start_scrubRate b).trans (if_pos h)) b.resting, fun good long away => ?away,
      fun good long home map => ?map, fun good long home map => ?ranged, fun short => ?short⟩
    case away =>
      exact begins_completes b ((start_scrubRate b).trans (cmdScrubRate_away (ne_true_of_eq_false good) long away)) b.resting
    case map =>
      exact begins_completes b ((start_scrubRate b).trans (cmdScrubRate_meets (ne_true_of_eq_false good) long home map)) b.resting
    case ranged =>
      exact begins_completes b ((start_scrubRate b).trans (cmdScrubRate_ranged (ne_true_of_eq_false good) long home map)) (resting_err b.resting)
    case short =>
      exact begins_completes b ((start_scrubRate b).trans (cmdScrubRate_short short)) (resting_err b.resting)
  case inject =>
    intro row mode arr loc badLine
    refine ⟨fun h => begins_completes b ((start_inject b).trans (cmdInject_denied h)) b.resting,
      fun free h => begins_completes b ((start_inject b).trans (cmdInject_bad free rfl rfl h)) b.resting,
      fun free known line h => begins_completes b ((start_inject b).trans (cmdInject_badLine free rfl rfl rfl known line h)) b.resting,
      fun free known line h => begins_onward b ((start_inject b).trans (cmdInject_line free rfl rfl rfl known line h)),
      fun free known word => ⟨fun h => begins_completes b ((start_inject b).trans (cmdInject_noWord free rfl rfl rfl known word h)) b.resting,
        fun d k h => ?_⟩⟩
    intro asks
    have flips := begins_completes b ((start_inject b).trans (cmdInject_word free rfl rfl rfl known word h)) (resting_rawFlip b.resting)
    refine ⟨fun e => ?_, fun e => ?_, fun e => ?_⟩
    all_goals
      rw [show b2n (cFlag c 0) + 2 * b2n (cFlag c 1) = _ from e] at flips
      exact flips
  case poison =>
    intro row a x
    refine ⟨fun berth => ?_, fun memory => ?_⟩
    · have start : startCmd s.fx c false m = clearBerth s.fx c m := (start_poisonClear b).trans (if_pos berth)
      refine ⟨fun away => begins_completes b (start.trans (if_pos ((Bool.not_eq_true' _).mpr away))) b.resting, fun home odd => ?_,
        fun even home lost => ?_, fun even home found valid gen within => ?_⟩
      · exact begins_completes b (start.trans (clearBerth_unaligned home odd)) b.resting
      · exact begins_completes b (start.trans (clearBerth_lost home even lost)) b.resting
      · exact ⟨fun clean => begins_completes b (start.trans (clearBerth_clean home even found valid gen within clean)) b.resting,
          fun bad => begins_completes b (start.trans (clearBerth_poisoned home even found valid gen within bad)) (resting_setTag b.resting)⟩
    · have start : startCmd s.fx c false m = _ := (start_poisonClear b).trans (if_neg (ne_true_of_eq_false memory))
      refine ⟨fun odd => begins_completes b (start.trans (if_pos odd)) b.resting, fun even none_ => ?_, fun l even at_ => ?_⟩
      · exact begins_completes b ((start_poisonClear b).trans (cmdPoisonClear_nowhere memory even none_)) b.resting
      · intro conf
        refine ⟨fun held => begins_completes b ((start_poisonClear b).trans (cmdPoisonClear_conf memory even at_ held)) b.resting,
          fun open_ => ?_⟩
        refine ⟨begins_onward b ((start_poisonClear b).trans (cmdPoisonClear_begins memory even at_ open_)),
          fun way free fills up ok hit => ⟨fun clean => ?_, fun bad whole settled => ?_⟩⟩
        · exact begins_completes b ((start_poisonClear b).trans (cmdPoisonClear_clean memory even at_ open_ free fills up ok hit clean)) b.resting
        · exact begins_completes b
            ((start_poisonClear b).trans (cmdPoisonClear_clears memory even at_ open_ free fills up ok hit bad whole settled))
            (resting_markRewritten (resting_setTag b.resting))
  case reset =>
    intro row e frost cold gaveUp
    refine ⟨fun h => begins_completes b ((start_engineReset b).trans (if_pos h)) b.resting,
      fun known h => begins_completes b ((start_engineReset b).trans ((if_neg (Nat.not_le.mpr known)).trans (if_pos h))) b.resting,
      fun warm => ?_⟩
    have gives : ∀ {k}, e = k → k < 5 → startCmd s.fx c false m = _ := fun h known =>
      (start_engineReset b).trans (cmdEngineReset_gives warm h known)
    refine ⟨fun h => ?_, fun h => ?_, fun h => ?_, fun h => ?_, fun h => ?_, fun h idle => ?_⟩
    all_goals
      have start := gives h (by decide)
      simp only [engineGives] at start
    all_goals dsimp only [gaveUp, becomes, row]
    · exact begins_onward b start
    · exact begins_onward b start
    · exact begins_onward b start
    · exact begins_onward b start
    · exact begins_completes b start b.resting
    · rw [cancelProgs_idle idle] at start
      exact begins_completes b start b.resting
  case scrub =>
    intro n
    have stays : ∀ {u}, scrubStep s.fx u s.m = s.m → exec (.scrubStep u) s = .next s := fun e => (row_scrubStep _ s).trans (actM_rest e still)
    refine ⟨fun u off => stays (scrubStep_off u off), fun rate => stays (scrubStep_rateZero rate),
      fun u runs rate => (row_scrubStep _ s).trans (actM_goes (scrubStep_upset runs rate)),
      fun ok runs rate => (row_scrubStep _ s).trans (actM_rest (scrubStep_sound ok runs rate) (resting_err still)),
      fun u => (row_scrubStep _ s).trans (actM_goes rfl),
      fun off => (row_memoryScrubStep s).trans (actM_rest (memScrubStep_off off) still), ?_, (row_memoryScrubStep s).trans (actM_goes rfl)⟩
    intro l runs rate left at_ ok unlocked up dense hit moved again
    have passes := memScrubStep_passes (fx := s.fx) runs rate left at_ ok unlocked up dense hit
    have quiet : resting again = true := by
      simp only [again]
      split
      · exact resting_err still
      · exact resting_err still
    exact ⟨fun more => (row_memoryScrubStep s).trans (actM_rest (passes.trans (if_pos more)) (resting_err still)),
      fun last => (row_memoryScrubStep s).trans (actM_rest (passes.trans (if_neg (by omega))) (resting_post quiet))⟩

end Sys2Proof.Machine
end
